-- ==== Sys2Proof/Word.lean ====
section
/-! DEFINITION. The word types of the Z64 and the one shape of sparse data (a list of key and value pairs). -/

namespace Sys2Proof

/-- A byte of memory (R4). -/
abbrev Byte := BitVec 8
/-- A 16-bit value. -/
abbrev W16 := BitVec 16
/-- A lane's value and a scalar instruction word (R20, R44). -/
abbrev W32 := BitVec 32
/-- A scalar register's value (R105). -/
abbrev W64 := BitVec 64
/-- A unit of lane code (R44). -/
abbrev W96 := BitVec 96

/-- Sparse data by number: keys strictly rising. What an absent key reads as is said where a map is read. -/
abbrev NMap (β : Type) := List (Nat × β)

end Sys2Proof
end

