-- ==== Sys2Proof/Config.lean ====
section
/-! DEFINITION. What the spec leaves to the part: free values without a body, so that no proof can use a number of the model's. -/

namespace Sys2Proof.Config

/-- Ticks that a die's retention ticker advances in a step (R6: no fixed phase and no exact ratio between ticks and cycles); arguments: the ticker (0 to 7 Vale dies, 8 Basin, 9 to 12 Col dies) and the number of the step. A free value (DESIGN CHOICE, log entry 2). -/
opaque tickAdvance : Nat → Nat → Nat

/-- The f32 that the part delivers for an SFU function that R174 bounds but does not fix (EXP2 0, LOG2 1, RSQ 3, SIN 5, COS 6, TANH 7; 16 more for ty f16), by its f32 input: used where it meets the bound. A free value, the same on every part (DESIGN CHOICE, log entry 3). -/
opaque sfuValue : Nat → W32 → W32

/-- Whether an SLH-DSA-SHAKE-256s signature of an image verifies against the fused key (R383): arguments image, signature (DESIGN CHOICE, log entry 4). -/
opaque slhVerify : List Byte → List Byte → Bool

/-- The fused minimum security version of a stage (R383; DESIGN CHOICE, log entry 4). -/
opaque minSvn : Nat → Byte

/-- The signature of a report body by the identity key (R385, R386; DESIGN CHOICE, log entry 4): byte i of the signature. -/
opaque slhSign : List Byte → Nat → Byte

/-- The package serial number (R386; DESIGN CHOICE, log entry 4). -/
opaque serial : BitVec 128

/-- The digest of the identity public key (R386; DESIGN CHOICE, log entry 4). -/
opaque keyId : BitVec 256

/-- The bus address of the staging buffer of an NVMe command that the host builds (R316), by program slot and number of the command (DESIGN CHOICE, log entry 11): a free value. -/
opaque stagingBuf : Nat → Nat → W64

/-- What an access to the exchange window of a team that has left its core returns (R196, R256: it is made nowhere), by a number of the step, the lane and the byte (DESIGN CHOICE, log entry 63): a free value. -/
opaque lostValue : Nat → W32

/-- Byte i of the image of a team that step n writes to its save area (R231, R233: the spec gives the size of an image, not its layout), and word i of a team whose image software has changed in the area, when it comes back (DESIGN CHOICE, log entry 68): free values. -/
opaque imageByte : Nat → Nat → Byte
opaque imageWord : Nat → Nat → W64

end Sys2Proof.Config
end

