-- ==== Sys2Proof/Syntax.lean ====
section
/-! DEFINITION. The syntax of everything the Z64 executes: one constructor of Instr for each row of the table of operations and events. -/

namespace Sys2Proof

/-- The fields of a lane instruction word that every lane opcode shares (R53); the opcode itself is the constructor. -/
structure LaneW where
  ty : BitVec 4
  md : BitVec 4
  dist : BitVec 3
  g : BitVec 3
  gn : BitVec 1
  vd : BitVec 10
  va : BitVec 10
  vb : BitVec 10
  vc : BitVec 10
  im : BitVec 1
  low : W32
  deriving DecidableEq, Repr

/-- The one to four 64-bit words of a stream command (R61); words that the command does not have are 0. -/
structure StreamW where
  w0 : W64
  w1 : W64
  w2 : W64
  w3 : W64
  deriving DecidableEq, Repr

/-- A management command block (R378). -/
structure MgmtW where
  cmd : Byte
  flags : Byte
  ctx : W16
  resv : W32
  w1 : W64
  w2 : W64
  w3 : W64
  w4 : W64
  w5 : W64
  w6 : W64
  w7 : W64
  deriving DecidableEq, Repr

/-- One operation of an atomic request at a home slice (R197, R349): byte offset in the line, operand, comparison value. -/
structure SliceOp where
  off : Nat
  val : W64
  cmp : W64
  deriving DecidableEq, Repr

/-- What a request asks of a home slice (R345, R346, R349). -/
inductive SliceKind where
  | read
  | write (mask : BitVec 128) (data : BitVec 1024)
  | atomic (op : BitVec 4) (bytes : Nat) (float : Bool) (ops : List SliceOp)
  deriving DecidableEq, Repr

/-- A request for one 128-byte line of HBM (R343, R345). -/
structure SliceReq where
  pa : Nat
  kind : SliceKind
  deriving DecidableEq, Repr

/-- A stage that the boot ROM loads (R383): its image, its signature and its security version. -/
structure BootStage where
  image : List Byte
  sig : List Byte
  svn : Byte
  deriving DecidableEq, Repr

/-- The operands of an event that no instruction word carries: what the agent that brings the event about names. Each event's
meaning says which of these it reads; the others are ignored. (DESIGN CHOICE, log entry 54) -/
structure EvArg where
  /-- a strand, team, launch, stream program, context, queue, port or die number -/
  who : Nat := 0
  core : Nat := 0
  /-- a place in a list of outstanding operations, or a second number -/
  idx : Nat := 0
  addr : Nat := 0
  size : Nat := 0
  val : Nat := 0
  val2 : Nat := 0
  flag : Bool := false
  bytes : List Byte := []
  req : SliceReq := { pa := 0, kind := .read }
  stages : List BootStage := []
  deriving DecidableEq, Repr

/-- Everything that the table of operations and events lists: scalar instructions, lane instructions, stream commands, and
events, whose operands stand in the state (EvArg) or in the register or message that brings them about. -/
inductive Instr where
  /-- ADD (R110). -/
  | add (d a b : BitVec 6)
  /-- SUB (R110). -/
  | sub (d a b : BitVec 6)
  /-- MUL (R110). -/
  | mul (d a b : BitVec 6)
  /-- MULH (R110). -/
  | mulh (d a b : BitVec 6)
  /-- MULHN (R110). -/
  | mulhn (d a b : BitVec 6)
  /-- DIV (R110). -/
  | div (d a b : BitVec 6)
  /-- DIVN (R110). -/
  | divn (d a b : BitVec 6)
  /-- REM (R110). -/
  | rem (d a b : BitVec 6)
  /-- REMN (R110). -/
  | remn (d a b : BitVec 6)
  /-- AND (R110). -/
  | and (d a b : BitVec 6)
  /-- OR (R110). -/
  | or (d a b : BitVec 6)
  /-- XOR (R110). -/
  | xor (d a b : BitVec 6)
  /-- ANDN (R110). -/
  | andn (d a b : BitVec 6)
  /-- SHL (R110). -/
  | shl (d a b : BitVec 6)
  /-- SHR (R110). -/
  | shr (d a b : BitVec 6)
  /-- SAR (R110). -/
  | sar (d a b : BitVec 6)
  /-- MIN (R110). -/
  | min (d a b : BitVec 6)
  /-- MAX (R110). -/
  | max (d a b : BitVec 6)
  /-- MINN (R110). -/
  | minn (d a b : BitVec 6)
  /-- MAXN (R110). -/
  | maxn (d a b : BitVec 6)
  /-- SLT (R110). -/
  | slt (d a b : BitVec 6)
  /-- SLTN (R110). -/
  | sltn (d a b : BitVec 6)
  /-- SEQ (R110). -/
  | seq (d a b : BitVec 6)
  /-- POPC (R110). -/
  | popc (d a : BitVec 6)
  /-- CLZ (R110). -/
  | clz (d a : BitVec 6)
  /-- CTZ (R110). -/
  | ctz (d a : BitVec 6)
  /-- ADDI (R111). -/
  | addi (d a : BitVec 6) (i : BitVec 14)
  /-- ANDI (R111). -/
  | andi (d a : BitVec 6) (i : BitVec 14)
  /-- ORI (R111). -/
  | ori (d a : BitVec 6) (i : BitVec 14)
  /-- XORI (R111). -/
  | xori (d a : BitVec 6) (i : BitVec 14)
  /-- SLTI (R111). -/
  | slti (d a : BitVec 6) (i : BitVec 14)
  /-- SHLI (R111). -/
  | shli (d a n : BitVec 6)
  /-- SHRI (R111). -/
  | shri (d a n : BitVec 6)
  /-- SARI (R111). -/
  | sari (d a n : BitVec 6)
  /-- LIH (R111). -/
  | lih (d : BitVec 6) (i : BitVec 20)
  /-- LD (R113). -/
  | ld (t b : BitVec 6) (s : BitVec 3) (z : BitVec 2) (x : BitVec 1) (o : BitVec 8)
  /-- ST (R113). -/
  | st (t b : BitVec 6) (s : BitVec 3) (z : BitVec 2) (o : BitVec 8)
  /-- CSRR (R122). -/
  | csrr (d : BitVec 6) (c : BitVec 12)
  /-- CSRW (R122). -/
  | csrw (a : BitVec 6) (c : BitVec 12)
  /-- CSRS (R122). -/
  | csrs (a : BitVec 6) (c : BitVec 12)
  /-- CSRC (R122). -/
  | csrc (a : BitVec 6) (c : BitVec 12)
  /-- B_CC (R116). -/
  | bcc (a b : BitVec 6) (c : BitVec 3) (o : BitVec 11)
  /-- J (R116). -/
  | j (o : BitVec 26)
  /-- JAL (R116). -/
  | jal (o : BitVec 26)
  /-- JR (R116). -/
  | jr (a : BitVec 6)
  /-- JALR (R116). -/
  | jalr (d a : BitVec 6)
  /-- LOOP (R116). -/
  | loop (a : BitVec 6) (o : BitVec 11)
  /-- DISP (R117). -/
  | disp (d : BitVec 6) (i : BitVec 20)
  /-- VGET_V (R118). -/
  | vgetV (d a : BitVec 6) (n : BitVec 10)
  /-- VGET_K (R118). -/
  | vgetK (d a : BitVec 6) (n : BitVec 3)
  /-- VSET_V (R118). -/
  | vsetV (d a : BitVec 6) (n : BitVec 10)
  /-- VSET_K (R118). -/
  | vsetK (d a : BitVec 6) (n : BitVec 3)
  /-- FWAIT (R120). -/
  | fwait (f : BitVec 4)
  /-- FENCE_ACQ (R95). -/
  | fenceAcq (s : BitVec 3)
  /-- FENCE_REL (R95). -/
  | fenceRel (s : BitVec 3)
  /-- FENCE_AR (R95). -/
  | fenceAr (s : BitVec 3)
  /-- FENCE_W (R93). -/
  | fenceW
  /-- BAR (R223). -/
  | bar (l : BitVec 2) (n : BitVec 4)
  /-- BARA (R223). -/
  | bara (l : BitVec 2) (n : BitVec 4)
  /-- BARW (R223). -/
  | barw (l : BitVec 2) (n : BitVec 4)
  /-- MXCFG_CLAIM (R266). -/
  | mxcfgClaim (n : BitVec 4)
  /-- MXCFG_SET (R268). -/
  | mxcfgSet (t : BitVec 3) (a : BitVec 6)
  /-- MXCFG_STAT (R269). -/
  | mxcfgStat (d : BitVec 6) (t : BitVec 3)
  /-- MXCFG_FREE (R267). -/
  | mxcfgFree
  /-- MXLOOP (R275). -/
  | mxloop (t : BitVec 3) (g k : BitVec 6) (f : BitVec 4) (w : BitVec 1) (u : BitVec 2)
  /-- MXSP (R279). -/
  | mxsp (t : BitVec 3) (g k : BitVec 6) (f : BitVec 4) (w : BitVec 1) (u : BitVec 2)
  /-- MXRK (R281). -/
  | mxrk (t : BitVec 3) (g r : BitVec 6) (f : BitVec 4) (w : BitVec 1)
  /-- MXST (R283). -/
  | mxst (v e z : BitVec 1) (t : BitVec 3) (d x : BitVec 6) (f m : BitVec 4)
  /-- MXST_ZERO (R283). -/
  | mxstZero (e : BitVec 1) (t : BitVec 3) (f : BitVec 4)
  /-- SKICK_H (R293). -/
  | skickH (d g b : BitVec 6) (f : BitVec 4) (t : BitVec 1)
  /-- SKICK_E (R293). -/
  | skickE (d g b : BitVec 6) (f : BitVec 4) (t : BitVec 1)
  /-- SCOPY_LD (R311). -/
  | scopyLd (l : BitVec 3) (p : BitVec 6) (f : BitVec 4) (z b : BitVec 1)
  /-- SCOPY_ST (R311). -/
  | scopySt (l : BitVec 3) (p : BitVec 6) (f : BitVec 4) (z b : BitVec 1)
  /-- SSTAT (R294). -/
  | sstat (d a : BitVec 6)
  /-- SSTAT_CANCEL (R294). -/
  | sstatCancel (d a : BitVec 6)
  /-- ABINIT (R304). -/
  | abinit (d a b : BitVec 6)
  /-- ABFREE (R304). -/
  | abfree (a : BitVec 6)
  /-- ABWAIT (R307). -/
  | abwait (a b : BitVec 6)
  /-- ABWAIT_T (R307). -/
  | abwaitT (d a b : BitVec 6)
  /-- ABREL (R308). -/
  | abrel (a : BitVec 6)
  /-- OSALLOC (R251). -/
  | osalloc (d a b : BitVec 6) (c : BitVec 4)
  /-- OSFREE (R252). -/
  | osfree (a b : BitVec 6)
  /-- OSQUERY (R253). -/
  | osquery (d a : BitVec 6)
  /-- OSQUERY_X (R253). -/
  | osqueryX (d a : BitVec 6)
  /-- WLTAKE (R227). -/
  | wltake (d a : BitVec 6) (h : BitVec 1) (n : BitVec 10)
  /-- WLDONE (R228). -/
  | wldone (a : BitVec 6)
  /-- WLQUIET (R228). -/
  | wlquiet (a : BitVec 6) (f : BitVec 4)
  /-- HDEF (R43). -/
  | hdef (a : BitVec 6) (s : BitVec 3) (n : BitVec 8)
  /-- HREAD (R123). -/
  | hread (a : BitVec 6) (s : BitVec 3) (n : BitVec 8)
  /-- NPR_ENTER (R235). -/
  | nprEnter
  /-- NPR_EXIT (R235). -/
  | nprExit
  /-- YIELD (R126). -/
  | yield
  /-- PARK (R230). -/
  | park (a b : BitVec 6)
  /-- COLL (R365). -/
  | coll (g : BitVec 6) (f s : BitVec 4)
  /-- AMOS_X (R114). -/
  | amosX (d a b : BitVec 6) (p : BitVec 4) (o : BitVec 2) (w : BitVec 1)
  /-- TRAP (R134). -/
  | trap (i : BitVec 20)
  /-- ERET (R133). -/
  | eret
  /-- ERET_RETRY (R133). -/
  | eretRetry
  /-- SYSC (R125). -/
  | sysc (i : BitVec 20)
  /-- SEGLD (R124). -/
  | segld (a b : BitVec 6) (s : BitVec 3)
  /-- SEGRD_BASE (R124). -/
  | segrdBase (d : BitVec 6) (s : BitVec 3)
  /-- SEGRD_LEN (R124). -/
  | segrdLen (d : BitVec 6) (s : BitVec 3)
  /-- EXIT (R127). -/
  | exit
  /-- HALT (R128). -/
  | halt
  /-- FLUSHS (R115). -/
  | flushs (b : BitVec 6) (s : BitVec 3) (o : BitVec 8)
  /-- AMOS (R114). -/
  | amos (d a b : BitVec 6) (p : BitVec 4) (o : BitVec 2) (w s : BitVec 1)
  /-- LEA (R112). -/
  | lea (t b : BitVec 6) (s : BitVec 3) (z : BitVec 2) (o : BitVec 8)
  /-- QSTAT (R119). -/
  | qstat (d : BitVec 6) (s : BitVec 4)
  /-- NOP (R157). -/
  | laneNop (w : LaneW)
  /-- MOV (R157). -/
  | mov (w : LaneW)
  /-- SEL (R157). -/
  | sel (w : LaneW)
  /-- FADD (R150). -/
  | fadd (w : LaneW)
  /-- FSUB (R150). -/
  | fsub (w : LaneW)
  /-- FMUL (R150). -/
  | fmul (w : LaneW)
  /-- FFMA (R150). -/
  | ffma (w : LaneW)
  /-- FMIN (R151). -/
  | fmin (w : LaneW)
  /-- FMAX (R151). -/
  | fmax (w : LaneW)
  /-- FCMP (R152). -/
  | fcmp (w : LaneW)
  /-- FCLASS (R153). -/
  | fclass (w : LaneW)
  /-- FRND (R154). -/
  | frnd (w : LaneW)
  /-- FSCALE (R155). -/
  | fscale (w : LaneW)
  /-- FDOT2 (R156). -/
  | fdot2 (w : LaneW)
  /-- CVT (R158). -/
  | cvt (w : LaneW)
  /-- CVTEF (R159). -/
  | cvtef (w : LaneW)
  /-- PACKQ4 (R160). -/
  | packq4 (w : LaneW)
  /-- UNPACKQ4 (R161). -/
  | unpackq4 (w : LaneW)
  /-- IADD (R162). -/
  | iadd (w : LaneW)
  /-- ISUB (R162). -/
  | isub (w : LaneW)
  /-- IMUL (R162). -/
  | imul (w : LaneW)
  /-- IMULH (R162). -/
  | imulh (w : LaneW)
  /-- IMAD (R162). -/
  | imad (w : LaneW)
  /-- IDIV (R163). -/
  | idiv (w : LaneW)
  /-- IREM (R163). -/
  | irem (w : LaneW)
  /-- IABS (R164). -/
  | iabs (w : LaneW)
  /-- IMIN (R164). -/
  | imin (w : LaneW)
  /-- IMAX (R164). -/
  | imax (w : LaneW)
  /-- ICMP (R166). -/
  | icmp (w : LaneW)
  /-- IADDS (R165). -/
  | iadds (w : LaneW)
  /-- ISUBS (R165). -/
  | isubs (w : LaneW)
  /-- LANE_AND (R167). -/
  | laneAnd (w : LaneW)
  /-- LANE_OR (R167). -/
  | laneOr (w : LaneW)
  /-- LANE_XOR (R167). -/
  | laneXor (w : LaneW)
  /-- LANE_SHL (R167). -/
  | laneShl (w : LaneW)
  /-- LANE_SHR (R167). -/
  | laneShr (w : LaneW)
  /-- LANE_SAR (R167). -/
  | laneSar (w : LaneW)
  /-- LANE_POPC (R168). -/
  | lanePopc (w : LaneW)
  /-- LANE_CLZ (R168). -/
  | laneClz (w : LaneW)
  /-- BREV (R168). -/
  | brev (w : LaneW)
  /-- BFE (R169). -/
  | bfe (w : LaneW)
  /-- BFI (R169). -/
  | bfi (w : LaneW)
  /-- KAND (R170). -/
  | kand (w : LaneW)
  /-- KOR (R170). -/
  | kor (w : LaneW)
  /-- KXOR (R170). -/
  | kxor (w : LaneW)
  /-- KNOT (R170). -/
  | knot (w : LaneW)
  /-- KMOV (R171). -/
  | kmov (w : LaneW)
  /-- KMOV_V (R171). -/
  | kmovV (w : LaneW)
  /-- KMOV_K (R171). -/
  | kmovK (w : LaneW)
  /-- KBAL (R172). -/
  | kbal (w : LaneW)
  /-- EXP2 (R174). -/
  | exp2 (w : LaneW)
  /-- LOG2 (R174). -/
  | log2 (w : LaneW)
  /-- RCP (R174). -/
  | rcp (w : LaneW)
  /-- RSQ (R174). -/
  | rsq (w : LaneW)
  /-- SQRT (R174). -/
  | sqrt (w : LaneW)
  /-- SIN (R174). -/
  | sin (w : LaneW)
  /-- COS (R174). -/
  | cos (w : LaneW)
  /-- TANH (R174). -/
  | tanh (w : LaneW)
  /-- SHFL (R186). -/
  | shfl (w : LaneW)
  /-- REDX (R187). -/
  | redx (w : LaneW)
  /-- SCANX (R188). -/
  | scanx (w : LaneW)
  /-- RTWCFG (R190). -/
  | rtwcfg (w : LaneW)
  /-- RTWNEXT (R191). -/
  | rtwnext (w : LaneW)
  /-- SEGRED (R189). -/
  | segred (w : LaneW)
  /-- LANE_LD (R194). -/
  | laneLd (w : LaneW)
  /-- LANE_ST (R194). -/
  | laneSt (w : LaneW)
  /-- WLAPPEND (R195). -/
  | wlappend (w : LaneW)
  /-- LDO (R196). -/
  | ldo (w : LaneW)
  /-- STO (R196). -/
  | sto (w : LaneW)
  /-- LDX (R196). -/
  | ldx (w : LaneW)
  /-- XST (R196). -/
  | xst (w : LaneW)
  /-- ATOM (R197). -/
  | atom (w : LaneW)
  /-- RED (R197). -/
  | red (w : LaneW)
  /-- FLUSH (R198). -/
  | flush (w : LaneW)
  /-- TOPK (R335). -/
  | topk (w : LaneW)
  /-- RKENC (R329). -/
  | rkenc (w : LaneW)
  /-- RKREC (R333). -/
  | rkrec (w : LaneW)
  /-- RKTAB (R331). -/
  | rktab (w : LaneW)
  /-- RKMRG (R334). -/
  | rkmrg (w : LaneW)
  /-- LBR (R180). -/
  | lbr (w : LaneW)
  /-- LBRA (R180). -/
  | lbra (w : LaneW)
  /-- JOIN (R181). -/
  | join (w : LaneW)
  /-- LANE_END (R181). -/
  | laneEnd (w : LaneW)
  /-- LTRAP (R182). -/
  | ltrap (w : LaneW)
  /-- TILE (R297). -/
  | tile (w : StreamW)
  /-- MCAST (R297). -/
  | mcast (w : StreamW)
  /-- STORE (R297). -/
  | storeTile (w : StreamW)
  /-- GATHER (R298). -/
  | gather (w : StreamW)
  /-- SET (R299). -/
  | setReg (w : StreamW)
  /-- ADDC (R299). -/
  | addc (w : StreamW)
  /-- STREAM_LOOP (R299). -/
  | streamLoop (w : StreamW)
  /-- JMP (R299). -/
  | jmp (w : StreamW)
  /-- NOTIFY_STORE (R300). -/
  | notifyStore (w : StreamW)
  /-- NOTIFY_ADD (R300). -/
  | notifyAdd (w : StreamW)
  /-- NOTIFY_CREDIT (R300). -/
  | notifyCredit (w : StreamW)
  /-- WAITV (R301). -/
  | waitv (w : StreamW)
  /-- SAVE (R314). -/
  | save (w : StreamW)
  /-- FETCH (R314). -/
  | fetch (w : StreamW)
  /-- STREAM_FENCE (R302). -/
  | streamFence (w : StreamW)
  /-- STREAM_END (R299). -/
  | streamEnd (w : StreamW)
  /-- STACK_PUSH_DONE (R184). -/
  | stackPushDone
  /-- STACK_POP_DONE (R184). -/
  | stackPopDone
  /-- LANE_BLOCK_START (R59). -/
  | laneBlockStart
  /-- SCALAR_LOAD_REPLY (R108). -/
  | scalarLoadReply
  /-- AMOS_REPLY (R351). -/
  | amosReply
  /-- LANE_MEMORY_COMPLETE (R194). -/
  | laneMemoryComplete
  /-- SFU_COMPLETE (R173). -/
  | sfuComplete
  /-- CROSS_LANE_COMPLETE (R185). -/
  | crossLaneComplete
  /-- RANK_OP_COMPLETE (R323). -/
  | rankOpComplete
  /-- TRAP_ENTRY (R130). -/
  | trapEntry
  /-- AFTER_COMPLETION_TRAP (R147). -/
  | afterCompletionTrap
  /-- HELD_CAUSE_TRAP (R135). -/
  | heldCauseTrap
  /-- QUEUE_PROTOCOL_FAULT (R60). -/
  | queueProtocolFault
  /-- TRANSLATION_WALK (R87). -/
  | translationWalk
  /-- RETRY (R87). -/
  | retry
  /-- DELIVER (R87). -/
  | deliver
  /-- SLICE_REQUEST (R345). -/
  | sliceRequest
  /-- REPLICATED_FILL (R355). -/
  | replicatedFill
  /-- REPLICATED_STORE (R356). -/
  | replicatedStore
  /-- COMMIT (R356). -/
  | commit
  /-- HOST_CXL_MEM_READ (R360). -/
  | hostCxlMemRead
  /-- HOST_CXL_MEM_WRITE (R360). -/
  | hostCxlMemWrite
  /-- DOORBELL (R203). -/
  | doorbell
  /-- QUEUE_DESCRIPTOR_WRITE (R202). -/
  | queueDescriptorWrite
  /-- QUEUE_DISABLE (R205). -/
  | queueDisable
  /-- QUEUE_ENABLE (R205). -/
  | queueEnable
  /-- ERR_CLEAR (R203). -/
  | errClear
  /-- LAUNCH_RECORD_READ (R204). -/
  | launchRecordRead
  /-- LAUNCH_READY (R210). -/
  | launchReady
  /-- TEAM_PLACE (R215). -/
  | teamPlace
  /-- GANG_START (R216). -/
  | gangStart
  /-- TEAM_RETIRE (R238). -/
  | teamRetire
  /-- LAUNCH_END (R209). -/
  | launchEnd
  /-- MSIX_UNMASK (R374). -/
  | msixUnmask
  /-- BARRIER_PHASE_COMPLETE (R223). -/
  | barrierPhaseComplete
  /-- COMPACTION_APPEND (R226). -/
  | compactionAppend
  /-- TAIL_COMMIT (R226). -/
  | tailCommit
  /-- TERMINATION_PASS (R229). -/
  | terminationPass
  /-- LINE_EXPIRY (R247). -/
  | lineExpiry
  /-- EVICTION (R231). -/
  | eviction
  /-- TEAM_RETURN (R232). -/
  | teamReturn
  /-- PREEMPTION_DONE (R234). -/
  | preemptionDone
  /-- TEAM_SAVE (R234). -/
  | teamSave
  /-- NPR_OVERRUN (R235). -/
  | nprOverrun
  /-- ABWAIT_T_LIMIT (R307). -/
  | abwaitTLimit
  /-- DIE_LOSS (R237). -/
  | dieLoss
  /-- BASIN_LOSS (R18). -/
  | basinLoss
  /-- COL_DIE_LOSS (R18). -/
  | colDieLoss
  /-- HOST_LINK_DOWN (R361). -/
  | hostLinkDown
  /-- HOST_LINK_UP (R374). -/
  | hostLinkUp
  /-- TILE_CLAIM_GRANT (R266). -/
  | tileClaimGrant
  /-- MATRIX_STEP (R275). -/
  | matrixStep
  /-- MATRIX_COMMAND_COMPLETE (R285). -/
  | matrixCommandComplete
  /-- SKICK_SLOT_GRANT (R293). -/
  | skickSlotGrant
  /-- STREAM_COMMAND_START (R290). -/
  | streamCommandStart
  /-- STREAM_CHUNK (R289). -/
  | streamChunk
  /-- STREAM_COMMAND_COMPLETE (R290). -/
  | streamCommandComplete
  /-- PROGRAM_STOP (R318). -/
  | programStop
  /-- WAITV_REREAD (R301). -/
  | waitvReread
  /-- NVME_COMPLETION (R316). -/
  | nvmeCompletion
  /-- SCOPY_COMPLETE (R312). -/
  | scopyComplete
  /-- COLL_COMPLETE (R365). -/
  | collComplete
  /-- COLL_ABORT (R368). -/
  | collAbort
  /-- COLL_MESSAGE (R390). -/
  | collMessage
  /-- ABORT_MESSAGE (R390). -/
  | abortMessage
  /-- MANAGEMENT_MESSAGE (R390). -/
  | managementMessage
  /-- DENIAL_MESSAGE (R390). -/
  | denialMessage
  /-- CLASS0_MESSAGE (R390). -/
  | class0Message
  /-- FLIT_RECEIVE (R387). -/
  | flitReceive
  /-- NAK (R389). -/
  | nak
  /-- ACK (R389). -/
  | ack
  /-- ACK_SEND (R389). -/
  | ackSend
  /-- STRIPE (R391). -/
  | stripe
  /-- TRAIN (R389). -/
  | train
  /-- READY (R389). -/
  | ready
  /-- PERMIT (R388). -/
  | permit
  /-- PORT_LINK_DOWN (R393). -/
  | portLinkDown
  /-- PEER_SILENCE_TIMEOUT (R389). -/
  | peerSilenceTimeout
  /-- PARK_REQUEST (R391). -/
  | parkRequest
  /-- WAKE_REQUEST (R391). -/
  | wakeRequest
  /-- WAKE_DONE (R391). -/
  | wakeDone
  /-- SERVICE_ANSWER (R375). -/
  | serviceAnswer
  /-- MODE_WRITE (R376). -/
  | modeWrite
  /-- PLIM_WRITE (R395). -/
  | plimWrite
  /-- REGISTER_WRITE (R373). -/
  | registerWrite
  /-- CTXCREATE (R379). -/
  | ctxcreate
  /-- CTXEND (R379). -/
  | ctxend
  /-- XINV (R89). -/
  | xinv
  /-- PREEMPT (R234). -/
  | preempt
  /-- RESUME (R234). -/
  | resume
  /-- KILL (R238). -/
  | kill
  /-- TEAMGO (R379). -/
  | teamgo
  /-- MIGRATE (R236). -/
  | migrate
  /-- TOUCH (R16). -/
  | touch
  /-- NSDEF (R313). -/
  | nsdef
  /-- ATSET (R380). -/
  | atset
  /-- TAGRD (R348). -/
  | tagrd
  /-- POISONCLR (R354). -/
  | poisonclr
  /-- LOSSREL (R237). -/
  | lossrel
  /-- PORTFAIL (R393). -/
  | portfail
  /-- PORTSET (R391). -/
  | portset
  /-- UNKNOWN_CMD (R378). -/
  | unknownCmd
  /-- PACKAGE_RESET (R383). -/
  | packageReset
  /-- MEASUREMENT_EXTEND (R384). -/
  | measurementExtend
  /-- ATTESTATION_REQUEST (R385). -/
  | attestationRequest
  /-- ATTESTATION_REPORT (R386). -/
  | attestationReport
  /-- POWER_THROTTLE_STEP (R395). -/
  | powerThrottleStep
  /-- THERMAL_THRESHOLD (R396). -/
  | thermalThreshold
  /-- THERMAL_CLOCK_STEP (R396). -/
  | thermalClockStep
  /-- TIER_SHUTDOWN (R397). -/
  | tierShutdown
  /-- REGION_POWER_OFF (R397). -/
  | regionPowerOff
  /-- OPERAND_UNCORRECTABLE (R261). -/
  | operandUncorrectable
  /-- MEMORY_UNCORRECTABLE (R352). -/
  | memoryUncorrectable
  /-- BEAT_CRC_FAIL (R399). -/
  | beatCrcFail
  /-- TIER_TEST_YIELD (R400). -/
  | tierTestYield
  /-- UNASSIGNED_ENCODING (R63). -/
  | unassignedEncoding
  /-- INSTRUCTION_FETCH_FAULT (R44). -/
  | instructionFetchFault
  /-- CLUSTER_ATOMIC_MESSAGE (R256). -/
  | clusterAtomicMessage
  /-- DIE_CACHE_EVICTION (R84). -/
  | dieCacheEviction
  /-- PORT_COMES_UP (R389). -/
  | portComesUp
  /-- TRAIN_PERIOD_END (R389). -/
  | trainPeriodEnd
  /-- REGION_RETURN_TO_SERVICE (R262). -/
  | regionReturnToService
  deriving DecidableEq, Repr

end Sys2Proof
end

