-- ==== Sys2Proof/WellFormed.lean ====
section
/-! DEFINITION. Which instruction words are legal at decode (R45 to R49, R53, R54, R63): the checks that raise the illegal-instruction trap from the word alone. -/

namespace Sys2Proof

/-- The lane opcodes (R55), WLAPPEND and the forms of KMOV apart (R171, R195). -/
inductive LaneOp where
  | laneNop
  | mov
  | sel
  | fadd
  | fsub
  | fmul
  | ffma
  | fmin
  | fmax
  | fcmp
  | fclass
  | frnd
  | fscale
  | fdot2
  | cvt
  | cvtef
  | packq4
  | unpackq4
  | iadd
  | isub
  | imul
  | imulh
  | imad
  | idiv
  | irem
  | iabs
  | imin
  | imax
  | icmp
  | iadds
  | isubs
  | laneAnd
  | laneOr
  | laneXor
  | laneShl
  | laneShr
  | laneSar
  | lanePopc
  | laneClz
  | brev
  | bfe
  | bfi
  | kand
  | kor
  | kxor
  | knot
  | kmov
  | kmovV
  | kmovK
  | kbal
  | exp2
  | log2
  | rcp
  | rsq
  | sqrt
  | sin
  | cos
  | tanh
  | shfl
  | redx
  | scanx
  | rtwcfg
  | rtwnext
  | segred
  | laneLd
  | laneSt
  | wlappend
  | ldo
  | sto
  | ldx
  | xst
  | atom
  | red
  | flush
  | topk
  | rkenc
  | rkrec
  | rktab
  | rkmrg
  | lbr
  | lbra
  | join
  | laneEnd
  | ltrap
  deriving DecidableEq, Repr

/-- The stream commands (R62), the operations of NOTIFY apart (R300). -/
inductive StreamOp where
  | tile
  | mcast
  | storeTile
  | gather
  | setReg
  | addc
  | streamLoop
  | jmp
  | notifyStore
  | notifyAdd
  | notifyCredit
  | waitv
  | save
  | fetch
  | streamFence
  | streamEnd
  deriving DecidableEq, Repr

/-- The lane opcode and word of an instruction of the lane stream. -/
def Instr.laneOp? : Instr → Option (LaneOp × LaneW)
  | .laneNop w => some (.laneNop, w)
  | .mov w => some (.mov, w)
  | .sel w => some (.sel, w)
  | .fadd w => some (.fadd, w)
  | .fsub w => some (.fsub, w)
  | .fmul w => some (.fmul, w)
  | .ffma w => some (.ffma, w)
  | .fmin w => some (.fmin, w)
  | .fmax w => some (.fmax, w)
  | .fcmp w => some (.fcmp, w)
  | .fclass w => some (.fclass, w)
  | .frnd w => some (.frnd, w)
  | .fscale w => some (.fscale, w)
  | .fdot2 w => some (.fdot2, w)
  | .cvt w => some (.cvt, w)
  | .cvtef w => some (.cvtef, w)
  | .packq4 w => some (.packq4, w)
  | .unpackq4 w => some (.unpackq4, w)
  | .iadd w => some (.iadd, w)
  | .isub w => some (.isub, w)
  | .imul w => some (.imul, w)
  | .imulh w => some (.imulh, w)
  | .imad w => some (.imad, w)
  | .idiv w => some (.idiv, w)
  | .irem w => some (.irem, w)
  | .iabs w => some (.iabs, w)
  | .imin w => some (.imin, w)
  | .imax w => some (.imax, w)
  | .icmp w => some (.icmp, w)
  | .iadds w => some (.iadds, w)
  | .isubs w => some (.isubs, w)
  | .laneAnd w => some (.laneAnd, w)
  | .laneOr w => some (.laneOr, w)
  | .laneXor w => some (.laneXor, w)
  | .laneShl w => some (.laneShl, w)
  | .laneShr w => some (.laneShr, w)
  | .laneSar w => some (.laneSar, w)
  | .lanePopc w => some (.lanePopc, w)
  | .laneClz w => some (.laneClz, w)
  | .brev w => some (.brev, w)
  | .bfe w => some (.bfe, w)
  | .bfi w => some (.bfi, w)
  | .kand w => some (.kand, w)
  | .kor w => some (.kor, w)
  | .kxor w => some (.kxor, w)
  | .knot w => some (.knot, w)
  | .kmov w => some (.kmov, w)
  | .kmovV w => some (.kmovV, w)
  | .kmovK w => some (.kmovK, w)
  | .kbal w => some (.kbal, w)
  | .exp2 w => some (.exp2, w)
  | .log2 w => some (.log2, w)
  | .rcp w => some (.rcp, w)
  | .rsq w => some (.rsq, w)
  | .sqrt w => some (.sqrt, w)
  | .sin w => some (.sin, w)
  | .cos w => some (.cos, w)
  | .tanh w => some (.tanh, w)
  | .shfl w => some (.shfl, w)
  | .redx w => some (.redx, w)
  | .scanx w => some (.scanx, w)
  | .rtwcfg w => some (.rtwcfg, w)
  | .rtwnext w => some (.rtwnext, w)
  | .segred w => some (.segred, w)
  | .laneLd w => some (.laneLd, w)
  | .laneSt w => some (.laneSt, w)
  | .wlappend w => some (.wlappend, w)
  | .ldo w => some (.ldo, w)
  | .sto w => some (.sto, w)
  | .ldx w => some (.ldx, w)
  | .xst w => some (.xst, w)
  | .atom w => some (.atom, w)
  | .red w => some (.red, w)
  | .flush w => some (.flush, w)
  | .topk w => some (.topk, w)
  | .rkenc w => some (.rkenc, w)
  | .rkrec w => some (.rkrec, w)
  | .rktab w => some (.rktab, w)
  | .rkmrg w => some (.rkmrg, w)
  | .lbr w => some (.lbr, w)
  | .lbra w => some (.lbra, w)
  | .join w => some (.join, w)
  | .laneEnd w => some (.laneEnd, w)
  | .ltrap w => some (.ltrap, w)
  | _ => none

/-- The command and words of a stream command. -/
def Instr.streamOp? : Instr → Option (StreamOp × StreamW)
  | .tile w => some (.tile, w)
  | .mcast w => some (.mcast, w)
  | .storeTile w => some (.storeTile, w)
  | .gather w => some (.gather, w)
  | .setReg w => some (.setReg, w)
  | .addc w => some (.addc, w)
  | .streamLoop w => some (.streamLoop, w)
  | .jmp w => some (.jmp, w)
  | .notifyStore w => some (.notifyStore, w)
  | .notifyAdd w => some (.notifyAdd, w)
  | .notifyCredit w => some (.notifyCredit, w)
  | .waitv w => some (.waitv, w)
  | .save w => some (.save, w)
  | .fetch w => some (.fetch, w)
  | .streamFence w => some (.streamFence, w)
  | .streamEnd w => some (.streamEnd, w)
  | _ => none

namespace LaneW
/-- Modifier bits neg a, abs a, neg b, abs b (R53). -/
def mods (w : LaneW) : BitVec 4 := w.low.extractLsb' 28 4
def fsel (w : LaneW) : BitVec 1 := w.low.extractLsb' 27 1
def longBit (w : LaneW) : BitVec 1 := w.low.extractLsb' 26 1
def ve (w : LaneW) : BitVec 10 := w.low.extractLsb' 16 10
def aux (w : LaneW) : W16 := w.low.extractLsb' 0 16
end LaneW

/-- A scalar register field that is not reserved (R45). -/
def regOk (r : BitVec 6) : Bool := r.toNat < 56 || r.toNat == 63

/-- A register group aG to aG+n (R272, R280, R293, R311, R362). -/
def groupOk (g : BitVec 6) (n : Nat) : Bool := g.toNat != 0 && g.toNat + n ≤ 47

/-- A completion-flag field that may say none (R47). -/
def flagOk (f : BitVec 4) : Bool := f.toNat ≤ 11 || f.toNat == 15

/-- A scope code that is assigned (R52). -/
def scopeOk (s : BitVec 3) : Bool := s.toNat ≤ 5

/-- The control/status registers that exist (R106). -/
def csrListed (c : BitVec 12) : Bool :=
  c.toNat ≤ 0x00D || c.toNat == 0x010 || c.toNat == 0x011 || (0x020 ≤ c.toNat && c.toNat ≤ 0x02A)

/-- The control/status registers that CSRW may name (R106). -/
def csrWritable (c : BitVec 12) : Bool :=
  0x020 ≤ c.toNat && c.toNat ≤ 0x02A && c.toNat != 0x025 && c.toNat != 0x028

/-- A lane register field that is not reserved (R46). -/
def laneRegOk (r : BitVec 10) : Bool := r.toNat ≤ 970

/-- A predicate number in a lane register field (R144). -/
def laneK (r : BitVec 10) : Bool := r.toNat ≤ 7

/-- The barrier numbers of a level (R222). -/
def barOk (l : BitVec 2) (n : BitVec 4) : Bool :=
  match l.toNat with
  | 0 => true
  | 1 => n.toNat ≤ 3
  | 2 => n.toNat ≤ 1
  | _ => false

/-- A register field of MXLOOP, MXSP or MXST that may not be a port or reserved (R272, R282). -/
def plainReg (r : BitVec 6) : Bool := r.toNat ≤ 47 || r.toNat == 63

/-- Legality of a scalar word's fields at decode (R48 to R51 and the instructions' chapters); an event has no word and nothing to check. -/
def scalarOk : Instr → Bool
  | .add d a b | .sub d a b | .mul d a b | .mulh d a b | .mulhn d a b | .div d a b | .divn d a b
  | .rem d a b | .remn d a b | .and d a b | .or d a b | .xor d a b | .andn d a b | .shl d a b | .shr d a b
  | .sar d a b | .min d a b | .max d a b | .minn d a b | .maxn d a b | .slt d a b | .sltn d a b
  | .seq d a b => regOk d && regOk a && regOk b
  | .popc d a | .clz d a | .ctz d a => regOk d && regOk a
  | .addi d a _ | .andi d a _ | .ori d a _ | .xori d a _ | .slti d a _ => regOk d && regOk a
  | .shli d a _ | .shri d a _ | .sari d a _ => regOk d && regOk a
  | .lih d _ => regOk d
  | .ld t b s z x _ => regOk t && regOk b && s.toNat ≤ 5 && !(x == 1 && z == 3)
  | .st t b s _ _ => regOk t && regOk b && s.toNat ≤ 5
  | .csrr d c => regOk d && csrListed c
  | .csrw a c | .csrs a c | .csrc a c => regOk a && csrWritable c
  | .bcc a b c _ => regOk a && regOk b && c.toNat ≤ 5
  | .j _ | .jal _ => true
  | .jr a => regOk a
  | .jalr d a => regOk d && regOk a
  | .loop a _ => a.toNat != 0 && (a.toNat ≤ 47 || a.toNat == 63)
  | .disp d _ => regOk d
  | .vgetV d a n | .vsetV d a n => regOk d && regOk a && laneRegOk n
  | .vgetK d a _ | .vsetK d a _ => regOk d && regOk a
  | .fwait f => f.toNat ≤ 11
  | .fenceAcq s | .fenceRel s | .fenceAr s => scopeOk s
  | .fenceW => true
  | .bar l n | .bara l n | .barw l n => barOk l n
  | .mxcfgClaim _ => true
  | .mxcfgSet _ a => regOk a
  | .mxcfgStat d _ => regOk d
  | .mxcfgFree => true
  | .mxloop _ g k f _ u => groupOk g 5 && k.toNat != 0 && plainReg k && flagOk f && u.toNat != 3
  | .mxsp _ g k f _ u => groupOk g 7 && k.toNat != 0 && plainReg k && flagOk f && u.toNat != 3
  | .mxrk _ g r f _ => groupOk g 3 && regOk r && flagOk f
  | .mxst v _ _ _ d x f m =>
      plainReg d && plainReg x && flagOk f && (m.toNat ≤ 4 || m.toNat == 11) &&
      (v == 0 || m.toNat == 3 || m.toNat == 4)
  | .mxstZero _ _ f => flagOk f
  | .skickH d g b f _ | .skickE d g b f _ => regOk d && groupOk g 2 && regOk b && flagOk f
  | .scopyLd _ p f _ _ | .scopySt _ p f _ _ => groupOk p 2 && flagOk f
  | .sstat d a | .sstatCancel d a => regOk d && regOk a
  | .abinit d a b => regOk d && regOk a && regOk b
  | .abfree a | .abrel a => regOk a
  | .abwait a b | .park a b => regOk a && regOk b
  | .abwaitT d a b => regOk d && regOk a && regOk b
  | .osalloc d a b c => regOk d && regOk a && regOk b && c.toNat ≤ 8
  | .osfree a b => regOk a && regOk b
  | .osquery d a | .osqueryX d a => regOk d && regOk a
  | .wltake d a _ n => regOk d && regOk a && laneRegOk n
  | .wldone a => regOk a
  | .wlquiet a f => regOk a && flagOk f
  | .hdef a s _ | .hread a s _ => regOk a && (s.toNat == 0 || s.toNat == 2)
  | .nprEnter | .nprExit | .yield => true
  | .coll g f s => groupOk g 2 && flagOk f && s.toNat ≤ 5
  | .amosX d a b p _ _ => regOk d && regOk a && regOk b && p.toNat ≤ 9
  | .amos d a b p _ _ _ => regOk d && regOk a && regOk b && p.toNat ≤ 9
  | .trap _ | .eret | .eretRetry | .sysc _ => true
  | .segld a b _ => regOk a && regOk b
  | .segrdBase d _ | .segrdLen d _ => regOk d
  | .exit | .halt => true
  | .flushs b s _ => regOk b && s.toNat ≤ 1
  | .lea t b s _ _ => regOk t && regOk b && s.toNat ≤ 5
  | .qstat d s => regOk d && s.toNat ≤ 2
  | _ => true

namespace LaneW

/-- Register fields that are not used are 0 (R49, R53). -/
def noVa (w : LaneW) : Bool := w.va == 0
def noVb (w : LaneW) : Bool := w.vb == 0
def noVc (w : LaneW) : Bool := w.vc == 0
def noVd (w : LaneW) : Bool := w.vd == 0

/-- im = 0, not long, nothing in ve or aux, modifiers only where allowed (R53, R54). -/
def plainLow (w : LaneW) (allowed : BitVec 4) : Bool :=
  w.im == 0 && w.low.extractLsb' 0 28 == 0 && (w.mods &&& ~~~ allowed) == 0

/-- Source b as a register or an immediate (R53): with im = 1 the vb field is 0. -/
def srcB (w : LaneW) (allowed : BitVec 4) : Bool :=
  (w.im == 1 && w.vb == 0) || (w.plainLow allowed && laneRegOk w.vb)

/-- im = 0 and not long; ve and aux are judged by the caller. -/
def shortLow (w : LaneW) : Bool := w.im == 0 && w.mods == 0 && w.fsel == 0 && w.longBit == 0

/-- im = 0 and long with no modifier (R54). -/
def longLow (w : LaneW) : Bool := w.im == 0 && w.mods == 0 && w.longBit == 1

/-- Type and sub-operation codes from a list (R53). -/
def tyIn (w : LaneW) (l : List Nat) : Bool := l.contains w.ty.toNat
def mdIn (w : LaneW) (l : List Nat) : Bool := l.contains w.md.toNat

/-- The qualifiers of a memory instruction (R192): which of acq and rel it takes, and scope 0 without either. -/
def memQual (w : LaneW) (acqOk relOk : Bool) : Bool :=
  let acq := w.aux.getLsbD 11
  let rel := w.aux.getLsbD 12
  let sc := w.aux.extractLsb' 8 3
  (acqOk || !acq) && (relOk || !rel) && scopeOk sc && (acq || rel || sc == 0)

def seg (w : LaneW) : Nat := (w.aux.extractLsb' 13 3).toNat

/-- The type codes of plain memory instructions (R192). -/
def memTys : List Nat := [0, 1, 2, 3, 4, 5, 6, 7, 8, 9, 10, 12, 13]

/-- Float type codes (R19). -/
def isFloat (t : Nat) : Bool := t ≤ 4
def isInt (t : Nat) : Bool := 5 ≤ t && t ≤ 10

/-- Pairs of CVT that convert exactly and take no rounding mode (R158). -/
def cvtExact (st dt : Nat) : Bool :=
  (dt == 0 && (st == 1 || st == 3 || st == 4)) || (st == 3 && (dt == 1 || dt == 2)) || (st == 4 && dt == 1)

/-- The pairs and options of CVT (R158). -/
def cvtOk (w : LaneW) : Bool :=
  let st := (w.aux.extractLsb' 0 4).toNat
  let dt := w.ty.toNat
  let ovf := w.md.getLsbD 3
  let ftz := w.md.getLsbD 2
  let rm := w.md.extractLsb' 0 2
  let fp8 := dt == 3 || dt == 4
  w.aux.extractLsb' 4 12 == 0 && st ≤ 10 && dt ≤ 10 && st != dt &&
  (if isFloat st && isFloat dt then
     (!(cvtExact st dt) || (rm == 0 && !ovf)) && (!ovf || fp8)
   else if isFloat st then !ovf
   else if isFloat dt then !ftz && (!ovf || fp8)
   else rm == 0 && !ovf && !ftz)

/-- The op and type of a cross-lane reduction (R185). -/
def redOk (t op : Nat) : Bool :=
  (op ≤ 2 && (t == 0 || t == 5 || t == 6)) || (3 ≤ op && op ≤ 5 && t == 13)

/-- The op and type of ATOM and RED (R197). -/
def atomOk (t op : Nat) (isRed : Bool) : Bool :=
  match op with
  | 0 => t == 5 || t == 6 || t == 13
  | 1 | 2 | 3 => t == 13
  | 4 | 5 => t == 5 || t == 6
  | 6 | 7 => t == 13 && !isRed
  | 8 => t == 0
  | _ => false

end LaneW

open LaneW in
/-- Legality of a lane word's fields at decode: the instruction tables R149, R179, R185, R192 and R325. -/
def laneOk (op : LaneOp) (w : LaneW) : Bool :=
  let r3 := laneRegOk w.vd && laneRegOk w.va
  match op with
  | .laneNop => w.ty == 0 && w.md == 0 && w.noVd && w.noVa && w.noVb && w.noVc && w.plainLow 0
  | .mov => w.ty == 13 && w.md == 0 && laneRegOk w.vd && w.noVa && w.noVc && w.srcB 0
  | .sel => w.ty == 13 && w.md == 0 && r3 && laneK w.vc && w.srcB 0
  | .fadd | .fsub | .fmul => w.tyIn [0, 1, 2] && w.md.toNat < 8 && r3 && w.noVc && w.srcB 0xf
  | .ffma => w.tyIn [0, 1, 2] && w.md.toNat < 8 && r3 && laneRegOk w.vc && w.srcB 0xf
  | .fmin | .fmax => w.tyIn [0, 1, 2] && w.md.toNat < 2 && r3 && w.noVc && w.srcB 0xf
  | .fcmp => w.tyIn [0, 1, 2, 3, 4] && w.md.toNat < 8 && laneK w.vd && laneRegOk w.va && w.noVc && w.srcB 0xf
  | .fclass => w.tyIn [0, 1, 2, 3, 4] && w.md == 0 && r3 && w.noVb && w.noVc && w.plainLow 0xc
  | .frnd => w.tyIn [0, 1, 2] && w.md.toNat < 8 && r3 && w.noVb && w.noVc && w.plainLow 0xc
  | .fscale => w.tyIn [0, 1, 2] && w.md.toNat < 8 && r3 && w.noVc && w.srcB 0xc
  | .fdot2 => w.tyIn [1, 2] && w.md.toNat < 8 && r3 && laneRegOk w.vc && w.srcB 0xf
  | .cvt => r3 && w.noVb && w.noVc && w.shortLow && w.ve == 0 && w.cvtOk
  | .cvtef =>
      w.tyIn [1, 2, 3, 4] && (w.md == 0 || (w.md == 8 && w.tyIn [3, 4])) && r3 && w.noVb && w.noVc && w.shortLow &&
      laneRegOk w.ve && w.aux == 0
  | .packq4 => w.ty == 11 && w.md == 0 && r3 && laneRegOk w.vb && w.noVc && w.shortLow && laneRegOk w.ve && w.aux == 0
  | .unpackq4 => w.tyIn [0, 1, 2] && w.md == 0 && r3 && w.noVc && w.srcB 0
  | .iadd | .isub | .imul | .imulh | .idiv | .irem | .imin | .imax | .iadds | .isubs =>
      w.tyIn [5, 6, 7, 8, 9, 10] && w.md == 0 && r3 && w.noVc && w.srcB 0
  | .imad => w.tyIn [5, 6, 7, 8, 9, 10] && w.md == 0 && r3 && laneRegOk w.vc && w.srcB 0
  | .iabs => w.tyIn [5, 7, 9] && w.md == 0 && r3 && w.noVb && w.noVc && w.plainLow 0
  | .icmp => w.tyIn [5, 6, 7, 8, 9, 10] && w.md.toNat ≤ 5 && laneK w.vd && laneRegOk w.va && w.noVc && w.srcB 0
  | .laneAnd | .laneOr | .laneXor | .laneShl | .laneShr | .laneSar =>
      w.ty == 13 && w.md == 0 && r3 && w.noVc && w.srcB 0
  | .lanePopc | .laneClz | .brev => w.ty == 13 && w.md == 0 && r3 && w.noVb && w.noVc && w.plainLow 0
  | .bfe =>
      w.ty == 13 && w.md == 0 && r3 && w.noVb && w.noVc && w.shortLow && w.ve == 0 &&
      w.aux.extractLsb' 12 4 == 0 && (w.aux.extractLsb' 5 6).toNat != 0 &&
      (w.aux.extractLsb' 0 5).toNat + (w.aux.extractLsb' 5 6).toNat ≤ 32
  | .bfi =>
      w.ty == 13 && w.md == 0 && r3 && laneRegOk w.vb && w.noVc && w.shortLow && w.ve == 0 &&
      w.aux.extractLsb' 11 5 == 0 && (w.aux.extractLsb' 5 6).toNat != 0 &&
      (w.aux.extractLsb' 0 5).toNat + (w.aux.extractLsb' 5 6).toNat ≤ 32
  | .kand | .kor | .kxor => w.ty == 0 && w.md == 0 && laneK w.vd && laneK w.va && laneK w.vb && w.noVc && w.plainLow 0
  | .knot => w.ty == 0 && w.md == 0 && laneK w.vd && laneK w.va && w.noVb && w.noVc && w.plainLow 0
  | .kmov => w.ty == 0 && w.md == 0 && laneK w.vd && laneK w.va && w.noVb && w.noVc && w.plainLow 0
  | .kmovV => w.ty == 0 && w.md == 1 && laneK w.vd && laneRegOk w.va && w.noVb && w.noVc && w.plainLow 0
  | .kmovK => w.ty == 0 && w.md == 2 && laneRegOk w.vd && laneK w.va && w.noVb && w.noVc && w.plainLow 0
  | .kbal => w.ty == 0 && w.md.toNat ≤ 2 && laneRegOk w.vd && laneK w.va && w.noVb && w.noVc && w.plainLow 0
  | .exp2 | .log2 | .rsq | .sin | .cos | .tanh =>
      w.tyIn [0, 1] && w.mdIn [0, 4] && r3 && w.noVb && w.noVc && w.im == 0 && (w.mods &&& 3) == 0 && w.longBit == 1 &&
      w.ve == 0 && w.aux == 0
  | .rcp | .sqrt =>
      w.tyIn [0, 1] && w.md.toNat < 8 && r3 && w.noVb && w.noVc && w.im == 0 && (w.mods &&& 3) == 0 && w.longBit == 1 &&
      w.ve == 0 && w.aux == 0
  | .shfl =>
      w.ty == 13 && w.md.toNat ≤ 4 && r3 && w.noVc && w.longLow && w.ve == 0 &&
      (if w.md == 0 then laneRegOk w.vb && w.aux == 0
       else w.noVb && (if w.aux.getLsbD 15 then w.aux.extractLsb' 3 12 == 0 else w.aux.extractLsb' 7 8 == 0))
  | .redx => redOk w.ty.toNat w.md.toNat && r3 && w.noVb && w.noVc && w.longLow && w.ve == 0 && w.aux == 0
  | .scanx => redOk w.ty.toNat (w.md.toNat % 8) && r3 && w.noVb && w.noVc && w.longLow && w.ve == 0 && w.aux == 0
  | .segred => redOk w.ty.toNat w.md.toNat && r3 && laneK w.vb && w.noVc && w.longLow && w.ve == 0 && w.aux == 0
  | .rtwcfg => w.ty == 6 && w.md == 0 && w.noVd && laneRegOk w.va && w.noVc && w.srcB 0
  | .rtwnext =>
      w.ty == 6 && w.md == 0 && laneRegOk w.vd && w.noVa && w.noVb && w.noVc && w.longLow && laneRegOk w.ve &&
      w.aux.extractLsb' 3 13 == 0
  | .laneLd =>
      w.tyIn memTys && w.md.toNat ≤ 1 && r3 && w.noVb && (if w.md == 1 then laneRegOk w.vc else w.noVc) && w.longLow &&
      w.ve == 0 && w.seg ≤ 3 && w.memQual true false
  | .laneSt =>
      w.tyIn memTys && w.md.toNat ≤ 1 && w.noVd && laneRegOk w.va && laneRegOk w.vb &&
      (if w.md == 1 then laneRegOk w.vc else w.noVc) && w.longLow && w.ve == 0 && w.seg ≤ 3 && w.memQual false true
  | .wlappend =>
      w.tyIn [0, 5, 6, 13] && w.mdIn [2, 3] && w.noVd && laneRegOk w.va && laneRegOk w.vb &&
      (if w.md == 3 then laneRegOk w.vc else w.noVc) && w.longLow && w.ve == 0 && w.seg == 0 && w.memQual false true
  | .ldo =>
      w.tyIn memTys && w.md == 0 && r3 && w.noVb && w.noVc && w.longLow && w.ve == 0 && (w.seg == 4 || w.seg == 5) &&
      w.memQual true false
  | .sto =>
      w.tyIn memTys && w.md == 0 && w.noVd && laneRegOk w.va && laneRegOk w.vb && w.noVc && w.longLow && w.ve == 0 &&
      (w.seg == 4 || w.seg == 5) && w.memQual false true
  | .ldx =>
      w.tyIn memTys && w.md.toNat % 4 == 0 && r3 && w.noVb && w.noVc && w.longLow && w.ve == 0 && w.seg == 5 &&
      w.memQual true false
  | .xst =>
      w.tyIn memTys && w.md.toNat % 4 == 0 && w.noVd && laneRegOk w.va && laneRegOk w.vb && w.noVc && w.longLow &&
      w.ve == 0 && w.seg == 5 && w.memQual false true
  | .atom =>
      atomOk w.ty.toNat w.md.toNat false && r3 && laneRegOk w.vb && (if w.md == 7 then laneRegOk w.vc else w.noVc) &&
      w.longLow && w.ve == 0 && (w.seg == 0 || w.seg == 4 || w.seg == 5 || w.seg == 6) &&
      (w.seg == 5 || w.aux.extractLsb' 6 2 == 0) && w.memQual true true
  | .red =>
      atomOk w.ty.toNat w.md.toNat true && w.noVd && laneRegOk w.va && laneRegOk w.vb && w.noVc && w.longLow && w.ve == 0 &&
      (w.seg == 0 || w.seg == 4 || w.seg == 5 || w.seg == 6) && (w.seg == 5 || w.aux.extractLsb' 6 2 == 0) &&
      w.memQual false true
  | .flush =>
      w.ty == 13 && w.md.toNat ≤ 1 && w.noVd && laneRegOk w.va && w.noVb && (if w.md == 1 then laneRegOk w.vc else w.noVc) &&
      w.longLow && w.ve == 0 && w.seg ≤ 1 && w.memQual false false
  | .topk =>
      w.tyIn [0, 5] && w.md.toNat ≤ 1 && r3 && laneRegOk w.vb && w.noVc && w.longLow && laneRegOk w.ve &&
      w.aux.extractLsb' 7 9 == 0
  | .rkenc =>
      w.tyIn [0, 1, 2, 3, 4, 5, 7, 9] && w.md == 0 && r3 && laneRegOk w.vb && laneRegOk w.vc && w.longLow && w.ve == 0 &&
      w.aux.extractLsb' 14 2 == 0 && (w.aux.getLsbD 9 || w.aux.extractLsb' 10 2 == 0)
  | .rkrec =>
      w.tyIn [0, 1, 2] && w.md == 0 && r3 && laneRegOk w.vb && laneRegOk w.vc && w.longLow && w.ve == 0 &&
      w.aux.extractLsb' 13 3 == 0
  | .rktab =>
      w.ty == 1 && w.md == 0 && w.noVd && laneRegOk w.va && w.noVb && w.noVc && w.longLow && w.ve == 0 &&
      w.aux.extractLsb' 2 14 == 0
  | .rkmrg =>
      w.tyIn [0, 5] && w.md == 0 && r3 && laneRegOk w.vb && laneRegOk w.vc && w.longLow && w.ve == 0 &&
      w.aux.extractLsb' 9 7 == 0
  | .lbr => w.ty == 0 && w.md == 0 && w.im == 1 && w.noVd && w.noVa && w.noVb && w.noVc
  | .lbra => w.ty == 0 && w.md.toNat ≤ 1 && w.im == 1 && w.noVd && w.noVa && w.noVb && w.noVc
  | .ltrap =>
      w.ty == 0 && w.md == 0 && w.im == 1 && w.noVd && w.noVa && w.noVb && w.noVc && w.low.extractLsb' 20 12 == 0
  | .join | .laneEnd =>
      w.ty == 0 && w.md == 0 && w.im == 0 && w.noVd && w.noVa && w.noVb && w.noVc && w.low == 0 && w.g == 0 && w.gn == 0

/-- Bits of stream command word 0 below the scope field that a command defines (R62, R297 to R302, R314). -/
def streamMask (op : StreamOp) : BitVec 53 :=
  match op with
  | .tile | .storeTile => 0x3FFFF03FFFFFF#53
  | .mcast => 0x3FFFCF3FFFFFF#53
  | .gather => 0x7FFFFFFFFFFFF#53
  | .setReg => 0xF#53
  | .addc => 0xFF00FFFFFFFF#53
  | .streamLoop => 0xF000FFFFFFFF#53
  | .jmp => 0xFFFFFFFF#53
  | .notifyStore | .notifyAdd => 0xFFF000000000#53
  | .notifyCredit => 0x0FF000000000#53
  | .waitv => 0xFF0000000000#53
  | .save => 0xFFFFFFFFFF800#53
  | .fetch => 0xFFFFFFFFFF800#53
  | .streamFence | .streamEnd => 0#53

/-- Commands that take acq and rel (R62). -/
def streamOrders : StreamOp → Bool
  | .setReg | .addc | .streamLoop | .jmp | .streamEnd => false
  | _ => true

/-- The code of a stream command (R62). -/
def StreamOp.code : StreamOp → BitVec 6
  | .tile => 0x01#6
  | .mcast => 0x11#6
  | .storeTile => 0x02#6
  | .gather => 0x03#6
  | .setReg => 0x05#6
  | .addc => 0x06#6
  | .streamLoop => 0x07#6
  | .jmp => 0x08#6
  | .notifyStore => 0x0a#6
  | .notifyAdd => 0x0a#6
  | .notifyCredit => 0x0a#6
  | .waitv => 0x0b#6
  | .save => 0x0c#6
  | .fetch => 0x0d#6
  | .streamFence => 0x0f#6
  | .streamEnd => 0x10#6

/-- Whether the first word names the command: its cmd field, and for the forms of NOTIFY its op field (R62, R300). -/
def streamNames (op : StreamOp) (w : StreamW) : Bool :=
  w.w0.extractLsb' 58 6 == op.code &&
  (match op with
   | .notifyStore => w.w0.extractLsb' 36 4 == 0
   | .notifyAdd => w.w0.extractLsb' 36 4 == 1
   | .notifyCredit => w.w0.extractLsb' 36 4 == 2
   | _ => true)

/-- Legality of a stream command's words: it is named by them, its undefined bits are 0 and its scope is assigned (R61, R62, R296). -/
def streamOk (op : StreamOp) (w : StreamW) : Bool :=
  let acq := w.w0.getLsbD 57
  let rel := w.w0.getLsbD 56
  let sc := w.w0.extractLsb' 53 3
  streamNames op w && (w.w0.extractLsb' 0 53 &&& ~~~ streamMask op) == 0 && scopeOk sc && (acq || rel || sc == 0) &&
  (streamOrders op || (!acq && !rel)) &&
  (match op with
   | .tile | .mcast | .storeTile | .save | .fetch | .gather => true
   | .setReg => w.w2 == 0 && w.w3 == 0
   | .waitv => w.w2 == 0 && w.w3 == 0 && (w.w0.extractLsb' 40 4).toNat ≤ 3
   | .notifyStore | .notifyAdd => w.w1 == 0 && w.w2 == 0 && w.w3 == 0
   | .notifyCredit => w.w1.extractLsb' 28 36 == 0 && w.w2 == 0 && w.w3 == 0
   | _ => w.w1 == 0 && w.w2 == 0 && w.w3 == 0)

/-- A well-formed instruction: one whose fields the spec accepts at decode. Events carry no encoding and are always well formed. -/
def Instr.wf (i : Instr) : Bool :=
  match i.laneOp? with
  | some (op, w) => laneOk op w && (op != .laneSt || w.md.toNat ≤ 1) && (op != .kmov || w.md == 0)
  | none =>
    match i.streamOp? with
    | some (op, w) => streamOk op w
    | none => scalarOk i

end Sys2Proof
end

