-- ==== Sys2Proof/Decode.lean ====
section
/-! DEFINITION. The decoders of the three kinds of instruction (scalar words R48 to R51, lane units R53 to R56, stream commands R61, R62) and, after them, the encoders. -/

namespace Sys2Proof

/-- Why a pattern of bits is no instruction. -/
inductive DecodeError where
  | illegalScalar
  | illegalLane
  | illegalHeader
  | illegalCommand
  | truncated
  deriving DecidableEq, Repr

/-- The opcode of a lane instruction (R55). -/
def LaneOp.code : LaneOp → Byte
  | .laneNop => 0x00#8
  | .mov => 0x01#8
  | .sel => 0x02#8
  | .fadd => 0x03#8
  | .fsub => 0x04#8
  | .fmul => 0x05#8
  | .ffma => 0x06#8
  | .fmin => 0x07#8
  | .fmax => 0x08#8
  | .fcmp => 0x09#8
  | .fclass => 0x0a#8
  | .frnd => 0x0b#8
  | .fscale => 0x0c#8
  | .fdot2 => 0x0d#8
  | .cvt => 0x20#8
  | .cvtef => 0x21#8
  | .packq4 => 0x22#8
  | .unpackq4 => 0x23#8
  | .iadd => 0x30#8
  | .isub => 0x31#8
  | .imul => 0x32#8
  | .imulh => 0x33#8
  | .imad => 0x34#8
  | .idiv => 0x35#8
  | .irem => 0x36#8
  | .iabs => 0x37#8
  | .imin => 0x38#8
  | .imax => 0x39#8
  | .icmp => 0x3a#8
  | .iadds => 0x3b#8
  | .isubs => 0x3c#8
  | .laneAnd => 0x40#8
  | .laneOr => 0x41#8
  | .laneXor => 0x42#8
  | .laneShl => 0x43#8
  | .laneShr => 0x44#8
  | .laneSar => 0x45#8
  | .lanePopc => 0x46#8
  | .laneClz => 0x47#8
  | .brev => 0x48#8
  | .bfe => 0x49#8
  | .bfi => 0x4a#8
  | .kand => 0x50#8
  | .kor => 0x51#8
  | .kxor => 0x52#8
  | .knot => 0x53#8
  | .kmov => 0x54#8
  | .kmovV => 0x54#8
  | .kmovK => 0x54#8
  | .kbal => 0x55#8
  | .exp2 => 0x60#8
  | .log2 => 0x61#8
  | .rcp => 0x62#8
  | .rsq => 0x63#8
  | .sqrt => 0x64#8
  | .sin => 0x65#8
  | .cos => 0x66#8
  | .tanh => 0x67#8
  | .shfl => 0x70#8
  | .redx => 0x71#8
  | .scanx => 0x72#8
  | .rtwcfg => 0x73#8
  | .rtwnext => 0x74#8
  | .segred => 0x75#8
  | .laneLd => 0x80#8
  | .laneSt => 0x81#8
  | .wlappend => 0x81#8
  | .ldo => 0x82#8
  | .sto => 0x83#8
  | .ldx => 0x84#8
  | .xst => 0x85#8
  | .atom => 0x86#8
  | .red => 0x87#8
  | .flush => 0x88#8
  | .topk => 0x90#8
  | .rkenc => 0x91#8
  | .rkrec => 0x92#8
  | .rktab => 0x93#8
  | .rkmrg => 0x94#8
  | .lbr => 0xa0#8
  | .lbra => 0xa2#8
  | .join => 0xa1#8
  | .laneEnd => 0xa3#8
  | .ltrap => 0xa4#8

/-- The instruction of a lane opcode and its word. -/
def LaneOp.instr (op : LaneOp) (w : LaneW) : Instr :=
  match op with
  | .laneNop => .laneNop w
  | .mov => .mov w
  | .sel => .sel w
  | .fadd => .fadd w
  | .fsub => .fsub w
  | .fmul => .fmul w
  | .ffma => .ffma w
  | .fmin => .fmin w
  | .fmax => .fmax w
  | .fcmp => .fcmp w
  | .fclass => .fclass w
  | .frnd => .frnd w
  | .fscale => .fscale w
  | .fdot2 => .fdot2 w
  | .cvt => .cvt w
  | .cvtef => .cvtef w
  | .packq4 => .packq4 w
  | .unpackq4 => .unpackq4 w
  | .iadd => .iadd w
  | .isub => .isub w
  | .imul => .imul w
  | .imulh => .imulh w
  | .imad => .imad w
  | .idiv => .idiv w
  | .irem => .irem w
  | .iabs => .iabs w
  | .imin => .imin w
  | .imax => .imax w
  | .icmp => .icmp w
  | .iadds => .iadds w
  | .isubs => .isubs w
  | .laneAnd => .laneAnd w
  | .laneOr => .laneOr w
  | .laneXor => .laneXor w
  | .laneShl => .laneShl w
  | .laneShr => .laneShr w
  | .laneSar => .laneSar w
  | .lanePopc => .lanePopc w
  | .laneClz => .laneClz w
  | .brev => .brev w
  | .bfe => .bfe w
  | .bfi => .bfi w
  | .kand => .kand w
  | .kor => .kor w
  | .kxor => .kxor w
  | .knot => .knot w
  | .kmov => .kmov w
  | .kmovV => .kmovV w
  | .kmovK => .kmovK w
  | .kbal => .kbal w
  | .exp2 => .exp2 w
  | .log2 => .log2 w
  | .rcp => .rcp w
  | .rsq => .rsq w
  | .sqrt => .sqrt w
  | .sin => .sin w
  | .cos => .cos w
  | .tanh => .tanh w
  | .shfl => .shfl w
  | .redx => .redx w
  | .scanx => .scanx w
  | .rtwcfg => .rtwcfg w
  | .rtwnext => .rtwnext w
  | .segred => .segred w
  | .laneLd => .laneLd w
  | .laneSt => .laneSt w
  | .wlappend => .wlappend w
  | .ldo => .ldo w
  | .sto => .sto w
  | .ldx => .ldx w
  | .xst => .xst w
  | .atom => .atom w
  | .red => .red w
  | .flush => .flush w
  | .topk => .topk w
  | .rkenc => .rkenc w
  | .rkrec => .rkrec w
  | .rktab => .rktab w
  | .rkmrg => .rkmrg w
  | .lbr => .lbr w
  | .lbra => .lbra w
  | .join => .join w
  | .laneEnd => .laneEnd w
  | .ltrap => .ltrap w

/-- How many words a stream command has (R62). -/
def StreamOp.words : StreamOp → Nat
  | .tile => 4
  | .mcast => 4
  | .storeTile => 4
  | .gather => 4
  | .setReg => 2
  | .addc => 1
  | .streamLoop => 1
  | .jmp => 1
  | .notifyStore => 2
  | .notifyAdd => 2
  | .notifyCredit => 2
  | .waitv => 2
  | .save => 4
  | .fetch => 4
  | .streamFence => 1
  | .streamEnd => 1

/-- The instruction of a stream command and its words. -/
def StreamOp.instr (op : StreamOp) (w : StreamW) : Instr :=
  match op with
  | .tile => .tile w
  | .mcast => .mcast w
  | .storeTile => .storeTile w
  | .gather => .gather w
  | .setReg => .setReg w
  | .addc => .addc w
  | .streamLoop => .streamLoop w
  | .jmp => .jmp w
  | .notifyStore => .notifyStore w
  | .notifyAdd => .notifyAdd w
  | .notifyCredit => .notifyCredit w
  | .waitv => .waitv w
  | .save => .save w
  | .fetch => .fetch w
  | .streamFence => .streamFence w
  | .streamEnd => .streamEnd w

/-- The 32-bit word of a scalar instruction, from the formats of R48 and the codes of R50, R51 and the chapters. -/
def encodeScalar : Instr → Option W32
  | .add d a b => some (0x0#6 ++ d ++ a ++ b ++ 0x0#8)
  | .sub d a b => some (0x0#6 ++ d ++ a ++ b ++ 0x1#8)
  | .mul d a b => some (0x0#6 ++ d ++ a ++ b ++ 0x2#8)
  | .mulh d a b => some (0x0#6 ++ d ++ a ++ b ++ 0x3#8)
  | .mulhn d a b => some (0x0#6 ++ d ++ a ++ b ++ 0x4#8)
  | .div d a b => some (0x0#6 ++ d ++ a ++ b ++ 0x5#8)
  | .divn d a b => some (0x0#6 ++ d ++ a ++ b ++ 0x6#8)
  | .rem d a b => some (0x0#6 ++ d ++ a ++ b ++ 0x7#8)
  | .remn d a b => some (0x0#6 ++ d ++ a ++ b ++ 0x8#8)
  | .and d a b => some (0x0#6 ++ d ++ a ++ b ++ 0x10#8)
  | .or d a b => some (0x0#6 ++ d ++ a ++ b ++ 0x11#8)
  | .xor d a b => some (0x0#6 ++ d ++ a ++ b ++ 0x12#8)
  | .andn d a b => some (0x0#6 ++ d ++ a ++ b ++ 0x13#8)
  | .shl d a b => some (0x0#6 ++ d ++ a ++ b ++ 0x18#8)
  | .shr d a b => some (0x0#6 ++ d ++ a ++ b ++ 0x19#8)
  | .sar d a b => some (0x0#6 ++ d ++ a ++ b ++ 0x1a#8)
  | .min d a b => some (0x0#6 ++ d ++ a ++ b ++ 0x20#8)
  | .max d a b => some (0x0#6 ++ d ++ a ++ b ++ 0x21#8)
  | .minn d a b => some (0x0#6 ++ d ++ a ++ b ++ 0x22#8)
  | .maxn d a b => some (0x0#6 ++ d ++ a ++ b ++ 0x23#8)
  | .slt d a b => some (0x0#6 ++ d ++ a ++ b ++ 0x28#8)
  | .sltn d a b => some (0x0#6 ++ d ++ a ++ b ++ 0x29#8)
  | .seq d a b => some (0x0#6 ++ d ++ a ++ b ++ 0x2a#8)
  | .popc d a => some (0x0#6 ++ d ++ a ++ 0x30#14)
  | .clz d a => some (0x0#6 ++ d ++ a ++ 0x31#14)
  | .ctz d a => some (0x0#6 ++ d ++ a ++ 0x32#14)
  | .addi d a i => some (0x1#6 ++ d ++ a ++ i)
  | .andi d a i => some (0x2#6 ++ d ++ a ++ i)
  | .ori d a i => some (0x3#6 ++ d ++ a ++ i)
  | .xori d a i => some (0x4#6 ++ d ++ a ++ i)
  | .slti d a i => some (0x5#6 ++ d ++ a ++ i)
  | .shli d a n => some (0x6#6 ++ d ++ a ++ 0x0#8 ++ n)
  | .shri d a n => some (0x6#6 ++ d ++ a ++ 0x40#8 ++ n)
  | .sari d a n => some (0x6#6 ++ d ++ a ++ 0x80#8 ++ n)
  | .lih d i => some (0x7#6 ++ d ++ i)
  | .ld t b s z x o => some (0x8#6 ++ t ++ b ++ s ++ z ++ x ++ o)
  | .st t b s z o => some (0x9#6 ++ t ++ b ++ s ++ z ++ 0x0#1 ++ o)
  | .csrr d c => some (0xa#6 ++ d ++ 0x0#8 ++ c)
  | .csrw a c => some (0xb#6 ++ 0x0#6 ++ a ++ 0x0#2 ++ c)
  | .csrs a c => some (0xb#6 ++ 0x0#6 ++ a ++ 0x1#2 ++ c)
  | .csrc a c => some (0xb#6 ++ 0x0#6 ++ a ++ 0x2#2 ++ c)
  | .bcc a b c o => some (0xc#6 ++ a ++ b ++ c ++ o)
  | .j o => some (0xd#6 ++ o)
  | .jal o => some (0xe#6 ++ o)
  | .jr a => some (0xf#6 ++ 0x0#6 ++ a ++ 0x0#14)
  | .jalr d a => some (0xf#6 ++ d ++ a ++ 0x1#14)
  | .loop a o => some (0x10#6 ++ a ++ 0x0#9 ++ o)
  | .disp d i => some (0x11#6 ++ d ++ i)
  | .vgetV d a n => some (0x12#6 ++ d ++ a ++ 0x0#4 ++ n)
  | .vgetK d a n => some (0x12#6 ++ d ++ a ++ 0x200#11 ++ n)
  | .vsetV d a n => some (0x12#6 ++ d ++ a ++ 0x8#4 ++ n)
  | .vsetK d a n => some (0x12#6 ++ d ++ a ++ 0x600#11 ++ n)
  | .fwait f => some (0x13#6 ++ 0x0#18 ++ f ++ 0x0#4)
  | .fenceAcq s => some (0x14#6 ++ 0x0#14 ++ s ++ 0x0#9)
  | .fenceRel s => some (0x14#6 ++ 0x1#14 ++ s ++ 0x0#9)
  | .fenceAr s => some (0x14#6 ++ 0x2#14 ++ s ++ 0x0#9)
  | .fenceW => some (0x14#6 ++ 0x3000#26)
  | .bar l n => some (0x15#6 ++ 0x0#14 ++ l ++ 0x0#6 ++ n)
  | .bara l n => some (0x15#6 ++ 0x1#14 ++ l ++ 0x0#6 ++ n)
  | .barw l n => some (0x15#6 ++ 0x2#14 ++ l ++ 0x0#6 ++ n)
  | .mxcfgClaim n => some (0x16#6 ++ 0x0#2 ++ n ++ 0x0#20)
  | .mxcfgSet t a => some (0x16#6 ++ 0x0#3 ++ t ++ a ++ 0x1#14)
  | .mxcfgStat d t => some (0x16#6 ++ d ++ 0x0#9 ++ t ++ 0x2#8)
  | .mxcfgFree => some (0x16#6 ++ 0x3#26)
  | .mxloop t g k f w u => some (0x17#6 ++ 0x0#3 ++ t ++ g ++ k ++ f ++ 0x0#1 ++ w ++ u)
  | .mxsp t g k f w u => some (0x18#6 ++ 0x0#3 ++ t ++ g ++ k ++ f ++ 0x0#1 ++ w ++ u)
  | .mxrk t g r f w => some (0x19#6 ++ 0x0#3 ++ t ++ g ++ r ++ f ++ 0x0#1 ++ w ++ 0x0#2)
  | .mxst v e z t d x f m => some (0x1a#6 ++ v ++ e ++ z ++ t ++ d ++ x ++ f ++ m)
  | .mxstZero e t f => some (0x1a#6 ++ 0x0#1 ++ e ++ 0x0#1 ++ t ++ 0x0#12 ++ f ++ 0xf#4)
  | .skickH d g b f t => some (0x1b#6 ++ d ++ g ++ b ++ f ++ 0x0#2 ++ t ++ 0x0#1)
  | .skickE d g b f t => some (0x1b#6 ++ d ++ g ++ b ++ f ++ 0x0#2 ++ t ++ 0x1#1)
  | .scopyLd l p f z b => some (0x1c#6 ++ 0x0#1 ++ l ++ 0x0#2 ++ p ++ 0x0#6 ++ f ++ 0x0#1 ++ z ++ b ++ 0x0#1)
  | .scopySt l p f z b => some (0x1c#6 ++ 0x0#1 ++ l ++ 0x0#2 ++ p ++ 0x0#6 ++ f ++ 0x0#1 ++ z ++ b ++ 0x1#1)
  | .sstat d a => some (0x1d#6 ++ d ++ a ++ 0x0#14)
  | .sstatCancel d a => some (0x1d#6 ++ d ++ a ++ 0x1#14)
  | .abinit d a b => some (0x1e#6 ++ d ++ a ++ b ++ 0x0#8)
  | .abfree a => some (0x1e#6 ++ 0x0#6 ++ a ++ 0x1#14)
  | .abwait a b => some (0x1f#6 ++ 0x0#6 ++ a ++ b ++ 0x0#8)
  | .abwaitT d a b => some (0x1f#6 ++ d ++ a ++ b ++ 0x1#8)
  | .abrel a => some (0x20#6 ++ 0x0#6 ++ a ++ 0x0#14)
  | .osalloc d a b c => some (0x21#6 ++ d ++ a ++ b ++ 0x0#4 ++ c)
  | .osfree a b => some (0x22#6 ++ 0x0#6 ++ a ++ b ++ 0x0#8)
  | .osquery d a => some (0x23#6 ++ d ++ a ++ 0x0#14)
  | .osqueryX d a => some (0x23#6 ++ d ++ a ++ 0x1#14)
  | .wltake d a h n => some (0x24#6 ++ d ++ a ++ h ++ 0x0#3 ++ n)
  | .wldone a => some (0x25#6 ++ 0x0#6 ++ a ++ 0x0#14)
  | .wlquiet a f => some (0x26#6 ++ 0x0#6 ++ a ++ 0x0#6 ++ f ++ 0x0#4)
  | .hdef a s n => some (0x27#6 ++ 0x0#6 ++ a ++ s ++ 0x0#3 ++ n)
  | .hread a s n => some (0x28#6 ++ 0x0#6 ++ a ++ s ++ 0x0#3 ++ n)
  | .nprEnter => some (0x29#6 ++ 0x0#26)
  | .nprExit => some (0x29#6 ++ 0x1#26)
  | .yield => some (0x2a#6 ++ 0x0#26)
  | .park a b => some (0x2a#6 ++ 0x0#6 ++ a ++ b ++ 0x1#8)
  | .coll g f s => some (0x2b#6 ++ 0x0#6 ++ g ++ 0x0#6 ++ f ++ s)
  | .amosX d a b p o w => some (0x2c#6 ++ d ++ a ++ b ++ p ++ o ++ w ++ 0x0#1)
  | .trap i => some (0x2d#6 ++ 0x0#6 ++ i)
  | .eret => some (0x2e#6 ++ 0x0#26)
  | .eretRetry => some (0x2e#6 ++ 0x1#26)
  | .sysc i => some (0x2f#6 ++ 0x0#6 ++ i)
  | .segld a b s => some (0x30#6 ++ 0x0#6 ++ a ++ b ++ 0x0#5 ++ s)
  | .segrdBase d s => some (0x31#6 ++ d ++ 0x0#17 ++ s)
  | .segrdLen d s => some (0x31#6 ++ d ++ 0x1#17 ++ s)
  | .exit => some (0x32#6 ++ 0x0#26)
  | .halt => some (0x33#6 ++ 0x0#26)
  | .flushs b s o => some (0x34#6 ++ 0x0#6 ++ b ++ s ++ 0x0#3 ++ o)
  | .amos d a b p o w s => some (0x35#6 ++ d ++ a ++ b ++ p ++ o ++ w ++ s)
  | .lea t b s z o => some (0x36#6 ++ t ++ b ++ s ++ z ++ 0x0#1 ++ o)
  | .qstat d s => some (0x37#6 ++ d ++ 0x0#16 ++ s)
  | _ => none

/-- The 96-bit unit of a lane instruction (R53). -/
def encodeLaneW (op : LaneOp) (w : LaneW) : W96 :=
  op.code ++ w.ty ++ w.md ++ w.dist ++ w.g ++ w.gn ++ w.vd ++ w.va ++ w.vb ++ w.vc ++ w.im ++ w.low

/-- The unit of a lane instruction. -/
def encodeLane (i : Instr) : Option W96 :=
  match i.laneOp? with
  | some (op, w) => some (encodeLaneW op w)
  | none => none

/-- The scalar instruction that a word's major, fn and sub fields name, its other bits not yet judged (R48, R50, R51). -/
def parseScalar (w : W32) : Option Instr :=
  match (w.extractLsb' 26 6).toNat with
  | 0x0 =>
    match (w.extractLsb' 0 8).toNat with
    | 0x0 => some (.add (w.extractLsb' 20 6) (w.extractLsb' 14 6) (w.extractLsb' 8 6))
    | 0x1 => some (.sub (w.extractLsb' 20 6) (w.extractLsb' 14 6) (w.extractLsb' 8 6))
    | 0x2 => some (.mul (w.extractLsb' 20 6) (w.extractLsb' 14 6) (w.extractLsb' 8 6))
    | 0x3 => some (.mulh (w.extractLsb' 20 6) (w.extractLsb' 14 6) (w.extractLsb' 8 6))
    | 0x4 => some (.mulhn (w.extractLsb' 20 6) (w.extractLsb' 14 6) (w.extractLsb' 8 6))
    | 0x5 => some (.div (w.extractLsb' 20 6) (w.extractLsb' 14 6) (w.extractLsb' 8 6))
    | 0x6 => some (.divn (w.extractLsb' 20 6) (w.extractLsb' 14 6) (w.extractLsb' 8 6))
    | 0x7 => some (.rem (w.extractLsb' 20 6) (w.extractLsb' 14 6) (w.extractLsb' 8 6))
    | 0x8 => some (.remn (w.extractLsb' 20 6) (w.extractLsb' 14 6) (w.extractLsb' 8 6))
    | 0x10 => some (.and (w.extractLsb' 20 6) (w.extractLsb' 14 6) (w.extractLsb' 8 6))
    | 0x11 => some (.or (w.extractLsb' 20 6) (w.extractLsb' 14 6) (w.extractLsb' 8 6))
    | 0x12 => some (.xor (w.extractLsb' 20 6) (w.extractLsb' 14 6) (w.extractLsb' 8 6))
    | 0x13 => some (.andn (w.extractLsb' 20 6) (w.extractLsb' 14 6) (w.extractLsb' 8 6))
    | 0x18 => some (.shl (w.extractLsb' 20 6) (w.extractLsb' 14 6) (w.extractLsb' 8 6))
    | 0x19 => some (.shr (w.extractLsb' 20 6) (w.extractLsb' 14 6) (w.extractLsb' 8 6))
    | 0x1a => some (.sar (w.extractLsb' 20 6) (w.extractLsb' 14 6) (w.extractLsb' 8 6))
    | 0x20 => some (.min (w.extractLsb' 20 6) (w.extractLsb' 14 6) (w.extractLsb' 8 6))
    | 0x21 => some (.max (w.extractLsb' 20 6) (w.extractLsb' 14 6) (w.extractLsb' 8 6))
    | 0x22 => some (.minn (w.extractLsb' 20 6) (w.extractLsb' 14 6) (w.extractLsb' 8 6))
    | 0x23 => some (.maxn (w.extractLsb' 20 6) (w.extractLsb' 14 6) (w.extractLsb' 8 6))
    | 0x28 => some (.slt (w.extractLsb' 20 6) (w.extractLsb' 14 6) (w.extractLsb' 8 6))
    | 0x29 => some (.sltn (w.extractLsb' 20 6) (w.extractLsb' 14 6) (w.extractLsb' 8 6))
    | 0x2a => some (.seq (w.extractLsb' 20 6) (w.extractLsb' 14 6) (w.extractLsb' 8 6))
    | 0x30 => some (.popc (w.extractLsb' 20 6) (w.extractLsb' 14 6))
    | 0x31 => some (.clz (w.extractLsb' 20 6) (w.extractLsb' 14 6))
    | 0x32 => some (.ctz (w.extractLsb' 20 6) (w.extractLsb' 14 6))
    | _ => none
  | 0x1 => some (.addi (w.extractLsb' 20 6) (w.extractLsb' 14 6) (w.extractLsb' 0 14))
  | 0x2 => some (.andi (w.extractLsb' 20 6) (w.extractLsb' 14 6) (w.extractLsb' 0 14))
  | 0x3 => some (.ori (w.extractLsb' 20 6) (w.extractLsb' 14 6) (w.extractLsb' 0 14))
  | 0x4 => some (.xori (w.extractLsb' 20 6) (w.extractLsb' 14 6) (w.extractLsb' 0 14))
  | 0x5 => some (.slti (w.extractLsb' 20 6) (w.extractLsb' 14 6) (w.extractLsb' 0 14))
  | 0x6 =>
    match (w.extractLsb' 12 2).toNat with
    | 0x0 => some (.shli (w.extractLsb' 20 6) (w.extractLsb' 14 6) (w.extractLsb' 0 6))
    | 0x1 => some (.shri (w.extractLsb' 20 6) (w.extractLsb' 14 6) (w.extractLsb' 0 6))
    | 0x2 => some (.sari (w.extractLsb' 20 6) (w.extractLsb' 14 6) (w.extractLsb' 0 6))
    | _ => none
  | 0x7 => some (.lih (w.extractLsb' 20 6) (w.extractLsb' 0 20))
  | 0x8 => some (.ld (w.extractLsb' 20 6) (w.extractLsb' 14 6) (w.extractLsb' 11 3) (w.extractLsb' 9 2) (w.extractLsb' 8 1) (w.extractLsb' 0 8))
  | 0x9 => some (.st (w.extractLsb' 20 6) (w.extractLsb' 14 6) (w.extractLsb' 11 3) (w.extractLsb' 9 2) (w.extractLsb' 0 8))
  | 0xa => some (.csrr (w.extractLsb' 20 6) (w.extractLsb' 0 12))
  | 0xb =>
    match (w.extractLsb' 12 2).toNat with
    | 0x0 => some (.csrw (w.extractLsb' 14 6) (w.extractLsb' 0 12))
    | 0x1 => some (.csrs (w.extractLsb' 14 6) (w.extractLsb' 0 12))
    | 0x2 => some (.csrc (w.extractLsb' 14 6) (w.extractLsb' 0 12))
    | _ => none
  | 0xc => some (.bcc (w.extractLsb' 20 6) (w.extractLsb' 14 6) (w.extractLsb' 11 3) (w.extractLsb' 0 11))
  | 0xd => some (.j (w.extractLsb' 0 26))
  | 0xe => some (.jal (w.extractLsb' 0 26))
  | 0xf =>
    match (w.extractLsb' 0 8).toNat with
    | 0x0 => some (.jr (w.extractLsb' 14 6))
    | 0x1 => some (.jalr (w.extractLsb' 20 6) (w.extractLsb' 14 6))
    | _ => none
  | 0x10 => some (.loop (w.extractLsb' 20 6) (w.extractLsb' 0 11))
  | 0x11 => some (.disp (w.extractLsb' 20 6) (w.extractLsb' 0 20))
  | 0x12 =>
    match (w.extractLsb' 12 2).toNat with
    | 0x0 => some (.vgetV (w.extractLsb' 20 6) (w.extractLsb' 14 6) (w.extractLsb' 0 10))
    | 0x1 => some (.vgetK (w.extractLsb' 20 6) (w.extractLsb' 14 6) (w.extractLsb' 0 3))
    | 0x2 => some (.vsetV (w.extractLsb' 20 6) (w.extractLsb' 14 6) (w.extractLsb' 0 10))
    | 0x3 => some (.vsetK (w.extractLsb' 20 6) (w.extractLsb' 14 6) (w.extractLsb' 0 3))
    | _ => none
  | 0x13 => some (.fwait (w.extractLsb' 4 4))
  | 0x14 =>
    match (w.extractLsb' 12 2).toNat with
    | 0x0 => some (.fenceAcq (w.extractLsb' 9 3))
    | 0x1 => some (.fenceRel (w.extractLsb' 9 3))
    | 0x2 => some (.fenceAr (w.extractLsb' 9 3))
    | 0x3 => some (.fenceW)
    | _ => none
  | 0x15 =>
    match (w.extractLsb' 12 2).toNat with
    | 0x0 => some (.bar (w.extractLsb' 10 2) (w.extractLsb' 0 4))
    | 0x1 => some (.bara (w.extractLsb' 10 2) (w.extractLsb' 0 4))
    | 0x2 => some (.barw (w.extractLsb' 10 2) (w.extractLsb' 0 4))
    | _ => none
  | 0x16 =>
    match (w.extractLsb' 0 4).toNat with
    | 0x0 => some (.mxcfgClaim (w.extractLsb' 20 4))
    | 0x1 => some (.mxcfgSet (w.extractLsb' 20 3) (w.extractLsb' 14 6))
    | 0x2 => some (.mxcfgStat (w.extractLsb' 20 6) (w.extractLsb' 8 3))
    | 0x3 => some (.mxcfgFree)
    | _ => none
  | 0x17 => some (.mxloop (w.extractLsb' 20 3) (w.extractLsb' 14 6) (w.extractLsb' 8 6) (w.extractLsb' 4 4) (w.extractLsb' 2 1) (w.extractLsb' 0 2))
  | 0x18 => some (.mxsp (w.extractLsb' 20 3) (w.extractLsb' 14 6) (w.extractLsb' 8 6) (w.extractLsb' 4 4) (w.extractLsb' 2 1) (w.extractLsb' 0 2))
  | 0x19 => some (.mxrk (w.extractLsb' 20 3) (w.extractLsb' 14 6) (w.extractLsb' 8 6) (w.extractLsb' 4 4) (w.extractLsb' 2 1))
  | 0x1a => if w.extractLsb' 0 4 = 15#4 then some (.mxstZero (w.extractLsb' 24 1) (w.extractLsb' 20 3) (w.extractLsb' 4 4))
            else some (.mxst (w.extractLsb' 25 1) (w.extractLsb' 24 1) (w.extractLsb' 23 1) (w.extractLsb' 20 3) (w.extractLsb' 14 6) (w.extractLsb' 8 6) (w.extractLsb' 4 4) (w.extractLsb' 0 4))
  | 0x1b =>
    match (w.extractLsb' 0 1).toNat with
    | 0x0 => some (.skickH (w.extractLsb' 20 6) (w.extractLsb' 14 6) (w.extractLsb' 8 6) (w.extractLsb' 4 4) (w.extractLsb' 1 1))
    | 0x1 => some (.skickE (w.extractLsb' 20 6) (w.extractLsb' 14 6) (w.extractLsb' 8 6) (w.extractLsb' 4 4) (w.extractLsb' 1 1))
    | _ => none
  | 0x1c =>
    match (w.extractLsb' 0 1).toNat with
    | 0x0 => some (.scopyLd (w.extractLsb' 22 3) (w.extractLsb' 14 6) (w.extractLsb' 4 4) (w.extractLsb' 2 1) (w.extractLsb' 1 1))
    | 0x1 => some (.scopySt (w.extractLsb' 22 3) (w.extractLsb' 14 6) (w.extractLsb' 4 4) (w.extractLsb' 2 1) (w.extractLsb' 1 1))
    | _ => none
  | 0x1d =>
    match (w.extractLsb' 0 4).toNat with
    | 0x0 => some (.sstat (w.extractLsb' 20 6) (w.extractLsb' 14 6))
    | 0x1 => some (.sstatCancel (w.extractLsb' 20 6) (w.extractLsb' 14 6))
    | _ => none
  | 0x1e =>
    match (w.extractLsb' 0 4).toNat with
    | 0x0 => some (.abinit (w.extractLsb' 20 6) (w.extractLsb' 14 6) (w.extractLsb' 8 6))
    | 0x1 => some (.abfree (w.extractLsb' 14 6))
    | _ => none
  | 0x1f =>
    match (w.extractLsb' 0 4).toNat with
    | 0x0 => some (.abwait (w.extractLsb' 14 6) (w.extractLsb' 8 6))
    | 0x1 => some (.abwaitT (w.extractLsb' 20 6) (w.extractLsb' 14 6) (w.extractLsb' 8 6))
    | _ => none
  | 0x20 => some (.abrel (w.extractLsb' 14 6))
  | 0x21 => some (.osalloc (w.extractLsb' 20 6) (w.extractLsb' 14 6) (w.extractLsb' 8 6) (w.extractLsb' 0 4))
  | 0x22 => some (.osfree (w.extractLsb' 14 6) (w.extractLsb' 8 6))
  | 0x23 =>
    match (w.extractLsb' 0 4).toNat with
    | 0x0 => some (.osquery (w.extractLsb' 20 6) (w.extractLsb' 14 6))
    | 0x1 => some (.osqueryX (w.extractLsb' 20 6) (w.extractLsb' 14 6))
    | _ => none
  | 0x24 => some (.wltake (w.extractLsb' 20 6) (w.extractLsb' 14 6) (w.extractLsb' 13 1) (w.extractLsb' 0 10))
  | 0x25 => some (.wldone (w.extractLsb' 14 6))
  | 0x26 => some (.wlquiet (w.extractLsb' 14 6) (w.extractLsb' 4 4))
  | 0x27 => some (.hdef (w.extractLsb' 14 6) (w.extractLsb' 11 3) (w.extractLsb' 0 8))
  | 0x28 => some (.hread (w.extractLsb' 14 6) (w.extractLsb' 11 3) (w.extractLsb' 0 8))
  | 0x29 =>
    match (w.extractLsb' 0 4).toNat with
    | 0x0 => some (.nprEnter)
    | 0x1 => some (.nprExit)
    | _ => none
  | 0x2a =>
    match (w.extractLsb' 0 4).toNat with
    | 0x0 => some (.yield)
    | 0x1 => some (.park (w.extractLsb' 14 6) (w.extractLsb' 8 6))
    | _ => none
  | 0x2b => some (.coll (w.extractLsb' 14 6) (w.extractLsb' 4 4) (w.extractLsb' 0 4))
  | 0x2c => some (.amosX (w.extractLsb' 20 6) (w.extractLsb' 14 6) (w.extractLsb' 8 6) (w.extractLsb' 4 4) (w.extractLsb' 2 2) (w.extractLsb' 1 1))
  | 0x2d => some (.trap (w.extractLsb' 0 20))
  | 0x2e =>
    match (w.extractLsb' 0 4).toNat with
    | 0x0 => some (.eret)
    | 0x1 => some (.eretRetry)
    | _ => none
  | 0x2f => some (.sysc (w.extractLsb' 0 20))
  | 0x30 => some (.segld (w.extractLsb' 14 6) (w.extractLsb' 8 6) (w.extractLsb' 0 3))
  | 0x31 =>
    match (w.extractLsb' 3 1).toNat with
    | 0x0 => some (.segrdBase (w.extractLsb' 20 6) (w.extractLsb' 0 3))
    | 0x1 => some (.segrdLen (w.extractLsb' 20 6) (w.extractLsb' 0 3))
    | _ => none
  | 0x32 => some (.exit)
  | 0x33 => some (.halt)
  | 0x34 => some (.flushs (w.extractLsb' 14 6) (w.extractLsb' 11 3) (w.extractLsb' 0 8))
  | 0x35 => some (.amos (w.extractLsb' 20 6) (w.extractLsb' 14 6) (w.extractLsb' 8 6) (w.extractLsb' 4 4) (w.extractLsb' 2 2) (w.extractLsb' 1 1) (w.extractLsb' 0 1))
  | 0x36 => some (.lea (w.extractLsb' 20 6) (w.extractLsb' 14 6) (w.extractLsb' 11 3) (w.extractLsb' 9 2) (w.extractLsb' 0 8))
  | 0x37 => some (.qstat (w.extractLsb' 20 6) (w.extractLsb' 0 4))
  | _ => none

/-- Decoding of a scalar word: the fields must be legal and every bit that the instruction does not use must be 0 (R49). -/
def decodeScalar (w : W32) : Except DecodeError Instr :=
  match parseScalar w with
  | some i => if scalarOk i && encodeScalar i == some w then .ok i else .error .illegalScalar
  | none => .error .illegalScalar

/-- The lane opcode that an op field and md field name (R55, R171, R195). -/
def parseLaneOp (op : Byte) (md : BitVec 4) : Option LaneOp :=
  match op.toNat with
  | 0x0 => some .laneNop
  | 0x1 => some .mov
  | 0x2 => some .sel
  | 0x3 => some .fadd
  | 0x4 => some .fsub
  | 0x5 => some .fmul
  | 0x6 => some .ffma
  | 0x7 => some .fmin
  | 0x8 => some .fmax
  | 0x9 => some .fcmp
  | 0xa => some .fclass
  | 0xb => some .frnd
  | 0xc => some .fscale
  | 0xd => some .fdot2
  | 0x20 => some .cvt
  | 0x21 => some .cvtef
  | 0x22 => some .packq4
  | 0x23 => some .unpackq4
  | 0x30 => some .iadd
  | 0x31 => some .isub
  | 0x32 => some .imul
  | 0x33 => some .imulh
  | 0x34 => some .imad
  | 0x35 => some .idiv
  | 0x36 => some .irem
  | 0x37 => some .iabs
  | 0x38 => some .imin
  | 0x39 => some .imax
  | 0x3a => some .icmp
  | 0x3b => some .iadds
  | 0x3c => some .isubs
  | 0x40 => some .laneAnd
  | 0x41 => some .laneOr
  | 0x42 => some .laneXor
  | 0x43 => some .laneShl
  | 0x44 => some .laneShr
  | 0x45 => some .laneSar
  | 0x46 => some .lanePopc
  | 0x47 => some .laneClz
  | 0x48 => some .brev
  | 0x49 => some .bfe
  | 0x4a => some .bfi
  | 0x50 => some .kand
  | 0x51 => some .kor
  | 0x52 => some .kxor
  | 0x53 => some .knot
  | 0x54 => if md = 1#4 then some .kmovV else if md = 2#4 then some .kmovK else some .kmov
  | 0x55 => some .kbal
  | 0x60 => some .exp2
  | 0x61 => some .log2
  | 0x62 => some .rcp
  | 0x63 => some .rsq
  | 0x64 => some .sqrt
  | 0x65 => some .sin
  | 0x66 => some .cos
  | 0x67 => some .tanh
  | 0x70 => some .shfl
  | 0x71 => some .redx
  | 0x72 => some .scanx
  | 0x73 => some .rtwcfg
  | 0x74 => some .rtwnext
  | 0x75 => some .segred
  | 0x80 => some .laneLd
  | 0x81 => if md.getLsbD 1 then some .wlappend else some .laneSt
  | 0x82 => some .ldo
  | 0x83 => some .sto
  | 0x84 => some .ldx
  | 0x85 => some .xst
  | 0x86 => some .atom
  | 0x87 => some .red
  | 0x88 => some .flush
  | 0x90 => some .topk
  | 0x91 => some .rkenc
  | 0x92 => some .rkrec
  | 0x93 => some .rktab
  | 0x94 => some .rkmrg
  | 0xa0 => some .lbr
  | 0xa1 => some .join
  | 0xa2 => some .lbra
  | 0xa3 => some .laneEnd
  | 0xa4 => some .ltrap
  | _ => none

/-- The fields of a lane unit (R53). -/
def laneFields (u : W96) : LaneW :=
  { ty := u.extractLsb' 84 4, md := u.extractLsb' 80 4, dist := u.extractLsb' 77 3, g := u.extractLsb' 74 3,
    gn := u.extractLsb' 73 1, vd := u.extractLsb' 63 10, va := u.extractLsb' 53 10, vb := u.extractLsb' 43 10,
    vc := u.extractLsb' 33 10, im := u.extractLsb' 32 1, low := u.extractLsb' 0 32 }

/-- Decoding of a lane unit that is not a clause header (R53 to R55). -/
def decodeLane (u : W96) : Except DecodeError Instr :=
  match parseLaneOp (u.extractLsb' 88 8) (u.extractLsb' 80 4) with
  | some op =>
    let i := op.instr (laneFields u)
    if i.wf then .ok i else .error .illegalLane
  | none => .error .illegalLane

/-- A clause header (R56). -/
structure Header where
  wait : BitVec 12
  flagA : BitVec 4
  flagB : BitVec 4
  len : Nat
  yh : Bool
  deriving DecidableEq, Repr

/-- A flag that a header waits on and counts itself (R56). -/
def waitsOwn (wait : BitVec 12) (f : BitVec 4) : Bool := f.toNat ≤ 11 && wait.getLsbD f.toNat

/-- Whether a unit is a clause header (R55, R57). -/
def isHeader (u : W96) : Bool := u.extractLsb' 88 8 == 0xFF#8

/-- Decoding of a clause header (R56). -/
def decodeHeader (u : W96) : Except DecodeError Header :=
  let wait := u.extractLsb' 76 12
  let a := u.extractLsb' 72 4
  let b := u.extractLsb' 68 4
  if isHeader u && u.extractLsb' 0 62 == 0 && flagOk a && flagOk b && (a != b || a == 15) && !(waitsOwn wait a) &&
      !(waitsOwn wait b) then
    .ok { wait := wait, flagA := a, flagB := b, len := (u.extractLsb' 63 5).toNat + 1, yh := u.getLsbD 62 }
  else .error .illegalHeader

/-- The unit of a clause header (R56). -/
def encodeHeader (h : Header) : W96 :=
  0xFF#8 ++ h.wait ++ h.flagA ++ h.flagB ++ BitVec.ofNat 5 (h.len - 1) ++ BitVec.ofBool h.yh ++ 0#62

/-- The stream command that a cmd field, and NOTIFY's op field, name (R62, R300). -/
def parseStreamOp (cmd : BitVec 6) (op : BitVec 4) : Option StreamOp :=
  match cmd.toNat with
  | 0x1 => some .tile
  | 0x11 => some .mcast
  | 0x2 => some .storeTile
  | 0x3 => some .gather
  | 0x5 => some .setReg
  | 0x6 => some .addc
  | 0x7 => some .streamLoop
  | 0x8 => some .jmp
  | 0xa => if op = 0#4 then some .notifyStore else if op = 1#4 then some .notifyAdd else if op = 2#4 then some .notifyCredit else none
  | 0xb => some .waitv
  | 0xc => some .save
  | 0xd => some .fetch
  | 0xf => some .streamFence
  | 0x10 => some .streamEnd
  | _ => none

/-- The words of a command, those it does not have taken as 0. -/
def streamWords (n : Nat) (ws : List W64) : StreamW :=
  { w0 := ws.getD 0 0, w1 := if n ≤ 1 then 0 else ws.getD 1 0, w2 := if n ≤ 2 then 0 else ws.getD 2 0,
    w3 := if n ≤ 3 then 0 else ws.getD 3 0 }

/-- How many words the command that begins with w0 has; 1 for a word that begins none (R62). -/
def streamLength (w0 : W64) : Nat :=
  match parseStreamOp (w0.extractLsb' 58 6) (w0.extractLsb' 36 4) with
  | some op => op.words
  | none => 1

/-- Decoding of a stream command from its words (R61, R62). -/
def decodeStream (ws : List W64) : Except DecodeError Instr :=
  match ws with
  | [] => .error .truncated
  | w0 :: _ =>
    match parseStreamOp (w0.extractLsb' 58 6) (w0.extractLsb' 36 4) with
    | none => .error .illegalCommand
    | some op =>
      if ws.length < op.words then .error .truncated
      else
        let i := op.instr (streamWords op.words ws)
        if i.wf then .ok i else .error .illegalCommand

/-- The words of a stream command. -/
def encodeStream (i : Instr) : Option (List W64) :=
  match i.streamOp? with
  | some (op, w) => some (([w.w0, w.w1, w.w2, w.w3]).take op.words)
  | none => none

/-- The words of an instruction, from the encoding tables: 32-bit scalar words, 96-bit lane units, 64-bit command words. -/
inductive Encoded where
  | scalar (w : W32)
  | lane (u : W96)
  | stream (ws : List W64)
  deriving DecidableEq, Repr

/-- The encoder: the words of an instruction that has an encoding. -/
def encode (i : Instr) : Option Encoded :=
  match encodeScalar i with
  | some w => some (.scalar w)
  | none =>
    match encodeLane i with
    | some u => some (.lane u)
    | none => (encodeStream i).map .stream

/-- The decoder of each kind of words. -/
def decode : Encoded → Except DecodeError Instr
  | .scalar w => decodeScalar w
  | .lane u => decodeLane u
  | .stream ws => decodeStream ws

/-- The n low 64-bit words of a number, the first the least significant. -/
def wordsOf (n w : Nat) : List W64 := (List.range n).map fun k => BitVec.ofNat 64 (w / 2 ^ (64 * k))

/-- The value of little-endian bytes (R4). -/
def leValue : List Byte → Nat
  | [] => 0
  | b :: bs => b.toNat + 256 * leValue bs

/-- The little-endian bytes of a value (R4). -/
def leBytes : Nat → Nat → List Byte
  | 0, _ => []
  | n + 1, v => BitVec.ofNat 8 v :: leBytes n (v / 256)

/-- A scalar word from its four bytes in KS (R44). -/
def scalarOfBytes (bs : List Byte) : W32 := BitVec.ofNat 32 (leValue (bs.take 4))

/-- A lane unit from its twelve bytes in KL (R44). -/
def laneOfBytes (bs : List Byte) : W96 := BitVec.ofNat 96 (leValue (bs.take 12))

/-- The management command that a command block names (R378, R379). -/
def mgmtInstr (cmd : Byte) : Instr :=
  match cmd.toNat with
  | 0x1 => .ctxcreate
  | 0x2 => .ctxend
  | 0x3 => .xinv
  | 0x4 => .preempt
  | 0x5 => .resume
  | 0x6 => .kill
  | 0x7 => .teamgo
  | 0x8 => .migrate
  | 0x9 => .touch
  | 0xa => .nsdef
  | 0xb => .atset
  | 0xc => .tagrd
  | 0xd => .poisonclr
  | 0xe => .lossrel
  | 0xf => .portfail
  | 0x10 => .portset
  | _ => .unknownCmd

/-- The CMD code of a management command (R379). -/
def Instr.mgmtCode? : Instr → Option Byte
  | .ctxcreate => some 0x01#8
  | .ctxend => some 0x02#8
  | .xinv => some 0x03#8
  | .preempt => some 0x04#8
  | .resume => some 0x05#8
  | .kill => some 0x06#8
  | .teamgo => some 0x07#8
  | .migrate => some 0x08#8
  | .touch => some 0x09#8
  | .nsdef => some 0x0a#8
  | .atset => some 0x0b#8
  | .tagrd => some 0x0c#8
  | .poisonclr => some 0x0d#8
  | .lossrel => some 0x0e#8
  | .portfail => some 0x0f#8
  | .portset => some 0x10#8
  | _ => none

/-- The fields of the 64-byte command block (R378). -/
def mgmtFields (b : BitVec 512) : MgmtW :=
  { cmd := b.extractLsb' 0 8, flags := b.extractLsb' 8 8, ctx := b.extractLsb' 16 16, resv := b.extractLsb' 32 32,
    w1 := b.extractLsb' 64 64, w2 := b.extractLsb' 128 64, w3 := b.extractLsb' 192 64, w4 := b.extractLsb' 256 64,
    w5 := b.extractLsb' 320 64, w6 := b.extractLsb' 384 64, w7 := b.extractLsb' 448 64 }

/-- What the decoder reads from an instruction whose bits are w, the first word's bit 0 the least significant: a scalar word
of 32 bits, a lane unit of 96 bits, a stream command of one to four 64-bit words. The bytes are laid out as R44 stores them
and read back by the decoders. -/
def decodeTableWord (nbits w : Nat) : Option Instr :=
  if nbits ≤ 32 then (decodeScalar (scalarOfBytes (leBytes 4 w))).toOption
  else if nbits = 96 then (decodeLane (laneOfBytes (leBytes 12 w))).toOption
  else (decodeStream (wordsOf 4 w)).toOption

end Sys2Proof
end

