-- ==== Sys2Proof/Machine/State.lean ====
section
/-! DEFINITION. The state of one Expolyn Z64 package as plain data: every piece of state that the spec gives the machine (INVENTORY.md, State). -/

namespace Sys2Proof.Machine

/-- Memory: address and byte pairs, addresses strictly rising, no entry equal to what an unlisted address reads as (0; log entry 5). -/
abbrev Memory := List Host.Cell

/-- A segment descriptor (R77). -/
structure Seg where
  base : W64 := 0
  len : W64 := 0
  deriving DecidableEq, Repr

/-- The eight segment registers of a strand (R76, R77). -/
structure Segs where
  g : Seg := {}
  p : Seg := {}
  c : Seg := {}
  h : Seg := {}
  o : Seg := {}
  x : Seg := {}
  ks : Seg := {}
  kl : Seg := {}
  deriving DecidableEq, Repr

/-- Where an access lands: memory through the die cache or the host agent, an operand store, or byte x of the visible or the shadow area of a team's exchange window, which are found when the access is performed (R257, R258). -/
inductive Place where
  | mem (pa pol : Nat) (host : Bool)
  | os (core off : Nat)
  | win (team : Nat) (shadow : Bool) (x : Nat)
  deriving DecidableEq, Repr

/-- A lane whose access has passed the checks: its place and its FADDR. -/
structure LanePlace where
  lane : Nat
  place : Place
  fa : W64
  deriving DecidableEq, Repr

/-- STATE of a lane side (R177). -/
inductive SideState where
  | running
  | parkedJoin
  | parkedEnd
  deriving DecidableEq, Repr

/-- The unit that ERET.retry issues once more (R147), with the flags of its own clause. -/
structure Reissue where
  unitNo : W32
  fA : BitVec 4
  fB : BitVec 4
  deriving DecidableEq, Repr

/-- A lane PC side (R177): PC, MASK, LIVE, STATE, and its clause. left is the number of instructions of the clause not yet
issued; 0 means that the next unit is a header. reissue: the units that ERET.retry issues once more (R147), before the side goes on at its PC. yh: the yield hint of the header at which the side stands has been counted (R56, R220). no: the side's number, new at each split and merge; past: the long instructions, by tag, that came before the split or merge that opened it, and that are before its own in the order of R92. -/
structure Side where
  pc : W32 := 0
  mask : W64 := 0
  live : Bool := false
  st : SideState := .running
  hdr : W32 := 0
  left : Nat := 0
  flagA : BitVec 4 := 15
  flagB : BitVec 4 := 15
  reissue : List Reissue := []
  yh : Bool := false
  no : Nat := 0
  past : List Nat := []
  deriving DecidableEq, Repr

/-- A push or a pop of the divergence stack under way (R184). For a pop: which side issued the JOIN or END, and whether it is an END. -/
inductive Spill where
  | push
  | pop (sideB isEnd : Bool) (u : W32)
  deriving DecidableEq, Repr

/-- The lane stream of a strand, or its trap window (R177, R200): sides, depth, dispatch queue, block in progress; started: how many blocks have started; spilled: number, past (R92) and units to be issued once more (R147) of the sides on the divergence stack, the last spilled first. -/
structure LaneCtx where
  a : Side := {}
  b : Side := {}
  depth : Nat := 0
  busy : Bool := false
  dq : List W32 := []
  lastB : Bool := true
  spill : Option Spill := none
  started : Nat := 0
  spilled : List (Nat × List Nat × List Reissue) := []
  deriving DecidableEq, Repr

/-- What an access of the lane stream does when it is performed (R194 to R198): a load; a store, through: at the point that R100 names for a release store; an atomic operation (the code of atomicOp), by its bank unit or home slice; one that a message takes to the team on a partner core (R256); FLUSH; WLAPPEND. -/
inductive AccKind where
  | load
  | store (through : Bool)
  | atomic (op : Nat)
  | message (op team : Nat)
  | flush
  | append
  deriving DecidableEq, Repr

/-- The accesses of a lane memory instruction between its issue and their performance (R194, R196): bytes of each, the lanes whose access is still to be performed with their places, the values and comparands by lane, the scope of a release that is still to go before them, and what the lanes have read: value, conditions, poison; pois: the places that were poisoned. -/
structure LaneAcc where
  kind : AccKind
  n : Nat := 4
  todo : List LanePlace := []
  data : List (Nat × W32 × W32) := []
  rel : Option (BitVec 3) := none
  got : List (Nat × Nat × BitVec 11 × Bool) := []
  pois : List LanePlace := []
  deriving DecidableEq, Repr

/-- One lane's write of a register: place in the lane register map, value (R139, R185, R194). -/
structure LaneWrite where
  key : Nat
  val : W32
  deriving DecidableEq, Repr

/-- A write of a non-long lane instruction that has not landed yet, with the core cycle at which it lands (R139, R140). merge: the value is ORed in (a condition of lstat, R145). -/
structure PendWrite where
  due : Nat
  key : Nat
  val : W32
  merge : Bool := false
  deriving DecidableEq, Repr

/-- Kinds of long lane instructions by the way they complete (R54). -/
inductive LongKind where
  | mem
  | sfu
  | cross
  | rank
  deriving DecidableEq, Repr

/-- A condition set raised in a lane (R146). -/
structure LaneCond where
  lane : Nat
  bits : BitVec 11
  deriving DecidableEq, Repr

/-- A cause that a strand takes at a later issue (R135): CODE, TMASK, FADDR. -/
structure Held where
  code : Byte
  tmask : W64 := 0
  faddr : W64 := 0
  deriving DecidableEq, Repr

/-- A rank-network operation in progress, its parameters as read at issue (R322 to R335): offsets of source and destination, count N or, for RKMRG, the offset of list B; leader lane; SCALE; the table taken at acceptance; for TOPK the NaN candidates by lane. -/
structure RankOp where
  src : Nat := 0
  dst : Nat := 0
  n : Nat := 0
  lead : Nat := 0
  scale : Nat := 0
  table : List W16 := []
  tableOk : Bool := true
  nan : List (Nat × Nat) := []
  deriving DecidableEq, Repr

/-- A long lane instruction that has issued and not completed (R54, R148). tag: the number of the step in which it issued, by which messages and appends that it has sent find it; blk: the number of the lane block that issued it; side, past: the number of the side that issued it and the tags before that side (R92); acc: its accesses, until they are performed; acq: an acquire that follows its reads. -/
structure LongOp where
  kind : LongKind := .mem
  flag : BitVec 4 := 15
  saved : Bool := false
  sideB : Bool := false
  win : Bool := false
  unitNo : W32 := 0
  word : W96 := 0
  op : LaneOp := .laneNop
  w : LaneW := { ty := 0, md := 0, dist := 0, g := 0, gn := 0, vd := 0, va := 0, vb := 0, vc := 0, im := 0, low := 0 }
  active : W64 := 0
  writes : List LaneWrite := []
  conds : List LaneCond := []
  held : List Held := []
  due : Nat := 0
  tag : Nat := 0
  blk : Nat := 0
  side : Nat := 0
  past : List Nat := []
  acc : Option LaneAcc := none
  acq : Option (BitVec 3) := none
  fA : BitVec 4 := 15
  fB : BitVec 4 := 15
  rank : Option RankOp := none
  deriving DecidableEq, Repr

/-- What a scalar register waits for (R108). -/
inductive ReplyKind where
  | load
  | atomic
  | service
  | status
  deriving DecidableEq, Repr

/-- A scalar result under way: destination, value, held causes that its arrival raises, the acquire of an AMOS (R108, R351). svc is the entry that a SYSC waits for, inH whether the handler issued it: its scalar stream waits for the answer (R125). -/
structure Reply where
  kind : ReplyKind
  dst : Nat
  val : W64 := 0
  held : List Held := []
  acq : Option (BitVec 3) := none
  svc : Option Nat := none
  inH : Bool := false
  deriving DecidableEq, Repr

/-- An access parked on a translation fault (R87): page, the fields of its record (who: the GID of a COLL, 0 where it is not read yet), the lanes that faulted; of a lane instruction, its side, unit, word and clause flags; more: the other pages on which lanes of it faulted, each with address, cause and level (R193). delivered: the handler has answered Deliver, and the strand traps when it may issue. -/
structure Park where
  ctx : Nat
  page : Nat
  va : W64
  agent : Nat := 0
  kind : Nat := 0
  cause : Nat := 0
  level : Nat := 0
  who : Nat := 0
  more : List (Nat × W64 × Nat × Nat) := []
  tmask : W64 := 0
  sideB : Bool := false
  unitNo : W32 := 0
  word : W96 := 0
  fA : BitVec 4 := 15
  fB : BitVec 4 := 15
  delivered : Bool := false
  deriving DecidableEq, Repr

/-- A trap being taken: the TCAUSE parts, the masks and words of the record (R129 to R131). after: the faulting lane instruction has completed (R147). -/
structure Trap where
  code : Byte
  info : BitVec 20 := 0
  acm : BitVec 11 := 0
  sideB : Bool := false
  lfault : Bool := false
  sfault : Bool := false
  tmask : W64 := 0
  faddr : W64 := 0
  epc : Option W64 := none
  unitNo : Option W32 := none
  lword : W96 := 0
  sword : W32 := 0
  after : Bool := false
  fA : BitVec 4 := 15
  fB : BitVec 4 := 15
  deriving DecidableEq, Repr

/-- A trap set that becomes known at a core cycle (R147, R148); tag: the step in which its instruction issued. -/
structure PendCond where
  due : Nat
  trap : Trap
  tag : Nat := 0
  deriving DecidableEq, Repr

/-- A stall that only the strand's other stream ends (R60): at queue port 0 to 7 for want of room or of entries, of which the instruction takes need; 8, DISP at a full dispatch queue; 9, a wait for the end of the lane blocks. -/
structure Stall where
  port : Nat
  need : Nat := 1
  deriving DecidableEq, Repr

/-- What ERET needs of the last entry besides the registers (R133, R147): TLPC as recorded, and of the faulting lane side whether its instruction had completed, its side, unit and clause flags. -/
structure TrapRet where
  tlpc : W64 := 0
  after : Bool := false
  sideB : Bool := false
  lfault : Bool := false
  unitNo : W32 := 0
  fA : BitVec 4 := 15
  fB : BitVec 4 := 15
  deriving DecidableEq, Repr

/-- Why a strand does not issue (R128, R137, R234, R286). -/
inductive Halt where
  | none
  | preempt
  | byHalt
  | moving
  deriving DecidableEq, Repr

/-- The ragged tile walker (R190): lengths by lane, count, sequence, position. -/
structure Walker where
  len : NMap W32 := []
  c : Nat := 0
  seq : Nat := 0
  pos : Nat := 0
  deriving DecidableEq, Repr

/-- Control/status registers that a strand holds (R106, R107). -/
structure Csrs where
  tvec : W64 := 0
  tcause : W64 := 0
  tepc : W64 := 0
  tlpc : W64 := 0
  tmask : W64 := 0
  trapen : W64 := 0x600
  sflags : W64 := 0
  ih : Bool := false
  tsave0 : W64 := 0
  tsave1 : W64 := 0
  deriving DecidableEq, Repr

/-- A SKICK that waits for a slot of an engine (R293): its form and fields. -/
structure SkickWait where
  eng : Nat
  e : Bool
  d : BitVec 6
  g : BitVec 6
  b : BitVec 6
  f : BitVec 4
  t : BitVec 1
  deriving DecidableEq, Repr

/-- An ABWAIT.T that waits (R307): its PC, the cycle in which its limit runs out, its barrier's offset in the store, its phase, and whether the phase has completed in time. -/
structure AbWait where
  pc : W64
  limit : Nat
  off : Nat
  phase : Nat
  met : Bool := false
  deriving DecidableEq, Repr

/-- A strand (R105, R177). Scalar registers by number; lane registers by number × 64 + lane, lstat as 970, predicate k as 1024 + k; queue ports and flags by number; vpois: poisoned register words (R261). entry, entryPark, entryRec: a trap entry whose record is not written yet, the park of that write (R136), and the record of the last entry as it stood at the entry, as a number of 256 bytes (R131). arr: arrival phases by level × 16 + barrier (R223); barAt: the PC of a BAR that has arrived and waits, savedBar: the one that stood so when the handler was entered; waitAt: an ABWAIT_T that waits (R307); claim: the number of tiles that a waiting MXCFG.claim asks for (R266); skick: a SKICK that waits for a slot (R293); parkSince: a PARK that waits: the tick at which it began, its barrier's offset in the store and its phase (R231); stallS, stallA, stallB: the stall on the other stream in which the scalar stream and the sides last stood (R60); relStore: the widest scope of the FENCE.rel whose release store is still to come (R95); pkgFlags, savedPkg: the flags, live and saved, that have counted an operation whose completion is visible at .pkg since their last FWAIT (R93); lastS, lastL: the steps in which the streams last issued, ageS, ageL: their wait ages (R220). (DESIGN CHOICE, log entry 16) -/
structure Strand where
  team : Nat := 0
  role : Nat := 0
  roleIdx : Nat := 0
  budget : Nat := 16
  k : Nat := 0
  prio : Nat := 0
  segs : Segs := {}
  a : NMap W64 := []
  pc : W64 := 0
  q : NMap (List W64) := []
  csr : Csrs := {}
  flags : NMap Nat := []
  savedFlags : NMap Nat := []
  v : NMap W32 := []
  lane : LaneCtx := {}
  win : LaneCtx := {}
  walker : Walker := {}
  pendW : List PendWrite := []
  lastLane : Option Nat := none
  longs : List LongOp := []
  replies : List Reply := []
  parkS : Option Park := none
  parkL : Option Park := none
  entry : Option Trap := none
  entryPark : Option Park := none
  entryRec : Nat := 0
  ret : TrapRet := {}
  held : List Held := []
  pendC : List PendCond := []
  vpois : List Nat := []
  halt : Halt := .none
  npr : Option Nat := none
  arr : NMap Nat := []
  barAt : Option W64 := none
  savedBar : Option W64 := none
  waitAt : Option AbWait := none
  claim : Option Nat := none
  skick : Option SkickWait := none
  parkSince : Option (Nat × Nat × Nat) := none
  waitS : Bool := false
  stallS : Option Stall := none
  stallA : Option Stall := none
  stallB : Option Stall := none
  waitL : Bool := false
  lastS : Option Nat := none
  lastL : Option Nat := none
  ageS : Nat := 0
  ageL : Nat := 0
  relStore : Option (BitVec 3) := none
  pkgFlags : List Nat := []
  savedPkg : List Nat := []
  deriving DecidableEq, Repr

/-- A role of a team block (R212). -/
structure Role where
  entry : W32 := 0
  lane : W32 := 0
  budget : Nat := 16
  count : Nat := 1
  deriving DecidableEq, Repr

/-- A team block (R212). -/
structure TeamBlk where
  roles : List Role := []
  window : Nat := 0
  tbar : List Byte := []
  cbar : List Byte := []
  deriving DecidableEq, Repr

/-- Where a team stands (R13, R231, R234, R238). -/
inductive TeamState where
  | waiting
  | placed
  | running
  | saved (ready : Bool)
  | exited
  | ended (status : Nat)
  deriving DecidableEq, Repr

/-- Line state of an operand-store line (R245). written: the tick of its last write on its die's ticker (in a saved image, its age); negative for a line that came from a die whose ticker was ahead. barr: the 32-byte places of the line that hold an arrival barrier (R303); the barrier mark is barr ≠ 0. -/
structure OsLine where
  free : Bool := false
  cls : Nat := 0
  written : Int := 0
  expired : Bool := false
  barr : Byte := 0
  poison : W64 := 0
  deriving DecidableEq, Repr

/-- A team (R12, R207, R214, R222, R257). core: its core; while it is out of its core (R231), 64 and its own number, under which everything saved of it stands. obase, tseg: its segment; xbase: area 0 of its exchange window; sel: its core's select bit; born: the tick of its placement, when every line of it had age 0 (R245); image: of a saved team, the step that wrote its image, its first physical address and its bytes (R233). -/
structure Team where
  ctx : Nat := 0
  launch : Nat := 0
  id : Nat := 0
  x : Nat := 0
  y : Nat := 0
  z : Nat := 0
  core : Nat := 0
  obase : Nat := 0
  tseg : Nat := 0
  blk : TeamBlk := {}
  xbase : Nat := 0
  sel : Bool := false
  st : TeamState := .waiting
  sids : List Nat := []
  tpcs : Nat := 1
  cores1 : Bool := false
  evt : Nat := 0
  prio : Nat := 0
  readyAt : Nat := 0
  born : Int := 0
  image : Option (Nat × Nat × Nat) := none
  deriving DecidableEq, Repr

/-- A hardware barrier (R223): phase, members that have arrived in it (team × 256 + number of the strand in its team), broken mark (R237). -/
structure Bar where
  phase : Nat := 0
  arrived : List Nat := []
  broken : Bool := false
  deriving DecidableEq, Repr

/-- Where a launch stands (R208 to R211). -/
inductive LaunchState where
  | submitted
  | ready
  | ended
  deriving DecidableEq, Repr

/-- A launch (R206, R209), under its place in the submission order: the record's bytes, its team block once it has been checked, whether it names an unknown predecessor (status 4), the statuses of its predecessors as they end, the host's answer that it waits for (R377), its next team, what has become of its teams, the lowest TEAMID that status 9 and that status 10 ended, whether it is cancelled (no more of its teams are placed), its completion-ring slot, whether its completion record is written; park: its record's team block or its completion record (R87). -/
structure Launch where
  queue : Nat := 0
  seq : Nat := 0
  ctx : Nat := 0
  recBytes : List Byte := []
  blk : TeamBlk := {}
  checked : Bool := false
  predBad : Bool := false
  preds : List (Option Nat) := []
  st : LaunchState := .submitted
  status : Nat := 0
  placed : Nat := 0
  exited : Nat := 0
  endedTeams : Nat := 0
  first : Option Nat := none
  firstLoss : Option Nat := none
  cancelled : Bool := false
  hostDep : Option Nat := none
  slot : Option Nat := none
  written : Bool := false
  park : Option Park := none
  deriving DecidableEq, Repr

/-- A host work queue (R202 to R205): the descriptor's fields, records read (sequence numbers), completions written; park: the read of a record (R87). -/
structure Queue where
  lring : W64 := 0
  cring : W64 := 0
  ringlog : Nat := 0
  cqlog : Nat := 0
  ctx : Nat := 0
  en : Bool := false
  err : Bool := false
  drain : Bool := false
  head : W32 := 0
  tail : W32 := 0
  readCount : Nat := 0
  written : Nat := 0
  park : Option Park := none
  deriving DecidableEq, Repr

/-- A context (R38, R82, R233, R379). user: a user context (R50); no rule of the spec makes another kind, so CTXCREATE makes this (DESIGN CHOICE, log entry 6). -/
structure Ctx where
  troot : Nat := 0
  saveBase : Nat := 0
  saveLen : Nat := 0
  touched : Byte := 0
  handles : NMap (BitVec 2048) := []
  preempted : Bool := false
  lossHeld : Bool := false
  lossHost : Bool := false
  granules : NMap Nat := []
  user : Bool := true
  deriving DecidableEq, Repr

/-- A die-cache line (R98): context number, data, dirty bytes, poison (R353); priv: the strand, as a barrier member counts it, whose accesses through segment P have touched the line (R81); bad: its data is marked uncorrectable (R352). Copies of a replicated line (R355) stand apart from copies through a leaf of another policy (R104, R358), under die number 8 + die. -/
structure DcLine where
  ctx : Nat := 0
  data : BitVec 1024 := 0
  dirty : BitVec 128 := 0
  poisoned : Bool := false
  priv : Option Nat := none
  bad : Bool := false
  deriving DecidableEq, Repr

/-- A translation held by a translation unit (R86): the physical 64 KiB page, its rights and its policy (R83, R84), the leaf's level. -/
structure TlbEntry where
  ppage : Nat := 0
  r : Bool := false
  w : Bool := false
  x : Bool := false
  policy : Nat := 0
  level : Nat := 0
  deriving DecidableEq, Repr

/-- A fault record waiting for its handler (R87); xunit: the translation unit that wrote it, 0 to 7 Vale dies, 8 the Basin walker. -/
structure FaultRec where
  park : Park
  unitNo : Nat := 0
  who : Nat := 0
  seq : Nat := 0
  xunit : Nat := 0
  deriving DecidableEq, Repr

/-- An update ordered at the replication sequencer and not yet committed (R356); who: the strand that stored, as a barrier member counts it, none for another agent. -/
structure ReplUpdate where
  line : Nat
  mask : BitVec 128
  data : BitVec 1024
  sharers : Byte
  who : Option Nat := none
  deriving DecidableEq, Repr

/-- A physical accumulator tile (R263, R266 to R269): owner strand, logical number; freed: an accepted MXST has given it up (R287); configuration with both handle snapshots, status bits [12:0]. -/
structure Tile where
  owner : Option Nat := none
  logical : Nat := 0
  freed : Bool := false
  cfg : Option W64 := none
  ha : BitVec 2048 := 0
  hb : BitVec 2048 := 0
  status : BitVec 13 := 0
  deriving DecidableEq, Repr

/-- Kinds of matrix commands (R270). -/
inductive MxKind where
  | dense
  | sparse
  | rank
  | store
  deriving DecidableEq, Repr

/-- A row of an MXRK (R281, R286): tokens taken, first rank of the tie run, ended. -/
structure MxRow where
  pos : Nat := 0
  run : Nat := 0
  ended : Bool := false
  deriving DecidableEq, Repr

/-- An accepted matrix command with its sequencer state (R270, R286): group registers and count as read, steps or groups done, current fragment starts; tile: the physical tile; acq: the numbers of the lane and window blocks that ACQW awaits; raised, segf, pois: the conditions of the run and the first failing offsets (R285); out: the output format of MXST, rows: the rows of MXRK; table: taken at its start; age: step times for which it has been runnable without a step, last: the step in which it last stepped (R270); sels: the select bits, by team, with which a step that has begun began, pick: the words that it reads through them (R277). -/
structure MxCmd where
  kind : MxKind
  sid : Nat
  tile : Nat
  flag : BitVec 4
  saved : Bool := false
  regs : List W64 := []
  count : Nat := 0
  done : Nat := 0
  offA : Int := 0
  offB : Int := 0
  offM : Int := 0
  cfg : W64 := 0
  ha : BitVec 2048 := 0
  hb : BitVec 2048 := 0
  out : Nat := 0
  ovf : Bool := false
  zero : Bool := false
  free : Bool := false
  res : Bool := false
  acq : Option (Nat × Nat) := none
  raised : BitVec 13 := 0
  segf : Option Nat := none
  pois : Option Nat := none
  rows : List MxRow := []
  table : List W16 := []
  started : Bool := false
  age : Nat := 0
  last : Option Nat := none
  sels : List (Nat × Bool) := []
  pick : Nat := 0
  deriving DecidableEq, Repr

/-- The tiles and matrix commands of a strand that has returned to a core, waiting to be restored (R266, R286): they stand under core number old, 64 and the number of its team. -/
structure TileBack where
  core : Nat
  sid : Nat
  old : Nat
  deriving DecidableEq, Repr

/-- A rank-attenuation table slot (R330). -/
structure RkTable where
  ctx : Nat := 0
  entries : List W16 := []
  deriving DecidableEq, Repr

/-- The current command of a stream program (R290, R320): its words, its handle snapshots; pos: units copied; begun: its wait is over and its acquire made; subm, fin: NVMe commands submitted and completed; data: blocks read, by NVMe command; buf: stored bytes not yet submitted; resid: residues by t0 (R315). -/
structure StreamCur where
  op : StreamOp
  w : StreamW
  h : BitVec 2048 := 0
  hs : BitVec 2048 := 0
  pos : Nat := 0
  begun : Bool := false
  subm : Nat := 0
  fin : Nat := 0
  data : NMap (List Byte) := []
  buf : List Byte := []
  resid : List Nat := []
  deriving DecidableEq, Repr

/-- An NVMe command under way (R316): its program and GEN, its number in the stream command, OP, namespace entry, first block, blocks, data to write; seq: its service-queue entry in host-assisted mode; buf: what the drive has written of a Read into the staging buffer. -/
structure NvmeReq where
  prog : Nat
  gen : W16
  n : Nat
  op : Nat
  ns : Nat
  slba : Nat
  nlb : Nat
  data : List Byte := []
  seq : Option Nat := none
  buf : List Byte := []
  deriving DecidableEq, Repr

/-- A stream program in its slot (R288, R295). targets: the teams at cluster positions 0 to 3, each its number + 1, or 0; cmdPc, cmd: address and cmd field of the command that it has fetched last (FPC, CMD); sticky: status bits [7:2]; onIndex: the parked access reads an index (R298). -/
structure Prog where
  ctx : Nat := 0
  pc : W64 := 0
  start : W64 := 0
  c : NMap W64 := []
  targets : List Nat := []
  kicker : Nat := 0
  flag : BitVec 4 := 15
  saved : Bool := false
  trapf : Bool := false
  gen : W16 := 0
  running : Bool := false
  halted : Bool := false
  waiting : Bool := false
  cancel : Bool := false
  code : Byte := 0
  cmdPc : W64 := 0
  cmd : BitVec 6 := 0
  detail : Byte := 0
  sticky : BitVec 6 := 0
  cur : Option StreamCur := none
  park : Option Park := none
  onIndex : Bool := false
  deriving DecidableEq, Repr

/-- An accepted SCOPY on a die's copy path (R311, R312): the words of the TILE or STORE that it stands for, its handle snapshot, its coordinates and phase; lead: the leader lane; pos: units copied. -/
structure Scopy where
  sid : Nat
  team : Nat
  flag : BitVec 4
  saved : Bool := false
  lead : Nat := 0
  store : Bool := false
  w : StreamW
  h : BitVec 2048 := 0
  coords : List Nat := []
  ph : Nat := 0
  pos : Nat := 0
  park : Option Park := none
  deriving DecidableEq, Repr

/-- A session-store namespace entry (R313). -/
structure NsEntry where
  nsid : W32 := 0
  big : Bool := false
  cap : Nat := 0
  sq : Nat := 0
  cq : Nat := 0
  depth : Nat := 0
  deriving DecidableEq, Repr

/-- An accepted COLL (R364, R365): its group, match number, rank, operands, snapshots of handles and descriptor, participant; gd: the descriptor's address; lost: its collective is aborted, by the kill of a local participant's team or before this COLL was accepted; pois: a contribution was poisoned (R353). Kept with the first COLL of its group: told, the elements of each value sent to another package so far, by level and index, the latest first; pos, the elements whose results are written everywhere; res, the results of the next chunk, of which wrote have been written (R369). -/
structure Coll where
  ctx : Nat
  team : Nat := 0
  gid : Nat
  k : Nat
  rank : Nat
  p : Nat
  op : BitVec 4
  hs : BitVec 2048
  hd : BitVec 2048
  desc : List W64
  acq : Bool
  rel : Bool
  scope : BitVec 3
  sid : Nat
  flag : BitVec 4
  saved : Bool := false
  gd : W64 := 0
  park : Option Park := none
  lost : Bool := false
  pois : Bool := false
  told : List (Nat × Nat × Nat) := []
  pos : Nat := 0
  res : List Nat := []
  wrote : Nat := 0
  deriving DecidableEq, Repr

/-- A partial value or root result of a remote collective that has been delivered (R366, R390). -/
structure CollPart where
  ctx : Nat
  gid : Nat
  k : Nat
  level : Nat
  idx : Nat
  root : Bool
  first : Nat
  vals : List W32
  deriving DecidableEq, Repr

/-- A message at a fabric port (R390, R393): its class and bytes. Queued to be sent: ctx, its context (1024 none); sent, bytes of it already sent; since, the tick of the Col die at which it was queued (R391). Received and held: kept, its permits are withheld. -/
structure Msg where
  cls : Nat
  bytes : List Byte
  ctx : Nat := 1024
  sent : Nat := 0
  since : Nat := 0
  kept : Bool := false
  deriving DecidableEq, Repr

/-- A flit that has gone out (R387): its 256 bytes, and the wavelength of each of its 32 beats. -/
structure SentFlit where
  bits : BitVec 2048
  on : List Nat
  deriving DecidableEq, Repr

/-- A Zumer fabric port (R387 to R394): status bits and counters of R394; width: the live width in which it sends, nextWidth the one announced and its first SEQ, rxWidth and rxNext the peer's; txSeq, rxSeq: the next SEQ sent and expected; replay: flits not yet acknowledged; nakSeq, nakCount: NAKs received for one SEQ, nakSent: NAKs sent for the SEQ expected; unacked: flits received since the last ACK; trainCount: TRAIN flits in a row by wavelength; trainAt: the tick at which training began, lastRx: that of the last valid flit from the peer, or of UP, idleAt: that at which the idle interval began, flits: those sent in it, all on the ticker of the Col die (R6, R389, R391); readySent, readyWl: READY sent, the wavelengths it named; peerReady: READY received (width, wavelengths, reserves); reserve, reserveMax, shared: permits held (R388); ret: permits to return, by class; outq: messages to send; tail: messages sent whole whose last flit is in the replay buffer; sent: what has gone out on the link; asm: messages being received, by class; heldMsgs: messages whose COLL is not accepted yet. (DESIGN CHOICE, log entry 16) -/
structure Port where
  up : Bool := false
  trained : Bool := false
  training : Bool := false
  waking : Bool := false
  parkPend : Bool := false
  liveWl : Byte := 0
  width : Nat := 0
  nextWidth : Option (Nat × W32) := none
  rxWidth : Nat := 0
  rxNext : Option (Nat × W32) := none
  dropc : Nat := 0
  repl : Nat := 0
  txSeq : W32 := 0
  rxSeq : W32 := 0
  replay : List (BitVec 2048) := []
  nakSeq : W32 := 0
  nakCount : Nat := 0
  nakSent : Nat := 0
  unacked : Nat := 0
  trainCount : NMap Nat := []
  trainAt : Nat := 0
  lastRx : Nat := 0
  idleAt : Nat := 0
  flits : Nat := 0
  readySent : Bool := false
  readyWl : Byte := 0
  peerReady : Option (Nat × Byte × List Nat) := none
  reserve : List Nat := [0, 0, 0, 0, 0]
  reserveMax : List Nat := [0, 0, 0, 0, 0]
  shared : Nat := 0
  ret : List Nat := [0, 0, 0, 0, 0]
  outq : List Msg := []
  tail : List Msg := []
  sent : List SentFlit := []
  asm : NMap (List Byte) := []
  heldMsgs : List Msg := []
  minwl : Nat := 1
  idle : Nat := 20
  deriving DecidableEq, Repr

/-- An entry of the host service queue that has not been answered (R375); posted: written to the ring. sid: who it was posted for. -/
structure SvcEntry where
  seq : Nat
  ty : Nat
  arg : BitVec 48 := 0
  body : List W64 := []
  sid : Nat := 0
  posted : Bool := false
  deriving DecidableEq, Repr

/-- A denial-log record (R381). -/
structure Denial where
  target : Nat
  unitNo : Nat
  master : Nat
  kind : Nat
  addr : Nat
  deriving DecidableEq, Repr

/-- An append that a compaction unit works on (R195, R226): the lanes' items for one descriptor (virtual address desc). Not reserved: waiting for its reservation. Reserved: slots first up of the ring, TAIL not yet past them; lost: lanes whose item write has failed. -/
structure Append where
  ctx : Nat
  die : Nat
  sid : Nat
  tag : Nat
  desc : Nat
  items : List (Nat × W32)
  reserved : Bool := false
  first : Nat := 0
  lost : List Nat := []
  park : Option Park := none
  deriving DecidableEq, Repr

/-- A WLQUIET that waits (R228), with a flag or, flag 15, stalling its stream; park: the detector's pass over the group is parked (R87). -/
structure QuietWait where
  sid : Nat
  flag : BitVec 4
  saved : Bool := false
  ctx : Nat
  group : Nat
  park : Option Park := none
  deriving DecidableEq, Repr

/-- An atomic message to a partner core under way (R256): the operations of one ATOM or RED of a strand on the exchange area of a team, by lane; an offset of an operation is one of the window. fetch: the old values go back to vd. op: the code of atomicOp. -/
structure ClusterMsg where
  sid : Nat
  tag : Nat
  team : Nat
  op : Nat
  fetch : Bool
  ops : List (Nat × SliceOp)
  deriving DecidableEq, Repr

/-- A report of a trap or event that Ultik or the host receives (R130, R136, R374). -/
structure Report where
  kind : Nat
  v0 : W64 := 0
  v1 : W64 := 0
  v2 : W64 := 0
  deriving DecidableEq, Repr

/-- What a home slice last returned (R347): tag, old or read value, poison mark. -/
structure SliceAck where
  tag : W32 := 0
  vals : List W64 := []
  data : BitVec 1024 := 0
  poisoned : Bool := false
  deriving DecidableEq, Repr

/-- A queued attestation request (R385): who asks (0 the host, 1 + p the peer at port p), nonce, tag; snap: MEAS0 to MEAS7 as they stood when it reached the head of the queue. -/
structure AttReq where
  who : Nat
  nonce : BitVec 256
  tag : W64
  snap : List (BitVec 512) := []
  deriving DecidableEq, Repr

/-- Thermal state of a tier region above a core, key core × 4 + tier, or of the sensors of the Basin die (core 64) and of Col die c (core 65 + c), tier 0 (R396, R397, R262). since: the tick of the Basin die's ticker from which the reading has been 105 °C or more; shutAt: that of the shutdown. (DESIGN CHOICE, log entry 16) -/
structure Region where
  reading : Nat := 0
  action : Nat := 0
  since : Option Nat := none
  shutdown : Bool := false
  shutAt : Nat := 0
  off : Bool := false
  deriving DecidableEq, Repr

/-- What moves in a step: a strand's scalar stream, a strand's lane stream, a stream program, the access of a lane of the memory instruction at a place of a strand's operations under way (R196), an event with its operands, or the ticks that a retention ticker counts (R6). And what no entry of the table stands for: a read of the host in the management space (R373), its loads and stores of host memory (R359), the masking of an MSI-X vector (R374), a single-bit error of a core's tiers that is corrected (R398), data of a drive that reaches the staging buffer of a request (R316). -/
inductive Choice where
  | time (ticker n : Nat)
  | pass (sid idx lane : Nat)
  | scalar (sid : Nat)
  | lane (sid : Nat)
  | prog (n : Nat)
  | event (i : Instr) (e : EvArg)
  | hostRead (off n : Nat)
  | hostPeek (addr n : Nat)
  | hostPoke (addr : Nat) (bs : List Byte)
  | mask (v : Nat)
  | corrected (core : Nat)
  | staged (idx : Nat) (bs : List Byte)
  deriving DecidableEq, Repr

/-- The package. (DESIGN CHOICE, log entry 16) -/
structure State where
  /- the dies (R15, R18) -/
  live : Byte := 0xFF
  colLive : BitVec 4 := 0xF
  fatal : Bool := false
  /- contexts, strands, teams, launches, queues -/
  ctxs : NMap Ctx := []
  strands : NMap Strand := []
  teams : NMap Team := []
  launches : NMap Launch := []
  queues : NMap Queue := []
  submitNext : Nat := 0
  bars : NMap Bar := []
  completions : NMap Nat := []
  /- memories; hostLines: dirty bytes of the host agent; hostOwed: strands with stores to host memory that are not globally observed (R101); linkSlow: the host link below 32 GT/s (R371); cio: what the host's last access over CXL.io came to, none a Completer Abort (R381); hostGot: what its last load of host memory gave (R359); updates: those that the sequencer has in flight (R356) -/
  hbm : Memory := []
  hostMem : Memory := []
  hostLines : NMap Byte := []
  hostOwed : List Nat := []
  linkUp : Bool := true
  linkSlow : Bool := false
  cio : Option (List Byte) := some []
  hostGot : List Byte := []
  dc : NMap DcLine := []
  tlb : NMap TlbEntry := []
  tags : NMap W32 := []
  poisonLines : List Nat := []
  poisonPages : List Nat := []
  sharers : NMap Byte := []
  updates : List ReplUpdate := []
  ack : SliceAck := {}
  /- operand stores -/
  os : NMap Byte := []
  osLines : NMap OsLine := []
  clusterMsgs : List ClusterMsg := []
  /- matrix engines and rank networks -/
  tiles : NMap Tile := []
  tileVal : NMap W32 := []
  claimQ : NMap (List Nat) := []
  tileBack : List TileBack := []
  mxq : NMap (List MxCmd) := []
  rkTab : NMap RkTable := []
  /- stream engines, copy paths, session store -/
  progs : NMap Prog := []
  skickQ : NMap (List Nat) := []
  scopies : NMap (List Scopy) := []
  ns : NMap NsEntry := []
  nvme : List NvmeReq := []
  /- collective engine; collDead: aborted groups (R368) -/
  colls : List Coll := []
  collCount : NMap Nat := []
  collParts : List CollPart := []
  collDead : List Coll := []
  /- translation faults, service queue, signals -/
  faults : List FaultRec := []
  faultSeq : NMap Nat := []
  svcBase : W64 := 0
  svcLog : Nat := 4
  svcOn : Bool := false
  svcNext : Nat := 0
  svc : List SvcEntry := []
  mode : BitVec 5 := 0
  msixOpen : List Nat := []
  msixPending : List Nat := []
  msixSent : List Nat := []
  reports : List Report := []
  /- work lists -/
  appends : List Append := []
  quiets : List QuietWait := []
  quietMet : List (Nat × Nat) := []
  /- mailbox, access tables, start-up. uCmd to uRes1: Ultik's own command (R378); mgmtQ: commands that wait, none standing for the host's; mStart: the step in which the running one began (R89, R382); moving: the teams that a MIGRATE has halted (R236); attBusy: the host's last request for a report was refused as BUSY (R385) -/
  mcmd : BitVec 512 := 0
  mBusy : Bool := false
  mDone : Bool := false
  mCmd : Byte := 0
  mResult : W16 := 0
  mres0 : W64 := 0
  mres1 : W64 := 0
  uCmd : BitVec 512 := 0
  uBusy : Bool := false
  uResult : W16 := 0
  uRes0 : W64 := 0
  uRes1 : W64 := 0
  mgmtQ : List (Option (BitVec 512)) := []
  mStart : Nat := 0
  moving : List Nat := []
  acc : NMap (BitVec 2) := []
  denials : List Denial := []
  denialCount : W64 := 0
  meas : NMap (BitVec 512) := []
  startFailed : Option Nat := none
  attQ : List AttReq := []
  attCount : W64 := 0
  attOut : List (Nat × List Byte) := []
  attBusy : Bool := false
  svns : List Byte := []
  /- fabric ports -/
  ports : NMap Port := []
  /- power, temperature, tiers. stepAt, powerAt: the ticks of the last clock steps for heat and for power; lowSince: that from which the power has been below 95 % of PLIM (R395, R396); heat: cores whose migration for heat is Ultik's, MIGR having been 0 when the event arose (R377) -/
  plim : Nat := 3200
  clock : NMap Nat := []
  stepAt : NMap Nat := []
  powerAt : Nat := 0
  lowSince : Option Nat := none
  regions : NMap Region := []
  heat : List Nat := []
  corrected : NMap Nat := []
  spares : NMap Nat := []
  remap : NMap Nat := []
  retired : List Nat := []
  testing : List Nat := []
  /- counters of cycles and ticks (R6): cores; tickers 0 to 7 Vale dies, 8 Basin, 9 to 12 Col dies -/
  cycle : NMap Nat := []
  tick : NMap Nat := []
  /- who acts: the acting strand, its lane side and window, the acting stream program, the operands of an event -/
  cur : Nat := 0
  curB : Bool := false
  curWin : Bool := false
  curWord : W96 := 0
  curProg : Nat := 0
  ev : EvArg := {}
  /- the order of moves (log entry 1) and the number of the step -/
  sched : List Choice := []
  stepNo : Nat := 0
  deriving DecidableEq, Repr

/-- Why the machine stops. -/
inductive Fault where
  /-- Raised by a step of a package that has met a package-fatal error: the loss of the Basin die (R18) or a full poison list (R352). Safe: the device does nothing further. -/
  | packageFatal
  deriving DecidableEq, Repr

/-- Why an instruction has no meaning in a state. (DESIGN CHOICE, log entry 54) -/
inductive Refusal where
  /-- Raised by exec's arms for an instruction that has no meaning in this model yet. Safe. -/
  | notModelled (mnemonic : String)
  /-- Raised by an instruction of a strand when the acting strand is not resident: no agent issues it (R90). Safe: no step asks for it. -/
  | noStrand
  /-- Raised by a stream command when the acting slot holds no running program (R290). Safe: no step asks for it. -/
  | noProgram
  deriving DecidableEq, Repr

/-- The access entries at reset (R380): the host has R and W on the management space, every other entry is 0. The key is kind × 2^32 + unit × 2^12 + master, the management space being kind 4. -/
def resetAccess : NMap (BitVec 2) := [(4 * 2 ^ 32 + 0x400, 3)]

/-- The package right after reset: no context, no team, no queue enabled, every register at the value of INVENTORY.md. (DESIGN CHOICE, log entry 5) (DESIGN CHOICE, log entry 16) (PRESUMED, log entry 23) -/
def State.reset : State := { acc := resetAccess }

end Sys2Proof.Machine
end

