-- ==== Sys2Proof/Machine/Map.lean ====
section
/-! DEFINITION. Reading and writing sparse data by number, and small helpers on numbers and bytes. -/

namespace Sys2Proof.Machine

/-- The value at a key, if one is listed. -/
def mget? {β : Type} : NMap β → Nat → Option β
  | [], _ => none
  | (k, v) :: m, n => if n = k then some v else mget? m n

/-- The value at a key; an unlisted key reads as d. -/
def mget {β : Type} (m : NMap β) (n : Nat) (d : β) : β := (mget? m n).getD d

/-- List a value at a key, keys kept rising. -/
def mput {β : Type} : NMap β → Nat → β → NMap β
  | [], n, x => [(n, x)]
  | (k, v) :: m, n, x =>
    if n < k then (n, x) :: (k, v) :: m
    else if n = k then (n, x) :: m
    else (k, v) :: mput m n x

/-- Take a key out. -/
def mdel {β : Type} : NMap β → Nat → NMap β
  | [], _ => []
  | (k, v) :: m, n => if n = k then mdel m n else (k, v) :: mdel m n

/-- Write a key so that a value equal to what an unlisted key reads as is not listed. -/
def mset {β : Type} [DecidableEq β] (m : NMap β) (n : Nat) (x d : β) : NMap β :=
  if x = d then mdel m n else mput m n x

/-- Change the value at a key that is listed. -/
def mmod {β : Type} (m : NMap β) (n : Nat) (f : β → β) : NMap β :=
  m.map fun p => if p.1 = n then (p.1, f p.2) else p

/-- Keys strictly rising, all at or above a bound. -/
def mwfFrom {β : Type} : Nat → NMap β → Bool
  | _, [] => true
  | lo, (k, _) :: m => decide (lo ≤ k) && mwfFrom (k + 1) m

/-- The canonical form of sparse data: keys strictly rising. -/
def mwf {β : Type} (m : NMap β) : Bool := mwfFrom 0 m

/-- The canonical form of memory: addresses strictly rising and no entry equal to 0, what an unlisted address reads as. -/
def Memory.wf (m : Memory) : Bool := mwf m && m.all fun c => c.2 != 0

/-- The byte at an address (R4); an unlisted address reads 0 (DESIGN CHOICE, log entry 5). -/
def memByte (m : Memory) (a : Nat) : Byte := mget m a 0

/-- Write one byte, keeping the canonical form. -/
def memPut (m : Memory) (a : Nat) (b : Byte) : Memory := mset m a b 0

/-- n bytes from an address, lowest address first. -/
def memBytes (m : Memory) (a n : Nat) : List Byte := (List.range n).map fun i => memByte m (a + i)

/-- Write bytes from an address up. -/
def memPutAll (m : Memory) (a : Nat) : List Byte → Memory
  | [] => m
  | b :: bs => memPutAll (memPut m a b) (a + 1) bs

/-- A little-endian number of n bytes (R4). -/
def memNat (m : Memory) (a n : Nat) : Nat := leValue (memBytes m a n)

/-- Natural multiple. -/
def aligned (a n : Nat) : Bool := a % n == 0

/-- x rounded up to a multiple of n. -/
def roundUp (x n : Nat) : Nat := (x + n - 1) / n * n

/-- Number of 1 bits among the low n bits. -/
def popCount (n x : Nat) : Nat := (List.range n).foldl (fun c i => if x.testBit i then c + 1 else c) 0

/-- Number of significant bits. -/
def bitLen (x : Nat) : Nat := if x = 0 then 0 else x.log2 + 1

/-- Lowest set bit among the low n bits, n when there is none. -/
def lowBit (n x : Nat) : Nat := ((List.range n).find? fun i => x.testBit i).getD n

/-- The lanes of a strand. -/
def lanes : List Nat := List.range 64

/-- A lane mask from a test. -/
def maskOf (p : Nat → Bool) : W64 :=
  BitVec.ofNat 64 (lanes.foldl (fun m i => if p i then m + 2 ^ i else m) 0)

/-- The lanes of a mask, lowest first. -/
def lanesOf (m : W64) : List Nat := lanes.filter fun i => m.getLsbD i

/-- Sign extension of the low n bits of a number into 64 bits. -/
def sext64 (n : Nat) (x : Nat) : W64 :=
  BitVec.ofInt 64 ((BitVec.ofNat n x).toInt)

/-- The signed value of the low n bits. -/
def sval (n : Nat) (x : Nat) : Int := (BitVec.ofNat n x).toInt

/-- A number clamped into a range. -/
def clampInt (lo hi x : Int) : Int := if x < lo then lo else if hi < x then hi else x

/-- Replace the element at a place of a list. -/
def setAt {β : Type} (l : List β) (n : Nat) (x : β) : List β :=
  (l.zip (List.range l.length)).map fun p => if p.2 = n then x else p.1

/-- Take out the element at a place of a list. -/
def dropAt {β : Type} (l : List β) (n : Nat) : List β := l.take n ++ l.drop (n + 1)

end Sys2Proof.Machine
end

