-- ==== Sys2Proof/Machine/Fp.lean ====
section
/-! DEFINITION. Floating-point values and their arithmetic (R21 to R29): exact dyadic values, one rounding, the conditions of R26. -/

namespace Sys2Proof.Machine

/-- Condition bits (R107): numbers of the bits of lstat, SFLAGS, TRAPEN and ACM. -/
abbrev Conds := BitVec 11
def cINV : Conds := 1
def cDZ : Conds := 2
def cOVF : Conds := 4
def cUNF : Conds := 8
def cINX : Conds := 16
def cIDZ : Conds := 32
def cIOV : Conds := 64
def cQMAL : Conds := 128
def cEXPL : Conds := 256
def cRKF : Conds := 512
def cEXPT : Conds := 1024

/-- A floating-point format (R21): exponent and fraction widths, bias; e4: no infinity and one NaN pattern (e4m3). -/
structure Fmt where
  ebits : Nat
  fbits : Nat
  bias : Nat
  fp8 : Bool := false
  e4 : Bool := false
  deriving DecidableEq, Repr

/-- The format of a type code (R19, R21). -/
def fmtOf (ty : Nat) : Fmt :=
  match ty with
  | 1 => { ebits := 5, fbits := 10, bias := 15 }
  | 2 => { ebits := 8, fbits := 7, bias := 127 }
  | 3 => { ebits := 4, fbits := 3, bias := 7, fp8 := true, e4 := true }
  | 4 => { ebits := 5, fbits := 2, bias := 15, fp8 := true }
  | _ => { ebits := 8, fbits := 23, bias := 127 }

/-- f32. -/
def f32 : Fmt := fmtOf 0

/-- A floating-point datum: NaN (signalling or not), infinity, or the exact value ±m × 2^e. -/
inductive Fv where
  | nan (sig : Bool)
  | inf (neg : Bool)
  | fin (neg : Bool) (m : Nat) (e : Int)
  deriving DecidableEq, Repr

/-- Width of a format in bits. -/
def Fmt.width (f : Fmt) : Nat := 1 + f.ebits + f.fbits

/-- Canonical NaN (R21, R22). -/
def Fmt.nanBits (f : Fmt) : Nat :=
  if f.e4 then 0x7F else (2 ^ f.ebits - 1) * 2 ^ f.fbits + 2 ^ (f.fbits - 1)

/-- Largest exponent field of a finite value. -/
def Fmt.topExp (f : Fmt) : Nat := if f.e4 then 2 ^ f.ebits - 1 else 2 ^ f.ebits - 2

/-- Bits of the largest finite magnitude (R21). -/
def Fmt.maxBits (f : Fmt) : Nat := if f.e4 then 0x7E else (2 ^ f.ebits - 1) * 2 ^ f.fbits - 1

/-- Bits of infinity (formats that have one). -/
def Fmt.infBits (f : Fmt) : Nat := (2 ^ f.ebits - 1) * 2 ^ f.fbits

/-- Sign bit of a format. -/
def Fmt.signBit (f : Fmt) (neg : Bool) : Nat := if neg then 2 ^ (f.ebits + f.fbits) else 0

/-- Exponent of the least significant bit of subnormals. -/
def Fmt.qmin (f : Fmt) : Int := 1 - (f.bias : Int) - f.fbits

/-- The datum of a pattern (R21). FP8 formats have no signalling NaN (R22). -/
def decodeF (f : Fmt) (x : Nat) : Fv :=
  let x := x % 2 ^ f.width
  let neg := x.testBit (f.width - 1)
  let mag := x % 2 ^ (f.width - 1)
  let ex := mag / 2 ^ f.fbits
  let fr := mag % 2 ^ f.fbits
  if f.e4 && mag == 0x7F then .nan false
  else if !f.e4 && ex == 2 ^ f.ebits - 1 then
    if fr = 0 then .inf neg else .nan (!f.fp8 && !fr.testBit (f.fbits - 1))
  else if ex = 0 then .fin neg fr f.qmin
  else .fin neg (fr + 2 ^ f.fbits) (f.qmin + ((ex : Int) - 1))

/-- Whether a pattern is subnormal and not zero. -/
def isSubnormal (f : Fmt) (x : Nat) : Bool :=
  let mag := x % 2 ^ (f.width - 1)
  mag / 2 ^ f.fbits == 0 && mag != 0

/-- A pattern read under .ftz (R23): a subnormal becomes a zero of its sign. -/
def flushIn (f : Fmt) (ftz : Bool) (x : Nat) : Nat :=
  let x := x % 2 ^ f.width
  if ftz && isSubnormal f x then x / 2 ^ (f.width - 1) * 2 ^ (f.width - 1) else x

/-- Whether a magnitude rounds up, by mode (R24): kept integer part, twice the lost part compared with the unit (0 below half, 1 half, 2 above), anything lost. -/
def roundsUp (rm : Nat) (neg : Bool) (kept : Nat) (half : Nat) (lost : Bool) : Bool :=
  match rm with
  | 0 => half == 2 || (half == 1 && kept % 2 == 1)
  | 1 => false
  | 2 => neg && lost
  | _ => !neg && lost

/-- Round m × 2^e to a multiple of 2^q: the integer multiple, and whether anything was lost. -/
def roundAt (rm : Nat) (neg : Bool) (m : Nat) (e q : Int) : Nat × Bool :=
  if q ≤ e then (m * 2 ^ (e - q).toNat, false)
  else
    let sh := (q - e).toNat
    let kept := m >>> sh
    let rem := m - kept * 2 ^ sh
    let half := if 2 * rem < 2 ^ sh then 0 else if 2 * rem = 2 ^ sh then 1 else 2
    let lost := rem != 0
    (if roundsUp rm neg kept half lost then kept + 1 else kept, lost)

/-- Keep an exponent where every outcome is already decided, so that no shift is larger than the formats need: a value far above
the range stays above it, one far below stays below it. -/
def tame (m : Nat) (e : Int) : Nat × Int :=
  let top := e + bitLen m
  if 1200 < top then (1, 1200) else if top < -1200 then (1, -1200) else (m, e)

/-- Round an exact non-zero value into a format (R24 for IEEE formats, R25 for FP8), without .ftz. Tininess after rounding (R26). ovf: the .ovf form of R25. -/
def roundFin (f : Fmt) (rm : Nat) (ovf : Bool) (neg : Bool) (m0 : Nat) (e0 : Int) : Nat × Conds :=
  let (m, e) := tame m0 e0
  let top : Int := e + bitLen m - 1
  let emin : Int := 1 - f.bias
  let q : Int := (if top < emin then emin else top) - f.fbits
  let (r, lost) := roundAt rm neg m e q
  let (ru, _) := roundAt rm neg m e (top - f.fbits)
  let tiny := decide ((bitLen ru : Int) + (top - f.fbits) - 1 < emin)
  let bits := (q - f.qmin).toNat * 2 ^ f.fbits + r
  let s := f.signBit neg
  if f.maxBits < bits then
    if f.fp8 then
      if ovf then
        if f.e4 then (f.nanBits, cOVF ||| cINV) else (s + f.infBits, cOVF ||| cINX)
      else (s + f.maxBits, cOVF ||| cINX)
    else
      let toInf := match rm with
        | 0 => true
        | 1 => false
        | 2 => neg
        | _ => !neg
      (s + (if toInf then f.infBits else f.maxBits), cOVF ||| cINX)
  else (s + bits, if lost then (if tiny then cUNF ||| cINX else cINX) else 0)

/-- The result under .ftz (R23): a subnormal result becomes a zero of its sign, with underflow and inexact. -/
def flushOut (f : Fmt) (ftz : Bool) (r : Nat × Conds) : Nat × Conds :=
  if ftz && isSubnormal f r.1 then (r.1 / 2 ^ (f.width - 1) * 2 ^ (f.width - 1), r.2 ||| cUNF ||| cINX) else r

/-- A datum written in a format. Infinity into FP8 is the saturation of R25. -/
def encodeF (f : Fmt) (rm : Nat) (ovf ftz : Bool) : Fv → Nat × Conds
  | .nan sig => (f.nanBits, if sig then cINV else 0)
  | .inf neg =>
    if f.fp8 then
      if ovf then
        if f.e4 then (f.nanBits, cOVF ||| cINV) else (f.signBit neg + f.infBits, cOVF)
      else (f.signBit neg + f.maxBits, cOVF ||| cINX)
    else (f.signBit neg + f.infBits, 0)
  | .fin neg m e =>
    if m = 0 then (f.signBit neg, 0) else flushOut f ftz (roundFin f rm ovf neg m e)

/-- The signed integer at a common exponent. -/
def scaled (neg : Bool) (m : Nat) (e q : Int) : Int :=
  let v : Int := (m * 2 ^ (e - q).toNat : Nat)
  if neg then -v else v

/-- Exact sum of two finite values as a signed integer and exponent. -/
def exactSum (na : Bool) (ma : Nat) (ea : Int) (nb : Bool) (mb : Nat) (eb : Int) : Int × Int :=
  let q := if ea < eb then ea else eb
  (scaled na ma ea q + scaled nb mb eb q, q)

/-- Sum of two data (R150), exact, with the conditions of the operation. A zero sum has the sign of IEEE 754. -/
def addF (rm : Nat) : Fv → Fv → Fv × Conds
  | .nan a, .nan b => (.nan false, if a || b then cINV else 0)
  | .nan a, _ => (.nan false, if a then cINV else 0)
  | _, .nan b => (.nan false, if b then cINV else 0)
  | .inf a, .inf b => if a = b then (.inf a, 0) else (.nan false, cINV)
  | .inf a, .fin .. => (.inf a, 0)
  | .fin .., .inf b => (.inf b, 0)
  | .fin na ma ea, .fin nb mb eb =>
    let (v, q) := exactSum na ma ea nb mb eb
    if v = 0 then
      let neg := if ma = 0 && mb = 0 && na = nb then na else rm == 2
      (.fin neg 0 0, 0)
    else (.fin (decide (v < 0)) v.natAbs q, 0)

/-- The datum with its sign inverted. -/
def negF : Fv → Fv
  | .nan s => .nan s
  | .inf n => .inf (!n)
  | .fin n m e => .fin (!n) m e

/-- Product of two data (R150), exact. -/
def mulF : Fv → Fv → Fv × Conds
  | .nan a, .nan b => (.nan false, if a || b then cINV else 0)
  | .nan a, _ => (.nan false, if a then cINV else 0)
  | _, .nan b => (.nan false, if b then cINV else 0)
  | .inf a, .inf b => (.inf (a != b), 0)
  | .inf a, .fin nb mb _ => if mb = 0 then (.nan false, cINV) else (.inf (a != nb), 0)
  | .fin na ma _, .inf b => if ma = 0 then (.nan false, cINV) else (.inf (na != b), 0)
  | .fin na ma ea, .fin nb mb eb => (.fin (na != nb) (ma * mb) (ea + eb), 0)

/-- Whether a datum is a signalling NaN. -/
def isSig : Fv → Bool
  | .nan s => s
  | _ => false

/-- Whether a datum is NaN. -/
def isNan : Fv → Bool
  | .nan _ => true
  | _ => false

/-- Whether a datum is finite. -/
def isFin : Fv → Bool
  | .fin .. => true
  | _ => false

/-- Whether a datum is negative (its sign). -/
def isNeg : Fv → Bool
  | .nan _ => false
  | .inf n => n
  | .fin n _ _ => n

/-- Compare two data that are not NaN: less, equal, greater. The zeros compare equal. -/
def cmpF : Fv → Fv → Ordering
  | .inf a, .inf b => if a = b then .eq else if a then .lt else .gt
  | .inf a, _ => if a then .lt else .gt
  | _, .inf b => if b then .gt else .lt
  | .fin na ma ea, .fin nb mb eb =>
    let (v, _) := exactSum na ma ea (!nb) mb eb
    if v < 0 then .lt else if v = 0 then .eq else .gt
  | _, _ => .eq

/-- Add a list of data exactly (R35, R156): the conditions of the additions; a zero result takes the sign rule of addF. (DEDUCED, log entry 19) -/
def sumF (rm : Nat) : List Fv → Fv × Conds
  | [] => (.fin false 0 0, 0)
  | [x] => (x, 0)
  | x :: xs =>
    let (t, c) := sumF rm xs
    let (r, d) := addF rm x t
    (r, c ||| d)

/-- Infinities of both signs among data to be added. -/
def bothInf (l : List Fv) : Bool := l.contains (.inf false) && l.contains (.inf true)

/-- The exact sum of the three terms of FDOT2 (R156): infinities of both signs among them are invalid, whatever the third is. -/
def dotSum (rm : Nat) (l : List Fv) : Fv × Conds :=
  let r := sumF rm l
  (r.1, if bothInf l then r.2 ||| cINV else r.2)

/-- RNE32 of a datum as bits. -/
def rne32 (v : Fv) : Nat := (encodeF f32 0 false false v).1

/-- f32 addition by RNE32, conditions given (R36, R187). -/
def add32 (a b : Nat) : Nat × Conds :=
  let (r, c) := addF 0 (decodeF f32 a) (decodeF f32 b)
  let (x, d) := encodeF f32 0 false false r
  (x, c ||| d)

/-- The smaller or larger datum of R151 as a choice of the first operand; −0 is smaller than +0. -/
def lessF (a b : Fv) : Bool :=
  match cmpF a b with
  | .lt => true
  | .gt => false
  | .eq => isNeg a && !isNeg b

/-- FMIN or FMAX on patterns (R151). -/
def minMaxF (f : Fmt) (isMax num : Bool) (a b : Nat) : Nat × Conds :=
  let x := decodeF f a
  let y := decodeF f b
  let c := if isSig x || isSig y then cINV else 0
  if isNan x && isNan y then (f.nanBits, c)
  else if isNan x then (if num then b else f.nanBits, c)
  else if isNan y then (if num then a else f.nanBits, c)
  else
    let aLess := lessF x y
    let r := if isMax then (if aLess then b else a) else (if lessF y x then b else a)
    (r, 0)

/-- Round a finite value to an integer by mode: its signed value and whether it differs. -/
def toIntF (rm : Nat) (neg : Bool) (m : Nat) (e : Int) : Int × Bool :=
  if m = 0 then (0, false) else
  let (m, e) := tame m e
  let (k, lost) := roundAt rm neg m e 0
  (if neg then -(k : Int) else k, lost)

/-- Float to integer of width w (R27). (DEDUCED, log entry 21) -/
def floatToInt (rm w : Nat) (signed : Bool) (v : Fv) : Int × Conds :=
  let lo : Int := if signed then -(2 ^ (w - 1)) else 0
  let hi : Int := if signed then 2 ^ (w - 1) - 1 else 2 ^ w - 1
  match v with
  | .nan _ => (0, cINV)
  | .inf neg => (if neg then lo else hi, cINV)
  | .fin neg m e =>
    let (k, lost) := toIntF rm neg m e
    if k < lo then (lo, cINV) else if hi < k then (hi, cINV) else (k, if lost then cINX else 0)

/-- An integer as a datum. -/
def ofInt (k : Int) : Fv := .fin (decide (k < 0)) k.natAbs 0

/-- f32 bits of the exact product with a power of two. -/
def scaleF (v : Fv) (n : Int) : Fv :=
  match v with
  | .fin s m e => .fin s m (e + n)
  | x => x

/-- Whether a pattern is a positive, finite, normal f32 (R40, R160). -/
def normal32 (x : Nat) : Bool :=
  let ex := x / 2 ^ 23 % 256
  !x.testBit 31 && ex != 0 && ex != 255

/-- Error-feedback rounding (R29): y and the new residue, as f32 bits, with the conditions. f is f16, bf16, e4m3 or e5m2. -/
def errFeedback (f : Fmt) (ovf : Bool) (x e : Nat) : Nat × Nat × Conds :=
  let (sv, c0) := addF 0 (decodeF f32 x) (decodeF f32 e)
  let s := rne32 sv
  match decodeF f32 s with
  | .nan _ => (f.nanBits, 0, c0)
  | .inf neg =>
    if ovf && f.fp8 then
      if f.e4 then (f.nanBits, 0, cOVF ||| cINV) else (f.signBit neg + f.infBits, 0, cOVF)
    else (f.signBit neg + f.maxBits, 0, cOVF ||| cINX)
  | .fin neg m ex =>
    let (y0, c1) := encodeF f 0 (ovf && f.fp8) false (.fin neg m ex)
    let big := (c1 &&& cOVF) != 0
    let y := if big && !(ovf && f.fp8) then f.signBit neg + f.maxBits else y0
    let c := if big && ovf && f.fp8 then c1 else if big then cOVF ||| cINX else c1 &&& (cINX ||| cUNF)
    match decodeF f y with
    | .fin n2 m2 e2 => (y, rne32 (addF 0 (.fin neg m ex) (.fin (!n2) m2 e2)).1, c &&& ~~~cUNF)
    | _ => (y, 0, c)

end Sys2Proof.Machine
end

