-- ==== Sys2Proof/Machine/Phys.lean ====
section
/-! DEFINITION. Physical memory: home slices, sequence tags, poison (R343 to R354), die caches (R98 to R102), replication (R355 to R358), the host agent (R359). -/

namespace Sys2Proof.Machine

/-- The home slice of a physical address (R343). -/
def sliceOf (pa : Nat) : Nat :=
  let f := fun sh => pa / 2 ^ sh % 128
  (f 7) ^^^ (f 14) ^^^ (f 21) ^^^ (f 28) ^^^ (f 35) ^^^ (pa / 2 ^ 42 % 64)

/-- The HBM stack that holds a physical address (R85). -/
def stackOf (pa : Nat) : Nat := pa / 0xC00000000

/-- The Vale die that holds a physical address of HBM (R7, R85). -/
def dieOfPa (pa : Nat) : Nat := stackOf pa / 2

/-- Whether a Vale die is live (R15). -/
def State.dieLive (s : State) (d : Nat) : Bool := d < 8 && s.live.getLsbD d

/-- Whether a physical address is in HBM of a live die (R85, R9). -/
def State.inHbm (s : State) (pa : Nat) : Bool := pa < 16 * 0xC00000000 && s.dieLive (dieOfPa pa)

/-- Whether a physical address is in the host window (R85). -/
def inHostWin (pa : Nat) : Bool := 0x400000000000 ≤ pa && pa < 0x800000000000

/-- The sequence tag of a line (R347). -/
def State.tag (s : State) (ln : Nat) : W32 := mget s.tags ln 0

/-- Advance the tag of a line by n writes (R347). -/
def State.bumpTag (s : State) (ln n : Nat) : State :=
  { s with tags := mset s.tags ln (s.tag ln + BitVec.ofNat 32 n) 0 }

/-- Whether a line is on the poison list, by itself or with its page (R352). -/
def State.poisoned (s : State) (ln : Nat) : Bool := s.poisonLines.contains ln || s.poisonPages.contains (ln / 512)

/-- The bytes of a line as a number, from memory. -/
def lineOf (m : Memory) (ln : Nat) : BitVec 1024 := BitVec.ofNat 1024 (memNat m (ln * 128) 128)

/-- Byte i of a line. -/
def lineByte (d : BitVec 1024) (i : Nat) : Byte := d.extractLsb' (8 * i) 8

/-- n bytes of a line from an offset, as a number. -/
def lineNat (d : BitVec 1024) (o n : Nat) : Nat := d.toNat / 2 ^ (8 * o) % 2 ^ (8 * n)

/-- The byte mask of n bytes from an offset. -/
def byteMask (o n : Nat) : BitVec 128 := BitVec.ofNat 128 ((2 ^ n - 1) * 2 ^ o)

/-- Data placed at an offset of a line. -/
def lineData (o n v : Nat) : BitVec 1024 := BitVec.ofNat 1024 (v % 2 ^ (8 * n) * 2 ^ (8 * o))

/-- Every bit of a byte mask repeated over its byte. -/
def spreadMask (m : BitVec 128) : BitVec 1024 :=
  BitVec.ofNat 1024 ((List.range 128).foldl (fun a i => if m.getLsbD i then a + 0xFF * 2 ^ (8 * i) else a) 0)

/-- The bytes of new under a mask, of old elsewhere. -/
def mergeLine (old new : BitVec 1024) (m : BitVec 128) : BitVec 1024 :=
  let k := spreadMask m
  (old &&& ~~~k) ||| (new &&& k)

/-- Write the masked bytes of a line to memory. -/
def putLine (mem : Memory) (ln : Nat) (m : BitVec 128) (d : BitVec 1024) : Memory :=
  (List.range 128).foldl (fun mm i => if m.getLsbD i then memPut mm (ln * 128 + i) (lineByte d i) else mm) mem

/-- A read at the home slice of a line (R344, R353): its bytes, or zeros and the poison mark. -/
def State.sliceRead (s : State) (ln : Nat) : BitVec 1024 × Bool :=
  if s.poisoned ln then (0, true) else (lineOf s.hbm ln, false)

/-- A write at the home slice of a line (R346, R347, R354). -/
def State.sliceWrite (s : State) (ln : Nat) (m : BitVec 128) (d : BitVec 1024) : State :=
  let s := { s with hbm := putLine s.hbm ln m d }
  let s := s.bumpTag ln 1
  if m = BitVec.allOnes 128 then { s with poisonLines := s.poisonLines.filter (· != ln) } else s

/-- n bytes at a physical address of HBM, within one line, as a home slice returns them. -/
def State.sliceNat (s : State) (pa n : Nat) : Nat × Bool :=
  let (d, p) := s.sliceRead (pa / 128)
  (lineNat d (pa % 128) n, p)

/-- The key of a die-cache line. -/
def dcKey (die ln : Nat) : Nat := die * 2 ^ 41 + ln

/-- A die-cache line. -/
def State.dcLine (s : State) (die ln : Nat) : Option DcLine := mget? s.dc (dcKey die ln)

/-- Put a line into a die cache. -/
def State.dcPut (s : State) (die ln : Nat) (l : DcLine) : State := { s with dc := mput s.dc (dcKey die ln) l }

/-- The sharer mask of a replicated line (R355). -/
def State.sharerMask (s : State) (ln : Nat) : Byte := mget s.sharers ln 0

/-- Drop a line from a die cache. -/
def State.dcDrop (s : State) (die ln : Nat) : State := { s with dc := mdel s.dc (dcKey die ln) }

/-- Enter a line into the poison list (R352): the page list when the line entries are full, a package-fatal error when both are. -/
def State.poisonLine (s : State) (ln : Nat) : State :=
  if s.poisoned ln then s
  else if s.poisonLines.length < 8192 then { s with poisonLines := s.poisonLines ++ [ln] }
  else if s.poisonPages.length < 512 then { s with poisonPages := s.poisonPages ++ [ln / 512] }
  else { s with fatal := true }

/-- Write back the dirty bytes of a die-cache line (R98); data marked uncorrectable enters the line into the poison list (R352). -/
def State.dcClean (s : State) (die ln : Nat) : State :=
  match s.dcLine die ln with
  | none => s
  | some l =>
    if l.dirty = 0 then s
    else
      let s := (s.sliceWrite ln l.dirty l.data).dcPut die ln { l with dirty := 0 }
      if l.bad then s.poisonLine ln else s

/-- Write a line back if it is dirty, then invalidate it (R102, R115, R198). -/
def State.dcFlush (s : State) (die ln : Nat) : State := (s.dcClean die ln).dcDrop die ln

/-- Cache policies (R84): 0 write-back, 1 write-through, 2 replicated, 3 uncached. Accesses through segment P are write-back, whatever the leaf says (R81; DEDUCED, log entry 58): 4. -/
def polWB : Nat := 0
def polWT : Nat := 1
def polREPL : Nat := 2
def polNC : Nat := 3
def polP : Nat := 4

/-- The place of a die's copies of replicated lines beside its copies through leaves of another policy: each alias of a page follows its own policy (R104, R358; DEDUCED, log entry 59). -/
def repDie (die : Nat) : Nat := 8 + die

/-- Where a die holds its copy of a line of a policy. (DEDUCED, log entry 59) -/
def copyDie (die pol : Nat) : Nat := if pol = polREPL then repDie die else die

/-- Drop a die's copy of a replicated line (R355): the sequencer clears the die's bit, and a pending update is no longer for that copy. -/
def State.repDrop (s : State) (die ln : Nat) : State :=
  let off := ~~~(1#8 <<< die)
  let s := s.dcDrop (repDie die) ln
  { s with
    sharers := mset s.sharers ln (s.sharerMask ln &&& off) 0
    updates := s.updates.map fun u => if u.line = ln then { u with sharers := u.sharers &&& off } else u }


/-- Whether a read of a replicated line on a die waits: for a commit there, or, by the agent that stored to it, for its acknowledgement (R101, R356). -/
def State.replBusy (s : State) (die ln : Nat) (who : Option Nat := none) : Bool :=
  s.updates.any fun u => u.line == ln && (u.sharers.getLsbD die || (who.isSome && u.who == who))

/-- Write back and invalidate a die's copy of a line of a policy (R115, R198, R358); a replicated copy is never dirty, and it is not dropped before a pending update to it is committed (R370): none while that is awaited. -/
def State.flushLine (s : State) (die ln pol : Nat) : Option State :=
  if pol = polREPL then (if s.replBusy die ln then none else some (s.repDrop die ln)) else some (s.dcFlush die ln)

/-- A line is fetched from its home slice, for a replicated one at the sequencer, which adds the die to its sharers (R98, R353, R355). -/
def State.lineFill (s : State) (die ctx ln pol : Nat) : State :=
  let (d, p) := s.sliceRead ln
  let s := s.dcPut (copyDie die pol) ln { ctx := ctx, data := d, poisoned := p }
  if pol = polREPL then { s with sharers := mset s.sharers ln (s.sharerMask ln ||| (1#8 <<< die)) 0 } else s

/-- An access of a context to a line of which the die holds a copy under another context's number is a miss (R98): the dirty bytes are written back, and the line is fetched again under the context's number. -/
def State.dcOwn (s : State) (die ctx ln : Nat) : State :=
  let s := match s.dcLine die ln with
    | some l => if l.ctx = ctx then s else (s.dcFlush die ln).lineFill die ctx ln polWB
    | none => s
  match s.dcLine (repDie die) ln with
  | some l => if l.ctx = ctx then s else (s.repDrop die ln).lineFill die ctx ln polREPL
  | none => s

/-- The die's copy of a line for an access of a context under a policy (R98, R104): the one that it holds, otherwise a fetched one. (DESIGN CHOICE, log entry 18) -/
def State.dcFill (s : State) (die ctx ln pol : Nat) : State :=
  let s := s.dcOwn die ctx ln
  match s.dcLine (copyDie die pol) ln with
  | some _ => s
  | none => s.lineFill die ctx ln pol

/-- The host address behind a physical address of the host window (R85; DESIGN CHOICE, log entry 7). -/
def hostAddr (pa : Nat) : Nat := pa - 0x400000000000

/-- Whether CXL.cache and CXL.mem are up (R361, R371): the host link is up, at 32 GT/s or more. -/
def State.cacheUp (s : State) : Bool := s.linkUp && !s.linkSlow

/-- Bytes of host memory as the host agent sees them (R359): its dirty lines, then host memory; by host address. -/
def State.hostByte (s : State) (pa : Nat) : Byte := (mget? s.hostLines pa).getD (memByte s.hostMem pa)

/-- n bytes of host memory as a number. -/
def State.hostNat (s : State) (pa n : Nat) : Nat := leValue ((List.range n).map fun i => s.hostByte (pa + i))

/-- A store to host memory: dirty in the host agent (R359, R361); who: the strand, whose releases at .sys wait until it is globally observed (R101). -/
def State.hostStore (s : State) (pa : Nat) (bs : List Byte) (who : Option Nat := none) : State :=
  { s with
    hostLines := (bs.zip (List.range bs.length)).foldl (fun m p => mput m (pa + p.2) p.1) s.hostLines
    hostOwed := s.hostOwed ++ (who.toList.filter fun w => !s.hostOwed.contains w) }

/-- The host agent makes its dirty lines globally observed (R101, R359, R361): nothing while the link is down. -/
def State.hostFlush (s : State) : State :=
  if s.cacheUp then
    { s with hostMem := s.hostLines.foldl (fun m p => memPut m p.1 p.2) s.hostMem, hostLines := [], hostOwed := [] }
  else s

/-- A read of n bytes within one line through a die cache (R84, R98, R353): the state after, the value, the poison mark; none while
the line waits for a commit (R356). host: the access goes to the host agent; who: the strand that reads. -/
def State.memRead (s : State) (die ctx pa n pol : Nat) (host : Bool) (who : Option Nat := none) : Option (State × Nat × Bool) :=
  let ln := pa / 128
  if host then some (s, s.hostNat (hostAddr pa) n, false)
  else if pol = polNC then
    let (v, p) := s.sliceNat pa n
    some (s, v, p)
  else if pol = polREPL && s.replBusy die ln who then none
  else
    let s := s.dcFill die ctx ln pol
    match s.dcLine (copyDie die pol) ln with
    | some l => some (s, if l.poisoned then 0 else lineNat l.data (pa % 128) n, l.poisoned)
    | none => some (s, 0, false)

/-- Apply an update of a replicated line to every die cache that holds it (R356). -/
def State.applyUpdate (s : State) (ln : Nat) (m : BitVec 128) (d : BitVec 1024) (sh : Byte) : State :=
  (List.range 8).foldl (fun s die =>
    if sh.getLsbD die then
      match s.dcLine (repDie die) ln with
      | some l => s.dcPut (repDie die) ln { l with data := mergeLine l.data d m, poisoned := l.poisoned && m != BitVec.allOnes 128 }
      | none => s
    else s) s

/-- The update of a replicated line is sent to its sharers and held pending until the commit (R356). -/
def State.sendUpdate (s : State) (ln : Nat) (m : BitVec 128) (d : BitVec 1024) (who : Option Nat) : State :=
  { s with updates := s.updates ++ [{ line := ln, mask := m, data := d, sharers := s.sharerMask ln, who := who }] }

/-- A store to a replicated line is ordered at the sequencer and written through to the home slice (R356): none while 256 updates are in flight. -/
def State.replStore (s : State) (ln : Nat) (m : BitVec 128) (d : BitVec 1024) (who : Option Nat := none) : Option State :=
  if 256 ≤ s.updates.length then none else some ((s.sendUpdate ln m d who).sliceWrite ln m d)

/-- Whether the sequencer has still to acknowledge a store of an agent (R95, R356). -/
def State.ackDue (s : State) (who : Nat) : Bool := s.updates.any fun u => u.who == some who

/-- A write of n bytes within one line through a die cache (R84, R98): a write-through store goes to the die cache, which fetches the line if it holds none, and to the home slice (DEDUCED, log entry 60). through: a release store at .pkg or .sys on a write-back line (R95, R100); who: the strand that stores. None while it waits. -/
def State.memWrite (s : State) (die ctx pa n v pol : Nat) (host through : Bool) (who : Option Nat := none) : Option State :=
  let ln := pa / 128
  let o := pa % 128
  let m := byteMask o n
  let d := lineData o n v
  if host then some (s.hostStore (hostAddr pa) (leBytes n v) who)
  else if pol = polNC then some (s.sliceWrite ln m d)
  else if pol = polREPL then (s.dcOwn die ctx ln).replStore ln m d who
  else
    let s := s.dcFill die ctx ln pol
    match s.dcLine die ln with
    | none => some s
    | some l =>
      if pol = polWT then some ((s.dcPut die ln { l with data := mergeLine l.data d m }).sliceWrite ln m d)
      else
        let dirty := l.dirty ||| m
        let s := s.dcPut die ln { l with
          data := mergeLine l.data d m, dirty := dirty, poisoned := l.poisoned && dirty != BitVec.allOnes 128 }
        some (if through then s.dcClean die ln else s)

/-- A strand has touched a line through segment P (R81). -/
def State.markPriv (s : State) (die ln who : Nat) : State :=
  match s.dcLine die ln with
  | some l => s.dcPut die ln { l with priv := some who }
  | none => s

/-- The lines of a die cache that carry a context's number. -/
def State.dcLinesOf (s : State) (die ctx : Nat) : List (Nat × DcLine) :=
  (s.dc.filter fun p => p.1 / 2 ^ 41 == die && p.2.ctx == ctx).map fun p => (p.1 % 2 ^ 41, p.2)

/-- Release at .pkg (R100): write back every line that the context has dirtied in the die cache. -/
def State.releasePkg (s : State) (die ctx : Nat) : State :=
  (s.dcLinesOf die ctx).foldl (fun s p => s.dcClean die p.1) s

/-- Acquire at .pkg (R100): invalidate the context's clean write-back and write-through lines, a line with dirty and clean bytes after its write-back; replicated copies stay. -/
def State.acquirePkg (s : State) (die ctx : Nat) : State :=
  (s.dcLinesOf die ctx).foldl (fun s p => if p.2.dirty = BitVec.allOnes 128 then s else s.dcFlush die p.1) s

/-- The actions of a release at a scope (R99 to R101; scope codes of R52). -/
def State.releaseAt (s : State) (die ctx scope : Nat) : State :=
  if scope < 4 then s
  else if scope = 4 then s.releasePkg die ctx
  else (s.releasePkg die ctx).hostFlush

/-- The actions of an acquire at a scope (R99 to R101). -/
def State.acquireAt (s : State) (die ctx scope : Nat) : State :=
  if scope < 4 then s else s.acquirePkg die ctx

/-- Before an acquire load at .pkg or .sys reads a write-back or write-through line, the die gives up its copy, so that the read is made at the home slice (R100). -/
def State.acquireLine (s : State) (die pa pol scope : Nat) : State :=
  if scope < 4 || pol = polNC || pol = polREPL then s else s.dcFlush die (pa / 128)

/-- One atomic operation on w bytes (R114, R197, R349): op codes 0 ADD, 1 AND, 2 OR, 3 XOR, 4 MIN, 5 MAX, 6 MINN, 7 MAXN, 8 SWAP, 9 CAS, 10 FADD. -/
def atomicOp (op w : Nat) (old b cmp : Nat) : Nat :=
  let mask := 2 ^ (8 * w)
  let so := sval (8 * w) old
  let sb := sval (8 * w) b
  let b := b % mask
  match op with
  | 0 => (old + b) % mask
  | 1 => old &&& b
  | 2 => old ||| b
  | 3 => old ^^^ b
  | 4 => if so ≤ sb then old else b
  | 5 => if so < sb then b else old
  | 6 => if old ≤ b then old else b
  | 7 => if old < b then b else old
  | 8 => b
  | 9 => if old = cmp % mask then b else old
  | _ => old

/-- The atomic operations of one request on a line (R197, R349), in the order given: the new data, the old values. fadd: RNE32 addition. -/
def atomicLine (fadd : Nat → Nat → Nat) (op w : Nat) (d : BitVec 1024) : List SliceOp → BitVec 1024 × List W64
  | [] => (d, [])
  | o :: os =>
    let old := lineNat d o.off w
    let new := if op = 10 then fadd old o.val.toNat else atomicOp op w old o.val.toNat o.cmp.toNat
    let (d', vs) := atomicLine fadd op w (mergeLine d (lineData o.off w new) (byteMask o.off w)) os
    (d', BitVec.ofNat 64 old :: vs)

/-- The bytes that the operations of a request write. -/
def atomicMask (w : Nat) (ops : List SliceOp) : BitVec 128 :=
  ops.foldl (fun m o => m ||| byteMask o.off w) 0

/-- A request of atomic operations on one line at its home slice, or at the sequencer for a replicated line (R102, R349, R353, R357): the state,
the old values, the poison mark. The tag advances by the number of operations (R347). At the sequencer the result is sent to the sharers and committed as a store is (R356). -/
def State.sliceAtomic (s : State) (fadd : Nat → Nat → Nat) (ln op w : Nat) (repl : Bool) (ops : List SliceOp) (who : Option Nat := none) : State × List W64 × Bool :=
  if s.poisoned ln then (s, ops.map fun _ => 0, true)
  else
    let (d, vs) := atomicLine fadd op w (lineOf s.hbm ln) ops
    let m := atomicMask w ops
    let s := { s with hbm := putLine s.hbm ln m d }
    let s := s.bumpTag ln ops.length
    (if repl then s.sendUpdate ln m d who else s, vs, false)

/-- A read of bytes at home slices, across lines (engines, R102): the bytes and whether a line was poisoned. -/
def State.sliceBytes (s : State) (pa n : Nat) : List Byte × Bool :=
  let ps := (List.range n).map (pa + ·)
  (ps.map fun a => if s.poisoned (a / 128) then 0 else memByte s.hbm a, ps.any fun a => s.poisoned (a / 128))

/-- A write of bytes at home slices, one write a line (engines, R346). -/
def State.slicePutBytes (s : State) (pa : Nat) (bs : List Byte) : State :=
  let first := pa / 128
  let last := (pa + bs.length - 1) / 128
  if bs = [] then s
  else (List.range (last - first + 1)).foldl (fun s k =>
    let ln := first + k
    let idx := (List.range 128).filter fun i => pa ≤ ln * 128 + i && ln * 128 + i < pa + bs.length
    let m := BitVec.ofNat 128 (idx.foldl (fun a i => a + 2 ^ i) 0)
    let d := BitVec.ofNat 1024 (idx.foldl (fun a i => a + (bs.getD (ln * 128 + i - pa) 0).toNat * 2 ^ (8 * i)) 0)
    s.sliceWrite ln m d) s

/-- Bytes that the launch unit reads, in HBM or in host memory (R202, R372). -/
def State.anyBytes (s : State) (pa n : Nat) : List Byte :=
  if inHostWin pa then (List.range n).map fun i => s.hostByte (hostAddr pa + i) else (s.sliceBytes pa n).1

/-- Bytes that the launch unit writes; in host memory they are globally observed (R209, R372). -/
def State.anyPutBytes (s : State) (pa : Nat) (bs : List Byte) : State :=
  if inHostWin pa then (s.hostStore (hostAddr pa) bs).hostFlush else s.slicePutBytes pa bs

end Sys2Proof.Machine
end

