-- ==== Sys2Proof/Machine/Xlat.lean ====
section
/-! DEFINITION. Translation (R82 to R89) and access tables (R380 to R382). -/

namespace Sys2Proof.Machine

/-- What an access needs of a leaf (R83). -/
structure Need where
  r : Bool := false
  w : Bool := false
  x : Bool := false
  deriving DecidableEq, Repr

/-- Why an access is not translated: CAUSE and LEVEL of the fault record (R87), or a host-window leaf met by an engine (R85, R359). -/
inductive XErr where
  | fault (cause level : Nat)
  | hostLeaf
  deriving DecidableEq, Repr

/-- The way by which an access comes to its leaf (R85): segment G, P, C, KS or KL; segment H; a stream engine, the copy path or the collective engine; any other agent, to which no rule forbids a leaf. -/
inductive Via where
  | mem
  | host
  | engine
  | any
  deriving DecidableEq, Repr

/-- Policy of a leaf from its NC, WB and REPL bits (R84). -/
def leafPolicy (e : W64) : Option Nat :=
  match e.getLsbD 4, e.getLsbD 5, e.getLsbD 6 with
  | false, true, false => some polWB
  | false, false, false => some polWT
  | true, false, false => some polNC
  | false, false, true => some polREPL
  | _, _, _ => none

/-- Physical address that an entry holds (R83). -/
def entryPa (e : W64) : Nat := (e.extractLsb' 16 32).toNat * 65536

/-- Whether an entry is malformed at a level (R83), target ranges included (R85). (DEDUCED, log entry 25) -/
def State.malformed (s : State) (e : W64) (level : Nat) : Bool :=
  let leaf := e.getLsbD 1
  let pa := entryPa e
  e.extractLsb' 48 8 != 0 || e.extractLsb' 10 6 != 0 || e.extractLsb' 2 2 != 0
  || (leaf && 2 ≤ level) || (!leaf && level == 0)
  || (!leaf && e.extractLsb' 4 6 != 0)
  || (leaf && level == 1 && e.extractLsb' 16 13 != 0)
  || (leaf && (leafPolicy e).isNone)
  || (leaf && !s.inHbm pa && !inHostWin pa)
  || (!leaf && !s.inHbm pa)

/-- The index of a virtual address at a level (R82). -/
def vaIndex (va level : Nat) : Nat :=
  match level with
  | 3 => va / 2 ^ 55 % 512
  | 2 => va / 2 ^ 42 % 8192
  | 1 => va / 2 ^ 29 % 8192
  | _ => va / 2 ^ 16 % 8192

/-- Walk from a table down (R82): levels counted by fuel, the entry of level n read from the table at pa. -/
def State.walkFrom (s : State) (va : Nat) : Nat → Nat → Except XErr (W64 × Nat)
  | pa, level =>
    let e := BitVec.ofNat 64 (s.sliceNat (pa + 8 * vaIndex va level) 8).1
    if !e.getLsbD 0 then .error (.fault 0 level)
    else if s.malformed e level then .error (.fault 2 level)
    else if e.getLsbD 1 then .ok (e, level)
    else match level with
      | 0 => .error (.fault 2 0)
      | n + 1 => s.walkFrom va (entryPa e) n

/-- The translation that a leaf gives for the 64 KiB page of an address. -/
def tlbOf (e : W64) (level va : Nat) : TlbEntry :=
  { ppage := entryPa e / 65536 + (if level = 1 then va / 65536 % 8192 else 0)
    r := e.getLsbD 7, w := e.getLsbD 8, x := e.getLsbD 9
    policy := (leafPolicy e).getD polNC, level := level }

/-- Walk the tables of a context (R82). -/
def State.walk (s : State) (ctx va : Nat) : Except XErr TlbEntry :=
  match mget? s.ctxs ctx with
  | none => .error (.fault 0 3)
  | some c =>
    match s.walkFrom va c.troot 3 with
    | .ok (e, level) => .ok (tlbOf e level va)
    | .error x => .error x

/-- The key of a translation: unit 0 to 7 the Vale dies, 8 the Basin walker. -/
def tlbKey (unitNo ctx va : Nat) : Nat := (unitNo * 1024 + ctx) * 2 ^ 48 + va / 65536

/-- Install a translation (R86), setting the TOUCHED bit of the die that holds the page (R16). -/
def State.install (s : State) (unitNo ctx va : Nat) (e : TlbEntry) : State :=
  let s := { s with tlb := mput s.tlb (tlbKey unitNo ctx va) e }
  let pa := e.ppage * 65536
  if inHostWin pa then s
  else { s with ctxs := mmod s.ctxs ctx fun c => { c with touched := c.touched ||| (1#8 <<< dieOfPa pa) } }

/-- Whether a translation gives the rights that an access needs, and suits the way it comes (R83, R85). -/
def TlbEntry.check (e : TlbEntry) (need : Need) (via : Via) : Except XErr Unit :=
  let hw := inHostWin (e.ppage * 65536)
  match via, hw with
  | .engine, true => .error .hostLeaf
  | .mem, true => .error (.fault 2 e.level)
  | .host, false => .error (.fault 2 e.level)
  | _, _ =>
    if (need.r && !e.r) || (need.w && !e.w) || (need.x && !e.x) then .error (.fault 1 e.level) else .ok ()

/-- A translated address: the state with the translation installed, the physical address, the policy. -/
structure Xl where
  s : State
  pa : Nat
  pol : Nat

/-- Translate an address of a context at a translation unit (R86, R87): a held translation that grants the access, otherwise a walk. (DESIGN CHOICE, log entry 57) -/
def State.xlate (s : State) (unitNo ctx va : Nat) (need : Need) (via : Via) : Except XErr Xl :=
  let walked : Unit → Except XErr Xl := fun _ =>
    match s.walk ctx va with
    | .error x => .error x
    | .ok e =>
      match e.check need via with
      | .error x => .error x
      | .ok () => .ok { s := s.install unitNo ctx va e, pa := e.ppage * 65536 + va % 65536, pol := e.policy }
  match mget? s.tlb (tlbKey unitNo ctx va) with
  | some e =>
    match e.check need via with
    | .ok () => .ok { s := s, pa := e.ppage * 65536 + va % 65536, pol := e.policy }
    | .error _ => walked ()
  | none => walked ()

/-- Target kinds of the access tables (R380, R379): 0 HBM region, 1 host window, 2 namespace, 3 fabric port, 4 management space. -/
def accKey (kind unitNo master : Nat) : Nat := kind * 2 ^ 32 + unitNo * 2 ^ 12 + master

/-- An access entry: bit 0 R, bit 1 W (R380). -/
def State.accEntry (s : State) (kind unitNo master : Nat) : BitVec 2 := mget s.acc (accKey kind unitNo master) 0

/-- Whether the tables let a master make an access to a physical address (R380). (DESIGN CHOICE, log entry 57) -/
def State.allowed (s : State) (master pa : Nat) (need : Need) : Bool :=
  let e := if inHostWin pa then s.accEntry 1 0 master else s.accEntry 0 (pa / 2 ^ 29) master
  (!(need.r || need.x) || e.getLsbD 0) && (!need.w || e.getLsbD 1)

/-- Enter a denial into the log (R381): a ring of 256 records and a counter. -/
def State.deny (s : State) (target unitNo master kind addr : Nat) : State :=
  let l := s.denials ++ [{ target := target, unitNo := unitNo, master := master, kind := kind, addr := addr }]
  { s with denials := l.drop (l.length - 256), denialCount := s.denialCount + 1 }

/-- Enter the denial of an access to a physical address. -/
def State.denyPa (s : State) (master pa kind : Nat) : State :=
  if inHostWin pa then s.deny 1 0 master kind pa else s.deny 0 (pa / 2 ^ 29) master kind pa

end Sys2Proof.Machine
end

