-- ==== Sys2Proof/Machine/OStore.lean ====
section
/-! DEFINITION. The operand store: lines and their lifetime classes, words, poison, exchange areas (R240 to R261). -/

namespace Sys2Proof.Machine

/-- The Vale die of a core (R7). -/
def dieOf (core : Nat) : Nat := core / 8

/-- Ticks of a die's retention ticker (R6). -/
def State.ticks (s : State) (die : Nat) : Nat := mget s.tick die 0

/-- The tick that a write of a line of a core's store is noted at: that of the die's ticker; in a saved image, where ages stand still (R249), 0. -/
def State.osNow (s : State) (core : Nat) : Int := if core < 64 then s.ticks (dieOf core) else 0

/-- Cycles of a core (R6). -/
def State.cycles (s : State) (core : Nat) : Nat := mget s.cycle core 0

/-- The lifetime of a class in ticks (R246). -/
def lifetime (cls : Nat) : Nat :=
  match (cls - 1) % 4 with
  | 0 => 6400
  | 1 => 25600
  | 2 => 100000
  | _ => 400000

/-- The first offset and the size of a team's space in its core's store: its segment and its two exchange areas. -/
def Team.holds (t : Team) (core off : Nat) : Bool :=
  t.core == core && ((t.obase ≤ off && off < t.obase + t.tseg) || (t.xbase ≤ off && off < t.xbase + 2 * t.blk.window))

/-- Whether a team has space in an operand store now, or in its saved image (R231, R317). -/
def Team.resident (t : Team) : Bool :=
  match t.st with
  | .placed => true
  | .running => true
  | .saved _ => true
  | _ => false

/-- Whether a team stands on its core, with its space there. -/
def Team.placed (t : Team) : Bool := t.resident && decide (t.core < 64)

/-- The team whose space holds an offset of a core's store. -/
def State.ownerOf (s : State) (core off : Nat) : Option (Nat × Team) :=
  s.teams.find? fun p => p.2.resident && p.2.holds core off

/-- Which set of 2^26 offsets of a core's store a place lies in. Software sees an offset within its set: where a team comes to a core on which another one holds the same offsets, it keeps its own, in a set of its own. (DESIGN CHOICE, log entry 12) -/
def osTag (place : Nat) : Nat := place / 2 ^ 26 * 2 ^ 26

/-- Key of a byte of a store, and of a line. -/
def osKey (core off : Nat) : Nat := core * 2 ^ 48 + off
def oslKey (core line : Nat) : Nat := core * 2 ^ 40 + line

/-- The state of a line (R245): one that nothing has touched since its team's placement is allocated, KEEP, as old as the team. -/
def State.osLine (s : State) (core line : Nat) : OsLine :=
  match mget? s.osLines (oslKey core line) with
  | some l => l
  | none =>
    match s.ownerOf core (line * 256) with
    | some (_, t) => { written := t.born }
    | none => {}

/-- Write a line's state. -/
def State.setOsLine (s : State) (core line : Nat) (l : OsLine) : State :=
  { s with osLines := mput s.osLines (oslKey core line) l }

/-- Age of a line in ticks (R246); in a saved image, the age at which it was saved (R249). -/
def State.osAge (s : State) (core : Nat) (l : OsLine) : Nat :=
  Nat.min 0xFFFFF (if core < 64 then (s.ticks (dieOf core) : Int) - l.written else l.written).toNat

/-- Whether a line has expired (R247): marked so, or its age has reached its lifetime. -/
def State.osExpired (s : State) (core : Nat) (l : OsLine) : Bool :=
  !l.free && l.cls != 0 && (l.expired || decide (lifetime l.cls ≤ s.osAge core l))

/-- A byte as stored. (DESIGN CHOICE, log entry 5) -/
def State.osRaw (s : State) (core off : Nat) : Byte := mget s.os (osKey core off) 0

/-- Write one byte as stored. -/
def State.osPutRaw (s : State) (core off : Nat) (b : Byte) : State :=
  { s with os := mset s.os (osKey core off) b 0 }

/-- Zero the bytes of a line. -/
def State.osZero (s : State) (core line : Nat) : State :=
  { s with os := s.os.filter fun p => !(p.1 / 256 == (osKey core (line * 256)) / 256) }

/-- A line's expiry takes place (R247): every byte becomes 0, Expired becomes 1. -/
def State.osExpire (s : State) (core line : Nat) : State :=
  (s.osZero core line).setOsLine core line { s.osLine core line with expired := true }

/-- The column of an offset (R240). -/
def colOf (off : Nat) : Nat := off / 4 % 64

/-- What a read of up to 4 bytes of one word, or of 8 bytes of two, returns (R247, R252, R261): the value, the condition it raises, whether a word was poisoned. -/
def State.osRead (s : State) (core off n : Nat) : Nat × Conds × Bool :=
  let l := s.osLine core (off / 256)
  if l.free then (0, 0, false)
  else if s.osExpired core l then
    (0, if l.cls ≤ 4 then cEXPL else cEXPT, (List.range n).any fun i => l.poison.getLsbD (colOf (off + i)))
  else
    let byte := fun i => if l.poison.getLsbD (colOf (off + i)) then 0 else s.osRaw core (off + i)
    (leValue ((List.range n).map byte), 0, (List.range n).any fun i => l.poison.getLsbD (colOf (off + i)))

/-- Whether a word that bytes of a store lie in is poisoned (R261). -/
def State.osPois (s : State) (core off n : Nat) : Bool :=
  (List.range n).any fun i => (s.osLine core ((off + i) / 256)).poison.getLsbD (colOf (off + i))

/-- A write of bytes within one line (R246, R252, R261): an expired line is zero before it, its age becomes 0, words wholly written lose their poison; a FREE line takes nothing. -/
def State.osWrite (s : State) (core off : Nat) (bs : List Byte) : State :=
  let line := off / 256
  let l := s.osLine core line
  if l.free then s
  else
    let s := if s.osExpired core l then s.osZero core line else s
    let whole := fun c => off ≤ line * 256 + 4 * c && line * 256 + 4 * c + 4 ≤ off + bs.length
    let pois := l.poison &&& ~~~(maskOf whole)
    let s := s.setOsLine core line { l with written := s.osNow core, expired := false, poison := pois }
    (bs.zip (List.range bs.length)).foldl (fun s p => s.osPutRaw core (off + p.2) p.1) s

/-- A write of bytes that may cover several lines. -/
def State.osWriteAll (s : State) (core off : Nat) (bs : List Byte) : State :=
  let n := bs.length
  if n = 0 then s
  else
    let first := off / 256
    let last := (off + n - 1) / 256
    (List.range (last - first + 1)).foldl (fun s k =>
      let lo := if k = 0 then off else (first + k) * 256
      let hi := Nat.min (off + n) ((first + k + 1) * 256)
      s.osWrite core lo ((bs.drop (lo - off)).take (hi - lo))) s

/-- n bytes have been written at a, after those from lo on: the words that lie wholly between lose their poison (R261). -/
def State.osRewritten (s : State) (core lo a n : Nat) : State :=
  (List.range ((a + n + 3) / 4 - a / 4)).foldl (fun s k =>
    let w := (a / 4 + k) * 4
    let l := s.osLine core (w / 256)
    if lo ≤ w && w + 4 ≤ a + n && l.poison.getLsbD (colOf w) then
      s.setOsLine core (w / 256) { l with poison := l.poison &&& ~~~(1#64 <<< colOf w) }
    else s) s

/-- Bytes of a store that an engine reads, over several lines: values, conditions, poison. -/
def State.osReadAll (s : State) (core off n : Nat) : List Byte × Conds × Bool :=
  (List.range n).foldl (fun acc i =>
    let (v, c, p) := s.osRead core (off + i) 1
    (acc.1 ++ [BitVec.ofNat 8 v], acc.2.1 ||| c, acc.2.2 || p)) ([], 0, false)

/-- Whether some line of a byte range is FREE (R252). -/
def State.osAnyFree (s : State) (core off n : Nat) : Bool :=
  (List.range ((off + n - 1) / 256 - off / 256 + 1)).any fun k => (s.osLine core (off / 256 + k)).free

/-- Whether an arrival barrier stands at an offset that is a multiple of 32 (R303). -/
def State.hasBarrier (s : State) (core off : Nat) : Bool := (s.osLine core (off / 256)).barr.getLsbD (off % 256 / 32)

/-- Whether a byte range meets the bytes of an arrival barrier (R309). -/
def State.osMeetsBarrier (s : State) (core off n : Nat) : Bool :=
  (List.range ((off + n - 1) / 32 - off / 32 + 1)).any fun k => s.hasBarrier core ((off / 32 + k) * 32)

/-- The offset in the store of byte x of an exchange area (R257): visible or shadow. (DEDUCED, log entry 55) -/
def Team.xOff (t : Team) (shadow : Bool) (x : Nat) : Nat :=
  t.xbase + (if t.sel != shadow then t.blk.window else 0) + x

/-- The partner team at a position of a cluster set (R196, R207), when it stands on a core. -/
def State.partner (s : State) (t : Team) (n : Nat) : Option (Nat × Team) :=
  if n < t.tpcs then
    s.teams.find? fun p => p.2.launch == t.launch && p.2.id == t.id / t.tpcs * t.tpcs + n && p.2.placed
  else none

/-- Free a range of lines of a core and scrub it (R260). -/
def State.osScrub (s : State) (core off n : Nat) : State :=
  { s with
    os := s.os.filter fun p => !(osKey core off ≤ p.1 && p.1 < osKey core (off + n))
    osLines := s.osLines.filter fun p => !(oslKey core (off / 256) ≤ p.1 && p.1 < oslKey core ((off + n) / 256)) }

end Sys2Proof.Machine
end

