-- ==== Sys2Proof/Machine/Service.lean ====
section
/-! DEFINITION. What the host hears and says: signals (R374), the service queue (R375), doorbells (R203). -/

namespace Sys2Proof.Machine

/-- Signal a vector of MSI-X (R374): held pending while it is masked or the link is down. (PRESUMED, log entry 23) -/
def State.signal (s : State) (v : Nat) : State :=
  if s.linkUp && s.msixOpen.contains v then { s with msixSent := s.msixSent ++ [v] }
  else if s.msixPending.contains v then s
  else { s with msixPending := s.msixPending ++ [v] }

/-- Whether the host may read (w = false) or write the management space (R380). -/
def State.hostMay (s : State) (w : Bool) : Bool := (s.accEntry 4 0 0x400).getLsbD (if w then 1 else 0)

/-- A write of the host to the management space over CXL.io (R371, R373, R381): nothing arrives while the link is down; it needs W; a denied one completes with Completer Abort and is logged. -/
def State.hostWrite (s : State) (off : Nat) (f : State → State) : State :=
  if !s.linkUp then s
  else if s.hostMay true then { f s with cio := some [] }
  else { s.deny 4 0 0x400 1 off with cio := none }

/-- The 64 bytes of a service-queue entry (R375). PH is 1 on the first pass (DEDUCED, log entry 9). -/
def svcBytes (log : Nat) (e : SvcEntry) : List Byte :=
  leBytes 1 e.ty ++ leBytes 1 ((e.seq / 2 ^ log + 1) % 2) ++ leBytes 6 e.arg.toNat ++ leBytes 8 e.seq
  ++ (List.range 6).flatMap fun i => leBytes 8 (e.body.getD i 0).toNat

/-- Write the entries whose slot is free, in order (R375): a slot is reused only when the entry that held it has been answered. None is written while CXL.cache is down (R371), or before the host has enabled the ring by its registers (DESIGN CHOICE, log entry 8). -/
def State.svcFlush (s : State) : State :=
  let size := 2 ^ s.svcLog
  let ready := s.svc.filter fun e => !e.posted && s.svc.all fun o => !(o.seq < e.seq && o.seq % size == e.seq % size)
  let m := ready.foldl (fun m e =>
    memPutAll m (s.svcBase.toNat + 64 * (e.seq % size)) (svcBytes s.svcLog e)) s.hostMem
  let s' := { s with
    hostMem := m
    svc := s.svc.map fun (e : SvcEntry) => if ready.any (fun r => r.seq == e.seq) then { e with posted := true } else e }
  if ready = [] || !s.cacheUp || !s.svcOn then s else s'.signal 0

/-- Post an entry to the host service queue (R375); the release at .sys makes the host agent's lines observed. -/
def State.postService (s : State) (e : SvcEntry) : State :=
  let s := s.hostFlush
  { s with svc := s.svc ++ [{ e with seq := s.svcNext }], svcNext := s.svcNext + 1 }.svcFlush

/-- The 32-byte fault record (R87) as four words. -/
def FaultRec.words (f : FaultRec) : List W64 :=
  [f.park.va,
   BitVec.ofNat 64 (f.park.ctx + f.park.agent * 2 ^ 16 + f.park.kind * 2 ^ 24 + f.park.cause * 2 ^ 32
     + f.park.level * 2 ^ 40 + f.unitNo * 2 ^ 48),
   BitVec.ofNat 64 (f.who + f.seq * 2 ^ 32), 0]

/-- Accept a doorbell (R203): discarded while EN = 0; a value out of the ring sets ERR; a value equal to TAIL has no effect. -/
def State.doorbell (s : State) (q : Nat) (v : W32) : State :=
  match mget? s.queues q with
  | none => s
  | some d =>
    if !d.en then s
    else if (v - d.head).toNat ≤ 2 ^ d.ringlog then { s with queues := mput s.queues q { d with tail := v } }
    else { s with queues := mput s.queues q { d with err := true } }

end Sys2Proof.Machine
end

