-- ==== Sys2Proof/Machine/Team.lean ====
section
/-! DEFINITION. Strands and teams as the scheduler sees them: lookup, launch accounts, barrier phases (R222 to R224), clean-up of a team (R238), P lines (R81), the flag copies of operations under way (R47, R130). -/

namespace Sys2Proof.Machine

/-- A strand by its key core × 4096 + STRANDID. -/
def State.strand (s : State) (sid : Nat) : Strand := (mget? s.strands sid).getD {}

/-- Whether a strand is resident: one out of its core stands under a core number of 64 and more (R231). -/
def State.isRes (s : State) (sid : Nat) : Bool := decide (sid < 64 * 4096) && (mget? s.strands sid).isSome

/-- Write a strand. -/
def State.setStrand (s : State) (sid : Nat) (st : Strand) : State := { s with strands := mput s.strands sid st }

/-- Change a strand, when it is resident. -/
def State.modStrand (s : State) (sid : Nat) (f : Strand → Strand) : State :=
  match mget? s.strands sid with
  | some st => s.setStrand sid (f st)
  | none => s

/-- A team by its key. -/
def State.team (s : State) (t : Nat) : Team := (mget? s.teams t).getD {}

/-- Change a team. -/
def State.modTeam (s : State) (t : Nat) (f : Team → Team) : State := { s with teams := mmod s.teams t f }

/-- A launch by its key. -/
def State.launch (s : State) (l : Nat) : Launch := (mget? s.launches l).getD {}

/-- Change a launch. -/
def State.modLaunch (s : State) (l : Nat) (f : Launch → Launch) : State := { s with launches := mmod s.launches l f }

/-- The core of a strand key. -/
def coreOf (sid : Nat) : Nat := sid / 4096

/-- The team of a strand. -/
def State.teamOf (s : State) (sid : Nat) : Team := s.team (s.strand sid).team

/-- The context of a strand. -/
def State.ctxOf (s : State) (sid : Nat) : Nat := (s.teamOf sid).ctx

/-- Whether a context is pre-empted (R234). -/
def State.ctxHalted (s : State) (ctx : Nat) : Bool := ((mget? s.ctxs ctx).map (·.preempted)).getD false

/-- Add a report for Ultik or the host. -/
def State.report (s : State) (kind : Nat) (v0 v1 v2 : W64) : State :=
  { s with reports := s.reports ++ [{ kind := kind, v0 := v0, v1 := v1, v2 := v2 }] }

/-- Add a held cause to a strand (R135). (DEDUCED, log entry 33) -/
def State.holdCause (s : State) (sid : Nat) (h : Held) : State :=
  s.modStrand sid fun st => { st with held := st.held ++ [h] }

/-! ### Flags -/

/-- The live count of a flag (R47). -/
def Strand.flag (st : Strand) (f : Nat) : Nat := mget st.flags f 0

/-- Whether every live flag is clear. -/
def Strand.flagsClear (st : Strand) : Bool := st.flags.all fun p => p.2 == 0

/-- Whether every saved flag is clear. -/
def Strand.savedClear (st : Strand) : Bool := st.savedFlags.all fun p => p.2 == 0

/-- One completion: the live or the saved count falls by one (R47, R130). -/
def Strand.decFlag (st : Strand) (f : Nat) (saved : Bool) : Strand :=
  if 11 < f then st
  else if saved then { st with savedFlags := mset st.savedFlags f (mget st.savedFlags f 0 - 1) 0 }
  else { st with flags := mset st.flags f (mget st.flags f 0 - 1) 0 }

/-- One completion for a strand. -/
def State.decFlag (s : State) (sid f : Nat) (saved : Bool) : State := s.modStrand sid fun st => st.decFlag f saved

/-- Which copy of the flags the strand's operations under way count against (R130, R133). -/
def State.markSaved (s : State) (sid : Nat) (b : Bool) : State :=
  let s := s.modStrand sid fun st => { st with longs := st.longs.map fun l => { l with saved := b } }
  { s with
    mxq := s.mxq.map fun p => (p.1, p.2.map fun c => if c.sid = sid then { c with saved := b } else c)
    scopies := s.scopies.map fun p => (p.1, p.2.map fun c => if c.sid = sid then { c with saved := b } else c)
    progs := s.progs.map fun p => if p.2.kicker = sid then (p.1, { p.2 with saved := b }) else p
    colls := s.colls.map fun c => if c.sid = sid then { c with saved := b } else c
    quiets := s.quiets.map fun q => if q.sid = sid then { q with saved := b } else q }

/-! ### Barriers -/

/-- Levels of hardware barriers (R222): 0 team, 1 cluster set, 2 field. The group that shares a barrier. -/
def Team.barGroup (t : Team) (key lvl : Nat) : Nat :=
  match lvl with
  | 0 => key
  | 1 => t.launch * 2 ^ 33 + t.id / t.tpcs
  | _ => t.launch

/-- The key of a barrier. -/
def barKey (lvl n group : Nat) : Nat := group * 64 + lvl * 16 + n

/-- The key of a team's barrier. -/
def Team.barKeyOf (t : Team) (key lvl n : Nat) : Nat := barKey lvl n (t.barGroup key lvl)

/-- The role mask of a barrier (R212, R206). -/
def State.barMask (s : State) (t : Team) (lvl n : Nat) : Byte :=
  match lvl with
  | 0 => t.blk.tbar.getD n 0
  | 1 => t.blk.cbar.getD n 0
  | _ => (s.launch t.launch).recBytes.getD (2 + n) 0

/-- A barrier's state (R223). -/
def State.barAt (s : State) (k : Nat) : Bar := (mget? s.bars k).getD {}

/-- The number of a strand as a barrier member. -/
def memberId (teamKey k : Nat) : Nat := teamKey * 256 + k
def Strand.member (st : Strand) : Nat := memberId st.team st.k

/-- The strands of a team, resident or out of their core. -/
def State.teamStrands (s : State) (key : Nat) (t : Team) : List Strand :=
  (t.sids.map s.strand).filter (fun st => st.team == key)

/-- Whether a team still runs. -/
def Team.alive (t : Team) : Bool :=
  match t.st with
  | .exited => false
  | .ended _ => false
  | _ => true

/-- The live members of a barrier: strands of its roles in its teams (R222, R223). -/
def State.barMembers (s : State) (lvl n group : Nat) : List Nat :=
  (s.teams.filter fun p => p.2.alive && p.2.barGroup p.1 lvl == group).flatMap fun p =>
    ((s.teamStrands p.1 p.2).filter fun st => (s.barMask p.2 lvl n).getLsbD st.role).map fun st => memberId p.1 st.k

/-- Whether every live member has arrived in the current phase (R223). -/
def State.barFull (s : State) (lvl n group : Nat) : Bool :=
  let b := s.barAt (barKey lvl n group)
  let ms := s.barMembers lvl n group
  b.arrived != [] && ms.all fun m => b.arrived.contains m

/-- A phase completes: the next phase begins, and for a cluster set every member core flips its select bit (R223, R258). (DEDUCED, log entry 55) -/
def State.barComplete (s : State) (lvl n group : Nat) : State :=
  let k := barKey lvl n group
  let b := s.barAt k
  let s := { s with bars := mput s.bars k { b with phase := b.phase + 1, arrived := [] } }
  if lvl = 1 then
    { s with teams := s.teams.map fun p => if p.2.barGroup p.1 1 = group then (p.1, { p.2 with sel := !p.2.sel }) else p }
  else s

/-- Complete a barrier's phase if it is full. -/
def State.barCheck (s : State) (lvl n group : Nat) : State :=
  if s.barFull lvl n group then s.barComplete lvl n group else s

/-- After members have left: every barrier that a team shares is looked at again (R223). -/
def State.barLeave (s : State) (key : Nat) (t : Team) : State :=
  let s := (List.range 16).foldl (fun s n => s.barCheck 0 n key) s
  let s := (List.range 4).foldl (fun s n => s.barCheck 1 n (t.barGroup key 1)) s
  (List.range 2).foldl (fun s n => s.barCheck 2 n (t.barGroup key 2)) s

/-! ### P lines -/

/-- The physical page behind a virtual address of a context at a translation unit: the translation held, otherwise that of a walk (R86). -/
def State.pageOf (s : State) (unitNo ctx va : Nat) : Option Nat :=
  match mget? s.tlb (tlbKey unitNo ctx va) with
  | some e => some e.ppage
  | none => match s.walk ctx va with
    | .ok e => some e.ppage
    | .error _ => none

/-- The physical ranges, first byte and one past the last, of a strand's P range page by page (R80, R82). -/
def State.pRanges (s : State) (die ctx : Nat) (p : Seg) : List (Nat × Nat) :=
  let lo := p.base.toNat
  let hi := lo + p.len.toNat * 64
  (List.range ((hi + 65535) / 65536 - lo / 65536)).filterMap fun i =>
    let page := lo / 65536 + i
    (s.pageOf die ctx (page * 65536 % 2 ^ 64)).map fun q =>
      (q * 65536 + (Nat.max lo (page * 65536) - page * 65536), q * 65536 + (Nat.min hi (page * 65536 + 65536) - page * 65536))

/-- The lines of a die cache that hold a strand's P range are invalidated without write-back (R81): those of the pages to which the range translates, and those that the strand (who) has touched through P. -/
def State.dropP (s : State) (die ctx who : Nat) (p : Seg) : State :=
  let rs := s.pRanges die ctx p
  { s with dc := s.dc.filter fun l =>
      let pa := l.1 % 2 ^ 41 * 128
      !(l.1 / 2 ^ 41 == die && l.2.ctx == ctx && (l.2.priv == some who || rs.any fun r => decide (r.1 < pa + 128) && decide (pa < r.2))) }

/-! ### The end of a team -/

/-- Give back the resources that a strand holds outside itself: tiles and claims, matrix commands, copy-path copies, waits (R238, R287). -/
def State.dropStrandWork (s : State) (sid : Nat) : State :=
  { s with
    tiles := s.tiles.map fun p => if p.2.owner = some sid then (p.1, {}) else p
    tileVal := s.tileVal.filter fun p =>
      !((mget? s.tiles (p.1 / (128 * 192))).any fun t => t.owner == some sid)
    claimQ := s.claimQ.map fun p => (p.1, p.2.filter (· != sid))
    tileBack := s.tileBack.filter fun b => b.sid != sid
    mxq := s.mxq.map fun p => (p.1, p.2.filter fun c => c.sid != sid)
    scopies := s.scopies.map fun p => (p.1, p.2.filter fun c => c.sid != sid)
    skickQ := s.skickQ.map fun p => (p.1, p.2.filter (· != sid))
    quiets := s.quiets.filter fun q => q.sid != sid
    quietMet := s.quietMet.filter fun q => q.1 != sid
    progs := s.progs.map fun p => if p.2.kicker = sid then (p.1, { p.2 with flag := 15, trapf := false }) else p
    colls := s.colls.map fun c => if c.sid = sid then { c with flag := 15 } else c }

/-- Free the space of a team and scrub it (R238, R260). -/
def State.freeSpace (s : State) (t : Team) : State :=
  (s.osScrub t.core t.obase t.tseg).osScrub t.core t.xbase (2 * t.blk.window)

/-- Free the granules that hold a team's image (R233). -/
def State.freeGranules (s : State) (ctx key : Nat) : State :=
  { s with ctxs := mmod s.ctxs ctx fun c => { c with granules := c.granules.filter fun p => p.2 != key } }

/-- The barriers of a team are discarded (R224). -/
def State.dropBars (s : State) (key : Nat) : State :=
  { s with bars := s.bars.filter fun p => !(p.1 / 64 == key && p.1 % 64 / 16 == 0) }

/-- The stall of a strand in WLQUIET is given up (R130, R137, R228): the instruction counts as not issued, and what the detector has reported to it is void. -/
def State.dropStall (s : State) (sid : Nat) : State :=
  { s with
    quiets := s.quiets.filter fun q => !(q.sid == sid && q.flag == 15)
    quietMet := s.quietMet.filter fun q => q.1 != sid }

/-- A strand stops (R128, R137, R234): the instruction in which it waits counts as not issued, and gives up its place in every queue. -/
def State.stopStrand (s : State) (sid : Nat) (h : Halt) : State :=
  let s := s.dropStall sid
  { s.modStrand sid fun st => { st with halt := h, waitAt := none, claim := none, skick := none, parkSince := none } with
    mxq := s.mxq.map fun p => (p.1, p.2.map fun c => if c.sid = sid then { c with sels := [] } else c)
    claimQ := s.claimQ.map fun p => (p.1, p.2.filter (· != sid))
    skickQ := s.skickQ.map fun p => (p.1, p.2.filter (· != sid)) }

/-- A strand leaves its core: its work is given back, its P lines are dropped (R81, R127, R238). -/
def State.removeStrand (s : State) (sid : Nat) : State :=
  let st := s.strand sid
  let ctx := s.ctxOf sid
  let s := (s.dropStrandWork sid).dropP (dieOf (coreOf sid)) ctx st.member st.segs.p
  let s := { s with strands := mdel s.strands sid, faults := s.faults }
  s.modTeam st.team fun t => { t with sids := t.sids.filter (· != sid) }

/-- A team ends by kill with a status for its launch (R208, R209, R238): no release is performed. -/
def State.killTeam (s : State) (key status : Nat) : State :=
  match mget? s.teams key with
  | none => s
  | some t =>
    if !t.alive then s else
    let s := t.sids.foldl (fun s sid => s.removeStrand sid) s
    let s := { s with colls := s.colls.map fun (c : Coll) => if c.team = key then { c with lost := true } else c }
    let s := if t.resident then s.freeSpace t else s
    let s := (s.freeGranules t.ctx key).dropBars key
    let s := s.modTeam key fun t => { t with st := .ended status, sids := [] }
    let s := s.modLaunch t.launch fun l =>
      { l with
        status := Nat.max l.status status
        first := if status = 9 then some (Nat.min (l.first.getD t.id) t.id) else l.first
        firstLoss := if status = 10 then some (Nat.min (l.firstLoss.getD t.id) t.id) else l.firstLoss
        endedTeams := l.endedTeams + 1 }
    s.barLeave key t

/-- The last strand of a team has exited: the release of R103, clean-up, the launch's account (R209, R238). -/
def State.retireTeam (s : State) (key : Nat) : State :=
  match mget? s.teams key with
  | none => s
  | some t =>
    let s := s.releaseAt (dieOf t.core) t.ctx 5
    let s := (s.freeSpace t).dropBars key
    let s := s.modTeam key fun t => { t with st := .exited }
    let s := s.modLaunch t.launch fun l => { l with exited := l.exited + 1 }
    s.barLeave key t

end Sys2Proof.Machine
end

