-- ==== Sys2Proof/Machine/Ops.lean ====
section
/-! DEFINITION. The shared operations of a strand: how an instruction ends, registers, queue ports, flags, accesses of the scalar stream, taking a trap and returning from one (R45 to R47, R76 to R88, R105 to R137). -/

namespace Sys2Proof.Machine

/-- Why an instruction does not complete: a trap with the denied accesses to log (physical address, kind), an access parked on a translation fault (R87), or a wait (R60, R109), with the stall where it is one that only the strand's other stream ends. -/
inductive Stop where
  | trap (t : Trap) (denied : List (Nat × Nat))
  | park (p : Park)
  | wait (stall : Option Stall)
  deriving DecidableEq, Repr

/-- A computation on the package that may stop; a stop leaves the state before it. -/
abbrev M := StateT State (Except Stop)

/-- The outcome type of every meaning. -/
abbrev Out := Host.Outcome State Fault Refusal

/-- Wait: no effect (R109, R137). -/
def waitM {α : Type} : M α := throw (.wait none)

/-- A wait that the other stream ends (R60): port 0 to 7 of the queues, 8 the dispatch queue, 9 the lane blocks; need: how many entries the instruction takes. -/
def waitQ {α : Type} (port : Nat) (need : Nat := 1) : M α := throw (.wait (some { port := port, need := need }))

/-- A trap before any effect, with its FADDR (R131). -/
def trapM {α : Type} (code : Byte) (faddr : W64 := 0) : M α := throw (.trap { code := code, faddr := faddr } [])

/-- Illegal-instruction trap (R63). -/
def illegal {α : Type} : M α := trapM 0x01

/-- Illegal-operand trap (R63). -/
def badOperand {α : Type} : M α := trapM 0x05

/-- Wait unless a condition holds. -/
def waitUnless (b : Bool) : M Unit := if b then pure () else waitM

/-- The acting strand. -/
def me : M Strand := do return (← get).strand (← get).cur

/-- Change the acting strand. -/
def modMe (f : Strand → Strand) : M Unit := modify fun s => s.setStrand s.cur (f (s.strand s.cur))

/-- The acting strand's team, context, core and die. -/
def myTeam : M Team := do return (← get).teamOf (← get).cur
def myCtx : M Nat := do return (← get).ctxOf (← get).cur
def myCore : M Nat := do return coreOf (← get).cur
def myDie : M Nat := do return dieOf (coreOf (← get).cur)

/-! ### Scalar registers and queue ports (R45, R108) -/

/-- Read a scalar register that is no port: a0 reads 0. -/
def Strand.reg (st : Strand) (r : Nat) : W64 := if r = 0 then 0 else mget st.a r 0

/-- Write a scalar register that is no port: a write of a0 is discarded. -/
def Strand.setReg (st : Strand) (r : Nat) (v : W64) : Strand := if r = 0 then st else { st with a := mset st.a r v 0 }

/-- Whether a register waits for the result of an earlier instruction (R108). -/
def Strand.regBusy (st : Strand) (r : Nat) : Bool := r != 0 && st.replies.any fun p => p.dst == r

/-- The entries of a queue port q0 to q7. -/
def Strand.queue (st : Strand) (i : Nat) : List W64 := mget st.q i []

/-- Write a queue port's entries. -/
def Strand.setQueue (st : Strand) (i : Nat) (l : List W64) : Strand := { st with q := mset st.q i l [] }

/-- Whether a register number is a port q0 to q3, which the scalar stream pushes, or q4 to q7, which it pops. -/
def isPush (r : Nat) : Bool := 48 ≤ r && r < 52
def isPop (r : Nat) : Bool := 52 ≤ r && r < 56

/-- The n registers of a group from a number up (R273). -/
def groupRegs (g : BitVec 6) (n : Nat) : List (BitVec 6) := (List.range n).map fun i => g + BitVec.ofNat 6 i

/-- How many entries of queue port i an instruction takes: one for each naming (R45). -/
def popsOf (srcs : List (BitVec 6)) (i : Nat) : Nat := (srcs.filter fun r => r.toNat == 48 + i).length

/-- What the ports and registers of an instruction mean for its issue, in the order of R63 and R109: a port in the wrong direction traps before every other check of operands (R45); the interlock on a register that an earlier instruction has still to write (R108); a port with fewer entries than the instruction takes, or without room (R60). (DEDUCED, log entry 34) -/
def portsOk (srcs dsts : List (BitVec 6)) : M Unit := do
  if (srcs.any fun r => isPush r.toNat) || (dsts.any fun r => isPop r.toNat) then trapM 0x04
  let st ← me
  if (srcs ++ dsts).any fun r => st.regBusy r.toNat then waitM
  match (List.range 4).find? fun i => decide ((st.queue (4 + i)).length < popsOf srcs (4 + i)) with
  | some i => waitQ (4 + i) (popsOf srcs (4 + i))
  | none => pure ()
  match dsts.find? fun r => isPush r.toNat && decide (8 ≤ (st.queue (r.toNat - 48)).length) with
  | some r => waitQ (r.toNat - 48)
  | none => pure ()

/-- Read a source register: interlock, pop of q4 to q7 (R45, R108). (DEDUCED, log entry 26) -/
def readSrc (r : BitVec 6) : M W64 := do
  let n := r.toNat
  let st ← me
  if isPop n then
    match st.queue (n - 48) with
    | [] => waitQ (n - 48)
    | x :: xs => modMe fun st => st.setQueue (n - 48) xs
                 pure x
  else if isPush n then trapM 0x04
  else if st.regBusy n then waitM
  else pure (st.reg n)

/-- The answer of a computation whose effects are put back: operands as they stand, for an instruction that may have to wait. -/
def peekM {α : Type} (m : M α) : M α := do
  let s ← get
  let x ← m
  set s
  return x

/-- Two source registers, in order. (DEDUCED, log entry 26) -/
def readSrc2 (a b : BitVec 6) : M (W64 × W64) := do
  let x ← readSrc a
  let y ← readSrc b
  return (x, y)

/-- A destination that can take a value now: interlock, room in q0 to q3 (R45, R108). -/
def dstReady (r : BitVec 6) : M Unit := do
  let n := r.toNat
  let st ← me
  if isPop n then trapM 0x04
  else if st.regBusy n then waitM
  else if isPush n then (if (st.queue (n - 48)).length < 8 then pure () else waitQ (n - 48))

/-- A value arrives in a destination: a register, or an entry of q0 to q3. -/
def Strand.put (st : Strand) (n : Nat) (v : W64) : Strand :=
  if isPush n then st.setQueue (n - 48) (st.queue (n - 48) ++ [v]) else st.setReg n v

/-- Write a destination register (R45, R108). (DESIGN CHOICE, log entry 35) -/
def writeDst (r : BitVec 6) (v : W64) : M Unit := do
  dstReady r
  modMe fun st => st.put r.toNat v

/-! ### How a scalar instruction ends -/

/-- What a scalar instruction leaves to be done: the next PC and the enabled after-completion conditions that it raised; or a trap that it takes once the accesses that show its cause are made (R40, R225, R228). -/
structure SOut where
  pc : W64
  acm : Conds := 0
  trap : Option Trap := none
  deriving DecidableEq, Repr

/-- The PC of the next instruction. -/
def advance : M SOut := do return { pc := (← me).pc + 4 }

/-- The illegal-operand trap of an instruction whose accesses have shown its cause (R40, R225, R228): the accesses stay made, the strand st stands as before it. -/
def badRead (st : Strand) : M SOut := do
  modMe fun _ => st
  return { pc := st.pc, trap := some { code := 0x05 } }

/-- Raise scalar conditions (R107, R110, R113): SFLAGS is set; the answer is the enabled ones. RKF and EXPT always trap. -/
def raiseScalar (c : Conds) : M Conds := do
  let st ← me
  modMe fun st => { st with csr := { st.csr with sflags := st.csr.sflags ||| ((c &&& ~~~(cEXPT ||| cRKF)).setWidth 64) } }
  return c &&& ((st.csr.trapen.setWidth 11) ||| cEXPT ||| cRKF)

/-! ### Landing of lane results -/

/-- Write one lane of one lane register, predicate bit or lstat by its key; a register word's poison is cleared (R261). -/
def Strand.putLane (st : Strand) (key : Nat) (v : W32) : Strand :=
  { st with v := mset st.v key v 0, vpois := if st.vpois = [] then [] else st.vpois.filter (· != key) }

/-- Keys of a strand's lane-side data: lane L of register r, lstat of lane L, bit L of predicate k, a push to port q4 to q7 (i = 4 to 7). -/
def vKey (r L : Nat) : Nat := r * 64 + L
def lstatKey (L : Nat) : Nat := 970 * 64 + L
def kKey (k L : Nat) : Nat := (1024 + k) * 64 + L
def qKey (i : Nat) : Nat := 1100 * 64 + i

/-- One write lands: a value, a condition ORed in (R145), or an entry pushed to a queue port, zero-extended (R46). -/
def Strand.land1 (st : Strand) (w : PendWrite) : Strand :=
  if w.merge then { st with v := mset st.v w.key (mget st.v w.key 0 ||| w.val) 0 }
  else if 1100 * 64 ≤ w.key then
    let i := w.key - 1100 * 64
    st.setQueue i (st.queue i ++ [w.val.setWidth 64])
  else st.putLane w.key w.val

/-- Every write due by a cycle lands, in issue order (R139, R140). -/
def Strand.landTo (st : Strand) (t : Nat) : Strand :=
  let st' := (st.pendW.filter fun w => w.due ≤ t).foldl Strand.land1 st
  { st' with pendW := st.pendW.filter fun w => t < w.due }

/-- Every write under way lands. -/
def Strand.landAll (st : Strand) : Strand :=
  { st.pendW.foldl Strand.land1 st with pendW := [] }

/-! ### Faults of translation (R87) -/

/-- Enter a fault record, unless one for the page and context waits at the same translation unit (R87). counter: the unit whose sequence counts it. -/
def State.enterFault (s : State) (xunit counter unitNo who : Nat) (p : Park) : State :=
  if s.faults.any fun f => f.park.ctx == p.ctx && f.park.page == p.page && f.xunit == xunit then s
  else
    let q := mget s.faultSeq counter 0
    let f : FaultRec := { park := p, unitNo := unitNo, who := who, seq := q, xunit := xunit }
    let s := { s with faults := s.faults ++ [f], faultSeq := mset s.faultSeq counter ((q + 1) % 2 ^ 32) 0 }
    if s.mode.getLsbD 0 then s.postService { ty := 1, body := f.words, sid := q, seq := 0 } else s

/-- Enter a fault record that its translation unit counts (R87). -/
def State.raiseFault (s : State) (xunit unitNo who : Nat) (p : Park) : State := s.enterFault xunit xunit unitNo who p

/-- The parks that an access stands for, one for each page that faulted (R193). -/
def Park.pages (p : Park) : List Park :=
  p :: p.more.map fun m => { p with page := m.1, va := m.2.1, cause := m.2.2.1, level := m.2.2.2, more := [] }

/-- Enter the fault records of a strand's access (R86, R87): an H access (AGENT 5) is translated at the Basin walker, and its die counts the record. -/
def State.raiseStrand (s : State) (sid : Nat) (p : Park) : State :=
  let die := dieOf (coreOf sid)
  p.pages.foldl (fun s q => s.enterFault (if q.agent = 5 then 8 else die) die (coreOf sid) (sid % 4096) q) s

/-! ### Access of the scalar stream (R78, R80, R87, R113) -/

/-- A segment descriptor by its code (R76, R77). -/
def Segs.get (g : Segs) (n : Nat) : Seg :=
  match n with
  | 0 => g.g
  | 1 => g.p
  | 2 => g.c
  | 3 => g.h
  | 4 => g.o
  | 5 => g.x
  | 6 => g.ks
  | _ => g.kl

/-- Write a segment descriptor by its code. -/
def Segs.put (g : Segs) (n : Nat) (d : Seg) : Segs :=
  match n with
  | 0 => { g with g := d }
  | 1 => { g with p := d }
  | 2 => { g with c := d }
  | 3 => { g with h := d }
  | 4 => { g with o := d }
  | 5 => { g with x := d }
  | 6 => { g with ks := d }
  | _ => { g with kl := d }

/-- BASE of a descriptor as software sees it (R77, R112, R124): of O and X, the offset within the store's set of offsets. -/
def Seg.seen (d : Seg) (n : Nat) : W64 := if n = 4 || n = 5 then BitVec.ofNat 64 (d.base.toNat % 2 ^ 26) else d.base

/-- FADDR of a scalar access (R131). -/
def faddrS (d : Seg) (seg o : Nat) : W64 :=
  if seg = 4 || seg = 5 then BitVec.ofNat 64 o
  else if seg ≤ 3 then d.base + BitVec.ofNat 64 o else 0

/-- Rights of an access kind (R83): 0 read, 1 write, 2 atomic, 3 fetch. -/
def needOf (kind : Nat) : Need :=
  match kind with
  | 0 => { r := true }
  | 1 => { w := true }
  | 2 => { r := true, w := true }
  | _ => { x := true }

/-- The park of a translation fault (R87). -/
def parkOf (ctx va agent kind : Nat) (x : XErr) : Park :=
  let (c, l) := match x with
    | .fault c l => (c, l)
    | .hostLeaf => (2, 0)
  { ctx := ctx, page := va / 65536, va := BitVec.ofNat 64 va, agent := agent, kind := kind, cause := c, level := l }

/-- The translation unit and the AGENT of an access of a strand (R86, R87): the Basin walker and the host agent for segment H, otherwise its die's unit. -/
def segUnit (seg die : Nat) : Nat := if seg = 3 then 8 else die
def segAgent (seg agent : Nat) : Nat := if seg = 3 then 5 else agent

/-- The policy of an access (R81, R84): P lines are write-back. (DEDUCED, log entry 58) -/
def segPol (seg pol : Nat) : Nat := if seg = 1 then polP else pol

/-- Translate and check the rights of one access of the acting strand to G, P, C, H, KS or KL; while the link to the host is down an H access is denied before it (R361). -/
def xlateMine (va : Nat) (need : Need) (kind agent seg : Nat) (faddr : W64) : M Place := do
  let s ← get
  let ctx ← myCtx
  if seg = 3 && !s.cacheUp then trapM 0x07 faddr
  match s.xlate (segUnit seg (dieOf (coreOf s.cur))) ctx va need (if seg = 3 then .host else .mem) with
  | .error x => throw (.park (parkOf ctx va (segAgent seg agent) kind x))
  | .ok r =>
    if !r.s.allowed ctx r.pa need then throw (.trap { code := 0x07, faddr := faddr } [(r.pa, kind)])
    else
      set r.s
      return .mem r.pa (segPol seg r.pol) (seg == 3)

/-- Whether a scalar access of n bytes at offset o of a segment keeps the limit, the natural multiple and the segment's direction (R78, R80). -/
def Seg.fits (d : Seg) (seg o n kind : Nat) : Bool :=
  let len := if seg = 1 then d.len.toNat * 64 else d.len.toNat
  !(kind != 0 && seg = 2) && (o < len && o + n ≤ len) && (aligned o n && aligned (d.base.toNat + o) n)

/-- The checks and the place of a scalar access of n bytes at segment offset o (R64, R76, R78, R80, R113, R252, R309): kind 0 read, 1 write, 2 atomic. -/
def scalarPlace (seg o n kind : Nat) : M Place := do
  let s ← get
  let st ← me
  let d := st.segs.get seg
  let fa := faddrS d seg o
  if !d.fits seg o n kind then trapM 0x06 fa
  else if seg = 4 || seg = 5 then
    let t ← myTeam
    let core ← myCore
    let off := if seg = 4 then d.base.toNat + o else t.xOff false o
    if (s.osLine core (off / 256)).free then trapM 0x06 fa
    else if kind != 0 && s.osMeetsBarrier core off n then trapM 0x05 fa
    else return .os core off
  else xlateMine ((d.base.toNat + o) % 2 ^ 64) (needOf kind) kind 0 seg fa

/-- The first trap of a kind that one of several accesses meets, each taken alone: what an instruction of several accesses takes before any of them parks (R64). -/
def trapFirst {α : Type} (sel : Trap → Bool) (l : List (M α)) : M Unit := do
  let s ← get
  let stop := fun (m : M α) => match m s with
    | .error (.trap t d) => if sel t then some (Stop.trap t d) else none
    | _ => none
  match l.findSome? stop with
  | some e => throw e
  | none => pure ()

/-- A poisoned read of the scalar stream (R261, R353). -/
def poisonHeld (p : Bool) (faddr : W64) (m : W64 := 0) : List Held := if p then [{ code := 0x0D, tmask := m, faddr := faddr }] else []

/-- The scalar stream waits for an AMOS acquire before it makes a further access (R351). -/
def acqReady : M Unit := do waitUnless (!(← me).replies.any fun r => r.acq.isSome)

/-- A line that an access has touched through segment P carries its strand (R81). -/
def State.notePriv (s : State) (die pa pol who : Nat) : State := if pol = polP then s.markPriv die (pa / 128) who else s

/-- Where a place of an exchange window lies now (R257, R258): it stays a place of the window when its team has left its core. -/
def State.settle (s : State) (p : Place) : Place :=
  match p with
  | .win t sh x => if (s.team t).placed then .os (s.team t).core ((s.team t).xOff sh x) else p
  | p => p

/-- A strand reads n bytes at a place: none while it waits (R356). An access to the window of a team that has left is made nowhere, and what it reads is a free value (DESIGN CHOICE, log entry 63). -/
def State.readAt (s : State) (sid : Nat) (p : Place) (n : Nat) : Option (State × Nat × Conds × Bool) :=
  match s.settle p with
  | .os core off => some (s, s.osRead core off n)
  | .win _ _ x => some (s, (Config.lostValue (s.stepNo * 2 ^ 26 + x)).toNat % 2 ^ (8 * n), 0, false)
  | .mem pa pol host =>
    let die := dieOf (coreOf sid)
    let who := (s.strand sid).member
    (s.memRead die (s.ctxOf sid) pa n pol host (some who)).map fun r => (r.1.notePriv die pa pol who, r.2.1, 0, r.2.2)

/-- A strand writes n bytes at a place: none while it waits (R356); through: a release store at .pkg or .sys (R95, R100). -/
def State.writeAt (s : State) (sid : Nat) (p : Place) (n v : Nat) (through : Bool) : Option State :=
  match s.settle p with
  | .os core off => some (s.osWrite core off (leBytes n v))
  | .win _ _ _ => some s
  | .mem pa pol host =>
    let die := dieOf (coreOf sid)
    let who := (s.strand sid).member
    (s.memWrite die (s.ctxOf sid) pa n v pol host through (some who)).map fun s => s.notePriv die pa pol who

/-- The acting strand reads n bytes at a place. -/
def readPlace (p : Place) (n : Nat) : M (Nat × Conds × Bool) := do
  let s ← get
  match s.readAt s.cur p n with
  | none => waitM
  | some (s', r) => set s'
                    return r

/-- The acting strand writes n bytes at a place. -/
def writePlace (p : Place) (n v : Nat) (through : Bool) : M Unit := do
  let s ← get
  match s.writeAt s.cur p n v through with
  | none => waitM
  | some s' => set s'

/-- Whether a release of a strand at a scope is complete (R95, R100, R101): its stores to replicated lines are acknowledged; at .sys its H stores are globally observed. -/
def State.released (s : State) (sid scope : Nat) : Bool :=
  let who := (s.strand sid).member
  !s.ackDue who && !(scope == 5 && s.hostOwed.contains who)

/-- Release actions of the acting strand's stream at a scope (R99 to R101), and the wait for their completion. -/
def releaseM (scope : Nat) : M Unit := do
  let ctx ← myCtx
  let die ← myDie
  modify fun s => s.releaseAt die ctx scope
  let s ← get
  waitUnless (s.released s.cur scope)

/-- Acquire actions at a scope. -/
def acquireM (scope : Nat) : M Unit := do
  let ctx ← myCtx
  let die ← myDie
  modify fun s => s.acquireAt die ctx scope

/-- Count a flag (R47): a count of 65,535 waits. -/
def incFlag (f : BitVec 4) : M Unit := do
  let n := f.toNat
  if 11 < n then pure ()
  else if 65535 ≤ (← me).flag n then waitM
  else modMe fun st => { st with flags := mset st.flags n (st.flag n + 1) 0 }

/-- Count a flag for an operation whose completion is visible at .pkg (R93): a stream program, SCOPY, a collective, the flag form of WLQUIET. -/
def incFlagPkg (f : BitVec 4) : M Unit := do
  incFlag f
  if f.toNat ≤ 11 then modMe fun st => { st with pkgFlags := if st.pkgFlags.contains f.toNat then st.pkgFlags else st.pkgFlags ++ [f.toNat] }

/-- Whether a lane block of a strand is in progress or queued, a block of the trap window among them (R118). -/
def Strand.blocksRun (st : Strand) : Bool := st.lane.busy || st.lane.dq != [] || st.win.busy || st.win.dq != []

/-- No lane block in progress or queued, no long lane instruction outstanding (R118). -/
def Strand.laneIdle (st : Strand) : Bool := !st.blocksRun && st.longs == []

/-- A wait of the scalar stream for the lane stream (R109, R118): for the end of blocks, which the other stream may hold up (R60), and for what else it needs. -/
def waitBlocks (c : LaneCtx) (rest : Bool) : M Unit :=
  if c.busy || c.dq != [] then waitQ 9 else waitUnless rest

/-! ### Fetching (R44, R87, R98) -/

/-- What a fetch of bits gives. -/
inductive Fetched (β : Type) where
  | got (w : β) (s : State)
  | trap (code : Byte) (denied : List (Nat × Nat))
  | park (p : Park)
  | wait

/-- A 4-byte word of code at a virtual address (R44): the die's copy of the line, otherwise the home slice; a copy under another context's number is first written back and fetched again (R98); of a replicated line it waits for a commit under way (R356). (DESIGN CHOICE, log entry 57) -/
def State.fetchWord (s : State) (die ctx va agent : Nat) : Fetched W32 :=
  match s.xlate die ctx va { x := true } .mem with
  | .error x => .park (parkOf ctx va agent 3 x)
  | .ok r =>
    if !r.s.allowed ctx r.pa { x := true } then .trap 0x07 [(r.pa, 3)]
    else if r.pol = polREPL && s.replBusy die (r.pa / 128) then .wait
    else
      let s := r.s.dcOwn die ctx (r.pa / 128)
      match s.dcLine (copyDie die r.pol) (r.pa / 128) with
      | some l => .got (BitVec.ofNat 32 (if l.poisoned then (s.sliceNat r.pa 4).1 else lineNat l.data (r.pa % 128) 4)) s
      | none => .got (BitVec.ofNat 32 (s.sliceNat r.pa 4).1) s

/-- The scalar word at a strand's PC (R44). -/
def State.fetchScalar (s : State) (sid : Nat) : Fetched W32 :=
  let st := s.strand sid
  let ks := st.segs.ks
  let pc := st.pc.toNat
  if pc % 4 != 0 || ks.len.toNat < pc + 4 then .trap 0x06 []
  else s.fetchWord (dieOf (coreOf sid)) (s.ctxOf sid) ((ks.base.toNat + pc) % 2 ^ 64) 0

/-- Unit n of a strand's lane code (R44): three words. -/
def State.fetchUnit (s : State) (sid n : Nat) : Fetched W96 :=
  let kl := (s.strand sid).segs.kl
  let die := dieOf (coreOf sid)
  let ctx := s.ctxOf sid
  let va := fun i => (kl.base.toNat + 12 * n + 4 * i) % 2 ^ 64
  if kl.len.toNat < 12 * n + 12 then .trap 0x06 []
  else
    match s.fetchWord die ctx (va 0) 1 with
    | .trap c d => .trap c d
    | .park p => .park p
    | .wait => .wait
    | .got w0 s =>
      match s.fetchWord die ctx (va 1) 1 with
      | .trap c d => .trap c d
      | .park p => .park p
      | .wait => .wait
      | .got w1 s =>
        match s.fetchWord die ctx (va 2) 1 with
        | .trap c d => .trap c d
        | .park p => .park p
        | .wait => .wait
        | .got w2 s => .got (w2 ++ w1 ++ w0) s

/-! ### The lane stream of a strand (R177) -/

/-- The lane stream that runs now: the trap window in a handler (R200). -/
def Strand.laneCtx (st : Strand) (win : Bool) : LaneCtx := if win then st.win else st.lane

/-- Write a lane stream. -/
def Strand.setLaneCtx (st : Strand) (win : Bool) (c : LaneCtx) : Strand :=
  if win then { st with win := c } else { st with lane := c }

/-- A side of a lane stream. -/
def LaneCtx.side (c : LaneCtx) (b : Bool) : Side := if b then c.b else c.a

/-- Write a side. -/
def LaneCtx.setSide (c : LaneCtx) (b : Bool) (x : Side) : LaneCtx := if b then { c with b := x } else { c with a := x }

/-- The place of a lane instruction that issues now: a unit that ERET.retry issues once more (R147), or the side's next unit. -/
def Side.unitNow (x : Side) : W32 := (x.reissue.head?.map (·.unitNo)).getD x.pc

/-- The flags in force for the unit that issues. -/
def Side.flagsNow (x : Side) : BitVec 4 × BitVec 4 :=
  match x.reissue with
  | r :: _ => (r.fA, r.fB)
  | [] => (x.flagA, x.flagB)

/-- The side past its next unit, in a clause past whose last unit a header follows (R57, R133): past one that is issued once more, it stands at the unit kept for it (R147). -/
def Side.advance (x : Side) : Side :=
  match x.reissue with
  | _ :: rs => { x with reissue := rs }
  | [] => { x with pc := x.pc + 1, left := x.left - 1 }

/-- The end of a block (R59, R181). -/
def LaneCtx.endBlock (c : LaneCtx) : LaneCtx := { c with a := {}, b := {}, busy := false, spill := none }

/-- The long instructions under way that come before a side, by tag (R92). -/
def Strand.pastOf (st : Strand) (sd : Side) : List Nat := (st.longs.filter fun l => l.side == sd.no || sd.past.contains l.tag).map (·.tag)

/-! ### The pop of the divergence stack (R181, R184) -/

/-- TREC (R107). -/
def Strand.trec (st : Strand) : W64 := st.segs.p.base + st.segs.p.len * 64 - 256

/-- The address of the record that a push writes, as an integer (R184, R200): records of a trap-window block lie below the paused stream's. -/
def Strand.recAddr (st : Strand) (win : Bool) (k : Nat) : Int :=
  let below := if win then st.lane.depth + k else k
  (st.trec.toNat : Int) - 32 * (below + 1)

/-- The side into which two sides of a strand merge at a JOIN or an END (R181): u is the unit of the JOIN or END; no: its number; everything before either side is before it (R94). (DEDUCED, log entry 32) (DEDUCED, log entry 34) -/
def Strand.mergedSide (st : Strand) (a b : Side) (isEnd : Bool) (u : W32) (no : Nat) : Side :=
  let past := (st.longs.filter fun l => (st.pastOf a ++ st.pastOf b).contains l.tag).map (·.tag)
  if isEnd then { pc := u, mask := a.mask ||| b.mask, live := true, st := .parkedEnd, hdr := a.hdr, left := 1, flagA := a.flagA, flagB := a.flagB, no := no, past := past }
  else { pc := u + 1, mask := a.mask ||| b.mask, live := true, hdr := a.hdr, no := no, past := past }

/-- The clause place of a side that a record names: the flags and the instructions left of the clause at its header (R184). Where that unit cannot be fetched or is no header, which only scalar code that writes into the record brings about and for which the spec gives no place, the side stands at a header, with the flags of none (DESIGN CHOICE, log entry 62). -/
def State.clauseOf (s : State) (sid : Nat) (pc hdr : W32) : State × Nat × BitVec 4 × BitVec 4 :=
  match s.fetchUnit sid hdr.toNat with
  | .got h s =>
    match decodeHeader h with
    | .ok hd =>
      let next := hdr.toNat + 1 + hd.len
      if hdr.toNat < pc.toNat && pc.toNat < next then (s, next - pc.toNat, hd.flagA, hd.flagB) else (s, 0, hd.flagA, hd.flagB)
    | .error _ => (s, 0, 15, 15)
  | _ => (s, 0, 15, 15)

/-- A popped record as a side (R184): none when it breaks the record's form or meets a live side's mask. -/
def recordSide (r : Nat) (live : W64) : Option Side :=
  let mask : W64 := BitVec.ofNat 64 r
  let stt := r / 2 ^ 128 % 256
  if r / 2 ^ 136 != 0 || 2 < stt || mask &&& live != 0 then none
  else some
    { pc := BitVec.ofNat 32 (r / 2 ^ 64), hdr := BitVec.ofNat 32 (r / 2 ^ 96), mask := mask, live := true
      st := if stt = 0 then .running else if stt = 1 then .parkedJoin else .parkedEnd }

/-- The read of a pop (R184): the record, through the strand's P translation. (DEDUCED, log entry 32) -/
def popRecord (win : Bool) : M Nat := do
  let st ← me
  let a := st.recAddr win ((st.laneCtx win).depth - 1)
  let p ← xlateMine (a.toNat % 2 ^ 64) { r := true } 0 1 1 (BitVec.ofInt 64 a)
  return (← readPlace p 32).1

/-- What the read of a strand's pop comes to (R181, R184): the record is read and checked; the JOIN or END merges its sides and the popped side takes slot B. At END, a popped side that is parked at END merges in its turn, and one parked at a JOIN is the mismatch (R181). -/
def State.popDone (s : State) (sid : Nat) (win sideB isEnd : Bool) (u : W32) : Except Stop State :=
  let c := (s.strand sid).laneCtx win
  match popRecord win { s with cur := sid } with
  | .error e => .error e
  | .ok (r, s1) =>
    match recordSide r (c.a.mask ||| c.b.mask) with
    | none => .error (.trap { code := 0x05 } [])
    | some b =>
      if isEnd && b.st == .parkedJoin then .error (.trap { code := 0x05 } [])
      else
        let (s2, left, fA, fB) := s1.clauseOf sid b.pc b.hdr
        let kept := c.spilled.head?.getD (0, [], [])
        let c' : LaneCtx := { c with
          spill := none, depth := c.depth - 1
          spilled := c.spilled.tail
          a := (s2.strand sid).mergedSide c.a c.b isEnd u s.stepNo
          b := { b with left := left, flagA := fA, flagB := fB, no := kept.1, past := kept.2.1, reissue := kept.2.2 } }
        let c'' := if isEnd && b.st == .parkedEnd then
            (if 0 < c'.depth then { c' with spill := some (.pop sideB isEnd u) } else c'.endBlock) else c'
        .ok { (s2.modStrand sid fun st => { st.setLaneCtx win c'' with parkL := none, waitL := false }) with cur := s.cur }

/-- A pop that is given up: its JOIN or END counts as not issued (R87, R135, R184). -/
def LaneCtx.unpop (c : LaneCtx) : LaneCtx :=
  match c.spill with
  | some (.pop _ _ _) => { c with spill := none }
  | _ => c

/-- Before a trap entry the JOIN or END whose pop is under way completes (R130, R184), with the pops that follow it at END; one that is parked, or that faults, counts as not issued (R87, R135). -/
def State.finishPop (s : State) (sid : Nat) : Nat → State
  | 0 => s
  | n + 1 =>
    let st := s.strand sid
    match st.lane.spill with
    | some (.pop sideB isEnd u) =>
      let undo := s.modStrand sid fun st => { st with lane := st.lane.unpop }
      if st.parkL.isSome then undo
      else match s.popDone sid false sideB isEnd u with
        | .ok t => t.finishPop sid n
        | .error _ => undo
    | _ => s

/-! ### Traps (R129 to R136) -/

/-- QSTAT sub 0 (R119): in a handler, the dispatch queue and the block of the paused stream (DESIGN CHOICE, log entry 66). -/
def Strand.qocc (st : Strand) : W64 :=
  let qs := (List.range 8).foldl (fun a i => a + (st.queue i).length * 2 ^ (4 * i)) 0
  BitVec.ofNat 64 (qs + st.lane.dq.length * 2 ^ 32 + (if st.lane.busy then 2 ^ 40 else 0))

/-- TCAUSE of a trap (R129). -/
def Trap.cause (t : Trap) : W64 :=
  BitVec.ofNat 64 (t.info.toNat * 2 ^ 44 + t.acm.toNat * 2 ^ 16 + (if t.sideB && t.lfault then 2 ^ 11 else 0)
    + (if t.lfault then 2 ^ 10 else 0) + (if t.sfault then 2 ^ 9 else 0) + t.code.toNat)

/-- One half of TLPC (R107, R130, R147): the faulting unit, of a side that its JOIN or END has ended meanwhile too; otherwise the next unit not issued, or no unit where the side is not live. (DEDUCED, log entry 34) -/
def tlpcHalf (x : Side) (faulting : Option W32) : W32 :=
  faulting.getD (if x.live then x.unitNow else 0xFFFFFFFF)

/-- TLPC at a trap. (DEDUCED, log entry 34) -/
def Strand.tlpcAt (st : Strand) (t : Trap) : W64 :=
  let u := fun b => if t.lfault && t.sideB == b then t.unitNo else none
  (tlpcHalf st.lane.b (u true)).setWidth 64 <<< 32 ||| (tlpcHalf st.lane.a (u false)).setWidth 64

/-- After-completion conditions of both streams merge into one entry; the earliest lane instruction gives unit and word (R135, R147). -/
def mergeTraps (a b : Trap) : Trap :=
  let lane := if a.lfault then a else b
  { code := 0x10, acm := a.acm ||| b.acm, sideB := lane.sideB
    lfault := a.lfault || b.lfault, sfault := a.sfault || b.sfault
    tmask := a.tmask ||| b.tmask, faddr := if a.faddr = 0 then b.faddr else a.faddr
    epc := a.epc.or b.epc, unitNo := lane.unitNo, lword := lane.lword
    sword := a.sword ||| b.sword, after := true, fA := lane.fA, fB := lane.fB }

/-- A trap set among those that are to become known, the earliest issued first (R147). -/
def addCond (p : PendCond) : List PendCond → List PendCond
  | [] => [p]
  | c :: cs => if p.tag < c.tag then p :: c :: cs else c :: addCond p cs

/-- The trap that an entry is made for (R135): after-completion conditions go first and merge. -/
def Strand.chooseTrap (st : Strand) (t : Trap) : Trap :=
  match st.pendC with
  | [] => t
  | p :: ps =>
    let m := ps.foldl (fun a c => mergeTraps a c.trap) p.trap
    if t.code = 0x10 then mergeTraps m t else m

/-- The 256 bytes of the trap record (R131). -/
def Strand.trapRecord (st : Strand) (t : Trap) : List Byte :=
  leBytes 8 st.csr.tcause.toNat ++ leBytes 8 st.csr.tepc.toNat ++ leBytes 8 st.csr.tlpc.toNat ++ leBytes 8 st.csr.tmask.toNat
  ++ leBytes 8 t.faddr.toNat
  ++ (List.range 12).flatMap (fun i => leBytes 2 (st.flag i))
  ++ leBytes 8 (if st.lane.a.live then st.lane.a.mask.toNat else 0) ++ leBytes 8 (if st.lane.b.live then st.lane.b.mask.toNat else 0)
  ++ leBytes 1 ((if st.lane.a.live then 1 else 0) + (if st.lane.b.live then 2 else 0)) ++ leBytes 7 0
  ++ leBytes 8 st.qocc.toNat
  ++ leBytes 12 (if t.lfault then t.lword.toNat else 0) ++ leBytes 4 (if t.sfault then t.sword.toNat else 0)
  ++ leBytes 144 0

/-- TYPE 7 entry of the service queue for an unhandled or double trap (R375). -/
def State.trapService (s : State) (sid : Nat) : State :=
  let st := s.strand sid
  s.postService { ty := 7, body := [st.csr.tcause, st.csr.tepc, BitVec.ofNat 64 (s.ctxOf sid)], sid := sid, seq := 0 }

/-- A double trap (R136): Ultik or the host receives CODE 0x11 with the prior TCAUSE and kills the team. -/
def State.doubleTrap (s : State) (sid : Nat) : State :=
  let st := s.strand sid
  ((s.report 0x11 st.csr.tcause (BitVec.ofNat 64 sid) 0).trapService sid).killTeam st.team 9

/-- Log the denied accesses of an instruction (R381). -/
def State.logDenied (s : State) (ctx : Nat) (l : List (Nat × Nat)) : State :=
  l.foldl (fun s p => s.denyPa ctx p.1 p.2) s

/-- Step 3 of a trap entry (R130): the record is made of the strand as it stands (R131), then the flags move to their saved copy. -/
def Strand.saveFlags (st : Strand) (t : Trap) : Strand :=
  { st with
    entryRec := leValue (st.trapRecord t)
    savedFlags := st.flags, flags := [], savedPkg := st.pkgFlags, pkgFlags := [], savedBar := st.barAt, barAt := none }

/-- Steps 4 and 5 of a trap entry (R130): the record is written through the strand's P translation, IH := 1, the PC goes to the handler. A translation fault of the record write parks the entry (R136). -/
def State.enterHandler (s : State) (sid : Nat) (t : Trap) : State :=
  let st := s.strand sid
  let die := dieOf (coreOf sid)
  let ctx := s.ctxOf sid
  let va := st.trec.toNat
  match s.xlate die ctx va { w := true } .mem with
  | .error x =>
    let p := parkOf ctx va 0 1 x
    (s.modStrand sid fun st => { st with entry := some t, entryPark := some p }).raiseStrand sid p
  | .ok r =>
    if !r.s.allowed ctx r.pa { w := true } then (r.s.denyPa ctx r.pa 1).doubleTrap sid
    else
      let rec0 := st.entryRec
      match r.s.writeAt sid (.mem r.pa polP false) 128 (rec0 % 2 ^ 1024) false with
      | none => s.modStrand sid fun st => { st with entry := some t }
      | some s1 =>
        match s1.writeAt sid (.mem (r.pa + 128) polP false) 128 (rec0 / 2 ^ 1024) false with
        | none => s.modStrand sid fun st => { st with entry := some t }
        | some s2 =>
          s2.modStrand sid fun st =>
            { st with
              entry := none, entryPark := none
              csr := { st.csr with ih := true }
              pc := st.csr.tvec &&& ~~~3
              waitS := false, waitL := false }

/-- A strand traps (R130): what has issued completes; one entry for what has arisen (R135), a double trap in the handler (R136), an unhandled trap without a handler. -/
def State.takeTrap (s : State) (sid : Nat) (t0 : Trap) : State :=
  if (s.strand sid).csr.ih then s.doubleTrap sid
  else
    let s := (s.finishPop sid ((s.strand sid).lane.depth + 1)).dropStall sid
    let st := (s.strand sid).landAll
    let t := st.chooseTrap t0
    let tlpc := st.tlpcAt t
    let st := { st with
      pendC := [], parkS := none, parkL := none, waitAt := none, parkSince := none, claim := none, skick := none
      waitS := false, waitL := false, stallS := none, stallA := none, stallB := none
      csr := { st.csr with
        tcause := t.cause, tepc := t.epc.getD st.pc, tlpc := tlpc, tmask := t.tmask }
      ret := { tlpc := tlpc, after := t.after, sideB := t.sideB, lfault := t.lfault, unitNo := t.unitNo.getD 0, fA := t.fA, fB := t.fB } }
    let s := s.setStrand sid st
    if st.csr.tvec.toNat / 4 = 0 then
      ((s.report 0x10 t.cause (BitVec.ofNat 64 sid) 0).trapService sid).killTeam st.team 9
    else if st.segs.p.len.toNat * 64 < 256 then s.doubleTrap sid
    else ((s.setStrand sid (st.saveFlags t)).markSaved sid true).enterHandler sid t

/-- How a lane side resumes at ERET (R133, R147, R182): a changed half of TLPC names a header; the faulting side goes on after the recorded unit, or issues it again for ERET.retry, and then what it had come to since: a JOIN or END at which it stands parked issues again too. A side that is not live any more has nothing to resume (R133). (DEDUCED, log entry 34) -/
def Side.resume (x : Side) (r : TrapRet) (isB : Bool) (half half0 : W32) (lfault sideB retry : Bool) : Side :=
  if !x.live then x
  else if half != half0 then { x with pc := half, left := 0, st := .running, reissue := [] }
  else if lfault && sideB == isB then
    if r.after && r.lfault && r.sideB == isB then
      if retry then { x with st := .running, reissue := { unitNo := r.unitNo, fA := r.fA, fB := r.fB } :: x.reissue } else x
    else if retry then x else x.advance
  else x

/-- Steps 2 to 4 of ERET (R133): the saved flags come back, IH := 0, both streams resume. -/
def State.returnFromTrap (s : State) (sid : Nat) (retry : Bool) : State :=
  let s := s.modStrand sid fun st =>
    let tc := st.csr.tcause
    let sf := tc.getLsbD 9
    let lf := tc.getLsbD 10
    let sb := tc.getLsbD 11
    let lo := st.csr.tlpc.setWidth 32
    let hi := (st.csr.tlpc >>> 32).setWidth 32
    let pc := if sf && !retry then st.csr.tepc + 4 else st.csr.tepc
    { st with
      flags := st.savedFlags, savedFlags := [], pkgFlags := st.savedPkg, savedPkg := []
      barAt := if st.savedBar = some pc then st.savedBar else none, savedBar := none
      stallS := none, stallA := none, stallB := none
      csr := { st.csr with ih := false }
      pc := pc
      lane := { st.lane with
        a := st.lane.a.resume st.ret false lo (st.ret.tlpc.setWidth 32) lf sb retry
        b := st.lane.b.resume st.ret true hi ((st.ret.tlpc >>> 32).setWidth 32) lf sb retry } }
  s.markSaved sid false

/-! ### Ending a scalar instruction -/

/-- A scalar access parks on a translation fault (R87); one of AGENT 4, the descriptor of a COLL (R364), at the Basin walker, with its GID as WHO, 0 before the GID has been read (DESIGN CHOICE, log entry 67). -/
def State.parkScalar (s : State) (sid : Nat) (p : Park) : State :=
  let s := s.modStrand sid fun st => { st with parkS := some p, waitS := true }
  if p.agent = 4 then s.raiseFault 8 0 p.who p else s.raiseStrand sid p

/-- Run the meaning of a scalar instruction of the acting strand: its effect and the next PC, a trap (R130), a parked access (R87), a wait (R109). (DESIGN CHOICE, log entry 54) -/
def scalar (body : M SOut) (s : State) : Out :=
  if !s.isRes s.cur then .refused .noStrand
  else
    let pc := (s.strand s.cur).pc
    let sw : W32 := s.curWord.setWidth 32
    match body s with
    | .ok (o, s') =>
      match o.trap with
      | some t => .next (s'.takeTrap s.cur { t with sfault := true, epc := some pc, sword := sw })
      | none =>
        let s' := s'.modStrand s.cur fun st =>
          { st with pc := o.pc, lastS := some s.stepNo, waitS := false, stallS := none, parkS := none }
        if o.acm = 0 then .next s'
        else .next (s'.takeTrap s.cur { code := 0x10, acm := o.acm, sfault := true, epc := some pc, sword := sw, after := true })
    | .error (.trap t l) =>
      .next ((s.logDenied (s.ctxOf s.cur) l).takeTrap s.cur { t with sfault := true, epc := some pc, sword := sw })
    | .error (.park p) => .next (s.parkScalar s.cur p)
    | .error (.wait q) => .next (s.modStrand s.cur fun st => { st with waitS := true, stallS := q })

end Sys2Proof.Machine
end

