-- ==== Sys2Proof/Machine/Operands.lean ====
section
/-! DEFINITION. Operands of lane instructions (R46, R47, R53, R141 to R144): register checks, sources, modifiers, immediates, destinations. -/

namespace Sys2Proof.Machine

/-- What an issuing lane instruction has before it (R53, R58, R177): its cycle, side, window, unit, Active, the flags of its clause; idle: a long instruction with Active empty, which touches no register, memory or queue (R54). -/
structure LaneIn where
  t : Nat
  sideB : Bool
  win : Bool
  unitNo : W32
  mask : W64
  active : W64
  fA : BitVec 4
  fB : BitVec 4
  idle : Bool := false
  deriving DecidableEq, Repr

/-- Bit L of a predicate (R47). -/
def Strand.pred (st : Strand) (k L : Nat) : Bool := k == 0 || mget st.v (kKey k L) 0 != 0

/-- A predicate as a mask. -/
def Strand.predMask (st : Strand) (k : Nat) : W64 := maskOf (st.pred k)

/-- Active (R177): the side's mask and the guard, negated when gn = 1. -/
def Strand.activeOf (st : Strand) (mask : W64) (g : BitVec 3) (gn : BitVec 1) : W64 :=
  let k := st.predMask g.toNat
  mask &&& (if gn = 1 then ~~~k else k)

/-- A port q0 to q3 needs an entry for each naming before the instruction issues (R46, R58). -/
def portsIn (srcs : List (BitVec 10)) : M Unit := do
  let st ← me
  let need := fun i => (srcs.filter fun r => r.toNat == 960 + i).length
  match (List.range 4).find? fun i => decide ((st.queue i).length < need i) with
  | some i => waitQ i (need i)
  | none => pure ()

/-- Checks of lane register numbers (R46, R64): range, then queue direction, then a write of laneid; then the entries of the ports that it reads. -/
def laneRegs (x : LaneIn) (srcs dsts : List (BitVec 10)) : M Unit := do
  let b := (← me).budget
  let out := fun (r : BitVec 10) => b ≤ r.toNat && r.toNat < 960
  if srcs.any out || dsts.any out then trapM 0x03
  else if (srcs.any fun r => 964 ≤ r.toNat && r.toNat < 968) || (dsts.any fun r => 960 ≤ r.toNat && r.toNat < 964) then trapM 0x04
  else if dsts.any fun r => r.toNat == 968 then trapM 0x05
  else if x.idle then pure ()
  else portsIn srcs

/-- Checks of a companion register ve (R159): an ordinary register or zero, and not the destination. -/
def veCheck (ve vd : BitVec 10) : M Unit := do
  let b := (← me).budget
  let n := ve.toNat
  if b ≤ n && n < 960 then trapM 0x03
  else if (960 ≤ n && n ≤ 968) || n == 970 || ve == vd then trapM 0x05
  else pure ()

/-- Reading a register in some lanes: a poisoned word among them holds CODE 0x0D (R261). -/
def notePoison (r : BitVec 10) (m : W64) : M Unit := do
  let n := r.toNat
  let st ← me
  if n < 960 && st.vpois != [] then
    let bad := m &&& maskOf fun L => st.vpois.contains (vKey n L)
    if bad != 0 then modMe fun st => { st with held := st.held ++ [{ code := 0x0D, tmask := bad }] }

/-- Read lane register r: its value in each lane; a port q0 to q3 is popped once and gives its low 32 bits to every lane (R46). A poisoned word reads 0 and holds CODE 0x0D (R261). A long instruction with Active empty touches no register and no queue (R54; DEDUCED, log entry 61). (DESIGN CHOICE, log entry 57) -/
def readV (x : LaneIn) (r : BitVec 10) : M (Nat → W32) := do
  let n := r.toNat
  let st ← me
  if x.idle then pure fun _ => 0
  else if 960 ≤ n && n < 964 then
    match st.queue (n - 960) with
    | [] => waitQ (n - 960)
    | e :: es => modMe fun st => st.setQueue (n - 960) es
                 pure fun _ => e.setWidth 32
  else if n = 968 then pure fun L => BitVec.ofNat 32 L
  else if n = 969 then pure fun _ => 0
  else if 964 ≤ n && n < 968 then trapM 0x04
  else
    notePoison r x.active
    pure fun L => if n < 960 && st.vpois.contains (vKey n L) then 0 else mget st.v (vKey n L) 0

/-- Source b (R53, R142): the immediate in every lane, or register vb. -/
def readB (x : LaneIn) (w : LaneW) : M (Nat → W32) :=
  if w.im = 1 then pure fun _ => w.low else readV x w.vb

/-- The source modifiers of R143 on a pattern: .ftz, abs, neg. -/
def modF (f : Fmt) (ftz abs neg : Bool) (v : Nat) : Nat :=
  let v := flushIn f ftz v
  let sb := 2 ^ (f.width - 1)
  let v := if abs then v % sb else v
  if neg then (if v < sb then v + sb else v - sb) else v

/-- Rounding mode, .ftz and .ovf of md (R149). -/
def mdRm (w : LaneW) : Nat := (w.md.extractLsb' 0 2).toNat
def mdFtz (w : LaneW) : Bool := w.md.getLsbD 2
def mdOvf (w : LaneW) : Bool := w.md.getLsbD 3

/-- A modifier bit (R53); none with an immediate. -/
def modBit (w : LaneW) (i : Nat) : Bool := w.im == 0 && w.low.getLsbD i

/-- Source a under its modifiers (R53, R143): bit 31 negates, bit 30 takes the magnitude first. -/
def modA (f : Fmt) (ftz : Bool) (w : LaneW) (v : W32) : Nat := modF f ftz (modBit w 30) (modBit w 31) v.toNat

/-- Source b under its modifiers (R53, R143): bit 29 negates, bit 28 takes the magnitude first. -/
def modB (f : Fmt) (ftz : Bool) (w : LaneW) (v : W32) : Nat := modF f ftz (modBit w 28) (modBit w 29) v.toNat

/-- A result of a type as a lane register holds it (R20): signed narrow types are sign-extended, others zero-extended. -/
def extTy (ty : Nat) (v : Nat) : W32 :=
  match ty with
  | 7 => BitVec.ofInt 32 (sval 16 v)
  | 9 => BitVec.ofInt 32 (sval 8 v)
  | 1 => BitVec.ofNat 32 (v % 65536)
  | 2 => BitVec.ofNat 32 (v % 65536)
  | 8 => BitVec.ofNat 32 (v % 65536)
  | 12 => BitVec.ofNat 32 (v % 65536)
  | 3 => BitVec.ofNat 32 (v % 256)
  | 4 => BitVec.ofNat 32 (v % 256)
  | 10 => BitVec.ofNat 32 (v % 256)
  | _ => BitVec.ofNat 32 v

/-- Width in bytes of a type (R19). -/
def tyBytes (ty : Nat) : Nat :=
  match ty with
  | 1 => 2
  | 2 => 2
  | 7 => 2
  | 8 => 2
  | 12 => 2
  | 3 => 1
  | 4 => 1
  | 9 => 1
  | 10 => 1
  | _ => 4

/-- Whether an integer type is signed (R28). -/
def tySigned (ty : Nat) : Bool := ty == 5 || ty == 7 || ty == 9

/-- The integer that a source holds in a type (R20). -/
def tyInt (ty : Nat) (v : W32) : Int :=
  let w := 8 * tyBytes ty
  if tySigned ty then sval w (v.toNat % 2 ^ w) else (v.toNat % 2 ^ w : Nat)

/-- The writes of register vd in the lanes of a mask (R46): zero discards, lstat keeps its defined bits, a port takes the lowest lane's value. -/
def destWrites (vd : BitVec 10) (active : W64) (f : Nat → W32) : List LaneWrite :=
  let n := vd.toNat
  if n < 960 then (lanesOf active).map fun L => { key := vKey n L, val := f L }
  else if n = 970 then (lanesOf active).map fun L => { key := lstatKey L, val := f L &&& 0x00FF07FF }
  else if 964 ≤ n && n < 968 then
    match lanesOf active with
    | [] => []
    | L :: _ => [{ key := qKey (n - 960), val := f L }]
  else []

/-- The writes of a predicate in the lanes of a mask; k0 discards (R47, R144). -/
def predWrites (k : Nat) (active : W64) (f : Nat → Bool) : List LaneWrite :=
  if k = 0 then []
  else (lanesOf active).map fun L => { key := kKey k L, val := if f L then 1 else 0 }

/-- Entries that port q4 to q7 will receive from a long instruction (R46): of one whose accesses are still to be made, the one that its vd names. -/
def LongOp.pushes (l : LongOp) (i : Nat) : Nat :=
  if l.acc.isSome then
    (if (l.op == .laneLd || l.op == .ldo || l.op == .ldx || l.op == .atom) && l.w.vd.toNat == 960 + i && l.active != 0 then 1 else 0)
  else (l.writes.filter fun w => w.key == qKey i).length

/-- Entries that port q4 to q7 will still receive from writes under way. -/
def Strand.pushesUnderWay (st : Strand) (i : Nat) : Nat :=
  (st.pendW.filter fun w => w.key == qKey i).length + (st.longs.map fun l => l.pushes i).sum

/-- A write of a port waits for room (R58); with Active empty it pushes nothing and does not wait (R46). -/
def roomFor (vd : BitVec 10) (active : W64) : M Unit := do
  let n := vd.toNat
  let st ← me
  if 964 ≤ n && n < 968 && active != 0 then
    if 8 ≤ (st.queue (n - 960)).length + st.pushesUnderWay (n - 960) then waitQ (n - 960)

end Sys2Proof.Machine
end

