-- ==== Sys2Proof/Machine/Flags.lean ====
section
/-! DEFINITION. Conditions of lane instructions (R145 to R148), pending results of non-long instructions (R139, R140), and how a lane instruction ends. -/

namespace Sys2Proof.Machine

/-- The conditions that trap (R107): the enables, with RKF and EXPT always. (DEDUCED, log entry 33) -/
def Strand.enabled (st : Strand) : Conds := st.csr.trapen.setWidth 11 ||| cEXPT ||| cRKF

/-- The trap of raised conditions (R146, R147): none when no lane is in the trap set. (DEDUCED, log entry 33) -/
def condTrapOf (en : Conds) (cs : List LaneCond) (faddr : W64) : Option Trap :=
  let hits := cs.filter fun c => (c.bits &&& en) != 0
  if hits = [] then none
  else some {
    code := 0x10
    acm := hits.foldl (fun a c => a ||| (c.bits &&& en)) 0
    tmask := maskOf fun L => hits.any fun c => c.lane == L
    faddr := faddr }

/-- Add a write of a non-long instruction to those under way, writes of one lane of one register taking effect in issue order (R140). A condition is ORed in when it is due (R139), and into an earlier instruction's write that lands later; a push keeps its place in the queue's order. -/
def addPend (l : List PendWrite) (w : PendWrite) : List PendWrite :=
  if w.merge then
    (l.map fun p => if p.key == w.key && !p.merge && decide (w.due < p.due) then { p with val := p.val ||| w.val } else p) ++ [w]
  else if 1100 * 64 ≤ w.key then
    let late := (l.filter fun p => p.key == w.key).foldl (fun m p => Nat.max m p.due) w.due
    l ++ [{ w with due := late }]
  else l.filter (fun p => !(p.key == w.key && decide (w.due < p.due))) ++ [w]

/-- The results of a non-long instruction of a word (R139, R141, R145): writes and conditions, all in the cycle t + latency. -/
def Strand.pend (st : Strand) (x : LaneIn) (word : W96) (tag lat : Nat) (ws : List LaneWrite) (cs : List LaneCond) : Strand :=
  let due := x.t + lat
  let l := ws.foldl (fun l w => addPend l { due := due, key := w.key, val := w.val }) st.pendW
  let l := (cs.filter fun c => c.bits != 0).foldl
    (fun l c => addPend l { due := due, key := lstatKey c.lane, val := c.bits.setWidth 32, merge := true }) l
  { st with
    pendW := l
    pendC := match condTrapOf st.enabled cs 0 with
      | none => st.pendC
      | some t => addCond { due := due, tag := tag, trap := { t with
          lfault := true, sideB := x.sideB, unitNo := some x.unitNo, lword := word, after := true, fA := x.fA, fB := x.fB } } st.pendC }

/-- A non-long instruction leaves its results under way. -/
def shortResult (x : LaneIn) (lat : Nat) (ws : List LaneWrite) (cs : List LaneCond) : M Unit :=
  modify fun s => s.setStrand s.cur ((s.strand s.cur).pend x s.curWord s.stepNo lat ws cs)

/-- A per-lane result: value and conditions of each Active lane, written to vd. -/
def perLane (x : LaneIn) (lat : Nat) (vd : BitVec 10) (f : Nat → W32 × Conds) : M Unit := do
  roomFor vd x.active
  let rs := (lanesOf x.active).map fun L => (L, f L)
  let look := fun L => (mget? rs L).elim (0 : W32) (·.1)
  shortResult x lat (destWrites vd x.active look) (rs.map fun r => { lane := r.1, bits := r.2.2 })

/-- A per-lane predicate result. -/
def perLaneK (x : LaneIn) (lat k : Nat) (f : Nat → Bool × Conds) : M Unit :=
  let rs := (lanesOf x.active).map fun L => (L, f L)
  let look := fun L => (mget? rs L).elim false (·.1)
  shortResult x lat (predWrites k x.active look) (rs.map fun r => { lane := r.1, bits := r.2.2 })

/-- The cycle at which the strand's next lane instruction can issue (R58, R138): dist cycles, and at least one, after the previous one. -/
def State.laneCycle (s : State) (sid : Nat) (dist : BitVec 3) : Nat :=
  let now := s.cycles (coreOf sid)
  match (s.strand sid).lastLane with
  | none => now
  | some c => Nat.max now (c + Nat.max 1 dist.toNat)

/-- Whether after-completion conditions are known by a cycle (R147): from that cycle no stream issues. -/
def Strand.condsKnown (st : Strand) (t : Nat) : Bool := st.pendC.any fun p => p.due ≤ t

/-- A lane access parks on a translation fault (R87). -/
def State.parkLane (s : State) (sid : Nat) (p : Park) : State :=
  (s.modStrand sid fun st => { st with parkL := some p, waitL := true }).raiseStrand sid p

/-- What a side stalls on (R60). -/
def Strand.stallSide (st : Strand) (b : Bool) (q : Option Stall) : Strand := if b then { st with stallB := q } else { st with stallA := q }

/-- Advance the acting strand's core to a cycle. (DESIGN CHOICE, log entry 2) -/
def State.toCycle (s : State) (core t : Nat) : State :=
  if s.cycles core < t then { s with cycle := mput s.cycle core t } else s

/-- What an issuing lane instruction has before it. -/
def State.laneIn (s : State) (w : LaneW) : LaneIn :=
  let st := (s.strand s.cur).landTo (s.laneCycle s.cur w.dist)
  let sd := (st.laneCtx s.curWin).side s.curB
  let act := st.activeOf sd.mask w.g w.gn
  { t := s.laneCycle s.cur w.dist, sideB := s.curB, win := s.curWin, unitNo := sd.unitNow
    mask := sd.mask, active := act, fA := sd.flagsNow.1, fB := sd.flagsNow.2
    idle := w.im == 0 && w.longBit == 1 && act == 0 }

/-- Run the meaning of a lane instruction of the acting side: results due land first (R140); then its effect, a trap, a parked access or a wait. done: what becomes of the lane stream when it has issued. -/
def laneRun (w : LaneW) (body : LaneIn → M Unit) (done : LaneIn → LaneCtx → LaneCtx) (s : State) : Out :=
  if !s.isRes s.cur then .refused .noStrand
  else
    let x := s.laneIn w
    if (s.strand s.cur).condsKnown x.t then .next (s.modStrand s.cur fun st => { st with waitL := true })
    else
      let s0 := s.modStrand s.cur fun st => st.landTo x.t
      match body x (s0.modStrand s.cur fun st => st.setLaneCtx x.win { st.laneCtx x.win with lastB := x.sideB }) with
      | .ok (_, s') =>
        .next ((s'.modStrand s.cur fun st =>
          { (st.setLaneCtx x.win (done x (st.laneCtx x.win))).stallSide x.sideB none with
            lastLane := some x.t, lastL := some s.stepNo, waitL := false, parkL := none }).toCycle (coreOf s.cur) x.t)
      | .error (.trap t l) =>
        .next ((s0.logDenied (s.ctxOf s.cur) l).takeTrap s.cur
          { t with lfault := true, sideB := x.sideB, unitNo := some x.unitNo, lword := s.curWord, fA := x.fA, fB := x.fB })
      | .error (.park p) => .next (s0.parkLane s.cur { p with sideB := x.sideB, unitNo := x.unitNo, word := s.curWord, fA := x.fA, fB := x.fB })
      | .error (.wait q) => .next (s.modStrand s.cur fun st => { st.stallSide x.sideB q with waitL := true })

/-- A lane instruction that is no control transfer. (DESIGN CHOICE, log entry 54) -/
def lane (w : LaneW) (body : LaneIn → M Unit) (s : State) : Out :=
  laneRun w body (fun x c => c.setSide x.sideB (c.side x.sideB).advance) s

/-- The completion flag that a long instruction counts (R53, R54): illegal when its header names none. -/
def longFlag (x : LaneIn) (w : LaneW) : M (BitVec 4) :=
  let f := if w.fsel = 1 then x.fB else x.fA
  if f = 15 then illegal else pure f

/-- A long instruction of a word joins the operations under way (R54): it completes no sooner than lat cycles later. -/
def Strand.issue (st : Strand) (x : LaneIn) (word : W96) (tag : Nat) (w : LaneW) (op : LaneOp) (kind : LongKind) (f : BitVec 4) (lat : Nat)
    (l : LongOp) : Strand :=
  let sd := (st.laneCtx x.win).side x.sideB
  { st with longs := st.longs ++ [{ l with
    kind := kind, flag := f, sideB := x.sideB, win := x.win, unitNo := x.unitNo, word := word, op := op, w := w
    active := x.active, due := x.t + lat, tag := tag, blk := (st.laneCtx x.win).started, side := sd.no, past := sd.past
    fA := x.fA, fB := x.fB }] }

/-- Whether a long instruction came before another in the order of one side of the lane stream (R92): on the same side, or before the branch or merge that opened it. -/
def LongOp.before (o l : LongOp) : Bool := decide (o.tag < l.tag) && (o.side == l.side || l.past.contains o.tag)

/-- A long instruction issues (R54): its flag is counted. -/
def issueLong (x : LaneIn) (w : LaneW) (op : LaneOp) (kind : LongKind) (f : BitVec 4) (lat : Nat) (l : LongOp) : M Unit := do
  incFlag f
  modify fun s => s.setStrand s.cur ((s.strand s.cur).issue x s.curWord s.stepNo w op kind f lat l)

/-- A long instruction completes (R54, R148): its writes land, its conditions are raised, its held causes and its trap set become known, its flag falls by one. -/
def State.finishLong (s : State) (sid idx : Nat) (ws : List LaneWrite) (cs : List LaneCond) (hs : List Held) (faddr : W64) : State :=
  let st := s.strand sid
  match st.longs[idx]? with
  | none => s
  | some l =>
    let s := s.toCycle (coreOf sid) l.due
    let now := s.cycles (coreOf sid)
    let st := st.landTo now
    let st := ws.foldl (fun st w => st.land1 { due := 0, key := w.key, val := w.val }) st
    let st := cs.foldl (fun st c => st.land1 { due := 0, key := lstatKey c.lane, val := c.bits.setWidth 32, merge := true }) st
    let st := (({ st with longs := dropAt st.longs idx, held := st.held ++ hs } : Strand)).decFlag l.flag.toNat l.saved
    let s := s.setStrand sid st
    let s := match l.acq with
      | some sc => s.acquireAt (dieOf (coreOf sid)) (s.ctxOf sid) sc.toNat
      | none => s
    match condTrapOf st.enabled cs faddr with
    | none => s
    | some t =>
      let t := { t with lfault := true, sideB := l.sideB, unitNo := some l.unitNo, lword := l.word, after := true, fA := l.fA, fB := l.fB }
      if st.csr.ih then s.doubleTrap sid
      else s.setStrand sid { st with pendC := addCond { due := now, tag := l.tag, trap := t } st.pendC }

end Sys2Proof.Machine
end

