-- ==== Sys2Proof/Machine/ScalarAlu.lean ====
section
/-! DEFINITION. Scalar arithmetic and logic, immediates and LEA (R110 to R112). -/

namespace Sys2Proof.Machine

/-- d := f a b (R110). -/
def alu2 (d a b : BitVec 6) (f : W64 → W64 → W64) : State → Out := scalar do
  portsOk [a, b] [d]
  let x ← readSrc a
  let y ← readSrc b
  writeDst d (f x y)
  advance

/-- d := f a (R110, R111). -/
def alu1 (d a : BitVec 6) (f : W64 → W64) : State → Out := scalar do
  portsOk [a] [d]
  let x ← readSrc a
  writeDst d (f x)
  advance

/-- A division, with the conditions of R28: SFLAGS, and the trap after completion when enabled (R110). -/
def divide (d a b : BitVec 6) (f : W64 → W64 → W64 × Conds) : State → Out := scalar do
  portsOk [a, b] [d]
  let x ← readSrc a
  let y ← readSrc b
  writeDst d (f x y).1
  let c ← raiseScalar (f x y).2
  return { pc := (← me).pc + 4, acm := c }

/-- 1 or 0. -/
def bit (b : Bool) : W64 := if b then 1 else 0

/-- Signed quotient with the cases of R28, at width n. -/
def sdivR (n : Nat) (a b : Int) : Int × Conds :=
  if b = 0 then (if 0 ≤ a then 2 ^ (n - 1) - 1 else -(2 ^ (n - 1)), cIDZ)
  else if a = -(2 ^ (n - 1)) ∧ b = -1 then (-(2 ^ (n - 1)), cIOV)
  else (a.tdiv b, 0)

/-- Signed remainder with the cases of R28, at width n. -/
def sremR (n : Nat) (a b : Int) : Int × Conds :=
  if b = 0 then (a, cIDZ)
  else if a = -(2 ^ (n - 1)) ∧ b = -1 then (0, cIOV)
  else (a.tmod b, 0)

/-- Unsigned quotient and remainder with the case of R28, at width n. -/
def udivR (n a b : Nat) : Nat × Conds := if b = 0 then (2 ^ n - 1, cIDZ) else (a / b, 0)
def uremR (a b : Nat) : Nat × Conds := if b = 0 then (a, cIDZ) else (a % b, 0)

/-- ADD (R110). -/
def execAdd (d a b : BitVec 6) (s : State) : Out := alu2 d a b (fun x y => x + y) s
/-- SUB (R110). -/
def execSub (d a b : BitVec 6) (s : State) : Out := alu2 d a b (fun x y => x - y) s
/-- MUL (R110). -/
def execMul (d a b : BitVec 6) (s : State) : Out := alu2 d a b (fun x y => x * y) s
/-- MULH (R110). -/
def execMulh (d a b : BitVec 6) (s : State) : Out :=
  alu2 d a b (fun x y => BitVec.ofInt 64 (x.toInt * y.toInt / 2 ^ 64)) s
/-- MULHN (R110). -/
def execMulhn (d a b : BitVec 6) (s : State) : Out :=
  alu2 d a b (fun x y => BitVec.ofNat 64 (x.toNat * y.toNat / 2 ^ 64)) s
/-- DIV (R28, R110). -/
def execDiv (d a b : BitVec 6) (s : State) : Out :=
  divide d a b (fun x y => let r := sdivR 64 x.toInt y.toInt; (BitVec.ofInt 64 r.1, r.2)) s
/-- DIVN (R28, R110). -/
def execDivn (d a b : BitVec 6) (s : State) : Out :=
  divide d a b (fun x y => let r := udivR 64 x.toNat y.toNat; (BitVec.ofNat 64 r.1, r.2)) s
/-- REM (R28, R110). -/
def execRem (d a b : BitVec 6) (s : State) : Out :=
  divide d a b (fun x y => let r := sremR 64 x.toInt y.toInt; (BitVec.ofInt 64 r.1, r.2)) s
/-- REMN (R28, R110). -/
def execRemn (d a b : BitVec 6) (s : State) : Out :=
  divide d a b (fun x y => let r := uremR x.toNat y.toNat; (BitVec.ofNat 64 r.1, r.2)) s
/-- AND (R110). -/
def execAnd (d a b : BitVec 6) (s : State) : Out := alu2 d a b (fun x y => x &&& y) s
/-- OR (R110). -/
def execOr (d a b : BitVec 6) (s : State) : Out := alu2 d a b (fun x y => x ||| y) s
/-- XOR (R110). -/
def execXor (d a b : BitVec 6) (s : State) : Out := alu2 d a b (fun x y => x ^^^ y) s
/-- ANDN (R110). -/
def execAndn (d a b : BitVec 6) (s : State) : Out := alu2 d a b (fun x y => x &&& ~~~y) s
/-- SHL (R110): b[63:6] are ignored. -/
def execShl (d a b : BitVec 6) (s : State) : Out := alu2 d a b (fun x y => x <<< (y.toNat % 64)) s
/-- SHR (R110). -/
def execShr (d a b : BitVec 6) (s : State) : Out := alu2 d a b (fun x y => x >>> (y.toNat % 64)) s
/-- SAR (R110). -/
def execSar (d a b : BitVec 6) (s : State) : Out := alu2 d a b (fun x y => x.sshiftRight (y.toNat % 64)) s
/-- MIN (R110). -/
def execMin (d a b : BitVec 6) (s : State) : Out := alu2 d a b (fun x y => if x.sle y then x else y) s
/-- MAX (R110). -/
def execMax (d a b : BitVec 6) (s : State) : Out := alu2 d a b (fun x y => if x.sle y then y else x) s
/-- MINN (R110). -/
def execMinn (d a b : BitVec 6) (s : State) : Out := alu2 d a b (fun x y => if x.ule y then x else y) s
/-- MAXN (R110). -/
def execMaxn (d a b : BitVec 6) (s : State) : Out := alu2 d a b (fun x y => if x.ule y then y else x) s
/-- SLT (R110). -/
def execSlt (d a b : BitVec 6) (s : State) : Out := alu2 d a b (fun x y => bit (x.slt y)) s
/-- SLTN (R110). -/
def execSltn (d a b : BitVec 6) (s : State) : Out := alu2 d a b (fun x y => bit (x.ult y)) s
/-- SEQ (R110). -/
def execSeq (d a b : BitVec 6) (s : State) : Out := alu2 d a b (fun x y => bit (x == y)) s
/-- POPC (R110). -/
def execPopc (d a : BitVec 6) (s : State) : Out := alu1 d a (fun x => BitVec.ofNat 64 (popCount 64 x.toNat)) s
/-- CLZ (R110). -/
def execClz (d a : BitVec 6) (s : State) : Out := alu1 d a (fun x => BitVec.ofNat 64 (64 - bitLen x.toNat)) s
/-- CTZ (R110). -/
def execCtz (d a : BitVec 6) (s : State) : Out := alu1 d a (fun x => BitVec.ofNat 64 (lowBit 64 x.toNat)) s

/-- ADDI (R111). -/
def execAddi (d a : BitVec 6) (i : BitVec 14) (s : State) : Out := alu1 d a (fun x => x + i.signExtend 64) s
/-- ANDI (R111). -/
def execAndi (d a : BitVec 6) (i : BitVec 14) (s : State) : Out := alu1 d a (fun x => x &&& i.setWidth 64) s
/-- ORI (R111). -/
def execOri (d a : BitVec 6) (i : BitVec 14) (s : State) : Out := alu1 d a (fun x => x ||| i.setWidth 64) s
/-- XORI (R111). -/
def execXori (d a : BitVec 6) (i : BitVec 14) (s : State) : Out := alu1 d a (fun x => x ^^^ i.setWidth 64) s
/-- SLTI (R111). -/
def execSlti (d a : BitVec 6) (i : BitVec 14) (s : State) : Out := alu1 d a (fun x => bit (x.slt (i.signExtend 64))) s
/-- SHLI (R111). -/
def execShli (d a n : BitVec 6) (s : State) : Out := alu1 d a (fun x => x <<< n.toNat) s
/-- SHRI (R111). -/
def execShri (d a n : BitVec 6) (s : State) : Out := alu1 d a (fun x => x >>> n.toNat) s
/-- SARI (R111). -/
def execSari (d a n : BitVec 6) (s : State) : Out := alu1 d a (fun x => x.sshiftRight n.toNat) s
/-- LIH (R111). -/
def execLih (d : BitVec 6) (i : BitVec 20) (s : State) : Out := scalar (do
  portsOk [] [d]
  writeDst d (i.signExtend 64 <<< 12)
  advance) s

/-- LEA (R112): BASE + base + off8 × size; no check, no translation. -/
def execLea (t b : BitVec 6) (sg : BitVec 3) (z : BitVec 2) (o : BitVec 8) (s : State) : Out := scalar (do
  portsOk [b] [t]
  let x ← readSrc b
  let d := (← me).segs.get sg.toNat
  writeDst t (d.seen sg.toNat + x + BitVec.ofNat 64 (o.toNat * 2 ^ z.toNat))
  advance) s

end Sys2Proof.Machine
end

