-- ==== Sys2Proof/Machine/LaneAlu.lean ====
section
/-! DEFINITION. Moves, integer arithmetic, bitwise and predicate instructions of the lane stream (R157, R162 to R172). -/

namespace Sys2Proof.Machine

/-- Source a only. -/
def lane1 (lat : Nat) (w : LaneW) (f : W32 → W32 × Conds) : State → Out := lane w fun x => do
  laneRegs x [w.va] [w.vd]
  let a ← readV x w.va
  perLane x lat w.vd fun L => f (a L)

/-- Sources a and b. -/
def lane2 (lat : Nat) (w : LaneW) (f : W32 → W32 → W32 × Conds) : State → Out := lane w fun x => do
  laneRegs x [w.va, w.vb] [w.vd]
  let a ← readV x w.va
  let b ← readB x w
  perLane x lat w.vd fun L => f (a L) (b L)

/-- Sources a, b and c. -/
def lane3 (lat : Nat) (w : LaneW) (f : W32 → W32 → W32 → W32 × Conds) : State → Out := lane w fun x => do
  laneRegs x [w.va, w.vb, w.vc] [w.vd]
  let a ← readV x w.va
  let b ← readB x w
  let c ← readV x w.vc
  perLane x lat w.vd fun L => f (a L) (b L) (c L)

/-- A result without a condition. -/
def plain (v : W32) : W32 × Conds := (v, 0)

/-- NOP (R157). -/
def execLaneNop (w : LaneW) (s : State) : Out := lane w (fun _ => pure ()) s

/-- MOV (R157). -/
def execMov (w : LaneW) (s : State) : Out := lane w (fun x => do
  laneRegs x [w.vb] [w.vd]
  let b ← readB x w
  perLane x 2 w.vd fun L => plain (b L)) s

/-- SEL (R157). -/
def execSel (w : LaneW) (s : State) : Out := lane w (fun x => do
  laneRegs x [w.va, w.vb] [w.vd]
  let a ← readV x w.va
  let b ← readB x w
  let st ← me
  perLane x 2 w.vd fun L => plain (if st.pred w.vc.toNat L then a L else b L)) s

/-- An integer result of a type (R20, R162). -/
def intRes (ty : Nat) (r : Int) : W32 := extTy ty (BitVec.ofInt (8 * tyBytes ty) r).toNat

/-- Two integer sources. -/
def int2 (lat : Nat) (w : LaneW) (f : Int → Int → Int) : State → Out :=
  let t := w.ty.toNat
  lane2 lat w fun a b => plain (intRes t (f (tyInt t a) (tyInt t b)))

/-- IADD (R162). -/
def execIadd (w : LaneW) (s : State) : Out := int2 2 w (fun a b => a + b) s
/-- ISUB (R162). -/
def execIsub (w : LaneW) (s : State) : Out := int2 2 w (fun a b => a - b) s
/-- IMUL (R162). -/
def execImul (w : LaneW) (s : State) : Out := int2 4 w (fun a b => a * b) s
/-- IMULH (R162): the high half of the product of 2w bits. -/
def execImulh (w : LaneW) (s : State) : Out := int2 4 w (fun a b => a * b / 2 ^ (8 * tyBytes w.ty.toNat)) s
/-- IMAD (R162). -/
def execImad (w : LaneW) (s : State) : Out :=
  let t := w.ty.toNat
  lane3 4 w (fun a b c => plain (intRes t (tyInt t a * tyInt t b + tyInt t c))) s

/-- A division with the cases of R28 (R163). -/
def intDiv (w : LaneW) (fs : Nat → Int → Int → Int × Conds) (fn : Nat → Nat → Nat → Nat × Conds) : State → Out :=
  let t := w.ty.toNat
  let n := 8 * tyBytes t
  lane2 7 w fun a b =>
    if tySigned t then
      let r := fs n (tyInt t a) (tyInt t b)
      (intRes t r.1, r.2)
    else
      let r := fn n (a.toNat % 2 ^ n) (b.toNat % 2 ^ n)
      (intRes t r.1, r.2)

/-- IDIV (R163). -/
def execIdiv (w : LaneW) (s : State) : Out := intDiv w sdivR udivR s
/-- IREM (R163). -/
def execIrem (w : LaneW) (s : State) : Out := intDiv w sremR (fun _ a b => uremR a b) s

/-- IABS (R164). -/
def execIabs (w : LaneW) (s : State) : Out :=
  let t := w.ty.toNat
  lane1 2 w (fun a => plain (intRes t (tyInt t a).natAbs)) s
/-- IMIN (R164). -/
def execImin (w : LaneW) (s : State) : Out := int2 2 w (fun a b => if a ≤ b then a else b) s
/-- IMAX (R164). -/
def execImax (w : LaneW) (s : State) : Out := int2 2 w (fun a b => if a < b then b else a) s

/-- The least and the greatest value of an integer type (R165). -/
def tyMin (ty : Nat) : Int := if tySigned ty then -(2 ^ (8 * tyBytes ty - 1)) else 0
def tyMax (ty : Nat) : Int := if tySigned ty then 2 ^ (8 * tyBytes ty - 1) - 1 else 2 ^ (8 * tyBytes ty) - 1

/-- IADDS (R165). -/
def execIadds (w : LaneW) (s : State) : Out :=
  let t := w.ty.toNat
  int2 2 w (fun a b => clampInt (tyMin t) (tyMax t) (a + b)) s
/-- ISUBS (R165). -/
def execIsubs (w : LaneW) (s : State) : Out :=
  let t := w.ty.toNat
  int2 2 w (fun a b => clampInt (tyMin t) (tyMax t) (a - b)) s

/-- The relations eq to ge (R152, R166) of an ordering. -/
def relHolds (cond : Nat) (o : Ordering) : Bool :=
  match cond, o with
  | 0, .eq => true
  | 1, .lt => true
  | 1, .gt => true
  | 2, .lt => true
  | 3, .lt => true
  | 3, .eq => true
  | 4, .gt => true
  | 5, .gt => true
  | 5, .eq => true
  | _, _ => false

/-- ICMP (R166). -/
def execIcmp (w : LaneW) (s : State) : Out := lane w (fun x => do
  laneRegs x [w.va, w.vb] []
  let a ← readV x w.va
  let b ← readB x w
  let t := w.ty.toNat
  perLaneK x 2 w.vd.toNat fun L => (relHolds w.md.toNat (compare (tyInt t (a L)) (tyInt t (b L))), 0)) s

/-! ### Bitwise -/

/-- AND (R167). -/
def execLaneAnd (w : LaneW) (s : State) : Out := lane2 2 w (fun a b => plain (a &&& b)) s
/-- OR (R167). -/
def execLaneOr (w : LaneW) (s : State) : Out := lane2 2 w (fun a b => plain (a ||| b)) s
/-- XOR (R167). -/
def execLaneXor (w : LaneW) (s : State) : Out := lane2 2 w (fun a b => plain (a ^^^ b)) s
/-- SHL (R167): shifts by the low five bits of b. -/
def execLaneShl (w : LaneW) (s : State) : Out := lane2 2 w (fun a b => plain (a <<< (b.toNat % 32))) s
/-- SHR (R167). -/
def execLaneShr (w : LaneW) (s : State) : Out := lane2 2 w (fun a b => plain (a >>> (b.toNat % 32))) s
/-- SAR (R167). -/
def execLaneSar (w : LaneW) (s : State) : Out := lane2 2 w (fun a b => plain (a.sshiftRight (b.toNat % 32))) s
/-- POPC (R168). -/
def execLanePopc (w : LaneW) (s : State) : Out := lane1 2 w (fun a => plain (BitVec.ofNat 32 (popCount 32 a.toNat))) s
/-- CLZ (R168). -/
def execLaneClz (w : LaneW) (s : State) : Out := lane1 2 w (fun a => plain (BitVec.ofNat 32 (32 - bitLen a.toNat))) s
/-- BREV (R168). -/
def execBrev (w : LaneW) (s : State) : Out := lane1 2 w (fun a =>
  plain (BitVec.ofNat 32 ((List.range 32).foldl (fun v i => if a.getLsbD i then v + 2 ^ (31 - i) else v) 0))) s

/-- The field of BFE and BFI (R169): position and length. -/
def bfPos (w : LaneW) : Nat := (w.aux.extractLsb' 0 5).toNat
def bfLen (w : LaneW) : Nat := (w.aux.extractLsb' 5 6).toNat

/-- BFE (R169). -/
def execBfe (w : LaneW) (s : State) : Out := lane1 2 w (fun a =>
  let f := a.toNat / 2 ^ bfPos w % 2 ^ bfLen w
  plain (if w.aux.getLsbD 11 then BitVec.ofInt 32 (sval (bfLen w) f) else BitVec.ofNat 32 f)) s

/-- BFI (R169). -/
def execBfi (w : LaneW) (s : State) : Out := lane w (fun x => do
  laneRegs x [w.va, w.vb] [w.vd]
  let a ← readV x w.va
  let b ← readV x w.vb
  let m : W32 := BitVec.ofNat 32 ((2 ^ bfLen w - 1) * 2 ^ bfPos w)
  perLane x 2 w.vd fun L => plain ((b L &&& ~~~m) ||| ((a L <<< bfPos w) &&& m))) s

/-! ### Predicates -/

/-- Two predicates into one (R170). -/
def kOp (w : LaneW) (f : Bool → Bool → Bool) : State → Out := lane w fun x => do
  let st ← me
  perLaneK x 2 w.vd.toNat fun L => (f (st.pred w.va.toNat L) (st.pred w.vb.toNat L), 0)

/-- KAND (R170). -/
def execKand (w : LaneW) (s : State) : Out := kOp w (fun a b => a && b) s
/-- KOR (R170). -/
def execKor (w : LaneW) (s : State) : Out := kOp w (fun a b => a || b) s
/-- KXOR (R170). -/
def execKxor (w : LaneW) (s : State) : Out := kOp w (fun a b => a != b) s
/-- KNOT (R170). -/
def execKnot (w : LaneW) (s : State) : Out := kOp w (fun a _ => !a) s
/-- KMOV (R171), md 0. -/
def execKmov (w : LaneW) (s : State) : Out := kOp w (fun a _ => a) s

/-- KMOV.v (R171), md 1. -/
def execKmovV (w : LaneW) (s : State) : Out := lane w (fun x => do
  laneRegs x [w.va] []
  let a ← readV x w.va
  perLaneK x 2 w.vd.toNat fun L => (a L != 0, 0)) s

/-- KMOV.k (R171), md 2. -/
def execKmovK (w : LaneW) (s : State) : Out := lane w (fun x => do
  laneRegs x [] [w.vd]
  let st ← me
  perLane x 2 w.vd fun L => plain (if st.pred w.va.toNat L then 1 else 0)) s

/-- KBAL (R172). -/
def execKbal (w : LaneW) (s : State) : Out := lane w (fun x => do
  laneRegs x [] [w.vd]
  let st ← me
  let b := x.active &&& st.predMask w.va.toNat
  let v : W32 := match w.md.toNat with
    | 0 => b.extractLsb' 0 32
    | 1 => b.extractLsb' 32 32
    | _ => BitVec.ofNat 32 (popCount 64 b.toNat)
  perLane x 6 w.vd fun _ => plain v) s

end Sys2Proof.Machine
end

