-- ==== Sys2Proof/Machine/Q4x.lean ====
section
/-! DEFINITION. Q4X blocks (R30 to R33): decoding into exact values, encoding from f32 values. -/

namespace Sys2Proof.Machine

/-- A decoded Q4X block (R31): 32 exact values, and whether the block was malformed (R32). -/
structure Q4Dec where
  vals : List Fv
  bad : Bool
  deriving DecidableEq, Repr

/-- Nibble i of a block of 18 bytes given as a number (R30). -/
def q4Nibble (blk i : Nat) : Nat := blk / 2 ^ (4 * i) % 16

/-- The partner of a slot: i XOR 1. -/
def q4Pair (i : Nat) : Nat := if i % 2 = 0 then i + 1 else i - 1

/-- Decode a block (R31); base is the scale base as an exact value. -/
def q4Decode (blk : Nat) (base : Fv) : Q4Dec :=
  let e : Nat := blk / 2 ^ 128 % 256
  let t : Nat := blk / 2 ^ 136 % 256
  let idx := List.range 32
  if e = 0xFF then { vals := idx.map fun _ => .nan false, bad := false }
  else
    let ms := idx.filter fun i => q4Nibble blk i == 8
    if 2 < ms.length || ms.any fun i => ms.contains (q4Pair i) then
      { vals := idx.map fun _ => .nan false, bad := true }
    else
      let s := scaleF base (Int.ofNat e - 127)
      let first := (ms.head?).getD 32
      { vals := idx.map fun i =>
          if ms.contains i then
            let tail := if i = first then t % 16 else t / 16
            (mulF (decodeF (fmtOf 3) (q4Nibble blk (q4Pair i) * 16 + tail)) s).1
          else if ms.contains (q4Pair i) then .fin false 0 0
          else
            let c := sval 4 (q4Nibble blk i)
            if c = 0 then .fin false 0 0 else (mulF (ofInt c) s).1
        bad := false }

/-- The exact quotient p / q of positive numbers, kept to n fraction bits with the rest as a sticky last bit: a magnitude and its exponent. -/
def quotSticky (p q n : Nat) : Nat × Int :=
  let v := p * 2 ^ n
  let k := v / q
  (2 * k + (if v % q = 0 then 0 else 1), -((n : Int) + 1))

/-- Nearest integer to p / q, ties to even. -/
def quotRne (p q : Nat) : Nat :=
  let k := p / q
  let r := p % q
  if 2 * r < q then k else if 2 * r = q then (if k % 2 = 0 then k else k + 1) else k + 1

/-- Two magnitudes at a common exponent. -/
def commonExp (ma : Nat) (ea : Int) (mb : Nat) (eb : Int) : Nat × Nat :=
  let q := if ea < eb then ea else eb
  (ma * 2 ^ (ea - q).toNat, mb * 2 ^ (eb - q).toNat)

/-- The least integer k with p ≤ q × 2^k, for positive p and q. -/
def ceilLog2Quot (p q : Nat) : Int :=
  let d : Int := (bitLen p : Int) - bitLen q
  let fits := if 0 ≤ d then p ≤ q * 2 ^ d.toNat else p * 2 ^ (-d).toNat ≤ q
  if fits then d else d + 1

/-- An encoded block (R33): its 18 bytes as a number, conditions and decoded value of each element, whether some input was not finite. -/
structure Q4Enc where
  blk : Nat
  conds : List Conds
  vals : List Fv
  bad : Bool
  deriving DecidableEq, Repr

/-- Magnitude and exponent of a datum (0 for what is not finite). -/
def magOf : Fv → Nat × Int
  | .fin _ m e => (m, e)
  | _ => (0, 0)

/-- Whether |a| > |b|. -/
def magGt (a b : Nat × Int) : Bool :=
  let (x, y) := commonExp a.1 a.2 b.1 b.2
  decide (y < x)

/-- Index of the largest magnitude, the lowest index among equals, leaving out some indices. -/
def largestIdx (xs : List (Nat × Int)) (skip : List Nat) : Nat :=
  ((List.range xs.length).filter fun i => !skip.contains i).foldl
    (fun best i => if best = 99 then i else if magGt (xs.getD i (0, 0)) (xs.getD best (0, 0)) then i else best) 99

/-- Encode 32 f32 values with a scale base (R33). (DEDUCED, log entry 71) -/
def q4Encode (xs : List Nat) (baseBits : Nat) : Q4Enc :=
  let vs := xs.map (decodeF f32)
  let idx := List.range 32
  if vs.any fun v => !isFin v then
    { blk := 0xFF * 2 ^ 128, conds := idx.map fun _ => cINV, vals := idx.map fun _ => .nan false, bad := true }
  else
    let base := decodeF f32 baseBits
    let (mb, eb) := magOf base
    let mags := vs.map magOf
    let i1 := largestIdx mags []
    let i2 := largestIdx mags [i1]
    let i3 := largestIdx mags [i1, i2]
    let m3 := mags.getD i3 (0, 0)
    let e : Nat :=
      if m3.1 = 0 then 1
      else
        let (p, q) := commonExp m3.1 m3.2 (7 * mb) eb
        (clampInt 1 254 (ceilLog2Quot p q + 127)).toNat
    let se : Int := eb + ((e : Int) - 127)
    let lim := (7 * mb, se)
    let big1 := magGt (mags.getD i1 (0, 0)) lim
    let big2 := magGt (mags.getD i2 (0, 0)) lim && q4Pair i1 != i2
    let ms := (if big1 then [i1] else []) ++ (if big2 then [i2] else [])
    let outl (i : Nat) : Nat × Conds :=
      let (m, ex) := mags.getD i (0, 0)
      let (p, q) := commonExp m ex mb se
      let (k, ke) := quotSticky p q 24
      encodeF (fmtOf 3) 0 false false (.fin (isNeg (vs.getD i (.nan false))) k ke)
    let code (i : Nat) : Int × Conds :=
      let (m, ex) := mags.getD i (0, 0)
      let (p, q) := commonExp m ex mb se
      let k := quotRne p q
      let k' := if 7 < k then 7 else k
      (if isNeg (vs.getD i (.nan false)) then -(k' : Int) else k', if 7 < k then cOVF else 0)
    let lo := if ms.length = 2 then (if i1 < i2 then i1 else i2) else i1
    let hi := if i1 < i2 then i2 else i1
    let nib (i : Nat) : Nat :=
      if ms.contains i then 8
      else if ms.contains (q4Pair i) then (outl (q4Pair i)).1 / 16
      else (BitVec.ofInt 4 (code i).1).toNat
    let t := (if ms = [] then 0 else if ms.length = 1 then (outl (ms.headD 0)).1 % 16
      else (outl lo).1 % 16 + 16 * ((outl hi).1 % 16))
    let blk := idx.foldl (fun a i => a + nib i * 2 ^ (4 * i)) 0 + e * 2 ^ 128 + t * 2 ^ 136
    let dec := (q4Decode blk base).vals
    { blk := blk
      conds := idx.map fun i =>
        let c := if ms.contains i then (outl i).2 &&& cOVF
          else if ms.contains (q4Pair i) then 0 else (code i).2
        c ||| (if cmpF (dec.getD i (.nan false)) (vs.getD i (.nan false)) = .eq then 0 else cINX)
      vals := dec, bad := false }

/-- The residue that error feedback carries after an element was encoded (R29, R33): RNE32(s − decoded), +0 where either is not finite. -/
def q4Residue (s : Nat) (dec : Fv) : Nat :=
  let sv := decodeF f32 s
  if isFin sv && isFin dec then rne32 (addF 0 sv (negF dec)).1 else 0

end Sys2Proof.Machine
end

