-- ==== Sys2Proof/Machine/LaneFp.lean ====
section
/-! DEFINITION. Floating-point arithmetic and conversion of the lane stream (R150 to R161). -/

namespace Sys2Proof.Machine

/-- A floating-point result of a type: bits and conditions. -/
def fpRes (ty : Nat) (r : Nat × Conds) : W32 × Conds := (extTy ty r.1, r.2)

/-- Round an exact datum into the type of an instruction, joining the conditions of its operation (R150). -/
def roundRes (w : LaneW) (v : Fv × Conds) : W32 × Conds :=
  let r := encodeF (fmtOf w.ty.toNat) (mdRm w) false (mdFtz w) v.1
  fpRes w.ty.toNat (r.1, r.2 ||| v.2)

/-- Two sources with modifiers as exact data, one rounding. -/
def fp2 (w : LaneW) (f : Fv → Fv → Fv × Conds) : State → Out :=
  let fm := fmtOf w.ty.toNat
  lane2 4 w fun a b => roundRes w (f (decodeF fm (modA fm (mdFtz w) w a)) (decodeF fm (modB fm (mdFtz w) w b)))

/-- FADD (R150). -/
def execFadd (w : LaneW) (s : State) : Out := fp2 w (addF (mdRm w)) s
/-- FSUB (R150). -/
def execFsub (w : LaneW) (s : State) : Out := fp2 w (fun a b => addF (mdRm w) a (negF b)) s
/-- FMUL (R150). -/
def execFmul (w : LaneW) (s : State) : Out := fp2 w mulF s

/-- Sum of a product and an addend, exact, the conditions of both joined; a quiet NaN addend does not hide an invalid product (R150, R156). -/
def fmaF (rm : Nat) (a b c : Fv) : Fv × Conds :=
  let p := mulF a b
  let r := addF rm p.1 c
  (r.1, p.2 ||| r.2)

/-- FFMA (R150): c takes .ftz and no modifier. -/
def execFfma (w : LaneW) (s : State) : Out :=
  let fm := fmtOf w.ty.toNat
  lane3 4 w (fun a b c => roundRes w (fmaF (mdRm w) (decodeF fm (modA fm (mdFtz w) w a)) (decodeF fm (modB fm (mdFtz w) w b))
    (decodeF fm (flushIn fm (mdFtz w) c.toNat)))) s

/-- FMIN and FMAX. -/
def fpMinMax (isMax : Bool) (w : LaneW) : State → Out :=
  let fm := fmtOf w.ty.toNat
  lane2 4 w fun a b => fpRes w.ty.toNat (minMaxF fm isMax (w.md.getLsbD 0) (modA fm false w a) (modB fm false w b))

/-- FMIN (R151). -/
def execFmin (w : LaneW) (s : State) : Out := fpMinMax false w s
/-- FMAX (R151). -/
def execFmax (w : LaneW) (s : State) : Out := fpMinMax true w s

/-- A comparison (R152): the predicate and its conditions. -/
def fcmpF (cond : Nat) (a b : Fv) : Bool × Conds :=
  let nan := isNan a || isNan b
  let sig := isSig a || isSig b
  if 6 ≤ cond then ((cond == 6) == nan, if sig then cINV else 0)
  else if nan then (cond == 1, if sig || 2 ≤ cond then cINV else 0)
  else (relHolds cond (cmpF a b), 0)

/-- FCMP (R152). -/
def execFcmp (w : LaneW) (s : State) : Out := lane w (fun x => do
  laneRegs x [w.va, w.vb] []
  let a ← readV x w.va
  let b ← readB x w
  let fm := fmtOf w.ty.toNat
  perLaneK x 4 w.vd.toNat fun L =>
    fcmpF w.md.toNat (decodeF fm (modA fm false w (a L))) (decodeF fm (modB fm false w (b L)))) s

/-- The class of a pattern as a bit number (R153). -/
def classOf (f : Fmt) (v : Nat) : Nat :=
  match decodeF f v with
  | .nan sig => if sig then 8 else 9
  | .inf neg => if neg then 0 else 7
  | .fin neg m _ =>
    let k := if m = 0 then 4 else if isSubnormal f v then 5 else 6
    if neg then (if k = 4 then 3 else if k = 5 then 2 else 1) else k

/-- FCLASS (R153). -/
def execFclass (w : LaneW) (s : State) : Out :=
  let fm := fmtOf w.ty.toNat
  lane1 4 w (fun a => plain (BitVec.ofNat 32 (2 ^ classOf fm (modA fm false w a)))) s

/-- FRND (R154): rounding to an integral value raises no INX. -/
def execFrnd (w : LaneW) (s : State) : Out :=
  let fm := fmtOf w.ty.toNat
  lane1 4 w (fun a =>
    let v := modA fm (mdFtz w) w a
    match decodeF fm v with
    | .nan sig => fpRes w.ty.toNat (fm.nanBits, if sig then cINV else 0)
    | .inf _ => fpRes w.ty.toNat (v, 0)
    | .fin neg m e =>
      if 0 ≤ e then fpRes w.ty.toNat (v, 0)
      else fpRes w.ty.toNat ((encodeF fm 0 false false (.fin neg (toIntF (mdRm w) neg m e).1.natAbs 0)).1, 0)) s

/-- FSCALE (R155): b is read as i32. -/
def execFscale (w : LaneW) (s : State) : Out :=
  let fm := fmtOf w.ty.toNat
  lane2 4 w (fun a b =>
    match decodeF fm (modA fm (mdFtz w) w a) with
    | .nan sig => fpRes w.ty.toNat (fm.nanBits, if sig then cINV else 0)
    | v => roundRes w (scaleF v b.toInt, 0)) s

/-- The half of a packed pair (R156). -/
def half (i : Nat) (v : W32) : W32 := if i = 0 then v &&& 0xFFFF else v >>> 16

/-- FDOT2 (R156): one rounding of the exact sum; a and b are pairs, c and the result f32. -/
def execFdot2 (w : LaneW) (s : State) : Out :=
  let fm := fmtOf w.ty.toNat
  let z := mdFtz w
  lane3 5 w (fun a b c =>
    let p := fun i => mulF (decodeF fm (modA fm z w (half i a))) (decodeF fm (modB fm z w (half i b)))
    let cv := decodeF f32 (flushIn f32 z c.toNat)
    let r := dotSum (mdRm w) [(p 0).1, (p 1).1, cv]
    let e := encodeF f32 (mdRm w) false z r.1
    (BitVec.ofNat 32 e.1, e.2 ||| r.2 ||| (p 0).2 ||| (p 1).2)) s

/-! ### Conversion -/

/-- CVT of one value (R25, R27, R158). (DEDUCED, log entry 21) -/
def cvtOne (st dt rm : Nat) (ftz ovf : Bool) (a : W32) : W32 × Conds :=
  let fs := fmtOf st
  let fd := fmtOf dt
  if st ≤ 4 then
    let v := decodeF fs (flushIn fs ftz a.toNat)
    if dt ≤ 4 then
      let keep := dt == 3 || dt == 4
      let r := encodeF fd rm ovf (ftz && !keep) v
      fpRes dt r
    else
      let r := floatToInt rm (8 * tyBytes dt) (tySigned dt) v
      (intRes dt r.1, r.2)
  else if dt ≤ 4 then fpRes dt (encodeF fd rm ovf false (ofInt (tyInt st a)))
  else plain (intRes dt (tyInt st a))

/-- CVT (R158). -/
def execCvt (w : LaneW) (s : State) : Out :=
  lane1 4 w (cvtOne (w.aux.extractLsb' 0 4).toNat w.ty.toNat (mdRm w) (mdFtz w) (mdOvf w)) s

/-- A second destination in the lanes of Active (R139), with vd's conditions already counted. -/
def secondDest (x : LaneIn) (lat : Nat) (ve : BitVec 10) (f : Nat → W32) : M Unit :=
  shortResult x lat (destWrites ve x.active f) []

/-- The register checks of an instruction with a companion register (R159). -/
def withVe (x : LaneIn) (srcs : List (BitVec 10)) (vd ve : BitVec 10) : M Unit := do
  let b := (← me).budget
  let out := fun (r : BitVec 10) => b ≤ r.toNat && r.toNat < 960
  if out ve then trapM 0x03
  laneRegs x srcs [vd]
  veCheck ve vd

/-- CVTEF (R29, R159). -/
def execCvtef (w : LaneW) (s : State) : Out := lane w (fun x => do
  withVe x [w.va] w.vd w.ve
  let a ← readV x w.va
  let e ← readV x w.ve
  roomFor w.vd x.active
  let f := fmtOf w.ty.toNat
  let r := fun L => errFeedback f (mdOvf w) (a L).toNat (e L).toNat
  perLane x 4 w.vd fun L => (extTy w.ty.toNat (r L).1, (r L).2.2)
  secondDest x 4 w.ve fun L => BitVec.ofNat 32 (r L).2.1) s

/-- The groups of 32 lanes that have an Active lane (R160). -/
def q4Groups (active : W64) : List Nat := [0, 1].filter fun g => active.extractLsb' (32 * g) 32 != 0

/-- PACKQ4 (R33, R160). vd = q4 to q7 takes the word of the lowest lane 32g that it writes, and vd = lstat is written in the lanes of the block words, Active or not (DESIGN CHOICE, log entry 65). -/
def execPackq4 (w : LaneW) (s : State) : Out := lane w (fun x => do
  withVe x [w.va, w.vb] w.vd w.ve
  let a ← readV x w.va
  let gs := q4Groups x.active
  let bases ← readV { x with active := maskOf fun L => gs.contains (L / 32) && L % 32 == 0 } w.vb
  let e ← readV x w.ve
  if gs.any fun g => !normal32 (bases (32 * g)).toNat then badOperand
  let inp := fun L => if x.active.getLsbD L then (add32 (a L).toNat (e L).toNat).1 else 0
  let encs := gs.map fun g => (g, q4Encode ((List.range 32).map fun i => inp (32 * g + i)) (bases (32 * g)).toNat)
  let heads : W64 := maskOf fun L => gs.contains (L / 32) && L % 32 < 5
  roomFor w.vd heads
  let word := fun L => match mget? encs (L / 32) with
    | some r => BitVec.ofNat 32 (r.blk / 2 ^ (32 * (L % 32)))
    | none => 0
  shortResult x 6 (destWrites w.vd heads word) ((lanesOf x.active).filterMap fun L =>
    (mget? encs (L / 32)).map fun r => { lane := L, bits := r.conds.getD (L % 32) 0 })
  secondDest x 6 w.ve fun L => match mget? encs (L / 32) with
    | some r => BitVec.ofNat 32 (if r.bad then 0 else q4Residue (inp L) (r.vals.getD (L % 32) (.nan false)))
    | none => 0) s

/-- UNPACKQ4 (R31, R32, R161). -/
def execUnpackq4 (w : LaneW) (s : State) : Out := lane w (fun x => do
  laneRegs x [w.va, w.vb] [w.vd]
  let gs := q4Groups x.active
  let a ← readV { x with active := maskOf fun L => gs.contains (L / 32) && L % 32 < 5 } w.va
  let b ← readB { x with active := maskOf fun L => gs.contains (L / 32) && L % 32 == 0 } w
  if gs.any fun g => !normal32 (b (32 * g)).toNat then badOperand
  let decs := gs.map fun g =>
    (g, q4Decode ((List.range 5).foldl (fun v j => v + (a (32 * g + j)).toNat * 2 ^ (32 * j)) 0 % 2 ^ 144)
      (decodeF f32 (b (32 * g)).toNat))
  let fm := fmtOf w.ty.toNat
  perLane x 6 w.vd fun L => match mget? decs (L / 32) with
    | none => (0, 0)
    | some d =>
      if d.bad then (extTy w.ty.toNat fm.nanBits, cQMAL)
      else fpRes w.ty.toNat (encodeF fm 0 false false (d.vals.getD (L % 32) (.nan false)))) s

end Sys2Proof.Machine
end

