-- ==== Sys2Proof/Machine/Sfu.lean ====
section
/-! DEFINITION. The special-function unit (R173 to R176). Functions that the spec bounds without fixing are a free value inside the bound. -/

namespace Sys2Proof.Machine

/-! ### Reference values, as dyadic numbers far finer than the bounds -/

/-- The integer square root, bit by bit from bit n down: the largest r with r * r ≤ v, for v below 2^(2n). -/
def isqrtFrom (v : Nat) : Nat → Nat → Nat
  | 0, r => r
  | n + 1, r =>
    let t := r + 2 ^ n
    isqrtFrom v n (if t * t ≤ v then t else r)

/-- The integer square root. -/
def isqrt (v : Nat) : Nat := isqrtFrom v (bitLen v / 2 + 1) 0

/-- A series of n terms in fixed point with p fraction bits: each term is the one before × x ÷ (k × (k + step − 1)), k rising by step; neg alternates signs. -/
def series (p x step : Nat) (neg : Bool) : Nat → Nat → Nat → Int → Int
  | 0, _, _, acc => acc
  | n + 1, k, t, acc =>
    let t' := t * x / 2 ^ p / (if step = 1 then k else k * (k + 1))
    let acc' := acc + (if neg && ((k - 1) / step + 1) % 2 == 1 then -(t' : Int) else t')
    series p x step neg n (k + step) t' acc'

/-- ln 2 and log2 e with 192 fraction bits, 2π with 256. -/
def ln2Fix : Nat := 0xb17217f7d1cf79abc9e3b39803f2f6af40f343267298b62d
def log2eFix : Nat := 0x171547652b82fe1777d0ffda0d23a7d11d6aef551bad2b4b1
def twoPiFix : Nat := 0x6487ed5110b4611a62633145c06e0e68948127044533e63a0105df531d89cd912

/-- 2^f for f in [0, 1) with 192 fraction bits. -/
def exp2Fix (f : Nat) : Nat := (series 192 (f * ln2Fix / 2 ^ 192) 1 false 50 1 (2 ^ 192) (2 ^ 192)).toNat

/-- A finite value scaled to p fraction bits, rounded down in magnitude. -/
def fixOf (p m : Nat) (e : Int) : Nat :=
  let sh := e + p
  if 0 ≤ sh then m * 2 ^ sh.toNat else m / 2 ^ (-sh).toNat

/-- 2^a for a finite a: the exponent clamped where every result is decided. -/
def exp2Ref (neg : Bool) (m : Nat) (e : Int) : Fv :=
  let x := clampInt (-(300 * 2 ^ 192)) (300 * 2 ^ 192) (let v : Int := fixOf 192 m e; if neg then -v else v)
  let n := x / 2 ^ 192
  .fin false (exp2Fix (x - n * 2 ^ 192).toNat) (n - 192)

/-- Fraction bits of log2 y for y in [1, 2) with 192 fraction bits, n of them. -/
def log2Bits : Nat → Nat → Nat → Nat
  | 0, _, r => r
  | n + 1, y, r =>
    let z := y * y / 2 ^ 192
    if 2 ^ 193 ≤ z then log2Bits n (z / 2) (2 * r + 1) else log2Bits n z (2 * r)

/-- log2 of m × 2^e, m not 0. -/
def log2Ref (m : Nat) (e : Int) : Fv :=
  let k := bitLen m - 1
  let f := log2Bits 80 (m * 2 ^ (192 - k)) 0
  let v : Int := (e + k) * 2 ^ 80 + f
  .fin (decide (v < 0)) v.natAbs (-80)

/-- 1 / √(m × 2^e), m not 0. -/
def rsqRef (m : Nat) (e : Int) : Fv :=
  let (m, e) := if e % 2 = 0 then (m, e) else (2 * m, e - 1)
  .fin false (isqrt (2 ^ 240 / m)) (-120 - e / 2)

/-- sin or cos of m × 2^e (sign apart), after an exact reduction. -/
def sinCosRef (isCos neg : Bool) (m : Nat) (e : Int) : Fv :=
  let r := fixOf 256 m e % twoPiFix
  let v : Int :=
    if isCos then series 256 (r * r / 2 ^ 256) 2 true 30 1 (2 ^ 256) (2 ^ 256)
    else series 256 (r * r / 2 ^ 256) 2 true 30 2 r r
  let v := if neg && !isCos then -v else v
  .fin (decide (v < 0)) v.natAbs (-256)

/-- tanh of m × 2^e with m × 2^e below 9.1. -/
def tanhRef (neg : Bool) (m : Nat) (e : Int) : Fv :=
  let y := 2 * fixOf 192 m e * log2eFix / 2 ^ 192
  let n := y / 2 ^ 192
  let ex := exp2Fix (y % 2 ^ 192) * 2 ^ n
  .fin neg ((ex - 2 ^ 192) * 2 ^ 192 / (ex + 2 ^ 192)) (-192)

/-! ### The bounds -/

/-- Whether |c − v| ≤ 2^k for finite data. -/
def within (c v : Fv) (k : Int) : Bool :=
  match c, v with
  | .fin nc mc ec, .fin nv mv ev =>
    let (d, q) := exactSum nc mc ec (!nv) mv ev
    let q' := if q < k then q else k
    decide (d.natAbs * 2 ^ (q - q').toNat ≤ 2 ^ (k - q').toNat)
  | _, _ => false

/-- The exponent of one unit in the last place of a value in a format. -/
def ulpOf (f : Fmt) (v : Fv) : Int :=
  match v with
  | .fin _ m e =>
    let top : Int := e + bitLen m - 1
    let emin : Int := 1 - f.bias
    (if top < emin then emin else top) - f.fbits
  | _ => 0

/-- The bits that the part delivers for a reference value v under bound 2^k (none: one unit in the last place): its own where they meet the bound, for f16 its own rounded, otherwise the nearest. (DESIGN CHOICE, log entry 3) -/
def deliver (f : Fmt) (fn : Nat) (x : W32) (v : Fv) (k : Option Int) (ftz : Bool) : Nat × Conds :=
  let c := decodeF f32 (Config.sfuValue (if f.fbits = 10 then fn + 16 else fn) x).toNat
  let ok32 := within c v (k.getD (ulpOf f32 v))
  let own := encodeF f 0 false false c
  let near := encodeF f 0 false false v
  let met := ok32 && (f.fbits != 10 || within (decodeF f own.1) v (ulpOf f v))
  let r := if met then (own.1, 0) else near
  flushOut f ftz (r.1, r.2 ||| cINX ||| (if isSubnormal f r.1 || r.1 % f.signBit true = 0 then cUNF else 0))

/-! ### The functions -/

/-- Whether a value is an integer, and which. -/
def asInt (neg : Bool) (m : Nat) (e : Int) : Option Int :=
  let (m, e) := tame m e
  let r := roundAt 1 neg m e 0
  if r.2 then none else some (if neg then -(r.1 : Int) else r.1)

/-- The exponent of a power of two. -/
def asPow2 (m : Nat) (e : Int) : Option Int := if 2 ^ (bitLen m - 1) = m then some (e + bitLen m - 1) else none

/-- Reciprocal, correctly rounded (R174). -/
def rcpF (f : Fmt) (rm : Nat) (ftz neg : Bool) (m : Nat) (e : Int) : Nat × Conds :=
  let (k, ke) := quotSticky 1 m (bitLen m + 40)
  encodeF f rm false ftz (.fin neg k (ke - e))

/-- Square root, correctly rounded (R174). -/
def sqrtF (f : Fmt) (rm : Nat) (ftz : Bool) (m : Nat) (e : Int) : Nat × Conds :=
  let (m, e) := if e % 2 = 0 then (m, e) else (2 * m, e - 1)
  let v := m * 2 ^ 80
  let r := isqrt v
  encodeF f rm false ftz (.fin false (2 * r + (if r * r = v then 0 else 1)) (e / 2 - 41))

/-- One SFU result (R174 to R176): op as the low three bits of the opcode. -/
def sfuF (op : Nat) (f : Fmt) (rm : Nat) (ftz : Bool) (a : Nat) : Nat × Conds :=
  let x : W32 := BitVec.ofNat 32 (encodeF f32 0 false false (decodeF f a)).1
  let nanI : Nat × Conds := (f.nanBits, cINV)
  let sg := f.signBit
  let one := (encodeF f 0 false false (.fin false 1 0)).1
  match decodeF f a with
  | .nan sig => (f.nanBits, if sig then cINV else 0)
  | .inf neg =>
    match op with
    | 0 => if neg then (0, 0) else (f.infBits, 0)
    | 1 => if neg then nanI else (f.infBits, 0)
    | 2 => (sg neg, 0)
    | 3 => if neg then nanI else (0, 0)
    | 4 => if neg then nanI else (f.infBits, 0)
    | 7 => (sg neg + one, 0)
    | _ => nanI
  | .fin neg m e =>
    if m = 0 then
      match op with
      | 0 => (one, 0)
      | 1 => (sg true + f.infBits, cDZ)
      | 2 => (sg neg + f.infBits, cDZ)
      | 3 => (sg neg + f.infBits, cDZ)
      | 6 => (one, 0)
      | _ => (sg neg, 0)
    else match op with
      | 0 =>
        match asInt neg m e with
        | some k => encodeF f 0 false ftz (.fin false 1 (clampInt (-300) 300 k))
        | none => deliver f 0 x (exp2Ref neg m e) none ftz
      | 1 =>
        if neg then nanI
        else match asPow2 m e with
          | some k => encodeF f 0 false ftz (ofInt k)
          | none =>
            let near1 := decide (-1 ≤ e + bitLen m - 1) && decide (e + (bitLen m : Int) - 1 ≤ 0)
            deliver f 1 x (log2Ref m e) (if near1 then some (-22) else none) ftz
      | 2 => rcpF f rm ftz neg m e
      | 3 =>
        if neg then nanI
        else match asPow2 m e with
          | some k => if k % 2 = 0 then encodeF f 0 false ftz (.fin false 1 (-(k / 2))) else deliver f 3 x (rsqRef m e) none ftz
          | none => deliver f 3 x (rsqRef m e) none ftz
      | 4 => if neg then nanI else sqrtF f rm ftz m e
      | 5 => deliver f 5 x (sinCosRef false neg m e) (some (-21)) ftz
      | 6 => deliver f 6 x (sinCosRef true neg m e) (some (-21)) ftz
      | _ =>
        if cmpF (.fin false (10 * m) e) (.fin false 91 0) != .lt then
          (sg neg + one, cINX)
        else deliver f 7 x (tanhRef neg m e) (some (-22)) ftz

/-! ### Issue and completion -/

/-- An SFU instruction issues (R173): it takes an entry of the strand's queue of 16; its values are those of its issue. -/
def sfu (op : Nat) (lop : LaneOp) (w : LaneW) : State → Out := lane w fun x => do
  let fl ← longFlag x w
  laneRegs x [w.va] [w.vd]
  waitUnless (decide (((← me).longs.filter fun l => l.kind == .sfu).length < 16))
  let a ← readV x w.va
  roomFor w.vd x.active
  let f := fmtOf w.ty.toNat
  let rs := (lanesOf x.active).map fun L =>
    (L, fpRes w.ty.toNat (sfuF op f (mdRm w) (mdFtz w) (modA f (mdFtz w) w (a L))))
  let look := fun L => (mget? rs L).elim (0 : W32) (·.1)
  issueLong x w lop .sfu fl 20 {
    writes := destWrites w.vd x.active look
    conds := (rs.filter fun r => r.2.2 != 0).map fun r => { lane := r.1, bits := r.2.2 } }

/-- EXP2 (R174). -/
def execExp2 (w : LaneW) (s : State) : Out := sfu 0 .exp2 w s
/-- LOG2 (R174). -/
def execLog2 (w : LaneW) (s : State) : Out := sfu 1 .log2 w s
/-- RCP (R174). -/
def execRcp (w : LaneW) (s : State) : Out := sfu 2 .rcp w s
/-- RSQ (R174). -/
def execRsq (w : LaneW) (s : State) : Out := sfu 3 .rsq w s
/-- SQRT (R174). -/
def execSqrt (w : LaneW) (s : State) : Out := sfu 4 .sqrt w s
/-- SIN (R174). -/
def execSin (w : LaneW) (s : State) : Out := sfu 5 .sin w s
/-- COS (R174). -/
def execCos (w : LaneW) (s : State) : Out := sfu 6 .cos w s
/-- TANH (R174). -/
def execTanh (w : LaneW) (s : State) : Out := sfu 7 .tanh w s

/-- A long instruction of a kind completes with the results of its issue (R54, R148). -/
def State.completeLong (s : State) (sid idx : Nat) (k : LongKind) : State :=
  match (s.strand sid).longs[idx]? with
  | some l => if l.kind = k then s.finishLong sid idx l.writes l.conds l.held 0 else s
  | none => s

/-- SFU_COMPLETE (R173): the oldest SFU instruction of strand ev.who completes. -/
def execSfuComplete (s : State) : Out :=
  match (s.strand s.ev.who).longs.findIdx? fun l => l.kind == .sfu with
  | some i => .next (s.completeLong s.ev.who i .sfu)
  | none => .next s

end Sys2Proof.Machine
end

