-- ==== Sys2Proof/Machine/RankNet.lean ====
section
/-! DEFINITION. The rank network of a core as its lane streams see it (R322, R326, R337, R339): the operations in progress and the bytes that each one touches. -/

namespace Sys2Proof.Machine

/-- A range of bytes that an operation under way touches: the core of an operand store, or a number of an address space of its own; first offset, offset past the last, whether it writes. -/
structure Foot where
  core : Nat
  lo : Nat
  hi : Nat
  write : Bool
  deriving DecidableEq, Repr

/-- Whether two ranges overlap (R92). -/
def Foot.overlaps (a b : Foot) : Bool := a.core == b.core && decide (a.lo < b.hi) && decide (b.lo < a.hi)

/-- Whether two ranges overlap and one of them is written (R339). -/
def Foot.meets (a b : Foot) : Bool := a.overlaps b && (a.write || b.write)

/-- The space that a rank offset counts from: O, the own visible exchange area, the shadow area of core N (R326). -/
inductive RkSpace where
  | o
  | xin
  | xout (n : Nat)
  deriving DecidableEq, Repr

/-- Where a space lies now: core, place of offset 0, length; none when core N holds no team of the cluster set (R196, R326). -/
def State.rkWindow (s : State) (sid : Nat) (p : RkSpace) : Option (Nat × Nat × Nat) :=
  let st := s.strand sid
  let t := s.teamOf sid
  match p with
  | .o => some (coreOf sid, st.segs.o.base.toNat, st.segs.o.len.toNat)
  | .xin => some (coreOf sid, t.xOff false 0, st.segs.x.len.toNat)
  | .xout n => (s.partner t n).map fun q => (q.2.core, q.2.xOff true 0, q.2.blk.window)

/-- Fields of layouts A and B (R325). -/
def rkC (w : LaneW) : Nat := (w.aux.extractLsb' 0 8).toNat + 1
def rkSrc (w : LaneW) : RkSpace := if w.aux.getLsbD 12 then .xin else .o
def rkDst (w : LaneW) : RkSpace := if w.aux.getLsbD 9 then .xout (w.aux.extractLsb' 10 2).toNat else .o
def rkPairs (w : LaneW) : Bool := w.aux.getLsbD 13
def rkNz (w : LaneW) : Bool := w.aux.getLsbD 8
def rkAcc (w : LaneW) : Bool := w.aux.getLsbD 11
def rkTs (w : LaneW) : Bool := w.aux.getLsbD 10
def rkTok (w : LaneW) : Bool := w.aux.getLsbD 8

/-- The table slot that an instruction names (R325). -/
def rkSlot (op : LaneOp) (w : LaneW) : Option Nat :=
  match op with
  | .rktab => some (w.aux.extractLsb' 0 2).toNat
  | .rkrec => some (w.aux.extractLsb' 8 2).toNat
  | _ => none

/-- Size of an entry that an instruction writes: a pair or a token (R326). -/
def rkEntry (op : LaneOp) (w : LaneW) : Nat :=
  match op with
  | .rkmrg => if rkTok w then 2 else 8
  | _ => if rkPairs w then 8 else 2

/-- A range of a space as bytes of a store, cut at the space's length. -/
def State.rkRange (s : State) (sid : Nat) (p : RkSpace) (off n : Nat) (write : Bool) : List Foot :=
  match s.rkWindow sid p with
  | some (core, base, len) => [{ core := core, lo := base + off, hi := base + Nat.min (off + n) len, write := write }]
  | none => []

/-- The bytes that a rank operation may touch (R326, R329, R331, R333, R334). -/
def State.rankFoot (s : State) (sid : Nat) (l : LongOp) : List Foot :=
  match l.rank with
  | none => []
  | some r =>
    let b := tyBytes l.w.ty.toNat
    match l.op with
    | .rkenc => s.rkRange sid (rkSrc l.w) r.src (r.n * b) false ++ s.rkRange sid (rkDst l.w) r.dst ((rkC l.w + 1) * rkEntry .rkenc l.w) true
    | .rkrec => s.rkRange sid (rkSrc l.w) r.src 514 false ++ s.rkRange sid .o r.dst (r.n * b) true
    | .rkmrg => s.rkRange sid .o r.src 16384 false ++ s.rkRange sid .o r.n 16384 false
        ++ s.rkRange sid .o r.dst ((rkC l.w + 1) * rkEntry .rkmrg l.w) true
    | .rktab => s.rkRange sid .o r.src 512 false
    | _ => []

/-- The rank operations in progress on a core: strand and operation (R322). -/
def State.rankOps (s : State) (core : Nat) : List (Nat × LongOp) :=
  (s.strands.filter fun p => coreOf p.1 == core).flatMap fun p => (p.2.longs.filter fun l => l.kind == .rank).map fun l => (p.1, l)

/-- Whether an earlier operation of the core comes before an operation (R339, R340): regions that overlap, one table slot, or two TOPKs of one strand on the same registers. (DEDUCED, log entry 36) -/
def State.rankHeld (s : State) (sid : Nat) (l : LongOp) : Bool :=
  (s.rankOps (coreOf sid)).any fun p =>
    decide (p.2.tag < l.tag)
    && (((s.rankFoot p.1 p.2).any fun a => (s.rankFoot sid l).any fun b => a.meets b)
      || (p.2.rank.isSome && (rkSlot p.2.op p.2.w).isSome && rkSlot p.2.op p.2.w == rkSlot l.op l.w)
      || (p.1 == sid && p.2.op == .topk && l.op == .topk && p.2.w.vd == l.w.vd && p.2.w.ve == l.w.ve))

/-! ### The order of the accesses of one side (R92, R94, R194, R337) -/

/-- The segment code in a memory instruction's aux (R192). -/
def auxSeg (w : LaneW) : Nat := (w.aux.extractLsb' 13 3).toNat

/-- The bytes of one lane's access (R92): in memory, the virtual addresses through its segment, FLUSH the whole line of its byte; in an operand store, where its place lies now. -/
def State.placeFoot (s : State) (l : LongOp) (a : LaneAcc) (p : LanePlace) : Foot :=
  let wr := a.kind != .load
  match s.settle p.place with
  | .os core off => { core := core, lo := off, hi := off + a.n, write := wr }
  | .win t sh x => { core := 2 ^ 42 + 2 * t + (if sh then 1 else 0), lo := x, hi := x + a.n, write := wr }
  | .mem _ _ _ =>
    let va := p.fa.toNat
    if a.kind = .flush then { core := 2 ^ 40 + auxSeg l.w, lo := va / 128 * 128, hi := va / 128 * 128 + 128, write := true }
    else { core := 2 ^ 40 + auxSeg l.w, lo := va, hi := va + a.n, write := wr }

/-- The bytes that a long instruction is still to touch (R92): its lanes' accesses, its messages to partner cores, its rank operation. -/
def State.accFoot (s : State) (sid : Nat) (l : LongOp) : List Foot :=
  (match l.acc with
    | some a => a.todo.map (s.placeFoot l a)
    | none => [])
  ++ (s.clusterMsgs.filter fun (m : ClusterMsg) => m.sid == sid && m.tag == l.tag).flatMap (fun m =>
    let t := s.team m.team
    m.ops.map fun p => { core := t.core, lo := t.xOff false p.2.off, hi := t.xOff false p.2.off + 4, write := true })
  ++ s.rankFoot sid l

/-- The lines of memory of the accesses that a long instruction has still to make. -/
def LongOp.lines (l : LongOp) : List Nat :=
  (l.acc.elim [] (·.todo)).filterMap fun p => match p.place with
    | .mem pa _ false => some (pa / 128)
    | _ => none

/-- Whether an instruction is an atomic operation at home slices (R92). -/
def LongOp.atHome (l : LongOp) : Bool := (l.op == .atom || l.op == .red) && auxSeg l.w == 0

/-- The team that an instruction's messages go to (R256). -/
def LongOp.msgTeam (l : LongOp) : Option Nat :=
  match l.acc with
  | some { kind := .message _ t, .. } => some t
  | _ => none

/-- Whether an earlier long instruction of the strand holds an instruction's accesses (R92, R194, R256): on its side, an acquire that is still to be performed, any access before a release, an access to the same bytes, an atomic operation at a home slice before an access to its line; on any side, a message to the same core that is still to be sent. (DEDUCED, log entry 27) -/
def State.accHeld (s : State) (sid : Nat) (l : LongOp) : Bool :=
  let rel := (l.acc.bind (·.rel)).isSome
  (s.strand sid).longs.any fun o =>
    (o.before l && (o.acq.isSome || (rel && (o.kind == .mem || o.kind == .rank))
      || ((s.accFoot sid o).any fun a => (s.accFoot sid l).any fun b => a.overlaps b)
      || (o.atHome && o.lines.any fun ln => l.lines.contains ln)))
    || (decide (o.tag < l.tag) && l.msgTeam.isSome && o.msgTeam == l.msgTeam && (o.acc.elim false fun a => a.todo != []))

end Sys2Proof.Machine
end

