-- ==== Sys2Proof/Machine/ScalarCtl.lean ====
section
/-! DEFINITION. Scalar control transfer, the lane stream seen from the scalar side, flags, fences (R93, R95, R116 to R121). -/

namespace Sys2Proof.Machine

/-- The conditions of B.cc (R48). -/
def branchTaken (c : Nat) (x y : W64) : Bool :=
  match c with
  | 0 => x == y
  | 1 => x != y
  | 2 => x.slt y
  | 3 => y.sle x
  | 4 => x.ult y
  | _ => y.ule x

/-- PC plus a word offset (R48, R116). -/
def relTarget (pc : W64) (n : Nat) (o : BitVec n) : W64 := pc + o.signExtend 64 <<< 2

/-- B_CC (R116). -/
def execBcc (a b : BitVec 6) (c : BitVec 3) (o : BitVec 11) (s : State) : Out := scalar (do
  portsOk [a, b] []
  let x ← readSrc a
  let y ← readSrc b
  let pc := (← me).pc
  return { pc := if branchTaken c.toNat x y then relTarget pc 11 o else pc + 4 }) s

/-- J (R116). -/
def execJ (o : BitVec 26) (s : State) : Out := scalar (do
  return { pc := relTarget (← me).pc 26 o }) s

/-- JAL (R116): a63 := PC + 4. -/
def execJal (o : BitVec 26) (s : State) : Out := scalar (do
  let pc := (← me).pc
  writeDst 63 (pc + 4)
  return { pc := relTarget pc 26 o }) s

/-- JR (R116). -/
def execJr (a : BitVec 6) (s : State) : Out := scalar (do
  portsOk [a] []
  let x ← readSrc a
  return { pc := x }) s

/-- JALR (R116): the target is read before the link is written. -/
def execJalr (d a : BitVec 6) (s : State) : Out := scalar (do
  portsOk [a] [d]
  let x ← readSrc a
  let pc := (← me).pc
  writeDst d (pc + 4)
  return { pc := x }) s

/-- LOOP (R116): a := a − 1, and a branch while it is not 0. -/
def execLoop (a : BitVec 6) (o : BitVec 11) (s : State) : Out := scalar (do
  portsOk [a] [a]
  let x ← readSrc a
  let pc := (← me).pc
  writeDst a (x - 1)
  return { pc := if x - 1 != 0 then relTarget pc 11 o else pc + 4 }) s

/-- DISP (R59, R117, R200): queue a lane block, in the handler in the trap window. -/
def execDisp (d : BitVec 6) (i : BitVec 20) (s : State) : Out := scalar (do
  portsOk [d] []
  let x ← readSrc d
  let st ← me
  let win := st.csr.ih
  let c := st.laneCtx win
  if (if win then 4 else 16) ≤ c.dq.length then waitQ 8
  let u : W32 := x.setWidth 32 + i.setWidth 32
  modMe fun st => st.setLaneCtx win { st.laneCtx win with dq := (st.laneCtx win).dq ++ [u] }
  advance) s

/-- The wait of VGET outside a handler (R118), which SEGLD and WLTAKE make in a handler too (R124, R227). -/
def waitLaneIdle : M Unit := do
  let st ← me
  if st.blocksRun then waitQ 9 else waitUnless (st.longs == [])

/-- The results of the strand's lane instructions that are due land (R139). -/
def landNow : M Unit := do
  let s ← get
  modMe fun st => st.landTo (s.cycles (coreOf s.cur))

/-- VGET and VSET act at once in the handler; outside it they wait for an idle lane stream (R118). The results of its non-long instructions land in their own cycles (R139). (DEDUCED, log entry 17) -/
def waitLane : M Unit := do if (← me).csr.ih then pure () else waitLaneIdle

/-- The range check of the lane register that VGET and VSET name (R46, R64). -/
def laneRange (n : Nat) : M Unit := do
  let b := (← me).budget
  if b ≤ n && n < 960 then trapM 0x03

/-- The ports and laneid as the lane register that VGET and VSET name (R46, R118). -/
def laneNumber (n : Nat) (isSet : Bool) : M Unit := do
  if (960 ≤ n && n ≤ 967) || (isSet && n == 968) then trapM 0x05

/-- A lane number: a value of 64 or more raises the illegal-operand trap (R118). -/
def laneIndex (v : W64) : M Nat := if 64 ≤ v.toNat then badOperand else pure v.toNat

/-- VGET_V (R118). (DEDUCED, log entry 17) -/
def execVgetV (d a : BitVec 6) (n : BitVec 10) (s : State) : Out := scalar (do
  laneRange n.toNat
  portsOk [a] [d]
  laneNumber n.toNat false
  let x ← readSrc a
  let L ← laneIndex x
  waitLane
  landNow
  let st ← me
  let k := n.toNat
  let bad := k < 960 && st.vpois.contains (vKey k L)
  if bad then modMe fun st => { st with held := st.held ++ [{ code := 0x0D, tmask := BitVec.ofNat 64 (2 ^ L) }] }
  let v : W32 := if k = 968 then BitVec.ofNat 32 L else if k = 969 || bad then 0 else mget st.v (vKey k L) 0
  writeDst d (v.setWidth 64)
  advance) s

/-- VGET_K (R118). -/
def execVgetK (d a : BitVec 6) (n : BitVec 3) (s : State) : Out := scalar (do
  portsOk [a] [d]
  let x ← readSrc a
  let L ← laneIndex x
  waitLane
  landNow
  writeDst d (if (← me).pred n.toNat L then 1 else 0)
  advance) s

/-- VSET_V (R118, R145): zero discards, lstat keeps its defined bits. A trap-window instruction's write of the same cycle, and one that lands later, remains (R200). -/
def execVsetV (d a : BitVec 6) (n : BitVec 10) (s : State) : Out := scalar (do
  laneRange n.toNat
  portsOk [d, a] []
  laneNumber n.toNat true
  let v ← readSrc d
  let x ← readSrc a
  let L ← laneIndex x
  waitLane
  let k := n.toNat
  if k < 960 then modMe fun st => st.putLane (vKey k L) (v.setWidth 32)
  else if k = 970 then modMe fun st => st.putLane (lstatKey L) (v.setWidth 32 &&& 0x00FF07FF)
  landNow
  advance) s

/-- VSET_K (R118): a write of k0 is discarded. -/
def execVsetK (d a : BitVec 6) (n : BitVec 3) (s : State) : Out := scalar (do
  portsOk [d, a] []
  let v ← readSrc d
  let x ← readSrc a
  let L ← laneIndex x
  waitLane
  if n != 0 then modMe fun st => st.putLane (kKey n.toNat L) (if v.getLsbD 0 then 1 else 0)
  landNow
  advance) s

/-- A mask of the flags whose count in a copy is zero (R119). -/
def zeroFlags (m : NMap Nat) : W64 :=
  BitVec.ofNat 64 ((List.range 12).foldl (fun a i => if mget m i 0 = 0 then a + 2 ^ i else a) 0)

/-- QSTAT (R119). -/
def execQstat (d : BitVec 6) (sub : BitVec 4) (s : State) : Out := scalar (do
  portsOk [] [d]
  let st ← me
  let v := match sub.toNat with
    | 0 => st.qocc
    | 1 => zeroFlags st.flags
    | _ => if st.csr.ih then zeroFlags st.savedFlags else 0xFFF
  writeDst d v
  advance) s

/-- FWAIT (R93, R120): waits for a count of zero, then acts as an acquire of what the flag counted: at .pkg where it counted a stream program, a SCOPY, a collective or the flag form of WLQUIET; the acquires at .strand and .team of other operations perform no action (R99). (DEDUCED, log entry 10) -/
def execFwait (f : BitVec 4) (s : State) : Out := scalar (do
  let st ← me
  waitUnless (st.flag f.toNat == 0)
  if st.pkgFlags.contains f.toNat then
    acquireM 4
    modMe fun st => { st with pkgFlags := st.pkgFlags.filter (· != f.toNat) }
  advance) s

/-- Whether a reply of some kind is awaited. -/
def Strand.awaits (st : Strand) (p : ReplyKind → Bool) : Bool := st.replies.any fun r => p r.kind

/-- FENCE_ACQ (R95, R99 to R101). -/
def execFenceAcq (sc : BitVec 3) (s : State) : Out := scalar (do
  waitUnless (!(← me).awaits fun k => k == .load || k == .atomic)
  acquireM sc.toNat
  advance) s

/-- The next store is the release store of every fence since the last one (R95): the widest of their scopes counts. -/
def Strand.noteRel (st : Strand) (sc : BitVec 3) : Strand :=
  { st with relStore := match st.relStore with
      | none => some sc
      | some o => if o.toNat < sc.toNat then some sc else some o }

/-- Whether an atomic operation or a reduction of the strand is still to be acknowledged (R95, R197, R351): an AMOS of its scalar stream, an ATOM or a RED of its lane stream. -/
def Strand.atomicsOut (st : Strand) : Bool := (st.awaits fun k => k == .atomic) || st.longs.any fun l => l.op == .atom || l.op == .red

/-- FENCE_REL (R95): the next store is the fence's release store. -/
def execFenceRel (sc : BitVec 3) (s : State) : Out := scalar (do
  waitUnless (!(← me).atomicsOut)
  releaseM sc.toNat
  modMe fun st => st.noteRel sc
  advance) s

/-- FENCE_AR (R95). -/
def execFenceAr (sc : BitVec 3) (s : State) : Out := scalar (do
  waitUnless (!(← me).atomicsOut && !(← me).awaits fun k => k == .load)
  releaseM sc.toNat
  acquireM sc.toNat
  modMe fun st => st.noteRel sc
  advance) s

/-- FENCE_W (R93, R132): waits for the lane blocks dispatched earlier and for their accesses; in the handler for the trap window's blocks and the accesses that the paused stream had issued. -/
def execFenceW (s : State) : Out := scalar (do
  let st ← me
  waitBlocks (st.laneCtx st.csr.ih) (!(st.longs.any fun l => l.kind == .mem || l.kind == .rank))
  advance) s

end Sys2Proof.Machine
end

