-- ==== Sys2Proof/Machine/Worklist.lean ====
section
/-! DEFINITION. Work lists and quiescence (R195, R225 to R229): the compaction unit, WLTAKE, WLDONE, WLQUIET, the termination detector. -/

namespace Sys2Proof.Machine

/-- A list descriptor as its home slice holds it (R225). zeros: its zero fields are zero. -/
structure WlDesc where
  ring : Nat
  caplog : Nat
  group : Nat
  head : Nat
  resv : Nat
  tail : Nat
  drop : Nat
  zeros : Bool
  deriving DecidableEq, Repr

/-- Eight bytes at a home slice. -/
def State.slice8 (s : State) (pa : Nat) : Nat := (s.sliceNat pa 8).1

/-- Read a list descriptor. -/
def State.wlDesc (s : State) (pa : Nat) : WlDesc :=
  let w := s.slice8 (pa + 8)
  { ring := s.slice8 pa, caplog := w % 256, group := s.slice8 (pa + 0x10), head := s.slice8 (pa + 0x18)
    resv := s.slice8 (pa + 0x20), tail := s.slice8 (pa + 0x28), drop := s.slice8 (pa + 0x30)
    zeros := w / 256 == 0 && s.slice8 (pa + 0x38) == 0 }

/-- Whether a capacity and the zero fields are as R225 says. -/
def WlDesc.ok (d : WlDesc) : Bool := 4 ≤ d.caplog && d.caplog ≤ 24 && d.zeros

/-- The address of item i of a list (R225). -/
def WlDesc.slot (d : WlDesc) (i : Nat) : Nat := (d.ring + 4 * (i % 2 ^ d.caplog)) % 2 ^ 64

/-- The difference of two counters of 64 bits. -/
def sub64 (a b : Nat) : Nat := (a + 2 ^ 64 - b) % 2 ^ 64

/-- The die gives up its copy of a line before an atomic step at the home slice (R102); a replicated line stays (R357). -/
def State.toHome (s : State) (die pa pol : Nat) : State := if pol = polREPL then s else s.dcFlush die (pa / 128)

/-- Eight bytes written by an atomic step at the home slice, or at the sequencer for a replicated line (R102, R357): none while that is full (R356). -/
def State.home8 (s : State) (pa pol v : Nat) : Option State :=
  let m := byteMask (pa % 128) 8
  let d := lineData (pa % 128) 8 v
  if pol = polREPL then s.replStore (pa / 128) m d else some (s.sliceWrite (pa / 128) m d)

/-- The same as a step of the acting strand, which waits while the sequencer is full. -/
def home8M (pa pol v : Nat) : M Unit := do
  match (← get).home8 pa pol v with
  | none => waitM
  | some s => set s

/-! ### The termination detector -/

/-- Why a pass of the detector does not report: the group is not quiescent, or an access faulted or was denied (R87). -/
inductive Pass where
  | quiet
  | busy
  | park (p : Park)
  | lost (va : Nat)
  deriving DecidableEq, Repr

/-- A computation of the detector on the package: what it installs stays when it ends early (R86). -/
abbrev Det := ExceptT Pass (StateM State)

/-- The detector reads 8 bytes of a context through the Basin walker (R16, R87, R229). -/
def detRead (ctx va : Nat) : Det Nat := do
  match (← get).xlate 8 ctx va { r := true } .mem with
  | .error x => throw (.park (parkOf ctx va 8 0 x))
  | .ok r =>
    set r.s
    if !r.s.allowed ctx r.pa { r := true } then
      set (r.s.denyPa ctx r.pa 0)
      throw (.lost va)
    return r.s.slice8 r.pa

/-- Whether every list of a group is empty with nothing reserved (R229): lists from index i on, n of them. -/
def listsQuiet (ctx lists : Nat) : Nat → Nat → Det Bool
  | _, 0 => pure true
  | i, n + 1 => do
    let d ← detRead ctx ((lists + 8 * i) % 2 ^ 64)
    let h ← detRead ctx ((d + 0x18) % 2 ^ 64)
    let v ← detRead ctx ((d + 0x20) % 2 ^ 64)
    let t ← detRead ctx ((d + 0x28) % 2 ^ 64)
    if h = v && v = t then listsQuiet ctx lists (i + 1) n else return false

/-- The reads of one pass over a group (R229). A group with NLIST outside 1 to 4096 breaks R225 and is never reported. (DEDUCED, log entry 31) -/
def groupReads (ctx g : Nat) : Det Bool := do
  let prod ← detRead ctx g
  if prod != 0 then return false
  let lists ← detRead ctx ((g + 8) % 2 ^ 64)
  let w ← detRead ctx ((g + 0x10) % 2 ^ 64)
  let n := w % 2 ^ 32
  if n = 0 || 4096 < n then return false
  listsQuiet ctx lists 0 n

/-- One pass over a group (R229). (DEDUCED, log entry 31) -/
def State.groupPass (s : State) (ctx g : Nat) : Pass × State :=
  match (groupReads ctx g).run.run s with
  | (.ok true, s) => (.quiet, s)
  | (.ok false, s) => (.busy, s)
  | (.error p, s) => (p, s)

/-- The waits on a group. -/
def State.quietOn (s : State) (ctx g : Nat) : List QuietWait := s.quiets.filter fun q => q.ctx == ctx && q.group == g

/-- Take the waits on a group out. -/
def State.dropQuiet (s : State) (ctx g : Nat) : State :=
  { s with quiets := s.quiets.filter fun q => !(q.ctx == ctx && q.group == g) }

/-- Quiescence of a group is reported (R228, R229). -/
def State.reportQuiet (s : State) (ctx g : Nat) : State :=
  let ws := s.quietOn ctx g
  ws.foldl (fun s q =>
    if q.flag = 15 then { s with quietMet := s.quietMet ++ [(q.sid, g)] }
    else (s.decFlag q.sid q.flag.toNat q.saved).acquireAt (dieOf (coreOf q.sid)) ctx 4) (s.dropQuiet ctx g)

/-- The detector's access has been answered by Deliver, or denied (R87): every strand that waits on the group takes CODE 0x08; the flag form's flag falls, with no acquire. (DEDUCED, log entry 30) -/
def State.quietLost (s : State) (ctx g va : Nat) : State :=
  let ws := s.quietOn ctx g
  ws.foldl (fun s q =>
    let s := s.holdCause q.sid { code := 0x08, faddr := BitVec.ofNat 64 va }
    if q.flag = 15 then s else s.decFlag q.sid q.flag.toNat q.saved) (s.dropQuiet ctx g)

/-- The detector makes a pass over a group that a WLQUIET waits on (R229). (DEDUCED, log entry 30) -/
def State.detectorPass (s : State) (ctx g : Nat) : State :=
  match s.quietOn ctx g with
  | [] => s
  | w :: _ =>
    if w.park.isSome then s
    else match s.groupPass ctx g with
      | (.quiet, s) => s.reportQuiet ctx g
      | (.busy, s) => s
      | (.lost va, s) => s.quietLost ctx g va
      | (.park p, s) =>
        { s with quiets := s.quiets.map fun (q : QuietWait) => if q.ctx = ctx && q.group = g then { q with park := some p } else q }.raiseFault 8 0 0 p

/-- The groups that strands of a context wait on. -/
def State.quietGroups (s : State) (ctx : Nat) : List Nat := ((s.quiets.filter fun q => q.ctx == ctx).map (·.group)).eraseDups

/-- The passes that follow an append's commit, a take or a WLDONE (R229). -/
def State.quietScan (s : State) (ctx : Nat) : State := (s.quietGroups ctx).foldl (fun s g => s.detectorPass ctx g) s

/-- TERMINATION_PASS (R229): the detector's pass over the group at ev.addr of context ev.who, at least one a microsecond while a WLQUIET waits. -/
def execTerminationPass (s : State) : Out := .next (s.detectorPass s.ev.who s.ev.addr)

/-! ### WLTAKE, WLDONE, WLQUIET -/

/-- The place of a descriptor of 64 bytes at a G offset (R78, R225, R228). (DEDUCED, log entry 28) -/
def descPlace (o : Nat) (kind : Nat) : M (Nat × Nat) := do
  match ← scalarPlace 0 o 64 kind with
  | .mem pa pol _ => return (pa, pol)
  | _ => waitM

/-- Translate an address of the acting strand's context for a work-list step; the state keeps the translation. (DEDUCED, log entry 29) -/
def wlPlace (va : Nat) (need : Need) (kind : Nat) : M (Nat × Nat) := do
  match ← xlateMine va need kind 0 0 (BitVec.ofNat 64 va) with
  | .mem pa pol _ => return (pa, pol)
  | _ => waitM

/-- The places of a take (R64, R88, R227): those of its items, and with hold of the group's PROD; a denial of any goes before a translation fault. -/
def takePlaces (w : WlDesc) (cnt : Nat) (hold : Bool) : M (List Nat × Option (Nat × Nat)) := do
  let slots := (List.range cnt).map fun j => wlPlace (w.slot (w.head + j)) { r := true } 0
  let group := if hold && cnt != 0 then [wlPlace w.group { r := true, w := true } 2] else []
  trapFirst (fun _ => true) (slots ++ group)
  let ps ← slots.mapM id
  let gs ← group.mapM id
  return (ps.map (·.1), gs.head?)

/-- The items of a take in the lanes of register r (R227): zero discards, lstat keeps its defined bits; a poisoned item holds CODE 0x0D (R353). -/
def takeItems (r : Nat) (items : List (Nat × Bool)) (st : Strand) : Strand :=
  let put := fun (st : Strand) (p : (Nat × Bool) × Nat) =>
    let v := BitVec.ofNat 32 p.1.1
    if r < 960 then st.putLane (vKey r p.2) v
    else if r = 970 then st.putLane (lstatKey p.2) (v &&& 0x00FF07FF)
    else st
  let ps := items.zip (List.range items.length)
  let bad := ps.filter fun p => p.1.2
  let st := ps.foldl put st
  { st with held := st.held ++ poisonHeld (bad != []) 0 (maskOf fun L => bad.any fun p => p.2 == L) }

/-- WLTAKE (R227): every address is translated before the step, so that a fault leaves no effect (R88). (DEDUCED, log entry 29) -/
def execWltake (d a : BitVec 6) (h : BitVec 1) (n : BitVec 10) (s : State) : Out := scalar (do
  laneRange n.toNat
  portsOk [a] [d]
  laneNumber n.toNat true
  let o ← readSrc a
  dstReady d
  waitLaneIdle
  if ((← me).segs.g.base.toNat + o.toNat) % 64 != 0 then badOperand
  let (pa, pol) ← descPlace o.toNat 2
  let die ← myDie
  modify fun s => s.toHome die pa pol
  let w := (← get).wlDesc pa
  if !w.ok || w.ring % 4 != 0 || w.group % 64 != 0 then badRead (s.strand s.cur)
  else
    let cnt := Nat.min (sub64 w.tail w.head) 64
    let (slots, prod) ← takePlaces w cnt (h = 1)
    let items := slots.map ((← get).sliceNat · 4)
    home8M (pa + 0x18) pol (w.head + cnt)
    match prod with
    | some (ga, gp) =>
      modify fun s => s.toHome die ga gp
      home8M ga gp ((← get).slice8 ga + 1)
    | none => pure ()
    modMe (takeItems n.toNat items)
    landNow
    writeDst d (BitVec.ofNat 64 cnt)
    let ctx ← myCtx
    modify fun s => s.quietScan ctx
    advance) s

/-- WLDONE (R228). -/
def execWldone (a : BitVec 6) (s : State) : Out := scalar (do
  portsOk [a] []
  let o ← readSrc a
  let (pa, pol) ← descPlace o.toNat 2
  let die ← myDie
  modify fun s => s.toHome die pa pol
  let prod := (← get).slice8 pa
  if prod = 0 then badRead (s.strand s.cur)
  else
    home8M pa pol (prod - 1)
    let ctx ← myCtx
    modify fun s => s.quietScan ctx
    advance) s

/-- WLQUIET (R228): the stalling form waits until the detector has reported; the other counts its flag. Both make the detector pass over the group (R229). -/
def execWlquiet (a : BitVec 6) (f : BitVec 4) (s : State) : Out := scalar (do
  portsOk [a] []
  let o ← peekM (readSrc a)
  let ctx ← myCtx
  let st ← me
  let s ← get
  let g := (st.segs.g.base.toNat + o.toNat) % 2 ^ 64
  if f = 15 && s.quietMet.contains (s.cur, g) then
    let _ ← readSrc a
    modify fun s => { s with quietMet := s.quietMet.filter (· != (s.cur, g)) }
    acquireM 4
    advance
  else if f = 15 && s.quiets.any fun q => q.sid == s.cur && q.flag == 15 && q.group == g then waitM
  else
    let _ ← descPlace o.toNat 0
    if f != 15 then
      let _ ← readSrc a
      incFlagPkg f
    modify fun s => { s with
      quiets := (if f = 15 then s.quiets.filter fun q => !(q.sid == s.cur && q.flag == 15) else s.quiets)
        ++ [{ sid := s.cur, flag := f, ctx := ctx, group := g }] }
    modify fun s => s.detectorPass ctx g
    if f = 15 then return { pc := st.pc } else advance) s

/-! ### The compaction unit -/

/-- Change the append at a place. -/
def State.setAppend (s : State) (i : Nat) (a : Append) : State := { s with appends := setAt s.appends i a }

/-- The items of an append in some lanes are lost (R87): the strand takes CODE 0x08. (DEDUCED, log entry 41) -/
def State.loseItems (s : State) (a : Append) (ls : List Nat) (va : Nat) : State :=
  s.holdCause a.sid { code := 0x08, tmask := maskOf fun L => ls.contains L, faddr := BitVec.ofNat 64 va }

/-- COMPACTION_APPEND (R226): the compaction unit reserves the slots of the append at place ev.idx, in one atomic step at the home slice; items past the room are counted in DROP. -/
def execCompactionAppend (s : State) : Out :=
  match s.appends[s.ev.idx]? with
  | none => .next s
  | some a =>
    if a.reserved || a.park.isSome then .next s
    else
      let all := a.items.map (·.1)
      match s.xlate a.die a.ctx a.desc { w := true } .mem with
      | .error x =>
        let p := parkOf a.ctx a.desc 7 2 x
        .next ((s.setAppend s.ev.idx { a with park := some p }).raiseFault a.die a.die a.sid p)
      | .ok r =>
        if !r.s.allowed a.ctx r.pa { w := true } then
          let s := r.s.denyPa a.ctx r.pa 2
          .next ({ s with appends := dropAt s.appends s.ev.idx }.loseItems a all a.desc)
        else
          let s := r.s.toHome a.die r.pa r.pol
          let d := s.wlDesc r.pa
          let n := a.items.length
          if !d.ok then
            match s.home8 (r.pa + 0x30) r.pol (d.drop + n) with
            | none => .next s
            | some s => .next { s with appends := dropAt s.appends s.ev.idx }
          else
            let m := Nat.min n (2 ^ d.caplog - sub64 d.resv d.head)
            match s.home8 (r.pa + 0x20) r.pol (d.resv + m) with
            | none => .next s
            | some s1 =>
              match if m < n then s1.home8 (r.pa + 0x30) r.pol (d.drop + (n - m)) else some s1 with
              | none => .next s
              | some s1 =>
                .next (if m = 0 then { s1 with appends := dropAt s1.appends s1.ev.idx }
                  else s1.setAppend s1.ev.idx { a with reserved := true, first := d.resv, items := a.items.take m })

/-- An item with its slot: where it lands (none for a lost one), value, lane, virtual address. -/
structure PlacedItem where
  pa : Option Nat
  val : W32
  lane : Nat
  va : Nat
  deriving DecidableEq, Repr

/-- Translate the slots of an append's items: where each lands, none for a lost one; or the first that faults. -/
def State.placeItems (s : State) (a : Append) (d : WlDesc) : List ((Nat × W32) × Nat) → State × List PlacedItem × Option Park
  | [] => (s, [], none)
  | ((L, v), i) :: l =>
    let va := d.slot (a.first + i)
    if a.lost.contains L then
      let (s, ps, p) := s.placeItems a d l
      (s, { pa := none, val := v, lane := L, va := va } :: ps, p)
    else match s.xlate a.die a.ctx va { w := true } .mem with
      | .error x => (s, [], some { parkOf a.ctx va 7 1 x with tmask := BitVec.ofNat 64 (2 ^ L) })
      | .ok r =>
        if r.s.allowed a.ctx r.pa { w := true } then
          let (s, ps, p) := r.s.placeItems a d l
          (s, { pa := some r.pa, val := v, lane := L, va := va } :: ps, p)
        else
          let (s, ps, p) := (r.s.denyPa a.ctx r.pa 1).placeItems a d l
          (s, { pa := none, val := v, lane := L, va := va } :: ps, p)

/-- Write one placed item at its home slice. -/
def putItem (s : State) (p : PlacedItem) : State :=
  match p.pa with
  | some pa => s.sliceWrite (pa / 128) (byteMask (pa % 128) 4) (lineData (pa % 128) 4 p.val.toNat)
  | none => s

/-- TAIL_COMMIT (R226): the items of the reserved append at place ev.idx are written, and TAIL passes its slots, when every slot below has been committed. Where the access tables now deny the descriptor (R11, R382), the items are lost, and TAIL stays until they allow it. (DEDUCED, log entry 41) -/
def execTailCommit (s : State) : Out :=
  match s.appends[s.ev.idx]? with
  | none => .next s
  | some a =>
    if !a.reserved || a.park.isSome then .next s
    else match s.xlate a.die a.ctx a.desc { w := true } .mem with
      | .error x =>
        let p := parkOf a.ctx a.desc 7 2 x
        .next ((s.setAppend s.ev.idx { a with park := some p }).raiseFault a.die a.die a.sid p)
      | .ok r =>
        let all := a.items.map (·.1)
        if !r.s.allowed a.ctx r.pa { w := true } then
          if all.all a.lost.contains then .next s
          else
            let new := all.filter fun L => !a.lost.contains L
            .next (((r.s.denyPa a.ctx r.pa 2).setAppend s.ev.idx { a with lost := all }).loseItems a new a.desc)
        else
        let s := r.s.toHome a.die r.pa r.pol
        let d := s.wlDesc r.pa
        if d.tail != a.first then .next s
        else
          let (s1, ps, pk) := s.placeItems a d (a.items.zip (List.range a.items.length))
          match pk with
          | some p => .next ((s.setAppend s.ev.idx { a with park := some p }).raiseFault a.die a.die a.sid p)
          | none =>
            let s2 := ps.foldl putItem s1
            let denied := ps.filter fun p => p.pa.isNone && !a.lost.contains p.lane
            let s2 := match denied with
              | [] => s2
              | p :: _ => s2.loseItems a (denied.map fun (q : PlacedItem) => q.lane) p.va
            match ({ s2 with appends := dropAt s2.appends s.ev.idx } : State).home8 (r.pa + 0x28) r.pol (a.first + a.items.length) with
            | none => .next s
            | some s2 => .next (s2.quietScan a.ctx)

end Sys2Proof.Machine
end

