-- ==== Sys2Proof/Machine/LaneMem.lean ====
section
/-! DEFINITION. Lane memory instructions (R192 to R199, R244, R255 to R258): places of the lanes, loads, stores, atomics, FLUSH, WLAPPEND, and their completion. -/

namespace Sys2Proof.Machine

/-! ### Fields -/

/-- The fields of a memory instruction's aux (R192). -/
def auxRel (w : LaneW) : Bool := w.aux.getLsbD 12
def auxAcq (w : LaneW) : Bool := w.aux.getLsbD 11
def auxScope (w : LaneW) : Nat := (w.aux.extractLsb' 8 3).toNat
def auxOff8 (w : LaneW) : Int := (w.aux.extractLsb' 0 8).toInt
def auxOff6 (w : LaneW) : Int := (w.aux.extractLsb' 0 6).toInt
/-- Position N of a partner: of ATOM and RED, and of LDX and XST. -/
def auxN (w : LaneW) : Nat := (w.aux.extractLsb' 6 2).toNat
def mdN (w : LaneW) : Nat := (w.md.extractLsb' 2 2).toNat

/-- Where a lane's segment offset leads (R193): G, P, C or H; the team segment; the visible area of the own window; an area of a partner's window. -/
inductive MemSeg where
  | mem (seg : Nat)
  | team
  | own
  | partner (n : Nat) (shadow : Bool)
  deriving DecidableEq, Repr

/-! ### Checks (R64, R78, R79, R193) -/

/-- A trap for the lanes of the first failing check: TMASK and the lowest lane's address. -/
def laneTrap {α : Type} (code : Byte) (bad : List (Nat × W64)) (denied : List (Nat × Nat) := []) : M α :=
  throw (.trap { code := code, tmask := maskOf fun L => bad.any fun p => p.1 == L
                 faddr := (bad.headD (0, 0)).2 } denied)

/-- The virtual address of lane L's offset o in a segment (R78, R80), modulo 2^64. -/
def laneVa (d : Seg) (seg L : Nat) (o : Int) : W64 :=
  if seg = 1 then d.base + BitVec.ofInt 64 (o / 4 * 256 + 4 * L + o % 4) else d.base + BitVec.ofInt 64 o

/-- Whether lane L's access of n bytes at offset o passes the limit and alignment checks (R78). -/
def laneLimit (d : Seg) (seg L n : Nat) (o : Int) : Bool :=
  decide (0 ≤ o) && decide (o + n ≤ d.len.toNat) && decide (o % n = 0) && aligned (laneVa d seg L o).toNat n

/-- Places in G, P, C or H (R86 to R88, R193): limits and alignment, the access tables, then translation, each over all lanes; while the link to the host is down an H access is denied before it (R361); every lane that fails the first failing check is in TMASK, and every page that faulted gets its record. -/
def memLanes (seg n kind : Nat) (need : Need) (offs : List (Nat × Int)) : M (List LanePlace) := do
  let st ← me
  let d := st.segs.get seg
  let fa := fun (p : Nat × Int) => (p.1, laneVa d seg p.1 p.2)
  let bad := offs.filter fun p => (kind != 0 && seg == 2) || !laneLimit d seg p.1 n p.2
  if bad != [] then laneTrap 0x06 (bad.map fa)
  let ctx ← myCtx
  let die ← myDie
  let isHost := seg == 3
  if isHost && !(← get).cacheUp then laneTrap 0x07 (offs.map fa)
  let rs ← offs.mapM fun p => do
    let va := laneVa d seg p.1 p.2
    let s ← get
    match s.xlate (segUnit seg die) ctx va.toNat need (if isHost then .host else .mem) with
    | .error x => return (p.1, va, (Except.error (parkOf ctx va.toNat (segAgent seg 1) kind x) : Except Park (Nat × Nat × Bool)))
    | .ok r =>
      set r.s
      return (p.1, va, .ok (r.pa, segPol seg r.pol, s.allowed ctx r.pa need))
  let denied := rs.filterMap fun r => match r.2.2 with
    | .ok (pa, _, false) => some (r.1, r.2.1, pa)
    | _ => none
  if denied != [] then
    laneTrap 0x07 (denied.map fun t => (t.1, t.2.1)) (denied.map fun t => (t.2.2, kind))
  let faults := rs.filterMap fun r => match r.2.2 with
    | .error p => some (r.1, p)
    | _ => none
  match faults with
  | (_, p) :: qs =>
    throw (.park { p with
      tmask := maskOf fun L => faults.any fun q => q.1 == L
      more := (qs.filter fun q => q.2.page != p.page).map fun q => (q.2.page, q.2.va, q.2.cause, q.2.level) })
  | [] => return rs.filterMap fun r => match r.2.2 with
    | .ok (pa, pol, _) => some { lane := r.1, place := .mem pa pol isHost, fa := r.2.1 }
    | .error _ => none

/-- The places that the offsets of an O or X operand name, and their number (R193, R196, R257). -/
def osWindow (g : MemSeg) : M ((Nat → Place) × Nat) := do
  let st ← me
  let core ← myCore
  match g with
  | .partner n shadow =>
    match (← get).partner (← myTeam) n with
    | some (k, p) => return (.win k shadow, p.blk.window)
    | none => return (.os core, 0)
  | .own => return (.win st.team false, st.segs.x.len.toNat)
  | _ => return (fun x => .os core (st.segs.o.base.toNat + x), st.segs.o.len.toNat)

/-- A test of the bytes of a place in a store as they stand now. -/
def State.osAt (s : State) (p : Place) (f : Nat → Nat → Bool) : Bool :=
  match s.settle p with
  | .os core off => f core off
  | _ => false

/-- Places in an operand store (R64, R193, R252, R309): limits, then FREE lines, then the bytes of arrival barriers. -/
def osLanes (g : MemSeg) (n : Nat) (write : Bool) (offs : List (Nat × Int)) : M (List LanePlace) := do
  let (at', len) ← osWindow g
  let fa := fun (p : Nat × Int) => (p.1, (BitVec.ofInt 64 p.2 : W64))
  let bad := offs.filter fun (p : Nat × Int) => !(decide (0 ≤ p.2) && decide (p.2 + (n : Int) ≤ (len : Int)) && decide (p.2 % (n : Int) = 0))
  if bad != [] then laneTrap 0x06 (bad.map fa)
  let s ← get
  let free := offs.filter fun p => s.osAt (at' p.2.toNat) fun core off => (s.osLine core (off / 256)).free
  if free != [] then laneTrap 0x06 (free.map fa)
  let barr := offs.filter fun p => write && s.osAt (at' p.2.toNat) fun core off => s.osMeetsBarrier core off n
  if barr != [] then laneTrap 0x05 (barr.map fa)
  return offs.map fun p => { lane := p.1, place := at' p.2.toNat, fa := (fa p).2 }

/-- Places of every Active lane, or the trap or park of the instruction; none with Active empty (R199). -/
def lanePlaces (g : MemSeg) (n kind : Nat) (need : Need) (write : Bool) (offs : List (Nat × Int)) : M (List LanePlace) :=
  if offs = [] then pure []
  else match g with
    | .mem seg => memLanes seg n kind need offs
    | _ => osLanes g n write offs

/-! ### Time -/

/-- Passes of a crossbar access (R196): the largest number of distinct lines in one column and bank. -/
def crossPasses (offs : List Nat) : Nat :=
  let words := (offs.map fun a => a / 4).eraseDups
  let col := fun w => (w % 64, w / 64 % 16)
  words.foldl (fun m w => Nat.max m ((words.filter fun v => col v == col w).map fun v => v / 64).eraseDups.length) 1

/-- Lines beyond the first in the bank that has most of them (R255). -/
def bankExtra (offs : List Nat) : Nat :=
  let lines := (offs.map fun a => a / 256).eraseDups
  lines.foldl (fun m l => Nat.max m ((lines.filter fun k => k % 16 == l % 16).length - 1)) 0

/-- The operand-store offsets of places. -/
def State.osOffs (s : State) (ps : List LanePlace) : List Nat := ps.filterMap fun p => match s.settle p.place with
  | .os _ off => some off
  | _ => none

/-- The least time of an access: through the crossbar as R196 says; for memory the spec gives none. -/
def State.accessTime (s : State) (g : MemSeg) (ps : List LanePlace) : Nat :=
  match g with
  | .mem _ => 1
  | _ => 8 + (crossPasses (s.osOffs ps) - 1)

/-! ### Issue: the checks, and the accesses that are to be performed (R194, R196) -/

/-- The offsets of the Active lanes (R193): the wide form takes its high half from vc. -/
def laneOffs (x : LaneIn) (wide : Bool) (lo hi : Nat → W32) (off : Int) : List (Nat × Int) :=
  (lanesOf x.active).map fun L => (L, (if wide then (hi L).toNat * 2 ^ 32 + (lo L).toNat else (lo L).toNat : Nat) + off)

/-- The ordering qualifiers of an instruction: the scope of its release, and of its acquire (R194, R199). -/
def relOf (w : LaneW) : Option (BitVec 3) := if auxRel w then some (BitVec.ofNat 3 (auxScope w)) else none
def acqOf (w : LaneW) : Option (BitVec 3) := if auxAcq w then some (BitVec.ofNat 3 (auxScope w)) else none

/-- A memory instruction issues with its accesses still to be performed (R194: ordering never stops issue). (DEDUCED, log entry 27) -/
def issueAcc (x : LaneIn) (w : LaneW) (op : LaneOp) (fl : BitVec 4) (lat : Nat) (a : LaneAcc) : M Unit :=
  issueLong x w op .mem fl lat { acc := some { a with rel := relOf w }, acq := acqOf w }

/-- A load (R194, R196). -/
def laneLoad (op : LaneOp) (g : MemSeg) (w : LaneW) : State → Out := lane w fun x => do
  let fl ← longFlag x w
  laneRegs x (if op = .laneLd && w.md.getLsbD 0 then [w.va, w.vc] else [w.va]) [w.vd]
  let lo ← readV x w.va
  let wide := op == .laneLd && w.md.getLsbD 0
  let hi ← if wide then readV x w.vc else pure fun _ => 0
  roomFor w.vd x.active
  let n := tyBytes w.ty.toNat
  let ps ← lanePlaces g n 0 { r := true } false (laneOffs x wide lo hi (auxOff8 w * n))
  issueAcc x w op fl ((← get).accessTime g ps) { kind := .load, n := n, todo := ps }

/-- LD (R194). -/
def execLaneLd (w : LaneW) (s : State) : Out := laneLoad .laneLd (.mem (auxSeg w)) w s
/-- LDO (R196). -/
def execLdo (w : LaneW) (s : State) : Out := laneLoad .ldo (if auxSeg w = 4 then .team else .own) w s
/-- LDX (R196): core N's visible bank. -/
def execLdx (w : LaneW) (s : State) : Out := laneLoad .ldx (.partner (mdN w) false) w s

/-- A store (R91, R194, R196). -/
def laneStore (op : LaneOp) (g : MemSeg) (w : LaneW) : State → Out := lane w fun x => do
  let fl ← longFlag x w
  let wide := op == .laneSt && w.md.getLsbD 0
  laneRegs x (if wide then [w.va, w.vb, w.vc] else [w.va, w.vb]) []
  let lo ← readV x w.va
  let data ← readV x w.vb
  let hi ← if wide then readV x w.vc else pure fun _ => 0
  let n := tyBytes w.ty.toNat
  let ps ← lanePlaces g n 1 { w := true } true (laneOffs x wide lo hi (auxOff8 w * n))
  issueAcc x w op fl ((← get).accessTime g ps) {
    kind := .store (auxRel w && decide (4 ≤ auxScope w)), n := n, todo := ps, data := ps.map fun p => (p.lane, data p.lane, 0) }

/-- ST (R194). -/
def execLaneSt (w : LaneW) (s : State) : Out := laneStore .laneSt (.mem (auxSeg w)) w s
/-- STO (R196). -/
def execSto (w : LaneW) (s : State) : Out := laneStore .sto (if auxSeg w = 4 then .team else .own) w s
/-- XST (R196): core N's shadow bank. -/
def execXst (w : LaneW) (s : State) : Out := laneStore .xst (.partner (mdN w) true) w s

/-- The code of atomicOp for md of ATOM and RED (R197). -/
def atomCode (w : LaneW) : Nat :=
  match w.md.toNat with
  | 4 => if w.ty = 5 then 4 else 6
  | 5 => if w.ty = 5 then 5 else 7
  | 6 => 8
  | 7 => 9
  | 8 => 10
  | n => n

/-- What ATOM and RED act on (R197). -/
def atomSeg (w : LaneW) : MemSeg :=
  match auxSeg w with
  | 0 => .mem 0
  | 4 => .team
  | 5 => .partner (auxN w) false
  | _ => .own

/-- ATOM and RED (R197, R255, R256): fetch gives the old values back. -/
def laneAtomic (lop : LaneOp) (fetch : Bool) (w : LaneW) : State → Out := lane w fun x => do
  let fl ← longFlag x w
  let cas := fetch && w.md == 7
  laneRegs x (if cas then [w.va, w.vb, w.vc] else [w.va, w.vb]) (if fetch then [w.vd] else [])
  let lo ← readV x w.va
  let v ← readV x w.vb
  let c ← if cas then readV x w.vc else pure fun _ => 0
  if fetch then roomFor w.vd x.active
  let g := atomSeg w
  let ps ← lanePlaces g 4 2 (if fetch then { r := true, w := true } else { w := true }) true (laneOffs x false lo (fun _ => 0) (auxOff6 w * 4))
  let s ← get
  let t ← myTeam
  let op := atomCode w
  let kind : AccKind := match g with
    | .partner n _ => .message op (((s.partner t n).map (·.1)).getD 0)
    | _ => .atomic op
  let lat := match g with
    | .mem _ => 1
    | .partner _ _ => 24
    | _ => 12 + bankExtra (s.osOffs ps)
  issueAcc x w lop fl lat { kind := kind, todo := ps, data := ps.map fun p => (p.lane, v p.lane, c p.lane) }

/-- ATOM (R197). -/
def execAtom (w : LaneW) (s : State) : Out := laneAtomic .atom true w s
/-- RED (R197). -/
def execRed (w : LaneW) (s : State) : Out := laneAtomic .red false w s

/-- FLUSH (R198). -/
def execFlush (w : LaneW) (s : State) : Out := lane w (fun x => do
  let fl ← longFlag x w
  let wide := w.md.getLsbD 0
  laneRegs x (if wide then [w.va, w.vc] else [w.va]) []
  let lo ← readV x w.va
  let hi ← if wide then readV x w.vc else pure fun _ => 0
  let ps ← lanePlaces (.mem (auxSeg w)) 1 0 { r := true } false (laneOffs x wide lo hi (auxOff8 w))
  issueAcc x w .flush fl 1 { kind := .flush, n := 1, todo := ps }) s

/-- WLAPPEND (R195, R226). The access that the checks judge is the descriptor's 64 bytes. (DEDUCED, log entry 28) -/
def execWlappend (w : LaneW) (s : State) : Out := lane w (fun x => do
  let fl ← longFlag x w
  let wide := w.md.getLsbD 0
  laneRegs x (if wide then [w.va, w.vb, w.vc] else [w.va, w.vb]) []
  let lo ← readV x w.va
  let items ← readV x w.vb
  let hi ← if wide then readV x w.vc else pure fun _ => 0
  let ps ← lanePlaces (.mem 0) 64 1 { w := true } false (laneOffs x wide lo hi (auxOff8 w * 4))
  issueAcc x w .wlappend fl 1 { kind := .append, n := 64, todo := ps, data := ps.map fun p => (p.lane, items p.lane, 0) }) s

/-! ### The accesses are performed -/

/-- RNE32 addition on patterns (R197). -/
def fadd32 (a b : Nat) : Nat := (add32 a b).1

/-- One atomic operation on 4 bytes of an operand store (R255): the old value, its condition, whether poisoned; a FREE line takes nothing and gives 0 (R252). -/
def State.osAtomic (s : State) (core off op : Nat) (v cmp : W64) : State × Nat × Conds × Bool :=
  let (old, c, p) := s.osRead core off 4
  let new := if op = 10 then fadd32 old v.toNat else atomicOp op 4 old v.toNat cmp.toNat
  (s.osWrite core off (leBytes 4 new), old, c, p)

/-- What the lanes of one instruction have in common that are served together (R91, R196 to R198): the line, the word, the descriptor, the message. -/
def LaneAcc.key (a : LaneAcc) (p : LanePlace) : Nat × Nat :=
  match a.kind, p.place with
  | .message _ _, _ => (0, 0)
  | .append, _ => (1, p.fa.toNat)
  | .flush, .mem pa _ _ => (2, pa / 128)
  | .atomic _, .mem pa _ _ => (2, pa / 128)
  | _, .mem pa _ _ => (3, pa / 4)
  | _, .os core off => (4 + core, off / 4)
  | _, .win t sh x => (128 + 2 * t + (if sh then 1 else 0), x / 4)

/-- A lane's value and comparand. -/
def LaneAcc.vals (a : LaneAcc) (L : Nat) : W32 × W32 := (mget? a.data L).getD (0, 0)

/-- A lane's access as an operation of one request (R197). -/
def LaneAcc.op (a : LaneAcc) (L off : Nat) : SliceOp :=
  { off := off, val := (a.vals L).1.setWidth 64, cmp := (a.vals L).2.setWidth 64 }

/-- What a lane's access gives: value, conditions, poison. -/
abbrev LaneGot := Nat × Nat × Conds × Bool

/-- The lanes' operations on one line of memory, in lane order (R102, R197, R349, R357): none while the sequencer is full. -/
def State.atomicMem (s : State) (sid : Nat) (a : LaneAcc) (op pa pol : Nat) (ps : List LanePlace) : Option (State × List LaneGot) :=
  let ln := pa / 128
  let repl := pol == polREPL
  if repl && 256 ≤ s.updates.length then none
  else
    let ops := ps.map fun p => a.op p.lane (match p.place with
      | .mem pa _ _ => pa % 128
      | _ => 0)
    let s := if repl then s else s.dcFlush (dieOf (coreOf sid)) ln
    let (s, vs, pois) := s.sliceAtomic fadd32 ln op 4 repl ops (some (s.strand sid).member)
    some (s, (ps.zip vs).map fun p => (p.1.lane, p.2.toNat, (0 : Conds), pois))

/-- The lanes' operations on a word of an operand store, in lane order (R255). -/
def State.atomicOs (s : State) (a : LaneAcc) (op core off : Nat) : List LanePlace → State × List LaneGot
  | [] => (s, [])
  | p :: ps =>
    let o := a.op p.lane 0
    let (s, old, c, pois) := s.osAtomic core off op o.val o.cmp
    let (s, gs) := s.atomicOs a op core off ps
    (s, (p.lane, old, c, pois) :: gs)

/-- The lanes' reads (R194): before an acquire at .pkg or .sys the die gives up its copy of the line (R100). -/
def State.loadLanes (s : State) (sid : Nat) (l : LongOp) (n : Nat) : List LanePlace → Option (State × List LaneGot)
  | [] => some (s, [])
  | p :: ps =>
    let s := match p.place, l.acq with
      | .mem pa pol false, some sc => s.acquireLine (dieOf (coreOf sid)) pa pol sc.toNat
      | _, _ => s
    match s.readAt sid p.place n with
    | none => none
    | some (s, v, c, pois) => (s.loadLanes sid l n ps).map fun r => (r.1, (p.lane, v, c, pois) :: r.2)

/-- The lanes' writes, in lane order, so that the highest-numbered lane's value remains (R91, R194). -/
def State.storeLanes (s : State) (sid : Nat) (a : LaneAcc) (through : Bool) : List LanePlace → Option State
  | [] => some s
  | p :: ps => (s.writeAt sid p.place a.n ((a.vals p.lane).1.toNat % 2 ^ (8 * a.n)) through).bind fun s => s.storeLanes sid a through ps

/-- Lanes that are served together perform their accesses (R194 to R198): the state, and what they give; none while they wait. -/
def State.performLanes (s : State) (sid : Nat) (l : LongOp) (a : LaneAcc) (ps : List LanePlace) : Option (State × List LaneGot) :=
  match ps with
  | [] => some (s, [])
  | p :: _ =>
    match a.kind with
    | .load => s.loadLanes sid l a.n ps
    | .store through => (s.storeLanes sid a through ps).map fun s => (s, [])
    | .atomic op =>
      match s.settle p.place with
      | .mem pa pol _ => s.atomicMem sid a op pa pol ps
      | .os core off => some (s.atomicOs a op core off ps)
      | .win _ _ _ => some (s, [])
    | .message op team =>
      some ({ s with clusterMsgs := s.clusterMsgs ++ [{
        sid := sid, tag := l.tag, team := team, op := op, fetch := l.op == .atom
        ops := ps.map fun p => (p.lane, a.op p.lane p.fa.toNat) }] }, [])
    | .flush =>
      match p.place with
      | .mem pa pol false => (if pol = polNC then some s else s.flushLine (dieOf (coreOf sid)) (pa / 128) pol).map fun s => (s, [])
      | _ => some (s, [])
    | .append =>
      some ({ s with appends := s.appends ++ [{
        ctx := s.ctxOf sid, die := dieOf (coreOf sid), sid := sid, tag := l.tag, desc := p.fa.toNat
        items := ps.map fun p => (p.lane, (a.vals p.lane).1) }] }, [])

/-- Change the long instruction at a place of a strand. -/
def State.setLong (s : State) (sid idx : Nat) (l : LongOp) : State := s.modStrand sid fun st => { st with longs := setAt st.longs idx l }

/-- The lanes of one key perform their accesses, and the instruction keeps what they give. -/
def State.passKey (s : State) (sid idx : Nat) (l : LongOp) (a : LaneAcc) (k : Nat × Nat) : Option State :=
  let ps := a.todo.filter fun p => a.key p == k
  (s.performLanes sid l a ps).map fun r =>
    let bad := ps.filter fun p => r.2.any fun g => g.1 == p.lane && g.2.2.2
    r.1.setLong sid idx { l with acc := some { a with
      todo := a.todo.filter fun p => a.key p != k, rel := none, got := a.got ++ r.2, pois := a.pois ++ bad } }

/-- The release of an instruction before its first access (R92, R194): none while it waits. -/
def State.passRelease (s : State) (sid idx : Nat) (l : LongOp) (a : LaneAcc) : Option State :=
  match a.rel with
  | none => some s
  | some sc =>
    let s := s.releaseAt (dieOf (coreOf sid)) (s.ctxOf sid) sc.toNat
    if s.released sid sc.toNat then some (s.setLong sid idx { l with acc := some { a with rel := none } }) else none

/-- The accesses of the lanes of one key of the long instruction at a place, its release before them; none while they wait (R92, R194). (DESIGN CHOICE, log entry 27) -/
def State.pass (s : State) (sid idx : Nat) (k : Nat × Nat) : Option State :=
  match (s.strand sid).longs[idx]? with
  | none => none
  | some l =>
    match l.acc with
    | none => none
    | some a =>
      if s.accHeld sid l then none
      else (s.passRelease sid idx l a).bind fun s => s.passKey sid idx l { a with rel := none } k

/-- A move of one pass (R196, R244): the access of a lane of the instruction at a place, with those that are served with it. -/
def State.passLane (s : State) (sid idx L : Nat) : State :=
  let k := ((s.strand sid).longs[idx]?).bind fun l => l.acc.bind fun a => (a.todo.find? fun p => p.lane == L).map a.key
  (k.bind fun k => s.pass sid idx k).getD s

/-- Every access still to be performed of the instruction at a place, its release first; none while one waits. -/
def State.passAll (s : State) (sid idx : Nat) : Option State :=
  match (s.strand sid).longs[idx]? with
  | none => none
  | some l =>
    match l.acc with
    | none => some s
    | some a =>
      if s.accHeld sid l then none
      else ((a.todo.map a.key).eraseDups).foldl (fun s k => s.bind fun s => s.pass sid idx k) (s.passRelease sid idx l a)

/-! ### Messages to partner cores (R256) -/

/-- One operation of a message at the partner's bank unit; one to a team that has left its core has no effect, and what it gives back is a free value (DESIGN CHOICE, log entry 63). -/
def msgStep (m : ClusterMsg) (acc : State × List LaneGot) (p : Nat × SliceOp) : State × List LaneGot :=
  let (s, gs) := acc
  match s.settle (.win m.team false p.2.off) with
  | .os core off =>
    let (s, old, c, pois) := s.osAtomic core off m.op p.2.val p.2.cmp
    (s, gs ++ [(p.1, old, c, pois)])
  | _ => (s, gs ++ [(p.1, (Config.lostValue (s.stepNo * 2 ^ 26 + p.1)).toNat, 0, false)])

/-- CLUSTER_ATOMIC_MESSAGE (R256, R258): the message at place ev.idx is applied to its target's visible bank, messages of one strand to one core in issue order; one whose team has left is discarded. -/
def execClusterAtomicMessage (s : State) : Out :=
  match s.clusterMsgs[s.ev.idx]? with
  | none => .next s
  | some m =>
    if (s.clusterMsgs.take s.ev.idx).any fun o => o.sid == m.sid && o.team == m.team then .next s
    else
      let (s1, gs) := m.ops.foldl (msgStep m) (s, [])
      let bad : List LanePlace := (m.ops.filter fun p => gs.any fun g => g.1 == p.1 && g.2.2.2).map fun p =>
        { lane := p.1, place := .win m.team false p.2.off, fa := BitVec.ofNat 64 p.2.off }
      let fill := fun (l : LongOp) =>
        if l.tag = m.tag then { l with acc := l.acc.map fun a => { a with got := a.got ++ gs, pois := a.pois ++ bad } } else l
      .next ({ s1 with clusterMsgs := dropAt s.clusterMsgs s.ev.idx }.modStrand m.sid fun st => { st with longs := st.longs.map fill })

/-! ### Completion -/

/-- The held cause of lanes that met poison (R261, R353): FADDR is the lowest such lane's address. -/
def poisHeld (ps : List LanePlace) : List Held :=
  match ps with
  | [] => []
  | q :: qs =>
    [{ code := 0x0D, tmask := maskOf fun L => ps.any fun p => p.lane == L
       faddr := (qs.foldl (fun a b => if b.lane < a.lane then b else a) q).fa }]

/-- What an instruction whose accesses have been performed leaves in registers: the values of a load, the old values of ATOM, with their conditions (R194, R196, R197). -/
def LongOp.filled (l : LongOp) : LongOp :=
  match l.acc with
  | none => l
  | some a =>
    let look := fun L => (mget? a.got L).elim (0 : W32) fun r => if l.op = .atom then BitVec.ofNat 32 r.1 else extTy l.w.ty.toNat r.1
    { l with
      acc := none
      writes := if a.kind = .load || l.op = .atom then destWrites l.w.vd l.active look else []
      conds := (a.got.filter fun r => r.2.2.1 != 0).map fun r => { lane := r.1, bits := r.2.2.1 }
      held := poisHeld a.pois }

/-- Whether an instruction whose accesses have been performed still waits (R194, R195, R256): for a message's answer, for an append's slots, and if it writes for what its release's scope names (R99 to R101). -/
def State.accDue (s : State) (sid : Nat) (l : LongOp) : Bool :=
  (s.clusterMsgs.any fun m => m.sid == sid && m.tag == l.tag)
  || (s.appends.any fun a => a.sid == sid && a.tag == l.tag && !a.reserved)
  || (l.acc.map (·.kind) != some .load && !s.released sid (if auxRel l.w then auxScope l.w else 0))

/-- LANE_MEMORY_COMPLETE (R194 to R198): the memory instruction at place ev.idx of strand ev.who's operations under way performs the accesses that no pass has performed, and completes when it waits for nothing more. -/
def execLaneMemoryComplete (s : State) : Out :=
  let sid := s.ev.who
  let idx := s.ev.idx
  match (s.strand sid).longs[idx]? with
  | none => .next s
  | some l0 =>
    if l0.kind != .mem then .next s
    else
      match s.passAll sid idx with
      | none => .next s
      | some s =>
        match (s.strand sid).longs[idx]? with
        | none => .next s
        | some l =>
          if s.accDue sid l then .next s
          else .next ((s.setLong sid idx l.filled).completeLong sid idx .mem)

end Sys2Proof.Machine
end

