-- ==== Sys2Proof/Machine/Basin.lean ====
section
/-! DEFINITION. Events of the Basin die: requests at home slices (R345 to R349), the replication sequencer (R355 to R357), the host's accesses to HBM (R360), evictions of die caches (R98), the host link (R361, R374), losses of the Basin die and of Col dies (R18). -/

namespace Sys2Proof.Machine

/-- Whether the operations of an atomic request lie in the line, on natural multiples (R197). -/
def opsFit (w : Nat) (ops : List SliceOp) : Bool := (w == 4 || w == 8) && ops.all fun o => aligned o.off w && o.off + w ≤ 128

/-- What a home slice does with one request, and its acknowledgement (R345 to R349, R353). An address outside HBM of live dies has no slice. -/
def State.serve (s : State) (r : SliceReq) : State :=
  let ln := r.pa / 128
  if !s.inHbm r.pa then s
  else match r.kind with
    | .read =>
      let (d, p) := s.sliceRead ln
      { s with ack := { tag := s.tag ln, data := d, poisoned := p } }
    | .write m d =>
      let s := s.sliceWrite ln m d
      { s with ack := { tag := s.tag ln } }
    | .atomic op w float ops =>
      if !opsFit w ops || (float && w != 4) then s
      else
        let (s, vs, p) := s.sliceAtomic fadd32 ln (if float then 10 else op.toNat) w false ops
        { s with ack := { tag := s.tag ln, vals := vs, poisoned := p } }

/-- SLICE_REQUEST (R345): the home slice of the line of ev.req applies the request whole. -/
def execSliceRequest (s : State) : Out := .next (s.serve s.ev.req)

/-! ### The replication sequencer -/

/-- Whether a translation unit holds a replicated page of a context that contains a line. -/
def State.replMapped (s : State) (unitNo ctx ln : Nat) : Bool :=
  s.tlb.any fun e => e.1 / 2 ^ 48 == unitNo * 1024 + ctx && e.2.policy == polREPL && e.2.ppage == ln / 512

/-- Whether some translation maps a line's page REPL. -/
def State.replAnywhere (s : State) (ln : Nat) : Bool := s.tlb.any fun e => e.2.policy == polREPL && e.2.ppage == ln / 512

/-- REPLICATED_FILL (R355): the die cache of die ev.core fills replicated line ev.addr for context ev.who. A copy that has an update pending is not replaced before its commit. -/
def execReplicatedFill (s : State) : Out :=
  let ln := s.ev.addr
  if s.dieLive s.ev.core && s.inHbm (ln * 128) && s.replMapped s.ev.core s.ev.who ln && !s.replBusy s.ev.core ln
  then .next (s.dcFill s.ev.core s.ev.who ln polREPL) else .next s

/-- REPLICATED_STORE (R356): the sequencer orders a store of ev.bytes at physical address ev.addr, sends the update to the dies that share the line, and writes it through to the home slice. At most 256 updates are in flight. -/
def execReplicatedStore (s : State) : Out :=
  let pa := s.ev.addr
  let n := s.ev.bytes.length
  let ln := pa / 128
  if s.inHbm pa && s.replAnywhere ln && 0 < n && pa % 128 + n ≤ 128 then
    .next ((s.replStore ln (byteMask (pa % 128) n) (lineData (pa % 128) n (leValue s.ev.bytes))).getD s)
  else .next s

/-- COMMIT (R356): the earliest update of line ev.addr, acknowledged by all, takes effect in every replica at once. -/
def execCommit (s : State) : Out :=
  match s.updates.findIdx? fun u => u.line == s.ev.addr with
  | none => .next s
  | some i =>
    match s.updates[i]? with
    | none => .next s
    | some u => .next (({ s with updates := dropAt s.updates i } : State).applyUpdate u.line u.mask u.data u.sharers)

/-! ### Die caches -/

/-- DIE_CACHE_EVICTION (R84, R98, R355): die ev.core gives up its copy of line ev.addr on its own: the dirty bytes are written back; with ev.flag the copy of a replicated line, whose drop is reported, not before a pending update to it is committed. (DESIGN CHOICE, log entry 18) -/
def execDieCacheEviction (s : State) : Out :=
  let d := s.ev.core
  let ln := s.ev.addr
  if 8 ≤ d then .next s
  else if s.ev.flag then .next (if (s.dcLine (repDie d) ln).isNone || s.replBusy d ln then s else s.repDrop d ln)
  else .next (if (s.dcLine d ln).isNone then s else s.dcFlush d ln)

/-! ### The host -/

/-- Whether the host may make an access of n bytes within a line of HBM over CXL.mem (R360, R371). -/
def State.hostReaches (s : State) (pa n : Nat) : Bool := s.cacheUp && s.inHbm pa && 0 < n && pa % 128 + n ≤ 128

/-- HOST_CXL_MEM_READ (R353, R360, R381): the host reads ev.size bytes at ev.addr; a denied read returns zeros with the poison indication. -/
def execHostCxlMemRead (s : State) : Out :=
  let pa := s.ev.addr
  let n := s.ev.size
  if !s.hostReaches pa n then .next s
  else if !s.allowed 0x400 pa { r := true } then .next { s.denyPa 0x400 pa 0 with ack := { poisoned := true } }
  else
    let (v, p) := s.sliceNat pa n
    .next { s with ack := { tag := s.tag (pa / 128), data := BitVec.ofNat 1024 v, poisoned := p } }

/-- HOST_CXL_MEM_WRITE (R354, R360, R381): the host writes ev.bytes at ev.addr; a denied write is dropped. -/
def execHostCxlMemWrite (s : State) : Out :=
  let pa := s.ev.addr
  let n := s.ev.bytes.length
  if !s.hostReaches pa n then .next s
  else if !s.allowed 0x400 pa { w := true } then .next (s.denyPa 0x400 pa 1)
  else
    let s := s.sliceWrite (pa / 128) (byteMask (pa % 128) n) (lineData (pa % 128) n (leValue s.ev.bytes))
    .next { s with ack := { tag := s.tag (pa / 128) } }

/-- HOST_LINK_DOWN (R361, R374). -/
def execHostLinkDown (s : State) : Out := .next { s with linkUp := false }

/-- HOST_LINK_UP (R361, R371, R374, R375): the link trains, with ev.flag below 32 GT/s, where CXL.cache and CXL.mem stay down; the dirty host lines are written back, the service entries that waited are posted, one signal for each pending vector that is not masked is sent. -/
def execHostLinkUp (s : State) : Out :=
  let s := ({ s with linkUp := true, linkSlow := s.ev.flag } : State).hostFlush
  let go := s.msixPending.filter fun v => s.msixOpen.contains v
  .next ({ s with msixSent := s.msixSent ++ go, msixPending := s.msixPending.filter fun v => !s.msixOpen.contains v } : State).svcFlush

/-! ### The host's own memory (R359) -/

/-- The host agent gives up the dirty lines of 64 bytes that n bytes of host memory meet, when the host accesses them (R359): nothing while CXL.cache is down (R361). -/
def State.snoop (s : State) (a n : Nat) : State :=
  if !s.cacheUp || n = 0 then s
  else
    let meets := fun (p : Nat × Byte) => a / 64 ≤ p.1 / 64 && p.1 / 64 ≤ (a + n - 1) / 64
    let rest := s.hostLines.filter fun p => !meets p
    { s with
      hostMem := (s.hostLines.filter meets).foldl (fun m p => memPut m p.1 p.2) s.hostMem
      hostLines := rest, hostOwed := if rest = [] then [] else s.hostOwed }

/-- The host loads n bytes of its memory. -/
def State.hostPeek (s : State) (a n : Nat) : State :=
  let s := s.snoop a n
  { s with hostGot := (List.range n).map fun i => memByte s.hostMem (a + i) }

/-- The host stores bytes in its memory. -/
def State.hostPoke (s : State) (a : Nat) (bs : List Byte) : State :=
  let s := s.snoop a bs.length
  { s with hostMem := memPutAll s.hostMem a bs }

/-- The host masks a vector of MSI-X over CXL.io (R374). -/
def State.maskVector (s : State) (v : Nat) : State := if s.linkUp then { s with msixOpen := s.msixOpen.filter (· != v) } else s

/-! ### Losses (R18) -/

/-- BASIN_LOSS (R18): package-fatal. -/
def execBasinLoss (s : State) : Out := .next { s with fatal := true }

end Sys2Proof.Machine
end

