-- ==== Sys2Proof/Machine/Link.lean ====
section
/-! DEFINITION. The sending side of a Zumer fabric port (R387 to R394): flits and their CRC, permits, the replay buffer, link-control flits, link-down. Keys: port 0 to 31. -/

namespace Sys2Proof.Machine

/-! ### The CRC (R389) -/

/-- One bit of the reflected CRC-64 of ECMA-182. -/
def crcBit (c : Nat) : Nat := if c % 2 = 1 then (c / 2) ^^^ 0xC96C5795D7870F42 else c / 2

/-- One byte. -/
def crcByte (c : Nat) (b : Byte) : Nat := crcBit (crcBit (crcBit (crcBit (crcBit (crcBit (crcBit (crcBit (c ^^^ b.toNat))))))))

/-- The CRC field over a list of bytes. -/
def crc64 (bs : List Byte) : Nat := (bs.foldl crcByte 0xFFFFFFFFFFFFFFFF) ^^^ 0xFFFFFFFFFFFFFFFF

/-! ### Flits (R387, R389) -/

/-- A flit: CLASS, FL, RET, SEQ, DATA padded with zeros, CRC. -/
def mkFlit (cls fl ret : Nat) (seq : W32) (data : List Byte) : BitVec 2048 :=
  let body := leBytes 1 cls ++ leBytes 1 fl ++ leBytes 2 ret ++ leBytes 4 seq.toNat ++ (data ++ List.replicate (240 - data.length) 0)
  BitVec.ofNat 2048 (leValue (body ++ leBytes 8 (crc64 body)))

/-- Bytes of a flit. -/
def flitBytes (f : BitVec 2048) : List Byte := leBytes 256 f.toNat

/-- Fields of a flit. -/
def flitCls (f : BitVec 2048) : Nat := (f.extractLsb' 0 3).toNat
def flitFl (f : BitVec 2048) : Nat := (f.extractLsb' 8 8).toNat
def flitRet (f : BitVec 2048) : Nat := (f.extractLsb' 16 16).toNat
def flitSeq (f : BitVec 2048) : W32 := f.extractLsb' 32 32
def flitData (f : BitVec 2048) : List Byte := ((flitBytes f).drop 8).take 240
def flitCrcOk (f : BitVec 2048) : Bool := crc64 ((flitBytes f).take 248) == (f.extractLsb' 1984 64).toNat

/-- A link-control flit (R389): KIND, WIDTH, WL, S, PERM. -/
def controlFlit (kind width wl : Nat) (sq : W32) (perm : List Nat) : BitVec 2048 :=
  mkFlit 7 3 0 0 (leBytes 1 kind ++ leBytes 1 width ++ leBytes 1 wl ++ leBytes 1 0 ++ leBytes 4 sq.toNat
    ++ (List.range 5).flatMap fun c => leBytes 2 (perm.getD c 0))

/-- Flits of a message of n bytes. -/
def flitsOf (n : Nat) : Nat := (n + 239) / 240

/-! ### Ports -/

/-- A port. -/
def State.port (s : State) (p : Nat) : Port := mget s.ports p {}

/-- Write it. -/
def State.setPort (s : State) (p : Nat) (x : Port) : State := { s with ports := mput s.ports p x }

/-- The reserve of each class that a receiver offers, and the shared permits (R388). (DEDUCED, log entry 45) -/
def ownReserve : List Nat := [64, 128, 64, 128, 16]
def sharedPool : Nat := 624

/-- A width rounded down to 1, 2, 4 or 8 (R389). (DEDUCED, log entry 45) -/
def roundWidth (n : Nat) : Nat := if 8 ≤ n then 8 else if 4 ≤ n then 4 else if 2 ≤ n then 2 else n

/-- The n lowest of the wavelengths of a mask. (DEDUCED, log entry 45) -/
def lowestWl (m : Byte) (n : Nat) : Byte :=
  let ws := ((List.range 8).filter fun i => m.getLsbD i).take n
  BitVec.ofNat 8 (ws.foldl (fun a i => a + 2 ^ i) 0)

/-- The wavelength of beat i of a flit (R387): the live ones in rotation from the lowest. -/
def beatWl (live : Byte) (i : Nat) : Option Nat :=
  let ws := (List.range 8).filter fun w => live.getLsbD w
  if ws = [] then none else ws[i % ws.length]?

/-- The wavelengths of the 32 beats of a flit (R387). -/
def beatsOn (live : Byte) : List Nat := (List.range 32).filterMap (beatWl live)

/-- Flits go out on the live wavelengths (R387, R391). -/
def Port.send (x : Port) (fs : List (BitVec 2048)) : Port :=
  { x with sent := x.sent ++ fs.map fun f => { bits := f, on := beatsOn x.liveWl }, flits := x.flits + fs.length }

/-- Send a link-control flit. -/
def Port.control (x : Port) (f : BitVec 2048) : Port := x.send [f]

/-- Send flits on one wavelength (R389). -/
def Port.sendOn (x : Port) (w : Nat) (fs : List (BitVec 2048)) : Port :=
  { x with sent := x.sent ++ fs.map fun f => { bits := f, on := List.replicate 32 w }, flits := x.flits + fs.length }

/-- Whether a class has a permit (R388). -/
def Port.hasPermit (x : Port) (c : Nat) : Bool := 0 < x.reserve.getD c 0 || 0 < x.shared

/-- Take a permit: from the reserve while it has one, otherwise a shared one. -/
def Port.takePermit (x : Port) (c : Nat) : Port :=
  if 0 < x.reserve.getD c 0 then { x with reserve := setAt x.reserve c (x.reserve.getD c 0 - 1) } else { x with shared := x.shared - 1 }

/-- Permits come back: the reserve first, the shared permits after. -/
def Port.givePermits (x : Port) (c n : Nat) : Port :=
  let room := x.reserveMax.getD c 0 - x.reserve.getD c 0
  let k := Nat.min n room
  if c < 5 then { x with reserve := setAt x.reserve c (x.reserve.getD c 0 + k), shared := x.shared + (n - k) } else x

/-- Permits to return for n flits of a class that have been dealt with. -/
def Port.owe (x : Port) (c n : Nat) : Port := if c < 5 then { x with ret := setAt x.ret c (x.ret.getD c 0 + n) } else x

/-- RET of the next flit, and the port without what it returns. -/
def Port.takeRet (x : Port) : Nat × Port :=
  match (List.range 5).find? fun c => 0 < x.ret.getD c 0 with
  | none => (0, x)
  | some c =>
    let n := Nat.min 1024 (x.ret.getD c 0)
    (c * 2 ^ 13 + n, { x with ret := setAt x.ret c (x.ret.getD c 0 - n) })

/-- Send one flit with the next SEQ (R387 to R391): it takes a permit and is kept for replay; a width that has been announced begins with its SEQ. -/
def Port.sendFlit (x : Port) (c fl : Nat) (data : List Byte) : Port :=
  let (ret, x) := (x.takePermit c).takeRet
  let f := mkFlit c fl ret x.txSeq data
  let x := match x.nextWidth with
    | some (n, sq) =>
      if sq = x.txSeq then
        { x with width := n, nextWidth := none, parkPend := false, liveWl := if n = 8 then 0xFF else lowestWl x.liveWl n }
      else x
    | none => x
  { x.send [f] with replay := x.replay ++ [f], txSeq := x.txSeq + 1 }

/-- Whether a message may begin or go on: none of a pre-empted context begins (R369), and messages of one class do not interleave (R387). -/
def State.mayFlow (s : State) (x : Port) (m : Msg) : Bool :=
  x.hasPermit m.cls
  && (m.sent != 0 ||
      (!(match mget? s.ctxs m.ctx with
          | some c => c.preempted
          | none => false)
       && !(x.outq.any fun o => o.cls == m.cls && o.sent != 0)))

/-- Send what can be sent of the queued messages, a flit at a time (R388, R389): a port that is up, a replay buffer with room, a permit. -/
def State.flow (s : State) (x : Port) : Nat → Port
  | 0 => x
  | n + 1 =>
    if !x.up || 256 ≤ x.replay.length then x
    else match x.outq.findIdx? fun m => s.mayFlow x m with
      | none => x
      | some i =>
        match x.outq[i]? with
        | none => x
        | some m =>
          let last := m.bytes.length ≤ m.sent + 240
          let x := x.sendFlit m.cls ((if m.sent = 0 then 1 else 0) + (if last then 2 else 0)) ((m.bytes.drop m.sent).take 240)
          s.flow { x with
            outq := if last then dropAt x.outq i else setAt x.outq i { m with sent := m.sent + 240 }
            tail := if last then x.tail ++ [m] else x.tail } n

/-- Send what a port can send. -/
def State.flowPort (s : State) (p : Nat) : State :=
  match mget? s.ports p with
  | none => s
  | some x => s.setPort p (s.flow x 256)

/-- The ticks of a port's Col die (R6, R391). -/
def State.portNow (s : State) (p : Nat) : Nat := s.ticks (9 + p / 8)

/-- Queue a message at a port. -/
def State.sendMsg (s : State) (p : Nat) (m : Msg) : State :=
  let x := s.port p
  (s.setPort p { x with outq := x.outq ++ [{ m with since := s.portNow p }] }).flowPort p

/-- The messages that wait in the sender (R393): those not sent whole, and at a port that is link-down those sent and not acknowledged. -/
def Port.waiting (x : Port) : List Msg := x.outq ++ (if x.up then [] else x.tail)

/-- A port goes link-down (R393): what is queued or not acknowledged waits. -/
def Port.down (x : Port) : Port :=
  { x with
    up := false, trained := false, training := false, waking := false, parkPend := false, liveWl := 0, width := 0
    nextWidth := none, rxWidth := 0, rxNext := none, trainCount := [], readySent := false, readyWl := 0, peerReady := none
    nakCount := 0, nakSent := 0, unacked := 0 }

/-- A port for which both sides have sent READY comes up (R389): the width and the wavelengths from the two READYs, permits, SEQ from 0; the flits that were not acknowledged before go out again. While no wavelength is named by both it trains on (R387). (DEDUCED, log entry 45) -/
def Port.tryUp (x : Port) (now : Nat) : Port :=
  match x.peerReady with
  | none => x
  | some (w, wls, perms) =>
    let both := x.readyWl &&& wls
    if !x.readySent || both = 0 then x else
    let n := Nat.min (Nat.min (roundWidth (popCount 8 x.readyWl.toNat)) w) (roundWidth (popCount 8 both.toNat))
    let live := lowestWl both n
    let old := x.replay
    let y : Port := { x with
      up := true, trained := true, training := false, liveWl := live, width := n, rxWidth := n
      lastRx := now, idleAt := now, flits := 0
      txSeq := 0, rxSeq := 0, replay := [], nakCount := 0, nakSent := 0, unacked := 0
      reserve := perms, reserveMax := perms, shared := sharedPool, ret := [0, 0, 0, 0, 0]
      trainCount := [], readySent := false, readyWl := 0, peerReady := none }
    old.foldl (fun (y : Port) f => y.sendFlit (flitCls f) (flitFl f) (flitData f)) y

/-- The status word of a port (R394). -/
def Port.status (x : Port) : W64 :=
  BitVec.ofNat 64 (Nat.min 255 x.repl * 2 ^ 32 + Nat.min 65535 x.dropc * 2 ^ 16 + x.liveWl.toNat * 2 ^ 8
    + (if x.waking then 8 else 0) + (if x.parkPend then 4 else 0) + (if x.trained then 2 else 0) + (if x.up then 1 else 0))

/-- Whether a flit is the last of its message. -/
def flitLast (f : BitVec 2048) : Bool := flitFl f / 2 % 2 == 1

/-- A port takes an acknowledgement (R389): the flits up to the named SEQ are freed, and with them the messages that they end. -/
def Port.acked (x : Port) (sq : W32) : Port :=
  match x.replay.findIdx? fun f => flitSeq f == sq with
  | none => x
  | some i => { x with replay := x.replay.drop (i + 1), tail := x.tail.drop ((x.replay.take (i + 1)).filter flitLast).length }

/-- A port takes a NAK (R387, R389): the flits from the named SEQ on go out again; the sixteenth for one SEQ takes the port down. -/
def Port.naked (x : Port) (sq : W32) : Port :=
  match x.replay.findIdx? fun f => flitSeq f == sq with
  | none => x
  | some i =>
    let n := if x.nakCount != 0 && x.nakSeq == sq then x.nakCount + 1 else 1
    let x := { x with nakSeq := sq, nakCount := n, repl := Nat.min 255 (x.repl + 1) }
    if 16 ≤ n then x.down else x.send (x.replay.drop i)

/-- Answer with a NAK for the SEQ expected next (R387, R389); the sixteenth for one SEQ takes the port down. (DEDUCED, log entry 45) -/
def Port.sendNak (x : Port) : Port :=
  let x := { x.control (controlFlit 1 0 0 x.rxSeq []) with nakSent := x.nakSent + 1 }
  if 16 ≤ x.nakSent then x.down else x

/-- Acknowledge the last flit received in order, and return the permits owed (R388, R389). -/
def Port.sendAck (x : Port) : Port :=
  let x := { x.control (controlFlit 2 0 0 (x.rxSeq - 1) []) with unacked := 0 }
  if x.ret.all (· == 0) then x
  else
    let give := x.ret.map fun n => Nat.min 65535 n
    { x.control (controlFlit 5 0 0 0 give) with ret := (x.ret.zip give).map fun p => p.1 - p.2 }

end Sys2Proof.Machine
end

