-- ==== Sys2Proof/Machine/Fetch.lean ====
section
/-! DEFINITION. Instruction fetch of both streams (R44, R56, R57, R87) and what comes of a fetch that fails or of a pattern that is no instruction (R63). -/

namespace Sys2Proof.Machine

/-- INSTRUCTION_FETCH_FAULT (R44): a fetch of the acting strand fails. ev.flag: of the lane stream, side curB of the stream curWin. The segment
fault, the permission trap, or the translation fault that parks the stream (R87); no part of the word takes effect. A fetch that succeeds changes nothing. -/
def execInstructionFetchFault (s : State) : Out :=
  if !s.isRes s.cur then .refused .noStrand
  else if s.ev.flag then
    let sd := ((s.strand s.cur).laneCtx s.curWin).side s.curB
    match s.fetchUnit s.cur sd.unitNow.toNat with
    | .got _ _ => .next s
    | .wait => .next (s.modStrand s.cur fun st => { st with waitL := true })
    | .park p => .next (s.parkLane s.cur { p with sideB := s.curB, unitNo := sd.unitNow })
    | .trap c d => .next ((s.logDenied (s.ctxOf s.cur) d).takeTrap s.cur
        { code := c, lfault := true, sideB := s.curB, unitNo := some sd.unitNow })
  else
    match s.fetchScalar s.cur with
    | .got _ _ => .next s
    | .wait => .next (s.modStrand s.cur fun st => { st with waitS := true })
    | .park p => .next (s.parkScalar s.cur p)
    | .trap c d => .next ((s.logDenied (s.ctxOf s.cur) d).takeTrap s.cur
        { code := c, sfault := true, epc := some (s.strand s.cur).pc })

/-- UNASSIGNED_ENCODING (R63): the acting strand reaches a pattern (curWord) that is no instruction, or a unit where a header should stand or
should not (R56, R57): the illegal-instruction trap before any effect. ev.flag: of the lane stream. -/
def execUnassignedEncoding (s : State) : Out :=
  if !s.isRes s.cur then .refused .noStrand
  else if s.ev.flag then
    let sd := ((s.strand s.cur).laneCtx s.curWin).side s.curB
    .next (s.takeTrap s.cur { code := 0x01, lfault := true, sideB := s.curB, unitNo := some sd.unitNow, lword := s.curWord })
  else
    .next (s.takeTrap s.cur { code := 0x01, sfault := true, epc := some (s.strand s.cur).pc, sword := s.curWord.setWidth 32 })

/-- What stands at a side's next place (R56, R57): the state with the clause entered and the unit fetched, a wait on the header's mask, or a fault. -/
inductive Prep where
  | unit (u : W96) (s : State)
  | wait
  | bad (u : W96) (s : State)
  | fault (s : State)

/-- Bring a side to its next instruction: at a header, wait for its mask (R58) and enter the clause; then fetch the unit. The header takes no issue cycle. -/
def State.prepSide (s : State) (sid : Nat) (win b : Bool) : Prep :=
  let sd := ((s.strand sid).laneCtx win).side b
  if sd.left = 0 && sd.reissue == [] then
    match s.fetchUnit sid sd.pc.toNat with
    | .trap _ _ => .fault s
    | .park _ => .fault s
    | .wait => .fault s
    | .got h s =>
      match decodeHeader h with
      | .error _ => .bad h s
      | .ok hd =>
        let st := s.strand sid
        if (List.range 12).any fun i => hd.wait.getLsbD i && st.flag i != 0 then .wait
        else
          let sd' := { sd with pc := sd.pc + 1, hdr := sd.pc, left := hd.len, flagA := hd.flagA, flagB := hd.flagB, yh := false }
          let s1 := s.setStrand sid (st.setLaneCtx win ((st.laneCtx win).setSide b sd'))
          match s1.fetchUnit sid sd'.pc.toNat with
          | .got u s2 => .unit u s2
          | _ => .fault s1
  else
    match s.fetchUnit sid sd.unitNow.toNat with
    | .got u s => .unit u s
    | _ => .fault s

/-- The cycle at which a side can issue its next unit (R58): its dist cycles after the strand's previous lane instruction; none while it waits on its header's mask. -/
def State.sideCycle (s : State) (sid : Nat) (win b : Bool) : Option Nat :=
  match s.prepSide sid win b with
  | .unit u s' => some (s'.laneCycle sid (u.extractLsb' 77 3))
  | .wait => none
  | _ => some (s.laneCycle sid 0)

/-- Whether a side stands at a header with yh = 1 whose wait mask is clear, and that has not been counted (R220). -/
def State.yields (s : State) (sid : Nat) (win b : Bool) : Bool :=
  let sd := ((s.strand sid).laneCtx win).side b
  sd.live && sd.st == .running && sd.left == 0 && sd.reissue == [] && !sd.yh
  && (match s.fetchUnit sid sd.pc.toNat with
    | .got h _ => (match decodeHeader h with
      | .ok hd => hd.yh && !(List.range 12).any fun i => hd.wait.getLsbD i && (s.strand sid).flag i != 0
      | .error _ => false)
    | _ => false)

/-- A stream that has come to a header with yh = 1 counts as the most recent, once for each clause boundary (R56, R220). -/
def State.noteYield (s : State) (sid : Nat) : State :=
  let win := (s.strand sid).csr.ih
  let note := fun (s : State) (b : Bool) =>
    if s.yields sid win b then
      s.modStrand sid fun st =>
        let c := st.laneCtx win
        { (st.setLaneCtx win (c.setSide b { c.side b with yh := true })) with lastL := some s.stepNo }
    else s
  note (note s false) true


end Sys2Proof.Machine
end

