-- ==== Sys2Proof/Machine/Ready.lean ====
section
/-! DEFINITION. Whether a strand may issue (R130, R135, R137, R147). -/

namespace Sys2Proof.Machine

/-- Whether 400 ticks have passed since the NPR.ENTER of a strand's region (R235). -/
def State.overrun (s : State) (sid : Nat) : Bool :=
  match (s.strand sid).npr with
  | some t => decide (t + 400 ≤ s.ticks (dieOf (coreOf sid)))
  | none => false

/-- Whether a tier region above a core is shut down (R397): the core has stopped issuing, until the region returns to service (R262). -/
def State.coreStopped (s : State) (c : Nat) : Bool := (List.range 4).any fun t => ((mget? s.regions (c * 4 + t)).map (·.shutdown)).getD false

/-- Whether a strand may take a trap of its own instructions now (R130, R135, R137, R147): no entry under way, no condition known, not halted, its core not stopped (R397), its region not overrun, its context not pre-empted unless it is in a non-preemptible region (R234, R235). -/
def State.mayTrap (s : State) (sid : Nat) : Bool :=
  match mget? s.strands sid with
  | none => false
  | some st =>
    st.halt == .none && st.entry.isNone && !(st.condsKnown (s.cycles (coreOf sid)))
    && (s.team st.team).st == .running && !s.overrun sid && !s.coreStopped (coreOf sid)
    && (st.npr.isSome || !(match mget? s.ctxs (s.team st.team).ctx with
      | some c => c.preempted
      | none => false))

/-- Whether a before-effect fault of a stream stands that was answered Deliver (R87): it goes before every held cause (R135). -/
def Strand.faultStands (st : Strand) : Bool :=
  ((st.parkS.map (·.delivered)).getD false) || ((st.parkL.map (·.delivered)).getD false)

/-- Whether a strand may issue at all (R130, R135): it may trap, no before-effect fault stands, and outside a handler no cause is held. -/
def State.mayIssue (s : State) (sid : Nat) : Bool :=
  let st := s.strand sid
  s.mayTrap sid && !st.faultStands && (st.csr.ih || st.held == [])

/-- Whether a side runs. -/
def LaneCtx.runs (c : LaneCtx) (b : Bool) : Bool := (c.side b).live && (c.side b).st == .running

/-- Whether a strand's lane stream has something to issue (R59, R87, R184, R200). -/
def Strand.laneHasWork (st : Strand) : Bool :=
  let c := st.laneCtx st.csr.ih
  c.busy && c.spill.isNone && st.parkL.isNone && (c.runs false || c.runs true)

end Sys2Proof.Machine
end

