-- ==== Sys2Proof/Machine/ScalarMem.lean ====
section
/-! DEFINITION. Scalar memory access: LD, ST, AMOS, FLUSHS and the replies (R95, R108, R113 to R115, R351). -/

namespace Sys2Proof.Machine

/-- A loaded value of n bytes as a register holds it (R113). -/
def extLoad (n : Nat) (sx : Bool) (v : Nat) : W64 := if sx then sext64 (8 * n) v else BitVec.ofNat 64 v

/-- A result that arrives by a reply (R108). -/
def addReply (r : Reply) : M Unit := modMe fun st => { st with replies := st.replies ++ [r] }

/-- LD (R113): the access is made at issue; the value arrives with its reply. A load of an expired line whose condition traps completes and traps at once. (DESIGN CHOICE, log entry 27) -/
def execLd (t b : BitVec 6) (sg : BitVec 3) (z : BitVec 2) (x : BitVec 1) (o : BitVec 8) (s : State) : Out := scalar (do
  portsOk [b] [t]
  let base ← readSrc b
  dstReady t
  acqReady
  let n := 2 ^ z.toNat
  let off := base.toNat + o.toNat * n
  let p ← scalarPlace sg.toNat off n 0
  let (v, c, pois) ← readPlace p n
  let val := extLoad n (x == 1) v
  let fa := faddrS ((← me).segs.get sg.toNat) sg.toNat off
  let acm ← raiseScalar c
  if acm = 0 then
    addReply { kind := .load, dst := t.toNat, val := val, held := poisonHeld pois fa }
    advance
  else
    modMe fun st => { st.put t.toNat val with held := st.held ++ poisonHeld pois fa }
    return { pc := (← me).pc + 4, acm := acm }) s

/-- Whether the next store is a release store that goes to the point that R100 and R101 name (R95). -/
def Strand.storesThrough (st : Strand) : Bool := (st.relStore.map fun sc => decide (4 ≤ sc.toNat)).getD false

/-- ST (R95, R113): the next store after a FENCE.rel or FENCE.ar is the fence's release store. (DESIGN CHOICE, log entry 27) -/
def execSt (t b : BitVec 6) (sg : BitVec 3) (z : BitVec 2) (o : BitVec 8) (s : State) : Out := scalar (do
  portsOk [t, b] []
  let v ← readSrc t
  let base ← readSrc b
  acqReady
  let n := 2 ^ z.toNat
  let p ← scalarPlace sg.toNat (base.toNat + o.toNat * n) n 1
  writePlace p n (v.toNat % 2 ^ (8 * n)) (← me).storesThrough
  modMe fun st => { st with relStore := none }
  advance) s

/-- One atomic operation of the scalar stream at a place (R102, R114, R255, R349): the old value, its condition, whether poisoned. -/
def scalarAtomic (p : Place) (op n : Nat) (v cmp : W64) : M (Nat × Conds × Bool) := do
  let s ← get
  match p with
  | .os core off =>
    let (old, c, pois) := s.osRead core off n
    set (s.osWrite core off (leBytes n (atomicOp op n old v.toNat cmp.toNat)))
    return (old, c, pois)
  | .win _ _ _ => waitM
  | .mem pa pol _ =>
    let ln := pa / 128
    if pol = polREPL && 256 ≤ s.updates.length then waitM
    else
      let s := if pol = polREPL then s else s.dcFlush (dieOf (coreOf s.cur)) ln
      let (s, vs, pois) := s.sliceAtomic (fun a _ => a) ln op n (pol == polREPL) [{ off := pa % 128, val := v, cmp := cmp }] (some (← me).member)
      set s
      return ((vs.headD 0).toNat, 0, pois)

/-- AMOS on a segment (R114, R351): the release before the request, the operation, the acquire and the old value with the reply. -/
def amosOn (seg scope : Nat) (d a b : BitVec 6) (p : BitVec 4) (o : BitVec 2) (w : BitVec 1) : State → Out := scalar do
  let isCas := p.toNat == 9
  portsOk (if isCas then [a, b, d] else [a, b]) [d]
  let off ← readSrc a
  let v ← readSrc b
  dstReady d
  acqReady
  let cmp := (← me).reg d.toNat
  let n := if w = 1 then 4 else 8
  let pl ← scalarPlace seg off.toNat n 2
  if o.getLsbD 1 then releaseM scope
  let (old, c, pois) ← scalarAtomic pl p.toNat n v cmp
  let fa := faddrS ((← me).segs.get seg) seg off.toNat
  let acm ← raiseScalar c
  let val := BitVec.ofNat 64 old
  if acm = 0 then
    addReply { kind := .atomic, dst := d.toNat, val := val, held := poisonHeld pois fa
               acq := if o.getLsbD 0 then some (BitVec.ofNat 3 scope) else none }
    advance
  else
    modMe fun st => { st.put d.toNat val with held := st.held ++ poisonHeld pois fa }
    if o.getLsbD 0 then acquireM scope
    return { pc := (← me).pc + 4, acm := acm }

/-- AMOS, G and O forms (R114). -/
def execAmos (d a b : BitVec 6) (p : BitVec 4) (o : BitVec 2) (w sg : BitVec 1) (s : State) : Out :=
  amosOn (if sg = 1 then 4 else 0) (if sg = 1 then 1 else 4) d a b p o w s

/-- AMOS_X: AMOS on the visible area of the issuing core's own exchange window (R114, R257). -/
def execAmosX (d a b : BitVec 6) (p : BitVec 4) (o : BitVec 2) (w : BitVec 1) (s : State) : Out :=
  amosOn 5 2 d a b p o w s

/-- FLUSHS (R115, R370): the die-cache line is written back and invalidated; no action for an uncached or a host line. -/
def execFlushs (b : BitVec 6) (sg : BitVec 3) (o : BitVec 8) (s : State) : Out := scalar (do
  portsOk [b] []
  let base ← readSrc b
  acqReady
  let p ← scalarPlace sg.toNat (base.toNat + o.toNat) 1 0
  let die ← myDie
  match p with
  | .mem pa pol host =>
    if !host && pol != polNC then
      match (← get).flushLine die (pa / 128) pol with
      | some s => set s
      | none => waitM
  | _ => pure ()
  advance) s

/-- The replies of a kind, with their places. -/
def Strand.replyAt (st : Strand) (i : Nat) (k : ReplyKind) : Option Reply :=
  match st.replies[i]? with
  | some r => if r.kind = k then some r else none
  | none => none

/-- SCALAR_LOAD_REPLY (R108): the result of a load of strand ev.who, place ev.idx of its replies, arrives. -/
def execScalarLoadReply (s : State) : Out :=
  match (s.strand s.ev.who).replyAt s.ev.idx .load with
  | none => .next s
  | some r => .next (s.modStrand s.ev.who fun st =>
      { st.put r.dst r.val with replies := dropAt st.replies s.ev.idx, held := st.held ++ r.held })

/-- AMOS_REPLY (R351): the old value of an AMOS arrives, of one on a replicated line with the sequencer's acknowledgement (R357), and its acquire is performed. -/
def execAmosReply (s : State) : Out :=
  match (s.strand s.ev.who).replyAt s.ev.idx .atomic with
  | none => .next s
  | some r =>
    if s.ackDue (s.strand s.ev.who).member then .next s
    else
    let s1 := s.modStrand s.ev.who fun st =>
      { st.put r.dst r.val with replies := dropAt st.replies s.ev.idx, held := st.held ++ r.held }
    .next (match r.acq with
      | some sc => s1.acquireAt (dieOf (coreOf s.ev.who)) (s.ctxOf s.ev.who) sc.toNat
      | none => s1)

end Sys2Proof.Machine
end

