-- ==== Sys2Proof/Machine/ScalarSys.lean ====
section
/-! DEFINITION. Control/status registers, handles, segments, services, the end of a strand, traps and their return (R38 to R43, R77, R106, R107, R122 to R137). -/

namespace Sys2Proof.Machine

/-- LIVEDIES (R15). -/
def State.livedies (s : State) : W64 := BitVec.ofNat 64 (popCount 8 s.live.toNat * 256 + s.live.toNat)

/-- A context. -/
def State.ctx (s : State) (c : Nat) : Ctx := (mget? s.ctxs c).getD {}

/-- The value of a control/status register (R106, R107). -/
def State.csr (s : State) (sid n : Nat) : W64 :=
  let st := s.strand sid
  let t := s.team st.team
  let nat := fun (x : Nat) => (BitVec.ofNat 64 x : W64)
  match n with
  | 0x000 => 64
  | 0x001 => nat (sid % 4096)
  | 0x002 => nat t.id
  | 0x003 => nat t.x
  | 0x004 => nat t.y
  | 0x005 => nat t.z
  | 0x006 => nat st.role
  | 0x007 => nat st.roleIdx
  | 0x008 => nat (coreOf sid)
  | 0x009 => nat (dieOf (coreOf sid))
  | 0x00A => s.livedies
  | 0x00B => (s.ctx t.ctx).touched.setWidth 64
  | 0x00C => nat t.ctx
  | 0x00D => nat st.budget
  | 0x010 => nat (s.cycles (coreOf sid))
  | 0x011 => nat (s.ticks (dieOf (coreOf sid)))
  | 0x020 => st.csr.tvec
  | 0x021 => st.csr.tcause
  | 0x022 => st.csr.tepc
  | 0x023 => st.csr.tlpc
  | 0x024 => st.csr.tmask
  | 0x025 => st.trec
  | 0x026 => st.csr.trapen
  | 0x027 => st.csr.sflags
  | 0x028 => if st.csr.ih then 1 else 0
  | 0x029 => st.csr.tsave0
  | _ => st.csr.tsave1

/-- The reserved bits of a writable register (R107, R129): a non-zero value in one raises the illegal-operand trap. -/
def csrReserved (n : Nat) : W64 :=
  match n with
  | 0x020 => 0x3
  | 0x021 => 0x00000FFFF800F100
  | 0x026 => 0xFFFFFFFFFFFFF800
  | 0x027 => 0xFFFFFFFFFFFFFE9F
  | _ => 0

/-- Write a control/status register (R106, R107). -/
def Csrs.put (c : Csrs) (n : Nat) (v : W64) : Csrs :=
  match n with
  | 0x020 => { c with tvec := v }
  | 0x021 => { c with tcause := v }
  | 0x022 => { c with tepc := v }
  | 0x023 => { c with tlpc := v }
  | 0x024 => { c with tmask := v }
  | 0x026 => { c with trapen := (v &&& ~~~0x600) ||| 0x600 }
  | 0x027 => { c with sflags := v }
  | 0x029 => { c with tsave0 := v }
  | 0x02A => { c with tsave1 := v }
  | _ => c

/-- CSRR (R122). -/
def execCsrr (d : BitVec 6) (c : BitVec 12) (s : State) : Out := scalar (do
  portsOk [] [d]
  let v := (← get).csr (← get).cur c.toNat
  writeDst d v
  advance) s

/-- A register write (R122): the value is checked as a whole before any bit changes. -/
def csrWrite (a : BitVec 6) (c : BitVec 12) (f : W64 → W64 → W64) : State → Out := scalar do
  portsOk [a] []
  let x ← readSrc a
  let old := (← get).csr (← get).cur c.toNat
  let v := f old x
  if v &&& csrReserved c.toNat != 0 then badOperand
  modMe fun st => { st with csr := st.csr.put c.toNat v }
  advance

/-- CSRW (R122). -/
def execCsrw (a : BitVec 6) (c : BitVec 12) (s : State) : Out := csrWrite a c (fun _ x => x) s
/-- CSRS (R122). -/
def execCsrs (a : BitVec 6) (c : BitVec 12) (s : State) : Out := csrWrite a c (fun old x => old ||| x) s
/-- CSRC (R122). -/
def execCsrc (a : BitVec 6) (c : BitVec 12) (s : State) : Out := csrWrite a c (fun old x => old &&& ~~~x) s

/-! ### Handles -/

/-- Fields of a handle record (R39). -/
def hFmt (h : BitVec 2048) : Nat := (h.extractLsb' 0 4).toNat
def hRank (h : BitVec 2048) : Nat := (h.extractLsb' 8 5).toNat
def hBdim (h : BitVec 2048) : Nat := (h.extractLsb' 16 4).toNat
def hLife (h : BitVec 2048) : Nat := (h.extractLsb' 24 4).toNat
def hScale (h : BitVec 2048) : Nat := (h.extractLsb' 32 32).toNat
def hBase (h : BitVec 2048) : W64 := h.extractLsb' 64 64
def hExtent (h : BitVec 2048) (d : Nat) : Nat := (h.extractLsb' (128 + 32 * d) 32).toNat
def hStride (h : BitVec 2048) (d : Nat) : W64 := h.extractLsb' (640 + 64 * d) 64

/-- Width of an element in memory, in bytes; a Q4X block counts as 1 (R19). -/
def elemBytes (fmt : Nat) : Nat := if fmt = 11 then 1 else tyBytes fmt

/-- Whether a record passes validation (R40). -/
def handleOk (h : BitVec 2048) : Bool :=
  let f := hFmt h
  let r := hRank h
  let q := f == 11
  let dims := List.range 16
  f < 14 && 1 ≤ r && r ≤ 16
  && h.extractLsb' 4 4 == 0 && h.extractLsb' 13 3 == 0 && h.extractLsb' 20 4 == 0 && h.extractLsb' 28 4 == 0
  && h.extractLsb' 1664 384 == 0
  && hLife h ≤ 8
  && dims.all (fun d => if d < r then hExtent h d != 0 else hExtent h d == 0 && hStride h d == 0)
  && (if q then hBdim h < r && hStride h (hBdim h) == 0 && (hBase h).toNat % 2 == 0 && dims.all (fun d => (hStride h d).toNat % 2 == 0)
      else hBdim h == 0 && (hBase h).toNat % elemBytes f == 0 && dims.all (fun d => (hStride h d).toNat % elemBytes f == 0))
  && (if [11, 12, 3, 4].contains f then normal32 (hScale h) else true)

/-- A handle of a context (R38). -/
def State.handle (s : State) (ctx n : Nat) : Option (BitVec 2048) := mget? (s.ctx ctx).handles n

/-- The places of the 32 double words of a record at a segment offset (R64, R78, R123): every word keeps its limit before a line of the record is looked at, a FREE line goes before a barrier, and every denial before a translation fault. -/
def recordPlaces (seg off kind : Nat) : M (List Place) := do
  let d := (← me).segs.get seg
  if off % 256 != 0 then trapM 0x06 (faddrS d seg off)
  match (List.range 32).find? fun i => !d.fits seg (off + 8 * i) 8 kind with
  | some i => trapM 0x06 (faddrS d seg (off + 8 * i))
  | none => pure ()
  let ws := (List.range 32).map fun i => scalarPlace seg (off + 8 * i) 8 kind
  trapFirst (fun t => t.code == 0x06) ws
  trapFirst (fun _ => true) ws
  ws.mapM id

/-- Read a record of 256 bytes with the ordering of plain scalar loads (R40, R125): its bytes as a number, and whether some word was poisoned. (DESIGN CHOICE, log entry 57) -/
def readRecord (ps : List Place) : M (Nat × Bool) := do
  let vs ← ps.mapM fun p => readPlace p 8
  return ((vs.zip (List.range 32)).foldl (fun a v => a + v.1.1 * 2 ^ (64 * v.2)) 0, vs.any fun v => v.2.2)

/-- HDEF (R40, R43, R123). -/
def execHdef (a : BitVec 6) (sg : BitVec 3) (n : BitVec 8) (s : State) : Out := scalar (do
  portsOk [a] []
  let off ← readSrc a
  acqReady
  let ps ← recordPlaces sg.toNat off.toNat 0
  let (v, pois) ← readRecord ps
  let h := BitVec.ofNat 2048 v
  if !handleOk h then badRead (s.strand s.cur)
  else
    let c ← myCtx
    modify fun s => { s with ctxs := mmod s.ctxs c fun x => { x with handles := mput x.handles n.toNat h } }
    modMe fun st => { st with held := st.held ++ poisonHeld pois (faddrS (st.segs.get sg.toNat) sg.toNat off.toNat) }
    advance) s

/-- HREAD (R42, R95, R123): its stores are ordered as plain scalar stores, and after a FENCE.rel or FENCE.ar they are the fence's release store. -/
def execHread (a : BitVec 6) (sg : BitVec 3) (n : BitVec 8) (s : State) : Out := scalar (do
  portsOk [a] []
  let off ← readSrc a
  let c ← myCtx
  match (← get).handle c n.toNat with
  | none => badOperand
  | some h =>
    acqReady
    let ps ← recordPlaces sg.toNat off.toNat 1
    let through := (← me).storesThrough
    (ps.zip (List.range 32)).forM fun p => writePlace p.1 8 (h.extractLsb' (64 * p.2) 64).toNat through
    modMe fun st => { st with relStore := none }
    advance) s

/-! ### Segments -/

/-- SEGRD_BASE (R124). -/
def execSegrdBase (d : BitVec 6) (sg : BitVec 3) (s : State) : Out := scalar (do
  portsOk [] [d]
  writeDst d (((← me).segs.get sg.toNat).seen sg.toNat)
  advance) s

/-- SEGRD_LEN (R124). -/
def execSegrdLen (d : BitVec 6) (sg : BitVec 3) (s : State) : Out := scalar (do
  portsOk [] [d]
  writeDst d ((← me).segs.get sg.toNat).len
  advance) s

/-- Whether a descriptor keeps R77; the O and X descriptors lie in the team's space. -/
def segOk (n : Nat) (d : Seg) (obase tseg xbase window : Nat) : Bool :=
  match n with
  | 1 => d.base.toNat % 256 == 0 && d.len.toNat % 4 == 0
  | 4 => d.base.toNat % 256 == 0 && d.len.toNat % 256 == 0
      && obase ≤ d.base.toNat && d.base.toNat + d.len.toNat ≤ obase + tseg
  | 5 => d.base.toNat == xbase && d.len.toNat == window
  | 6 => d.base.toNat % 4 == 0
  | 7 => d.base.toNat % 4 == 0
  | _ => true

/-- The privilege check of SEGLD and HALT (R50): a strand of a user context takes the privilege trap. (DESIGN CHOICE, log entry 6) -/
def privileged : M Unit := do
  if ((← get).ctx (← myCtx)).user then trapM 0x02

/-- SEGLD (R77, R124). -/
def execSegld (a b : BitVec 6) (sg : BitVec 3) (s : State) : Out := scalar (do
  privileged
  portsOk [a, b] []
  let x ← readSrc a
  let y ← readSrc b
  waitLaneIdle
  let t ← myTeam
  if !segOk sg.toNat { base := x, len := y } (t.obase % 2 ^ 26) t.tseg (t.xbase % 2 ^ 26) t.blk.window then badOperand
  let tag := if sg = 4 then osTag t.obase else if sg = 5 then osTag t.xbase else 0
  modMe fun st => { st with segs := st.segs.put sg.toNat { base := x + BitVec.ofNat 64 tag, len := y } }
  advance) s

/-! ### Services, yielding, the end of a strand -/

/-- Write the bytes of a record at a virtual address of a context, through the Basin walker (R86, R202). (DEDUCED, log entry 24) -/
def ringWrite (ctx va : Nat) (bs : List Byte) : M Unit := do
  let s ← get
  match s.xlate 8 ctx va { w := true } .any with
  | .error x => throw (.park { parkOf ctx va 0 1 x with agent := 0 })
  | .ok r =>
    if !r.s.allowed ctx r.pa { w := true } then throw (.trap { code := 0x07 } [(r.pa, 1)])
    else if inHostWin r.pa && !s.cacheUp then waitM
    else set (r.s.anyPutBytes r.pa bs)

/-- LAUNCH of SYSC (R125). (DEDUCED, log entry 22) (DEDUCED, log entry 24) -/
def syscLaunch : M SOut := do
  acqReady
  let st ← me
  let qn := st.reg 1
  let off := (st.reg 2).toNat
  let ps ← recordPlaces 0 off 0
  let (v, pois) ← readRecord ps
  let s ← get
  let c ← myCtx
  let ans : Nat ← match mget? s.queues qn.toNat with
    | none => pure (if 32767 < qn.toNat then 2 else if c = 0 then 3 else 2)
    | some q =>
      if 32767 < qn.toNat || q.ctx != c then pure 2
      else if !q.en then pure 3
      else if (q.tail - q.head).toNat = 2 ^ q.ringlog then pure 1
      else do
        ringWrite c ((q.lring.toNat + 256 * (q.tail.toNat % 2 ^ q.ringlog)) % 2 ^ 64) (leBytes 256 v)
        modify fun s => s.doorbell qn.toNat (q.tail + 1)
        pure 0
  modMe fun st => { (st.setReg 1 (BitVec.ofNat 64 ans)).setReg 2 0 with
    held := st.held ++ poisonHeld pois (faddrS st.segs.g 0 off) }
  advance

/-- SYSC (R125, R375): LAUNCH, a request to the host, for whose answer in a1 and a2 the scalar stream waits, or an unknown service. -/
def execSysc (i : BitVec 20) (s : State) : Out := scalar (do
  let st ← me
  waitUnless (!((List.range 7).any fun r => st.regBusy r))
  if i = 1 then syscLaunch
  else if 0x80000 ≤ i.toNat then
    let s ← get
    let c ← myCtx
    let seq := s.svcNext
    set (s.postService { ty := 3, arg := BitVec.ofNat 48 (i.toNat + c * 2 ^ 20)
                         body := (List.range 6).map fun k => st.reg (k + 1), sid := s.cur, seq := 0 })
    addReply { kind := .service, dst := 1, svc := some seq, inH := st.csr.ih }
    addReply { kind := .service, dst := 2, svc := some seq, inH := st.csr.ih }
    advance
  else
    modMe fun st => (st.setReg 1 0xFFFFFFFFFFFFFFFF).setReg 2 0
    advance) s

/-- YIELD (R126): the stream counts as the most recent of its slot; every issue marks it so. -/
def execYield (s : State) : Out := scalar advance s

/-- Whether something that a strand has asked of an engine or a unit is still under way (R127, R287). -/
def State.workLeft (s : State) (sid : Nat) : Bool :=
  (s.mxq.any fun q => q.2.any fun c => c.sid == sid) || (s.scopies.any fun q => q.2.any fun c => c.sid == sid)
  || (s.clusterMsgs.any fun m => m.sid == sid) || (s.appends.any fun a => a.sid == sid) || (s.quiets.any fun q => q.sid == sid)
  || (s.tileBack.any fun b => b.sid == sid)

/-- EXIT (R81, R127): waits until everything of the strand is done, its stores acknowledged (R356), then the strand leaves the core. -/
def execExit (s : State) : Out := scalar (do
  let st ← me
  if st.blocksRun then waitQ 9
  waitUnless (!s.workLeft s.cur && st.flagsClear && st.savedClear && st.replies == [] && st.longs == [] && st.pendC == []
    && !s.ackDue st.member)
  let key := st.team
  modify fun s => (s.removeStrand s.cur).barLeave key (s.team key)
  advance) s

/-- HALT (R128): every strand of the team stops at an instruction boundary, one in a non-preemptible region too (DESIGN CHOICE, log entry 64), and the team is reported. -/
def execHalt (s : State) : Out := scalar (do
  privileged
  let st ← me
  let key := st.team
  modify fun s =>
    (((s.team key).sids.foldl (fun s sid => s.stopStrand sid .byHalt) s).report 0x33
      (BitVec.ofNat 64 key) (BitVec.ofNat 64 s.cur) 0)
  advance) s

/-- TRAP (R134). -/
def execTrap (i : BitVec 20) (s : State) : Out := scalar (do
  throw (.trap { code := 0x0E, info := i } [])) s

/-- The return from a trap (R133): illegal outside a handler; it waits for the trap window and the live flags. -/
def eretWith (retry : Bool) : State → Out := scalar do
  let st ← me
  if !st.csr.ih then illegal
  waitBlocks st.win st.flagsClear
  modify fun s => s.returnFromTrap s.cur retry
  return { pc := (← me).pc }

/-- ERET (R133). -/
def execEret (s : State) : Out := eretWith false s
/-- ERET_RETRY (R133, R147). -/
def execEretRetry (s : State) : Out := eretWith true s

end Sys2Proof.Machine
end

