-- ==== Sys2Proof/Machine/Rank.lean ====
section
/-! DEFINITION. Rank instructions and their completion (R322 to R342). -/

namespace Sys2Proof.Machine

/-! ### Issue -/

/-- The network takes at most 4 operations of a core (R322). -/
def rankRoom : M Unit := do
  let core ← myCore
  waitUnless (decide ((((← get).rankOps core).length) < 4))

/-- A segment fault or an illegal operand of the leader lane (R326). -/
def leadTrap {α : Type} (code : Byte) (lead off : Nat) : M α := laneTrap code [(lead, BitVec.ofNat 64 off)]

/-- A region that an instruction names (R326): space, offset, length, alignment, whether it is a destination. -/
structure RkRegion where
  space : RkSpace
  off : Nat
  len : Nat
  al : Nat
  dst : Bool := false
  deriving DecidableEq, Repr

/-- The checks of R326 in the order of R64: the limits and alignments of all regions, then FREE lines, then arrival barriers in a destination. (DEDUCED, log entry 36) -/
def rkCheck (lead : Nat) (rs : List RkRegion) : M Unit := do
  let s ← get
  rs.forM fun r =>
    match s.rkWindow s.cur r.space with
    | none => leadTrap 0x06 lead r.off
    | some (_, _, len) => if len < r.off + r.len || !aligned r.off r.al then leadTrap 0x06 lead r.off else pure ()
  rs.forM fun r =>
    match s.rkWindow s.cur r.space with
    | none => pure ()
    | some (core, base, _) => if s.osAnyFree core (base + r.off) r.len then leadTrap 0x06 lead r.off else pure ()
  rs.forM fun r =>
    match s.rkWindow s.cur r.space with
    | none => pure ()
    | some (core, base, _) =>
      if r.dst then
        match (List.range r.len).find? fun i => s.osMeetsBarrier core (base + r.off + i) 1 with
        | some i => leadTrap 0x05 lead (r.off + i)
        | none => pure ()
      else pure ()

/-- The leader lane (R324). -/
def leader (m : W64) : Nat := (lanesOf m).headD 0

/-- A parameter of a rank instruction (R324): its register in the leader lane, whose poisoned word alone is a cause (R261); a port is popped once. -/
def readLead (x : LaneIn) (r : BitVec 10) : M (Nat → W32) := readV { x with active := x.active &&& -x.active } r

/-- A rank instruction issues: its flag is counted, the places of its count are reserved; with Active empty it does nothing else (R323, R324). -/
def rankIssue (x : LaneIn) (w : LaneW) (op : LaneOp) (fl : BitVec 4) (lat : Nat) (ws : List LaneWrite) (r : RankOp) : M Unit :=
  issueLong x w op .rank fl lat { writes := ws, rank := if x.active = 0 then none else some r }

/-- RKENC (R329). -/
def execRkenc (w : LaneW) (s : State) : Out := lane w (fun x => do
  let fl ← longFlag x w
  laneRegs x [w.va, w.vb, w.vc] [w.vd]
  let a ← readLead x w.va
  let b ← readLead x w.vb
  let c ← readLead x w.vc
  roomFor w.vd x.active
  rankRoom
  let L := leader x.active
  let r : RankOp := { src := (a L).toNat, dst := (b L).toNat, n := (c L).toNat, lead := L }
  if x.active != 0 then
    if r.n = 0 || 4096 < r.n then badOperand
    let k := tyBytes w.ty.toNat
    let e := rkEntry .rkenc w
    rkCheck L [{ space := rkSrc w, off := r.src, len := r.n * k, al := k }, { space := rkDst w, off := r.dst, len := (rkC w + 1) * e, al := e, dst := true }]
  rankIssue x w .rkenc fl 16 (destWrites w.vd x.active fun _ => 0) r) s

/-- The table that a reader of a context takes from a slot (R330): none when it is invalid or another context's. (DEDUCED, log entry 36) -/
def State.rkTable (s : State) (core slot ctx : Nat) : Option (List W16) :=
  match mget? s.rkTab (core * 4 + slot) with
  | some t => if t.ctx = ctx then some t.entries else none
  | none => none

/-- RKREC (R333): the table and the handle's SCALE are those of its acceptance. -/
def execRkrec (w : LaneW) (s : State) : Out := lane w (fun x => do
  let fl ← longFlag x w
  laneRegs x [w.va, w.vb, w.vc] [w.vd]
  let a ← readLead x w.va
  let b ← readLead x w.vb
  let c ← readLead x w.vc
  roomFor w.vd x.active
  rankRoom
  let L := leader x.active
  let ctx ← myCtx
  let core ← myCore
  let h := (← get).handle ctx (w.aux.extractLsb' 0 8).toNat
  let tab := (← get).rkTable core ((rkSlot .rkrec w).getD 0) ctx
  let r : RankOp := {
    src := (a L).toNat, dst := (b L).toNat, n := (c L).toNat, lead := L, scale := (h.map hScale).getD 0
    table := tab.getD [], tableOk := tab.isSome }
  if x.active != 0 then
    if r.n = 0 || 4096 < r.n || (h.map hFmt) != some 12 then badOperand
    let k := tyBytes w.ty.toNat
    rkCheck L [{ space := rkSrc w, off := r.src, len := 2, al := 2 }, { space := .o, off := r.dst, len := r.n * k, al := k, dst := true }]
  rankIssue x w .rkrec fl 16 (destWrites w.vd x.active fun _ => 0) r) s

/-- RKTAB (R331). -/
def execRktab (w : LaneW) (s : State) : Out := lane w (fun x => do
  let fl ← longFlag x w
  laneRegs x [w.va] []
  let a ← readLead x w.va
  rankRoom
  let L := leader x.active
  let r : RankOp := { src := (a L).toNat, lead := L }
  if x.active != 0 then rkCheck L [{ space := .o, off := r.src, len := 512, al := 2 }]
  rankIssue x w .rktab fl 8 [] r) s

/-- RKMRG (R334). -/
def execRkmrg (w : LaneW) (s : State) : Out := lane w (fun x => do
  let fl ← longFlag x w
  laneRegs x [w.va, w.vb, w.vc] [w.vd]
  let a ← readLead x w.va
  let b ← readLead x w.vb
  let d ← readLead x w.vc
  roomFor w.vd x.active
  rankRoom
  let L := leader x.active
  let r : RankOp := { src := (a L).toNat, n := (b L).toNat, dst := (d L).toNat, lead := L }
  if x.active != 0 then
    let e := rkEntry .rkmrg w
    rkCheck L [{ space := .o, off := r.src, len := 8, al := 8 }, { space := .o, off := r.n, len := 8, al := 8 },
      { space := .o, off := r.dst, len := (rkC w + 1) * e, al := e, dst := true }]
  rankIssue x w .rkmrg fl 16 (destWrites w.vd x.active fun _ => 0) r) s

/-! ### The ranking order (R327) -/

/-- An element of a list to rank: what decides (larger first), index, sign, the value as a pair holds it. -/
structure Ranked where
  key : Int
  idx : Nat
  neg : Bool
  val : W32
  deriving DecidableEq, Repr

/-- Put an element in its place behind those that come before it or equal it: larger keys first, then lower indices. -/
def rkInsert (r : Ranked) : List Ranked → List Ranked
  | [] => [r]
  | y :: ys => if y.key < r.key ∨ (y.key = r.key ∧ r.idx < y.idx) then r :: y :: ys else y :: rkInsert r ys

/-- Order a list (R327, R335); elements that tie entirely keep their order. -/
def rkSort (l : List Ranked) : List Ranked := l.foldl (fun acc r => rkInsert r acc) []

/-- Whether a type is a floating-point one (R19). -/
def tyFloat (ty : Nat) : Bool := ty ≤ 4

/-- An element of a type (R327, R328): none for a NaN. -/
def rkElem (ty i v : Nat) : Option Ranked :=
  if tyFloat ty then
    let f := fmtOf ty
    let d := decodeF f v
    if isNan d then none
    else some { key := (v % 2 ^ (f.width - 1) : Nat), idx := i, neg := v.testBit (f.width - 1), val := BitVec.ofNat 32 (rne32 d) }
  else
    let k := sval (8 * tyBytes ty) v
    some { key := (k.natAbs : Nat), idx := i, neg := decide (k < 0), val := extTy ty v }

/-- A token (R34, R328). -/
def rkToken (tie neg : Bool) (idx : Nat) : Nat := (if tie then 0x2000 else 0) + (if neg then 0x1000 else 0) + idx % 4096

/-- The tokens of an ordered list (R328); prev: the key of the token before. -/
def rkTokens : Option Int → List Ranked → List Nat
  | _, [] => [0xFFFF]
  | prev, r :: rs => rkToken (prev == some r.key) r.neg r.idx :: rkTokens (some r.key) rs

/-- The bytes of a list in one of its forms (R328). -/
def rkBytes (pairs : Bool) (l : List Ranked) : List Byte :=
  if pairs then l.flatMap (fun r => leBytes 4 r.val.toNat ++ leBytes 4 r.idx) ++ leBytes 8 0xFFFFFFFF00000000
  else (rkTokens none l).flatMap (leBytes 2)

/-- TOPK (R335): candidates as they stand at issue; the list and the NaN counts are written at completion. -/
def execTopk (w : LaneW) (s : State) : Out := lane w (fun x => do
  let fl ← longFlag x w
  withVe x [w.va, w.vb, w.vd] w.vd w.ve
  let k := (w.aux.extractLsb' 0 7).toNat
  if k = 0 || 64 < k then badOperand
  let low : W64 := maskOf fun L => decide (L < k)
  let reg := if x.active = 0 then (0 : W64) else low
  let ov ← readV { x with active := reg } w.vd
  let oi ← readV { x with active := reg } w.ve
  let a ← readV x w.va
  let b ← readV x w.vb
  roomFor w.vd reg
  rankRoom
  let ty := w.ty.toNat
  let mag := w.md.getLsbD 0
  let cand := ((List.range k).filter (fun j => oi j != 0xFFFFFFFF)).map (fun j => (j, ov j, oi j))
    ++ ((lanesOf x.active).filter fun L => b L != 0xFFFFFFFF).map fun L => (L, a L, b L)
  let elem := fun (p : Nat × W32 × W32) => (rkElem ty p.2.2.toNat p.2.1.toNat).map fun r =>
    { r with key := if r.neg && !mag then -r.key else r.key, val := p.2.1 }
  let top := rkSort (cand.filterMap elem)
  let nans := (cand.filter fun p => (elem p).isNone).map (·.1)
  let at' := fun j => (top[j]?).elim ((0 : W32), (0xFFFFFFFF : W32)) fun r => (r.val, BitVec.ofNat 32 r.idx)
  let ws := destWrites w.vd reg (fun j => (at' j).1) ++ destWrites w.ve reg fun j => (at' j).2
  rankIssue x w .topk fl 10 ws { nan := nans.map fun L => (L, 1) }) s

/-! ### The run of an operation -/

/-- What an operation has met (R336): conditions, the first offset that was poisoned and the first in a freed line; the lines read and written (R323). -/
structure RkMet where
  conds : Conds := 0
  pois : Option Nat := none
  freed : Option Nat := none
  rd : List Nat := []
  wr : List Nat := []
  deriving DecidableEq, Repr

/-- Note a line. -/
def addLine (l : List Nat) (n : Nat) : List Nat := if l.contains n then l else n :: l

/-- Read up to 4 bytes of one word at an offset of a space (R336). -/
def rkRead (s : State) (win : Nat × Nat × Nat) (n off : Nat) (m : RkMet) : Nat × RkMet :=
  let at' := win.2.1 + off
  let m := { m with rd := addLine m.rd (at' / 256) }
  if (s.osLine win.1 (at' / 256)).free then (0, { m with freed := m.freed.or (some off) })
  else
    let (v, c, p) := s.osRead win.1 at' n
    (v, { m with conds := m.conds ||| c, pois := if p then m.pois.or (some off) else m.pois })

/-- Read n elements of w bytes from an offset up. -/
def rkReads (s : State) (win : Nat × Nat × Nat) (w off : Nat) : Nat → RkMet → List Nat × RkMet
  | 0, m => ([], m)
  | n + 1, m =>
    let (v, m) := rkRead s win w off m
    let (vs, m) := rkReads s win w (off + w) n m
    (v :: vs, m)

/-- Write bytes at an offset of a space, line by line; a freed line is skipped (R336). -/
def rkWrite (s : State) (win : Nat × Nat × Nat) (off : Nat) (bs : List Byte) (m : RkMet) : State × RkMet :=
  if bs = [] then (s, m)
  else
    let lo := win.2.1 + off
    let lines := (List.range ((lo + bs.length - 1) / 256 - lo / 256 + 1)).map (lo / 256 + ·)
    let first := lines.find? fun l => (s.osLine win.1 l).free
    let at' := first.map fun l => Nat.max lo (l * 256) - win.2.1
    (s.osWriteAll win.1 lo bs, { m with freed := m.freed.or at', wr := lines })

/-- What an operation leaves: the state, what it met, the count for vd, conditions of its arithmetic or format, NaN counts. -/
structure RkOut where
  s : State
  met : RkMet
  count : Nat := 0
  conds : Conds := 0
  nan : Nat := 0

/-- RKENC's run (R329). -/
def runRkenc (s : State) (sid : Nat) (w : LaneW) (r : RankOp) : RkOut :=
  let ty := w.ty.toNat
  let b := tyBytes ty
  let (xs, m) := match s.rkWindow sid (rkSrc w) with
    | some win => rkReads s win b r.src r.n {}
    | none => (List.replicate r.n 0, {})
  let es := (xs.zip (List.range r.n)).map fun p => rkElem ty p.2 p.1
  let l := (rkSort ((es.filterMap id).filter fun e => !(rkNz w && e.key == 0))).take (rkC w)
  let (s, m) := match s.rkWindow sid (rkDst w) with
    | some win => rkWrite s win r.dst (rkBytes (rkPairs w) l) m
    | none => (s, m)
  { s := s, met := m, count := l.length, nan := (es.filter (·.isNone)).length }

/-- The tokens of RKREC (R333), token by token, at most fuel of them: the elements, the number applied, the first rank of the tie run, conditions. -/
def recTokens (s : State) (win : Nat × Nat × Nat) (r : RankOp) (f : Fmt) (ts : Bool) (k run : Nat) (out : NMap Nat) (m : RkMet) (c : Conds) :
    Nat → NMap Nat × Nat × RkMet × Conds
  | 0 => (out, k, m, c ||| cRKF)
  | fuel + 1 =>
    let off := r.src + 2 * k
    if win.2.2 < off + 2 then (out, k, m, c ||| cRKF)
    else
      let (tok, m) := rkRead s win 2 off m
      let idx := tok % 4096
      let tie := tok.testBit 13
      if tok = 0xFFFF then (out, k, m, c)
      else if 2 ^ 14 ≤ tok || (k = 0 && tie) || 256 ≤ k || r.n ≤ idx then (out, k, m, c ||| cRKF)
      else
        let run := if tie then run else k
        let wt := decodeF (fmtOf 1) (r.table.getD (if ts then run else k) 0).toNat
        let (p, c1) := mulF wt (decodeF f32 r.scale)
        let p := if tok.testBit 12 then negF p else p
        let (v, c2) := addF 0 (decodeF f (mget out idx 0)) p
        let (y, c3) := encodeF f 0 false false v
        recTokens s win r f ts (k + 1) run (mset out idx y 0) m (c ||| c1 ||| c2 ||| c3 ||| (if isNan wt then cINV else 0)) fuel

/-- RKREC's run (R333). -/
def runRkrec (s : State) (sid : Nat) (w : LaneW) (r : RankOp) : RkOut :=
  let b := tyBytes w.ty.toNat
  let win := (s.rkWindow sid .o).getD (0, 0, 0)
  let (xs, m) := if rkAcc w then rkReads s win b r.dst r.n {} else ([], {})
  let out0 := (xs.zip (List.range r.n)).foldl (fun o p => mset o p.2 p.1 0) ([] : NMap Nat)
  let (out, k, m, c) := match s.rkWindow sid (rkSrc w) with
    | some src => recTokens s src r (fmtOf w.ty.toNat) (rkTs w) 0 0 out0 m (if r.tableOk then 0 else cRKF) 300
    | none => (out0, 0, m, cRKF)
  let (s, m) := rkWrite s win r.dst ((List.range r.n).flatMap fun i => leBytes b (mget out i 0)) m
  { s := s, met := m, count := k, conds := c }

/-- RKTAB's run (R331): the entries as stored, tagged with the context. (DEDUCED, log entry 36) -/
def runRktab (s : State) (sid : Nat) (w : LaneW) (r : RankOp) : RkOut :=
  let win := (s.rkWindow sid .o).getD (0, 0, 0)
  let (xs, m) := rkReads s win 2 r.src 256 {}
  let slot := (rkSlot .rktab w).getD 0
  let t : RkTable := { ctx := s.ctxOf sid, entries := xs.map (BitVec.ofNat 16) }
  { s := { s with rkTab := mput s.rkTab (coreOf sid * 4 + slot) t }, met := m }

/-- The head of a pair list (R334): its end entry, an entry, or RKF: past O, or no end entry within 2048. -/
inductive PairHead where
  | fin
  | elem (v i : Nat)
  | bad
  deriving DecidableEq, Repr

/-- Entry i of a pair list at an offset (R334, R336). -/
def pairAt (s : State) (win : Nat × Nat × Nat) (off i : Nat) (m : RkMet) : PairHead × RkMet :=
  let o := off + 8 * i
  if win.2.2 < o + 8 then (.bad, m)
  else
    let (v, m) := rkRead s win 4 o m
    let (x, m) := rkRead s win 4 (o + 4) m
    if x = 0xFFFFFFFF then (.fin, m) else if 2047 ≤ i then (.bad, m) else (.elem v x, m)

/-- Whether an entry keeps the order behind the one before it (R334). -/
def keepsOrder (prev : Option Ranked) (e : Ranked) : Bool :=
  match prev with
  | none => true
  | some p => e.key < p.key || (e.key == p.key && p.idx < e.idx)

/-- The state of a merge (R334): places in both lists, the entries taken last, those emitted, NaN count, what was met, RKF. -/
structure Merge where
  i : Nat := 0
  j : Nat := 0
  pa : Option Ranked := none
  pb : Option Ranked := none
  out : List Ranked := []
  nan : Nat := 0
  met : RkMet := {}
  rkf : Bool := false

/-- Take an entry of A or of B (R334). -/
def Merge.take (g : Merge) (tok fromA : Bool) (e : Ranked) : Merge × Bool :=
  if !keepsOrder (if fromA then g.pa else g.pb) e || (tok && 4095 < e.idx) then ({ g with rkf := true }, true)
  else if fromA then ({ g with i := g.i + 1, pa := some e, out := g.out ++ [e] }, false)
  else ({ g with j := g.j + 1, pb := some e, out := g.out ++ [e] }, false)

/-- One move of a merge: a NaN skipped, an entry taken, or the end. (DEDUCED, log entry 36) -/
def Merge.step (s : State) (win : Nat × Nat × Nat) (ty : Nat) (r : RankOp) (tok : Bool) (g : Merge) : Merge × Bool :=
  let (a, m) := pairAt s win r.src g.i g.met
  let (b, m) := pairAt s win r.n g.j m
  let g := { g with met := m }
  match a, b with
  | .bad, _ => ({ g with rkf := true }, true)
  | _, .bad => ({ g with rkf := true }, true)
  | .fin, .fin => (g, true)
  | .elem v x, .fin =>
    match rkElem ty x v with
    | none => ({ g with i := g.i + 1, nan := g.nan + 1 }, false)
    | some e => g.take tok true { e with val := BitVec.ofNat 32 v }
  | .fin, .elem v x =>
    match rkElem ty x v with
    | none => ({ g with j := g.j + 1, nan := g.nan + 1 }, false)
    | some e => g.take tok false { e with val := BitVec.ofNat 32 v }
  | .elem v x, .elem u y =>
    match rkElem ty x v, rkElem ty y u with
    | none, _ => ({ g with i := g.i + 1, nan := g.nan + 1 }, false)
    | _, none => ({ g with j := g.j + 1, nan := g.nan + 1 }, false)
    | some e, some f =>
      if f.key < e.key ∨ (f.key = e.key ∧ x ≤ y) then g.take tok true { e with val := BitVec.ofNat 32 v }
      else g.take tok false { f with val := BitVec.ofNat 32 u }

/-- The merge up to C entries (R334). -/
def Merge.run (s : State) (win : Nat × Nat × Nat) (ty : Nat) (r : RankOp) (tok : Bool) (c : Nat) (g : Merge) : Nat → Merge
  | 0 => g
  | fuel + 1 =>
    if c ≤ g.out.length then g
    else
      let (g, stop) := g.step s win ty r tok
      if stop then g else Merge.run s win ty r tok c g fuel

/-- RKMRG's run (R334): each list has at most 2048 places. -/
def runRkmrg (s : State) (sid : Nat) (w : LaneW) (r : RankOp) : RkOut :=
  let win := (s.rkWindow sid .o).getD (0, 0, 0)
  let g := Merge.run s win w.ty.toNat r (rkTok w) (rkC w) {} 4200
  let (s, m) := rkWrite s win r.dst (rkBytes (!rkTok w) g.out) g.met
  { s := s, met := m, count := g.out.length, conds := if g.rkf then cRKF else 0, nan := g.nan }

/-- NaN counts join lstat.NANC of their lanes, which stops at 255 (R145, R327). -/
def Strand.addNan (st : Strand) (L n : Nat) : Strand :=
  let old := mget st.v (lstatKey L) 0
  let c := Nat.min 255 (old.toNat / 2 ^ 16 % 256 + n)
  { st with v := mset st.v (lstatKey L) ((old &&& 0xFF00FFFF) ||| BitVec.ofNat 32 (c * 2 ^ 16)) 0 }

/-- What an operation reports at its completion (R336): the held cause of its leader lane, poison before a freed line. -/
def RkMet.held (m : RkMet) (lead : Nat) : List Held :=
  match m.pois, m.freed with
  | some o, _ => [{ code := 0x0D, tmask := BitVec.ofNat 64 (2 ^ lead), faddr := BitVec.ofNat 64 o }]
  | none, some o => [{ code := 0x06, tmask := BitVec.ofNat 64 (2 ^ lead), faddr := BitVec.ofNat 64 o }]
  | none, none => []

/-- A rank operation performs its accesses and completes (R323, R338): L counts the lines read and written. (DEDUCED, log entry 36) -/
def finishRank (sid idx : Nat) (l : LongOp) (r : RankOp) (o : RkOut) : State :=
  let late := ((o.met.rd.length + o.met.wr.length) + 15) / 16
  let s := o.s.modStrand sid fun st => { st with longs := st.longs.map fun (k : LongOp) =>
    if k.tag = l.tag ∧ l.op ≠ .rktab then { k with due := k.due + late } else k }
  let c := o.conds ||| o.met.conds
  let s := s.finishLong sid idx (l.writes.map fun w => { w with val := BitVec.ofNat 32 o.count })
    (if c = 0 then [] else [{ lane := r.lead, bits := c }]) (o.met.held r.lead) 0
  if o.nan = 0 then s else s.modStrand sid fun st => st.addNan r.lead o.nan

/-- RANK_OP_COMPLETE (R323, R331, R337 to R340): the rank operation at place ev.idx of strand ev.who's operations under way is performed and completes, unless an earlier operation of the core or an earlier access of its side comes before it. -/
def execRankOpComplete (s : State) : Out :=
  match (s.strand s.ev.who).longs[s.ev.idx]? with
  | none => .next s
  | some l =>
    if l.kind != .rank || s.rankHeld s.ev.who l || s.accHeld s.ev.who l then .next s
    else
      match l.rank with
      | none => .next (s.completeLong s.ev.who s.ev.idx .rank)
      | some r =>
        match l.op with
        | .rkenc => .next (finishRank s.ev.who s.ev.idx l r (runRkenc s s.ev.who l.w r))
        | .rkrec => .next (finishRank s.ev.who s.ev.idx l r (runRkrec s s.ev.who l.w r))
        | .rktab => .next (finishRank s.ev.who s.ev.idx l r (runRktab s s.ev.who l.w r))
        | .rkmrg => .next (finishRank s.ev.who s.ev.idx l r (runRkmrg s s.ev.who l.w r))
        | _ => .next ((s.completeLong s.ev.who s.ev.idx .rank).modStrand s.ev.who fun st => r.nan.foldl (fun st p => st.addNan p.1 p.2) st)

end Sys2Proof.Machine
end

