-- ==== Sys2Proof/Machine/Sync.lean ====
section
/-! DEFINITION. Hardware barriers, non-preemptible regions, operand-store line state, arrival barriers as the scalar stream uses them (R222 to R224, R230, R235, R250 to R254, R303 to R309). -/

namespace Sys2Proof.Machine

/-! ### Hardware barriers -/

/-- The scope that a barrier level releases and acquires at (R223). -/
def barScope (lvl : Nat) : Nat :=
  match lvl with
  | 0 => 1
  | 1 => 2
  | _ => 4

/-- The barrier that an instruction names, as a level, number and group; a strand that is no member takes the barrier-membership trap (R222). -/
def barOf (l : BitVec 2) (n : BitVec 4) : M Nat := do
  let st ← me
  let t ← myTeam
  let s ← get
  if (s.barMask t l.toNat n.toNat).getLsbD st.role then pure (t.barGroup st.team l.toNat) else trapM 0x09

/-- The index of a strand's arrival phase. -/
def arrIdx (l : BitVec 2) (n : BitVec 4) : Nat := l.toNat * 16 + n.toNat

/-- BARA's part (R223): a strand that has arrived in the current phase waits, until the barrier is broken (R237); otherwise it releases and arrives, which may complete the phase. -/
def arrive (l : BitVec 2) (n : BitVec 4) (g : Nat) : M Unit := do
  let st ← me
  let k := barKey l.toNat n.toNat g
  let b := (← get).barAt k
  if b.arrived.contains st.member then waitUnless b.broken
  else
    releaseM (barScope l.toNat)
    modMe fun st => { st with arr := mput st.arr (arrIdx l n) b.phase }
    modify fun s => { s with bars := mput s.bars k { b with arrived := b.arrived ++ [st.member] } }
    modify fun s => s.barCheck l.toNat n.toNat g

/-- Whether the phase of the strand's arrival has completed; a strand that has never arrived does not wait (R223). A broken barrier releases its waiters (R237). -/
def phaseDone (l : BitVec 2) (n : BitVec 4) (g : Nat) : M Bool := do
  let st ← me
  let b := (← get).barAt (barKey l.toNat n.toNat g)
  return match mget? st.arr (arrIdx l n) with
    | none => true
    | some p => decide (p < b.phase) || b.broken

/-- BAR (R223): BARA, then BARW. An arrival that has been made stays made while the instruction waits (R224). -/
def execBar (l : BitVec 2) (n : BitVec 4) (s : State) : Out := scalar (do
  let g ← barOf l n
  let st ← me
  if st.barAt != some st.pc then
    arrive l n g
    modMe fun st => { st with barAt := some st.pc }
  if ← phaseDone l n g then
    acquireM (barScope l.toNat)
    modMe fun st => { st with barAt := none }
    advance
  else if st.barAt == some st.pc then waitM
  else return { pc := st.pc }) s

/-- BARA (R223). -/
def execBara (l : BitVec 2) (n : BitVec 4) (s : State) : Out := scalar (do
  let g ← barOf l n
  arrive l n g
  advance) s

/-- BARW (R223). -/
def execBarw (l : BitVec 2) (n : BitVec 4) (s : State) : Out := scalar (do
  let g ← barOf l n
  waitUnless (← phaseDone l n g)
  acquireM (barScope l.toNat)
  advance) s

/-- BARRIER_PHASE_COMPLETE (R223, R258): a barrier (ev.idx its level × 16 + number, ev.addr its group) whose live members have all arrived moves to its next phase. -/
def execBarrierPhaseComplete (s : State) : Out := .next (s.barCheck (s.ev.idx / 16) (s.ev.idx % 16) s.ev.addr)

/-! ### Non-preemptible regions -/

/-- NPR_ENTER (R235). -/
def execNprEnter (s : State) : Out := scalar (do
  if (← me).npr.isSome then badOperand
  let t := (← get).ticks (← myDie)
  modMe fun st => { st with npr := some t }
  advance) s

/-- NPR_EXIT (R235). -/
def execNprExit (s : State) : Out := scalar (do
  if (← me).npr.isNone then badOperand
  modMe fun st => { st with npr := none }
  advance) s

/-- NPR_OVERRUN (R235): 400 ticks after NPR.ENTER the region of strand ev.who ends, and the strand takes CODE 0x0A at its next issue; it does not issue before. -/
def execNprOverrun (s : State) : Out :=
  if s.overrun s.ev.who then
    .next ((s.modStrand s.ev.who fun st => { st with npr := none }).holdCause s.ev.who { code := 0x0A })
  else .next s

/-! ### Line state -/

/-- The range of OSALLOC and OSFREE (R250): the first line and the number of lines. -/
def lineRange (o n : Nat) : M (Nat × Nat) := do
  let d := (← me).segs.o
  let fa : W64 := BitVec.ofNat 64 o
  if o % 256 != 0 || n % 256 != 0 || n < 256 || d.len.toNat < o + n then trapM 0x06 fa
  let core ← myCore
  let s ← get
  let first := (d.base.toNat + o) / 256
  if (List.range (n / 256)).any fun i => (s.osLine core (first + i)).barr != 0 then badOperand
  return (first, n / 256)

/-- OSALLOC (R250, R251). -/
def execOsalloc (d a b : BitVec 6) (c : BitVec 4) (s : State) : Out := scalar (do
  portsOk [a, b] [d]
  let o ← readSrc a
  let n ← readSrc b
  dstReady d
  let (first, cnt) ← lineRange o.toNat n.toNat
  let core ← myCore
  modify fun s =>
    let s := s.osScrub core (first * 256) (cnt * 256)
    let l : OsLine := { cls := c.toNat, written := s.ticks (dieOf core) }
    (List.range cnt).foldl (fun s i => s.setOsLine core (first + i) l) s
  writeDst d (BitVec.ofNat 64 cnt)
  advance) s

/-- OSFREE (R250, R252). -/
def execOsfree (a b : BitVec 6) (s : State) : Out := scalar (do
  portsOk [a, b] []
  let o ← readSrc a
  let n ← readSrc b
  let (first, cnt) ← lineRange o.toNat n.toNat
  let core ← myCore
  modify fun s =>
    let s := s.osScrub core (first * 256) (cnt * 256)
    (List.range cnt).foldl (fun s i => s.setOsLine core (first + i) { free := true }) s
  advance) s

/-- The word of OSQUERY (R253). -/
def State.lineWord (s : State) (core line : Nat) : W64 :=
  let l := s.osLine core line
  BitVec.ofNat 64 (
    if l.free then 2 ^ 35
    else l.cls * 2 ^ 36 + (if s.osExpired core l then 2 ^ 34 else 0) + (if l.barr != 0 then 2 ^ 33 else 0)
      + (if l.poison != 0 then 2 ^ 32 else 0) + s.osAge core l)

/-- OSQUERY (R250, R253). -/
def execOsquery (d a : BitVec 6) (s : State) : Out := scalar (do
  portsOk [a] [d]
  let o ← readSrc a
  let g := (← me).segs.o
  if g.len.toNat ≤ o.toNat then trapM 0x06 o
  let core ← myCore
  writeDst d ((← get).lineWord core ((g.base.toNat + o.toNat) / 256))
  advance) s

/-- OSQUERY_X (R253, R257): the line of the issuing core's visible area. -/
def execOsqueryX (d a : BitVec 6) (s : State) : Out := scalar (do
  portsOk [a] [d]
  let o ← readSrc a
  if (← me).segs.x.len.toNat ≤ o.toNat then trapM 0x06 o
  let core ← myCore
  let t ← myTeam
  writeDst d ((← get).lineWord core (t.xOff false o.toNat / 256))
  advance) s

/-- LINE_EXPIRY (R247): a LAPSE or TRAP line (ev.core, ev.idx its line) whose age has reached its lifetime expires. -/
def execLineExpiry (s : State) : Out :=
  if s.osExpired s.ev.core (s.osLine s.ev.core s.ev.idx) then .next (s.osExpire s.ev.core s.ev.idx) else .next s

/-! ### Arrival barriers -/

/-- A field of an arrival barrier: n bytes at an offset of its 32 (R303); a poisoned word reads 0 (R261). -/
def State.abField (s : State) (core off i n : Nat) : Nat :=
  leValue ((List.range n).map fun k => if s.osPois core (off + i + k) 1 then 0 else s.osRaw core (off + i + k))

/-- Write a field of an arrival barrier. -/
def State.abPut (s : State) (core off i n v : Nat) : State := s.osWrite core (off + i) (leBytes n v)

/-- Whether phase p of a barrier is complete (R303). -/
def State.abDone (s : State) (core off p : Nat) : Bool :=
  (s.abField core off 8 2 + 2 ^ 17 - 1 - p) % 2 ^ 16 < 2 ^ 15

/-- A team out of its core becomes ready to return when every PARK among its strands would complete (R232, R317); the core number of its image is 64 and its own number. -/
def State.noteReady (s : State) (core : Nat) : State :=
  if core < 64 then s
  else
    let t := s.team (core - 64)
    let parks := (t.sids.map s.strand).filterMap fun st => if st.halt = .moving then st.parkSince else none
    if t.st = .saved false && parks != [] && parks.all fun p => s.abDone core p.2.1 p.2.2 then
      s.modTeam (core - 64) fun t => { t with st := .saved true, readyAt := s.stepNo }
    else s

/-- A phase of a barrier has completed: an ABWAIT.T on it whose limit has not run out has met its phase (R307). -/
def State.noteMet (s : State) (core off : Nat) : State :=
  { s with strands := s.strands.map fun p =>
      match p.2.waitAt with
      | some w =>
        if coreOf p.1 = core ∧ w.off = off ∧ s.abDone core off w.phase = true ∧ s.cycles core ≤ w.limit
        then (p.1, { p.2 with waitAt := some { w with met := true } }) else p
      | none => p }

/-- A credit of n bytes (R305). -/
def State.abCredit (s : State) (core off n : Nat) : State :=
  let exp := s.abField core off 0 4
  let arr := s.abField core off 4 4
  if exp ≤ arr + n then
    let s := if exp < arr + n then s.abPut core off 14 1 (s.abField core off 14 1 ||| 1) else s
    (((s.abPut core off 4 4 0).abPut core off 8 2 ((s.abField core off 8 2 + 1) % 2 ^ 16)).noteMet core off).noteReady core
  else s.abPut core off 4 4 (arr + n)

/-- A release by an engine (R308): one that finds no completed unreleased phase sets RELX. (DEDUCED, log entry 37) -/
def State.abRelease (s : State) (core off : Nat) : State :=
  let cpl := s.abField core off 8 2
  let rls := s.abField core off 10 2
  if cpl = rls then s.abPut core off 14 1 (s.abField core off 14 1 ||| 2)
  else s.abPut core off 10 2 ((rls + 1) % 2 ^ 16)

/-- The place of 32 bytes at an O offset (R304): limit, alignment, a FREE line. -/
def abPlace (o : Nat) : M (Nat × Nat) := do
  let d := (← me).segs.o
  let fa : W64 := BitVec.ofNat 64 o
  if o % 32 != 0 || d.len.toNat < o + 32 then trapM 0x06 fa
  let core ← myCore
  let off := d.base.toNat + o
  if ((← get).osLine core (off / 256)).free then trapM 0x06 fa
  return (core, off)

/-- ABINIT (R304). -/
def execAbinit (d a b : BitVec 6) (s : State) : Out := scalar (do
  portsOk [d, a, b] []
  let p ← readSrc d
  let o ← readSrc a
  let e ← readSrc b
  let w := (p.extractLsb' 16 4).toNat + 1
  let st := (p.extractLsb' 20 4).toNat + 1
  if p.extractLsb' 24 40 != 0 || e.toNat = 0 || 2 ^ 32 ≤ e.toNat || st < w then badOperand
  let (core, off) ← abPlace o.toNat
  let s ← get
  let l := s.osLine core (off / 256)
  if l.cls != 0 || s.hasBarrier core off then badOperand
  let p0 := (p.extractLsb' 0 16).toNat
  modify fun s =>
    let s := s.osWrite core off
      (leBytes 4 e.toNat ++ leBytes 4 0 ++ leBytes 2 p0 ++ leBytes 2 p0 ++ leBytes 1 w ++ leBytes 1 st ++ leBytes 18 0)
    let l := s.osLine core (off / 256)
    s.setOsLine core (off / 256) { l with barr := l.barr ||| (1#8 <<< (off % 256 / 32)) }
  advance) s

/-- The barrier at an O offset, for ABWAIT, ABREL and PARK: without one the illegal-operand trap (R307). -/
def abAt (o : Nat) : M (Nat × Nat) := do
  let (core, off) ← abPlace o
  if !(← get).hasBarrier core off then badOperand
  return (core, off)

/-- What a strand's read of the words CPL and RLS of a barrier at O offset o holds (R261): CODE 0x0D when they are poisoned, once. (DESIGN CHOICE, log entry 50) -/
def State.abHeld (s : State) (core off : Nat) (o : W64) : List Held :=
  let h := poisonHeld (s.osPois core (off + 8) 4) o
  if h.all (s.strand s.cur).held.contains then [] else h

/-- The poisoned words that the scalar stream has read of a barrier are held as a cause (R261): whether there is a new one. -/
def noteAb (core off : Nat) (o : W64) : M Bool := do
  let h := (← get).abHeld core off o
  modMe fun st => { st with held := st.held ++ h }
  return h != []

/-- An instruction that waits at a barrier goes on waiting; one that has met a poisoned word issues with no other effect, so that the cause is held. -/
def waitAb (noted : Bool) : M SOut := do
  if noted then return { pc := (← me).pc } else waitM

/-- ABWAIT (R307): waits for a phase, then acquires at .pkg. -/
def execAbwait (a b : BitVec 6) (s : State) : Out := scalar (do
  portsOk [a, b] []
  let (o, p) ← peekM (readSrc2 a b)
  if p.extractLsb' 16 48 != 0 then badOperand
  let (core, off) ← abAt o.toNat
  let noted ← noteAb core off o
  if (← get).abDone core off p.toNat then
    let _ ← readSrc2 a b
    acquireM 4
    advance
  else waitAb noted) s

/-- ABWAIT_T (R307): as ABWAIT with a limit in core cycles; d := 0 when the phase is complete, d := 1 when the limit passes first. -/
def execAbwaitT (d a b : BitVec 6) (s : State) : Out := scalar (do
  portsOk [a, b] [d]
  let (o, p) ← peekM (readSrc2 a b)
  dstReady d
  if p.extractLsb' 48 16 != 0 then badOperand
  let (core, off) ← abAt o.toNat
  let noted ← noteAb core off o
  let s ← get
  let st ← me
  let now := s.cycles core
  let ph := (p.extractLsb' 0 16).toNat
  let fresh : AbWait := { pc := st.pc, limit := now + (p.extractLsb' 16 32).toNat, off := off, phase := ph }
  let w := match st.waitAt with
    | some w => if w.pc = st.pc then w else fresh
    | none => fresh
  if w.met || (s.abDone core off ph && decide (now ≤ w.limit)) then
    let _ ← readSrc2 a b
    acquireM 4
    modMe fun st => { st with waitAt := none }
    writeDst d 0
    advance
  else if w.limit ≤ now then
    let _ ← readSrc2 a b
    modMe fun st => { st with waitAt := none }
    writeDst d 1
    advance
  else if st.waitAt = some w then waitAb noted
  else
    modMe fun st => { st with waitAt := some w }
    return { pc := st.pc }) s

/-- ABWAIT_T_LIMIT (R307): the limit of strand ev.who's ABWAIT.T runs out: its core's cycle counter reaches it. -/
def execAbwaitTLimit (s : State) : Out :=
  match (s.strand s.ev.who).waitAt with
  | none => .next s
  | some w => .next (s.toCycle (coreOf s.ev.who) w.limit)

/-- PARK (R230): waits as ABWAIT, and makes its team a candidate for eviction. -/
def execPark (a b : BitVec 6) (s : State) : Out := scalar (do
  portsOk [a, b] []
  let (o, p) ← peekM (readSrc2 a b)
  if p.extractLsb' 16 48 != 0 then badOperand
  let (core, off) ← abAt o.toNat
  let noted ← noteAb core off o
  let s ← get
  let st ← me
  if s.abDone core off p.toNat then
    let _ ← readSrc2 a b
    acquireM 4
    modMe fun st => { st with parkSince := none }
    advance
  else if st.parkSince.isSome then waitAb noted
  else
    modMe fun st => { st with parkSince := some (s.ticks (dieOf core), off, p.toNat) }
    return { pc := st.pc }) s

/-- ABREL (R308): a release at .pkg, then RLS := RLS + 1. A poisoned word reads as no completed unreleased phase, and its cause stays held (R261, R135). -/
def execAbrel (a : BitVec 6) (s : State) : Out := scalar (do
  portsOk [a] []
  let o ← peekM (readSrc a)
  let (core, off) ← abAt o.toNat
  let noted ← noteAb core off o
  let s ← get
  let rls := s.abField core off 10 2
  if rls = s.abField core off 8 2 then (if noted then do badRead (← me) else badOperand)
  else
  let _ ← readSrc a
  releaseM 4
  modify fun s => s.abPut core off 10 2 ((rls + 1) % 2 ^ 16)
  advance) s

end Sys2Proof.Machine
end

