-- ==== Sys2Proof/Machine/Matrix.lean ====
section
/-! DEFINITION. The matrix engine (R263 to R287): tiles, the acceptance of commands, their steps and their completion. -/

namespace Sys2Proof.Machine

/-! ### Tiles (R266 to R269) -/

/-- The key of a physical tile, and of an element of it. -/
def tileKey (core p : Nat) : Nat := core * 8 + p
def elemKey (core p e : Nat) : Nat := tileKey core p * 24576 + e

/-- A physical tile. -/
def State.tile (s : State) (core p : Nat) : Tile := (mget? s.tiles (tileKey core p)).getD {}

/-- The physical tiles that nobody holds. -/
def State.freeTiles (s : State) (core : Nat) : List Nat := (List.range 8).filter fun p => (s.tile core p).owner.isNone

/-- The physical tile behind a strand's logical tile; none when it is unclaimed or an accepted MXST has freed it (R267, R287). -/
def State.tileOf (s : State) (sid t : Nat) : Option Nat :=
  (List.range 8).find? fun p =>
    let x := s.tile (coreOf sid) p
    x.owner == some sid && x.logical == t && !x.freed

/-- Write a physical tile. -/
def State.setTile (s : State) (core p : Nat) (t : Tile) : State := { s with tiles := mput s.tiles (tileKey core p) t }

/-- The commands that a core's engine has accepted, oldest first. -/
def State.mxCmds (s : State) (core : Nat) : List MxCmd := mget s.mxq core []

/-- Write them. -/
def State.setMxCmds (s : State) (core : Nat) (l : List MxCmd) : State := { s with mxq := mset s.mxq core l [] }

/-- Free a physical tile: it is zeroed (R266). -/
def State.freeTile (s : State) (core p : Nat) : State :=
  { s with
    tiles := mdel s.tiles (tileKey core p)
    tileVal := s.tileVal.filter fun e => !(e.1 / 24576 == tileKey core p) }

/-- Values from a key up as a dense list. -/
def denseFrom : Nat → Nat → NMap W32 → List Nat
  | _, 0, _ => []
  | k, n + 1, [] => 0 :: denseFrom (k + 1) n []
  | k, n + 1, (j, v) :: m => if j = k then v.toNat :: denseFrom (k + 1) n m else 0 :: denseFrom (k + 1) n ((j, v) :: m)

/-- A list cut into n parts of w. -/
def cutIn {β : Type} (w : Nat) : Nat → List β → List (List β)
  | 0, _ => []
  | n + 1, l => l.take w :: cutIn w n (l.drop w)

/-- The elements of a tile from row m up, n rows, each of 192 f32 patterns. -/
def State.tileRows (s : State) (core p m n : Nat) : List (List Nat) :=
  let lo := elemKey core p (m * 192)
  cutIn 192 n (denseFrom lo (n * 192) (s.tileVal.filter fun e => lo ≤ e.1))

/-- Write rows of a tile; +0.0 is what an unlisted element reads as. -/
def State.putRows (s : State) (core p m : Nat) (rows : List (List Nat)) : State :=
  let vals := rows.flatten
  let lo := elemKey core p (m * 192)
  let mine := (vals.zip (List.range vals.length)).filterMap fun v =>
    if v.1 = 0 then none else some (lo + v.2, BitVec.ofNat 32 v.1)
  { s with tileVal := (s.tileVal.filter fun e => e.1 < lo) ++ mine ++ s.tileVal.filter fun e => lo + vals.length ≤ e.1 }

/-- Take n free physical tiles for a strand (R266): +0.0 in every element, status 0, no configuration. -/
def State.takeTiles (s : State) (sid n : Nat) : State :=
  (((s.freeTiles (coreOf sid)).take n).zip (List.range n)).foldl
    (fun s p => (s.freeTile (coreOf sid) p.1).setTile (coreOf sid) p.1 { owner := some sid, logical := p.2 }) s

/-- The strand whose waiting claim goes next on a core (R266): none while tiles of returned strands wait. -/
def State.nextClaim (s : State) (core : Nat) : Option Nat :=
  if s.tileBack.any fun b => b.core == core then none
  else (mget s.claimQ core []).find? fun sid => (s.strand sid).claim.isSome

/-- Take a strand out of the waiting claims. -/
def State.dropClaim (s : State) (sid : Nat) : State :=
  { s with claimQ := mset s.claimQ (coreOf sid) ((mget s.claimQ (coreOf sid) []).filter (· != sid)) [] }

/-- Put a strand into the waiting claims, once (R266). -/
def State.addClaim (s : State) (sid : Nat) : State :=
  let q := mget s.claimQ (coreOf sid) []
  if q.contains sid then s else { s with claimQ := mput s.claimQ (coreOf sid) (q ++ [sid]) }

/-- Whether the strand holds a tile (R266, R287). -/
def State.holdsTile (s : State) (sid : Nat) : Bool :=
  (List.range 8).any fun p => (s.tile (coreOf sid) p).owner == some sid && !(s.tile (coreOf sid) p).freed

/-- Instructions on tiles wait while the tiles of a returned strand are still to be restored (R286). -/
def tilesBack : M Unit := do
  let s ← get
  waitUnless (!s.tileBack.any fun b => b.sid == s.cur)

/-- MXCFG_CLAIM (R266, R267): a claim that cannot be granted joins the waiting claims of its core. -/
def execMxcfgClaim (n : BitVec 4) (s : State) : Out := scalar (do
  let s ← get
  if n.toNat = 0 || 8 < n.toNat then badOperand
  tilesBack
  if s.holdsTile s.cur then badOperand
  let core ← myCore
  let first := match s.nextClaim core with
    | none => !s.tileBack.any fun b => b.core == core
    | some h => h == s.cur
  if first && decide (n.toNat ≤ (s.freeTiles core).length) then
    set ((s.dropClaim s.cur).takeTiles s.cur n.toNat)
    modMe fun st => { st with claim := none }
    advance
  else if (← me).claim.isSome && (mget s.claimQ core []).contains s.cur then waitM
  else
    set ((s.dropClaim s.cur).addClaim s.cur)
    modMe fun st => { st with claim := some n.toNat }
    return { pc := (← me).pc }) s

/-- The tiles of a returned strand that still stand where it was copied out to. -/
def State.tilesLeft (s : State) (b : TileBack) : List Nat :=
  (List.range 8).filter fun p => (s.tile b.old p).owner == some b.sid

/-- Tiles go from core number c0 to core number c1, each to its place (R286); the commands named go with them, between steps. -/
def State.moveTiles (s : State) (c0 c1 : Nat) (moves : List (Nat × Nat)) (mine : MxCmd → Bool) : State :=
  let dest := fun p => ((moves.find? fun m => m.1 == p).map (·.2)).getD 0
  let s := moves.foldl (fun s m =>
    let t := s.tile c0 m.1
    let lo := elemKey c0 m.1 0
    let vals := s.tileVal.filter fun e => lo ≤ e.1 && e.1 < lo + 24576
    let s := ((s.freeTile c1 m.2).setTile c1 m.2 t).freeTile c0 m.1
    { s with tileVal := vals.foldl (fun m' (e : Nat × W32) => mput m' (elemKey c1 m.2 (e.1 - lo)) e.2) s.tileVal }) s
  let cmds := (s.mxCmds c0).filter mine
  let s := s.setMxCmds c0 ((s.mxCmds c0).filter fun c => !mine c)
  s.setMxCmds c1 (s.mxCmds c1 ++ cmds.map fun (c : MxCmd) => { c with tile := dest c.tile, sels := [] })

/-- Restore the tiles of a returned strand (R266, R286): its commands follow them to the core's queue. -/
def State.restoreTiles (s : State) (b : TileBack) : State :=
  let s := s.moveTiles b.old b.core ((s.tilesLeft b).zip (s.freeTiles b.core)) fun c => c.sid == b.sid
  { s with tileBack := s.tileBack.filter fun c => c.sid != b.sid }

/-- TILE_CLAIM_GRANT (R266, R286): on core ev.core the tiles of the first returned strand are restored, or the first waiting claim is granted and its instruction completes. -/
def execTileClaimGrant (s : State) : Out :=
  let core := s.ev.core
  match s.tileBack.find? fun b => b.core == core with
  | some b => if (s.tilesLeft b).length ≤ (s.freeTiles core).length then .next (s.restoreTiles b) else .next s
  | none =>
    match s.nextClaim core with
    | none => .next s
    | some sid =>
      let st := s.strand sid
      let n := st.claim.getD 0
      if st.halt != .none || st.entry.isSome || (s.freeTiles core).length < n then .next s
      else .next (((s.dropClaim sid).takeTiles sid n).modStrand sid fun st => { st with claim := none, pc := st.pc + 4, lastS := some s.stepNo })

/-! ### Configuration (R268) -/

/-- Classes of R264: 1 F8, 2 I8, 3 H. -/
def mxClass (fmt : Nat) : Nat :=
  match fmt with
  | 3 => 1
  | 4 => 1
  | 11 => 1
  | 9 => 2
  | 10 => 2
  | 1 => 3
  | 2 => 3
  | _ => 0

/-- Fields of a configuration word (R268). -/
def cfgTs (c : W64) : Bool := c.getLsbD 22
def cfgRt (c : W64) : Nat := (c.extractLsb' 20 2).toNat
def cfgSp (c : W64) : Nat := (c.extractLsb' 16 2).toNat

/-- Whether a configuration keeps R268. -/
def cfgOk (c : W64) (ha hb : BitVec 2048) : Bool :=
  let a := hFmt ha
  let b := hFmt hb
  let reserved := c.extractLsb' 23 41 == 0 && c.extractLsb' 18 2 == 0
  let fmts := if a = 12 then b != 11 && mxClass b != 0 && mxClass b != 2
    else mxClass a != 0 && mxClass a == mxClass b && cfgRt c == 0 && !cfgTs c
  reserved && fmts && !(cfgSp c != 0 && (a == 11 || a == 12))

/-- MXCFG_SET (R267, R268): both handle records are snapshot. -/
def execMxcfgSet (t : BitVec 3) (a : BitVec 6) (s : State) : Out := scalar (do
  portsOk [a] []
  let c ← readSrc a
  tilesBack
  let s ← get
  let ctx ← myCtx
  let core ← myCore
  match s.tileOf s.cur t.toNat, s.handle ctx (c.extractLsb' 0 8).toNat, s.handle ctx (c.extractLsb' 8 8).toNat with
  | some p, some ha, some hb =>
    if !cfgOk c ha hb then badOperand
    set (s.setTile core p { s.tile core p with cfg := some c, ha := ha, hb := hb })
    advance
  | _, _, _ => badOperand) s

/-! ### Commands (R270 to R274) -/

/-- Fields of an address register and of an increment register (R273). -/
def adXw (r : W64) : Bool := r.getLsbD 29
def adNp (r : W64) : Nat := (r.extractLsb' 30 2).toNat
def adOff (r : W64) : Nat := (r.extractLsb' 0 26).toNat
def adRb (r : W64) : Nat := (r.extractLsb' 32 26).toNat
def incRl (r : W64) : Nat := (r.extractLsb' 32 26).toNat
def incStep (r : W64) : Int := (r.extractLsb' 0 32).toInt

/-- Whether an address register keeps R273. -/
def adOk (al : Nat) (r : W64) : Bool :=
  r.extractLsb' 58 6 == 0 && r.extractLsb' 26 3 == 0 && (adXw r || adNp r == 0) && adOff r % al == 0 && adRb r % 256 == 0

/-- Whether an increment register keeps R273 and R274 beside its address register. -/
def incOk (ad r : W64) : Bool :=
  r.extractLsb' 58 6 == 0 && incRl r % 256 == 0 && decide (incStep r % 256 = 0)
  && (incRl r == 0 || (adRb ad ≤ adOff ad && adOff ad < adRb ad + incRl r && decide (0 ≤ incStep r) && decide (incStep r ≤ incRl r)))

/-- The fragment start of the next step (R273). -/
def nextOff (ad inc : W64) (off : Int) : Int :=
  let o := off + incStep inc
  if incRl inc != 0 && decide ((adRb ad : Int) + incRl inc ≤ o) then o - incRl inc else o

/-- Where an address register reads: core, place of offset 0, first and last offset of its segment. A word whose bit of pick is 1, counted from offset org, is read at place alt instead: through the mapping that stood when the step began (R277). -/
structure MxWin where
  core : Nat
  base : Nat
  lo : Nat
  hi : Nat
  alt : Nat
  pick : Nat := 0
  org : Nat := 0

/-- The place of an offset. -/
def MxWin.place (w : MxWin) (off : Nat) : Nat := if w.pick.testBit ((off - w.org) / 4) then w.alt else w.base

/-- Where an address register reads (R273, R277); none for an absent partner (R196). sels: the select bits, by team, with which the step began; pick: the words that are read through them. -/
def State.mxWindow (s : State) (sid : Nat) (ad : W64) (sels : List (Nat × Bool) := []) (pick : Nat := 0) (org : Nat := 0) : Option MxWin :=
  let o := (s.strand sid).segs.o
  if adXw ad then (s.partner (s.teamOf sid) (adNp ad)).map fun q =>
    let old := match sels.find? fun x => x.1 == q.1 with
      | some x => { q.2 with sel := x.2 }
      | none => q.2
    { core := q.2.core, base := q.2.xOff false 0, lo := 0, hi := q.2.blk.window, alt := old.xOff false 0, pick := pick, org := org }
  else
    let tag := osTag o.base.toNat
    some { core := coreOf sid, base := tag, lo := o.base.toNat - tag, hi := o.base.toNat - tag + o.len.toNat, alt := tag }

/-- A region that a command names: address register, start, size. -/
structure MxRegion where
  ad : W64
  off : Int
  size : Nat

/-- Whether a region lies in its segment (R274). -/
def State.mxInside (s : State) (sid : Nat) (r : MxRegion) : Bool :=
  match s.mxWindow sid r.ad with
  | none => false
  | some w => decide ((w.lo : Int) ≤ r.off) && decide (r.off + r.size ≤ w.hi)

/-- Whether a region has no FREE line (R274). -/
def State.mxNotFree (s : State) (sid : Nat) (r : MxRegion) : Bool :=
  match s.mxWindow sid r.ad with
  | none => false
  | some w => !s.osAnyFree w.core (w.base + r.off.toNat) r.size

/-- The segment checks of all regions: limits first, then FREE lines (R64, R274); FADDR holds the first failing start. (DEDUCED, log entry 37) -/
def mxCheck (rs : List MxRegion) : M Unit := do
  let s ← get
  match rs.find? fun r => !s.mxInside s.cur r with
  | some r => trapM 0x06 (BitVec.ofInt 64 r.off)
  | none =>
    match rs.find? fun r => !s.mxNotFree s.cur r with
    | some r => trapM 0x06 (BitVec.ofInt 64 r.off)
    | none => pure ()

/-- The regions of n steps in step order: for each operand its address and increment registers, its fragment size, its start. -/
def stepRegions (ops : List (W64 × W64 × Nat)) : Nat → List Int → List MxRegion
  | 0, _ => []
  | n + 1, offs =>
    (ops.zip offs).map (fun p => { ad := p.1.1, off := p.2, size := p.1.2.2 })
    ++ stepRegions ops n ((ops.zip offs).map fun p => nextOff p.1.1 p.1.2.1 p.2)

/-- A group of registers from a number up, with the interlock of each (R108, R273). -/
def readGroup (g : BitVec 6) (n : Nat) : M (List W64) := (groupRegs g n).mapM readSrc

/-- The engine's queue holds 32 commands (R270). -/
def mxRoom : M Unit := do
  let core ← myCore
  waitUnless (decide (((← get).mxCmds core).length < 32))

/-- The tile of a command, claimed; configured where that is asked (R274, R280, R282). -/
def mxTile (t : BitVec 3) (configured : Bool) : M (Nat × Tile) := do
  tilesBack
  let s ← get
  let core ← myCore
  match s.tileOf s.cur t.toNat with
  | none => badOperand
  | some p =>
    let x := s.tile core p
    if configured && x.cfg.isNone then badOperand
    return (p, x)

/-- What ACQW awaits (R271): every lane block dispatched so far. -/
def acqWait (w : BitVec 1) : M (Option (Nat × Nat)) := do
  let st ← me
  return if w = 1 then some (st.lane.started + st.lane.dq.length, st.win.started + st.win.dq.length) else none

/-- A command is accepted (R270): its flag is counted, it joins the queue. -/
def mxAccept (c : MxCmd) : M SOut := do
  let core ← myCore
  incFlag c.flag
  modify fun s => s.setMxCmds core (s.mxCmds core ++ [{ c with sid := s.cur }])
  advance

/-- K of a dense step and of a sparse one (R264): MXSP's N is 4, 8 or 16. -/
def denseK (a b : Nat) : Nat := if mxClass a = 3 then 32 else if a = 11 && b = 11 then 128 else 64
def sparseN (sp : Nat) : Nat := 2 ^ (sp + 1)
def sparseK (a n : Nat) : Nat := (if n = 16 then 128 else 256) / (if mxClass a = 3 then 2 else 1)

/-- Fragment sizes (R265). -/
def fragA (fmt k : Nat) : Nat := if fmt = 11 then 72 * k else 128 * k * tyBytes fmt
def fragB (fmt k : Nat) : Nat := if fmt = 11 then 108 * k else 192 * k * tyBytes fmt

/-- The stage registers aG+4 and aG+5 (R273). -/
def stP (r : W64) : Nat := (r.extractLsb' 0 16).toNat
def stPh0 (r : W64) : Nat := (r.extractLsb' 32 16).toNat
def stBoff (r : W64) : Nat := (r.extractLsb' 0 26).toNat

/-- The checks of the stage registers and of the step count (R273, R274). -/
def stageOk (s : State) (sid : Nat) (b p k : W64) : Bool :=
  let o := (s.strand sid).segs.o
  let at' := osTag o.base.toNat + stBoff b
  b.extractLsb' 48 16 == 0 && b.extractLsb' 26 6 == 0 && p.extractLsb' 16 48 == 0 && stBoff b % 32 == 0
  && k.extractLsb' 16 48 == 0 && k != 0
  && (if stP p = 0 then b == 0
      else o.base.toNat ≤ at' && at' + 32 ≤ o.base.toNat + o.len.toNat && s.hasBarrier (coreOf sid) at')

/-- MXLOOP (R272 to R274). -/
def execMxloop (t : BitVec 3) (g k : BitVec 6) (f : BitVec 4) (w : BitVec 1) (_u : BitVec 2) (s : State) : Out := scalar (do
  portsOk (groupRegs g 6 ++ [k]) []
  let rs ← readGroup g 6
  let n ← readSrc k
  mxRoom
  let (p, x) ← mxTile t true
  let cfg := x.cfg.getD 0
  let a := hFmt x.ha
  let b := hFmt x.hb
  if cfgSp cfg != 0 || a == 12 then badOperand
  let r := fun i => rs.getD i 0
  let s ← get
  if !(adOk 256 (r 0) && adOk 256 (r 1) && incOk (r 0) (r 2) && incOk (r 1) (r 3) && stageOk s s.cur (r 4) (r 5) n) then badOperand
  let kk := denseK a b
  let offs : List Int := [(adOff (r 0) : Int), (adOff (r 1) : Int)]
  mxCheck (stepRegions [(r 0, r 2, fragA a kk), (r 1, r 3, fragB b kk)] n.toNat offs)
  let acq ← acqWait w
  mxAccept { kind := .dense, sid := 0, tile := p, flag := f, regs := rs, count := n.toNat, offA := adOff (r 0), offB := adOff (r 1)
             cfg := cfg, ha := x.ha, hb := x.hb, acq := acq }) s

/-- MXSP (R279). -/
def execMxsp (t : BitVec 3) (g k : BitVec 6) (f : BitVec 4) (w : BitVec 1) (_u : BitVec 2) (s : State) : Out := scalar (do
  portsOk (groupRegs g 8 ++ [k]) []
  let rs ← readGroup g 8
  let n ← readSrc k
  mxRoom
  let (p, x) ← mxTile t true
  let cfg := x.cfg.getD 0
  let a := hFmt x.ha
  let b := hFmt x.hb
  if cfgSp cfg == 0 || a == 12 || a == 11 then badOperand
  let r := fun i => rs.getD i 0
  let s ← get
  if !(adOk 256 (r 0) && adOk 256 (r 1) && adOk 256 (r 6) && incOk (r 0) (r 2) && incOk (r 1) (r 3) && incOk (r 6) (r 7)
      && stageOk s s.cur (r 4) (r 5) n) then badOperand
  let nn := sparseN (cfgSp cfg)
  let kk := sparseK a nn
  let offs : List Int := [(adOff (r 0) : Int), (adOff (r 1) : Int), (adOff (r 6) : Int)]
  mxCheck (stepRegions [(r 0, r 2, 4 * kk * nn * tyBytes a), (r 1, r 3, fragB b kk), (r 6, r 7, 4 * kk * nn)] n.toNat offs)
  let acq ← acqWait w
  mxAccept { kind := .sparse, sid := 0, tile := p, flag := f, regs := rs, count := n.toNat
             offA := adOff (r 0), offB := adOff (r 1), offM := adOff (r 6), cfg := cfg, ha := x.ha, hb := x.hb, acq := acq }) s

/-- MXRK (R280). -/
def execMxrk (t : BitVec 3) (g r : BitVec 6) (f : BitVec 4) (w : BitVec 1) (s : State) : Out := scalar (do
  portsOk (groupRegs g 4 ++ [r]) []
  let rs ← readGroup g 4
  let n ← readSrc r
  mxRoom
  let (p, x) ← mxTile t true
  if hFmt x.ha != 12 then badOperand
  let q := fun i => rs.getD i 0
  let stride := (q 2).toNat
  let nb := (q 3).toNat
  if !(adOk 4 (q 0) && adOk 256 (q 1) && adRb (q 0) == 0 && adRb (q 1) == 0 && decide (stride < 2 ^ 32) && stride % 4 == 0
      && 1 ≤ nb && nb ≤ 4096 && 1 ≤ n.toNat && n.toNat ≤ 128) then badOperand
  let rows := (List.range n.toNat).map fun m => ({ ad := q 0, off := (adOff (q 0) + m * stride : Nat), size := 514 } : MxRegion)
  mxCheck (rows ++ [{ ad := q 1, off := adOff (q 1), size := nb * 192 * tyBytes (hFmt x.hb) }])
  let acq ← acqWait w
  mxAccept { kind := .rank, sid := 0, tile := p, flag := f, regs := rs, count := n.toNat, rows := List.replicate n.toNat {}
             cfg := x.cfg.getD 0, ha := x.ha, hb := x.hb, acq := acq }) s

/-- An accepted MXST with FREE gives its tile up at once for claims and MXCFG.set (R287). -/
def giveUp (free : Bool) (p : Nat) : M Unit := do
  let core ← myCore
  if free then modify fun s => s.setTile core p { s.tile core p with freed := true }

/-- Size of MXST's output (R282). -/
def storeSize (fmt : Nat) : Nat := if fmt = 11 then 13824 else 24576 * tyBytes fmt

/-- MXST (R282, R309). -/
def execMxst (v e z : BitVec 1) (t : BitVec 3) (d x : BitVec 6) (f m : BitVec 4) (s : State) : Out := scalar (do
  portsOk (if x = 0 then [d] else [d, x]) []
  let dr ← readSrc d
  let er ← if x = 0 then pure 0 else readSrc x
  mxRoom
  let (p, tl) ← mxTile t false
  let fmt := m.toNat
  let res := x != 0
  let base := (dr.extractLsb' 32 32).toNat
  let dst := (dr.extractLsb' 0 26).toNat
  let ro := (er.extractLsb' 0 26).toNat
  let size := storeSize fmt
  if dr.extractLsb' 26 6 != 0 || (fmt != 11 && base != 0) || dst % 256 != 0 then badOperand
  if er.extractLsb' 26 38 != 0 || ro % 256 != 0 || (res && fmt == 0) then badOperand
  if fmt == 11 && !normal32 base then badOperand
  if res && dst < ro + 98304 && ro < dst + size then badOperand
  let rs : List MxRegion := { ad := 0, off := dst, size := size } :: (if res then [{ ad := 0, off := ro, size := 98304 }] else [])
  mxCheck rs
  let s ← get
  let core ← myCore
  let tag := osTag (← me).segs.o.base.toNat
  if rs.any fun r => s.osMeetsBarrier core (tag + r.off.toNat) r.size then badOperand
  let out ← mxAccept { kind := .store, sid := 0, tile := p, flag := f, regs := [dr, er], count := 8, cfg := tl.cfg.getD 0
                       out := fmt, ovf := v == 1, zero := z == 1, free := e == 1, res := res }
  giveUp (e == 1) p
  return out) s

/-- MXST_ZERO (R282, R283): sub 15, no store. -/
def execMxstZero (e : BitVec 1) (t : BitVec 3) (f : BitVec 4) (s : State) : Out := scalar (do
  mxRoom
  let (p, tl) ← mxTile t false
  let out ← mxAccept { kind := .store, sid := 0, tile := p, flag := f, count := 0, cfg := tl.cfg.getD 0, out := 15, zero := true, free := e == 1 }
  giveUp (e == 1) p
  return out) s

/-! ### Steps (R275 to R281) -/

/-- 32 elements of one row or column of a chunk, as exact values; zero: all are zeros; fin: all are finite; bad: broken metadata (R279). -/
structure Chunk where
  vals : List Fv
  zero : Bool
  fin : Bool
  bad : Bool := false

/-- A datum that is a zero. -/
def isZeroF : Fv → Bool
  | .fin _ m _ => m == 0
  | _ => false

/-- A chunk of values. -/
def mkChunk (vs : List Fv) (bad : Bool := false) : Chunk := { vals := vs, zero := vs.all isZeroF, fin := vs.all isFin, bad := bad }

/-- The value of an element in the engine (R278). -/
def mxVal (fmt v : Nat) : Fv :=
  match fmt with
  | 9 => ofInt (sval 8 v)
  | 10 => ofInt (v % 256)
  | _ => decodeF (fmtOf fmt) v

/-- What a command has met in its run: words read (R284) and conditions (R278). -/
structure MxMet where
  met : RkMet := {}
  conds : Conds := 0

/-- Read an element of w bytes at an offset (R284); an absent partner's words read 0 as those of a freed line. -/
def mxRead (win : Option MxWin) (s : State) (w : Nat) (off : Nat) (g : MxMet) : Nat × MxMet :=
  match win with
  | none => (0, { g with met := { g.met with freed := g.met.freed.or (some off) } })
  | some x =>
    let (v, m) := rkRead s (x.core, x.place off, x.hi) w off g.met
    (v, { g with met := { m with rd := [] } })

/-- n elements of w bytes, d bytes apart. -/
def mxReads (win : Option MxWin) (s : State) (w d : Nat) : Nat → Nat → MxMet → List Nat × MxMet
  | 0, _, g => ([], g)
  | n + 1, off, g =>
    let (v, g) := mxRead win s w off g
    let (vs, g) := mxReads win s w d n (off + d) g
    (v :: vs, g)

/-- A Q4X block as a number. -/
def mxBlock (win : Option MxWin) (s : State) (off : Nat) (g : MxMet) : Nat × MxMet :=
  let (bs, g) := mxReads win s 1 1 18 off g
  (leValue (bs.map (BitVec.ofNat 8)), g)

/-- The chunks of one row of A or column of B: n chunks of 32, from an offset; d: the distance of elements, or 0 for q4x blocks that follow one another (R265). -/
def mxLine (win : Option MxWin) (s : State) (fmt d : Nat) : Nat → Nat → MxMet → List Chunk × MxMet
  | 0, _, g => ([], g)
  | n + 1, off, g =>
    if fmt = 11 then
      let (blk, g) := mxBlock win s off g
      let q := q4Decode blk (.fin false 1 0)
      let g := { g with conds := g.conds ||| (if q.bad then cQMAL else 0) }
      let (cs, g) := mxLine win s fmt d n (off + 18) g
      (mkChunk q.vals :: cs, g)
    else
      let (vs, g) := mxReads win s (tyBytes fmt) d 32 off g
      let (cs, g) := mxLine win s fmt d n (off + 32 * d) g
      (mkChunk (vs.map (mxVal fmt)) :: cs, g)

/-- The lines of a fragment: n of them, from an offset, e bytes apart. -/
def mxLines (win : Option MxWin) (s : State) (fmt d q e : Nat) : Nat → Nat → MxMet → List (List Chunk) × MxMet
  | 0, _, g => ([], g)
  | n + 1, off, g =>
    let (l, g) := mxLine win s fmt d q off g
    let (ls, g) := mxLines win s fmt d q e n (off + e) g
    (l :: ls, g)

/-- The 128 rows of a dense A fragment (R265). -/
def mxRowsA (win : Option MxWin) (s : State) (fmt k off : Nat) (g : MxMet) : List (List Chunk) × MxMet :=
  let w := tyBytes fmt
  mxLines win s fmt w (k / 32) (if fmt = 11 then k / 32 * 18 else k * w) 128 off g

/-- The 192 columns of a B fragment (R265). -/
def mxColsB (win : Option MxWin) (s : State) (fmt k off : Nat) (g : MxMet) : List (List Chunk) × MxMet :=
  let w := tyBytes fmt
  mxLines win s fmt (192 * w) (k / 32) (if fmt = 11 then k / 32 * 18 else w) 192 off g

/-- The dense chunk of a sparse one (R279): values at their indices, broken when an index has a high bit or does not increase. -/
def sparseChunk (fmt : Nat) (vs ms : List Nat) : Chunk :=
  let ok := ms.all (· < 32) && (ms.zip (ms.drop 1)).all fun p => p.1 < p.2
  let prs := ms.zip vs
  mkChunk ((List.range 32).map fun k => (prs.find? fun p => p.1 == k).elim (.fin false 0 0) fun p => mxVal fmt p.2) (!ok)

/-- The chunks of a row of MXSP's A: q of them, n values and n metadata bytes each (R265, R279). -/
def sparseRow (wv wm : Option MxWin) (s : State) (fmt n : Nat) : Nat → Nat → Nat → MxMet → List Chunk × MxMet
  | 0, _, _, g => ([], g)
  | q + 1, ov, om, g =>
    let w := tyBytes fmt
    let (vs, g) := mxReads wv s w w n ov g
    let (ms, g) := mxReads wm s 1 1 n om g
    let (cs, g) := sparseRow wv wm s fmt n q (ov + n * w) (om + n) g
    (sparseChunk fmt vs ms :: cs, g)

/-- The rows of MXSP's A (R265). -/
def sparseRows (wv wm : Option MxWin) (s : State) (fmt n q : Nat) : Nat → Nat → Nat → MxMet → List (List Chunk) × MxMet
  | 0, _, _, g => ([], g)
  | m + 1, ov, om, g =>
    let (r, g) := sparseRow wv wm s fmt n q ov om g
    let (rs, g) := sparseRows wv wm s fmt n q m (ov + q * n * tyBytes fmt) (om + q * n) g
    (r :: rs, g)

/-- C := RNE32(C + p) with the conditions of R278; an exact zero leaves C unchanged. (DEDUCED, log entry 19) (DEDUCED, log entry 20) -/
def mxAdd (c : Nat) (p : Fv) : Nat × Conds :=
  if isZeroF p then (c, 0)
  else
    let (v, c0) := addF 0 (decodeF f32 c) p
    let (r, c1) := encodeF f32 0 false false v
    (r, c0 ||| (if r / 2 ^ 23 % 256 = 0 then c1 else c1 &&& ~~~cUNF))

/-- The exact sum of a chunk's products (R35, R278): NaN with INV for a NaN product, infinities of both signs or broken metadata. (DEDUCED, log entry 19) -/
def chunkSum (a b : Chunk) : Fv × Conds :=
  if a.bad then (.nan false, cINV)
  else if a.zero && b.fin then (.fin false 0 0, 0)
  else
    let ps := (a.vals.zip b.vals).map fun p => (mulF p.1 p.2).1
    let infs := ps.filter fun p => !isFin p
    if ps.any isNan || infs.any (fun p => infs.any fun q => isNeg p != isNeg q) then (.nan false, cINV)
    else match infs with
      | p :: _ => (p, 0)
      | [] => ((sumF 0 ps).1, 0)

/-- One element of C over the chunks of a step, in increasing order (R35, R275). -/
def mxElem (scale : Fv) : List Chunk → List Chunk → Nat → Conds → Nat × Conds
  | a :: as, b :: bs, c, cs =>
    let (p, c1) := chunkSum a b
    let (c, c2) := mxAdd c (mulF p scale).1
    mxElem scale as bs c (cs ||| c1 ||| c2)
  | _, _, c, cs => (c, cs)

/-- One row of C over a step. -/
def mxRow (scale : Fv) (a : List Chunk) : List (List Chunk) → List Nat → Conds → List Nat × Conds
  | b :: bs, c :: cs, k =>
    let (r, k) := mxElem scale a b c k
    let (rs, k) := mxRow scale a bs cs k
    (r :: rs, k)
  | _, _, k => ([], k)

/-- All rows of C over a step. -/
def mxRows (scale : Fv) (bs : List (List Chunk)) : List (List Chunk) → List (List Nat) → Conds → List (List Nat) × Conds
  | a :: as, c :: cs, k =>
    let (r, k) := mxRow scale a bs c k
    let (rs, k) := mxRows scale bs as cs k
    (r :: rs, k)
  | _, _, k => ([], k)

/-- The scale base of a handle (R268). -/
def mxScale (h : BitVec 2048) : Fv := if [3, 4, 11, 12].contains (hFmt h) then decodeF f32 (hScale h) else .fin false 1 0

/-- The status bits of what was met (R269, R284). -/
def MxMet.bits (g : MxMet) : BitVec 13 :=
  (g.conds ||| g.met.conds).setWidth 13 ||| (if g.met.pois.isSome then 0x800 else 0) ||| (if g.met.freed.isSome then 0x1000 else 0)

/-- Conditions and failing words join those that a command has raised (R285). -/
def MxCmd.note (c : MxCmd) (g : MxMet) : MxCmd :=
  { c with raised := c.raised ||| g.bits, segf := c.segf.or g.met.freed, pois := c.pois.or g.met.pois }

/-- A step of MXLOOP or MXSP (R275, R279): the tile's new rows and what was met. -/
def denseStep (s : State) (c : MxCmd) : List (List Nat) × MxMet :=
  let r := fun i => c.regs.getD i 0
  let win := fun i => s.mxWindow c.sid (r i) c.sels (c.pick / 2 ^ (65536 * (i - i / 6 * 4))) (if i = 0 then c.offA else if i = 1 then c.offB else c.offM).toNat
  let a := hFmt c.ha
  let b := hFmt c.hb
  let old := s.tileRows (coreOf c.sid) c.tile 0 128
  let scale := (mulF (mxScale c.ha) (mxScale c.hb)).1
  let (as, bs, g) : List (List Chunk) × List (List Chunk) × MxMet :=
    if c.kind = .sparse then
      let n := sparseN (cfgSp c.cfg)
      let k := sparseK a n
      let (as, g) := sparseRows (win 0) (win 6) s a n (k / 32) 128 c.offA.toNat c.offM.toNat {}
      let (bs, g) := mxColsB (win 1) s b k c.offB.toNat g
      (as, bs, g)
    else
      let k := denseK a b
      let (as, g) := mxRowsA (win 0) s a k c.offA.toNat {}
      let (bs, g) := mxColsB (win 1) s b k c.offB.toNat g
      (as, bs, g)
  let (rows, k) := mxRows scale bs as old 0
  (rows, { g with conds := g.conds ||| k })

/-- One token's row of B added into a row of C (R281): B's elements from an offset, the token's weight with sign and scales. -/
def rkRow (win : Option MxWin) (s : State) (fmt : Nat) (wt : Fv) : List Nat → Nat → MxMet → List Nat × MxMet
  | [], _, g => ([], g)
  | c :: cs, off, g =>
    let (v, g) := mxRead win s (tyBytes fmt) off g
    let p := (mulF wt (mxVal fmt v)).1
    let (r, k) := mxAdd c p
    let (rs, g) := rkRow win s fmt wt cs (off + tyBytes fmt) { g with conds := g.conds ||| k ||| (if isNan p then cINV else 0) }
    (r :: rs, g)

/-- One token of one row (R34, R281): the row's new place, C's row, what was met. -/
def rkToken1 (s : State) (c : MxCmd) (m : Nat) (row : MxRow) (cr : List Nat) (g : MxMet) : MxRow × List Nat × MxMet :=
  let r := fun i => c.regs.getD i 0
  let off := adOff (r 0) + m * (r 2).toNat + 2 * row.pos
  let (tok, g) := mxRead (s.mxWindow c.sid (r 0) c.sels c.pick (adOff (r 0))) s 2 off g
  let idx := tok % 4096
  let tie := tok.testBit 13
  if tok = 0xFFFF then ({ row with ended := true }, cr, g)
  else if 2 ^ 14 ≤ tok || (row.pos = 0 && tie) || 256 ≤ row.pos || (r 3).toNat ≤ idx then
    ({ row with ended := true }, cr, { g with conds := g.conds ||| cRKF })
  else
    let run := if tie then row.run else row.pos
    let fmt := hFmt c.hb
    let e := decodeF (fmtOf 1) (c.table.getD (if cfgTs c.cfg then run else row.pos) 0).toNat
    let e := if tok.testBit 12 then negF e else e
    let wt := (mulF (mulF e (mxScale c.ha)).1 (mxScale c.hb)).1
    let (cr, g) := rkRow (s.mxWindow c.sid (r 1) c.sels (c.pick / 2 ^ 65536) (adOff (r 1))) s fmt wt cr (adOff (r 1) + idx * 192 * tyBytes fmt) g
    ({ row with pos := row.pos + 1, run := run }, cr, g)

/-- The next group of tokens of an MXRK (R270, R281): at most four, one of each of the first rows that have not ended. -/
def rankGroup (s : State) (c : MxCmd) : State × MxCmd × MxMet :=
  let core := coreOf c.sid
  let open' := ((c.rows.zip (List.range c.rows.length)).filter fun p => !p.1.ended).take 4
  open'.foldl (fun acc p =>
    let (s, c, g) := acc
    let old := (s.tileRows core c.tile p.2 1).headD []
    let (row, cr, g) := rkToken1 s c p.2 p.1 old g
    (s.putRows core c.tile p.2 [cr], { c with rows := setAt c.rows p.2 row }, g)) (s, c, {})

/-- One element of MXST (R283): output bytes' value, residue, conditions. -/
def storeElem (fmt : Nat) (ovf res : Bool) (c e : Nat) : Nat × Nat × Conds :=
  if fmt = 0 then (c, 0, 0)
  else if res then errFeedback (fmtOf fmt) ovf c e
  else
    let (y, k) := encodeF (fmtOf fmt) 0 ovf false (decodeF f32 c)
    (y, 0, k)

/-- A Q4X block of MXST (R33, R283): its 18 bytes, residues, conditions. -/
def storeBlock (res : Bool) (base : Nat) (xs es : List Nat) : List Byte × List Nat × Conds :=
  let ys := if res then (xs.zip es).map fun p => (add32 p.1 p.2).1 else xs
  let q := q4Encode ys base
  (leBytes 18 q.blk, (ys.zip q.vals).map fun p => q4Residue p.1 p.2, q.conds.foldl (· ||| ·) 0)

/-- A row of MXST's output: its bytes, residues, conditions. -/
def storeRow (c : MxCmd) (xs es : List Nat) : List Byte × List Nat × Conds :=
  let base := ((c.regs.getD 0 0).extractLsb' 32 32).toNat
  if c.out = 11 then
    let bl := ((cutIn 32 6 xs).zip (cutIn 32 6 es)).map fun p => storeBlock c.res base p.1 p.2
    (bl.flatMap (·.1), bl.flatMap (·.2.1), bl.foldl (fun k b => k ||| b.2.2) 0)
  else
    let el := (xs.zip es).map fun p => storeElem c.out c.ovf c.res p.1 p.2
    (el.flatMap fun e => leBytes (tyBytes c.out) e.1, el.map (·.2.1), el.foldl (fun k e => k ||| e.2.2) 0)

/-- 16 rows of MXST (R283, R286). (DEDUCED, log entry 37) -/
def storeGroup (s : State) (c : MxCmd) : State × MxMet :=
  let core := coreOf c.sid
  let tag := osTag (s.strand c.sid).segs.o.base.toNat
  let win : Option MxWin := some { core := core, base := tag, lo := 0, hi := 2 ^ 26, alt := tag }
  let m0 := 16 * c.done
  let dst := ((c.regs.getD 0 0).extractLsb' 0 26).toNat
  let ro := ((c.regs.getD 1 0).extractLsb' 0 26).toNat
  let rows := s.tileRows core c.tile m0 16
  let (es, g) : List Nat × MxMet := if c.res then mxReads win s 4 4 (16 * 192) (ro + m0 * 768) {} else (List.replicate (16 * 192) 0, {})
  let outs := (rows.zip (cutIn 192 16 es)).map fun p => storeRow c p.1 p.2
  let bytes := outs.flatMap (·.1)
  let conds : Conds := outs.foldl (fun k o => k ||| o.2.2) 0
  let (s, m) := rkWrite s (core, tag, 2 ^ 26) (dst + m0 * (if c.out = 11 then 108 else 192 * tyBytes c.out)) bytes g.met
  let (s, m) := if c.res then rkWrite s (core, tag, 2 ^ 26) (ro + m0 * 768) (outs.flatMap fun o => o.2.1.flatMap (leBytes 4)) m else (s, m)
  (s, { g with met := m, conds := conds })

/-! ### Progress (R270, R276, R286) -/

/-- Whether a command is the first on its tile (R270). -/
def firstOnTile (q : List MxCmd) (n : Nat) (c : MxCmd) : Bool := !(q.take n).any fun d => d.tile == c.tile

/-- Whether a command's steps are all done. -/
def MxCmd.isOver (c : MxCmd) : Bool := if c.kind = .rank then c.rows.all (·.ended) else decide (c.count ≤ c.done)

/-- Whether the lane blocks that ACQW awaits have ended, their accesses complete (R271). -/
def Strand.blocksOver (st : Strand) (n m : Nat) : Bool :=
  let past := fun (c : LaneCtx) k => decide (k < c.started) || (decide (c.started = k) && !c.busy)
  past st.lane n && past st.win m
  && !st.longs.any fun l => (l.kind == .mem || l.kind == .rank) && decide (l.blk ≤ if l.win then m else n)

/-- The barrier and phase that a command waits for before its next step (R275, R276). -/
def MxCmd.stage (c : MxCmd) : Option (Nat × Nat) :=
  let p := stP (c.regs.getD 5 0)
  if (c.kind = .dense || c.kind = .sparse) && p != 0 && c.done % p = 0 && c.done < c.count then
    some (stBoff (c.regs.getD 4 0), (stPh0 (c.regs.getD 4 0) + c.done / p) % 2 ^ 16)
  else none

/-- Whether a command waits for a stage phase (R269). -/
def State.mxWaits (s : State) (core : Nat) (c : MxCmd) : Bool :=
  match c.stage with
  | none => false
  | some (b, ph) => !s.abDone core (osTag (s.strand c.sid).segs.o.base.toNat + b) ph

/-- Whether the command at a place of a core's queue can step now (R270, R271, R276, R286). -/
def State.mxRunnable (s : State) (core n : Nat) : Bool :=
  let q := s.mxCmds core
  match q[n]? with
  | none => false
  | some c =>
    let st := s.strand c.sid
    core < 64 && c.tile < 8 && !c.isOver && firstOnTile q n c && st.halt == .none && (s.team st.team).st == .running
    && (match c.acq with
        | some (a, b) => c.started || st.blocksOver a b
        | none => true)
    && !s.mxWaits core c

/-- The commands that the arrays, or the store path, could step now, by their places (R270). -/
def State.mxReadyOn (s : State) (core : Nat) (store : Bool) : List Nat :=
  (List.range (s.mxCmds core).length).filter fun n => s.mxRunnable core n && ((s.mxCmds core)[n]?.any fun c => (c.kind == .store) == store)

/-- Whether command a goes before command b (R270): on the store path one that has begun, of two the one that stepped last, so that it ends before the other goes on; one that has been runnable for 64 step times without a step; the higher class; the one that stepped least recently; the one accepted first. (DEDUCED, log entry 37) -/
def State.mxBefore (s : State) (a b : MxCmd) : Bool :=
  let begun := fun (c : MxCmd) => c.kind == .store && decide (0 < c.done)
  let prio := fun (c : MxCmd) => (s.strand c.sid).prio
  let last := fun (c : MxCmd) => (c.last.map (· + 1)).getD 0
  if begun a != begun b then begun a
  else if begun a then decide (last b ≤ last a)
  else if decide (64 ≤ a.age) || decide (64 ≤ b.age) then decide (b.age ≤ a.age)
  else if prio a != prio b then decide (prio b < prio a)
  else decide (last a ≤ last b)

/-- The place of the command that the arrays, or the store path, step next (R270). -/
def State.mxChoice (s : State) (core : Nat) (store : Bool) : Option Nat :=
  (s.mxReadyOn core store).foldl (fun acc n =>
    match acc.bind fun m => ((s.mxCmds core)[m]?), (s.mxCmds core)[n]? with
    | some a, some b => if s.mxBefore a b then acc else some n
    | _, _ => some n) none

/-- The step ages after a choice (R270): the chosen command's is 0, that of every other runnable one grows. -/
def State.mxAge (s : State) (core n : Nat) (store : Bool) : State :=
  let ready := s.mxReadyOn core store
  let q := s.mxCmds core
  s.setMxCmds core ((q.zip (List.range q.length)).map fun p =>
    if p.2 = n then { p.1 with age := 0, last := some s.stepNo } else if ready.contains p.2 then { p.1 with age := p.1.age + 1 } else p.1)

/-- The select bits of the partners whose windows a command reads (R277). -/
def State.mxSels (s : State) (c : MxCmd) : List (Nat × Bool) :=
  ([0, 1, 6].filterMap fun i =>
    let ad := c.regs.getD i 0
    if adXw ad then s.partner (s.teamOf c.sid) (adNp ad) else none).map fun q => (q.1, q.2.sel)
/-- What a strand's table slot gives an MXRK that starts (R281, R330). -/
def MxCmd.start (c : MxCmd) (s : State) : MxCmd :=
  if c.started then c
  else if c.kind = .rank then
    match s.rkTable (coreOf c.sid) (cfgRt c.cfg) (s.ctxOf c.sid) with
    | some t => { c with started := true, table := t }
    | none => { c with started := true, raised := c.raised ||| 0x200 }
  else { c with started := true }

/-- The status bits of a command's tile follow what the command has raised (R269). -/
def State.mxStatus (s : State) (core : Nat) (c : MxCmd) (new : BitVec 13) : State :=
  let t := s.tile core c.tile
  s.setTile core c.tile { t with status := t.status ||| new }

/-- Write back a command after a step: what the step raised is set in the tile's status word (R269). -/
def State.mxPut (s : State) (core n : Nat) (old c : MxCmd) (g : MxMet) : State :=
  (s.setMxCmds core (setAt (s.mxCmds core) n (c.note g))).mxStatus core c (g.bits ||| (c.raised &&& ~~~old.raised))

/-- Where the words CPL and RLS of a command's barrier are poisoned (R261): their O offset. -/
def State.mxBarPois (s : State) (core : Nat) (c : MxCmd) : Option Nat :=
  let b := stBoff (c.regs.getD 4 0)
  if s.osPois core (osTag (s.strand c.sid).segs.o.base.toNat + b + 8) 4 then some (b + 8) else none

/-- A poisoned word of the barrier joins what a command meets (R284). -/
def MxMet.bar (g : MxMet) (p : Option Nat) : MxMet := { g with met := { g.met with pois := p.or g.met.pois } }

/-- A command that waits for its stage and reads a poisoned word of its barrier reports it (R261, R284), once. (DESIGN CHOICE, log entry 50) -/
def State.mxWaitNote (s : State) (core n : Nat) (c : MxCmd) : State :=
  if core < 64 && c.tile < 8 && firstOnTile (s.mxCmds core) n c && s.mxWaits core c && !c.raised.getLsbD 11 then
    match s.mxBarPois core c with
    | some p => s.mxPut core n c c (({} : MxMet).bar (some p))
    | none => s
  else s

/-- A step of a dense or sparse command: the acquire of its stage before, the stage's release after (R275, R276). (DEDUCED, log entry 37) -/
def State.mxDense (s : State) (core n : Nat) (c : MxCmd) : State :=
  let p := stP (c.regs.getD 5 0)
  let s := if c.stage.isSome then s.acquireAt (dieOf core) (s.ctxOf c.sid) 4 else s
  let (rows, g) := denseStep s c
  let r := fun i => c.regs.getD i 0
  let rel := p != 0 && decide ((c.done + 1) % p = 0)
  let g := if c.stage.isSome || rel then g.bar (s.mxBarPois core c) else g
  let c' := (c.start s)
  let c' := { c' with
    done := c.done + 1, sels := [], pick := 0, offA := nextOff (r 0) (r 2) c.offA, offB := nextOff (r 1) (r 3) c.offB
    offM := if c.kind = .sparse then nextOff (r 6) (r 7) c.offM else c.offM }
  let s := (s.putRows core c.tile 0 rows).mxPut core n c c' g
  if rel then s.abRelease core (osTag (s.strand c.sid).segs.o.base.toNat + stBoff (r 4)) else s

/-- The step of a command: a multiply-accumulate step, a group of four tokens, or 16 rows (R275, R279, R281, R283). -/
def State.mxStep (s : State) (core n : Nat) (c : MxCmd) : State :=
  match c.kind with
  | .dense => s.mxDense core n c
  | .sparse => s.mxDense core n c
  | .rank =>
    let (s', c', g) := rankGroup s (c.start s)
    s'.mxPut core n c { c' with done := c.done + 1, sels := [], pick := 0 } g
  | .store =>
    let (s', g) := storeGroup s c
    s'.mxPut core n c { c.start s with done := c.done + 1 } g

/-- MATRIX_STEP (R270, R275, R277, R279, R281, R283): the command at place ev.idx of core ev.core's queue, if it is the one that the engine chooses, does one step. ev.flag: the step only begins, the command starts, and the mapping of the exchange windows that it reads is noted; a step that has begun reads the words that ev.val names through that mapping. (DEDUCED, log entry 56) -/
def execMatrixStep (s : State) : Out :=
  let core := s.ev.core
  let n := s.ev.idx
  match (s.mxCmds core)[n]? with
  | none => .next s
  | some c =>
    let store := c.kind == .store
    if s.mxChoice core store != some n then .next (s.mxWaitNote core n c)
    else if s.ev.flag then .next (s.mxPut core n c { c.start s with sels := s.mxSels c } {})
    else
      let s := s.mxAge core n store
      .next (s.mxStep core n { c with age := 0, last := some s.stepNo, pick := if c.sels = [] then 0 else s.ev.val })

/-- The trap of a completed command (R285): a held cause 0x06 or 0x0D, or an after-completion entry of the enabled conditions. (DEDUCED, log entry 37) -/
def State.mxTrap (s : State) (c : MxCmd) : State :=
  let st := s.strand c.sid
  if c.raised.getLsbD 12 then s.holdCause c.sid { code := 0x06, faddr := BitVec.ofNat 64 (c.segf.getD 0) }
  else if c.raised.getLsbD 11 then s.holdCause c.sid { code := 0x0D, faddr := BitVec.ofNat 64 (c.pois.getD 0) }
  else
    let k : Conds := c.raised.setWidth 11 &&& st.enabled
    if k = 0 then s
    else if st.csr.ih then s.doubleTrap c.sid
    else s.modStrand c.sid fun st => { st with
      pendC := st.pendC ++ [{ due := s.cycles (coreOf c.sid), trap := { code := 0x10, acm := k, after := true } }] }

/-- A command leaves the queue (R270, R283, R285): a store's tile is zeroed or freed, its flag falls by one, its conditions are judged. -/
def State.mxFinish (s : State) (core n : Nat) (c : MxCmd) : State :=
  let s := s.setMxCmds core (dropAt (s.mxCmds core) n)
  let s := if c.kind = .store && c.free then s.freeTile core c.tile
    else if c.kind = .store && c.zero then { s with tileVal := s.tileVal.filter fun e => !(e.1 / 24576 == tileKey core c.tile) }
    else s
  (s.decFlag c.sid c.flag.toNat c.saved).mxTrap c

/-- MATRIX_COMMAND_COMPLETE (R270, R285): the command at place ev.idx of core ev.core's queue, its steps done, completes. -/
def execMatrixCommandComplete (s : State) : Out :=
  let q := s.mxCmds s.ev.core
  match q[s.ev.idx]? with
  | none => .next s
  | some c => if s.ev.core < 64 && c.isOver && c.tile < 8 && firstOnTile q s.ev.idx c then .next (s.mxFinish s.ev.core s.ev.idx c) else .next s

/-! ### MXCFG.stat and MXCFG.free -/

/-- The status word of a physical tile (R269). (DEDUCED, log entry 37) -/
def State.tileStatus (s : State) (core p : Nat) : W64 :=
  let q := (s.mxCmds core).filter fun c => c.tile == p
  let w := match q with
    | c :: _ => s.mxWaits core c
    | [] => false
  BitVec.ofNat 64 ((s.tile core p).status.toNat + (if w then 2 ^ 13 else 0) + q.length * 2 ^ 16)

/-- MXCFG_STAT (R267, R269): the status word; its bits [12:0] are then cleared. -/
def execMxcfgStat (d : BitVec 6) (t : BitVec 3) (s : State) : Out := scalar (do
  portsOk [] [d]
  dstReady d
  tilesBack
  let s ← get
  let core ← myCore
  match s.tileOf s.cur t.toNat with
  | none => badOperand
  | some p =>
    set (s.setTile core p { s.tile core p with status := 0 })
    writeDst d (s.tileStatus core p)
    advance) s

/-- MXCFG_FREE (R267): waits for every matrix command of the strand, then frees its tiles. -/
def execMxcfgFree (s : State) : Out := scalar (do
  tilesBack
  let s ← get
  let core ← myCore
  waitUnless (!(s.mxCmds core).any fun c => c.sid == s.cur)
  set ((List.range 8).foldl (fun s' p => if (s.tile core p).owner = some s.cur then s'.freeTile core p else s') s)
  advance) s

end Sys2Proof.Machine
end

