-- ==== Sys2Proof/Machine/Stream.lean ====
section
/-! DEFINITION. What stream engines and copy paths share: their accesses to memory and operand stores (R291, R296, R309, R319), tile copies (R297, R298, R311), the rules of arrival barriers for them (R303 to R306). -/

namespace Sys2Proof.Machine

/-- What an engine's work changes: the package, status bits [7:2] that it sets (R295), residues (R315), stored bytes made (R314); done: units done; out: its last writes to memory, physical address and bytes, gathered so that the home slices take them line by line. -/
structure Run where
  s : State
  sticky : BitVec 6 := 0
  resid : List Nat := []
  buf : List Byte := []
  done : Nat := 0
  out : Option (Nat × List Byte) := none
  deriving DecidableEq, Repr

/-- Why an engine does not go on, with what has been done until then: an access parked on a translation fault (R87), one of an index or not; a stop with its CODE (R295), the failing address and the denied access; a wait. -/
inductive EStop where
  | park (p : Park) (onIndex : Bool) (r : Run)
  | stop (code : Byte) (faddr : Nat) (denied : List (Nat × Nat)) (r : Run)
  | wait (r : Run)
  deriving DecidableEq, Repr

/-- What has been done until then. -/
def EStop.run : EStop → Run
  | .park _ _ r => r
  | .stop _ _ _ r => r
  | .wait r => r

/-- A change of what has been done. -/
def EStop.map (f : Run → Run) : EStop → EStop
  | .park p i r => .park p i (f r)
  | .stop c a d r => .stop c a d (f r)
  | .wait r => .wait (f r)

/-- Work of an engine. -/
abbrev E := StateT Run (Except EStop)

/-- An engine as an agent: its context, die, AGENT, UNIT and WHO of a fault record (R87). -/
structure Eng where
  ctx : Nat
  die : Nat
  agent : Nat
  unitNo : Nat
  who : Nat

/-- Status bits [7:2] of R295. -/
def stPOIS : BitVec 6 := 1
def stEXPL : BitVec 6 := 2
def stINX : BitVec 6 := 4
def stINV : BitVec 6 := 8
def stOVF : BitVec 6 := 16
def stQMAL : BitVec 6 := 32

/-- Status bits of conditions (R295). -/
def stOf (c : Conds) : BitVec 6 :=
  let b := fun (k : Conds) (x : BitVec 6) => if c &&& k = 0 then 0 else x
  b cINX stINX ||| b cINV stINV ||| b cOVF stOVF ||| b cQMAL stQMAL ||| b cEXPL stEXPL

/-- Set status bits. -/
def noteE (x : BitVec 6) : E Unit := modify fun r => { r with sticky := r.sticky ||| x }

/-- The package as it stands. -/
def stE : E State := do return (← get).s

/-- Park an access. -/
def parkE {α : Type} (p : Park) : E α := fun r => .error (.park p false r)

/-- Wait. -/
def waitE {α : Type} : E α := fun r => .error (.wait r)

/-- Stop with a CODE. -/
def stopE {α : Type} (code : Byte) (faddr : Nat := 0) (denied : List (Nat × Nat) := []) : E α := fun r => .error (.stop code faddr denied r)

/-! ### Memory (R102, R291) -/

/-- Translate an access of an engine and check its rights (R86, R291, R359): kind 0 read, 1 write, 2 atomic. -/
def engPlace (g : Eng) (va kind : Nat) : E (Nat × Nat) := do
  let s ← stE
  match s.xlate g.die g.ctx va (needOf kind) .engine with
  | .error .hostLeaf => stopE 0x04 va
  | .error x => parkE (parkOf g.ctx va g.agent kind x)
  | .ok r =>
    if !r.s.allowed g.ctx r.pa (needOf kind) then stopE 0x04 va [(r.pa, kind)]
    else
      modify fun q => { q with s := r.s }
      return (r.pa, r.pol)

/-- A byte range cut at a 64 KiB page boundary: offsets and lengths. -/
def pagePieces (va n : Nat) : List (Nat × Nat) :=
  let room := 65536 - va % 65536
  if n ≤ room then [(0, n)] else [(0, room), (room, n - room)]

/-- Read n bytes of memory at the home slices: a little-endian number. -/
def engRead (g : Eng) (va n : Nat) : E Nat := do
  let parts ← (pagePieces va n).mapM fun p => do
    let (pa, _) ← engPlace g ((va + p.1) % 2 ^ 64) 0
    let (bs, pois) := (← stE).sliceBytes pa p.2
    if pois then noteE stPOIS
    return bs
  return leValue parts.flatten

/-- The lines that bytes from an address on meet: line, byte mask, data. -/
def lineParts (pa : Nat) (bs : List Byte) : List (Nat × BitVec 128 × BitVec 1024) :=
  (List.range ((pa + bs.length - 1) / 128 - pa / 128 + 1)).map fun k =>
    let ln := pa / 128 + k
    let lo := if k = 0 then pa % 128 else 0
    let mine := (bs.drop (ln * 128 + lo - pa)).take (128 - lo)
    (ln, byteMask lo mine.length, lineData lo mine.length (leValue mine))

/-- Write bytes at the home slices, line by line (R102). -/
def State.homePut (s : State) (pa : Nat) (bs : List Byte) : State :=
  if bs = [] then s else (lineParts pa bs).foldl (fun s p => s.sliceWrite p.1 p.2.1 p.2.2) s

/-- Write bytes of replicated lines through the sequencer (R356): none while it takes no update. -/
def State.replPut (s : State) (pa : Nat) (bs : List Byte) : Option State :=
  if bs = [] then some s else (lineParts pa bs).foldlM (fun s p => s.replStore p.1 p.2.1 p.2.2) s

/-- The gathered writes reach the home slices (R102). -/
def Run.flush (r : Run) : Run :=
  match r.out with
  | none => r
  | some (pa, bs) => { r with s := r.s.homePut pa bs, out := none }

/-- A write of an engine to memory joins the gathered ones when it goes on where they end, so that a store of every byte of a line is one write of the line (R354). -/
def Run.gather (r : Run) (pa : Nat) (bs : List Byte) : Run :=
  match r.out with
  | some (pa0, bs0) => if pa0 + bs0.length = pa then { r with out := some (pa0, bs0 ++ bs) } else { r.flush with out := some (pa, bs) }
  | none => { r with out := some (pa, bs) }

/-- Write bytes of memory at the home slices. -/
def engWrite (g : Eng) (va : Nat) (bs : List Byte) : E Unit :=
  (pagePieces va bs.length).forM fun p => do
    let (pa, pol) ← engPlace g ((va + p.1) % 2 ^ 64) 1
    let part := (bs.drop p.1).take p.2
    if pol = polREPL then
      match (← stE).replPut pa part with
      | none => waitE
      | some s => modify fun q => { q with s := s }
    else modify fun q => q.gather pa part

/-- The work of an engine, with what it has gathered written in the end. -/
def runE {α : Type} (m : E α) (r : Run) : Except EStop (α × Run) :=
  match m r with
  | .ok (x, q) => .ok (x, q.flush)
  | .error e => .error (e.map Run.flush)

/-! ### Operand stores (R292, R296, R309, R317, R319) -/

/-- O.BASE and O.LEN of a team (R206, R214), wherever it is. -/
def State.teamO (s : State) (t : Team) : Nat × Nat :=
  let b := (s.launch t.launch).recBytes
  (t.obase + leValue ((b.drop 0x98).take 4), leValue ((b.drop 0x9C).take 4))

/-- A target of a command (its number + 1): none when it is absent or has retired (R292). -/
def State.target (s : State) (t : Nat) : Option Team :=
  if t = 0 then none else
  match mget? s.teams (t - 1) with
  | some t => if t.resident then some t else none
  | none => none

/-- A target that a command needs. -/
def targetE (t : Nat) : E Team := do
  match (← stE).target t with
  | some t => return t
  | none => stopE 0x03

/-- Read n bytes at an O offset of a target (R252, R319). -/
def osGetE (tk off n : Nat) : E (List Byte) := do
  let t ← targetE tk
  let s ← stE
  let a := (s.teamO t).1 + off
  if s.osAnyFree t.core a n then stopE 0x03 off
  let (bs, c, pois) := s.osReadAll t.core a n
  if c &&& cEXPT != 0 then stopE 0x0B off
  noteE (stOf c ||| (if pois then stPOIS else 0))
  return bs

/-- The bytes of an image that a step writes (R233; DESIGN CHOICE, log entry 68). -/
def imageBytes (stamp n : Nat) : List Byte := (List.range n).map (Config.imageByte stamp)

/-- Whether the bytes in the save area are still those of a team's image (R233). -/
def State.imageIntact (s : State) (t : Team) : Bool :=
  match t.image with
  | none => true
  | some (stamp, a, n) => (List.range n).all fun i => memByte s.hbm (a + i) == Config.imageByte stamp i

/-- The image of a team is written to its place in the save area. -/
def State.putImage (s : State) (key a n : Nat) : State :=
  (s.slicePutBytes a (imageBytes s.stepNo n)).modTeam key fun t => { t with image := some (s.stepNo, a, n) }

/-- An engine has written a team's space: a test of its core yields (R400); the image of a team that is out of its core (R317), which stands under 64 and its number, has changed. -/
def State.reimage (s : State) (core : Nat) : State :=
  if core < 64 then { s with testing := s.testing.filter (· != core) }
  else match (s.team (core - 64)).image with
    | none => s
    | some (_, a, n) => if s.imageIntact (s.team (core - 64)) then s.putImage (core - 64) a n else s

/-- Write bytes at an O offset of a target (R252, R296, R309): every line written takes the class cls, but for one that holds an arrival barrier; with the run bytes before them that the command has just written they clear the poison of every word that is written whole (R261). (DEDUCED, log entry 38) -/
def osPutE (tk off cls run : Nat) (bs : List Byte) : E Unit := do
  let t ← targetE tk
  let s ← stE
  let a := (s.teamO t).1 + off
  if s.osAnyFree t.core a bs.length then stopE 0x03 off
  if s.osMeetsBarrier t.core a bs.length then stopE 0x09 off
  let s := (s.osWriteAll t.core a bs).osRewritten t.core (a - run) a bs.length
  let s := (List.range ((a + bs.length - 1) / 256 - a / 256 + 1)).foldl (fun s k =>
    let l := s.osLine t.core (a / 256 + k)
    if l.barr = 0 then s.setOsLine t.core (a / 256 + k) { l with cls := cls } else s) s
  modify fun q => { q with s := s.reimage t.core }

/-! ### Tile copies -/

/-- A copy between memory elements and operand stores (R297, R298, R311, R314). mem, os: which sides it has; fill: towards the operand store; mc: several targets; un: elements of a unit, ub: its bytes in the operand store; nd: dimensions whose index is checked. -/
structure Copy where
  mem : Bool := true
  os : Bool := true
  fill : Bool
  mc : Bool := false
  tgts : List Nat := []
  h : BitVec 2048
  nd : Nat := 1
  coords : List Nat := []
  ext : List Nat
  un : Nat := 1
  ub : Nat
  pitch : Nat := 0
  dst : Nat := 0
  sstr : Nat := 0
  bar : Bool := false
  ph : Nat := 0
  boff : Nat := 0
  zpad : Bool := false

/-- Extent of dimension d of the tile. -/
def Copy.e (c : Copy) (d : Nat) : Nat := c.ext.getD d 1

/-- Units of a row, rows, units. -/
def Copy.perRow (c : Copy) : Nat := c.e 0 / c.un
def Copy.rows (c : Copy) : Nat := c.e 1 * c.e 2 * c.e 3
def Copy.units (c : Copy) : Nat := c.perRow * c.rows

/-- ROWB and PITCH' (R297). -/
def Copy.rowb (c : Copy) : Nat := c.perRow * c.ub
def Copy.pitch' (c : Copy) : Nat := if c.pitch = 0 then c.rowb else c.pitch

/-- The index of unit u's first element, in every dimension. -/
def Copy.index (c : Copy) (u : Nat) : List Nat :=
  let r := u / c.perRow
  let t := [u % c.perRow * c.un, r % c.e 1, r / c.e 1 % c.e 2, r / (c.e 1 * c.e 2)]
  (List.range 4).map fun d => c.coords.getD d 0 + t.getD d 0

/-- The virtual address of an element, or of the block that holds it (R41). -/
def elemVa (h : BitVec 2048) (idx : List Nat) : Nat :=
  let sum := (idx.zip (List.range idx.length)).foldl (fun a p => a + p.1 * (hStride h p.2).toNat) (hBase h).toNat
  (if hFmt h = 11 then sum + idx.getD (hBdim h) 0 / 32 * 18 else sum) % 2 ^ 64

/-- Whether an index is within the extents that count (R41, R296). -/
def insideTensor (h : BitVec 2048) (nd : Nat) (idx : List Nat) : Bool :=
  (List.range nd).all fun d => decide (idx.getD d 0 < hExtent h d)

/-- Bytes of an element in memory, 18 for a Q4X block. -/
def memWidth (fmt : Nat) : Nat := if fmt = 11 then 18 else tyBytes fmt

/-- The values of a unit in memory: its elements, or its block; under ZPAD 0 outside the tensor (R296). -/
def memUnit (g : Eng) (c : Copy) (u : Nat) : E (List Nat) :=
  let fmt := hFmt c.h
  let i0 := c.index u
  (List.range (if fmt = 11 then 1 else c.un)).mapM fun i => do
    let idx := (i0.getD 0 0 + i) :: i0.drop 1
    if insideTensor c.h c.nd idx then engRead g (elemVa c.h idx) (memWidth fmt)
    else if c.zpad then return 0
    else stopE 0x02 (elemVa c.h idx)

/-- Write the values of a unit to memory. -/
def putMemUnit (g : Eng) (c : Copy) (u : Nat) (vs : List Nat) : E Unit :=
  let fmt := hFmt c.h
  let i0 := c.index u
  (vs.zip (List.range vs.length)).forM fun p => do
    let idx := (i0.getD 0 0 + p.2) :: i0.drop 1
    if insideTensor c.h c.nd idx then engWrite g (elemVa c.h idx) (leBytes (memWidth fmt) p.1)
    else if c.zpad then pure ()
    else stopE 0x02 (elemVa c.h idx)

/-- Bytes of values of w bytes each, and back. -/
def valBytes (w : Nat) (vs : List Nat) : List Byte := vs.flatMap fun v => leBytes w v
def bytesVals (w n : Nat) (bs : List Byte) : List Nat := (List.range n).map fun i => leValue ((bs.drop (i * w)).take w)

/-- The stage of a copy in a target (R297): (p mod S) × SSTR. -/
def State.stageOf (s : State) (c : Copy) (t : Team) : Nat :=
  if c.bar then c.ph % Nat.max 1 (s.abField t.core ((s.teamO t).1 + c.boff) 13 1) * c.sstr else 0

/-- The O offset of a unit in a target (R297). -/
def State.unitOff (s : State) (c : Copy) (t : Team) (u : Nat) : Nat :=
  c.dst + s.stageOf c t + u / c.perRow * c.pitch' + u % c.perRow * c.ub

/-- How many bytes before a unit's the copy has written without a gap (R297): those of its row, or of all rows where the pitch leaves none. -/
def Copy.runBefore (c : Copy) (u : Nat) : Nat := (if c.pitch' = c.rowb then u else u % c.perRow) * c.ub

/-- Put a unit's bytes into every target that is still there; the only target of a command must be (R297). -/
def putTargets (c : Copy) (u : Nat) (bs : List Byte) : E Unit :=
  c.tgts.forM fun tk => do
    let s ← stE
    match s.target tk with
    | some t => osPutE tk (s.unitOff c t u) (hLife c.h) (c.runBefore u) bs
    | none => if c.mc then pure () else stopE 0x03

/-- A unit's bytes from the operand store of the only target. -/
def getTarget (c : Copy) (u : Nat) : E (List Byte) := do
  let tk := c.tgts.headD 0
  let t ← targetE tk
  osGetE tk ((← stE).unitOff c t u) c.ub

/-- A unit of a TILE, MCAST or STORE (R297). -/
def tileUnit (g : Eng) (c : Copy) (u : Nat) : E Unit := do
  let w := memWidth (hFmt c.h)
  if c.fill then putTargets c u (valBytes w (← memUnit g c u))
  else putMemUnit g c u (bytesVals w 1 (← getTarget c u))

/-- Units from a place on, in order; one that parks or waits is done again from its beginning. -/
def unitsFrom (f : Nat → E Unit) : Nat → Nat → E Unit
  | 0, _ => pure ()
  | n + 1, u => fun r =>
    match f u r with
    | .ok (_, q) => unitsFrom f n (u + 1) { q with done := q.done + 1 }
    | .error (.park p i _) => .error (.park p i r)
    | .error (.wait _) => .error (.wait r)
    | .error e => .error e

/-! ### Checks at acceptance (R290, R296, R297, R306) -/

/-- The fields of a copy that a command's words give, and whether they keep R297: extents, alignment, pitch, the rules of q4x. (DEDUCED, log entry 38) -/
def Copy.fieldsOk (c : Copy) (ext : W64) : Bool :=
  let q := hFmt c.h == 11
  (List.range 4).all (fun d =>
    let e := (ext.extractLsb' (16 * d) 16).toNat
    if d < c.nd then e != 0 else e == 0)
  && c.nd ≤ hRank c.h && c.dst % 256 == 0 && c.sstr % 256 == 0 && c.boff % 32 == 0
  && (c.bar || (c.sstr == 0 && c.boff == 0))
  && (c.pitch == 0 || c.rowb ≤ c.pitch)
  && (!q || (hBdim c.h == 0 && c.e 0 % 32 == 0 && c.coords.getD 0 0 % 32 == 0))

/-- Whether every element index of the copy is below its extent (R296); so a Q4X block is read or written for conversion only where it lies inside the tensor whole (R33). -/
def Copy.boxInside (c : Copy) : Bool := (List.range c.nd).all fun d => decide (c.coords.getD d 0 + c.e d ≤ hExtent c.h d)

/-- The address of the first element of the tile, t0 fastest, that lies outside the tensor (R296, R312). -/
def Copy.firstOut (c : Copy) : Nat :=
  let step := fun d => ((List.range d).map c.e).foldl (· * ·) 1
  let outs := ((List.range c.nd).filter fun d => decide (hExtent c.h d < c.coords.getD d 0 + c.e d)).map fun d =>
    (hExtent c.h d - c.coords.getD d 0) * step d
  let u := outs.foldl Nat.min (outs.headD 0)
  elemVa c.h ((List.range 4).map fun d => c.coords.getD d 0 + u / step d % c.e d)

/-- The check of one target (R292, R296, R306): present, a barrier at BOFF whose phase is still to be filled, the region within O. (DEDUCED, log entry 38) -/
def State.checkTarget (s : State) (c : Copy) (tk : Nat) : Except Byte Unit :=
  match s.target tk with
  | none => .error 0x03
  | some t =>
    let (b, len) := s.teamO t
    if c.bar && (decide (len < c.boff + 32) || !s.hasBarrier t.core (b + c.boff)) then .error 0x09
    else if c.bar && c.fill && s.abDone t.core (b + c.boff) c.ph then .error 0x09
    else if len < s.unitOff c t 0 + (c.rows - 1) * c.pitch' + c.rowb then .error 0x06
    else .ok ()

/-- The check of a copy at acceptance. -/
def State.checkCopy (s : State) (c : Copy) : Except Byte Unit := do
  if c.mem && !c.zpad && !c.boxInside then throw 0x02
  if c.os then c.tgts.forM fun tk => s.checkTarget c tk

/-- Whether a copy may begin (R297, R306): the window of every target that is still there is open, or the phase that a STORE reads is complete. (DEDUCED, log entry 38) -/
def State.copyOpen (s : State) (c : Copy) : Bool :=
  !c.bar || c.tgts.all fun tk =>
    match s.target tk with
    | none => true
    | some t =>
      let a := (s.teamO t).1 + c.boff
      if c.fill then
        let cpl := s.abField t.core a 8 2
        let rls := s.abField t.core a 10 2
        cpl == c.ph && decide ((c.ph + 2 ^ 16 - rls) % 2 ^ 16 < s.abField t.core a 12 1)
      else s.abDone t.core a c.ph

/-- Whether bytes i to i + k - 1 of a barrier that a copy reads meet a poisoned word (R261). -/
def State.copyPois (s : State) (c : Copy) (i k : Nat) : Bool :=
  c.bar && c.tgts.any fun tk =>
    match s.target tk with
    | none => false
    | some t =>
      let a := (s.teamO t).1 + c.boff
      s.hasBarrier t.core a && s.osPois t.core (a + i) k

/-- What a copy does to its barriers when it completes (R297, R305, R308): credits of its bytes, or the release of a phase. -/
def State.copyBarriers (s : State) (c : Copy) : State :=
  if !c.bar then s
  else c.tgts.foldl (fun s tk =>
    match s.target tk with
    | none => s
    | some t =>
      let a := (s.teamO t).1 + c.boff
      if !s.hasBarrier t.core a then s
      else (if c.fill then s.abCredit t.core a (c.rowb * c.rows) else s.abRelease t.core a).reimage t.core) s

/-- The release of an engine at a scope (R90, R100, R101): its own writes are at the home slices; at .sys the host agent's lines are made observed. -/
def State.engRelease (s : State) (rel : Bool) (scope : Nat) : State := if rel && scope = 5 then s.hostFlush else s

/-- The copy of a TILE, MCAST or STORE, or of a SCOPY (R297, R311), from its words. -/
def tileCopy (fill mc : Bool) (w : StreamW) (h : BitVec 2048) (tgts coords : List Nat) (ph : Nat) : Copy :=
  let nd := (w.w0.extractLsb' 34 2).toNat + 1
  { fill := fill, mc := mc, tgts := tgts, h := h, nd := nd, coords := coords.take nd
    ext := (List.range 4).map fun d => if d < nd then (w.w1.extractLsb' (16 * d) 16).toNat else 1
    un := if hFmt h = 11 then 32 else 1, ub := memWidth (hFmt h)
    pitch := (w.w2.extractLsb' 32 32).toNat, dst := (w.w0.extractLsb' 0 26).toNat, sstr := (w.w2.extractLsb' 0 32).toNat
    bar := w.w0.getLsbD 48, ph := ph, boff := (w.w3.extractLsb' 0 26).toNat, zpad := w.w0.getLsbD 49 }

/-- The units of a chunk of at most 64 KiB of destination bytes, of which a unit makes db (R289). (DEDUCED, log entry 38) -/
def chunkUnits (db : Nat) : Nat := Nat.max 1 (65536 / Nat.max 1 db)

/-- Destination bytes of a unit of a TILE, MCAST, STORE or GATHER: those of every target (R289). -/
def Copy.destBytes (c : Copy) : Nat := if c.fill && c.os then c.ub * c.tgts.length else c.ub

end Sys2Proof.Machine
end

