-- ==== Sys2Proof/Machine/Session.lean ====
section
/-! DEFINITION. Conversions of GATHER, SAVE and FETCH (R298, R315), the stored form of a tile and the NVMe commands that move it (R313, R314, R316). -/

namespace Sys2Proof.Machine

/-! ### Decoding and encoding (R298, R315) -/

/-- Formats of R315's conversions: f32, f16, bf16, e4m3, e5m2, q4x. -/
def convFmt (f : Nat) : Bool := f ≤ 4 || f == 11

/-- Formats that use SCALE (R19, R41). -/
def usesScale (f : Nat) : Bool := f == 3 || f == 4 || f == 11

/-- The exact value of an element that is no Q4X block, times SCALE where its format has one. -/
def scaledVal (h : BitVec 2048) (v : Nat) : Fv :=
  let x := decodeF (fmtOf (hFmt h)) v
  if usesScale (hFmt h) then (mulF x (decodeF f32 (hScale h))).1 else x

/-- The exact values of a unit's elements; a malformed block sets QMAL (R32, R319). -/
def unitVals (h : BitVec 2048) (vs : List Nat) : E (List Fv) :=
  if hFmt h = 11 then do
    let ds := vs.map fun b => q4Decode b (decodeF f32 (hScale h))
    if ds.any (·.bad) then noteE stQMAL
    return ds.flatMap (·.vals)
  else return vs.map (scaledVal h)

/-- Round a value into a format that has no scale, noting the conditions (R24). -/
def roundE (f : Fmt) (v : Fv) : E Nat := do
  let (x, c) := encodeF f 0 false false v
  noteE (stOf c)
  return x

/-- The exact quotient of a value by a positive scale, far enough for one rounding. -/
def divScale (v : Fv) (scale : Nat) : Fv :=
  match v with
  | .fin n m e =>
    let (q, qe) := magOf (decodeF f32 scale)
    let (k, ke) := quotSticky m q 80
    .fin n k (ke + e - qe)
  | x => x

/-- Bits of an element of a format, in eighths of a byte (R19, R30): a Q4X element takes 4 and a half. -/
def fmtHalfBits (f : Nat) : Nat := if f = 11 then 9 else 16 * tyBytes f

/-- Whether error feedback applies (R29, R315): the destination is narrower. (DEDUCED, log entry 38) -/
def narrows (src dst : Nat) : Bool := decide (fmtHalfBits dst < fmtHalfBits src)

/-- Encode one f32 value into a format other than q4x (R24, R25, R315): the value, whether y is the format's datum for it. -/
def encodeElem (h : BitVec 2048) (x : Nat) : Nat × Conds :=
  let f := hFmt h
  let v := decodeF f32 x
  encodeF (fmtOf f) 0 false false (if usesScale f then divScale v (hScale h) else v)

/-- Encode one f32 value with error feedback (R29, R315): for a format with a scale the residue is RNE32(s − y × SCALE). (DEDUCED, log entry 38) -/
def encodeElemEf (h : BitVec 2048) (x e : Nat) : Nat × Nat × Conds :=
  let f := hFmt h
  if usesScale f then
    let (sv, c0) := addF 0 (decodeF f32 x) (decodeF f32 e)
    let s := rne32 sv
    let (y, c1) := encodeElem h s
    match decodeF f32 s with
    | .nan _ => (y, 0, c0)
    | .inf _ => (y, 0, c1)
    | .fin .. =>
      let (p, _) := mulF (decodeF (fmtOf f) y) (decodeF f32 (hScale h))
      (y, rne32 (addF 0 (decodeF f32 s) (negF p)).1, c1 &&& ~~~cUNF)
  else errFeedback (fmtOf f) false x e

/-- Encode a unit of f32 values into a store-side or memory-side form (R315), with the residues of its elements when error feedback applies. -/
def encodeUnit (h : BitVec 2048) (ef : Bool) (xs es : List Nat) : E (List Nat × List Nat) :=
  if hFmt h = 11 then do
    let ys := if ef then (xs.zip es).map fun p => (add32 p.1 p.2).1 else xs
    let q := q4Encode ys (hScale h)
    noteE (stOf (q.conds.foldl (· ||| ·) 0))
    return ([q.blk], if ef then (ys.zip q.vals).map fun p => if q.bad then 0 else q4Residue p.1 p.2 else es)
  else if ef then do
    let rs := (xs.zip es).map fun p => encodeElemEf h p.1 p.2
    noteE (stOf (rs.foldl (fun c r => c ||| r.2.2) 0))
    return (rs.map (·.1), rs.map (·.2.1))
  else do
    let rs := xs.map (encodeElem h)
    noteE (stOf (rs.foldl (fun c r => c ||| r.2) 0))
    return (rs.map (·.1), es)

/-- Whether a pair of sides is a raw copy (R315): equal formats, equal SCALE where they use one, EF = 0. -/
def rawPair (src dst : BitVec 2048) (ef : Bool) : Bool :=
  hFmt src == hFmt dst && (!usesScale (hFmt src) || hScale src == hScale dst) && !ef

/-- Whether R315 allows a pair of sides. -/
def pairOk (src dst : BitVec 2048) (ef : Bool) : Bool :=
  rawPair src dst ef || (convFmt (hFmt src) && convFmt (hFmt dst))

/-- A unit taken from one form into the other (R315): i0 is t0 of its first element; newRow: rows t1 = 0 start with residues of +0.0. -/
def convertUnit (src dst : BitVec 2048) (ef : Bool) (n i0 : Nat) (newRow : Bool) (vs : List Nat) : E (List Nat) :=
  if rawPair src dst ef then return vs
  else do
    let xs ← (← unitVals src vs).mapM (roundE f32)
    let ef := ef && narrows (hFmt src) (hFmt dst)
    let old := (← get).resid
    let es := (List.range n).map fun i => if newRow then 0 else old.getD (i0 + i) 0
    let (ys, es') ← encodeUnit dst ef xs es
    if ef then modify fun r => { r with resid := r.resid.take i0 ++ (List.replicate (i0 - r.resid.length) 0) ++ es' ++ r.resid.drop (i0 + n) }
    return ys

/-! ### GATHER (R298) -/

/-- The handle that stands for DT: a format without a scale. -/
def dtHandle (dt : Nat) : BitVec 2048 := BitVec.ofNat 2048 dt

/-- Read an index (R298): a fault on it stops the program with status 0x0D. (DEDUCED, log entry 38) -/
def readIndex (g : Eng) (va : Nat) : E Nat := fun r =>
  match (engRead g va 4).run r with
  | .ok x => .ok x
  | .error (.park p _ q) => .error (.park p true q)
  | .error (.stop _ a d q) => .error (.stop 0x0D a d q)
  | .error e => .error e

/-- A unit of a GATHER (R298): an element, or a raw Q4X block, of the row that the index array names. -/
def gatherUnit (g : Eng) (c : Copy) (cvt : Bool) (dt ix : Nat) (u : Nat) : E Unit := do
  let row ← readIndex g ((ix + 4 * (u / c.perRow)) % 2 ^ 64)
  let i := c.coords.getD 0 0 + u % c.perRow * c.un
  let idx := [i, row]
  let f := hFmt c.h
  if !insideTensor c.h 2 idx then
    if c.zpad then putTargets c u (List.replicate c.ub 0) else stopE 0x02 (elemVa c.h idx)
  else
    let v ← engRead g (elemVa c.h idx) (memWidth f)
    if cvt then
      let xs ← unitVals c.h [v]
      let x := if f = 11 then xs.getD (idx.getD (hBdim c.h) 0 % 32) (.nan false) else xs.headD (.nan false)
      putTargets c u (leBytes c.ub (← roundE (fmtOf dt) x))
    else putTargets c u (leBytes c.ub v)

/-! ### Stored form (R314) -/

/-- Bytes of a unit of un elements in a format. -/
def unitBytes (h : BitVec 2048) (un : Nat) : Nat := if hFmt h = 11 then 18 else un * tyBytes (hFmt h)

/-- Elements of a value list of a unit: 1 for a Q4X block. -/
def unitCount (h : BitVec 2048) (un : Nat) : Nat := if hFmt h = 11 then 1 else un

/-- The copy of a SAVE or FETCH from its words (R314): its memory side. -/
def sessCopy (fill : Bool) (w : StreamW) (h hs : BitVec 2048) (tgts coords : List Nat) (ph : Nat) : Copy :=
  let nd := (w.w0.extractLsb' 34 2).toNat + 1
  let os := w.w0.getLsbD 51
  let un := if hFmt h = 11 || hFmt hs = 11 then 32 else 1
  { mem := !os, os := os, fill := fill, tgts := if os then tgts else [], h := h, nd := nd, coords := if os then [] else coords.take nd
    ext := (List.range 4).map fun d => if d < nd then (w.w1.extractLsb' (16 * d) 16).toNat else 1
    un := un, ub := unitBytes h un
    dst := (w.w2.extractLsb' 32 26).toNat, sstr := (w.w2.extractLsb' 0 32).toNat
    bar := w.w0.getLsbD 48, ph := ph, boff := (w.w3.extractLsb' 0 26).toNat }

/-- Whether a SAVE's or FETCH's fields keep R314. -/
def sessFieldsOk (fill : Bool) (w : StreamW) (c : Copy) (hs : BitVec 2048) : Bool :=
  let os := w.w0.getLsbD 51
  let q := hFmt c.h == 11 || hFmt hs == 11
  let ef := w.w0.getLsbD 49
  (List.range 4).all (fun d =>
    let e := (w.w1.extractLsb' (16 * d) 16).toNat
    if d < c.nd then e != 0 else e == 0)
  && (!fill || !w.w0.getLsbD 50) && (!c.bar || os)
  && (os || (w.w2 == 0 && w.w0.extractLsb' 32 2 == 0)) && (!os || w.w0.extractLsb' 36 4 == 0)
  && w.w2.extractLsb' 58 6 == 0 && w.w3.extractLsb' 36 28 == 0 && w.w3.extractLsb' 26 6 == 0 && (c.bar || w.w3 == 0)
  && w.w0.extractLsb' 0 11 == 0
  && c.dst % 256 == 0 && c.sstr % 256 == 0 && (c.bar || c.sstr == 0) && c.boff % 32 == 0
  && c.nd ≤ hRank c.h
  && (!q || ((hFmt c.h != 11 || hBdim c.h == 0) && (hFmt hs != 11 || hBdim hs == 0)
      && c.e 0 % 32 == 0 && c.coords.getD 0 0 % 32 == 0))
  && (if fill then pairOk hs c.h ef else pairOk c.h hs ef)

/-- The length of the stored form (R314). -/
def storedLen (c : Copy) (hs : BitVec 2048) : Nat := c.units * unitBytes hs c.un

/-- A namespace entry's block size (R313). -/
def NsEntry.block (e : NsEntry) : Nat := if e.big then 65536 else 4096

/-- The number of NVMe reads or writes of at most 1 MiB (R316). -/
def nvmeCount (e : NsEntry) (len : Nat) : Nat := (roundUp len e.block + 2 ^ 20 - 1) / 2 ^ 20

/-- The blocks of command k (R316). -/
def nvmeBlocks (e : NsEntry) (len k : Nat) : Nat := Nat.min (2 ^ 20 / e.block) (roundUp len e.block / e.block - k * (2 ^ 20 / e.block))

/-- Whether the copy starts a column of residues anew at a unit: t1 = 0 (R315). -/
def Copy.newRow (c : Copy) (u : Nat) : Bool := u / c.perRow % c.e 1 == 0

/-- A unit of a SAVE (R314, R315): read, converted, appended to the stored bytes. -/
def saveUnit (g : Eng) (c : Copy) (hs : BitVec 2048) (ef : Bool) (u : Nat) : E Unit := do
  let vs ← if c.os then (do return bytesVals (memWidth (hFmt c.h)) (unitCount c.h c.un) (← getTarget c u)) else memUnit g c u
  let ys ← convertUnit c.h hs ef c.un (u % c.perRow * c.un) (c.newRow u) vs
  modify fun r => { r with buf := r.buf ++ valBytes (memWidth (hFmt hs)) ys }

/-- A stored byte that has been read: command x div 1 MiB, byte x mod 1 MiB of its data. -/
def storedByte (data : NMap (List Byte)) (x : Nat) : Byte := (mget data (x / 2 ^ 20) []).getD (x % 2 ^ 20) 0

/-- A unit of a FETCH (R314, R315): taken from the stored bytes, converted, written. -/
def fetchUnit (g : Eng) (c : Copy) (hs : BitVec 2048) (ef : Bool) (data : NMap (List Byte)) (u : Nat) : E Unit := do
  let n := unitBytes hs c.un
  let bs := (List.range n).map fun i => storedByte data (u * n + i)
  let vs := bytesVals (memWidth (hFmt hs)) (unitCount hs c.un) bs
  let ys ← convertUnit hs c.h ef c.un (u % c.perRow * c.un) (c.newRow u) vs
  if c.os then putTargets c u (valBytes (memWidth (hFmt c.h)) ys) else putMemUnit g c u ys

/-- The units of a FETCH whose stored bytes have all been read, from the first on (R316). -/
def readyUnits (c : Copy) (hs : BitVec 2048) (data : NMap (List Byte)) (cnt : Nat) : Nat :=
  let k := ((List.range cnt).find? fun k => (mget? data k).isNone).getD cnt
  if k = cnt then c.units else Nat.min c.units (k * 2 ^ 20 / unitBytes hs c.un)

end Sys2Proof.Machine
end

