-- ==== Sys2Proof/Machine/StreamCmd.lean ====
section
/-! DEFINITION. Stream programs (R288 to R302, R314 to R321): command fetch, acceptance, the run of a command, its end, the stop of a program. A program's key is engine × 64 + slot. -/

namespace Sys2Proof.Machine

/-- A program slot. -/
def State.prog (s : State) (n : Nat) : Prog := (mget? s.progs n).getD {}

/-- Write a slot. -/
def State.setProg (s : State) (n : Nat) (p : Prog) : State := { s with progs := mput s.progs n p }

/-- Change a slot that is listed. -/
def State.modProg (s : State) (n : Nat) (f : Prog → Prog) : State := { s with progs := mmod s.progs n f }

/-- Stream register c0 to c15 (R288). -/
def Prog.reg (p : Prog) (i : Nat) : W64 := mget p.c i 0

/-- Write one. -/
def Prog.setReg (p : Prog) (i : Nat) (v : W64) : Prog := { p with c := mset p.c i v 0 }

/-- The ticket of a slot's program (R294). (DEDUCED, log entry 53) -/
def State.ticket (s : State) (n : Nat) : Nat := n / 64 + n % 64 * 16 + (s.prog n).gen.toNat * 2 ^ 16

/-- A program as an agent (R87, R291). -/
def State.progEng (s : State) (n : Nat) : Eng :=
  { ctx := (s.prog n).ctx, die := n / 64 / 2, agent := 2, unitNo := n / 64, who := n % 64 }

/-- A program ends (R299, R318): its slot keeps the status, its flag falls; a stop with TRAPF traps the kicker. (DEDUCED, log entry 42) -/
def State.endProg (s : State) (n : Nat) (code detail : Byte) : State :=
  let p := s.prog n
  if !p.running then s
  else
    let s := s.setProg n { p with
      running := false, waiting := false, halted := false, cancel := false, cur := none, park := none, code := code, detail := detail }
    let s := s.decFlag p.kicker p.flag.toNat p.saved
    if p.trapf && code != 0 then s.holdCause p.kicker { code := 0x0B, faddr := BitVec.ofNat 64 (s.ticket n) } else s

/-- What an engine's work has done of a program: the package, with the status bits set that it has set. -/
def Run.into (r : Run) (n : Nat) : State := r.s.modProg n fun p => { p with sticky := p.sticky ||| r.sticky, waiting := false }

/-- What an engine's work that did not go on leaves (R87, R291): a wait, a parked access, a stop with its denials logged. -/
def progStop (n : Nat) : EStop → State
  | .wait r => (r.into n).modProg n fun p => { p with waiting := true }
  | .park k oi r =>
    let g := r.s.progEng n
    ((r.into n).modProg n fun p => { p with park := some k, onIndex := oi, waiting := true }).raiseFault g.die g.unitNo g.who k
  | .stop c _ d r => ((r.into n).logDenied (r.s.prog n).ctx d).endProg n c 0

/-- Engine work of a program outside its data: the state after it, and whether it has gone on to its end. -/
def State.runProg (s : State) (n : Nat) (m : E Unit) : State × Bool :=
  match runE m { s := s } with
  | .ok (_, r) => (r.into n, true)
  | .error e => (progStop n e, false)

/-- The PC moves past a command's words (R299), which is done. -/
def State.nextCmd (s : State) (n words : Nat) : State :=
  s.modProg n fun p => { p with pc := p.pc + BitVec.ofNat 64 (8 * words), cur := none, waiting := false }

/-! ### Copies of the current command -/

/-- Coordinates of a command (R296): low 32 bits of c(cB + d). -/
def Prog.coords (p : Prog) (cb nd : Nat) : List Nat := (List.range nd).map fun d => ((p.reg (cb + d)).extractLsb' 0 32).toNat

/-- The targets of a command: the one at position N, or those of MASK (R292, R297); a position with no team as 0. -/
def Prog.target (p : Prog) (n : Nat) : List Nat := [p.targets.getD n 0]
def Prog.targetsOf (p : Prog) (m : BitVec 4) : List Nat :=
  ((List.range 4).filter fun i => m.getLsbD i).map fun i => p.targets.getD i 0

/-- cB and ND (R297, R314), NR and E0 (R298), and the phase in c(cP). -/
def wCb (w : StreamW) : Nat := (w.w0.extractLsb' 36 4).toNat
def wNd (w : StreamW) : Nat := (w.w0.extractLsb' 34 2).toNat + 1
def wPhase (p : Prog) (w : StreamW) : Nat := ((p.reg (w.w3.extractLsb' 32 4).toNat).extractLsb' 0 16).toNat

/-- The copy of a GATHER (R298): rows as dimension 1, whose index is checked row by row. -/
def gatherCopy (p : Prog) (w : StreamW) (h : BitVec 2048) : Copy :=
  let cvt := w.w0.getLsbD 50
  let q := hFmt h == 11 && !cvt
  { fill := true, tgts := p.target (w.w1.extractLsb' 58 2).toNat, h := h, nd := 1
    coords := p.coords (w.w0.extractLsb' 32 4).toNat 1
    ext := [(w.w0.extractLsb' 0 16).toNat, (w.w0.extractLsb' 16 16).toNat, 1, 1]
    un := if q then 32 else 1
    ub := if q then 18 else if cvt then (if w.w1.extractLsb' 60 4 = 0 then 4 else 2) else tyBytes (hFmt h)
    pitch := (w.w2.extractLsb' 32 32).toNat, dst := (w.w1.extractLsb' 0 26).toNat, sstr := (w.w2.extractLsb' 0 32).toNat
    bar := w.w0.getLsbD 48, ph := wPhase p w, boff := (w.w3.extractLsb' 0 26).toNat, zpad := w.w0.getLsbD 49 }

/-- The copy that a data command makes; none for another command. -/
def copyOf (p : Prog) (op : StreamOp) (w : StreamW) (h hs : BitVec 2048) : Option Copy :=
  let co := p.coords (wCb w) (wNd w)
  let ph := wPhase p w
  let tg := p.target (w.w0.extractLsb' 32 2).toNat
  match op with
  | .tile => some (tileCopy true false w h tg co ph)
  | .mcast => some (tileCopy true true w h (p.targetsOf (w.w0.extractLsb' 28 4)) co ph)
  | .storeTile => some (tileCopy false false w h tg co ph)
  | .gather => some (gatherCopy p w h)
  | .save => some (sessCopy false w h hs tg co ph)
  | .fetch => some (sessCopy true w h hs tg co ph)
  | _ => none

/-- Whether the fields of a data command keep its rules (R296 to R298, R314): status 0x01 otherwise. -/
def dataFieldsOk (p : Prog) (op : StreamOp) (w : StreamW) (c : Copy) (hs : BitVec 2048) : Bool :=
  let w3ok := w.w3.extractLsb' 36 28 == 0 && w.w3.extractLsb' 26 6 == 0 && (w.w0.getLsbD 48 || w.w3 == 0)
  match op with
  | .gather =>
    let cvt := w.w0.getLsbD 50
    let dt := w.w1.extractLsb' 60 4
    let f := hFmt c.h
    w3ok && w.w1.extractLsb' 26 32 == 0 && c.e 0 != 0 && c.e 1 != 0 && 2 ≤ hRank c.h
    && (if cvt then dt.toNat ≤ 2 && convFmt f else dt == 0)
    && c.dst % 256 == 0 && c.sstr % 256 == 0 && (c.bar || c.sstr == 0) && c.boff % 32 == 0
    && (c.pitch == 0 || c.rowb ≤ c.pitch)
    && (f != 11 || cvt || (hBdim c.h == 0 && c.e 0 % 32 == 0 && c.coords.getD 0 0 % 32 == 0))
    && (p.reg (w.w0.extractLsb' 36 4).toNat).toNat % 4 == 0
  | .save => wCb w + wNd w ≤ 16 && sessFieldsOk false w c hs
  | .fetch => wCb w + wNd w ≤ 16 && sessFieldsOk true w c hs
  | _ =>
    w3ok && wCb w + wNd w ≤ 16 && c.fieldsOk w.w1
    && (if op = .mcast then w.w0.extractLsb' 28 4 != 0 && w.w0.extractLsb' 32 2 == 0 else w.w0.extractLsb' 28 4 == 0)

/-- The namespace entry of a SAVE or FETCH, when the program's context may use it (R313, R380): blocks past its capacity give status 0x0A. (DEDUCED, log entry 38) -/
def State.nsCheck (s : State) (ctx : Nat) (fill : Bool) (w : StreamW) (slba : Nat) (len : Nat) : Except Byte NsEntry :=
  let n := (w.w0.extractLsb' 11 9).toNat
  match mget? s.ns n with
  | none => .error 0x0A
  | some e =>
    if !(s.accEntry 2 n ctx).getLsbD (if fill then 0 else 1) then .error 0x04
    else if e.cap * e.block < slba * e.block + roundUp len e.block then .error 0x0A
    else .ok e

/-- The first block of a SAVE or FETCH: c(cL). -/
def wSlba (p : Prog) (w : StreamW) : Nat := (p.reg (w.w0.extractLsb' 20 4).toNat).toNat

/-- Acceptance of a data command (R290, R296): its handles are taken and its fields checked; the code of a stop otherwise. -/
def State.acceptData (s : State) (n : Nat) (op : StreamOp) (w : StreamW) : Except Byte StreamCur :=
  let p := s.prog n
  let sess := op == .save || op == .fetch
  match s.handle p.ctx (w.w0.extractLsb' 40 8).toNat, s.handle p.ctx (w.w0.extractLsb' 24 8).toNat with
  | none, _ => .error 0x02
  | some h, hs? =>
    if sess && hs?.isNone then .error 0x02
    else
      let hs := if sess then hs?.getD 0 else 0
      match copyOf p op w h hs with
      | none => .error 0x01
      | some c =>
        if !dataFieldsOk p op w c hs then .error 0x01
        else
          match s.checkCopy c with
          | .error e => .error e
          | .ok () =>
            let cur : StreamCur := { op := op, w := w, h := h, hs := hs }
            if sess then
              match s.nsCheck p.ctx (op == .fetch) w (wSlba p w) (storedLen c hs) with
              | .error e => .error e
              | .ok _ => .ok cur
            else .ok cur

/-- Poisoned words among bytes i to i + k - 1 of the barriers that a program's copy reads set its POIS (R261, R295). -/
def State.barNote (s : State) (n : Nat) (cp : Copy) (i k : Nat) : State :=
  if s.copyPois cp i k then s.modProg n fun p => { p with sticky := p.sticky ||| stPOIS } else s

/-- A poisoned word of the barrier that acceptance reads, whether the phase to be filled is complete already (R306), sets POIS (R261). -/
def State.acceptNote (s : State) (n : Nat) (op : StreamOp) (w : StreamW) : State :=
  let p := s.prog n
  match s.handle p.ctx (w.w0.extractLsb' 40 8).toNat, s.handle p.ctx (w.w0.extractLsb' 24 8).toNat with
  | some h, hs? =>
    match copyOf p op w h (hs?.getD 0) with
    | some c => if c.fill then s.barNote n c 8 4 else s
    | none => s
  | none, _ => s

/-- The denial of a namespace access is logged (R381). -/
def State.denyNs (s : State) (n : Nat) (op : StreamOp) (w : StreamW) (code : Byte) : State :=
  if code = 0x04 && (op == .save || op == .fetch) then
    s.deny 2 (w.w0.extractLsb' 11 9).toNat (s.prog n).ctx (if op = .fetch then 0 else 1) (wSlba (s.prog n) w)
  else s

/-! ### The steps of a data command -/

/-- The copy of the current command. -/
def State.curCopy (s : State) (n : Nat) (c : StreamCur) : Option Copy := copyOf (s.prog n) c.op c.w c.h c.hs

/-- Change the current command. -/
def State.modCur (s : State) (n : Nat) (f : StreamCur → StreamCur) : State :=
  s.modProg n fun p => { p with cur := p.cur.map f }

/-- The end of a program's copy at its barriers: the words that its credit or release reads, then the credit or release. -/
def State.endBarriers (s : State) (n : Nat) (cp : Copy) : State :=
  (if cp.fill then s.barNote n cp 0 12 else s.barNote n cp 8 4).copyBarriers cp

/-- The wait of a data command before it begins (R306): for its window or phase. Its acquire has nothing to drop: an engine reads at the home slices (R102). -/
def State.gateStep (s : State) (n : Nat) (c : StreamCur) (cp : Copy) : State :=
  if c.begun then s
  else
  let s := s.barNote n cp 8 8
  if s.copyOpen cp then (s.modCur n fun c => { c with begun := true }).modProg n fun p => { p with waiting := false }
  else s.modProg n fun p => { p with waiting := true }

/-- The work on one unit of a command. -/
def unitWork (p : Prog) (g : Eng) (c : StreamCur) (cp : Copy) : Nat → E Unit :=
  let ef := c.w.w0.getLsbD 49
  match c.op with
  | .gather => gatherUnit g cp (c.w.w0.getLsbD 50) (c.w.w1.extractLsb' 60 4).toNat (p.reg (c.w.w0.extractLsb' 36 4).toNat).toNat
  | .save => saveUnit g cp c.hs ef
  | .fetch => fetchUnit g cp c.hs ef c.data
  | _ => tileUnit g cp

/-- The units that can be copied now: of a FETCH, those whose blocks have been read. -/
def State.unitsReady (s : State) (c : StreamCur) (cp : Copy) : Nat :=
  if c.op = .fetch then
    match mget? s.ns (c.w.w0.extractLsb' 11 9).toNat with
    | some e => readyUnits cp c.hs c.data (nvmeCount e (storedLen cp c.hs))
    | none => cp.units
  else cp.units

/-- The units of a chunk of a data command (R289). -/
def chunkOf (c : StreamCur) (cp : Copy) : Nat := chunkUnits (if c.op = .save then unitBytes c.hs cp.un else cp.destBytes)

/-- What has been done of the units of a program's current command c. -/
def Run.moved (r : Run) (n : Nat) (c : StreamCur) : Run :=
  { r with s := r.s.modProg n fun p => { p with cur := some { c with pos := c.pos + r.done, resid := r.resid, buf := r.buf } } }

/-- Copy at most k more units of the current command (R289, R320). -/
def State.moveStep (s : State) (n k : Nat) : State :=
  let p := s.prog n
  match p.cur with
  | none => s
  | some c =>
    match s.curCopy n c with
    | none => s
    | some cp =>
      let m := Nat.min k (s.unitsReady c cp - c.pos)
      if !c.begun || m = 0 || p.park.isSome then s
      else
        match runE (unitsFrom (unitWork p (s.progEng n) c cp) m c.pos) { s := s, resid := c.resid, buf := c.buf } with
        | .ok (_, r) => (r.moved n c).into n
        | .error e => progStop n (e.map fun r => r.moved n c)

/-- The NVMe commands of a program under way (R316). -/
def State.nvmeOf (s : State) (n : Nat) : List NvmeReq := s.nvme.filter fun r => r.prog == n && r.gen == (s.prog n).gen

/-- The 32-byte request of host-assisted mode as four words (R316). (DESIGN CHOICE, log entry 11) -/
def State.nvmeWords (s : State) (r : NvmeReq) : List W64 :=
  [BitVec.ofNat 64 (s.ticket r.prog + (s.prog r.prog).ctx * 2 ^ 32 + r.ns * 2 ^ 48), BitVec.ofNat 64 r.slba,
   BitVec.ofNat 64 (r.nlb + r.op * 2 ^ 32), Config.stagingBuf r.prog r.n]

/-- Submit one NVMe command (R316): to the drive, or to the host's service queue. -/
def State.submitNvme (s : State) (r : NvmeReq) : State :=
  if s.mode.getLsbD 2 then
    let q := s.svcNext
    ({ s with nvme := s.nvme ++ [{ r with seq := some q }] } : State).postService { ty := 2, body := s.nvmeWords r, seq := 0 }
  else { s with nvme := s.nvme ++ [r] }

/-- The next NVMe command of a SAVE or FETCH that can be submitted (R316): in block order, at most 64 outstanding. (DEDUCED, log entry 38) -/
def State.nextNvme (s : State) (n : Nat) : Option NvmeReq :=
  let p := s.prog n
  match p.cur with
  | none => none
  | some c =>
    match s.curCopy n c, mget? s.ns (c.w.w0.extractLsb' 11 9).toNat with
    | some cp, some e =>
      let len := storedLen cp c.hs
      let cnt := nvmeCount e len
      let k := c.subm
      let r : NvmeReq :=
        { prog := n, gen := p.gen, n := k, op := 2, ns := (c.w.w0.extractLsb' 11 9).toNat
          slba := wSlba p c.w + k * (2 ^ 20 / e.block), nlb := nvmeBlocks e len k }
      if !c.begun || 64 ≤ (s.nvmeOf n).length then none
      else if c.op = .fetch then (if k < cnt then some r else none)
      else if c.op = .save then
        if k < cnt then
          (if 2 ^ 20 ≤ c.buf.length || c.pos = cp.units then
            let bs := c.buf.take (2 ^ 20)
            some { r with op := 1, data := bs ++ List.replicate (r.nlb * e.block - bs.length) 0 }
          else none)
        else if k = cnt && c.w.w0.getLsbD 50 && c.fin = cnt then some { r with op := 0, slba := 0, nlb := 0 }
        else none
      else none
    | _, _ => none

/-- Submit NVMe commands while some can be (R316), at most k. -/
def State.submitStep (s : State) (n : Nat) : Nat → State
  | 0 => s
  | k + 1 =>
    match s.nextNvme n with
    | none => s
    | some r =>
      let s := (s.submitNvme r).modCur n fun c => { c with subm := c.subm + 1, buf := if r.op = 1 then c.buf.drop (2 ^ 20) else c.buf }
      s.submitStep n k

/-- Whether the work of the current data command is done: every unit copied, every NVMe command completed (R290, R316). -/
def State.dataDone (s : State) (n : Nat) (c : StreamCur) (cp : Copy) : Bool :=
  c.begun && c.pos == cp.units
  && (if c.op = .save || c.op = .fetch then
        match mget? s.ns (c.w.w0.extractLsb' 11 9).toNat with
        | some e =>
          let cnt := nvmeCount e (storedLen cp c.hs) + (if c.op = .save && c.w.w0.getLsbD 50 then 1 else 0)
          c.fin == cnt && (s.nvmeOf n) == []
        | none => true
      else true)

/-- The current data command completes (R290, R297): release, credits or the release of its phase, the next command; an MCAST that has lost a target stops. (DEDUCED, log entry 38) -/
def State.doneStep (s : State) (n : Nat) (c : StreamCur) (cp : Copy) : State :=
  if !s.dataDone n c cp then s.modProg n fun p => { p with waiting := decide (s.unitsReady c cp ≤ c.pos) }
  else
    let s := s.engRelease (c.w.w0.getLsbD 56) (c.w.w0.extractLsb' 53 3).toNat
    let s := s.endBarriers n cp
    if cp.mc && cp.tgts.any fun t => (s.target t).isNone then s.endProg n 0x03 0
    else s.nextCmd n c.op.words

/-- The current data command goes on by a chunk (R289), and completes when its work is done. -/
def State.runData (s : State) (n : Nat) : State :=
  match (s.prog n).cur with
  | none => s
  | some c =>
    match s.curCopy n c with
    | none => s
    | some cp =>
      let s := s.gateStep n c cp
      let s := s.moveStep n (chunkOf c cp)
      let s := s.submitStep n 64
      match (s.prog n).cur with
      | none => s
      | some c => if c.begun && (s.prog n).park.isNone && (s.prog n).running then s.doneStep n c cp else s

/-! ### Register and control commands -/

/-- A signed number of command words from an offset field (R299). -/
def branchTo (pc : W64) (w : StreamW) : W64 := pc + (w.w0.extractLsb' 0 32).signExtend 64 * 8

/-- SET (R299). -/
def cmdSet (w : StreamW) (p : Prog) : Prog :=
  { p.setReg (w.w0.extractLsb' 0 4).toNat w.w1 with pc := p.pc + 16 }

/-- ADDC (R299). -/
def cmdAddc (w : StreamW) (p : Prog) : Prog :=
  { p.setReg (w.w0.extractLsb' 44 4).toNat (p.reg (w.w0.extractLsb' 40 4).toNat + (w.w0.extractLsb' 0 32).signExtend 64) with pc := p.pc + 8 }

/-- LOOP (R299). -/
def cmdLoop (w : StreamW) (p : Prog) : Prog :=
  let r := (w.w0.extractLsb' 44 4).toNat
  let v := p.reg r - 1
  { p.setReg r v with pc := if v = 0 then p.pc + 8 else branchTo p.pc w }

/-- JMP (R299). -/
def cmdJmp (w : StreamW) (p : Prog) : Prog := { p with pc := branchTo p.pc w }

/-- NOTIFY op 0 (R300). -/
def notifyPut (g : Eng) (a v : W64) : E Unit := do
  if a.toNat % 8 != 0 then stopE 0x01
  engWrite g a.toNat (leBytes 8 v.toNat)

/-- NOTIFY op 1 (R102, R300): an atomic addition at the home slice. -/
def notifyAddE (g : Eng) (a v : W64) : E Unit := do
  if a.toNat % 8 != 0 then stopE 0x01
  let (pa, pol) ← engPlace g a.toNat 2
  let s ← stE
  if pol = polREPL && decide (256 ≤ s.updates.length) then waitE
  let (s', _, pois) := s.sliceAtomic fadd32 (pa / 128) 0 8 (pol == polREPL) [{ off := pa % 128, val := v, cmp := 0 }]
  modify fun q => { q with s := s' }
  if pois then noteE stPOIS

/-- NOTIFY op 2 (R300, R306). -/
def notifyCreditE (tk boff bytes : Nat) : E Unit := do
  let t ← targetE tk
  let s ← stE
  let (b, len) := s.teamO t
  if boff % 32 != 0 || decide (len < boff + 32) || !s.hasBarrier t.core (b + boff) then stopE 0x09 boff
  if s.osPois t.core (b + boff) 12 then noteE stPOIS
  modify fun q => { q with s := (s.abCredit t.core (b + boff) bytes).reimage t.core }

/-- WAITV's test (R301): cond 0 EQ, 1 NE, 2 GEN, 3 LTN. -/
def waitTest (cond : Nat) (x v : W64) : Bool :=
  match cond with
  | 0 => x == v
  | 1 => x != v
  | 2 => decide (v.toNat ≤ x.toNat)
  | _ => decide (x.toNat < v.toNat)

/-- WAITV (R301): one read. -/
def waitvE (g : Eng) (a v : W64) (cond : Nat) : E Unit := do
  if a.toNat % 8 != 0 then stopE 0x01
  let x ← engRead g a.toNat 8
  if !waitTest cond (BitVec.ofNat 64 x) v then waitE

/-- A NOTIFY, WAITV or FENCE with its release (R300 to R302). -/
def State.simpleCmd (s : State) (n : Nat) (op : StreamOp) (w : StreamW) (m : E Unit) : State :=
  let (s, ok) := s.runProg n m
  if ok then (s.engRelease (w.w0.getLsbD 56) (w.w0.extractLsb' 53 3).toNat).nextCmd n op.words else s

/-- The effect of a command that copies nothing, of the program that acts. -/
def State.runSimple (s : State) (n : Nat) (op : StreamOp) (w : StreamW) : State :=
  let p := s.prog n
  let g := s.progEng n
  let ca := p.reg (w.w0.extractLsb' 44 4).toNat
  let cv := p.reg (w.w0.extractLsb' 40 4).toNat
  match op with
  | .setReg => s.modProg n fun p => { cmdSet w p with cur := none, waiting := false }
  | .addc => s.modProg n fun p => { cmdAddc w p with cur := none, waiting := false }
  | .streamLoop => s.modProg n fun p => { cmdLoop w p with cur := none, waiting := false }
  | .jmp => s.modProg n fun p => { cmdJmp w p with cur := none, waiting := false }
  | .streamEnd => s.endProg n 0 0
  | .notifyStore => s.simpleCmd n op w (notifyPut g ca cv)
  | .notifyAdd => s.simpleCmd n op w (notifyAddE g ca cv)
  | .notifyCredit => s.simpleCmd n op w (notifyCreditE (p.targets.getD (w.w1.extractLsb' 26 2).toNat 0) (w.w1.extractLsb' 0 26).toNat (cv.extractLsb' 0 32).toNat)
  | .waitv => s.simpleCmd n op w (waitvE g ca w.w1 (w.w0.extractLsb' 40 4).toNat)
  | .streamFence => s.simpleCmd n op w (pure ())
  | _ => s

/-- Whether a command copies data. -/
def isData : StreamOp → Bool
  | .tile => true
  | .mcast => true
  | .storeTile => true
  | .gather => true
  | .save => true
  | .fetch => true
  | _ => false

/-! ### A program moves -/

/-- Take a command at the program's PC (R290): a program that is to be cancelled stops here (R294). -/
def State.acceptCmd (s : State) (n : Nat) (op : StreamOp) (w : StreamW) : State :=
  if (s.prog n).cancel then s.endProg n 0x08 0
  else
    let s := s.modProg n fun p => { p with cmd := op.code, cmdPc := p.pc }
    if isData op then
      let s := s.acceptNote n op w
      match s.acceptData n op w with
      | .error e => (s.denyNs n op w e).endProg n e 0
      | .ok c => s.modProg n fun p => { p with cur := some c }
    else s.modProg n fun p => { p with cur := some { op := op, w := w } }

/-- Whether a program can move: it runs, is not halted and has no access parked (R87, R320). -/
def Prog.moves (p : Prog) : Bool := p.running && !p.halted && p.park.isNone

/-- The current command goes as far as it can; one that has only waited so far is a boundary at which a cancelled program stops (R294). -/
def State.runCmd (s : State) (n : Nat) : State :=
  let p := s.prog n
  match p.cur with
  | none => s
  | some c =>
    if p.cancel && !c.begun then s.endProg n 0x08 0
    else if isData c.op then s.runData n
    else s.runSimple n c.op c.w

/-- A stream command of the acting program: it is accepted when no command is current, and goes as far as it can. (DESIGN CHOICE, log entry 54) -/
def stream (op : StreamOp) (w : StreamW) (s : State) : Out :=
  let n := s.curProg
  if !(s.prog n).running then .refused .noProgram
  else if !(s.prog n).moves then .next s
  else if (s.prog n).cur.isSome then .next (s.runCmd n)
  else .next ((s.acceptCmd n op w).runCmd n)

/-- TILE (R297). -/
def execTile (w : StreamW) (s : State) : Out := stream .tile w s
/-- MCAST (R297). -/
def execMcast (w : StreamW) (s : State) : Out := stream .mcast w s
/-- STORE (R297). -/
def execStoreTile (w : StreamW) (s : State) : Out := stream .storeTile w s
/-- GATHER (R298). -/
def execGather (w : StreamW) (s : State) : Out := stream .gather w s
/-- SET (R299). -/
def execSetReg (w : StreamW) (s : State) : Out := stream .setReg w s
/-- ADDC (R299). -/
def execAddc (w : StreamW) (s : State) : Out := stream .addc w s
/-- LOOP (R299). -/
def execStreamLoop (w : StreamW) (s : State) : Out := stream .streamLoop w s
/-- JMP (R299). -/
def execJmp (w : StreamW) (s : State) : Out := stream .jmp w s
/-- NOTIFY op 0 (R300). -/
def execNotifyStore (w : StreamW) (s : State) : Out := stream .notifyStore w s
/-- NOTIFY op 1 (R300). -/
def execNotifyAdd (w : StreamW) (s : State) : Out := stream .notifyAdd w s
/-- NOTIFY op 2 (R300). -/
def execNotifyCredit (w : StreamW) (s : State) : Out := stream .notifyCredit w s
/-- WAITV (R301). -/
def execWaitv (w : StreamW) (s : State) : Out := stream .waitv w s
/-- SAVE (R314). -/
def execSave (w : StreamW) (s : State) : Out := stream .save w s
/-- FETCH (R314). -/
def execFetch (w : StreamW) (s : State) : Out := stream .fetch w s
/-- FENCE (R302). -/
def execStreamFence (w : StreamW) (s : State) : Out := stream .streamFence w s
/-- END (R299). -/
def execStreamEnd (w : StreamW) (s : State) : Out := stream .streamEnd w s

/-! ### Command fetch and the events of a program -/

/-- The words at a program's PC (R61, R291). -/
def fetchCmd (g : Eng) (pc : Nat) : E (List W64) := do
  let w0 ← engRead g pc 8
  let n := streamLength (BitVec.ofNat 64 w0)
  let ws ← (List.range (n - 1)).mapM fun i => engRead g ((pc + 8 * (i + 1)) % 2 ^ 64) 8
  return (w0 :: ws).map fun x => BitVec.ofNat 64 x

/-- What a program's next command is: one to run, or the state that its fetch leaves (R62, R290). -/
inductive NextCmd where
  | cmd (i : Instr) (s : State)
  | done (s : State)

/-- Fetch the next command of a program, or take up its current one. -/
def State.nextStream (s : State) (n : Nat) : NextCmd :=
  let p := s.prog n
  if !p.moves then .done s
  else
    match p.cur with
    | some c => .cmd (c.op.instr c.w) s
    | none =>
      if p.cancel then .done (s.endProg n 0x08 0)
      else
        let s := s.modProg n fun p => { p with cmdPc := p.pc, cmd := 0 }
        match runE (fetchCmd (s.progEng n) p.pc.toNat) { s := s } with
        | .error e => .done (progStop n e)
        | .ok (ws, r) =>
          let s := (r.into n).modProg n fun p => { p with cmd := (ws.headD 0).extractLsb' 58 6 }
          match decodeStream ws with
          | .error _ => .done (s.endProg n 0x01 0)
          | .ok i => .cmd i s

/-- STREAM_COMMAND_START (R290): program ev.who takes its next command and checks it. -/
def execStreamCommandStart (s : State) : Out :=
  let n := s.ev.who
  if (s.prog n).cur.isSome then .next s
  else
    match s.nextStream n with
    | .done s => .next s
    | .cmd i s =>
      match i.streamOp? with
      | some (op, w) => .next (s.acceptCmd n op w)
      | none => .next s

/-- STREAM_CHUNK (R289, R301): program ev.who's current command works on one chunk of at most 64 KiB; a command that copies nothing has its effect. (DEDUCED, log entry 56) -/
def execStreamChunk (s : State) : Out :=
  let n := s.ev.who
  let p := s.prog n
  match p.cur with
  | none => .next s
  | some c =>
    if !p.moves then .next s
    else
      match s.curCopy n c with
      | none => .next (s.runCmd n)
      | some cp =>
        let s := s.gateStep n c cp
        .next ((s.moveStep n (chunkOf c cp)).submitStep n 64)

/-- STREAM_COMMAND_COMPLETE (R290): program ev.who's current command, its work done, completes. -/
def execStreamCommandComplete (s : State) : Out :=
  let n := s.ev.who
  let p := s.prog n
  match p.cur with
  | none => .next s
  | some c =>
    match s.curCopy n c with
    | none => .next s
    | some cp => if p.moves && s.dataDone n c cp then .next (s.doneStep n c cp) else .next s

/-- PROGRAM_STOP (R294, R318): program ev.who, which is to be cancelled, stops at its command boundary with status 0x08. -/
def execProgramStop (s : State) : Out :=
  let n := s.ev.who
  let p := s.prog n
  let atBoundary := match p.cur with
    | none => true
    | some c => !c.begun
  if p.running && p.cancel && atBoundary then .next (s.endProg n 0x08 0) else .next s

/-- WAITV_REREAD (R301): the WAITV of program ev.who reads its word again. -/
def execWaitvReread (s : State) : Out :=
  let n := s.ev.who
  let p := s.prog n
  match p.cur with
  | none => .next s
  | some c => if p.moves && c.op = .waitv then .next (s.runCmd n) else .next s

/-- The result of an NVMe command arrives (R316, R320): a FETCH's data go to their destination, also while the program is halted. (DEDUCED, log entry 38) -/
def State.nvmeDone (s : State) (i : Nat) (status : Nat) (bs : List Byte) : State :=
  match s.nvme[i]? with
  | none => s
  | some r =>
    let p := s.prog r.prog
    let s := { s with nvme := dropAt s.nvme i }
    let bs := if bs = [] then r.buf else bs
    if !p.running || p.gen != r.gen then s
    else if status != 0 then s.endProg r.prog 0x0C (BitVec.ofNat 8 status)
    else
      let s := s.modCur r.prog fun c =>
        { c with fin := c.fin + 1, data := if r.op = 2 then mput c.data r.n bs else c.data }
      match (s.prog r.prog).cur with
      | none => s
      | some c =>
        match s.curCopy r.prog c with
        | none => s
        | some cp => if c.op = .fetch && p.halted then s.moveStep r.prog cp.units else s

/-- The drive, or the host for it, has written data of the NVMe Read at place i of those under way into the staging buffer (R316). (DESIGN CHOICE, log entry 11) -/
def State.stage (s : State) (i : Nat) (bs : List Byte) : State :=
  match s.nvme[i]? with
  | none => s
  | some r => { s with nvme := setAt s.nvme i { r with buf := bs } }

/-- NVME_COMPLETION (R316): the NVMe command at place ev.idx of those under way completes with status ev.val and, a Read, with data ev.bytes. -/
def execNvmeCompletion (s : State) : Out := .next (s.nvmeDone s.ev.idx s.ev.val s.ev.bytes)

end Sys2Proof.Machine
end

