-- ==== Sys2Proof/Machine/Launch.lean ====
section
/-! DEFINITION. The launch unit (R202 to R218): work queues, launch records and their checks, predecessors, placement, gang start, retirement, completion records. A launch's number is its place in the submission order; a team's number is that × 2^32 + TEAMID. -/

namespace Sys2Proof.Machine

/-- n bytes of a byte list from an offset, as a number. -/
def fld (bs : List Byte) (o n : Nat) : Nat := leValue ((bs.drop o).take n)

/-! ### Work queues (R202, R203, R205) -/

/-- A queue's descriptor. -/
def State.queue (s : State) (q : Nat) : Queue := (mget? s.queues q).getD {}

/-- Write it. -/
def State.setQueue (s : State) (q : Nat) (d : Queue) : State := { s with queues := mput s.queues q d }

/-- Whether launches that a queue submitted have not all ended, their completion records written (R205). -/
def State.draining (s : State) (q : Nat) : Bool := s.launches.any fun l => l.2.queue == q && !l.2.written

/-- Disable a queue (R205): records not yet read are forgotten. -/
def State.disableQueue (s : State) (q : Nat) : State :=
  let d := s.queue q
  s.setQueue q { d with en := false, drain := s.draining q, park := none }

/-- Enable a queue (R205): HEAD, TAIL, sequence numbers and completions start anew. -/
def State.enableQueue (s : State) (q : Nat) : State :=
  let s := s.setQueue q { s.queue q with en := true, head := 0, tail := 0, readCount := 0, written := 0 }
  { s with completions := s.completions.filter fun p => p.1 / 2 ^ 48 != q }

/-- Whether a descriptor's ring sizes allow EN = 1 (R202). -/
def ringsOk (ringlog cqlog : Nat) : Bool := 4 ≤ ringlog && ringlog ≤ 15 && 4 ≤ cqlog && cqlog ≤ 15

/-- The descriptor of a queue as 256 bits (R202). -/
def Queue.word (d : Queue) : Nat :=
  d.head.toNat * 2 ^ 224 + d.tail.toNat * 2 ^ 192 + d.cring.toNat / 256 * 2 ^ 136 + (if d.drain then 2 ^ 120 else 0)
  + d.cqlog * 2 ^ 116 + d.ringlog * 2 ^ 112 + d.ctx * 2 ^ 102 + (if d.err then 2 ^ 65 else 0) + (if d.en then 2 ^ 64 else 0)
  + d.lring.toNat / 256 * 256

/-- A write of a queue descriptor (R202, R205): whole while EN = DRAIN = 0; otherwise only a clearing of EN or a write of 1 to ERR; refused, it changes nothing. -/
def State.writeQueue (s : State) (q v : Nat) : State :=
  let d := s.queue q
  let b := fun (o n : Nat) => v / 2 ^ o % 2 ^ n
  let new : Queue := { d with
    lring := BitVec.ofNat 64 (b 8 56 * 256), cring := BitVec.ofNat 64 (b 136 56 * 256)
    ringlog := b 112 4, cqlog := b 116 4, ctx := b 102 10, err := d.err && b 65 1 == 0 }
  let en := b 64 1 == 1
  let reserved := b 0 8 != 0 || b 66 36 != 0 || b 121 15 != 0
  let same := new.lring == d.lring && new.cring == d.cring && new.ringlog == d.ringlog && new.cqlog == d.cqlog && new.ctx == d.ctx
  if 32768 ≤ q || reserved then s
  else if !d.en && !d.drain then
    if en then (if ringsOk new.ringlog new.cqlog then (s.setQueue q new).enableQueue q else s) else s.setQueue q new
  else if same && d.en && !en && (d.err || b 65 1 == 0) then (s.setQueue q { d with err := new.err }).disableQueue q
  else if same && b 65 1 == 1 && en == d.en then s.setQueue q new
  else s

/-- A write of the descriptor of queue ev.who: Ultik's own (ev.flag), or the host's, which needs W on the management space (R202, R373, R380). -/
def State.descWrite (s : State) (f : State → State) : State := if s.ev.flag then f s else s.hostWrite (0x200000 + 32 * s.ev.who) f

/-- QUEUE_DESCRIPTOR_WRITE (R202): descriptor ev.who is written with the value ev.val. -/
def execQueueDescriptorWrite (s : State) : Out := .next (s.descWrite fun s => s.writeQueue s.ev.who s.ev.val)

/-- QUEUE_DISABLE (R205): EN of queue ev.who is cleared. -/
def execQueueDisable (s : State) : Out :=
  .next (s.descWrite fun s => if (s.queue s.ev.who).en then s.disableQueue s.ev.who else s)

/-- QUEUE_ENABLE (R205): EN of queue ev.who is set. -/
def execQueueEnable (s : State) : Out :=
  let d := s.queue s.ev.who
  .next (s.descWrite fun s =>
    if !d.en && !d.drain && decide (s.ev.who < 32768) && ringsOk d.ringlog d.cqlog then s.enableQueue s.ev.who else s)

/-- ERR_CLEAR (R203): software writes 1 to ERR of queue ev.who. -/
def execErrClear (s : State) : Out :=
  .next (s.descWrite fun s =>
    if (s.queue s.ev.who).err then s.setQueue s.ev.who { s.queue s.ev.who with err := false } else s)

/-- DOORBELL (R203, R371, R373): a write of the host, of ev.size bytes with value ev.val, to the doorbell of queue ev.who, which the access table does not check; one that is not of 4 bytes is discarded and logged. -/
def execDoorbell (s : State) : Out :=
  .next (if !s.linkUp then s
    else if s.ev.size = 4 then s.doorbell s.ev.who (BitVec.ofNat 32 s.ev.val)
    else s.deny 4 0 0x400 1 (0x100000 + 4 * s.ev.who))

/-! ### Accesses through the Basin walker (R86, R202) -/

/-- What a ring or team-block access gives. -/
inductive RingRes where
  | ok (s : State) (pa : Nat)
  | park (p : Park)
  | denied (s : State)
  | wait

/-- Translate an access of the launch unit for a context: at most 256 bytes that do not cross a page. One to host memory waits while the host link is down. (DEDUCED, log entry 43) -/
def State.ringPlace (s : State) (ctx va kind : Nat) : RingRes :=
  match s.xlate 8 ctx va (needOf kind) .any with
  | .error x => .park (parkOf ctx va 6 kind x)
  | .ok r => if r.s.allowed ctx r.pa (needOf kind) then (if inHostWin r.pa && !s.cacheUp then .wait else .ok r.s r.pa) else .denied (r.s.denyPa ctx r.pa kind)

/-! ### The launch record and the team block (R206 to R208, R212, R213) -/

/-- Extents, the number of teams, TPCS of a record. -/
def recX (bs : List Byte) : Nat := fld bs 0x10 4
def recY (bs : List Byte) : Nat := fld bs 0x14 4
def recZ (bs : List Byte) : Nat := fld bs 0x18 4
def recTeams (bs : List Byte) : Nat := recX bs * recY bs * recZ bs
def recTpcs (bs : List Byte) : Nat := fld bs 0 8 / 2 ^ 4 % 8
def recNpred (bs : List Byte) : Nat := fld bs 0 8 / 2 ^ 32 % 8
def recCores (bs : List Byte) : Bool := (fld bs 0 8).testBit 8
def recDepfail (bs : List Byte) : Bool := (fld bs 0 8).testBit 9
def recIrq (bs : List Byte) : Bool := (fld bs 0 8).testBit 10
def recPrio (bs : List Byte) : Nat := fld bs 0 8 % 8
def recDies (bs : List Byte) : Byte := BitVec.ofNat 8 (fld bs 0 8 / 2 ^ 40)
def recEvt (bs : List Byte) : Nat := let e := fld bs 0 8 / 2 ^ 48 % 2 ^ 16; if e = 0 then 50 else e
def recTseg (bs : List Byte) : Nat := fld bs 0x28 8

/-- A segment descriptor of a record. -/
def recSeg (bs : List Byte) (o : Nat) : Seg := { base := BitVec.ofNat 64 (fld bs o 8), len := BitVec.ofNat 64 (fld bs (o + 8) 8) }

/-- Parse a team block (R212), none where it is invalid (R213): ks and kl are the segments' lengths. -/
def parseBlk (bs : List Byte) (ks kl : Nat) : Option TeamBlk :=
  let n := fld bs 0 1
  let idx := List.range 8
  let role (r : Nat) : Role :=
    { entry := BitVec.ofNat 32 (fld bs (0x40 + 16 * r) 4), lane := BitVec.ofNat 32 (fld bs (0x44 + 16 * r) 4)
      budget := fld bs (0x48 + 16 * r) 2, count := fld bs (0x4A + 16 * r) 2 }
  let roles := (List.range n).map role
  let total := roles.foldl (fun a r => a + r.count) 0
  let masks := (List.range 20).map fun i => fld bs (8 + i) 1
  let w := fld bs 4 4
  if 1 ≤ n && n ≤ 8 && fld bs 1 3 == 0 && fld bs 0x1C 36 == 0 && fld bs 0xC0 64 == 0
    && idx.all (fun r => if r < n then fld bs (0x4C + 16 * r) 4 == 0 else fld bs (0x40 + 16 * r) 16 == 0)
    && roles.all (fun r => r.count != 0 && 16 ≤ r.budget && r.budget ≤ 960 && r.budget % 16 == 0
        && r.entry.toNat % 4 == 0 && decide (r.entry.toNat < ks) && decide (r.lane.toNat * 12 < kl))
    && total ≤ 256 && masks.all (fun m => decide (m < 2 ^ n))
    && w % 256 == 0 && w ≤ 4 * 2 ^ 20
  then some { roles := roles, window := w, tbar := (masks.take 16).map (BitVec.ofNat 8 ·), cbar := (masks.drop 16).map (BitVec.ofNat 8 ·) }
  else none

/-- Strands of a team (R213), operand-store lines of a team (R214). -/
def TeamBlk.strands (b : TeamBlk) : Nat := b.roles.foldl (fun a r => a + r.count) 0
def TeamBlk.lines (b : TeamBlk) (tseg : Nat) : Nat := b.roles.foldl (fun a r => a + r.budget * r.count) 0 + tseg / 256 + 2 * b.window / 256

/-- The number of roles and of strands that a team block's bytes give, valid or not (R208, R212). -/
def rawRoles (bs : List Byte) : Nat × Nat :=
  let n := fld bs 0 1 % 16
  (n, ((List.range (Nat.min n 8)).map fun r => fld bs (0x4A + 16 * r) 2).sum)

/-- Status 1 (R206, R208): reserved fields, limits, the P regions within 2^64; roles and strands as the team block's bytes b give them, where it could be read. -/
def recordInvalid (bs : List Byte) (b : Option (List Byte)) : Bool :=
  let c := fld bs 0 8
  let n := recTeams bs
  c / 2 ^ 35 % 32 != 0 || c / 2 ^ 11 % 32 != 0 || c / 2 ^ 7 % 2 != 0 || c / 2 ^ 3 % 2 != 0
  || 4 < recNpred bs || recTpcs bs = 0 || 4 < recTpcs bs || recX bs = 0 || recY bs = 0 || recZ bs = 0 || 2 ^ 32 < n
  || fld bs 0x1C 4 != 0 || fld bs 0xC0 64 != 0
  || (!recCores bs && c / 2 ^ 16 % 2 ^ 16 != 0)
  || (match b with
      | none => false
      | some b => 2 ^ 64 < fld bs 0x80 8 + n * (rawRoles b).2 * fld bs 0x90 8
          || 2 ^ (rawRoles b).1 ≤ c / 2 ^ 16 % 256 || 2 ^ (rawRoles b).1 ≤ c / 2 ^ 24 % 256)

/-- Status 2 (R77, R208): the segment layout. -/
def layoutInvalid (bs : List Byte) : Bool :=
  let tseg := recTseg bs
  fld bs 0x80 8 % 256 != 0 || fld bs 0x88 8 % 4 != 0 || fld bs 0x60 8 % 4 != 0 || fld bs 0x70 8 % 4 != 0
  || fld bs 0x98 4 % 256 != 0 || fld bs 0x9C 4 % 256 != 0 || tseg < fld bs 0x98 4 + fld bs 0x9C 4
  || tseg % 256 != 0 || fld bs 0x90 8 % 256 != 0 || fld bs 0x90 8 < fld bs 0x88 8 * 64

/-- The predecessors that a record names (R206): queue and sequence number. -/
def recPreds (bs : List Byte) : List (Nat × Nat) :=
  (List.range (recNpred bs)).map fun i =>
    let v := fld bs (0xA0 + 8 * i) 8
    (v / 2 ^ 48, v % 2 ^ 48)

/-- Status 4 (R208): a predecessor of another context's queue, or not submitted when the record is read, its own number among them. -/
def State.predUnknown (s : State) (ctx : Nat) (bs : List Byte) : Bool :=
  (recPreds bs).any fun p =>
    match mget? s.queues p.1 with
    | none => true
    | some d => d.ctx != ctx || decide (d.readCount ≤ p.2)

/-- Lines that a core offers (R242). -/
def offeredLines : Nat := 229376

/-- Whether a core may take teams (R262, R397, R399): its die is live, it is not retired, no region above it is shut down. -/
def State.coreOpen (s : State) (core : Nat) : Bool :=
  s.dieLive (dieOf core) && !s.retired.contains core && !s.coreStopped core

/-- Whether a die is permitted to a record (R215). -/
def State.permitted (s : State) (bs : List Byte) (die : Nat) : Bool :=
  s.dieLive die && (recDies bs == 0 || (recDies bs).getLsbD die)

/-- Cluster sets of t teams that a cluster of n open cores can take, each core at most cap teams, beside one set of r teams (R12, R215). -/
def setsIn (cap t n r : Nat) : Nat := if n < t then 0 else (n * cap - r) / t

/-- Whether the permitted open cores, counted by cluster, take f cluster sets of t teams and a last one of r teams (R207, R208). -/
def fieldFits (clusters : List Nat) (cap t f r : Nat) : Bool :=
  let all := (clusters.map fun n => setsIn cap t n 0).sum
  if r = 0 then decide (f ≤ all)
  else clusters.any fun n => decide (r ≤ n) && decide (f + setsIn cap t n 0 ≤ all + setsIn cap t n r)

/-- Status 7 (R208): a team that no empty core can take, or a co-resident field that all permitted cores together cannot. -/
def State.tooBig (s : State) (bs : List Byte) (b : TeamBlk) : Bool :=
  let l := b.lines (recTseg bs)
  let cap := Nat.min (4096 / Nat.max 1 b.strands) (if l = 0 then 4096 else offeredLines / l)
  let clusters := (List.range 16).map fun c =>
    if s.permitted bs (c / 2) then ((List.range 4).filter fun i => s.coreOpen (4 * c + i)).length else 0
  let t := recTpcs bs
  cap = 0 || (recCores bs && !fieldFits clusters cap t (recTeams bs / t) (recTeams bs % t))

/-- The team block of a record, if it could be read and is valid (R213). -/
def blkOf (bs : List Byte) (b : Option (List Byte)) : Option TeamBlk := b.bind fun x => parseBlk x (fld bs 0x68 8) (fld bs 0x78 8)

/-- The status of a record's checks, 0 when it passes (R208): the lowest of those that fail; b: its team block's bytes, if they could be read. (DEDUCED, log entry 39) -/
def State.recordStatus (s : State) (l : Launch) (b : Option (List Byte)) : Nat :=
  let bs := l.recBytes
  if recordInvalid bs b then 1
  else if layoutInvalid bs then 2
  else match blkOf bs b with
    | none => 3
    | some b =>
      if l.predBad then 4
      else if (List.range 8).all fun d => !s.permitted bs d then 6
      else if s.tooBig bs b then 7
      else 0

/-- A launch has been refused or is over: it is known as ended to the launches that name it (R209, R210). -/
def State.endLaunch (s : State) (k status : Nat) : State :=
  let l := s.launch k
  let s := s.modLaunch k fun l => { l with st := .ended, status := status, checked := true }
  { s with
    completions := mput s.completions (l.queue * 2 ^ 48 + l.seq) status
    launches := s.launches.map fun p =>
      if p.2.st = .submitted then
        (p.1, { p.2 with preds := (p.2.preds.zip (recPreds p.2.recBytes)).map fun (x : Option Nat × (Nat × Nat)) =>
          if x.2 = (l.queue, l.seq) then x.1.or (some status) else x.1 })
      else p }

/-- What the checks of a launch lead to (R208, R377): its end, or its wait for predecessors, which the host tracks in host-assisted mode. (DEDUCED, log entry 53) -/
def State.judge (s : State) (k : Nat) (b : Option (List Byte)) : State :=
  let l := s.launch k
  let st := s.recordStatus l b
  if st != 0 then s.endLaunch k st
  else
    let s := s.modLaunch k fun l => { l with
      checked := true, blk := (blkOf l.recBytes b).getD {} }
    if s.mode.getLsbD 1 then
      let q := s.svcNext
      (s.modLaunch k fun l => { l with hostDep := some q }).postService
        { ty := 4, body := [BitVec.ofNat 64 l.queue, BitVec.ofNat 64 l.seq], seq := 0 }
    else s

/-- The launch unit reads the team block of a launch and checks its record (R208, R212, R213). (DEDUCED, log entry 39) -/
def State.checkLaunch (s : State) (k : Nat) : State :=
  let l := s.launch k
  let va := fld l.recBytes 0x20 8
  if va % 256 != 0 then s.judge k none
  else match s.ringPlace l.ctx va 0 with
    | .park p => (s.modLaunch k fun l => { l with park := some p }).raiseFault 8 l.queue 0 p
    | .denied s => s.judge k none
    | .wait => s
    | .ok s pa => s.judge k (some (s.anyBytes pa 256))

/-- A record has been read: it is submitted with the queue's next sequence number (R204); what it names as predecessors is found as it stands now (R208, R210). -/
def State.submit (s : State) (q : Nat) (bs : List Byte) : State :=
  let d := s.queue q
  let bad := s.predUnknown d.ctx bs
  let s := s.setQueue q { d with head := d.head + 1, readCount := d.readCount + 1, park := none }
  { s with
    launches := mput s.launches s.submitNext
      { queue := q, seq := d.readCount, ctx := d.ctx, recBytes := bs, predBad := bad
        preds := (recPreds bs).map fun p => mget? s.completions (p.1 * 2 ^ 48 + p.2) }
    submitNext := s.submitNext + 1 }

/-- The read of a launch record ends without it (R202, R208): status 11. -/
def State.recordLost (s : State) (q : Nat) : State :=
  let k := s.submitNext
  (s.submit q (List.replicate 256 0)).endLaunch k 11

/-- LAUNCH_RECORD_READ (R202 to R204, R208): the launch unit reads the next accepted record of queue ev.who, or goes on with the check of the one that it has read. -/
def execLaunchRecordRead (s : State) : Out :=
  let q := s.ev.who
  let d := s.queue q
  match s.launches.find? fun p => p.2.queue == q && !p.2.checked && p.2.st == .submitted with
  | some p => if p.2.park.isSome then .next s else .next (s.checkLaunch p.1)
  | none =>
    if !d.en || d.err || d.head == d.tail || d.park.isSome then .next s
    else match s.ringPlace d.ctx ((d.lring.toNat + 256 * (d.head.toNat % 2 ^ d.ringlog)) % 2 ^ 64) 0 with
      | .park p => .next ((s.setQueue q { d with park := some p }).raiseFault 8 q 0 p)
      | .denied s => .next (s.recordLost q)
      | .wait => .next s
      | .ok s pa =>
        let k := s.submitNext
        .next ((s.submit q (s.anyBytes pa 256)).checkLaunch k)

/-- LAUNCH_READY (R210): every predecessor of launch ev.who has ended; under DEPFAIL one that ended with a non-zero status ends it with status 5. -/
def execLaunchReady (s : State) : Out :=
  let k := s.ev.who
  let l := s.launch k
  if l.st != .submitted || !l.checked || l.hostDep.isSome then .next s
  else if recDepfail l.recBytes && l.preds.any fun p => p.getD 0 != 0 then .next (s.endLaunch k 5)
  else if l.preds.all (·.isSome) then .next (s.modLaunch k fun l => { l with st := .ready })
  else .next s

/-! ### Placement (R214 to R217) -/

/-- The STRANDIDs in use on a core. -/
def State.usedIds (s : State) (core : Nat) : List Nat :=
  (s.strands.filter fun p => p.1 / 4096 == core).map fun p => p.1 % 4096

/-- The lines of a core that teams hold. -/
def State.usedLines (s : State) (core : Nat) : Nat :=
  (s.teams.filter fun p => p.2.resident && p.2.core == core).foldl (fun a p => a + p.2.blk.lines p.2.tseg) 0

/-- Whether a core has room for a team (R214). -/
def State.hasRoom (s : State) (core : Nat) (b : TeamBlk) (tseg : Nat) : Bool :=
  s.coreOpen core && decide ((s.usedIds core).length + b.strands ≤ 4096) && decide (s.usedLines core + b.lines tseg ≤ offeredLines)

/-- The ranges of a core's store that teams hold. -/
def State.ranges (s : State) (core : Nat) : List (Nat × Nat) :=
  (s.teams.filter fun p => p.2.resident && p.2.core == core).flatMap fun p => [(p.2.obase, p.2.tseg), (p.2.xbase, 2 * p.2.blk.window)]

/-- Whether a range of a core's store is free. -/
def rangeFree (rs : List (Nat × Nat)) (o n : Nat) : Bool :=
  rs.all fun r => r.2 == 0 || n == 0 || decide (o + n ≤ r.1) || decide (r.1 + r.2 ≤ o)

/-- The place of a range at an offset: in the lowest set of offsets in which it is free. (DESIGN CHOICE, log entry 12) -/
def keepRange (rs : List (Nat × Nat)) (o n : Nat) : Nat :=
  let at' := fun (i : Nat) => i * 2 ^ 26 + o % 2 ^ 26
  at' (((List.range (rs.length + 1)).find? fun i => rangeFree rs (at' i) n).getD (rs.length + 1))

/-- A free range of n bytes: the lowest that begins at or above a place, otherwise the lowest. Lines are all that a core can lack (R214, R243): where the free ones form no range of offsets, the range lies in another set of them. (DESIGN CHOICE, log entry 40) -/
def findRange (rs : List (Nat × Nat)) (start n : Nat) : Nat :=
  let cs := (start :: 0 :: rs.map fun r => r.1 + r.2).filter fun o => o % 256 == 0 && decide (o + n ≤ 2 ^ 26) && rangeFree rs o n
  let least := fun (l : List Nat) => l.foldl (fun b o => match b with
    | none => some o
    | some x => some (Nat.min x o)) (none : Option Nat)
  ((least (cs.filter (start ≤ ·))).or (least cs)).getD (keepRange rs 0 n)

/-- The STRANDIDs of n new strands (R216): each goes to the slot that holds the fewest, the lowest such slot, under its lowest free number. -/
def assignIds : Nat → List Nat → List Nat
  | 0, _ => []
  | n + 1, used =>
    let cnt := fun (sl : Nat) => (used.filter fun i => i % 4 == sl).length
    let slot := (List.range 4).foldl (fun b sl => if cnt sl < cnt b then sl else b) 0
    let id := ((List.range 1024).map fun j => slot + 4 * j).find? fun i => !used.contains i
    let id := id.getD 0
    id :: assignIds n (id :: used)

/-- The role and ROLEIDX of every strand of a team, by k (R207). -/
def TeamBlk.places (b : TeamBlk) : List (Nat × Nat) :=
  (b.roles.zip (List.range b.roles.length)).flatMap fun r => (List.range r.1.count).map fun i => (r.2, i)

/-- The state of strand k of a new team (R77, R105, R177, R207). -/
def newStrand (l : Launch) (key id obase xbase k role idx : Nat) : Strand :=
  let bs := l.recBytes
  let r := l.blk.roles.getD role {}
  let plen := fld bs 0x88 8
  { team := key, role := role, roleIdx := idx, budget := r.budget, k := k, prio := recPrio bs
    pc := r.entry.setWidth 64
    segs := {
      g := recSeg bs 0x30
      p := { base := BitVec.ofNat 64 (fld bs 0x80 8 + (id * l.blk.strands + k) * fld bs 0x90 8), len := BitVec.ofNat 64 plen }
      c := recSeg bs 0x40
      h := recSeg bs 0x50
      o := { base := BitVec.ofNat 64 (obase + fld bs 0x98 4), len := BitVec.ofNat 64 (fld bs 0x9C 4) }
      x := { base := BitVec.ofNat 64 xbase, len := BitVec.ofNat 64 l.blk.window }
      ks := recSeg bs 0x60
      kl := recSeg bs 0x70 } }

/-- The number of a team. -/
def teamKey (launch id : Nat) : Nat := launch * 2 ^ 32 + id

/-- Place one team on a core (R13, R16, R214 to R216, R245, R260): its space is allocated zero, its strands get their numbers, a test of the core yields (R400); none when the core has no room. oAt, xAt: where the search for its ranges begins. -/
def State.placeTeam (s : State) (k id core oAt xAt : Nat) : Option State :=
  let l := s.launch k
  let bs := l.recBytes
  let tseg := recTseg bs
  if !s.hasRoom core l.blk tseg || !s.permitted bs (dieOf core) then none
  else
    let o := findRange (s.ranges core) oAt tseg
    let x := findRange ((o, tseg) :: s.ranges core) xAt (2 * l.blk.window)
    let key := teamKey k id
    let ids := assignIds l.blk.strands (s.usedIds core)
    let sids := ids.map fun i => core * 4096 + i
    let t : Team :=
      { ctx := l.ctx, launch := k, id := id, x := id % recX bs, y := id / recX bs % recY bs, z := id / (recX bs * recY bs)
        core := core, obase := o, tseg := tseg, blk := l.blk, xbase := x, st := .placed, sids := sids, tpcs := recTpcs bs
        cores1 := recCores bs, evt := recEvt bs, prio := recPrio bs, born := s.ticks (dieOf core) }
    let strands := (sids.zip (l.blk.places.zip (List.range l.blk.strands))).foldl (fun m p =>
      mput m p.1 (newStrand l key id o x p.2.2 p.2.1.1 p.2.1.2)) s.strands
    let s := s.freeSpace t
    some { s with
      teams := mput s.teams key t
      strands := strands
      testing := s.testing.filter (· != core)
      ctxs := mmod s.ctxs l.ctx fun c => { c with touched := c.touched ||| (1#8 <<< dieOf core) } }

/-- Whether a context's teams may be placed (R211). -/
def State.placeable (s : State) (ctx : Nat) : Bool :=
  match mget? s.ctxs ctx with
  | none => true
  | some c => !c.preempted && !c.lossHeld

/-- Whether a launch still has teams to place, and may have them placed. A ready launch of a context that is pre-empted or held after a loss is not among those that hold back younger ones of its class: R211 does not say of it (DESIGN CHOICE, log entry 40). -/
def State.wantsPlace (s : State) (l : Launch) : Bool :=
  l.st == .ready && !l.cancelled && s.placeable l.ctx && decide (l.placed < recTeams l.recBytes)

/-- Whether some team out of its core is ready to return (R211, R221). -/
def State.someReturning (s : State) : Bool :=
  s.teams.any fun p => s.placeable p.2.ctx && (match p.2.st with
    | .saved r => r
    | _ => false)


/-- How many teams a launch places next (R215, R217): a cluster set, or the whole co-resident field. -/
def Launch.batch (l : Launch) : Nat :=
  let left := recTeams l.recBytes - l.placed
  if recCores l.recBytes then left else Nat.min (recTpcs l.recBytes - l.placed % recTpcs l.recBytes) left

/-- Whether n teams fit on distinct cores of a cluster. -/
def State.clusterFits (s : State) (l : Launch) (c n : Nat) : Bool :=
  s.permitted l.recBytes (c / 2)
  && decide (n ≤ ((List.range 4).filter fun i => s.hasRoom (4 * c + i) l.blk (recTseg l.recBytes)).length)

/-- Free lines of a die. -/
def State.freeLines (s : State) (die : Nat) : Nat :=
  (List.range 8).foldl (fun a i => if s.coreOpen (8 * die + i) then a + (offeredLines - s.usedLines (8 * die + i)) else a) 0

/-- The dies that placement prefers among those with room (R215): those in TOUCHED, then those with the most free lines. -/
def State.bestDies (s : State) (l : Launch) (n : Nat) : List Nat :=
  let fits := (List.range 8).filter fun d => s.clusterFits l (2 * d) n || s.clusterFits l (2 * d + 1) n
  let t := match mget? s.ctxs l.ctx with
    | some c => fits.filter fun d => c.touched.getLsbD d
    | none => []
  let ds := if t = [] then fits else t
  let top := ds.foldl (fun a d => Nat.max a (s.freeLines d)) 0
  ds.filter fun d => s.freeLines d == top

/-- Place the members of a launch from a list of cores, set by set (R215): each set on distinct cores of one cluster of a preferred die. -/
def State.placeSets (s : State) (k oAt xAt : Nat) : List Nat → Nat → Option State
  | [], _ => some s
  | c :: cs, id =>
    let l := s.launch k
    let t := recTpcs l.recBytes
    let n := Nat.min t (recTeams l.recBytes - id / t * t)
    let mates := s.teams.filter fun p => p.2.launch == k && p.2.id / t == id / t
    let okFirst := if mates = [] then (s.bestDies l n).contains (dieOf c) && s.clusterFits l (c / 4) n
      else mates.all fun p => p.2.core / 4 == c / 4 && p.2.core != c
    if !okFirst then none
    else
      match s.placeTeam k id c oAt xAt with
      | none => none
      | some s => (s.modLaunch k fun l => { l with placed := l.placed + 1 }).placeSets k oAt xAt cs (id + 1)

/-- A choice of cores for the next batch of a launch: clusters in turn, lowest first. (DESIGN CHOICE, log entry 40) -/
def State.chooseCores (s : State) (k oAt xAt : Nat) : Nat → Nat → List Nat → Option (List Nat)
  | 0, _, acc => some acc.reverse
  | n + 1, id, acc =>
    match (List.range 64).find? fun c => (s.placeSets k oAt xAt [c] id).isSome with
    | none => none
    | some c =>
      match s.placeSets k oAt xAt [c] id with
      | none => none
      | some s => s.chooseCores k oAt xAt n (id + 1) (c :: acc)

/-- Whether a launch has teams to place and no older one of its class has (R211). -/
def State.oldest (s : State) (k : Nat) : Bool :=
  let l := s.launch k
  s.wantsPlace l && !(s.launches.any fun p => s.wantsPlace p.2 && recPrio p.2.recBytes == recPrio l.recBytes && decide (p.1 < k))

/-- Whether the next teams of a launch find room now (R211). -/
def State.findsRoom (s : State) (k : Nat) : Bool :=
  (s.chooseCores k 0 0 (s.launch k).batch (s.launch k).placed []).isSome

/-- Whether a launch's teams are next in the placement order (R211, R217): no team waits to return; it is the oldest of its class; of the oldest launches of the higher classes none finds room, and none is co-resident. -/
def State.isNext (s : State) (k : Nat) : Bool :=
  s.oldest k && !s.someReturning
  && !(s.launches.any fun p => s.oldest p.1 && decide (recPrio (s.launch k).recBytes < recPrio p.2.recBytes)
        && (recCores p.2.recBytes || s.findsRoom p.1))

/-- TEAM_PLACE (R211, R215 to R217): the launch unit places the next cluster set of launch ev.who, or its whole co-resident field, on the cores that ev.bytes lists (when it lists none, the first that suit); ev.addr and ev.val: where the search for segment and window ranges begins. (DESIGN CHOICE, log entry 40) -/
def execTeamPlace (s : State) : Out :=
  let k := s.ev.who
  let l := s.launch k
  if !s.isNext k then .next s
  else
    let oAt := s.ev.addr / 256 * 256
    let xAt := s.ev.val / 256 * 256
    let cores := if s.ev.bytes = [] then (s.chooseCores k oAt xAt l.batch l.placed []).getD [] else s.ev.bytes.map (·.toNat)
    if cores.length != l.batch then .next s
    else match s.placeSets k oAt xAt cores l.placed with
      | none => .next s
      | some s => .next s

/-- The teams of a team's cluster set. -/
def State.setOf (s : State) (t : Team) : List (Nat × Team) :=
  s.teams.filter fun p => p.2.launch == t.launch && p.2.id / p.2.tpcs == t.id / t.tpcs

/-- GANG_START (R13, R103, R216): every strand of team ev.who and of its cluster set starts, after an acquire at .sys for each team. -/
def execGangStart (s : State) : Out :=
  let t := s.team s.ev.who
  let mates := (s.setOf t).filter fun p => p.2.st == .placed
  if t.st != .placed then .next s
  else .next (mates.foldl (fun s p =>
    (s.acquireAt (dieOf p.2.core) p.2.ctx 5).modTeam p.1 fun t => { t with st := .running }) s)

/-- TEAM_RETIRE (R103, R209, R238): every strand of team ev.who has exited; its release waits until its stores to host memory are globally observed (R101). -/
def execTeamRetire (s : State) : Out :=
  let t := s.team s.ev.who
  let owed := !s.cacheUp && s.hostOwed.any fun w => w / 256 == s.ev.who
  if t.st == .running && t.sids == [] && !owed then .next (s.retireTeam s.ev.who) else .next s

/-! ### The end of a launch (R209) -/

/-- Whether every team that a launch will ever have has ended. -/
def Launch.isOver (l : Launch) : Bool :=
  l.st == .ended
  || (l.st == .ready && (l.cancelled || l.placed == recTeams l.recBytes) && l.exited + l.endedTeams == l.placed)

/-- The completion record (R209). -/
def Launch.completion (l : Launch) : List Byte :=
  leBytes 8 (l.seq + l.queue * 2 ^ 48) ++ leBytes 8 (fld l.recBytes 8 8) ++ leBytes 2 l.status ++ leBytes 2 0
  ++ leBytes 4 l.exited
  ++ leBytes 4 (if l.status = 9 then l.first.getD 0 else if l.status = 10 then l.firstLoss.getD 0 else 0) ++ leBytes 4 0

/-- The completion record is done with: the queue drains (R205). -/
def State.recordDone (s : State) (k : Nat) : State :=
  let q := (s.launch k).queue
  let s := s.modLaunch k fun l => { l with written := true, park := none }
  if (s.queue q).drain then s.setQueue q { s.queue q with drain := s.draining q } else s

/-- The write of a completion record did not come about (R202): ERR. -/
def State.recordErr (s : State) (k : Nat) : State :=
  let q := (s.launch k).queue
  (s.setQueue q { s.queue q with err := true }).recordDone k

/-- LAUNCH_END (R209): launch ev.who ends, and its completion record is written to the next slot, then signalled if IRQ = 1. -/
def execLaunchEnd (s : State) : Out :=
  let k := s.ev.who
  let l := s.launch k
  if (mget? s.launches k).isNone || !l.isOver || l.written || l.park.isSome then .next s
  else
    let s := if l.st = .ended then s else s.endLaunch k l.status
    let l := s.launch k
    let d := s.queue l.queue
    match s.ringPlace d.ctx ((d.cring.toNat + 32 * (d.written % 2 ^ d.cqlog)) % 2 ^ 64) 1 with
    | .park p => .next ((s.modLaunch k fun l => { l with park := some p }).raiseFault 8 l.queue 0 p)
    | .denied s => .next (s.recordErr k)
    | .wait => .next s
    | .ok s pa =>
      let s := ((s.anyPutBytes pa l.completion).setQueue l.queue { d with written := d.written + 1 }).modLaunch k fun l => { l with slot := some d.written }
      let s := s.recordDone k
      .next (if recIrq l.recBytes then s.signal (1 + l.queue % 2047) else s)

/-- MSIX_UNMASK (R374): vector ev.idx is unmasked, and a signal held pending for it is sent when the link is up. (PRESUMED, log entry 23) -/
def execMsixUnmask (s : State) : Out :=
  let v := s.ev.idx
  let s := { s with msixOpen := if s.msixOpen.contains v then s.msixOpen else s.msixOpen ++ [v] }
  .next (if s.linkUp && s.msixPending.contains v then
    { s with msixPending := s.msixPending.filter (· != v), msixSent := s.msixSent ++ [v] } else s)

end Sys2Proof.Machine
end

