-- ==== Sys2Proof/Machine/Evict.lean ====
section
/-! DEFINITION. Teams that leave their core and come back (R231 to R236, R249, R286, R332): eviction, saving, return, migration, pre-emption. What is saved of a team stands under a core number of 64 and the team's number. -/

namespace Sys2Proof.Machine

/-! ### When a team can be copied (R231, R234, R235) -/

/-- Whether a lane stream spills or pops the divergence stack; a pop parked on a translation fault counts as not issued (R184, R201). -/
def LaneCtx.spills (c : LaneCtx) (parked : Bool) : Bool :=
  match c.spill with
  | none => false
  | some .push => true
  | some (.pop _ _ _) => !parked

/-- Whether nothing that a strand has issued is still under way (R234); an instruction parked on a translation fault counts as not issued (R137, R201). -/
def State.drained (s : State) (sid : Nat) : Bool :=
  let st := s.strand sid
  st.entry.isNone && st.longs == [] && st.replies == [] && !s.ackDue st.member
  && !st.lane.spills (st.parkL.isSome && !st.csr.ih) && !st.win.spills (st.parkL.isSome && st.csr.ih)
  && !(s.clusterMsgs.any fun m => m.sid == sid) && !(s.appends.any fun a => a.sid == sid)

/-- Whether a team may be copied now: its strands drained and outside non-preemptible regions. -/
def State.copyable (s : State) (t : Team) : Bool := t.sids.all fun sid => s.drained sid && (s.strand sid).npr.isNone

/-- Whether a scalar instruction is one in which a strand may stand when its team is evicted (R231). -/
def evictWait : Instr → Bool
  | .park _ _ => true
  | .bar _ _ => true
  | .barw _ _ => true
  | .abwait _ _ => true
  | .abwaitT _ _ _ => true
  | .fwait _ => true
  | .wlquiet _ _ => true
  | _ => false

/-- Whether a strand waits in such an instruction; a PARK whose phase is complete is over (R231, R310). -/
def State.inEvictWait (s : State) (sid : Nat) : Bool :=
  let st := s.strand sid
  match st.parkSince with
  | some p => !s.abDone (coreOf sid) p.2.1 p.2.2
  | none =>
    st.waitS && (match s.fetchScalar sid with
      | .got w _ => (match decodeScalar w with
        | .ok i => evictWait i
        | .error _ => false)
      | _ => false)

/-- Whether a strand of a team has waited in a PARK for longer than EVT, in ticks of the die (R6, R231). -/
def State.pastThreshold (s : State) (t : Team) : Bool :=
  t.evt != 0xFFFF && t.sids.any fun sid =>
    match (s.strand sid).parkSince with
    | some p => decide (p.1 + 100 * t.evt < s.ticks (dieOf t.core))
    | none => false

/-- Whether a team meets the conditions of eviction (R231). -/
def State.evictable (s : State) (t : Team) : Bool :=
  t.st == .running && !t.cores1 && s.pastThreshold t && s.copyable t && t.sids.all s.inEvictWait

/-! ### The save area (R233) -/

/-- The bytes of a team's image. -/
def State.imageSize (s : State) (t : Team) : Nat :=
  let tiles := ((List.range 8).filter fun p => match mget? s.tiles (t.core * 8 + p) with
    | some x => (match x.owner with
      | some o => t.sids.contains o
      | none => false)
    | none => false).length
  2048 * t.blk.strands + 256 * t.blk.lines t.tseg + 98304 * tiles + 4096

/-- Granules of 64 KiB that a team's image takes. -/
def State.imageGranules (s : State) (t : Team) : Nat := (s.imageSize t + 65535) / 65536

/-- The lowest run of n free granules of a context's save area. -/
def Ctx.freeRun (c : Ctx) (n : Nat) : Option Nat :=
  let size := c.saveLen / 65536
  (List.range size).find? fun g => decide (g + n ≤ size) && (List.range n).all fun i => (mget? c.granules (g + i)).isNone

/-- Take granules for a team's image, and the first physical address of the image; none when the area has no room. -/
def State.takeGranules (s : State) (key : Nat) (t : Team) : Option (State × Nat) :=
  match mget? s.ctxs t.ctx with
  | none => none
  | some c =>
    let n := s.imageGranules t
    match c.freeRun n with
    | none => none
    | some g => some ({ s with
        ctxs := mput s.ctxs t.ctx { c with granules := (List.range n).foldl (fun m i => mput m (g + i) key) c.granules } }, c.saveBase + 65536 * g)

/-! ### The copy -/

/-- A strand's state as it travels: writes under way have landed, nothing counts cycles of the old core, an access parked on a translation fault and not answered Deliver will be made anew (R105, R137, R177, R201). -/
def Strand.travel (st : Strand) : Strand :=
  let st := st.landAll
  let kept := fun (p : Option Park) => p.filter (·.delivered)
  let st := if st.parkL.isSome then st.setLaneCtx st.csr.ih (st.laneCtx st.csr.ih).unpop else st
  { st with
    lastLane := none, waitAt := none, claim := none, skick := none, stallS := none, stallA := none, stallB := none
    parkS := kept st.parkS, parkL := kept st.parkL
    pendC := st.pendC.map fun c => { c with due := 0 } }

/-- A line state on another core: the age goes with it (R249). -/
def State.lineTo (s : State) (old new : Nat) (l : OsLine) : OsLine :=
  { l with written := s.osNow new - (if new < 64 then (s.osAge old l : Int) else -(s.osAge old l : Int)) }

/-- The bytes and lines of a team go to another core, to the places that begin at o and x there. (DESIGN CHOICE, log entry 12) -/
def State.moveStore (s : State) (t : Team) (new o x : Nat) : State :=
  let old := t.core
  let inO := fun (off : Nat) => decide (t.obase ≤ off) && decide (off < t.obase + t.tseg)
  let mine := fun (off : Nat) => inO off || (decide (t.xbase ≤ off) && decide (off < t.xbase + 2 * t.blk.window))
  let toNew := fun (off : Nat) => if inO off then o + (off - t.obase) else x + (off - t.xbase)
  let isB := fun (k : Nat) => k / 2 ^ 48 == old && mine (k % 2 ^ 48)
  let isL := fun (k : Nat) => k / 2 ^ 40 == old && mine (k % 2 ^ 40 * 256)
  let bytes := s.os.filter fun p => isB p.1
  let lines := s.osLines.filter fun p => isL p.1
  { s with
    os := bytes.foldl (fun m p => mput m (osKey new (toNew (p.1 % 2 ^ 48))) p.2) (s.os.filter fun p => !isB p.1)
    osLines := lines.foldl (fun m p => mput m (oslKey new (toNew (p.1 % 2 ^ 40 * 256) / 256)) (s.lineTo old new p.2)) (s.osLines.filter fun p => !isL p.1) }

/-- The O and X descriptors of a strand whose team's ranges lie in other sets of offsets now. -/
def Strand.rebase (st : Strand) (o x : Nat) : Strand :=
  let b := fun (d : Seg) (tag : Nat) => { d with base := BitVec.ofNat 64 (tag + d.base.toNat % 2 ^ 26) }
  { st with segs := { st.segs with o := b st.segs.o (osTag o), x := b st.segs.x (osTag x) } }

/-- The new number of a strand whose old one stands in a table. -/
def renamed (ren : List (Nat × Nat)) (sid : Nat) : Nat :=
  match ren.find? fun p => p.1 == sid with
  | some p => p.2
  | none => sid

/-- The strands of a team take new numbers wherever they are named. -/
def State.renameStrands (s : State) (ren : List (Nat × Nat)) : State :=
  let f := renamed ren
  let gone := fun (l : List Nat) => l.filter fun x => !(ren.any fun p => p.1 == x)
  { s with
    strands := ren.foldl (fun m p => match mget? m p.1 with
      | some st => mput (mdel m p.1) p.2 (Strand.travel st)
      | none => m) s.strands
    tiles := s.tiles.map fun p => (p.1, { p.2 with owner := p.2.owner.map f })
    mxq := s.mxq.map fun q => (q.1, q.2.map fun (c : MxCmd) => { c with sid := f c.sid })
    quiets := s.quiets.map fun q => { q with sid := f q.sid }
    quietMet := s.quietMet.map fun q => (f q.1, q.2)
    scopies := s.scopies.map fun q => (q.1, q.2.map fun (c : Scopy) => { c with sid := f c.sid })
    progs := s.progs.map fun p => (p.1, { p.2 with kicker := f p.2.kicker })
    colls := s.colls.map fun c => { c with sid := f c.sid }
    claimQ := s.claimQ.map fun q => (q.1, gone q.2)
    skickQ := s.skickQ.map fun q => (q.1, gone q.2)
    tileBack := s.tileBack.map fun b => { b with sid := f b.sid } }

/-- The table slots of a context that stand at a core are copied to a place of a team that leaves it (R332). -/
def State.copyTables (s : State) (ctx old new : Nat) : State :=
  { s with rkTab := (List.range 4).foldl (fun m i => match mget? m (old * 4 + i) with
      | some t => if t.ctx = ctx then mput m (new * 4 + i) t else m
      | none => m) s.rkTab }

/-- The copied tables of a team that returns are written where the slot is invalid or of its context (R332). -/
def State.backTables (s : State) (ctx old new : Nat) : State :=
  { s with rkTab := (List.range 4).foldl (fun m i => match mget? m (old * 4 + i) with
      | some t =>
        let free := match mget? m (new * 4 + i) with
          | some u => u.ctx == ctx
          | none => true
        mdel (if free then mput m (new * 4 + i) t else m) (old * 4 + i)
      | none => m) s.rkTab }

/-- The tiles and matrix commands of strands that leave their core go with them (R286), to free places beside those of the team that still wait there to be restored. -/
def State.leaveTiles (s : State) (ren : List (Nat × Nat)) (old new : Nat) : State :=
  let goes := fun sid => ren.any fun r => r.1 == sid
  let ps := (List.range 8).filter fun p => (s.tile old p).owner.any goes
  let s := s.moveTiles old new (ps.zip (s.freeTiles new)) fun c => goes c.sid
  { s with tileBack := s.tileBack.filter fun b => !goes b.sid }

/-- A team is copied out of its core (R231, R249, R260): release at .pkg, then everything of it stands under 64 and its number; the core's space is free and zero. -/
def State.copyOut (s : State) (key : Nat) : State :=
  let t := s.team key
  let new := 64 + key
  let s := s.releaseAt (dieOf t.core) t.ctx 4
  let ren := t.sids.map fun sid => (sid, new * 4096 + sid % 4096)
  let s := (((s.moveStore t new t.obase t.xbase).copyTables t.ctx t.core new).leaveTiles ren t.core new).renameStrands ren
  s.modTeam key fun t' => { t' with core := new, sids := ren.map (fun (r : Nat × Nat) => r.2), born := (s.lineTo t.core new { written := t.born }).written }

/-- A strand whose image software has changed: its registers, PC, sides and queues hold free values (R233; DESIGN CHOICE, log entry 68). -/
def Strand.scramble (st : Strand) (k : Nat) : Strand :=
  let w := fun (i : Nat) => Config.imageWord k (st.k * 2 ^ 20 + i)
  let sd := fun (x : Side) (i : Nat) => { x with pc := (w i).setWidth 32, mask := w (i + 1) }
  { st with
    a := (List.range 48).foldl (fun m r => mset m r (w r) 0) []
    pc := w 48
    q := (List.range 8).foldl (fun m i => mset m i ((st.queue i).map fun x => x ^^^ w (49 + i)) []) []
    v := (List.range (1032 * 64)).foldl (fun m i => mset m i ((w (4096 + i)).setWidth 32) 0) []
    csr := { st.csr with tvec := w 64, tcause := w 65, tepc := w 66, tlpc := w 67, tmask := w 68, trapen := w 69, sflags := w 70, tsave0 := w 71, tsave1 := w 72 }
    lane := { st.lane with a := sd st.lane.a 80, b := sd st.lane.b 82 }
    win := { st.win with a := sd st.win.a 84, b := sd st.win.b 86 } }

/-- What comes back of a team whose image software has changed in the save area (R233): free values (DESIGN CHOICE, log entry 68). -/
def State.scramble (s : State) (key : Nat) : State :=
  let t := s.team key
  let s := t.sids.foldl (fun s sid => s.modStrand sid fun st => st.scramble s.stepNo) s
  (List.range t.tseg).foldl (fun s i =>
    s.osPutRaw t.core (t.obase + i) (Config.imageByte (s.stepNo + key) i)) s

/-- A team is copied back to a core (R103, R231, R232, R266): new STRANDIDs, TOUCHED, an acquire at .pkg; it keeps its offsets; its tiles wait to be restored. -/
def State.copyIn (s : State) (key core : Nat) : State :=
  let t := s.team key
  let old := t.core
  let intact := s.imageIntact t
  let rs := s.ranges core
  let o := keepRange rs t.obase t.tseg
  let x := keepRange ((o, t.tseg) :: rs) t.xbase (2 * t.blk.window)
  let ids := assignIds t.sids.length (s.usedIds core)
  let ren : List (Nat × Nat) := t.sids.zip (ids.map fun i => core * 4096 + i)
  let held := ren.filter fun r => (List.range 8).any fun p => (s.tile old p).owner == some r.1
  let s := ((s.moveStore t core o x).backTables t.ctx old core).renameStrands ren
  let s := ren.foldl (fun s r => s.modStrand r.2 fun st => { st.rebase o x with parkSince := none }) s
  let s := { s with
    tileBack := s.tileBack ++ held.map fun (r : Nat × Nat) => ({ core := core, sid := r.2, old := old } : TileBack)
    ctxs := mmod s.ctxs t.ctx fun c => { c with touched := c.touched ||| (1#8 <<< dieOf core) } }
  let s := s.modTeam key fun t' => { t' with core := core, obase := o, xbase := x, image := none, sids := ren.map (fun (r : Nat × Nat) => r.2), born := (s.lineTo old core { written := t.born }).written }
  let s : State := { s with testing := s.testing.filter (· != core) }
  (if intact then s else s.scramble key).acquireAt (dieOf core) t.ctx 4

/-- Whether a core can take a team back: a permitted core with room (R214, R232). -/
def State.canTake (s : State) (t : Team) (core : Nat) : Bool :=
  s.hasRoom core t.blk t.tseg && s.permitted (s.launch t.launch).recBytes (dieOf core)

/-! ### Eviction, saving, return -/

/-- Halt the strands of a team that run (R137). -/
def State.haltTeam (s : State) (key : Nat) (h : Halt) : State :=
  (s.team key).sids.foldl (fun s sid => if (s.strand sid).halt = .none then s.stopStrand sid h else s) s

/-- Save one team: halted, copied to the save area, its space freed; none when the area has no room. Of a PARK it is kept for which phase it waits, since that makes the team ready to return (R232). -/
def State.saveTeam (s : State) (key : Nat) (h : Halt) : Option State :=
  let n := s.imageSize (s.team key)
  match s.takeGranules key (s.team key) with
  | none => none
  | some (s, a) =>
    let s := (s.team key).sids.foldl (fun s sid => s.modStrand sid fun st => if st.halt = .none then { st with halt := h } else st) s
    some (((s.copyOut key).modTeam key fun t => { t with st := .saved false }).putImage key a n)

/-- EVICTION (R231): team ev.who and its cluster set, parked past the threshold, are evicted. -/
def execEviction (s : State) : Out :=
  let t := s.team s.ev.who
  let set := (s.setOf t).filter fun p => p.2.alive
  if t.st != .running || !set.all (fun p => s.evictable p.2) then .next s
  else match set.foldlM (fun s p => s.saveTeam p.1 .moving) s with
    | none => .next s
    | some s => .next s

/-- Whether pre-emption has halted a team (R234). -/
def State.haltedTeam (s : State) (t : Team) : Bool :=
  t.st == .running && t.sids.all (fun sid => (s.strand sid).halt != .none) && t.sids.any fun sid => (s.strand sid).halt == .preempt

/-- The package as if every halted team of a class below prio had left its core: what their space would give. -/
def State.without (s : State) (prio : Nat) : State :=
  let gone := s.teams.filter fun p => s.haltedTeam p.2 && decide (p.2.prio < prio)
  { s with
    teams := s.teams.filter fun p => !(gone.any fun q => q.1 == p.1)
    strands := s.strands.filter fun p => !(gone.any fun q => q.2.sids.contains p.1) }

/-- Whether a placement of a launch, which finds no room, needs the space of a team (R215, R234): the space of halted teams would give it room, on the team's core and for a whole cluster set in its cluster. -/
def State.placeWants (s : State) (t : Team) (k : Nat) (l : Launch) : Bool :=
  let pr := recPrio l.recBytes
  let s' := s.without pr
  decide (t.prio < pr) && s.isNext k && !s.findsRoom k && s'.findsRoom k
  && !s.hasRoom t.core l.blk (recTseg l.recBytes) && s'.hasRoom t.core l.blk (recTseg l.recBytes)
  && s'.clusterFits l (t.core / 4) (Nat.min (recTpcs l.recBytes) l.batch)

/-- The teams that return together (R215, R217): the saved ones of a cluster set, or of a co-resident field. -/
def State.backGroup (s : State) (t : Team) : List (Nat × Team) :=
  s.teams.filter fun p => (match p.2.st with
    | .saved _ => true
    | _ => false) && p.2.launch == t.launch && (t.cores1 || p.2.id / p.2.tpcs == t.id / t.tpcs)

/-- Whether a group of saved teams is the next to return (R211): ready, and none of a higher class or ready earlier. -/
def State.nextBack (s : State) (t : Team) : Bool :=
  s.placeable t.ctx && (s.backGroup t).all (fun p => p.2.st == .saved true)
  && !(s.teams.any fun p => p.2.st == .saved true && s.placeable p.2.ctx && (s.backGroup p.2).all (fun q => q.2.st == .saved true)
      && (decide (t.prio < p.2.prio) || (t.prio == p.2.prio && decide (p.2.readyAt < t.readyAt))))

/-- Bring teams back to cores, one each; the members of a cluster set to distinct cores of one cluster. -/
def State.bringBack (s : State) : List ((Nat × Team) × Nat) → Option State
  | [] => some s
  | ((key, t), core) :: l =>
    let mates := (s.setOf t).filter fun p => p.1 != key && p.2.core < 64 && p.2.resident
    if !s.canTake t core || !mates.all (fun p => p.2.core / 4 == core / 4 && p.2.core != core) then none
    else
      let s := (s.copyIn key core).freeGranules t.ctx key
      let s := s.modTeam key fun t => { t with st := .running }
      let s := (s.team key).sids.foldl (fun s sid => s.modStrand sid fun st =>
        if st.halt = .byHalt then st else { st with halt := .none }) s
      s.bringBack l

/-- Cores for teams that return: the first that suit, in turn. (DESIGN CHOICE, log entry 40) -/
def State.backCores (s : State) : List (Nat × Team) → List Nat → Option (List Nat)
  | [], acc => some acc.reverse
  | p :: ps, acc =>
    match (List.range 64).find? fun c => (s.bringBack [(p, c)]).isSome with
    | none => none
    | some c =>
      match s.bringBack [(p, c)] with
      | none => none
      | some s => s.backCores ps (c :: acc)

/-- Whether the return of a saved team with its group, which finds no room, needs the space of a team (R215, R232, R234): the space of halted teams would give it room, on the team's core and for the whole set in its cluster. -/
def State.returnWants (s : State) (t b : Team) : Bool :=
  let s' := s.without b.prio
  let set := (s.backGroup b).filter fun p => p.2.id / p.2.tpcs == b.id / b.tpcs
  b.st == .saved true && decide (t.prio < b.prio) && s.nextBack b
  && (s.backCores (s.backGroup b) []).isNone && (s'.backCores (s.backGroup b) []).isSome
  && !s.canTake b t.core && s'.canTake b t.core
  && decide (set.length ≤ ((List.range 4).filter fun i => s'.canTake b (t.core / 4 * 4 + i)).length)

/-- Whether a placement or a return of a higher class needs the space of a team (R234). -/
def State.roomWanted (s : State) (t : Team) : Bool :=
  (s.launches.any fun p => s.placeWants t p.1 p.2) || (s.teams.any fun p => s.returnWants t p.2)

/-- TEAM_SAVE (R234): team ev.who, halted by pre-emption, is saved because a placement of higher class needs its space. -/
def execTeamSave (s : State) : Out :=
  let t := s.team s.ev.who
  if s.haltedTeam t && s.copyable t && s.roomWanted t
  then match s.saveTeam s.ev.who .preempt with
    | none => .next s
    | some s => .next s
  else .next s

/-- TEAM_RETURN (R211, R232, R234): team ev.who, saved and ready, returns with its group to the cores that ev.bytes lists (the first that suit when it lists none). -/
def execTeamReturn (s : State) : Out :=
  let t := s.team s.ev.who
  let g := s.backGroup t
  if t.st != .saved true || !s.nextBack t then .next s
  else
    let cores := if s.ev.bytes = [] then (s.backCores g []).getD [] else s.ev.bytes.map (·.toNat)
    if cores.length != g.length then .next s
    else match s.bringBack (g.zip cores) with
      | none => .next s
      | some s => .next s

/-! ### Pre-emption (R234, R320) and migration (R236) -/

/-- The resident teams of a context. -/
def State.ctxTeams (s : State) (ctx : Nat) : List (Nat × Team) := s.teams.filter fun p => p.2.ctx == ctx && p.2.st == .running

/-- Halt what can be halted of a pre-empted context: strands outside non-preemptible regions with no entry under way, its programs. (DEDUCED, log entry 47) -/
def State.preemptNow (s : State) (ctx : Nat) : State :=
  let s := (s.ctxTeams ctx).foldl (fun s p => p.2.sids.foldl (fun s sid =>
    let st := s.strand sid
    if st.halt = .none && st.npr.isNone && st.entry.isNone then s.stopStrand sid .preempt else s) s) s
  { s with progs := s.progs.map fun p => if p.2.ctx = ctx ∧ p.2.running = true then (p.1, { p.2 with halted := true }) else p }

/-- Pre-empt a context (R234). -/
def State.preemptCtx (s : State) (ctx : Nat) : State :=
  ({ s with ctxs := mmod s.ctxs ctx fun c => { c with preempted := true } } : State).preemptNow ctx

/-- Whether everything of a pre-empted context has stopped (R234). -/
def State.allHalted (s : State) (ctx : Nat) : Bool :=
  (s.ctxTeams ctx).all fun p => p.2.sids.all fun sid => (s.strand sid).halt != .none

/-- Resume a context (R234): halted resident strands go on, saved teams become ready to return, programs go on. -/
def State.resumeCtx (s : State) (ctx : Nat) : State :=
  let s : State := { s with
    ctxs := mmod s.ctxs ctx fun c => { c with preempted := false }
    progs := s.progs.map fun p => if p.2.ctx = ctx then (p.1, { p.2 with halted := false }) else p }
  let s := (s.ctxTeams ctx).foldl (fun s p => p.2.sids.foldl (fun s sid => s.modStrand sid fun st =>
    if st.halt = .preempt then { st with halt := .none } else st) s) s
  { s with teams := s.teams.map fun p =>
      if p.2.ctx = ctx ∧ p.2.st = .saved false ∧ (p.2.sids.any fun sid => (s.strand sid).halt == .preempt) = true
      then (p.1, { p.2 with st := .saved true, readyAt := s.stepNo }) else p }

/-- Where a migration takes a cluster set (R236): the team itself to the target, its mates to the first free cores of the target's cluster. (DESIGN CHOICE, log entry 12) -/
def State.migrateCores (s : State) (key target : Nat) : Option (List ((Nat × Team) × Nat)) :=
  let t := s.team key
  let mates := (s.setOf t).filter fun p => p.1 != key && p.2.core < 64 && p.2.resident
  let free := (List.range 4).map (target / 4 * 4 + ·) |>.filter (· != target)
  let pick := mates.foldl (fun (acc : Option (List ((Nat × Team) × Nat) × List Nat)) p =>
    match acc with
    | none => none
    | some (l, used) =>
      match free.find? fun c => !used.contains c && (s.canTake p.2 c || p.2.core == c) with
      | none => none
      | some c => some (l ++ [(p, c)], c :: used)) (some ([((key, t), target)], []))
  if s.canTake t target then pick.map (·.1) else none

/-- Migrate a team with its cluster set (R236): release and acquire of R103, copy from core to core; a set that is halted stays halted. -/
def State.migrateTeam (s : State) (moves : List ((Nat × Team) × Nat)) : State :=
  let moves := moves.filter fun m => m.1.2.core != m.2
  let s := moves.foldl (fun s m => s.copyOut m.1.1) s
  moves.foldl (fun s m => s.copyIn m.1.1 m.2) s

end Sys2Proof.Machine
end

