-- ==== Sys2Proof/Machine/Skick.lean ====
section
/-! DEFINITION. What strands do with stream engines (R293 to R295, R304, R311, R312): SKICK, SSTAT, ABFREE, SCOPY. -/

namespace Sys2Proof.Machine

/-! ### SKICK (R293) -/

/-- The lowest-numbered free slot of an engine. -/
def State.freeSlot (s : State) (eng : Nat) : Option Nat := (List.range 64).find? fun i => !(s.prog (eng * 64 + i)).running

/-- The strands whose SKICK waits for a slot of an engine, in the order in which they began to wait. -/
def State.skickWaiters (s : State) (eng : Nat) : List Nat :=
  (mget s.skickQ eng []).filter fun sid =>
    (s.strand sid).halt == .none && (match (s.strand sid).skick with
      | some k => k.eng == eng
      | none => false)

/-- The target set of a strand's SKICK (R292): the teams at cluster positions 0 to 3, each its number + 1. -/
def State.targetSet (s : State) (sid : Nat) : List Nat :=
  let t := s.teamOf sid
  (List.range 4).map fun n =>
    if n < t.tpcs then
      match s.teams.find? fun p => p.2.launch == t.launch && p.2.id == t.id / t.tpcs * t.tpcs + n && p.2.alive with
      | some p => p.1 + 1
      | none => 0
    else 0

/-- Put a program into a slot (R293). (DEDUCED, log entry 53) -/
def State.takeSlot (s : State) (sid n : Nat) (pc c0 c1 : W64) (f : BitVec 4) (trapf : Bool) : State :=
  s.setProg n
    { ctx := s.ctxOf sid, pc := pc, start := pc, c := mset (mset [] 0 c0 0) 1 c1 0, targets := s.targetSet sid
      kicker := sid, flag := f, saved := false, trapf := trapf, gen := (s.prog n).gen + 1, running := true, cmdPc := pc }

/-- SKICK in both forms (R293): its release, then a slot, for which it may have to wait in its turn. -/
def skick (e : Bool) (d g b : BitVec 6) (f : BitVec 4) (t : BitVec 1) : M SOut := do
  portsOk (groupRegs g 3 ++ [b]) [d]
  let bv ← peekM (readSrc b)
  let rs ← readGroup g 3
  dstReady d
  let pc := rs.getD 0 0
  if pc.toNat % 8 != 0 then badOperand
  let eng ← if e then do
      if bv.extractLsb' 4 60 != 0 then badOperand
      pure bv.toNat
    else do
      if bv.extractLsb' 8 56 != 0 then badOperand
      match (← get).handle (← myCtx) bv.toNat with
      | none => badOperand
      | some h =>
        match ← xlateMine (hBase h).toNat {} 0 0 0 (hBase h) with
        | .mem pa _ _ => pure (stackOf pa)
        | _ => pure 0
  releaseM 4
  if !(← get).dieLive (eng / 2) then
    let _ ← readSrc b
    writeDst d (BitVec.ofNat 64 eng)
    advance
  else
    let s ← get
    let sid := s.cur
    let ws := s.skickWaiters eng
    let first := ws == [] || ws.headD 0 == sid
    match if first then s.freeSlot eng else none with
    | some i =>
      incFlagPkg f
      let _ ← readSrc b
      modify fun s => { s with skickQ := mset s.skickQ eng ((mget s.skickQ eng []).filter (· != sid)) [] }
      modify fun s => s.takeSlot sid (eng * 64 + i) pc (rs.getD 1 0) (rs.getD 2 0) f (t == 1)
      modMe fun st => { st with skick := none }
      writeDst d (BitVec.ofNat 64 ((← get).ticket (eng * 64 + i)))
      advance
    | none =>
      if ws.contains sid then waitM
      else
        modify fun s => { s with skickQ := mset s.skickQ eng ((mget s.skickQ eng []).filter (· != sid) ++ [sid]) [] }
        modMe fun st => { st with skick := some { eng := eng, e := e, d := d, g := g, b := b, f := f, t := t } }
        return { pc := (← me).pc }

/-- SKICK_H (R293). -/
def execSkickH (d g b : BitVec 6) (f : BitVec 4) (t : BitVec 1) (s : State) : Out := scalar (skick false d g b f t) s
/-- SKICK_E (R293). -/
def execSkickE (d g b : BitVec 6) (f : BitVec 4) (t : BitVec 1) (s : State) : Out := scalar (skick true d g b f t) s

/-- SKICK_SLOT_GRANT (R293): a slot of engine ev.core is free, and the SKICK that has waited longest takes it. -/
def execSkickSlotGrant (s : State) : Out :=
  match s.skickWaiters s.ev.core with
  | [] => .next s
  | sid :: _ =>
    match (s.strand sid).skick with
    | none => .next s
    | some k =>
      if (s.freeSlot s.ev.core).isNone || !s.mayIssue sid then .next s
      else
        let w := match s.fetchScalar sid with
          | .got w _ => w
          | _ => 0
        scalar (skick k.e k.d k.g k.b k.f k.t) { s with cur := sid, curWord := w.setWidth 96 }

/-! ### SSTAT (R294, R295) -/

/-- The status word of a slot's program (R295): FPC and CMD are of the command that it has fetched last. (DEDUCED, log entry 42) -/
def State.statusWord (s : State) (n : Nat) : W64 :=
  let p := s.prog n
  let st := if !p.running then 3 else if p.halted then 2 else if p.waiting then 1 else 0
  BitVec.ofNat 64 (((p.cmdPc - p.start).toNat % 2 ^ 32) * 2 ^ 32 + p.code.toNat * 2 ^ 24 + p.cmd.toNat * 2 ^ 18 + st * 2 ^ 16
    + p.detail.toNat * 2 ^ 8 + p.sticky.toNat * 4)

/-- The slot that a ticket of a context names (R294). (DEDUCED, log entry 42) -/
def State.ticketSlot (s : State) (ctx : Nat) (tk : W64) : Option Nat :=
  let n := (tk.extractLsb' 0 4).toNat * 64 + (tk.extractLsb' 4 6).toNat
  match mget? s.progs n with
  | none => none
  | some p =>
    if tk.extractLsb' 10 6 == 0 && tk.extractLsb' 32 32 == 0 && p.gen == tk.extractLsb' 16 16 && p.ctx == ctx then some n else none

/-- What SSTAT reads for a ticket (R293, R294, R321): a program that ended with its die keeps CODE 0x10, any other ticket of an absent engine reads 0x07. (DEDUCED, log entry 42) -/
def State.ticketWord (s : State) (ctx : Nat) (tk : W64) : W64 :=
  let absent := !s.dieLive ((tk.extractLsb' 0 4).toNat / 2)
  match s.ticketSlot ctx tk with
  | some n => if absent && (s.prog n).code != 0x10 then 0x07030000 else s.statusWord n
  | none => if absent then 0x07030000 else 0xFF000000

/-- SSTAT (R294). -/
def execSstat (d a : BitVec 6) (s : State) : Out := scalar (do
  portsOk [a] [d]
  let tk ← readSrc a
  writeDst d ((← get).ticketWord (← myCtx) tk)
  advance) s

/-- SSTAT_CANCEL (R294): the program also stops at its next command boundary. -/
def execSstatCancel (d a : BitVec 6) (s : State) : Out := scalar (do
  portsOk [a] [d]
  let tk ← readSrc a
  let c ← myCtx
  let w := (← get).ticketWord c tk
  match (← get).ticketSlot c tk with
  | some n => modify fun s => s.modProg n fun p => { p with cancel := p.running }
  | none => pure ()
  writeDst d w
  advance) s

/-! ### ABFREE (R304) -/

/-- Whether a copy is tied to a barrier of a team. -/
def Copy.names (c : Copy) (key boff : Nat) : Bool := c.bar && c.boff == boff && c.tgts.contains (key + 1)

/-- Whether an accepted stream or matrix command, or a SCOPY, names the barrier at an O offset of a team, at offset off of its store. -/
def State.barrierNamed (s : State) (key : Nat) (t : Team) (off : Nat) : Bool :=
  let boff := off - (s.teamO t).1
  (s.progs.any fun p =>
    match p.2.cur with
    | none => false
    | some c =>
      match s.curCopy p.1 c with
      | none => c.op == .notifyCredit && (c.w.w1.extractLsb' 0 26).toNat == boff
          && p.2.targets.getD (c.w.w1.extractLsb' 26 2).toNat 0 == key + 1
      | some cp => p.2.running && cp.names key boff)
  || (s.scopies.any fun q => q.2.any fun c => c.team == key && c.w.w0.getLsbD 48 && (c.w.w3.extractLsb' 0 26).toNat == boff)
  || ((s.mxq.flatMap (·.2)).any fun c => (s.strand c.sid).team == key && (c.kind == .dense || c.kind == .sparse)
      && stP (c.regs.getD 5 0) != 0 && osTag t.obase + stBoff (c.regs.getD 4 0) == off)

/-- ABFREE (R304). -/
def execAbfree (a : BitVec 6) (s : State) : Out := scalar (do
  portsOk [a] []
  let o ← readSrc a
  let (core, off) ← abAt o.toNat
  let st ← me
  let s ← get
  if s.barrierNamed st.team (s.team st.team) off then badOperand
  modify fun s =>
    let s := s.osWrite core off (leBytes 32 0)
    let l := s.osLine core (off / 256)
    s.setOsLine core (off / 256) { l with barr := l.barr &&& ~~~(1#8 <<< (off % 256 / 32)) }
  advance) s

/-! ### SCOPY (R311, R312) -/

/-- The copies that a die's copy path has accepted, oldest first. -/
def State.dieCopies (s : State) (die : Nat) : List Scopy := mget s.scopies die []

/-- Write them. -/
def State.setDieCopies (s : State) (die : Nat) (l : List Scopy) : State := { s with scopies := mset s.scopies die l [] }

/-- The words of the TILE or STORE that a SCOPY stands for (R311): with PITCH 0, cB and N 0. -/
def scopyWords (z b : BitVec 1) (r0 r1 r2 : W64) : StreamW :=
  { w0 := (r0.extractLsb' 41 3).setWidth 64 <<< 53 ||| (r0.extractLsb' 39 1).setWidth 64 <<< 57 ||| (r0.extractLsb' 40 1).setWidth 64 <<< 56
      ||| z.setWidth 64 <<< 49 ||| b.setWidth 64 <<< 48 ||| (r0.extractLsb' 56 8).setWidth 64 <<< 40
      ||| (r0.extractLsb' 44 2).setWidth 64 <<< 34 ||| (r0.extractLsb' 0 26).setWidth 64
    w1 := r1, w2 := (r2.extractLsb' 0 16).setWidth 64 <<< 8, w3 := (r2.extractLsb' 16 26).setWidth 64 }

/-- The copy of an accepted SCOPY. -/
def Scopy.copy (c : Scopy) : Copy := tileCopy (!c.store) false c.w c.h [c.team + 1] c.coords c.ph

/-- Whether the region of a copy lies within its target's O; without a barrier at BOFF the stage is not known and the copy stops when it runs. -/
def State.regionInside (s : State) (c : Copy) (t : Team) : Bool :=
  let (b, len) := s.teamO t
  (!c.bar || decide (c.boff + 32 ≤ len))
  && (let base := if c.bar && !s.hasBarrier t.core (b + c.boff) then c.dst else s.unitOff c t 0
      decide (base + (c.rows - 1) * c.pitch' + c.rowb ≤ len))

/-- SCOPY in both directions (R311, R312). -/
def scopy (store : Bool) (l : BitVec 3) (p : BitVec 6) (f : BitVec 4) (z b : BitVec 1) : M SOut := do
  portsOk (groupRegs p 3) []
  let rs ← readGroup p 3
  let st ← me
  let m := st.predMask l.toNat
  if m = 0 then advance
  else
    let lead := lowBit 64 m.toNat
    let r0 := rs.getD 0 0
    let r2 := rs.getD 2 0
    let nd := (r0.extractLsb' 44 2).toNat + 1
    let vc := (r0.extractLsb' 46 10).toNat
    let top := vc + nd - 1
    let rel := r0.getLsbD 40
    let acq := r0.getLsbD 39
    let sc := r0.extractLsb' 41 3
    let fa : W64 := (r0.extractLsb' 0 26).setWidth 64
    if st.budget ≤ top && top < 960 then trapM 0x03
    if 960 ≤ top || !scopeOk sc || (sc != 0 && !acq && !rel) || r0.extractLsb' 26 13 != 0
      || r2.extractLsb' 42 6 != 0 || (b = 0 && r2 != 0) then badOperand
    let w := scopyWords z b r0 (rs.getD 1 0) r2
    match (← get).handle (← myCtx) (r0.extractLsb' 56 8).toNat with
    | none => badOperand
    | some h =>
      let keys := (List.range nd).map fun d => vKey (vc + d) lead
      let bad := keys.any fun k => st.vpois.contains k
      let coords := keys.map fun k => if st.vpois.contains k then 0 else (mget st.v k 0).toNat
      let c : Scopy := { sid := (← get).cur, team := st.team, flag := f, lead := lead, store := store, w := w, h := h
                         coords := coords, ph := (r2.extractLsb' 48 16).toNat }
      if !c.copy.fieldsOk w.w1 then badOperand
      if !(← get).regionInside c.copy (← myTeam) then trapM 0x06 fa
      let die ← myDie
      waitUnless (decide (((← get).dieCopies die).length < 256))
      incFlagPkg f
      modMe fun st => { st with held := st.held ++ poisonHeld bad 0 (BitVec.ofNat 64 (2 ^ lead)) }
      modify fun s => s.setDieCopies die (s.dieCopies die ++ [c])
      advance

/-- SCOPY_LD (R311). -/
def execScopyLd (l : BitVec 3) (p : BitVec 6) (f : BitVec 4) (z b : BitVec 1) (s : State) : Out := scalar (scopy false l p f z b) s
/-- SCOPY_ST (R311). -/
def execScopySt (l : BitVec 3) (p : BitVec 6) (f : BitVec 4) (z b : BitVec 1) (s : State) : Out := scalar (scopy true l p f z b) s

/-- A SCOPY leaves the copy path: its flag falls; a fault is a held cause 0x0B of its strand (R312). -/
def State.endScopy (s : State) (die i : Nat) (c : Scopy) (fault : Option Nat) : State :=
  let s := s.setDieCopies die (dropAt (s.dieCopies die) i)
  let s := s.decFlag c.sid c.flag.toNat c.saved
  match fault with
  | none => s
  | some a => s.holdCause c.sid { code := 0x0B, tmask := BitVec.ofNat 64 (2 ^ c.lead), faddr := BitVec.ofNat 64 a }

/-- The address or O offset at which a copy fails its check (R312). -/
def Copy.failAt (c : Copy) (e : Byte) : Nat := if e = 0x02 then c.firstOut else if e = 0x09 then c.boff else c.dst

/-- What a copy has read that was expired is noted in lstat of its leader lane (R312); lstat has no bit for POIS (R145). (DEDUCED, log entry 38) -/
def State.scopyNote (s : State) (c : Scopy) (x : BitVec 6) : State :=
  if x &&& stEXPL = 0 then s
  else s.modStrand c.sid fun st => st.land1 { due := 0, key := lstatKey c.lead, val := cEXPL.setWidth 32, merge := true }

/-- Change the SCOPY at a place of a copy path. -/
def State.setCopy (s : State) (die i : Nat) (c : Scopy) : State := s.setDieCopies die (setAt (s.dieCopies die) i c)

/-- The SCOPY at a place of a die's copy path copies its next chunk (R289, R320), and completes after the last. (DEDUCED, log entry 56) -/
def State.scopyChunk (s : State) (die i : Nat) (c : Scopy) : State :=
  let cp := c.copy
  let g : Eng := { ctx := s.ctxOf c.sid, die := die, agent := 3, unitNo := die, who := c.sid }
  let m := Nat.min (chunkUnits cp.destBytes) (cp.units - c.pos)
  match runE (unitsFrom (tileUnit g cp) m c.pos) { s := s } with
  | .ok (_, r) =>
    let s := r.s.scopyNote c r.sticky
    if c.pos + m < cp.units then s.setCopy die i { c with pos := c.pos + m }
    else ((s.engRelease (c.w.w0.getLsbD 56) (c.w.w0.extractLsb' 53 3).toNat).copyBarriers cp).endScopy die i c none
  | .error (.wait r) => (r.s.scopyNote c r.sticky).setCopy die i { c with pos := c.pos + r.done }
  | .error (.park p _ r) =>
    ((r.s.scopyNote c r.sticky).setCopy die i { c with pos := c.pos + r.done, park := some p }).raiseFault die die c.sid p
  | .error (.stop _ a d r) => ((r.s.scopyNote c r.sticky).logDenied g.ctx d).endScopy die i c (some a)

/-- SCOPY_COMPLETE (R311, R312, R320): the SCOPY at place ev.idx of die ev.core's copy path goes on by a chunk once its window or phase allows, and completes; not while its context is pre-empted. -/
def execScopyComplete (s : State) : Out :=
  let die := s.ev.core
  match (s.dieCopies die)[s.ev.idx]? with
  | none => .next s
  | some c =>
    if c.park.isSome || s.ctxHalted (s.ctxOf c.sid) then .next s
    else if 0 < c.pos then .next (s.scopyChunk die s.ev.idx c)
    else match s.checkCopy c.copy with
      | .error e => .next (s.endScopy die s.ev.idx c (some (c.copy.failAt e)))
      | .ok () => if s.copyOpen c.copy then .next (s.scopyChunk die s.ev.idx c) else .next s

end Sys2Proof.Machine
end

