-- ==== Sys2Proof/Machine/Translate.lean ====
section
/-! DEFINITION. The answers to translation faults (R87): walks, Retry, Deliver, for every agent that parks an access. -/

namespace Sys2Proof.Machine

/-- TRANSLATION_WALK (R86, R87): a walk of translation unit ev.core for context ev.who and address ev.addr finishes: a valid leaf is installed. -/
def execTranslationWalk (s : State) : Out :=
  let va := s.ev.addr % 2 ^ 64
  match s.walk s.ev.who va with
  | .error _ => .next s
  | .ok e => .next (if s.ev.core ≤ 8 then s.install s.ev.core s.ev.who va e else s)

/-- Whether a parked access waits for an answer about a page of a context: any page on which lanes of it faulted (R87, R193). -/
def Park.on (p : Park) (ctx page : Nat) : Bool :=
  p.ctx == ctx && (p.page == page || p.more.any fun m => m.1 == page) && !p.delivered

/-- Whether an optional park does. -/
def parkedOn (p : Option Park) (ctx page : Nat) : Bool :=
  match p with
  | some p => p.on ctx page
  | none => false

/-- The translation unit that an access of a strand was made at: its die's, or the Basin walker for the descriptor of a COLL (R364) and for an H access (R86). -/
def Park.xunit (p : Park) (die : Nat) : Nat := if p.agent = 4 || p.agent = 5 then 8 else die

/-- Whether a strand's parked access waits for an answer of a translation unit about a page. -/
def Park.at (p : Park) (xu die ctx page : Nat) : Bool := p.on ctx page && p.xunit die == xu

/-- Whether an optional one does. -/
def parkedAt (p : Option Park) (xu die ctx page : Nat) : Bool :=
  match p with
  | some p => p.at xu die ctx page
  | none => false

/-- A park that the answer has ended. -/
def unparked (p : Option Park) (ctx page : Nat) : Option Park := if parkedOn p ctx page then none else p

/-- Retry (R87): every access parked on the page at a translation unit (8: the Basin walker) is made again from its walk. -/
def State.retryPage (s : State) (xu ctx page : Nat) : State :=
  let u := fun p => unparked p ctx page
  { s with
    strands := s.strands.map fun p =>
      let v := fun (x : Option Park) => if parkedAt x xu (dieOf (coreOf p.1)) ctx page then none else x
      (p.1, { p.2 with parkS := v p.2.parkS, parkL := v p.2.parkL, entryPark := v p.2.entryPark })
    progs := s.progs.map fun p => if p.1 / 128 = xu then (p.1, { p.2 with park := u p.2.park, onIndex := p.2.onIndex && !parkedOn p.2.park ctx page }) else p
    scopies := s.scopies.map fun p => if p.1 = xu then (p.1, p.2.map fun (c : Scopy) => { c with park := u c.park }) else p
    appends := s.appends.map fun a => if a.die = xu then { a with park := u a.park } else a
    quiets := s.quiets.map fun q => if xu = 8 then { q with park := u q.park } else q
    colls := s.colls.map fun c => if xu = 8 then { c with park := u c.park } else c
    queues := s.queues.map fun p => if xu = 8 then (p.1, { p.2 with park := u p.2.park }) else p
    launches := s.launches.map fun p => if xu = 8 then (p.1, { p.2 with park := u p.2.park }) else p }

/-- The handler answers Retry to the fault record at a place. -/
def State.answerRetry (s : State) (i : Nat) : State :=
  match s.faults[i]? with
  | none => s
  | some f => ({ s with faults := dropAt s.faults i } : State).retryPage f.xunit f.park.ctx f.park.page

/-- Whether a fault record was posted to the host, which alone answers it (R377). -/
def State.hostAnswers (s : State) (i : Nat) : Bool :=
  match s.faults[i]? with
  | none => false
  | some f => s.svc.any fun e => e.ty == 1 && e.body == f.words

/-- RETRY (R87): Ultik answers Retry to the fault record at place ev.idx. -/
def execRetry (s : State) : Out := .next (if s.hostAnswers s.ev.idx then s else s.answerRetry s.ev.idx)

/-! ### Deliver -/

/-- The translation trap of a strand's parked scalar access (R87, R131). -/
def State.deliverScalar (s : State) (sid : Nat) (p : Park) : State :=
  let st := s.strand sid
  let w := match s.fetchScalar sid with
    | .got w _ => w
    | _ => 0
  s.takeTrap sid { code := 0x08, sfault := true, epc := some st.pc, sword := w, faddr := if p.kind = 3 then 0 else p.va }

/-- The translation trap of a strand's parked lane access (R87, R131). -/
def State.deliverLane (s : State) (sid : Nat) (p : Park) : State :=
  s.takeTrap sid { code := 0x08, lfault := true, sideB := p.sideB, unitNo := some p.unitNo, lword := p.word
                   tmask := p.tmask, faddr := if p.kind = 3 then 0 else p.va, fA := p.fA, fB := p.fB }

/-- A strand takes the translation trap of an access that has been answered Deliver: one of the scalar stream before one of the lane stream (R135). -/
def State.takeDelivered (s : State) (sid : Nat) : State :=
  match (s.strand sid).parkS.filter (·.delivered), (s.strand sid).parkL.filter (·.delivered) with
  | some p, _ => s.deliverScalar sid p
  | none, some q => s.deliverLane sid q
  | none, none => s

/-- Deliver to one strand (R87, R136): a parked record write of a trap entry is a double trap; a strand that may not issue now traps when it may. -/
def State.deliverStrand (s : State) (sid xu ctx page : Nat) : State :=
  let st := s.strand sid
  let die := dieOf (coreOf sid)
  if parkedAt st.entryPark xu die ctx page then
    (s.modStrand sid fun st => { st with entry := none, entryPark := none }).doubleTrap sid
  else
    let d := fun (p : Option Park) => p.map fun (x : Park) => if x.at xu die ctx page then { x with delivered := true } else x
    let s := s.modStrand sid fun st => { st with parkS := d st.parkS, parkL := d st.parkL }
    if s.mayTrap sid then s.takeDelivered sid else s

/-- The lanes whose items an answer about a page loses (R87, R226): those whose slots lie on the page, or all, where the descriptor lies there or cannot be read. -/
def State.lostSlots (s : State) (a : Append) (page : Nat) : List Nat :=
  let all := a.items.map (·.1)
  if page == a.desc / 65536 then all
  else match s.xlate a.die a.ctx a.desc { w := true } .mem with
    | .error _ => all
    | .ok r =>
      let d := s.wlDesc r.pa
      ((a.items.zip (List.range a.items.length)).filter fun x => d.slot (a.first + x.2) / 65536 == page).map fun x => x.1.1

/-- Deliver to the append at a place (R87, R226): one that has no slots yet ends; of a reserved one the items are lost, each told once, and its slots are still committed in their turn. -/
def State.deliverAppend (s : State) (i : Nat) (a : Append) (p : Park) : State :=
  if !a.reserved then ({ s with appends := dropAt s.appends i } : State).loseItems a (a.items.map (·.1)) p.va.toNat
  else
    let ls := (s.lostSlots a p.page).filter fun L => !a.lost.contains L
    let s := s.setAppend i { a with park := none, lost := a.lost ++ ls }
    if ls = [] then s else s.loseItems a ls p.va.toNat

/-- Deliver to a die's copy path (R312). -/
def State.deliverScopies (s : State) (die ctx page : Nat) : Nat → State
  | 0 => s
  | n + 1 =>
    match (s.dieCopies die)[n]? with
    | none => s.deliverScopies die ctx page n
    | some c =>
      match c.park with
      | none => s.deliverScopies die ctx page n
      | some p => if p.on ctx page then (s.endScopy die n c (some p.va.toNat)).deliverScopies die ctx page n else s.deliverScopies die ctx page n

/-- Deliver to the appends of a die, from the last one down. (DEDUCED, log entry 41) -/
def State.deliverAppends (s : State) (die ctx page : Nat) : Nat → State
  | 0 => s
  | n + 1 =>
    match s.appends[n]? with
    | none => s.deliverAppends die ctx page n
    | some a =>
      match a.park with
      | none => s.deliverAppends die ctx page n
      | some p => if a.die == die && p.on ctx page then (s.deliverAppend n a p).deliverAppends die ctx page n else s.deliverAppends die ctx page n

/-- Deliver to the strands whose accesses were made at a translation unit. (DEDUCED, log entry 41) -/
def State.deliverStrands (s : State) (xu ctx page : Nat) : State :=
  s.strands.foldl (fun s p => s.deliverStrand p.1 xu ctx page) s

/-- Deliver to the engines behind a die's translation unit (R87, R291, R298). -/
def State.deliverDie (s : State) (die ctx page : Nat) : State :=
  let s := (s.progs.filter fun p => p.1 / 128 == die && parkedOn p.2.park ctx page).foldl (fun s p =>
    s.endProg p.1 (if p.2.onIndex then 0x0D else 0x05) 0) s
  (s.deliverScopies die ctx page (s.dieCopies die).length).deliverAppends die ctx page s.appends.length

/-- Deliver to the launch unit (R87, R202, R208). -/
def State.deliverLaunch (s : State) (ctx page : Nat) : State :=
  let s := (s.queues.filter fun p => parkedOn p.2.park ctx page).foldl (fun s p => s.recordLost p.1) s
  (s.launches.filter fun p => parkedOn p.2.park ctx page).foldl (fun s p =>
    let s := s.modLaunch p.1 fun l => { l with park := none }
    if p.2.checked then s.recordErr p.1 else s.judge p.1 none) s

/-- Deliver to the termination detector (R87). -/
def State.deliverQuiet (s : State) (ctx page : Nat) : State :=
  (s.quiets.filter fun q => parkedOn q.park ctx page).foldl (fun s q => match q.park with
    | some p => s.quietLost ctx q.group p.va.toNat
    | none => s) s

end Sys2Proof.Machine
end

