-- ==== Sys2Proof/Machine/Coll.lean ====
section
/-! DEFINITION. The collective engine (R362 to R369, R390): COLL, the canonical tree of R37 over local and remote contributions, aborts, messages of remote collectives; and the answer Deliver, which can abort a collective (R87). -/

namespace Sys2Proof.Machine

/-! ### Descriptors (R363) -/

/-- Fields of a group descriptor, as 64-bit words. -/
def dGid (d : List W64) : Nat := (d.getD 0 0).toNat % 2 ^ 32
def dP (d : List W64) : Nat := (d.getD 0 0).toNat / 2 ^ 32 % 2 ^ 16
def dRemote (d : List W64) (r : Nat) : Bool := (d.getD (8 + r) 0).getLsbD 63
def dPort (d : List W64) (r : Nat) : Nat := ((d.getD (8 + r) 0).extractLsb' 56 5).toNat

/-- Whether a descriptor's reserved bits are 0 and its P is in range. -/
def descOk (d : List W64) : Bool :=
  let p := dP d
  1 ≤ p && p ≤ 1024 && (d.getD 0 0).extractLsb' 48 16 == 0 && ((List.range 7).all fun i => d.getD (1 + i) 0 == 0)
  && (List.range p).all fun r =>
    let e := d.getD (8 + r) 0
    e.extractLsb' 61 2 == 0 && e.extractLsb' 0 56 == 0 && (dRemote d r || dPort d r == 0)

/-- The ports of the other packages that hold a rank. (DEDUCED, log entry 44) -/
def remotePorts (d : List W64) : List Nat :=
  (List.range (dP d)).foldl (fun l r => if dRemote d r && !l.contains (dPort d r) then l ++ [dPort d r] else l) []

/-- The elements of a handle: the product of its extents (R364). -/
def elemsOf (h : BitVec 2048) : Nat := (List.range (hRank h)).foldl (fun a d => a * hExtent h d) 1

/-- The index of element e, dimension 0 fastest (R365). -/
def elemIdx (h : BitVec 2048) (e : Nat) : List Nat :=
  ((List.range (hRank h)).foldl (fun (a : List Nat × Nat) d => (a.1 ++ [a.2 % hExtent h d], a.2 / hExtent h d)) ([], e)).1

/-! ### The operation (R365) -/

/-- One operation on two elements: op codes 0 sum, 1 max, 2 min, 3 and, 4 or, 5 xor; formats 0 f32, 5 i32, 6 n32, 12 rk16, 13 b32. -/
def collOp (op fmt a b : Nat) : Nat :=
  let s := sval 32
  match op with
  | 0 => if fmt = 0 then fadd32 a b else (a + b) % 2 ^ 32
  | 1 => if fmt = 0 then (minMaxF f32 true false a b).1 else if fmt = 5 then (if s a < s b then b else a) else Nat.max a b
  | 2 => if fmt = 0 then (minMaxF f32 false false a b).1 else if fmt = 5 then (if s b < s a then b else a) else Nat.min a b
  | 3 => a &&& b
  | 4 => a ||| b
  | _ => a ^^^ b

/-- The number of values at a level of the tree (R37): P, then half of it, rounded up. -/
def levelSize (p : Nat) : Nat → Nat
  | 0 => p
  | j + 1 => (levelSize p j + 1) / 2

/-- The level of the root. -/
def rootLevel (p : Nat) : Nat := ((List.range 11).find? fun j => levelSize p j ≤ 1).getD 10

/-! ### Groups -/

/-- The accepted COLLs that match in this package (R365). -/
def State.collGroup (s : State) (ctx gid k : Nat) : List Coll := s.colls.filter fun c => c.ctx == ctx && c.gid == gid && c.k == k

/-- Whether matched COLLs disagree (R365). -/
def groupMismatch (g : List Coll) : Bool :=
  match g with
  | [] => false
  | c :: cs => cs.any fun d =>
      d.op != c.op || hFmt d.hs != hFmt c.hs || elemsOf d.hs != elemsOf c.hs || d.p != c.p || d.desc != c.desc || d.rank == c.rank

/-- Whether every local rank of a group has been accepted. -/
def groupFull (g : List Coll) : Bool :=
  match g with
  | [] => false
  | c :: _ => (List.range c.p).all fun r => dRemote c.desc r || g.any fun d => d.rank == r

/-! ### Messages (R366, R390) -/

/-- The class of a collective's messages. -/
def Coll.cls (c : Coll) : Nat := if hFmt c.hs = 12 then 2 else 3

/-- The header of a message. -/
def Coll.header (c : Coll) (len kind j i first count : Nat) : List Byte :=
  leBytes 4 len ++ leBytes 1 kind ++ leBytes 1 c.op.toNat ++ leBytes 1 (hFmt c.hs) ++ leBytes 1 j ++ leBytes 4 c.gid ++ leBytes 4 c.k
  ++ leBytes 2 i ++ leBytes 2 c.p ++ leBytes 4 first ++ leBytes 4 count ++ leBytes 4 0

/-- Elements that one message carries at most: 65,536 bytes. -/
def Coll.perMsg (c : Coll) : Nat := if hFmt c.hs = 12 then 32768 else 16384

/-- The values of a message. -/
def Coll.values (c : Coll) (vs : List Nat) : List Byte :=
  if hFmt c.hs = 12 then vs.flatMap (leBytes 2 ·) ++ (if vs.length % 2 = 1 then leBytes 2 0 else []) else vs.flatMap (leBytes 4 ·)

/-- The messages that carry values of a collective, from element e0 on. -/
def Coll.msgs (c : Coll) (kind j i e0 : Nat) (vs : List Nat) : List Msg :=
  (List.range ((vs.length + c.perMsg - 1) / c.perMsg)).map fun n =>
    let mine := (vs.drop (n * c.perMsg)).take c.perMsg
    let bs := c.values mine
    { cls := c.cls, ctx := c.ctx, bytes := c.header bs.length kind j i (e0 + n * c.perMsg) mine.length ++ bs }

/-- An abort or mismatch message: like every message of its context, it waits while the context is pre-empted (R369). -/
def Coll.abortMsg (c : Coll) (mismatch : Bool) : Msg :=
  { cls := c.cls, ctx := c.ctx, bytes := c.header 0 (if mismatch then 3 else 2) 0 0 0 0 }

/-- Whether the access table of a port lets a context receive (R) or send (W) through it (R380). -/
def State.portMay (s : State) (p ctx : Nat) (write : Bool) : Bool := (s.accEntry 3 p ctx).getLsbD (if write then 1 else 0)

/-! ### Aborts (R368) -/

/-- Why a collective is aborted: a translation Deliver on the access of a rank, a permission denial, a die loss (R369), a mismatch, another cause. -/
inductive AbortBy where
  | deliver (rank : Nat) (va : W64)
  | denied
  | dieLoss
  | mismatch
  | other
  deriving DecidableEq, Repr

/-- The cause that an abort gives a participant; a die loss gives its own (R237, R369). -/
def AbortBy.cause (b : AbortBy) (c : Coll) : Option Held :=
  match b with
  | .deliver r va => if c.rank = r then some { code := 0x08, faddr := va } else some { code := 0x05, faddr := c.gd }
  | .denied => some { code := 0x07, faddr := c.gd }
  | .dieLoss => none
  | _ => some { code := 0x05, faddr := c.gd }

/-- Abort a collective (R368): its other packages are told, unless it was aborted before; flags of surviving participants fall, and they trap at their next issue. (DEDUCED, log entry 44) -/
def State.collAbort (s : State) (ctx gid k : Nat) (b : AbortBy) : State :=
  let g := s.collGroup ctx gid k
  match g with
  | [] => s
  | c0 :: _ =>
    let again := s.collDead.any fun d => d.ctx == ctx && d.gid == gid && d.k == k
    let s : State := { s with
      colls := s.colls.filter fun c => !(c.ctx == ctx && c.gid == gid && c.k == k)
      collParts := s.collParts.filter fun p => !(p.ctx == ctx && p.gid == gid && p.k == k)
      collDead := if again then s.collDead else s.collDead ++ [{ c0 with park := none }] }
    let s := if again then s else (remotePorts c0.desc).foldl (fun s p =>
      if s.portMay p ctx true then s.sendMsg p (c0.abortMsg (b == .mismatch)) else s.deny 3 p ctx 1 0) s
    g.foldl (fun s c =>
      if (mget? s.strands c.sid).isSome && (s.strand c.sid).team == c.team then
        match b.cause c with
        | some h => (s.decFlag c.sid c.flag.toNat c.saved).holdCause c.sid h
        | none => s.decFlag c.sid c.flag.toNat c.saved
      else s) s

/-- Abort the collectives of a context. -/
def State.abortAll (s : State) (ctx : Nat) (b : AbortBy) : State :=
  s.colls.foldl (fun s c => if c.ctx = ctx then s.collAbort ctx c.gid c.k b else s) s

/-! ### Arrival of messages (R390) -/

/-- Fields of the header of a message of class 2 or 3. -/
def mKind (m : List Byte) : Nat := fld m 4 1
def mGid (m : List Byte) : Nat := fld m 8 4
def mK (m : List Byte) : Nat := fld m 12 4
def mLevel (m : List Byte) : Nat := fld m 7 1
def mIdx (m : List Byte) : Nat := fld m 16 2
def mFirst (m : List Byte) : Nat := fld m 20 4
def mCount (m : List Byte) : Nat := fld m 24 4

/-- Whether a COLL's descriptor names a port for the rank that sends a message: for a partial value the owner of its place in the tree, for a root result rank 0 (R366, R390). -/
def Coll.expects (c : Coll) (p : Nat) (m : List Byte) : Bool :=
  let named := fun r => r < c.p && dRemote c.desc r && dPort c.desc r == p
  c.gid == mGid m && c.k == mK m &&
    (match mKind m with
     | 0 => named (mIdx m * 2 ^ mLevel m)
     | 1 => named 0
     | _ => (List.range c.p).any named)

/-- Whether the header of a partial value or root result agrees with the local COLL (R390). -/
def Coll.agrees (c : Coll) (m : List Byte) : Bool :=
  fld m 5 1 == c.op.toNat && fld m 6 1 == hFmt c.hs && fld m 18 2 == c.p
  && decide (mFirst m + mCount m ≤ elemsOf c.hs)
  && fld m 0 4 == (if hFmt c.hs = 12 then (mCount m + 1) / 2 * 4 else mCount m * 4)
  && (mKind m == 1 || decide (mIdx m < levelSize c.p (mLevel m)))

/-- The values of a message. -/
def mVals (fmt : Nat) (m : List Byte) : List W32 :=
  (List.range (mCount m)).map fun i => BitVec.ofNat 32 (if fmt = 12 then fld m (32 + 2 * i) 2 else fld m (32 + 4 * i) 4)

/-- A denial returned to a peer (R381, R390): class 1, KIND 3, the first 32 bytes of the denied message. -/
def denialMsg (m : List Byte) : Msg :=
  let data := (m ++ List.replicate 32 0).take 32
  { cls := 1, bytes := leBytes 4 32 ++ leBytes 1 3 ++ leBytes 3 0 ++ leBytes 8 0 ++ data }

/-- Bytes of the messages that a port holds. -/
def Port.heldBytes (x : Port) : Nat := x.heldMsgs.foldl (fun a m => a + m.bytes.length) 0

/-- Hold a message whose COLL is not accepted yet: beyond 1 MiB its permits are withheld. (DEDUCED, log entry 44) -/
def State.holdMsg (s : State) (p : Nat) (m : List Byte) : State :=
  let x := s.port p
  s.setPort p { x with heldMsgs := x.heldMsgs ++ [{ cls := 3, bytes := m, kept := decide (2 ^ 20 < x.heldBytes + m.length) }] }

/-- A message of a remote collective has arrived at a port (R366, R368, R390): one that names an aborted collective at one of its ports is dropped; one that the access table does not allow aborts its collective. -/
def State.collArrive (s : State) (p : Nat) (m : List Byte) : State :=
  match s.colls.find? fun c => c.expects p m with
  | none => if s.collDead.any fun d => d.expects p m then s else s.holdMsg p m
  | some c =>
    if !s.portMay p c.ctx false then ((s.deny 3 p c.ctx 0 0).sendMsg p (denialMsg m)).collAbort c.ctx c.gid c.k .denied
    else if 2 ≤ mKind m then s.collAbort c.ctx c.gid c.k .other
    else if !c.agrees m then s.collAbort c.ctx c.gid c.k .mismatch
    else { s with collParts := s.collParts ++
      [{ ctx := c.ctx, gid := c.gid, k := c.k, level := mLevel m, idx := mIdx m, root := mKind m == 1, first := mFirst m, vals := mVals (hFmt c.hs) m }] }

/-- Messages that a port has held are delivered once their COLL is accepted; permits that were withheld are owed. -/
def State.unhold (s : State) (p gid k : Nat) : State :=
  let x := s.port p
  let mine := x.heldMsgs.filter fun m => mGid m.bytes == gid && mK m.bytes == k
  if mine = [] then s
  else
    let x : Port := { x with heldMsgs := x.heldMsgs.filter fun m => !(mGid m.bytes == gid && mK m.bytes == k) }
    let x := mine.foldl (fun (x : Port) m => if m.kept then x.owe (if fld m.bytes 6 1 = 12 then 2 else 3) (flitsOf m.bytes.length) else x) x
    mine.foldl (fun s m => s.collArrive p m.bytes) (s.setPort p x)

/-- COLL_MESSAGE (R366, R390): a partial value or root result, ev.bytes, arrives at port ev.who. -/
def execCollMessage (s : State) : Out :=
  .next (if (s.port s.ev.who).up && mKind s.ev.bytes ≤ 1 then s.collArrive s.ev.who s.ev.bytes else s)

/-- ABORT_MESSAGE (R368, R390): an abort or mismatch message, ev.bytes, arrives at port ev.who. -/
def execAbortMessage (s : State) : Out :=
  .next (if (s.port s.ev.who).up && (mKind s.ev.bytes == 2 || mKind s.ev.bytes == 3) then s.collArrive s.ev.who s.ev.bytes else s)

/-! ### COLL (R362 to R364) -/

/-- Read n bytes of a descriptor for the collective engine (R86, R87, R359, R363). gid: the WHO of its fault record, 0 while the GID has not been read. (DESIGN CHOICE, log entry 67) -/
def descBytes (ctx gd n gid : Nat) : M (List Byte) := do
  let parts ← (pagePieces gd n).mapM fun p => do
    let s ← get
    let va := (gd + p.1) % 2 ^ 64
    match s.xlate 8 ctx va { r := true } .engine with
    | .error .hostLeaf => trapM 0x07 (BitVec.ofNat 64 gd)
    | .error x => throw (.park { parkOf ctx va 4 0 x with who := gid })
    | .ok r =>
      if !r.s.allowed ctx r.pa { r := true } then throw (.trap { code := 0x07, faddr := BitVec.ofNat 64 gd } [(r.pa, 0)])
      else
        set r.s
        return (r.s.sliceBytes r.pa p.2).1
  return parts.flatten

/-- Whether an operation takes a format (R364). -/
def collFmtOk (op fmt : Nat) : Bool := if op ≤ 2 then fmt == 0 || fmt == 5 || fmt == 6 else fmt == 12 || fmt == 13

/-- The engine accepts a COLL (R364, R365): it counts it for its rank, and messages held for it are delivered. (DEDUCED, log entry 44) -/
def State.acceptColl (s : State) (c : Coll) : State :=
  let key := (c.ctx * 2 ^ 32 + c.gid) * 2 ^ 16 + c.rank
  let k := (mget s.collCount key 0 + 1) % 2 ^ 32
  let s : State := { s with
    collCount := mput s.collCount key k
    colls := s.colls ++ [{ c with k := k, lost := s.collDead.any fun d => d.ctx == c.ctx && d.gid == c.gid && d.k == k }] }
  (List.range 32).foldl (fun s p => s.unhold p c.gid k) s

/-- COLL (R362 to R364). -/
def execColl (g : BitVec 6) (f op : BitVec 4) (s : State) : Out := scalar (do
  portsOk (groupRegs g 3) []
  let rs ← readGroup g 3
  let r0 := rs.getD 0 0
  let gd := rs.getD 1 0
  let r2 := rs.getD 2 0
  let c ← myCtx
  let rel := r0.getLsbD 20
  let acq := r0.getLsbD 19
  let sc := r0.extractLsb' 16 3
  let scopeFits := if acq || rel then sc == 4 || sc == 5 else sc == 0
  if r0.extractLsb' 21 43 != 0 || r2.extractLsb' 16 48 != 0 || !scopeFits || gd.toNat % 64 != 0 then badOperand
  match (← get).handle c (r0.extractLsb' 0 8).toNat, (← get).handle c (r0.extractLsb' 8 8).toNat with
  | some hs, some hd =>
    let e := elemsOf hs
    if hFmt hs != hFmt hd || !collFmtOk op.toNat (hFmt hs) || elemsOf hd != e || e = 0 || 2 ^ 24 < e then badOperand
    let head ← descBytes c gd.toNat 64 0
    let p := fld head 4 2
    if p = 0 || 1024 < p then badRead (s.strand s.cur)
    else
      let bs ← descBytes c gd.toNat (64 + 8 * p) (fld head 0 4)
      let d := (List.range (8 + p)).map fun i => BitVec.ofNat 64 (fld bs (8 * i) 8)
      let rank := r2.toNat
      if !descOk d || decide (p ≤ rank) || dRemote d rank then badRead (s.strand s.cur)
      else
        waitUnless (decide ((← get).colls.length < 256))
        releaseM 4
        incFlagPkg f
        let sid := (← get).cur
        let team := (← me).team
        modify fun s => s.acceptColl
          { ctx := c, team := team, gid := dGid d, k := 0, rank := rank, p := p, op := op, hs := hs, hd := hd, desc := d
            acq := acq, rel := rel, scope := sc, sid := sid, flag := f, gd := gd }
        advance
  | _, _ => badOperand) s

/-! ### The engine's work (R365, R366) -/

/-- Work for one rank: a stop carries the rank. -/
abbrev CollM := StateT Run (Except (Nat × EStop))

/-- An access of the engine for a rank. -/
def forRank {α : Type} (r : Nat) (m : E α) : CollM α := fun st =>
  match m st with
  | .ok x => .ok x
  | .error e => .error (r, e)

/-- The collective engine as an agent (R86, R87). -/
def Coll.eng (c : Coll) : Eng := { ctx := c.ctx, die := 8, agent := 4, unitNo := 0, who := c.gid }

/-- The parts received of a value (root: of the root result). -/
def State.parts (s : State) (c : Coll) (root : Bool) (j i : Nat) : List CollPart :=
  s.collParts.filter fun p => p.ctx == c.ctx && p.gid == c.gid && p.k == c.k && p.root == root && (root || (p.level == j && p.idx == i))

/-- Element e of parts. -/
def partElem (ps : List CollPart) (e : Nat) : Option Nat :=
  match ps.find? fun p => p.first ≤ e && e < p.first + p.vals.length with
  | some p => some (p.vals.getD (e - p.first) 0).toNat
  | none => none

/-- Whether parts hold the n elements from e0 on. -/
def partsFull (ps : List CollPart) (e0 n : Nat) : Bool := (List.range n).all fun i => (partElem ps (e0 + i)).isSome

/-- Whether n elements from e0 on of value v_j[i] can be had: received from its owner, or computed here (R366). -/
def State.collHas (s : State) (c : Coll) (e0 n : Nat) : Nat → Nat → Bool
  | 0, i => !dRemote c.desc i || partsFull (s.parts c false 0 i) e0 n
  | j + 1, i =>
    if dRemote c.desc (i * 2 ^ (j + 1)) then partsFull (s.parts c false (j + 1) i) e0 n
    else s.collHas c e0 n j (2 * i) && (levelSize c.p j ≤ 2 * i + 1 || s.collHas c e0 n j (2 * i + 1))

/-- n elements from e0 on of a received value. -/
def partVals (ps : List CollPart) (e0 n : Nat) : List Nat := (List.range n).map fun i => (partElem ps (e0 + i)).getD 0

/-- n elements from e0 on of the contribution of a local rank, read at the home slices (R102, R365). -/
def contribution (g : List Coll) (e0 n r : Nat) : CollM (List Nat) :=
  match g.find? fun c => c.rank == r with
  | none => return []
  | some c => forRank r ((List.range n).mapM fun e => engRead c.eng (elemVa c.hs (elemIdx c.hs (e0 + e))) (tyBytes (hFmt c.hs)))

/-- n elements from e0 on of value v_j[i] of the canonical tree (R37, R365, R366). -/
def collVal (s : State) (g : List Coll) (c : Coll) (e0 n : Nat) : Nat → Nat → CollM (List Nat)
  | 0, i => if dRemote c.desc i then return partVals (s.parts c false 0 i) e0 n else contribution g e0 n i
  | j + 1, i => do
    if dRemote c.desc (i * 2 ^ (j + 1)) then return partVals (s.parts c false (j + 1) i) e0 n
    else
      let a ← collVal s g c e0 n j (2 * i)
      if levelSize c.p j ≤ 2 * i + 1 then return a
      else
        let b ← collVal s g c e0 n j (2 * i + 1)
        return (a.zip b).map fun p => collOp c.op.toNat (hFmt c.hs) p.1 p.2

/-- Elements of one chunk (R369): at most 64 KiB of result bytes, those of all local ranks together. (DEDUCED, log entry 44) -/
def chunkElems (g : List Coll) (c : Coll) : Nat := Nat.max 1 (c.perMsg / Nat.max 1 g.length)

/-- The elements of a value that have been sent. -/
def Coll.toldTo (c : Coll) (j i : Nat) : Nat :=
  match c.told.find? fun t => t.1 == j && t.2.1 == i with
  | some t => t.2.2
  | none => 0

/-- A piece of a value that this package owes to another (R366): level, index, port, first element, count. -/
structure Tell where
  j : Nat
  i : Nat
  port : Nat
  e0 : Nat
  n : Nat
  deriving DecidableEq, Repr

/-- The next such piece. -/
def State.nextTell (s : State) (g : List Coll) (c : Coll) : Option Tell :=
  ((List.range (rootLevel c.p)).flatMap fun j => (List.range (levelSize c.p j)).map fun i => (j, i)).findSome? fun (q : Nat × Nat) =>
    let j := q.1
    let i := q.2
    let parent := (i - 1) * 2 ^ j
    let e0 := c.toldTo j i
    let n := Nat.min (chunkElems g c) (elemsOf c.hs - e0)
    if i % 2 = 1 && !dRemote c.desc (i * 2 ^ j) && dRemote c.desc parent && n != 0 && s.collHas c e0 n j i
    then some { j := j, i := i, port := dPort c.desc parent, e0 := e0, n := n } else none

/-- Change the first COLL of a group. -/
def State.modFirst (s : State) (c : Coll) (f : Coll → Coll) : State :=
  { s with colls := s.colls.map fun d => if d.ctx = c.ctx ∧ d.gid = c.gid ∧ d.k = c.k ∧ d.rank = c.rank then f d else d }

/-- What the engine's work has done for a group: the package, result elements written, a poisoned contribution. -/
def Run.coll (r : Run) (c : Coll) : State :=
  r.s.modFirst c fun d => { d with wrote := d.wrote + r.done, pois := d.pois || r.sticky &&& stPOIS != 0 }

/-- A stop of the engine's work for a rank: a park (R87), an abort (R368), a wait. -/
def collStop (c : Coll) (r : Nat) (e : EStop) : State :=
  match e with
  | .wait q => q.coll c
  | .park p _ q =>
    ((q.coll c).modFirst { c with rank := r } fun d => { d with park := some p }).raiseFault 8 0 c.gid p
  | .stop _ _ l q => ((q.coll c).logDenied c.ctx l).collAbort c.ctx c.gid c.k .denied

/-- Write u of a chunk of results from element e0 on (R365): element by element, rank after rank. -/
def resultUnit (g : List Coll) (vs : List Nat) (e0 u : Nat) : E Unit :=
  match g[u / vs.length]? with
  | none => pure ()
  | some c => engWrite c.eng (elemVa c.hd (elemIdx c.hd (e0 + u % vs.length))) (leBytes (tyBytes (hFmt c.hd)) (vs.getD (u % vs.length) 0))

/-- The collective is complete (R353, R365): release, flags, the causes of a poisoned contribution. (DEDUCED, log entry 44) -/
def State.collDone (s : State) (g : List Coll) (pois : Bool) : State :=
  let s := g.foldl (fun s c => s.engRelease c.rel c.scope.toNat) s
  let s := g.foldl (fun s c =>
    if (mget? s.strands c.sid).isSome && (s.strand c.sid).team == c.team then
      let s := s.decFlag c.sid c.flag.toNat c.saved
      if pois then s.holdCause c.sid { code := 0x0D } else s
    else s) s
  match g with
  | [] => s
  | c :: _ => { s with
      colls := s.colls.filter fun d => !(d.ctx == c.ctx && d.gid == c.gid && d.k == c.k)
      collParts := s.collParts.filter fun p => !(p.ctx == c.ctx && p.gid == c.gid && p.k == c.k) }

/-- Send values to ports, or abort the collective where an access table does not allow it (R368, R380, R381). -/
def State.tell (s : State) (c : Coll) (ps : List Nat) (ms : List Msg) : State :=
  match ps.find? fun p => !s.portMay p c.ctx true with
  | some p => (s.deny 3 p c.ctx 1 0).collAbort c.ctx c.gid c.k .denied
  | none => ps.foldl (fun s p => ms.foldl (fun s m => s.sendMsg p m) s) s

/-- Whether a message of a collective still waits in this package: at a port, or sent and not acknowledged at one that is link-down (R368, R393). -/
def State.collQueued (s : State) (c : Coll) : Bool :=
  s.ports.any fun p => p.2.waiting.any fun m =>
    (m.cls == 2 || m.cls == 3) && m.ctx == c.ctx && mGid m.bytes == c.gid && mK m.bytes == c.k

/-- The collective ends when every result element is written and no message of it waits (R365, R368). (DEDUCED, log entry 44) -/
def State.collEnd (s : State) (ctx gid k : Nat) : State :=
  let g := s.collGroup ctx gid k
  match g with
  | [] => s
  | c :: _ => if c.pos = elemsOf c.hs && !s.collQueued c then s.collDone g (g.any (·.pois)) else s

/-- Write the chunk of results that has been computed to every local rank's HD, and send it to the other packages where it was computed here (R365, R366). -/
def State.collPut (s : State) (g : List Coll) (c : Coll) : State :=
  let n := c.res.length
  match runE (unitsFrom (resultUnit g c.res c.pos) (g.length * n - c.wrote) c.wrote) { s := s } with
  | .error e => collStop c (((g[(c.wrote + e.run.done) / n]?).map (·.rank)).getD c.rank) e
  | .ok (_, q) =>
    let s := (q.coll c).modFirst c fun d => { d with pos := c.pos + n, res := [], wrote := 0 }
    (s.tell c (if dRemote c.desc 0 then [] else remotePorts c.desc) (c.msgs 1 0 0 c.pos c.res)).collEnd c.ctx c.gid c.k

/-- A chunk of results is at hand. -/
def State.collGot (s : State) (g : List Coll) (c : Coll) (vs : List Nat) : State :=
  (s.modFirst c fun d => { d with res := vs, wrote := 0 }).collPut g { c with res := vs, wrote := 0 }

/-- The next chunk of the root result: received from the package that holds rank 0, or computed here (R365, R366). -/
def State.collRoot (s : State) (g : List Coll) (c : Coll) : State :=
  let n := Nat.min (chunkElems g c) (elemsOf c.hs - c.pos)
  if n = 0 then s.collEnd c.ctx c.gid c.k
  else if dRemote c.desc 0 then
    let ps := s.parts c true 0 0
    if partsFull ps c.pos n then s.collGot g c (partVals ps c.pos n) else s
  else if s.collHas c c.pos n (rootLevel c.p) 0 then
    match collVal s g c c.pos n (rootLevel c.p) 0 { s := s } with
    | .error (r, e) => collStop c r e
    | .ok (vs, q) => (q.coll c).collGot g c vs
  else s

/-- One chunk of the engine's work for a group that may go on (R366, R369): results not written yet, a value owed to another package, or the root result. -/
def State.collWork (s : State) (g : List Coll) (c : Coll) : State :=
  if c.res != [] then s.collPut g c
  else match s.nextTell g c with
  | some t =>
    match collVal s g c t.e0 t.n t.j t.i { s := s } with
    | .error (r, e) => collStop c r e
    | .ok (vs, q) =>
      ((q.coll c).modFirst c fun d => { d with told := (t.j, t.i, t.e0 + t.n) :: d.told }).tell c [t.port] (c.msgs 0 t.j t.i t.e0 vs)
  | none => s.collRoot g c

/-- Whether a collective has lost a participant before every result write was made (R368, R370). -/
def groupLost (g : List Coll) : Bool :=
  g.any (·.lost) && !(match g with
    | c :: _ => c.pos == elemsOf c.hs
    | [] => false)

/-- Whether a group's work may go on (R365, R368, R369): no access of it is parked, its context is not pre-empted, and the ports to its other packages are up. -/
def State.collReady (s : State) (g : List Coll) (ctx : Nat) : Bool :=
  groupFull g && !groupMismatch g && !groupLost g && g.all (fun c => c.park.isNone && (remotePorts c.desc).all fun p => (s.port p).up)
  && !s.ctxHalted ctx

/-- COLL_COMPLETE (R365, R366, R369): the engine goes on by a chunk with collective ev.addr of context ev.who, match ev.idx, whose local COLLs are all accepted: it sends a value that another package waits for, or writes result elements, and ends the collective after the last. -/
def execCollComplete (s : State) : Out :=
  let g := s.collGroup s.ev.who s.ev.addr s.ev.idx
  match g with
  | [] => .next s
  | c :: _ => .next (if s.collReady g s.ev.who then s.collWork g c else s)

/-- COLL_ABORT (R365, R368, R370): collective ev.addr of context ev.who, match ev.idx, is aborted: its local COLLs disagree, or it has lost a participant before every result write was made. -/
def execCollAbort (s : State) : Out :=
  let g := s.collGroup s.ev.who s.ev.addr s.ev.idx
  .next (if groupLost g then s.collAbort s.ev.who s.ev.addr s.ev.idx .other
    else if groupMismatch g then s.collAbort s.ev.who s.ev.addr s.ev.idx .mismatch else s)

/-! ### Deliver (R87) -/

/-- Deliver to the collective engine (R368): the rank whose access is parked on the page. -/
def State.deliverColls (s : State) (ctx page : Nat) : State :=
  s.colls.foldl (fun s c => match c.park with
    | some p => if p.on ctx page then s.collAbort c.ctx c.gid c.k (.deliver c.rank p.va) else s
    | none => s) s

/-- The handler answers Deliver to the fault record at a place. (DEDUCED, log entry 41) -/
def State.answerDeliver (s : State) (i : Nat) : State :=
  match s.faults[i]? with
  | none => s
  | some f =>
    let ctx := f.park.ctx
    let page := f.park.page
    let s := ({ s with faults := dropAt s.faults i } : State).deliverStrands f.xunit ctx page
    if f.xunit < 8 then s.deliverDie f.xunit ctx page
    else ((s.deliverLaunch ctx page).deliverQuiet ctx page).deliverColls ctx page

/-- DELIVER (R87): Ultik answers Deliver to the fault record at place ev.idx. -/
def execDeliver (s : State) : Out := .next (if s.hostAnswers s.ev.idx then s else s.answerDeliver s.ev.idx)

end Sys2Proof.Machine
end

