-- ==== Sys2Proof/Machine/CrossLane.lean ====
section
/-! DEFINITION. Cross-lane instructions and the ragged tile walker (R36, R185 to R191). -/

namespace Sys2Proof.Machine

/-- A cross-lane instruction issues (R185): it writes its results, computed from the sources of its issue, when it completes. -/
def crossIssue (x : LaneIn) (w : LaneW) (op : LaneOp) (fl : BitVec 4) (lat : Nat) (ws : List LaneWrite) (cs : List LaneCond) : M Unit :=
  issueLong x w op .cross fl lat { writes := ws, conds := cs }

/-! ### SHFL -/

/-- The distance that a SHFL names (R186). -/
def shflN (w : LaneW) : Nat := if w.aux.getLsbD 15 then 64 / 2 ^ (w.aux.extractLsb' 0 3).toNat else (w.aux.extractLsb' 0 7).toNat

/-- The source lane of lane L (R186), as an integer. -/
def shflSrc (md n L : Nat) (idx : W32) : Int :=
  match md with
  | 0 => idx.toNat
  | 1 => (L : Int) - n
  | 2 => (L : Int) + n
  | 3 => ((L ^^^ n : Nat) : Int)
  | _ => (((L + n) % 64 : Nat) : Int)

/-- The lane whose value lane L receives. -/
def shflLane (md n L : Nat) (idx : W32) : Nat :=
  let k := shflSrc md n L idx
  if 0 ≤ k ∧ k < 64 then k.toNat else L

/-- SHFL (R186). -/
def execShfl (w : LaneW) (s : State) : Out := lane w (fun x => do
  let fl ← longFlag x w
  laneRegs x [w.va, w.vb] [w.vd]
  let a ← readV { x with active := 0 } w.va
  let i ← if w.md = 0 then readV x w.vb else pure fun _ => 0
  let src := fun L => shflLane w.md.toNat (shflN w) L (i L)
  notePoison w.va (maskOf fun k => (lanesOf x.active).any fun L => src L == k)
  roomFor w.vd x.active
  crossIssue x w .shfl fl 6 (destWrites w.vd x.active fun L => a (src L)) []) s

/-! ### Reductions -/

/-- One step of a reduction (R187): op codes 0 add, 1 min, 2 max, 3 and, 4 or, 5 xor. -/
def redStep (ty op : Nat) (a b : Nat) : Nat × Conds :=
  match ty, op with
  | 0, 0 => add32 a b
  | 0, 1 => minMaxF f32 false false a b
  | 0, _ => minMaxF f32 true false a b
  | 13, 3 => (a &&& b, 0)
  | 13, 4 => (a ||| b, 0)
  | 13, _ => (a ^^^ b, 0)
  | _, 0 => ((a + b) % 2 ^ 32, 0)
  | 5, 1 => (if sval 32 a ≤ sval 32 b then a else b, 0)
  | 5, _ => (if sval 32 a < sval 32 b then b else a, 0)
  | _, 1 => (if a ≤ b then a else b, 0)
  | _, _ => (if a < b then b else a, 0)

/-- The identity of a reduction (R187). -/
def redId (ty op : Nat) : Nat :=
  match ty, op with
  | 0, 0 => 0x80000000
  | 0, 1 => 0x7F800000
  | 0, _ => 0xFF800000
  | 13, 3 => 0xFFFFFFFF
  | 13, _ => 0
  | _, 0 => 0
  | 5, 1 => 0x7FFFFFFF
  | 5, _ => 0x80000000
  | _, 1 => 0xFFFFFFFF
  | _, _ => 0

/-- One level of the tree of R36: lane i with lane i + h. -/
def treeLevel (f : Nat → Nat → Nat × Conds) (h : Nat) (xs : List Nat) : List Nat × Conds :=
  let rs := ((xs.take h).zip (xs.drop h)).map fun p => f p.1 p.2
  (rs.map (·.1), rs.foldl (fun c r => c ||| r.2) 0)

/-- The tree of R36 over 2^n values. -/
def treeReduce (f : Nat → Nat → Nat × Conds) : Nat → List Nat → Nat × Conds
  | 0, xs => (xs.headD 0, 0)
  | n + 1, xs =>
    let (ys, c) := treeLevel f (2 ^ n) xs
    let (r, d) := treeReduce f n ys
    (r, c ||| d)

/-- The values of all lanes, inactive ones as the identity (R187). -/
def redIn (x : LaneIn) (ty op : Nat) (a : Nat → W32) : List Nat :=
  lanes.map fun L => if x.active.getLsbD L then (a L).toNat else redId ty op

/-- A condition raised in every lane of a mask. -/
def condsIn (m : W64) (c : Conds) : List LaneCond := if c = 0 then [] else (lanesOf m).map fun L => { lane := L, bits := c }

/-- REDX (R36, R187). -/
def execRedx (w : LaneW) (s : State) : Out := lane w (fun x => do
  let fl ← longFlag x w
  laneRegs x [w.va] [w.vd]
  let a ← readV x w.va
  roomFor w.vd x.active
  let t := w.ty.toNat
  let o := w.md.toNat
  let (r, c) := treeReduce (redStep t o) 6 (redIn x t o a)
  crossIssue x w .redx fl 12 (destWrites w.vd x.active fun _ => BitVec.ofNat 32 r) (condsIn x.active c)) s

/-- The steps of SCANX (R188): distances d, 2d, … -/
def scanSteps (f : Nat → Nat → Nat × Conds) : Nat → Nat → List Nat → List Nat × Conds
  | 0, _, xs => (xs, 0)
  | n + 1, d, xs =>
    let rs := lanes.map fun L => if d ≤ L then f (xs.getD (L - d) 0) (xs.getD L 0) else (xs.getD L 0, 0)
    let c := rs.foldl (fun c r => c ||| r.2) (0 : Conds)
    let (ys, e) := scanSteps f n (2 * d) (rs.map (·.1))
    (ys, c ||| e)

/-- SCANX (R188). -/
def execScanx (w : LaneW) (s : State) : Out := lane w (fun x => do
  let fl ← longFlag x w
  laneRegs x [w.va] [w.vd]
  let a ← readV x w.va
  roomFor w.vd x.active
  let t := w.ty.toNat
  let o := w.md.toNat % 8
  let (xs, c) := scanSteps (redStep t o) 6 1 (redIn x t o a)
  let first := if t = 0 ∧ o = 0 then 0 else redId t o
  let val := fun L => if w.md.getLsbD 3 then (if L = 0 then first else xs.getD (L - 1) 0) else xs.getD L 0
  crossIssue x w .scanx fl 12 (destWrites w.vd x.active fun L => BitVec.ofNat 32 (val L)) (condsIn x.active c)) s

/-- One segment after another (R189): for each lane the number of its segment; for each segment its result and conditions, in lane order. -/
def segFold (f : Nat → Nat → Nat × Conds) (heads : Nat → Bool) : List Nat → List Nat → List (Nat × Conds)  → List Nat → List (Nat × Conds) × List Nat
  | [], _, acc, ids => (acc, ids)
  | L :: Ls, xs, acc, ids =>
    let v := xs.getD L 0
    match acc.getLast? with
    | none => segFold f heads Ls xs [(v, 0)] (ids ++ [0])
    | some (r, c) =>
      if heads L then segFold f heads Ls xs (acc ++ [(v, 0)]) (ids ++ [acc.length])
      else
        let (r', c') := f r v
        segFold f heads Ls xs (acc.dropLast ++ [(r', c ||| c')]) (ids ++ [acc.length - 1])

/-- SEGRED (R189). -/
def execSegred (w : LaneW) (s : State) : Out := lane w (fun x => do
  let fl ← longFlag x w
  laneRegs x [w.va] [w.vd]
  let a ← readV x w.va
  roomFor w.vd x.active
  let st ← me
  let t := w.ty.toNat
  let o := w.md.toNat
  let (segs, ids) := segFold (redStep t o) (st.pred w.vb.toNat) lanes (redIn x t o a) [] []
  let of' := fun L => segs.getD (ids.getD L 0) (0, 0)
  crossIssue x w .segred fl 12 (destWrites w.vd x.active fun L => BitVec.ofNat 32 (of' L).1)
    (((lanesOf x.active).map fun L => { lane := L, bits := (of' L).2 }).filter fun c => c.bits != 0)) s

/-! ### The ragged tile walker -/

/-- RTWCFG (R190). -/
def execRtwcfg (w : LaneW) (s : State) : Out := lane w (fun x => do
  laneRegs x [w.va, w.vb] []
  let a ← readV { x with active := 0 } w.va
  let low := (lanesOf x.active).headD 0
  let b ← readB { x with active := if x.active = 0 then 0 else BitVec.ofNat 64 (2 ^ low) } w
  if x.active != 0 then
    let c := (b low).toNat
    if c = 0 || 64 < c then badOperand
    notePoison w.va (maskOf fun j => decide (j < c))
    modMe fun st => { st with walker := {
      len := (List.range c).foldl (fun m j => mset m j (a j) 0) [], c := c, seq := 0, pos := 0 } }) s

/-- Skip exhausted sequences (R191). -/
def Walker.skipDone (k : Walker) : Nat → Walker
  | 0 => k
  | n + 1 =>
    if k.seq < k.c && decide ((mget k.len k.seq 0).toNat ≤ k.pos) then ({ k with seq := k.seq + 1, pos := 0 } : Walker).skipDone n else k

/-- What one lane takes (R191): sequence, position, the start mark. -/
structure WalkOut where
  lane : Nat
  sq : W32
  pos : W32
  mark : Bool
  deriving DecidableEq, Repr

/-- The walk over lanes, lowest first (R191). -/
def Walker.walk (k : Walker) (first : Bool) : List Nat → Walker × List WalkOut
  | [] => (k, [])
  | L :: Ls =>
    let k := k.skipDone 64
    let (k', o) : Walker × WalkOut :=
      if k.seq = k.c then (k, { lane := L, sq := 0xFFFFFFFF, pos := 0, mark := false })
      else ({ k with pos := k.pos + 1 }, { lane := L, sq := BitVec.ofNat 32 k.seq, pos := BitVec.ofNat 32 k.pos, mark := k.pos == 0 || first })
    let (k'', os) := k'.walk false Ls
    (k'', o :: os)

/-- RTWNEXT (R191): the walker moves at issue; vd, ve and kd are written at completion. -/
def execRtwnext (w : LaneW) (s : State) : Out := lane w (fun x => do
  let fl ← longFlag x w
  withVe x [] w.vd w.ve
  roomFor w.vd x.active
  let (k, os) := (← me).walker.walk true (lanesOf x.active)
  modMe fun st => { st with walker := k }
  let at' := fun L => os.find? fun o => o.lane == L
  crossIssue x w .rtwnext fl 8
    (destWrites w.vd x.active (fun L => (at' L).elim 0 (·.sq)) ++ destWrites w.ve x.active (fun L => (at' L).elim 0 (·.pos))
      ++ predWrites (w.aux.extractLsb' 0 3).toNat x.active fun L => (at' L).elim false (·.mark)) []) s

/-- CROSS_LANE_COMPLETE (R185): the cross-lane instruction at place ev.idx of strand ev.who's operations under way completes. -/
def execCrossLaneComplete (s : State) : Out := .next (s.completeLong s.ev.who s.ev.idx .cross)

end Sys2Proof.Machine
end

