-- ==== Sys2Proof/Machine/Shake.lean ====
section
/-! DEFINITION. SHAKE256 (FIPS 202), as R383 uses it: 512 bits of output, one block. -/

namespace Sys2Proof.Machine

/-- Rotation offsets of the lanes, by x + 5y. -/
def keccakRot : List Nat := [0, 1, 62, 28, 27, 36, 44, 6, 55, 20, 3, 10, 43, 25, 39, 41, 45, 15, 21, 8, 18, 2, 61, 56, 14]

/-- Round constants. -/
def keccakRc : List Nat :=
  [0x0000000000000001, 0x0000000000008082, 0x800000000000808A, 0x8000000080008000, 0x000000000000808B, 0x0000000080000001,
   0x8000000080008081, 0x8000000000008009, 0x000000000000008A, 0x0000000000000088, 0x0000000080008009, 0x000000008000000A]
  ++ [0x000000008000808B, 0x800000000000008B, 0x8000000000008089, 0x8000000000008003, 0x8000000000008002, 0x8000000000000080,
   0x000000000000800A, 0x800000008000000A, 0x8000000080008081, 0x8000000000008080, 0x0000000080000001, 0x8000000080008008]

/-- Rotation of a 64-bit lane to the left. -/
def rotLane (x n : Nat) : Nat := (x * 2 ^ n % 2 ^ 64) ||| (x / 2 ^ (64 - n))

/-- One round of Keccak-f[1600] on 25 lanes. -/
def keccakRound (a : List Nat) (rc : Nat) : List Nat :=
  let g := fun (l : List Nat) i => l.getD i 0
  let c := (List.range 5).map fun x => g a x ^^^ g a (x + 5) ^^^ g a (x + 10) ^^^ g a (x + 15) ^^^ g a (x + 20)
  let d := (List.range 5).map fun x => g c ((x + 4) % 5) ^^^ rotLane (g c ((x + 1) % 5)) 1
  let t := (List.range 25).map fun i => rotLane (g a i ^^^ g d (i % 5)) (g keccakRot i)
  let b := (List.range 25).map fun i =>
    let u := i % 5
    let v := i / 5
    let x := (u + 3 * v) % 5
    g t (x + 5 * u)
  (List.range 25).map fun i =>
    let y := i / 5 * 5
    let x := i % 5
    let r := g b i ^^^ ((2 ^ 64 - 1 - g b (y + (x + 1) % 5)) &&& g b (y + (x + 2) % 5))
    if i = 0 then r ^^^ rc else r

/-- Keccak-f[1600]. -/
def keccakF (a : List Nat) : List Nat := keccakRc.foldl keccakRound a

/-- Absorb the blocks of a padded message: 17 lanes a block. -/
def absorb (a : List Nat) : Nat → List Byte → List Nat
  | 0, _ => a
  | n + 1, bs =>
    let blk := (List.range 17).map fun i => leValue ((bs.drop (8 * i)).take 8)
    absorb (keccakF ((List.range 25).map fun i => a.getD i 0 ^^^ blk.getD i 0)) n (bs.drop 136)

/-- SHAKE256 with an output of 512 bits, byte 0 in bits [7:0]. -/
def shake256 (m : List Byte) : BitVec 512 :=
  let blocks := m.length / 136 + 1
  let zeros := blocks * 136 - m.length - 1
  let padded := if zeros = 0 then m ++ [0x9F] else m ++ [0x1F] ++ List.replicate (zeros - 1) 0 ++ [0x80]
  let out := absorb (List.replicate 25 0) blocks padded
  BitVec.ofNat 512 ((List.range 8).foldl (fun v i => v + out.getD i 0 * 2 ^ (64 * i)) 0)

end Sys2Proof.Machine
end

