-- ==== Sys2Proof/Machine/Start.lean ====
section
/-! DEFINITION. Measured start (R383, R384) and attestation (R385, R386). -/

namespace Sys2Proof.Machine

/-- The bytes of a measurement register, bits [7:0] first. -/
def measBytes (m : BitVec 512) : List Byte := leBytes 64 m.toNat

/-- Measurement register i. -/
def State.measOf (s : State) (i : Nat) : BitVec 512 := mget s.meas i 0

/-- Extend a measurement register by an image (R383): MEASi := SHAKE256(MEASi ‖ SHAKE256(image)). -/
def State.extendMeas (s : State) (i : Nat) (image : List Byte) : State :=
  { s with meas := mput s.meas i (shake256 (measBytes (s.measOf i) ++ measBytes (shake256 image))) }

/-- The boot ROM loads stages from number i on (R383): each is checked, then measured; the first that fails stops the start. n: stages left. -/
def State.boot (s : State) (i : Nat) : Nat → List BootStage → State
  | 0, _ => s
  | _ + 1, [] => { s with startFailed := some i }
  | n + 1, b :: bs =>
    if Config.slhVerify b.image b.sig && decide (Config.minSvn i ≤ b.svn) then
      (({ s with svns := s.svns ++ [b.svn] } : State).extendMeas i b.image).boot (i + 1) n bs
    else { s with startFailed := some i }

/-- PACKAGE_RESET (R383): every register returns to its reset value, ev.val gives LIVE as fuses and start-up test find it, and the boot ROM loads the five stages of ev.stages. What lies in host memory stays; HBM keeps its bytes (DESIGN CHOICE, log entry 13); the order of moves goes on. -/
def execPackageReset (s : State) : Out :=
  let r : State := { State.reset with
    live := BitVec.ofNat 8 s.ev.val, hbm := s.hbm, hostMem := s.hostMem, stepNo := s.stepNo, sched := s.sched }
  .next (r.boot 0 5 s.ev.stages)

/-- MEASUREMENT_EXTEND (R384): Ultik extends MEAS5 to MEAS7 (ev.idx) for the item ev.bytes that it loads. -/
def execMeasurementExtend (s : State) : Out :=
  .next (if 5 ≤ s.ev.idx && s.ev.idx ≤ 7 && s.startFailed.isNone then s.extendMeas s.ev.idx s.ev.bytes else s)

/-! ### Attestation -/

/-- The measurements as they stand. -/
def State.measNow (s : State) : List (BitVec 512) := (List.range 8).map s.measOf

/-- A message of class 1 or 4 (R390). -/
def tagMsg (cls kind : Nat) (tag : W64) (data : List Byte) : Msg :=
  { cls := cls, bytes := leBytes 4 data.length ++ leBytes 1 kind ++ leBytes 3 0 ++ leBytes 8 tag.toNat ++ data }

/-- An answer goes to a requester: to the host (0) a report through its mailbox, to the peer at port p (1 + p) a message. -/
def State.attAnswer (s : State) (who kind : Nat) (tag : W64) (data : List Byte) : State :=
  if who = 0 then { s with attOut := s.attOut ++ [(0, data)] } else s.sendMsg (who - 1) (tagMsg 4 kind tag data)

/-- A request is refused as BUSY (R385): a peer gets the message; the host finds a mark in its mailbox, whose layout the spec does not give, beside its last report (DESIGN CHOICE, log entry 14). (DEDUCED, log entry 48) -/
def State.attRefuse (s : State) (who : Nat) (tag : W64) : State :=
  if who = 0 then { s with attBusy := true } else s.attAnswer who 2 tag []

/-- A request joins the queue (R385): at most four of each requester wait, a further one is refused as BUSY. (DEDUCED, log entry 48) -/
def State.attRequest (s : State) (who : Nat) (nonce : BitVec 256) (tag : W64) : State :=
  if 4 ≤ (s.attQ.filter fun q => q.who == who).length then s.attRefuse who tag
  else { s with
    attQ := s.attQ ++ [{ who := who, nonce := nonce, tag := tag, snap := if s.attQ = [] then s.measNow else [] }]
    attBusy := s.attBusy && who != 0 }

/-- ATTESTATION_REQUEST (R380, R385): requester ev.who asks for a report with the nonce ev.bytes and the tag ev.val. The host needs W on the management space, a peer R. (DEDUCED, log entry 48) -/
def execAttestationRequest (s : State) : Out :=
  let who := s.ev.who
  let nonce := BitVec.ofNat 256 (leValue s.ev.bytes)
  let tag := BitVec.ofNat 64 s.ev.val
  if who = 0 then .next (s.hostWrite 0x1000 fun s => s.attRequest 0 nonce tag)
  else if 32 < who then .next s
  else if (s.accEntry 4 0 (0x500 + (who - 1))).getLsbD 0 then .next (s.attRequest who nonce tag)
  else .next ((s.deny 4 0 (0x500 + (who - 1)) 0 0).sendMsg (who - 1) (denialMsg (tagMsg 4 0 tag s.ev.bytes).bytes))

/-- The body of a report (R386): bytes 0x000 to 0x26F. (DEDUCED, log entry 48) -/
def State.reportBody (s : State) (q : AttReq) : List Byte :=
  leBytes 4 1 ++ leBytes 4 0x270 ++ leBytes 16 Config.serial.toNat ++ leBytes 1 s.live.toNat ++ leBytes 7 0
  ++ (s.svns ++ List.replicate 8 0).take 8 ++ leBytes 32 q.nonce.toNat ++ leBytes 32 Config.keyId.toNat
  ++ q.snap.flatMap measBytes ++ leBytes 8 (s.attCount.toNat + 1)

/-- ATTESTATION_REPORT (R385, R386): Ultik finishes the report of the request at the head of the queue and returns it; the next request reaches the head. -/
def execAttestationReport (s : State) : Out :=
  match s.attQ with
  | [] => .next s
  | q :: qs =>
    let body := s.reportBody q
    let rep := body ++ (List.range 29792).map (Config.slhSign body)
    let next := match qs with
      | [] => []
      | r :: rs => { r with snap := s.measNow } :: rs
    .next (({ s with attQ := next, attCount := s.attCount + 1 } : State).attAnswer q.who 1 q.tag rep)

end Sys2Proof.Machine
end

