-- ==== Sys2Proof/Machine/Fabric.lean ====
section
/-! DEFINITION. Zumer fabric ports (R387 to R394): receiving flits and messages, link-control flits, training, parking and waking, link-down, the loss of a Col die (R18). -/

namespace Sys2Proof.Machine

/-! ### Messages -/

/-- A message of class 0 is dropped and denied (R390). -/
def State.class0Arrive (s : State) (p : Nat) (m : List Byte) : State := (s.deny 3 p (0x500 + p) 1 0).sendMsg p (denialMsg m)

/-- A denial arrives (R381, R390): the collective whose message was denied is aborted (R368). -/
def State.denialArrive (s : State) (p : Nat) (m : List Byte) : State :=
  let d := m.drop 16
  match s.colls.find? fun c => c.gid == mGid d && c.k == mK d && fld d 5 1 == c.op.toNat && fld d 6 1 == hFmt c.hs && fld d 18 2 == c.p
      && (remotePorts c.desc).contains p with
  | some c => if fld m 4 1 = 3 then s.collAbort c.ctx c.gid c.k .denied else s
  | none => s

/-- A management message arrives (R385, R390): an attestation request, when the peer's entry has R; a report or a BUSY refusal goes to Ultik. -/
def State.mgmtArrive (s : State) (p : Nat) (m : List Byte) : State :=
  let kind := fld m 4 1
  let tag := BitVec.ofNat 64 (fld m 8 8)
  let data := m.drop 16
  if kind = 0 then
    if (s.accEntry 4 0 (0x500 + p)).getLsbD 0 then s.attRequest (1 + p) (BitVec.ofNat 256 (leValue (data.take 32))) tag
    else (s.deny 4 0 (0x500 + p) 0 0).sendMsg p (denialMsg m)
  else if kind ≤ 2 then { s with attOut := s.attOut ++ [(64 + p, data)] }
  else s

/-- A whole message has been received at a port (R387, R390). -/
def State.msgArrive (s : State) (p cls : Nat) (m : List Byte) : State :=
  match cls with
  | 0 => s.class0Arrive p m
  | 1 => s.denialArrive p m
  | 4 => s.mgmtArrive p m
  | _ => s.collArrive p m

/-- MANAGEMENT_MESSAGE (R390): the class-4 message ev.bytes arrives at port ev.who. -/
def execManagementMessage (s : State) : Out := .next (if (s.port s.ev.who).up then s.mgmtArrive s.ev.who s.ev.bytes else s)

/-- DENIAL_MESSAGE (R390): the class-1 message ev.bytes arrives at port ev.who. -/
def execDenialMessage (s : State) : Out := .next (if (s.port s.ev.who).up then s.denialArrive s.ev.who s.ev.bytes else s)

/-- CLASS0_MESSAGE (R390): the class-0 message ev.bytes arrives at port ev.who; its permits are owed to the peer. -/
def execClass0Message (s : State) : Out :=
  let p := s.ev.who
  if (s.port p).up then
    let x := s.port p
    .next ((s.setPort p (x.owe 0 (flitsOf s.ev.bytes.length))).class0Arrive p s.ev.bytes)
  else .next s

/-! ### Link-control flits (R389) -/

/-- STRIPE: the peer's width from a SEQ on. -/
def Port.gotStripe (x : Port) (n : Nat) (sq : W32) : Port :=
  if x.up && (n == 1 || n == 2 || n == 4 || n == 8) then { x with rxNext := some (n, sq) } else x

/-- A flit from the peer of a port is valid: it has not been silent (R389). -/
def State.heard (s : State) (p : Nat) (x : Port) : State := s.setPort p { x with lastRx := s.portNow p }

/-- TRAIN: sixteen in a row make a wavelength live. -/
def Port.gotTrain (x : Port) (w : Nat) : Port :=
  if x.training && w < 8 then
    let n := mget x.trainCount w 0 + 1
    let x := { x with trainCount := mput x.trainCount w n }
    if 16 ≤ n then { x with liveWl := x.liveWl ||| (1#8 <<< w) } else x
  else x

/-- READY: width, wavelengths and reserves of the peer. -/
def Port.gotReady (x : Port) (now n : Nat) (wls : Byte) (perms : List Nat) : Port :=
  if x.training && (n == 1 || n == 2 || n == 4 || n == 8) then { x with peerReady := some (n, wls, perms) }.tryUp now else x

/-- PERMIT: permits of several classes come back. -/
def Port.gotPermits (x : Port) (perms : List Nat) : Port :=
  (List.range 5).foldl (fun (x : Port) c => x.givePermits c (perms.getD c 0)) x

/-- Ten bytes of permits. -/
def permsOf (bs : List Byte) : List Nat := (List.range 5).map fun c => fld bs (2 * c) 2

/-- The permits that RET returns (R387). -/
def Port.gotRet (x : Port) (ret : Nat) : Port := x.givePermits (ret / 2 ^ 13) (ret % 2 ^ 11)

/-- A link-control flit arrives (R389): its RET, which counts for PERMIT alone, and its DATA; one of unknown KIND is dropped and counted. -/
def Port.gotControl (x : Port) (now ret : Nat) (d : List Byte) : Port :=
  let sq := BitVec.ofNat 32 (fld d 4 4)
  match fld d 0 1 with
  | 0 => x.gotStripe (fld d 1 1) sq
  | 1 => if x.up then x.naked sq else x
  | 2 => if x.up then x.acked sq else x
  | 3 => x.gotTrain (fld d 2 1)
  | 4 => x.gotReady now (fld d 1 1) (BitVec.ofNat 8 (fld d 2 1)) (permsOf (d.drop 8))
  | 5 => if x.up then (x.gotRet ret).gotPermits (permsOf (d.drop 8)) else x
  | _ => { x with dropc := Nat.min 65535 (x.dropc + 1) }

/-- NAK (R389): a NAK for SEQ ev.val arrives at port ev.who. -/
def execNak (s : State) : Out :=
  let x := s.port s.ev.who
  .next (if x.up then (s.heard s.ev.who (x.naked (BitVec.ofNat 32 s.ev.val))).flowPort s.ev.who else s)

/-- ACK (R389): an ACK up to SEQ ev.val arrives at port ev.who. -/
def execAck (s : State) : Out :=
  let x := s.port s.ev.who
  .next (if x.up then (s.heard s.ev.who (x.acked (BitVec.ofNat 32 s.ev.val))).flowPort s.ev.who else s)

/-- ACK_SEND (R388, R389): port ev.who acknowledges the flits it has received in order, and returns the permits it owes. -/
def execAckSend (s : State) : Out :=
  let x := s.port s.ev.who
  .next (if x.up && x.unacked != 0 then s.setPort s.ev.who x.sendAck else s)

/-- STRIPE (R389, R391): the peer at port ev.who sends flits from SEQ ev.val on with width ev.size. -/
def execStripe (s : State) : Out :=
  let x := s.port s.ev.who
  .next (if x.up then s.heard s.ev.who (x.gotStripe s.ev.size (BitVec.ofNat 32 s.ev.val)) else s)

/-- TRAIN (R389): a TRAIN flit with good CRC arrives at port ev.who on wavelength ev.idx. -/
def execTrain (s : State) : Out :=
  let x := s.port s.ev.who
  .next (if x.training then s.heard s.ev.who (x.gotTrain s.ev.idx) else s)

/-- READY (R389): the peer's READY arrives at port ev.who: width ev.size, wavelengths ev.val, reserves ev.bytes. -/
def execReady (s : State) : Out :=
  let x := s.port s.ev.who
  .next (if x.training then
    (s.heard s.ev.who (x.gotReady (s.portNow s.ev.who) s.ev.size (BitVec.ofNat 8 s.ev.val) (permsOf s.ev.bytes))).flowPort s.ev.who else s)

/-- PERMIT (R388, R389): permits ev.bytes come back to port ev.who. -/
def execPermit (s : State) : Out :=
  let x := s.port s.ev.who
  .next (if x.up then (s.heard s.ev.who (x.gotPermits (permsOf s.ev.bytes))).flowPort s.ev.who else s)

/-! ### Flits -/

/-- The message that the bytes received of a class make, once its last flit is there: header and LEN bytes of data (R390). -/
def wholeMsg (cls : Nat) (bs : List Byte) : List Byte :=
  match cls with
  | 0 => bs
  | 2 => bs.take (32 + fld bs 0 4)
  | 3 => bs.take (32 + fld bs 0 4)
  | _ => bs.take (16 + fld bs 0 4)

/-- The data of a flit of class 0 to 4 joins its message (R387, R390); a complete message is delivered, and its permits are owed unless it is held beyond 1 MiB. -/
def State.gotData (s : State) (p cls fl : Nat) (d : List Byte) : State :=
  let x := s.port p
  let old := mget? x.asm cls
  if fl % 2 = 0 && old.isNone then s.setPort p (x.owe cls 1)
  else
    let lostFlits := if fl % 2 = 1 then flitsOf (old.getD []).length else 0
    let x := x.owe cls lostFlits
    let bs := (if fl % 2 = 1 then [] else old.getD []) ++ d
    if fl / 2 % 2 = 0 then s.setPort p { x with asm := mput x.asm cls bs }
    else
      let before := x.heldMsgs.length
      let s := (s.setPort p { x with asm := mdel x.asm cls }).msgArrive p cls (wholeMsg cls bs)
      let y := s.port p
      let kept := decide (before < y.heldMsgs.length) && (match y.heldMsgs.getLast? with
        | some m => m.kept
        | none => false)
      if kept then s else s.setPort p (y.owe cls (flitsOf bs.length))

/-- A flit of class 0 to 6 that arrives in order (R387 to R389). What a flit with a reserved bit set becomes the spec does not state: the bits are not looked at. (DESIGN CHOICE, log entry 69) -/
def State.gotFlit (s : State) (p : Nat) (f : BitVec 2048) : State :=
  let x := s.port p
  let x := { x with rxSeq := x.rxSeq + 1, nakSent := 0, unacked := x.unacked + 1, lastRx := s.portNow p }
  let x := match x.rxNext with
    | some (n, sq) => if sq = flitSeq f then { x with rxWidth := n, rxNext := none } else x
    | none => x
  let x := x.gotRet (flitRet f)
  let cls := flitCls f
  let s := if 5 ≤ cls then s.setPort p { x with dropc := Nat.min 65535 (x.dropc + 1) }
    else (s.setPort p x).gotData p cls (flitFl f) (flitData f)
  let y := s.port p
  (if 64 ≤ y.unacked && y.up then s.setPort p y.sendAck else s).flowPort p

/-- FLIT_RECEIVE (R387, R389): the 256 bytes ev.bytes arrive at port ev.who, on wavelength ev.idx while the port trains. A bad CRC or a SEQ out of order is answered with a NAK. -/
def execFlitReceive (s : State) : Out :=
  let p := s.ev.who
  let x := s.port p
  let f := BitVec.ofNat 2048 (leValue s.ev.bytes)
  if !x.up && !x.training then .next s
  else if !flitCrcOk f then
    .next (s.setPort p (if x.up then x.sendNak else { x with trainCount := mdel x.trainCount s.ev.idx }))
  else if flitCls f = 7 then .next ((s.heard p (x.gotControl (s.portNow p) (flitRet f) (flitData f))).flowPort p)
  else if !x.up then .next s
  else if flitSeq f ≠ x.rxSeq then .next (s.setPort p x.sendNak)
  else .next (s.gotFlit p f)

/-! ### Training, link-down (R389, R393) -/

/-- PORT_COMES_UP (R389, R393): port ev.who starts training: TRAIN flits go out on every wavelength. -/
def execPortComesUp (s : State) : Out :=
  let p := s.ev.who
  let x := s.port p
  if 32 ≤ p || x.up || x.training || !s.colLive.getLsbD (p / 8) then .next s
  else
    let y := { x.down with training := true, trainAt := s.portNow p, lastRx := s.portNow p }
    .next (s.setPort p ((List.range 8).foldl (fun (y : Port) w => y.sendOn w (List.replicate 16 (controlFlit 3 0 w 0 []))) y))

/-- TRAIN_PERIOD_END (R6, R389): port ev.who, which has sent TRAIN for 1000 ticks of its Col die (10 µs) and has a live wavelength, sends READY on the lowest. -/
def execTrainPeriodEnd (s : State) : Out :=
  let p := s.ev.who
  let x := s.port p
  if !x.training || x.liveWl = 0 || x.readySent || decide (s.portNow p < x.trainAt + 1000) then .next s
  else
    let f := controlFlit 4 (roundWidth (popCount 8 x.liveWl.toNat)) x.liveWl.toNat 0 ownReserve
    .next ((s.setPort p ({ x.sendOn ((beatWl x.liveWl 0).getD 0) [f] with readySent := true, readyWl := x.liveWl }.tryUp (s.portNow p))).flowPort p)

/-- PORT_LINK_DOWN (R393): port ev.who goes link-down. -/
def execPortLinkDown (s : State) : Out :=
  let x := s.port s.ev.who
  .next (if x.up || x.training then s.setPort s.ev.who x.down else s)

/-- PEER_SILENCE_TIMEOUT (R6, R389, R393): port ev.who, whose peer has sent no valid flit for 1000 ticks of the Col die (10 µs) after training started or after UP, goes link-down. -/
def execPeerSilenceTimeout (s : State) : Out :=
  let x := s.port s.ev.who
  .next (if (x.training || x.up) && decide (x.lastRx + 1000 ≤ s.portNow s.ev.who) then s.setPort s.ev.who x.down else s)

/-- COL_DIE_LOSS (R18, R393): Col die ev.who is lost; its eight ports are link-down. -/
def execColDieLoss (s : State) : Out :=
  let c := s.ev.who
  if 4 ≤ c then .next s
  else
    let s := { s with colLive := s.colLive &&& ~~~(1#4 <<< c) }
    .next (((List.range 8).foldl (fun s i =>
      match mget? s.ports (8 * c + i) with
      | some x => s.setPort (8 * c + i) x.down
      | none => s) s).signal 0)

/-! ### Parking and waking (R391, R392) -/

/-- Whether a flit has waited more than 0.5 µs, 50 ticks, for the link (R391). -/
def Port.wantsWake (x : Port) (now : Nat) : Bool := x.outq.any fun m => decide (m.since + 50 < now)

/-- Whether the flits of the idle interval, 2048 bits each, would have fitted in half the live wavelengths, at 200,000 bits a microsecond (R387, R391). -/
def Port.fitsHalf (x : Port) : Bool := decide (x.flits * 2048 ≤ x.idle * 200000 * (x.width / 2))

/-- PARK_REQUEST (R6, R391): at the end of an idle interval, counted on its Col die's ticker, port ev.who announces half its width if its traffic would have fitted in it. A wake under way or asked for in the same cycle wins (R392). (DEDUCED, log entry 45) -/
def execParkRequest (s : State) : Out :=
  let p := s.ev.who
  let now := s.portNow p
  let x := s.port p
  if !x.up || decide (now < x.idleAt + 100 * x.idle) then .next s
  else
    let y : Port := { x with idleAt := now, flits := 0 }
    if x.waking || x.parkPend || x.nextWidth.isSome || x.width ≤ x.minwl || !x.fitsHalf || x.wantsWake now then .next (s.setPort p y)
    else
      let n := x.width / 2
      .next (s.setPort p { y.control (controlFlit 0 n 0 x.txSeq []) with parkPend := true, nextWidth := some (n, x.txSeq) })

/-- WAKE_REQUEST (R6, R391, R392): a flit has waited more than 0.5 µs at port ev.who: the parked wavelengths retrain, once a park that has been announced is complete. -/
def execWakeRequest (s : State) : Out :=
  let x := s.port s.ev.who
  .next (if x.up && !x.parkPend && !x.waking && x.nextWidth.isNone && x.width < 8 && x.wantsWake (s.portNow s.ev.who)
    then s.setPort s.ev.who { x with waking := true } else s)

/-- WAKE_DONE (R391): retraining is done at port ev.who: STRIPE with width 8 is sent. -/
def execWakeDone (s : State) : Out :=
  let x := s.port s.ev.who
  .next (if x.up && x.waking then
    s.setPort s.ev.who { x.control (controlFlit 0 8 0 x.txSeq []) with waking := false, nextWidth := some (8, x.txSeq) } else s)

/-! ### Failing what waits (R393) -/

/-- The collective that a queued message belongs to. -/
def Msg.coll? (m : Msg) (s : State) : Option Coll :=
  if m.cls = 2 || m.cls = 3 then s.colls.find? fun c => c.gid == mGid m.bytes && c.k == mK m.bytes && m.ctx == c.ctx else none

/-- Fail the messages that wait for a port that is link-down (R393), those sent and not acknowledged among them: the collectives concerned are aborted with CODE 0x05. -/
def State.failPort (s : State) (p : Nat) : State :=
  let x := s.port p
  if x.up then s
  else
    let s := s.setPort p { x with outq := [], tail := [], replay := [] }
    x.waiting.foldl (fun s m => match m.coll? s with
      | some c => s.collAbort c.ctx c.gid c.k .other
      | none => s) s

end Sys2Proof.Machine
end

