-- ==== Sys2Proof/Machine/Mgmt.lean ====
section
/-! DEFINITION. Management commands (R378, R379): the command mailbox and the effect of each command. ev.flag: the command is Ultik's own, whose block ev.bytes holds; otherwise it is the host's, whose block is MCMD. -/

namespace Sys2Proof.Machine

/-! ### The mailbox (R378) -/

/-- What a command comes to: done with a RESULT, V0 and V1, or still running. -/
inductive MgmtOut where
  | done (res : Nat) (v0 v1 : Nat) (s : State)
  | busy (s : State)

/-- A command is done (R378): the host's writes MRES and RESULT, sets DONE and clears BUSY; Ultik's own has its results apart. Vector 0 when FLAGS[0] = 1. (DEDUCED, log entry 46) -/
def State.mgmtDone (s : State) (ultik : Bool) (m : MgmtW) (res v0 v1 : Nat) : State :=
  let s := if ultik then { s with
      uBusy := false, uResult := BitVec.ofNat 16 res, uRes0 := BitVec.ofNat 64 v0, uRes1 := BitVec.ofNat 64 v1 }
    else { s with
      mBusy := false, mDone := true, mCmd := m.cmd, mResult := BitVec.ofNat 16 res
      mres0 := BitVec.ofNat 64 v0, mres1 := BitVec.ofNat 64 v1 }
  if m.flags.getLsbD 0 then s.signal 0 else s

/-- Offset of MGO, by which a command is refused in the denial log. (DESIGN CHOICE, log entry 14) -/
def mgoAt : Nat := 0xA00048

/-- The command that runs (R378): whether it is Ultik's, and its block. BUSY stands also while the host's waits for Ultik's. -/
def State.runningCmd (s : State) : Option (Bool × BitVec 512) :=
  if s.uBusy then some (true, s.uCmd)
  else if s.mBusy && !s.mgmtQ.contains none then some (false, s.mcmd)
  else none

/-- Strands that run again after a migration that has halted their teams, or pre-empted with their context (R236). -/
def State.restart (s : State) (keys : List Nat) : State :=
  keys.foldl (fun s k => (s.team k).sids.foldl (fun s sid => s.modStrand sid fun st =>
    if st.halt = .moving then { st with halt := if s.ctxHalted (s.team k).ctx then .preempt else .none } else st) s) s

/-- The teams that the running MIGRATE has halted go on: a command whose RESULT is not 0 has changed nothing (R236, R378). -/
def State.unmove (s : State) : State := { s.restart s.moving with moving := [] }

/-- What a command's run comes to. A RESULT that is not 0 changes nothing (R378). -/
def State.cmdCame (s : State) (ultik : Bool) (m : MgmtW) (busy : State → State) : MgmtOut → State
  | .done res v0 v1 t => (if res = 0 then t else s.unmove).mgmtDone ultik m res v0 v1
  | .busy t => busy t

/-- Run a command (R378). -/
def State.runMgmt (s : State) (ultik : Bool) (b : BitVec 512) (body : MgmtW → State → MgmtOut) : State :=
  let m := mgmtFields b
  let s := { s with mStart := s.stepNo, moving := [], ev := { s.ev with flag := ultik } }
  s.cmdCame ultik m (fun t => if ultik then { t with uBusy := true, uCmd := b } else { t with mBusy := true, mCmd := m.cmd }) (body m s)

/-- A command is given (R378): commands run one after another, in the order in which they are given. -/
def State.give (s : State) (ultik : Bool) (b : BitVec 512) (body : MgmtW → State → MgmtOut) : State :=
  if s.runningCmd.isSome || s.mgmtQ != [] then
    { s with mgmtQ := s.mgmtQ ++ [if ultik then some b else none], mBusy := s.mBusy || !ultik }
  else s.runMgmt ultik b body

/-- The host writes 1 to MGO (R378): discarded and logged while BUSY = 1. -/
def State.hostMgo (s : State) (body : MgmtW → State → MgmtOut) : State :=
  if s.mBusy then s.deny 4 0 0x400 1 mgoAt else s.give false s.mcmd body

/-- A command of Ultik, or of the host, which needs W on the management space (R378, R380). (DEDUCED, log entry 46) -/
def State.mailbox (s : State) (body : MgmtW → State → MgmtOut) : State :=
  if s.ev.flag then s.give true (BitVec.ofNat 512 (leValue s.ev.bytes)) body
  else s.hostWrite mgoAt fun s => s.hostMgo body

/-- Whether bits of an operand word from bit n up are set. -/
def wider (w : W64) (n : Nat) : Bool := decide (2 ^ n ≤ w.toNat)

/-- The checks that come first (R378, R379): reserved bits and operand bits that the table does not name, the range of CTX, the context's existence. ctx: the command names a context; new: it need not exist; bad: an unnamed operand bit is set. (DEDUCED, log entry 46) -/
def State.mgmtCheck (s : State) (m : MgmtW) (ctx new bad : Bool) (k : State → MgmtOut) : MgmtOut :=
  if m.flags.toNat / 2 != 0 || m.resv != 0 || bad then .done 1 0 0 s
  else if 1023 < m.ctx.toNat then .done 2 0 0 s
  else if !ctx && m.ctx != 0 then .done 1 0 0 s
  else if ctx && !new && (mget? s.ctxs m.ctx.toNat).isNone then .done 3 0 0 s
  else k s

/-- Done with RESULT 0 and nothing to return. -/
def ok (s : State) : MgmtOut := .done 0 0 0 s

/-! ### Contexts -/

/-- Whether a save area suits R233: inside one HBM stack of a live die, in multiples of 64 KiB. -/
def State.saveOk (s : State) (b n : Nat) : Bool :=
  b % 65536 == 0 && n % 65536 == 0 && s.inHbm b && b + n ≤ (stackOf b + 1) * 0xC00000000

/-- What is kept of a context beside it goes (R379): access entries, translations, table slots, counts of collectives, waiting appends and fault records. (DEDUCED, log entry 52) -/
def State.forgetCtx (s : State) (c : Nat) : State :=
  { s with
    acc := s.acc.filter fun p => p.1 % 2 ^ 12 != c
    tlb := s.tlb.filter fun p => p.1 / 2 ^ 48 % 1024 != c
    rkTab := s.rkTab.filter fun p => p.2.ctx != c
    collCount := s.collCount.filter fun p => p.1 / 2 ^ 48 != c
    collParts := s.collParts.filter fun p => p.ctx != c
    collDead := s.collDead.filter fun d => d.ctx != c
    appends := s.appends.filter fun a => a.ctx != c
    quiets := s.quiets.filter fun q => q.ctx != c
    faults := s.faults.filter fun f => f.park.ctx != c }

/-- CTXCREATE (R379). (DESIGN CHOICE, log entry 6) -/
def cmdCtxcreate (m : MgmtW) (s : State) : MgmtOut :=
  let n := m.w3.toNat
  s.mgmtCheck m true true (wider m.w4 8 || m.w5 != 0 || m.w6 != 0 || m.w7 != 0) fun s =>
    let c := m.ctx.toNat
    if (mget? s.ctxs c).isSome || s.startFailed.isSome then .done 4 0 0 s
    else if m.w1.toNat % 4096 != 0 || (n != 0 && !s.saveOk m.w2.toNat n) then .done 2 0 0 s
    else
      let home : Byte := if n = 0 then 0 else 1#8 <<< dieOfPa m.w2.toNat
      let s := s.forgetCtx c
      let x : Ctx := { troot := m.w1.toNat, saveBase := if n = 0 then 0 else m.w2.toNat, saveLen := n, touched := m.w4.setWidth 8 ||| home }
      ok { s with ctxs := mput s.ctxs c x }

/-- The programs of a context stop with a CODE (R318). -/
def State.stopProgs (s : State) (c : Nat) (code : Byte) : State :=
  (s.progs.filter fun p => p.2.ctx == c && p.2.running).foldl (fun s p => s.endProg p.1 code 0) s

/-- A launch is killed (R208, R209, R238): its teams end, the rest is not placed. -/
def State.killLaunch (s : State) (k status : Nat) : State :=
  let s := (s.teams.filter fun p => p.2.launch == k && p.2.alive).foldl (fun s p => s.killTeam p.1 status) s
  let l := s.launch k
  if l.st == .ended || l.isOver then s else s.endLaunch k (Nat.max l.status status)

/-- The launches of a context that have not ended. -/
def State.ctxLaunches (s : State) (c : Nat) : List Nat :=
  (s.launches.filter fun p => p.2.ctx == c && p.2.st != .ended && !p.2.isOver).map (·.1)

/-- CTXEND (R379). (DEDUCED, log entry 52) -/
def cmdCtxend (m : MgmtW) (s : State) : MgmtOut :=
  s.mgmtCheck m true false (m.w1 != 0 || m.w2 != 0 || m.w3 != 0 || m.w4 != 0 || m.w5 != 0 || m.w6 != 0 || m.w7 != 0) fun s =>
    let c := m.ctx.toNat
    if s.queues.any fun p => p.2.ctx == c && (p.2.en || p.2.drain) then .done 4 0 0 s
    else
      let s := (s.ctxLaunches c).foldl (fun s k => s.killLaunch k 8) s
      let s := ((s.stopProgs c 0x08).abortAll c .other).forgetCtx c
      ok { s with ctxs := mdel s.ctxs c }

/-- Whether an access of a context that was translated and checked before the running command started is still in flight (R89, R382): of a lane memory instruction under way. Every other access is made in the step in which it is translated and checked. -/
def State.inFlight (s : State) (ctx : Nat) : Bool :=
  s.strands.any fun p => s.ctxOf p.1 == ctx && p.2.longs.any fun o => decide (o.tag < s.mStart) && (match o.acc with
    | some a => a.todo != []
    | none => false)

/-- Done when no access is in flight that an old entry let through. -/
def State.settled (s : State) (ctx : Nat) : MgmtOut := if s.inFlight ctx then .busy s else ok s

/-- XINV (R89, R379): no translation unit holds an entry of the range any more; DONE when no access translated with one is in flight. -/
def cmdXinv (m : MgmtW) (s : State) : MgmtOut :=
  s.mgmtCheck m true false (m.w3 != 0 || m.w4 != 0 || m.w5 != 0 || m.w6 != 0 || m.w7 != 0) fun s =>
    let lo := m.w1.toNat / 65536
    let n := m.w2.toNat / 65536
    if m.w1.toNat % 65536 != 0 || m.w2.toNat % 65536 != 0 then .done 2 0 0 s
    else ({ s with tlb := s.tlb.filter fun p =>
      !(p.1 / 2 ^ 48 % 1024 == m.ctx.toNat && (n == 0 || (lo ≤ p.1 % 2 ^ 48 && p.1 % 2 ^ 48 < lo + n))) } : State).settled m.ctx.toNat

/-- PREEMPT (R234, R379): the command runs until everything of the context has stopped. -/
def cmdPreempt (m : MgmtW) (s : State) : MgmtOut :=
  s.mgmtCheck m true false (m.w1 != 0 || m.w2 != 0 || m.w3 != 0 || m.w4 != 0 || m.w5 != 0 || m.w6 != 0 || m.w7 != 0) fun s =>
    let s := s.preemptCtx m.ctx.toNat
    if s.allHalted m.ctx.toNat then ok s else .busy s

/-- RESUME (R234, R379); messages of its collectives flow again (R369). -/
def cmdResume (m : MgmtW) (s : State) : MgmtOut :=
  s.mgmtCheck m true false (m.w1 != 0 || m.w2 != 0 || m.w3 != 0 || m.w4 != 0 || m.w5 != 0 || m.w6 != 0 || m.w7 != 0) fun s =>
    ok ((List.range 32).foldl State.flowPort (s.resumeCtx m.ctx.toNat))

/-- TOUCH (R16, R379): bits of dies that are not live are ignored. -/
def cmdTouch (m : MgmtW) (s : State) : MgmtOut :=
  s.mgmtCheck m true false (wider m.w1 8 || m.w2 != 0 || m.w3 != 0 || m.w4 != 0 || m.w5 != 0 || m.w6 != 0 || m.w7 != 0) fun s =>
    ok { s with ctxs := mmod s.ctxs m.ctx.toNat fun c => { c with touched := c.touched ||| (m.w1.setWidth 8 &&& s.live) } }

/-- LOSSREL (R237, R377, R379): the context's held launches are released, or cancelled with status 10, by the agent that LOSS names when the die was lost; refused to the other one. (DEDUCED, log entry 46) -/
def cmdLossrel (m : MgmtW) (s : State) : MgmtOut :=
  s.mgmtCheck m true false (wider m.w1 1 || m.w2 != 0 || m.w3 != 0 || m.w4 != 0 || m.w5 != 0 || m.w6 != 0 || m.w7 != 0) fun s =>
    let c := m.ctx.toNat
    let (held, byHost) := match mget? s.ctxs c with
      | some x => (x.lossHeld, x.lossHost)
      | none => (false, false)
    if held && byHost == s.ev.flag then .done 4 0 0 s
    else
    let s := { s with ctxs := mmod s.ctxs c fun x => { x with lossHeld := false } }
    if !held || m.w1 = 0 then ok s
    else ok ((s.ctxLaunches c).foldl (fun s k =>
      let l := s.launch k
      if l.placed = recTeams l.recBytes && l.st == .ready then s
      else if l.placed = 0 then s.endLaunch k 10
      else s.modLaunch k fun l => { l with cancelled := true, status := Nat.max l.status 10 }) s)

/-! ### Launches and teams -/

/-- The launch of a context that an operand names (R378): the latest with the queue and sequence number. -/
def State.launchNamed (s : State) (c : Nat) (w : W64) : Option Nat :=
  ((s.launches.filter fun p => p.2.ctx == c && p.2.queue == w.toNat / 2 ^ 48 && p.2.seq == w.toNat % 2 ^ 48).getLast?).map (·.1)

/-- The team of a launch that an operand names. -/
def State.teamNamed (s : State) (c : Nat) (w id : W64) : Option Nat :=
  match s.launchNamed c w with
  | none => none
  | some k => (s.teams.find? fun p => p.2.launch == k && p.2.id == id.toNat && p.2.alive).map (·.1)

/-- KILL (R238, R318, R379). -/
def cmdKill (m : MgmtW) (s : State) : MgmtOut :=
  s.mgmtCheck m true false (wider m.w2 1 || m.w3 != 0 || m.w4 != 0 || m.w5 != 0 || m.w6 != 0 || m.w7 != 0) fun s =>
    let c := m.ctx.toNat
    if m.w2 = 1 then ok (((s.ctxLaunches c).foldl (fun s k => s.killLaunch k 8) s).stopProgs c 0x08)
    else match s.launchNamed c m.w1 with
      | none => .done 3 0 0 s
      | some k => ok (s.killLaunch k 8)

/-- TEAMGO (R128, R379): a team that HALT stopped goes on; in a pre-empted context it stays halted until RESUME. -/
def cmdTeamgo (m : MgmtW) (s : State) : MgmtOut :=
  s.mgmtCheck m true false (m.w3 != 0 || m.w4 != 0 || m.w5 != 0 || m.w6 != 0 || m.w7 != 0) fun s =>
    match s.teamNamed m.ctx.toNat m.w1 m.w2 with
    | none => .done 3 0 0 s
    | some key =>
      let sids := (s.team key).sids
      let pre := s.ctxHalted m.ctx.toNat
      if !(sids.any fun sid => (s.strand sid).halt == .byHalt) then .done 4 0 0 s
      else ok (sids.foldl (fun s sid => s.modStrand sid fun st =>
        if st.halt = .byHalt then { st with halt := if pre then .preempt else .none } else st) s)

/-- A tier region above a core. -/
def State.region (s : State) (c t : Nat) : Region := (mget? s.regions (c * 4 + t)).getD {}

/-- Whether temperature keeps a core's clock down (R396). -/
def State.hot (s : State) (c : Nat) : Bool := (List.range 4).any fun t => 2 ≤ (s.region c t).action

/-- Whether the teams of a core are the host's to move (R377, R401): MIGR is 1, or the core is hot, and no event that arose under MIGR = 0 stands for it; a retired core is Ultik's to empty (R399). (DEDUCED, log entry 47) -/
def State.hostMoves (s : State) (c : Nat) : Bool := (s.mode.getLsbD 3 || s.hot c) && !s.heat.contains c && !s.retired.contains c

/-- MIGRATE once its operands have been checked (R236): wait for non-preemptible regions, halt the cluster set, copy it, let it go on; none: the target has no room. (DEDUCED, log entry 47) -/
def State.migrate (s : State) (key target : Nat) : MgmtOut :=
  match s.migrateCores key target with
  | none => .done 4 0 0 s
  | some moves =>
    let keys := moves.map fun x => x.1.1
    let npr := keys.any fun k => (s.team k).sids.any fun sid => (s.strand sid).npr.isSome
    if npr then .busy s
    else
      let s := { keys.foldl (fun s k => s.haltTeam k .moving) s with moving := keys }
      if !(keys.all fun k => s.copyable (s.team k)) then .busy s
      else ok ({ s.migrateTeam moves with moving := [] }.restart keys)

/-- MIGRATE (R236, R379). Ultik moves no team for heat under MIGR = 1, nor one whose event was posted to the host (R377, R401); it still empties a retired core (R399). (DEDUCED, log entry 47) -/
def cmdMigrate (m : MgmtW) (s : State) : MgmtOut :=
  s.mgmtCheck m true false (wider m.w3 6 || m.w4 != 0 || m.w5 != 0 || m.w6 != 0 || m.w7 != 0) fun s =>
    match s.teamNamed m.ctx.toNat m.w1 m.w2 with
    | none => .done 3 0 0 s
    | some key =>
      let core := m.w3.toNat
      if !s.dieLive (dieOf core) then .done 2 0 0 s
      else if s.ev.flag && s.moving = [] && s.hostMoves (s.team key).core then .done 4 0 0 s
      else if (s.team key).st != .running then .done 4 0 0 s
      else if (s.team key).core = core then ok s
      else s.migrate key core

/-- The block of a MIGRATE of a team to a core (R379). -/
def State.moveBlock (s : State) (t : Team) (core : Nat) : List Byte :=
  let l := s.launch t.launch
  leBytes 1 0x08 ++ leBytes 1 0 ++ leBytes 2 t.ctx ++ leBytes 4 0 ++ leBytes 8 (l.queue * 2 ^ 48 + l.seq) ++ leBytes 8 t.id
  ++ leBytes 8 core ++ leBytes 32 0

/-! ### The other commands -/

/-- Whether a running program's command uses a namespace entry (R379). -/
def State.nsUsed (s : State) (e : Nat) : Bool :=
  (s.progs.any fun p => p.2.running && (match p.2.cur with
    | some c => (c.op == .save || c.op == .fetch) && (c.w.w0.extractLsb' 11 9).toNat == e
    | none => false)) || s.nvme.any fun r => r.ns == e

/-- NSDEF (R313, R379). -/
def cmdNsdef (m : MgmtW) (s : State) : MgmtOut :=
  s.mgmtCheck m false false (wider m.w1 9 || wider m.w2 33 || wider m.w4 48 || wider m.w5 1 || m.w6 != 0 || m.w7 != 0) fun s =>
    let e := m.w1.toNat
    if s.nsUsed e then .done 4 0 0 s
    else if m.w5 = 0 then ok { s with ns := mdel s.ns e }
    else
      let x : NsEntry := { nsid := m.w2.setWidth 32, big := m.w2.getLsbD 32, cap := m.w3.toNat
                           sq := m.w4.toNat % 2 ^ 16, cq := m.w4.toNat / 2 ^ 16 % 2 ^ 16, depth := m.w4.toNat / 2 ^ 32 }
      ok { s with ns := mput s.ns e x }

/-- Whether a target kind has a unit and a master (R380). -/
def accRange (kind unitNo master : Nat) : Bool :=
  let isCtx := decide (master < 1024)
  match kind with
  | 0 => unitNo < 1536 && (isCtx || master == 0x400)
  | 1 => unitNo < 1 && isCtx
  | 2 => unitNo < 512 && isCtx
  | 3 => unitNo < 32 && isCtx
  | 4 => unitNo < 1 && (master == 0x400 || (0x500 ≤ master && master < 0x520))
  | _ => false

/-- ATSET (R380, R382): DONE when no access of the master checked by the old entry is in flight; the host's needs W on the management space still when it runs (RESULT 5). -/
def cmdAtset (m : MgmtW) (s : State) : MgmtOut :=
  let kind := m.w1.toNat % 2 ^ 4
  let unitNo := m.w1.toNat / 2 ^ 16 % 2 ^ 16
  let master := m.w1.toNat / 2 ^ 32 % 2 ^ 16
  s.mgmtCheck m false false (wider m.w1 48 || m.w1.toNat / 2 ^ 4 % 2 ^ 12 != 0 || wider m.w2 2 || m.w3 != 0 || m.w4 != 0 || m.w5 != 0
      || m.w6 != 0 || m.w7 != 0) fun s =>
    if !s.ev.flag && s.mStart = s.stepNo && !s.hostMay true then .done 5 0 0 s
    else if !accRange kind unitNo master then .done 2 0 0 s
    else ({ s with acc := mset s.acc (accKey kind unitNo master) (m.w2.setWidth 2) 0 } : State).settled master

/-- TAGRD (R348): the tag and the home slice of a line. -/
def cmdTagrd (m : MgmtW) (s : State) : MgmtOut :=
  let pa := m.w1.toNat
  s.mgmtCheck m false false (m.w2 != 0 || m.w3 != 0 || m.w4 != 0 || m.w5 != 0 || m.w6 != 0 || m.w7 != 0) fun s =>
    if !s.inHbm pa || pa % 128 != 0 then .done 2 0 0 s else .done 0 (s.tag (pa / 128)).toNat (sliceOf pa) s

/-- POISONCLR (R354): the entry of a page leaves the poison list. -/
def cmdPoisonclr (m : MgmtW) (s : State) : MgmtOut :=
  let pa := m.w1.toNat
  s.mgmtCheck m false false (m.w2 != 0 || m.w3 != 0 || m.w4 != 0 || m.w5 != 0 || m.w6 != 0 || m.w7 != 0) fun s =>
    if !s.inHbm pa || pa % 65536 != 0 then .done 2 0 0 s
    else if !s.poisonPages.contains (pa / 65536) then .done 3 0 0 s
    else ok { s with poisonPages := s.poisonPages.filter (· != pa / 65536) }

/-- PORTFAIL (R393). -/
def cmdPortfail (m : MgmtW) (s : State) : MgmtOut :=
  let p := m.w1.toNat
  s.mgmtCheck m false false (wider m.w1 5 || m.w2 != 0 || m.w3 != 0 || m.w4 != 0 || m.w5 != 0 || m.w6 != 0 || m.w7 != 0) fun s =>
    if (s.port p).up then .done 4 0 0 s else ok (s.failPort p)

/-- PORTSET (R391). -/
def cmdPortset (m : MgmtW) (s : State) : MgmtOut :=
  let p := m.w1.toNat
  let n := m.w2.toNat
  s.mgmtCheck m false false (wider m.w1 5 || m.w4 != 0 || m.w5 != 0 || m.w6 != 0 || m.w7 != 0) fun s =>
    if !(n == 1 || n == 2 || n == 4 || n == 8) || m.w3 = 0 || decide (1000 < m.w3.toNat) then .done 2 0 0 s
    else ok (s.setPort p { s.port p with minwl := n, idle := m.w3.toNat })

/-- A CMD that names no command (R378): RESULT 1. -/
def cmdUnknown (_ : MgmtW) (s : State) : MgmtOut := .done 1 0 0 s

/-! ### Commands that wait or go on -/

/-- The command of a CMD (R378, R379). -/
def cmdBody (cmd : Nat) : MgmtW → State → MgmtOut :=
  match cmd with
  | 0x01 => cmdCtxcreate
  | 0x02 => cmdCtxend
  | 0x03 => cmdXinv
  | 0x04 => cmdPreempt
  | 0x05 => cmdResume
  | 0x06 => cmdKill
  | 0x07 => cmdTeamgo
  | 0x08 => cmdMigrate
  | 0x09 => cmdTouch
  | 0x0A => cmdNsdef
  | 0x0B => cmdAtset
  | 0x0C => cmdTagrd
  | 0x0D => cmdPoisonclr
  | 0x0E => cmdLossrel
  | 0x0F => cmdPortfail
  | 0x10 => cmdPortset
  | _ => cmdUnknown

/-- The commands that wait run, in order, until one does not end at once (R378). n: how many may. -/
def State.mgmtNext : Nat → State → State
  | 0, s => s
  | n + 1, s =>
    if s.runningCmd.isSome then s
    else match s.mgmtQ with
      | [] => s
      | o :: q =>
        let b := o.getD s.mcmd
        (({ s with mgmtQ := q } : State).runMgmt o.isSome b (cmdBody (mgmtFields b).cmd.toNat)).mgmtNext n

/-- The running command goes on (R378), where it is this one: of Ultik (ev.flag) or of the host, with this CMD; none otherwise. -/
def State.goOn (s : State) (cmd : Nat) : Option State :=
  match s.runningCmd with
  | none => none
  | some (u, b) =>
    let m := mgmtFields b
    if u = s.ev.flag ∧ m.cmd.toNat = cmd then
      some ((s.cmdCame u m id (cmdBody cmd m s)).mgmtNext s.mgmtQ.length)
    else none

/-- A command given, or the running one gone on with. -/
def State.giveOrGoOn (s : State) (cmd : Nat) : State := (s.goOn cmd).getD (s.mailbox (cmdBody cmd))

/-! ### The commands as instructions -/

/-- CTXCREATE (R379): the command in MCMD. -/
def execCtxcreate (s : State) : Out := .next (s.mailbox cmdCtxcreate)
/-- CTXEND (R379). -/
def execCtxend (s : State) : Out := .next (s.mailbox cmdCtxend)
/-- XINV (R89, R379). While it runs, the step goes on with it. -/
def execXinv (s : State) : Out := .next (s.giveOrGoOn 0x03)
/-- PREEMPT (R234, R379). -/
def execPreempt (s : State) : Out := .next (s.mailbox cmdPreempt)
/-- RESUME (R234, R379). -/
def execResume (s : State) : Out := .next (s.mailbox cmdResume)
/-- KILL (R238, R379). -/
def execKill (s : State) : Out := .next (s.mailbox cmdKill)
/-- TEAMGO (R128, R379). -/
def execTeamgo (s : State) : Out := .next (s.mailbox cmdTeamgo)
/-- MIGRATE (R236, R379). While it runs, the step goes on with it. -/
def execMigrate (s : State) : Out := .next (s.giveOrGoOn 0x08)
/-- TOUCH (R16, R379). -/
def execTouch (s : State) : Out := .next (s.mailbox cmdTouch)
/-- NSDEF (R313, R379). -/
def execNsdef (s : State) : Out := .next (s.mailbox cmdNsdef)
/-- ATSET (R380, R382). While it runs, the step goes on with it. -/
def execAtset (s : State) : Out := .next (s.giveOrGoOn 0x0B)
/-- TAGRD (R348, R379). -/
def execTagrd (s : State) : Out := .next (s.mailbox cmdTagrd)
/-- POISONCLR (R354, R379). -/
def execPoisonclr (s : State) : Out := .next (s.mailbox cmdPoisonclr)
/-- LOSSREL (R237, R379). -/
def execLossrel (s : State) : Out := .next (s.mailbox cmdLossrel)
/-- PORTFAIL (R379, R393). -/
def execPortfail (s : State) : Out := .next (s.mailbox cmdPortfail)
/-- PORTSET (R379, R391). -/
def execPortset (s : State) : Out := .next (s.mailbox cmdPortset)
/-- UNKNOWN_CMD (R378): any other CMD gives RESULT 1. -/
def execUnknownCmd (s : State) : Out := .next (s.mailbox cmdUnknown)

/-- PREEMPTION_DONE (R234): everything of context ev.who that can stop has stopped; the PREEMPT command that waits for it is done. (DEDUCED, log entry 47) -/
def execPreemptionDone (s : State) : Out :=
  let c := s.ev.who
  if !s.ctxHalted c then .next s
  else
    let s := s.preemptNow c
    .next (match s.runningCmd with
      | none => s
      | some (u, b) =>
        let m := mgmtFields b
        if s.allHalted c && m.cmd == 0x04 && m.ctx.toNat == c then (s.mgmtDone u m 0 0 0).mgmtNext s.mgmtQ.length else s)

/-- The host starts the command in MCMD by its CMD (R378, R379). -/
def State.runMcmd (s : State) : State := s.hostMgo (cmdBody (mgmtFields s.mcmd).cmd.toNat)

end Sys2Proof.Machine
end

