-- ==== Sys2Proof/Machine/HostIf.lean ====
section
/-! DEFINITION. What the host writes and reads in the management space (R373 to R377, R394, R395): answers to service-queue entries, MODE, PLIM, other registers; what a read of every region gives. -/

namespace Sys2Proof.Machine

/-- Offsets that the model gives to registers of regions whose inner layout the spec does not give (DESIGN CHOICE, log entry 14). -/
def modeAt : Nat := 0x400000
def svcBaseAt : Nat := 0x400008
def svcLogAt : Nat := 0x400010
def answerAt : Nat := 0x400020
def plimAt : Nat := 0x900000
def nonceAt : Nat := 0x1000

/-! ### Answers (R375) -/

/-- A write that is discarded and logged. -/
def State.discard (s : State) (off : Nat) : State := s.deny 4 0 0x400 1 off

/-- Close an entry: its slot is free. -/
def State.svcClose (s : State) (q : Nat) : State := ({ s with svc := s.svc.filter fun e => e.seq != q } : State).svcFlush

/-- The results of a SYSC arrive in a1 and a2 (R125). -/
def State.syscAnswer (s : State) (q : Nat) (v0 v1 : W64) : State :=
  { s with strands := s.strands.map fun p =>
      if p.2.replies.any fun r => r.svc == some q then
        (p.1, (({ p.2 with replies := p.2.replies.filter fun r => r.svc != some q } : Strand).setReg 1 v0).setReg 2 v1)
      else p }

/-- The host's answer about a launch's predecessors (R375, R377). -/
def State.depAnswer (s : State) (q code : Nat) : State :=
  match s.launches.find? fun p => p.2.hostDep == some q && p.2.st == .submitted with
  | none => s
  | some p => if code = 0 then s.modLaunch p.1 fun l => { l with st := .ready } else s.endLaunch p.1 5

/-- What the answer to an open entry does; none where CODE is outside the values of its type (R375). bs: the data that an NVMe Read has brought. -/
def State.answerEntry (s : State) (e : SvcEntry) (code : Nat) (v0 v1 : W64) (bs : List Byte) : Option State :=
  match e.ty with
  | 1 =>
    let i := s.faults.findIdx fun f => f.words == e.body
    if code = 0 then some (s.answerRetry i) else if code = 1 then some (s.answerDeliver i) else none
  | 2 => some (s.nvmeDone (s.nvme.findIdx fun r => r.seq == some e.seq) code bs)
  | 3 => if code = 0 then some (s.syscAnswer e.seq v0 v1) else none
  | 4 => if code = 0 || code = 5 then some (s.depAnswer e.seq code) else none
  | _ => if code = 0 then some s else none

/-- An answer written by the host (R375): one that names no open entry, or whose CODE is outside the values of its type, is discarded and logged. -/
def State.answer (s : State) (q code : Nat) (v0 v1 : W64) (bs : List Byte) : State :=
  match s.svc.find? fun e => e.seq == q && e.posted with
  | none => s.discard answerAt
  | some e =>
    match s.answerEntry e code v0 v1 bs with
    | none => s.discard answerAt
    | some t => t.svcClose q

/-- SERVICE_ANSWER (R375): the host answers entry ev.addr with CODE ev.size, V0 ev.val, V1 ev.val2; ev.bytes: the data that an NVMe Read has brought into the staging buffer (R316). -/
def execServiceAnswer (s : State) : Out :=
  .next (s.hostWrite answerAt fun s =>
    s.answer s.ev.addr s.ev.size (BitVec.ofNat 64 s.ev.val) (BitVec.ofNat 64 s.ev.val2) s.ev.bytes)

/-! ### MODE and PLIM (R376, R395) -/

/-- A write of MODE: a non-zero reserved bit refuses it whole. -/
def State.setMode (s : State) (v : Nat) : State := if v < 32 then { s with mode := BitVec.ofNat 5 v } else s

/-- MODE_WRITE (R376, R377). -/
def execModeWrite (s : State) : Out := .next (s.hostWrite modeAt fun s => s.setMode s.ev.val)

/-- A write of PLIM: from 1,000 W to 3,200 W, otherwise refused. -/
def State.setPlim (s : State) (v : Nat) : State := if 1000 ≤ v && v ≤ 3200 then { s with plim := v } else s

/-- PLIM_WRITE (R395). -/
def execPlimWrite (s : State) : Out := .next (s.hostWrite plimAt fun s => s.setPlim s.ev.val)

/-! ### Other registers (R373, R375, R378) -/

/-- Write of the service queue's base or size (R375): while entries are open it has no effect; the size, 4 to 15, enables the ring, and entries are counted from 0. (DESIGN CHOICE, log entry 8) (DEDUCED, log entry 49) -/
def State.setSvc (s : State) (off v : Nat) : State :=
  if s.svc.any (·.posted) then s
  else if off = svcBaseAt then { s with svcBase := BitVec.ofNat 64 v }
  else if 4 ≤ v && v ≤ 15 then
    ({ s with svcLog := v, svcOn := true, svcNext := if s.svc = [] then 0 else s.svcNext } : State).svcFlush
  else s

/-- Bytes written into MCMD (R378). -/
def State.setMcmd (s : State) (o n v : Nat) : State :=
  let m := (2 ^ (8 * n) - 1) * 2 ^ (8 * o)
  { s with mcmd := (s.mcmd &&& ~~~(BitVec.ofNat 512 m)) ||| (BitVec.ofNat 512 (v % 2 ^ (8 * n) * 2 ^ (8 * o))) }

/-- A write of n bytes with value v at an offset of the management space. (DESIGN CHOICE, log entry 14) What an answer whose 4 zero bytes are not 0 does the spec does not state: they are not looked at. (DESIGN CHOICE, log entry 70) -/
def State.writeReg (s : State) (off n v : Nat) : State :=
  if 0xA00000 ≤ off && off + n ≤ 0xA00040 then
    if s.mBusy then s.discard off else s.setMcmd (off - 0xA00000) n v
  else if off = 0xA00040 then (if v / 2 % 2 = 1 then { s with mDone := false } else s)
  else if off = mgoAt then (if s.mBusy then s.discard off else if v = 1 then s.runMcmd else s)
  else if off = modeAt then s.setMode v
  else if off = svcBaseAt || off = svcLogAt then s.setSvc off v
  else if off = answerAt then
    s.answer (v % 2 ^ 64) (v / 2 ^ 64 % 2 ^ 32) (BitVec.ofNat 64 (v / 2 ^ 128)) (BitVec.ofNat 64 (v / 2 ^ 192)) []
  else if off = plimAt then s.setPlim v
  else if off = nonceAt && n = 32 then s.attRequest 0 (BitVec.ofNat 256 v) 0
  else if 0x200000 ≤ off && off < 0x300000 && off % 32 = 0 && n = 32 then s.writeQueue ((off - 0x200000) / 32) v
  else s.discard off

/-- REGISTER_WRITE (R371, R373, R378, R381): the host writes ev.size bytes with value ev.val at offset ev.addr of the management space over CXL.io. A doorbell is exempt from the access table; every other write needs W. -/
def execRegisterWrite (s : State) : Out :=
  let off := s.ev.addr
  if 0x100000 ≤ off && off < 0x120000 then
    .next (if !s.linkUp then s
      else if s.ev.size = 4 && off % 4 = 0 then s.doorbell ((off - 0x100000) / 4) (BitVec.ofNat 32 s.ev.val) else s.discard off)
  else .next (s.hostWrite off fun s => s.writeReg off s.ev.size s.ev.val)

/-! ### What a read gives (R373; the layout inside a region: DESIGN CHOICE, log entry 14) -/

/-- 64-bit word i of a number that stands from word 0 on. -/
def wordOf (v i : Nat) : Nat := v / 2 ^ (64 * i) % 2 ^ 64

/-- 64-bit word i of bytes. -/
def wordIn (bs : List Byte) (i : Nat) : Nat := fld bs (8 * i) 8

/-- Package status: word 0 START-FAILED (bit 0) with the stage number (bits [15:8]) (R383), word 1 LIVEDIES (R15), from word 32 on MEAS0 to MEAS7 (R384), word 0x1FF and those from 0x200 on the attestation mailbox: whether the host's last request was refused as BUSY, and the host's last report (R385). (DESIGN CHOICE, log entry 14) -/
def State.statusWord64 (s : State) (i : Nat) : Nat :=
  if i = 0 then (match s.startFailed with
    | some n => 1 + n * 256
    | none => 0)
  else if i = 1 then s.livedies.toNat
  else if 32 ≤ i && i < 96 then wordOf (s.measOf ((i - 32) / 8)).toNat ((i - 32) % 8)
  else if i = 0x1FF then (if s.attBusy then 1 else 0)
  else if 0x200 ≤ i && i < 0x1200 then
    (match (s.attOut.filter fun p => p.1 == 0).getLast? with
    | some p => wordIn p.2 (i - 0x200)
    | none => 0)
  else 0

/-- The access entries in a word of the access-table window: 32 of two bits, entry e of a target kind being unit × masters + master. -/
def State.accWord (s : State) (kind masters i : Nat) : Nat :=
  (List.range 32).foldl (fun a j =>
    let e := 32 * i + j
    let m := e % masters
    let master := if kind = 4 then (if m = 0 then 0x400 else 0x500 + (m - 1)) else m
    a + (s.accEntry kind (e / masters) master).toNat * 4 ^ j) 0

/-- A record of the denial log (R381): target kind, kind of access, unit, master; the address. -/
def Denial.word (d : Denial) (i : Nat) : Nat :=
  if i = 0 then d.target % 2 ^ 8 + d.kind % 2 ^ 8 * 2 ^ 8 + d.unitNo % 2 ^ 16 * 2 ^ 16 + d.master % 2 ^ 16 * 2 ^ 32 else d.addr % 2 ^ 64

/-- Access-table window and denial log: HBM regions at 0x50_0000 (2048 masters a unit), host window at 0x5C_0000, namespaces at 0x60_0000, ports at 0x62_0000, management space at 0x63_0000 (64 masters); the denial log at 0x70_0000, its counter at 0x70_1000. (DESIGN CHOICE, log entry 14) -/
def State.tableWord (s : State) (off : Nat) : Nat :=
  if off < 0x5C0000 then s.accWord 0 2048 ((off - 0x500000) / 8)
  else if off < 0x5C0100 then s.accWord 1 1024 ((off - 0x5C0000) / 8)
  else if 0x600000 ≤ off && off < 0x620000 then s.accWord 2 1024 ((off - 0x600000) / 8)
  else if 0x620000 ≤ off && off < 0x622000 then s.accWord 3 1024 ((off - 0x620000) / 8)
  else if 0x630000 ≤ off && off < 0x630010 then s.accWord 4 64 ((off - 0x630000) / 8)
  else if 0x700000 ≤ off && off < 0x701000 then
    (match s.denials[(off - 0x700000) / 16]? with
    | some d => d.word (off / 8 % 2)
    | none => 0)
  else if off = 0x701000 then s.denialCount.toNat
  else 0

/-- Power and thermal registers: PLIM, at 0x90_1000 + 16c core c's clock step (word 0) and the readings of its four regions, 16 bits each (word 1) (R396), at 0x90_2000 the readings of the Basin die and the Col dies, at 0x90_3000 + 8c the corrected errors of core c (R398), at 0x90_4000 the retired cores (R399). (DESIGN CHOICE, log entry 14) -/
def State.powerWord (s : State) (off : Nat) : Nat :=
  let reading := fun k => ((mget? s.regions k).getD {}).reading % 2 ^ 16
  if off = plimAt then s.plim
  else if 0x901000 ≤ off && off < 0x901400 then
    let c := (off - 0x901000) / 16
    if off / 8 % 2 = 0 then mget s.clock c 0 else (List.range 4).foldl (fun a t => a + reading (c * 4 + t) * 2 ^ (16 * t)) 0
  else if 0x902000 ≤ off && off < 0x902028 then reading ((64 + (off - 0x902000) / 8) * 4)
  else if 0x903000 ≤ off && off < 0x903200 then mget s.corrected ((off - 0x903000) / 8) 0 % 2 ^ 64
  else if off = 0x904000 then s.retired.foldl (fun a c => a + 2 ^ (c % 64)) 0
  else 0

/-- Command mailbox (R378) and poison list (R352): a line entry or, from 0xA2_0000 on, a page entry is its physical address with bit 0 set. (DESIGN CHOICE, log entry 14) -/
def State.mailWord (s : State) (off : Nat) : Nat :=
  let i := (off - 0xA00000) / 8
  if i < 8 then wordOf s.mcmd.toNat i
  else if i = 8 then (if s.mBusy then 1 else 0) + (if s.mDone then 2 else 0) + s.mCmd.toNat * 2 ^ 8 + s.mResult.toNat * 2 ^ 16
  else if i = 10 then s.mres0.toNat
  else if i = 11 then s.mres1.toNat
  else if 0xA10000 ≤ off && off < 0xA20000 then
    (match s.poisonLines[(off - 0xA10000) / 8]? with
    | some ln => ln * 128 + 1
    | none => 0)
  else if 0xA20000 ≤ off && off < 0xA21000 then
    (match s.poisonPages[(off - 0xA20000) / 8]? with
    | some p => p * 65536 + 1
    | none => 0)
  else 0

/-- The 64-bit word at an offset of the management space, a multiple of 8: reserved regions, and the doorbells, read 0 (R373). -/
def State.mgmtWord (s : State) (off : Nat) : Nat :=
  if off < 0x100000 then s.statusWord64 (off / 8)
  else if off < 0x200000 then 0
  else if off < 0x300000 then wordOf (s.queue ((off - 0x200000) / 32)).word (off / 8 % 4)
  else if off < 0x400000 then 0
  else if off = modeAt then s.mode.toNat
  else if off = svcBaseAt then s.svcBase.toNat
  else if off = svcLogAt then s.svcLog
  else if off < 0x500000 then 0
  else if off < 0x800000 then s.tableWord off
  else if off < 0x800800 then (if off % 64 = 0 then (s.port ((off - 0x800000) / 64)).status.toNat else 0)
  else if off < 0x900000 then 0
  else if off < 0xA00000 then s.powerWord off
  else s.mailWord off

/-- A byte of the management space. -/
def State.mgmtByte (s : State) (off : Nat) : Byte := BitVec.ofNat 8 (s.mgmtWord (off / 8 * 8) / 2 ^ (8 * (off % 8)))

/-- A read of REPL counts the replays anew (R394). -/
def State.portsRead (s : State) (off n : Nat) : State :=
  (List.range 32).foldl (fun s p =>
    let a := 0x800000 + 64 * p + 4
    if off ≤ a && a < off + n && (mget? s.ports p).isSome then s.setPort p { s.port p with repl := 0 } else s) s

/-- The host reads n bytes of the management space over CXL.io (R371, R373, R380, R381): it needs R, except at the doorbells; a denied read completes with Completer Abort and is logged. -/
def State.hostRead (s : State) (off n : Nat) : State :=
  if !s.linkUp then s
  else if !(0x100000 ≤ off && off < 0x120000) && !s.hostMay false then { s.deny 4 0 0x400 0 off with cio := none }
  else { s.portsRead off n with cio := some ((List.range n).map fun i => s.mgmtByte (off + i)) }

end Sys2Proof.Machine
end

