-- ==== Sys2Proof/Machine/LaneCtl.lean ====
section
/-! DEFINITION. Control flow of the lane stream (R59, R177 to R184): blocks, sides, the divergence stack. -/

namespace Sys2Proof.Machine

/-- A control instruction: it stands only as the last instruction of its clause (R57), and it sets its sides itself. -/
def laneCtl (w : LaneW) (body : LaneIn → M Unit) : State → Out := laneRun w (fun x => do
  let sd := ((← me).laneCtx x.win).side x.sideB
  if sd.left != 1 then illegal
  body x) fun _ c => c

/-- Change the lane stream that an instruction runs in. -/
def modCtx (x : LaneIn) (f : LaneCtx → LaneCtx) : M Unit := modMe fun st => st.setLaneCtx x.win (f (st.laneCtx x.win))

/-- A side that goes on at a unit, a header. -/
def Side.goTo (sd : Side) (u : W32) : Side := { sd with pc := u, left := 0, st := .running, reissue := [] }

/-! ### The divergence stack -/

/-- STATE of a side as a record holds it. -/
def stateCode (st : SideState) : Nat :=
  match st with
  | .running => 0
  | .parkedJoin => 1
  | .parkedEnd => 2

/-- A divergence-stack record as a number of 32 bytes (R184). -/
def Side.record (sd : Side) : Nat :=
  sd.mask.toNat + sd.pc.toNat * 2 ^ 64 + sd.hdr.toNat * 2 ^ 96 + stateCode sd.st * 2 ^ 128

/-- Push a side (R184): room, then the record's store through the strand's P translation. What ERET.retry still has to issue on the side stays with the lane engine, as the place at which the side goes on then does (R147). -/
def pushSide (x : LaneIn) (sd : Side) : M Unit := do
  let st ← me
  let c := st.laneCtx x.win
  let a := st.recAddr x.win c.depth
  if a < st.segs.p.base.toNat then
    throw (.trap { code := 0x06, tmask := x.active, faddr := BitVec.ofInt 64 a } [])
  let p ← xlateMine a.toNat { w := true } 1 1 1 (BitVec.ofInt 64 a)
  writePlace p 32 sd.record false
  modCtx x fun c => { c with depth := c.depth + 1, spill := some .push, spilled := (sd.no, sd.past, sd.reissue) :: c.spilled }

/-- LBR (R180). -/
def execLbr (w : LaneW) (s : State) : Out := laneCtl w (fun x => do
  let c := (← me).laneCtx x.win
  let sd := c.side x.sideB
  let o := c.side (!x.sideB)
  let t := x.active
  let f := sd.mask &&& ~~~t
  let n := sd.pc + 1
  let tag := (← get).stepNo
  let past := (← me).pastOf sd
  if t = 0 then modCtx x fun c => c.setSide x.sideB (sd.goTo n)
  else if f = 0 then modCtx x fun c => c.setSide x.sideB (sd.goTo w.low)
  else
    if o.live then pushSide x o
    modCtx x fun c =>
      { (c.setSide x.sideB { sd.goTo n with mask := f }).setSide (!x.sideB)
          { pc := w.low, mask := t, live := true, hdr := w.low, no := tag, past := past } with lastB := true }) s

/-- LBRA (R180). -/
def execLbra (w : LaneW) (s : State) : Out := laneCtl w (fun x => do
  let sd := ((← me).laneCtx x.win).side x.sideB
  let take := if w.md = 0 then x.active != 0 else x.active == sd.mask
  modCtx x fun c => c.setSide x.sideB (sd.goTo (if take then w.low else sd.pc + 1))) s

/-- JOIN and END (R181). Parked sides keep the unit of their JOIN or END as their PC. (DEDUCED, log entry 32) -/
def reconverge (isEnd : Bool) (x : LaneIn) : M Unit := do
  let c := (← me).laneCtx x.win
  let sd := c.side x.sideB
  let o := c.side (!x.sideB)
  let mine : SideState := if isEnd then .parkedEnd else .parkedJoin
  if !o.live then
    if isEnd then modCtx x LaneCtx.endBlock
    else modCtx x fun c => c.setSide x.sideB (sd.goTo (sd.pc + 1))
  else if o.st = .running then modCtx x fun c => c.setSide x.sideB { sd with st := mine }
  else if o.st = mine && (isEnd || o.pc == sd.pc) then
    if 0 < c.depth then modCtx x fun c => { c with spill := some (.pop x.sideB isEnd sd.pc) }
    else if isEnd then modCtx x LaneCtx.endBlock
    else
      let st ← me
      let no := (← get).stepNo
      modCtx x fun c => { c with a := st.mergedSide c.a c.b false sd.pc no, b := {} }
  else badOperand

/-- JOIN (R181). -/
def execJoin (w : LaneW) (s : State) : Out := laneCtl w (reconverge false) s
/-- END (R59, R181). -/
def execLaneEnd (w : LaneW) (s : State) : Out := laneCtl w (reconverge true) s

/-- LTRAP (R182). -/
def execLtrap (w : LaneW) (s : State) : Out := laneCtl w (fun x => do
  if x.active != 0 then throw (.trap { code := 0x0F, info := w.low.extractLsb' 0 20, tmask := x.active } [])
  modCtx x fun c => c.setSide x.sideB (c.side x.sideB).advance) s

/-- LANE_BLOCK_START (R59, R177, R200): the oldest queued block of strand ev.who starts when none is in progress; ev.flag: in the trap window, whose blocks start while the strand is in its handler; the paused stream starts none. -/
def execLaneBlockStart (s : State) : Out :=
  let st := s.strand s.ev.who
  let c := st.laneCtx s.ev.flag
  match c.dq with
  | [] => .next s
  | u :: us =>
    if c.busy || st.csr.ih != s.ev.flag then .next s
    else .next (s.modStrand s.ev.who fun st => st.setLaneCtx s.ev.flag
      { dq := us, busy := true, started := c.started + 1
        a := { pc := u, mask := BitVec.allOnes 64, live := true, hdr := u, no := s.stepNo, past := st.longs.map (·.tag) } })

/-- STACK_PUSH_DONE (R184): the record of strand ev.who's push is performed; the sides issue again. -/
def execStackPushDone (s : State) : Out :=
  let c := (s.strand s.ev.who).laneCtx s.ev.flag
  if c.spill = some .push then .next (s.modStrand s.ev.who fun st => st.setLaneCtx s.ev.flag { c with spill := none })
  else .next s

/-- The word of a JOIN or an END (R179). -/
def joinWord (isEnd : Bool) : W96 := encodeLaneW (if isEnd then .laneEnd else .join)
  { ty := 0, md := 0, dist := 0, g := 0, gn := 0, vd := 0, va := 0, vb := 0, vc := 0, im := 0, low := 0 }

/-- STACK_POP_DONE (R181, R184): the pop of strand ev.who is read, checked and performed; one that is parked waits for its answer (R87), and one whose read traps for the time at which the strand may trap. -/
def execStackPopDone (s : State) : Out :=
  let sid := s.ev.who
  let win := s.ev.flag
  let c := (s.strand sid).laneCtx win
  match c.spill with
  | some (.pop sideB isEnd u) =>
    if (s.strand sid).parkL.isSome then .next s
    else
      match s.popDone sid win sideB isEnd u with
      | .ok t => .next t
      | .error (.park p) => .next (s.parkLane sid { p with sideB := sideB, unitNo := u, word := joinWord isEnd, fA := (c.side sideB).flagA, fB := (c.side sideB).flagB })
      | .error (.trap t l) =>
        if !s.mayTrap sid then .next s
        else .next ((((s.logDenied (s.ctxOf sid) l).modStrand sid fun st => st.setLaneCtx win { c with spill := none })).takeTrap sid
          { t with lfault := true, sideB := sideB, unitNo := some u, lword := joinWord isEnd
                   fA := (c.side sideB).flagA, fB := (c.side sideB).flagB })
      | .error (.wait _) => .next s
  | _ => .next s

end Sys2Proof.Machine
end

