-- ==== Sys2Proof/Machine/Power.lean ====
section
/-! DEFINITION. Die loss (R237, R321, R369), power and temperature (R395 to R397, R262), errors of the stacked tiers and of memory (R261, R352, R398 to R400). -/

namespace Sys2Proof.Machine

/-! ### Die loss -/

/-- What a loss does to a context that it affects (R237, R369): its field barriers are broken, those of launches of which teams are placed, which alone are bound (R13), every strand has the cause 0x0C, its launches that are not placed are held, its collectives are aborted. (DEDUCED, log entry 51) -/
def State.ctxLoss (s : State) (c : Nat) : State :=
  let ls := (s.launches.filter fun p => p.2.ctx == c && p.2.st != .ended && decide (0 < p.2.placed)).map (·.1)
  let s := ls.foldl (fun s k => (List.range 2).foldl (fun s n =>
    { s with bars := mput s.bars (barKey 2 n k) { s.barAt (barKey 2 n k) with broken := true } }) s) s
  let s := (s.teams.filter fun p => p.2.ctx == c && p.2.alive).foldl (fun s p => p.2.sids.foldl (fun s sid => s.holdCause sid { code := 0x0C }) s) s
  ({ s with ctxs := mmod s.ctxs c fun x => { x with lossHeld := true, lossHost := s.mode.getLsbD 4 } } : State).abortAll c .dieLoss

/-- What stood on a lost die, or came from its stacks, is gone: die-cache lines, translations, copies, appends, fault records of its unit. (DEDUCED, log entry 51) -/
def State.dropDie (s : State) (d : Nat) : State :=
  { s with
    dc := s.dc.filter fun p => p.1 / 2 ^ 41 % 8 != d && dieOfPa (p.1 % 2 ^ 41 * 128) != d
    tlb := s.tlb.filter fun p => p.1 / 2 ^ 48 / 1024 != d && (inHostWin (p.2.ppage * 65536) || dieOfPa (p.2.ppage * 65536) != d)
    sharers := (s.sharers.map fun p => (p.1, p.2 &&& ~~~(1#8 <<< d))).filter fun p => p.2 != 0
    updates := s.updates.map fun (u : ReplUpdate) => { u with sharers := u.sharers &&& ~~~(1#8 <<< d) }
    scopies := mdel s.scopies d
    appends := s.appends.filter fun a => a.die != d
    faults := s.faults.filter fun f => f.xunit != d }

/-- DIE_LOSS (R15, R18, R237, R321): Vale die ev.who is lost. LIVE changes first; the teams on the die end with status 10 and its programs with CODE 0x10; every context whose TOUCHED names the die is affected, and no other. (DEDUCED, log entry 51) -/
def execDieLoss (s : State) : Out :=
  let d := s.ev.who
  if !s.dieLive d then .next s
  else
    let s := { s with live := s.live &&& ~~~(1#8 <<< d) }
    let s := (s.teams.filter fun p => p.2.core < 64 && dieOf p.2.core == d && p.2.resident).foldl (fun s p => s.killTeam p.1 10) s
    let s := (s.progs.filter fun p => p.1 / 128 == d && p.2.running).foldl (fun s p => s.endProg p.1 0x10 0) s
    let s := s.dropDie d
    let s := (s.ctxs.filter fun p => p.2.touched.getLsbD d).foldl (fun s p => s.ctxLoss p.1) s
    .next (if s.mode.getLsbD 4 then s.postService { ty := 6, body := [BitVec.ofNat 64 d], seq := 0 } else s.signal 0)

/-! ### Power (R395) -/

/-- The lowest step of a core's clock: 400 MHz is 12 steps of 100 MHz below 1.6 GHz. -/
def lowestStep : Nat := 12

/-- The steps by which a core's clock is lowered. -/
def State.clockStep (s : State) (c : Nat) : Nat := mget s.clock c 0

/-- Set it. -/
def State.setStep (s : State) (c n : Nat) : State := { s with clock := mset s.clock c (Nat.min lowestStep n) 0 }

/-- Write it. -/
def State.setRegion (s : State) (c t : Nat) (r : Region) : State := { s with regions := mput s.regions (c * 4 + t) r }

/-- The ticks of the Basin die, on which Ultik runs (R6). -/
def State.ultikNow (s : State) : Nat := s.ticks 8

/-- Whether n ticks have passed since a tick. -/
def lasted (since : Option Nat) (n now : Nat) : Bool :=
  match since with
  | some t => decide (t + n ≤ now)
  | none => false

/-- POWER_THROTTLE_STEP (R6, R395): Ultik has measured ev.val W of package power, averaged over 1 ms. The clocks go down a step while it exceeds PLIM, and up a step once it has been below 95 % of PLIM for 1 ms, one step every 100 µs, counted in ticks of the Basin die. -/
def execPowerThrottleStep (s : State) : Out :=
  let now := s.ultikNow
  let cores := List.range 64
  let s := { s with lowSince := if s.ev.val * 100 < s.plim * 95 then some (s.lowSince.getD now) else none }
  if now < s.powerAt + 10000 then .next s
  else if s.plim < s.ev.val then .next (cores.foldl (fun s c => s.setStep c (s.clockStep c + 1)) { s with powerAt := now })
  else if lasted s.lowSince 100000 now then
    .next (cores.foldl (fun s c => if s.hot c then s else s.setStep c (s.clockStep c - 1)) { s with powerAt := now })
  else .next s

/-! ### Temperature (R396, R397) -/

/-- The threshold of an action, in steps of 0.5 °C: 1 rescue refresh, 2 stepping down with a migration event, 3 the clock forced to 400 MHz, 4 shutdown. -/
def threshold (a : Nat) : Nat :=
  match a with
  | 0 => 0
  | 1 => 190
  | 2 => 196
  | 3 => 204
  | _ => 210

/-- The action that a reading asks for: shutdown only when it has lasted 10 µs. -/
def actionOf (reading : Nat) (lasted : Bool) : Nat :=
  if 210 ≤ reading && lasted then 4 else if 204 ≤ reading then 3 else if 196 ≤ reading then 2 else if 190 ≤ reading then 1 else 0

/-- The action from then on: up at once, down when the reading has fallen 3 °C below the action's threshold. -/
def nextAction (old reading : Nat) (lasted : Bool) : Nat → Nat
  | 0 => old
  | n + 1 =>
    let new := actionOf reading lasted
    if old ≤ new then new
    else if reading + 6 ≤ threshold old then nextAction (old - 1) reading lasted n
    else old

/-- A region with a new reading (R6, R396): its action, and since when it has read 105 °C or more, which asks for a shutdown after 10 µs, 1000 ticks of the Basin die. -/
def Region.read (r : Region) (v now : Nat) : Region :=
  let since := if 210 ≤ v then some (r.since.getD now) else none
  { r with reading := v, since := since, action := nextAction r.action v (lasted since 1000 now) 5 }

/-- A core above which no region is at 98 °C or more any more has no migration for heat outstanding (R396). -/
def State.cooled (s : State) (c : Nat) : State := if s.hot c then s else { s with heat := s.heat.filter (· != c) }

/-- THERMAL_THRESHOLD (R376, R377, R396, R401): the hottest sensor of region ev.idx above core ev.core reads ev.val steps of 0.5 °C; at 98 °C a migration event arises, Ultik's or the host's by MIGR as it stands then. Core 64 with region 0 stands for the Basin die, 65 + c for Col die c, for which the table of R396 names nothing but the reading's report. (DESIGN CHOICE, log entry 50) -/
def execThermalThreshold (s : State) : Out :=
  let c := s.ev.core
  let t := s.ev.idx
  let v := s.ev.val
  let old := s.region c t
  let r := old.read v s.ultikNow
  if 69 ≤ c || 4 ≤ t || (64 ≤ c && t != 0) then .next s
  else if 64 ≤ c then .next (s.setRegion c t { old with reading := v })
  else
    let s := (s.setRegion c t r).cooled c
    let s := if 3 ≤ r.action then s.setStep c lowestStep else s
    if old.action < 2 && 2 ≤ r.action then
      .next (if s.mode.getLsbD 3 then s.postService { ty := 5, body := [BitVec.ofNat 64 c, BitVec.ofNat 64 v], seq := 0 }
        else { s with heat := s.heat ++ [c] })
    else .next s

/-- THERMAL_CLOCK_STEP (R6, R396): with a region above core ev.core at 98 °C or more its clock steps down once every 10 µs, 1000 ticks of the Basin die. -/
def execThermalClockStep (s : State) : Out :=
  let c := s.ev.core
  let now := s.ultikNow
  .next (if s.hot c && (mget? s.stepAt c).all fun t => decide (t + 1000 ≤ now) then
    { s.setStep c (s.clockStep c + 1) with stepAt := mput s.stepAt c now } else s)

/-- Line numbers of eight bytes each. -/
def linesOf (bs : List Byte) : List Nat := (List.range (bs.length / 8)).map fun i => fld bs (8 * i) 8

/-- The running teams of a core. -/
def State.teamsOn (s : State) (c : Nat) : List (Nat × Team) := s.teams.filter fun p => p.2.core == c && p.2.resident

/-- TIER_SHUTDOWN (R396, R397): region ev.idx above core ev.core has read 105 °C for 10 µs: the core stops issuing and its teams halt; the die-cache lines ev.bytes, which the region holds, are written back. (DESIGN CHOICE, log entry 50) -/
def execTierShutdown (s : State) : Out :=
  let c := s.ev.core
  let t := s.ev.idx
  let r := s.region c t
  if 64 ≤ c || 4 ≤ t || r.action < 4 || r.shutdown then .next s
  else
    let s := s.setRegion c t { r with shutdown := true, shutAt := s.ultikNow }
    let s := (s.teamsOn c).foldl (fun s p => s.haltTeam p.1 .moving) s
    .next (((linesOf s.ev.bytes).foldl (fun s ln => s.dcFlush (dieOf c) ln) s).signal 0)

/-- A die-cache line is lost (R397): a dirty one is poisoned, a clean one is simply invalid, a replicated one among them. -/
def State.loseLine (s : State) (die ln : Nat) : State :=
  let s := if (s.dcLine (repDie die) ln).isSome then s.repDrop die ln else s
  match s.dcLine die ln with
  | none => s
  | some l => if l.dirty = 0 then s.dcDrop die ln else (s.dcDrop die ln).poisonLine ln

/-- REGION_POWER_OFF (R6, R262, R397): the region loses its power, when the write-back is done or 20 µs after the shutdown began, 2000 ticks of the Basin die; the die-cache lines ev.bytes that it still holds are lost; every team on the core ends as at a die loss, limited to that core. -/
def execRegionPowerOff (s : State) : Out :=
  let c := s.ev.core
  let t := s.ev.idx
  let r := s.region c t
  let dirty := (linesOf s.ev.bytes).any fun ln => ((s.dcLine (dieOf c) ln).map fun l => l.dirty != 0).getD false
  if 64 ≤ c || 4 ≤ t || !r.shutdown || r.off || (dirty && decide (s.ultikNow < r.shutAt + 2000)) then .next s
  else
    let s := s.setRegion c t { r with off := true }
    let s := (linesOf s.ev.bytes).foldl (fun s ln => s.loseLine (dieOf c) ln) s
    let ts := s.teamsOn c
    let ctxs := ts.foldl (fun (l : List Nat) p => if l.contains p.2.ctx then l else l ++ [p.2.ctx]) []
    let s := ts.foldl (fun s p => s.killTeam p.1 10) s
    .next (ctxs.foldl (fun s x => s.ctxLoss x) s)

/-- REGION_RETURN_TO_SERVICE (R262): Ultik returns region ev.idx above core ev.core to service, its reading ev.val having fallen. -/
def execRegionReturnToService (s : State) : Out :=
  let r := s.region s.ev.core s.ev.idx
  .next (if s.ev.core < 64 && s.ev.idx < 4 && r.off && s.ev.val + 6 ≤ threshold 4 then
    (s.setRegion s.ev.core s.ev.idx { reading := s.ev.val, action := nextAction r.action s.ev.val false 5 }).cooled s.ev.core else s)

/-! ### Errors (R261, R352, R398, R399) -/

/-- Poison the 4-byte word of an operand store at an offset (R261): a FREE line, or one of no team, holds nothing. -/
def State.poisonWord (s : State) (c off : Nat) : State :=
  let l := s.osLine c (off / 256)
  if l.free || (s.ownerOf c off).isNone then s else s.setOsLine c (off / 256) { l with poison := l.poison ||| (1#64 <<< colOf off) }

/-- Half h of a value of 64 bits reads 0. -/
def zeroHalf (h : Nat) (x : W64) : W64 := if h = 0 then x &&& 0xFFFFFFFF00000000 else x &&& 0xFFFFFFFF

/-- Word w of a side's state reads 0: its PC, the halves of its mask, its header, its clause state. -/
def Side.poisoned (x : Side) (w : Nat) : Side :=
  match w with
  | 0 => { x with pc := 0 }
  | 1 => { x with mask := zeroHalf 0 x.mask }
  | 2 => { x with mask := zeroHalf 1 x.mask }
  | 3 => { x with hdr := 0 }
  | _ => { x with left := 0, flagA := 0, flagB := 0 }

/-- Word w of a strand's dispatch queue, or of its trap window's, reads 0. -/
def LaneCtx.poisoned (c : LaneCtx) (w : Nat) : LaneCtx := { c with dq := if w < c.dq.length then setAt c.dq w 0 else c.dq }

/-- Word w of the scalar PC and the control registers that a strand holds reads 0. -/
def Strand.csrPoisoned (st : Strand) (w : Nat) : Strand :=
  let z := zeroHalf (w % 2)
  match w / 2 with
  | 0 => { st with pc := z st.pc }
  | 1 => { st with csr := { st.csr with tvec := z st.csr.tvec } }
  | 2 => { st with csr := { st.csr with tcause := z st.csr.tcause } }
  | 3 => { st with csr := { st.csr with tepc := z st.csr.tepc } }
  | 4 => { st with csr := { st.csr with tlpc := z st.csr.tlpc } }
  | 5 => { st with csr := { st.csr with tmask := z st.csr.tmask } }
  | 6 => { st with csr := { st.csr with trapen := z st.csr.trapen } }
  | 7 => { st with csr := { st.csr with sflags := z st.csr.sflags } }
  | 8 => { st with csr := { st.csr with tsave0 := z st.csr.tsave0 } }
  | _ => { st with csr := { st.csr with tsave1 := z st.csr.tsave1 } }

/-- A word of the lines that hold a strand's slot state (R242) reads 0, and the lanes whose words it is (R261); none where it names no word. Items: 970 lstat, by lane; 971 the walker's words; 972 the PC and control registers; 973 the dispatch queues; 974 the counts of a flag; 975 sides A, B and the window's, five words each; 1024 + k predicate k; 1100 + 8 × i + j entry j of port i; 2048 + r register ar. (DESIGN CHOICE, log entry 50) -/
def Strand.slotPoisoned (st : Strand) (item w : Nat) : Option (Strand × W64) :=
  if item = 970 then (if w < 64 then some ({ st with v := mdel st.v (lstatKey w) }, 1#64 <<< w) else none)
  else if item = 971 then
    if w < 64 then some ({ st with walker := { st.walker with len := mdel st.walker.len w } }, 1#64 <<< w)
    else if w = 64 then some ({ st with walker := { st.walker with c := 0 } }, 0)
    else if w = 65 then some ({ st with walker := { st.walker with seq := 0 } }, 0)
    else if w = 66 then some ({ st with walker := { st.walker with pos := 0 } }, 0)
    else none
  else if item = 972 then (if w < 20 then some (st.csrPoisoned w, 0) else none)
  else if item = 973 then
    if w < 16 then some ({ st with lane := st.lane.poisoned w }, 0)
    else if w < 20 then some ({ st with win := st.win.poisoned (w - 16) }, 0)
    else none
  else if item = 974 then
    if w < 12 then some ({ st with flags := mdel st.flags w, savedFlags := mdel st.savedFlags w }, 0) else none
  else if item = 975 then
    if w < 5 then some ({ st with lane := { st.lane with a := st.lane.a.poisoned w } }, 0)
    else if w < 10 then some ({ st with lane := { st.lane with b := st.lane.b.poisoned (w - 5) } }, 0)
    else if w < 15 then some ({ st with win := { st.win with a := st.win.a.poisoned (w - 10) } }, 0)
    else if w < 20 then some ({ st with win := { st.win with b := st.win.b.poisoned (w - 15) } }, 0)
    else none
  else if 2 ≤ w then none
  else if 1024 < item && item < 1032 then
    let lanes := if w = 0 then (0xFFFFFFFF : W64) else 0xFFFFFFFF00000000
    some ({ st with v := (lanesOf lanes).foldl (fun v L => mdel v (vKey item L)) st.v }, lanes)
  else if 1100 ≤ item && item < 1164 then
    let i := (item - 1100) / 8
    let j := (item - 1100) % 8
    let q := st.queue i
    if j < q.length then some (st.setQueue i (setAt q j (zeroHalf w (q.getD j 0))), 0) else none
  else if 2048 < item && (item < 2096 || item = 2111) then
    let r := item - 2048
    some ({ st with a := mset st.a r (zeroHalf w (st.reg r)) 0 }, 0)
  else none

/-- A word of a strand's registers or of its slot state cannot be corrected (R261, R242): a lane register's is poisoned until it is written; a word of the slot state is read at once, as 0, which holds CODE 0x0D. (DESIGN CHOICE, log entry 50) -/
def Strand.poison (st : Strand) (item w : Nat) : Strand :=
  if item < st.budget then (if w < 64 then { st with vpois := st.vpois ++ [vKey item w] } else st)
  else match st.slotPoisoned item w with
    | some (st', m) => { st' with held := st'.held ++ [{ code := 0x0D, tmask := m }] }
    | none => st

/-- OPERAND_UNCORRECTABLE (R261, R398): the word at offset ev.addr of core ev.core's store, or with ev.flag word ev.val of item ev.idx of strand ev.who's registers and slot state, cannot be corrected. (DESIGN CHOICE, log entry 50) -/
def execOperandUncorrectable (s : State) : Out :=
  if s.ev.flag then .next (s.modStrand s.ev.who fun st => st.poison s.ev.idx s.ev.val)
  else .next (if s.ev.core < 64 then s.poisonWord s.ev.core s.ev.addr else s)

/-- A die's copy of a line cannot be corrected (R352, R353, R398): it reads as poisoned; a dirty one enters the poison list when its write-back arrives, marked uncorrectable, a clean one at once. (DEDUCED, log entry 50) -/
def State.markBad (s : State) (die ln : Nat) : State :=
  match s.dcLine die ln with
  | none => s
  | some l =>
    let s := s.dcPut die ln { l with poisoned := true, bad := true }
    if l.dirty = 0 then s.poisonLine ln else s

/-- MEMORY_UNCORRECTABLE (R352, R398): HBM or the shared cache cannot correct the line of physical address ev.addr; with ev.flag it is die ev.core's cache. -/
def execMemoryUncorrectable (s : State) : Out :=
  .next (if !s.inHbm s.ev.addr then s
    else if s.ev.flag then (if s.ev.core < 8 then s.markBad s.ev.core (s.ev.addr / 128) else s)
    else s.poisonLine (s.ev.addr / 128))

/-- An error is corrected, and counted for its core (R398). -/
def State.correctedError (s : State) (c : Nat) : State :=
  if c < 64 then { s with corrected := mput s.corrected c (mget s.corrected c 0 + 1) } else s

/-- A core is retired (R399): nothing further is placed on it, and it is reported. Ultik migrates its teams. -/
def State.retireCore (s : State) (c : Nat) : State :=
  if s.retired.contains c then s
  else (({ s with retired := s.retired ++ [c] } : State).report 0x18F (BitVec.ofNat 64 c) 0 0).signal 0

/-- BEAT_CRC_FAIL (R398, R399): a beat of bank ev.idx of core ev.core, column ev.val, word at offset ev.addr, fails its CRC; ev.size retries have failed too; ev.flag: the transfer succeeds on a spare column. Below four failed retries a retry has succeeded. The core is retired when the bank has no spare left. (DESIGN CHOICE, log entry 50) -/
def execBeatCrcFail (s : State) : Out :=
  let c := s.ev.core
  let b := c * 16 + s.ev.idx
  if 64 ≤ c || 16 ≤ s.ev.idx then .next s
  else if s.ev.size < 4 then .next (s.correctedError c)
  else
    let used := mget s.spares b 0
    if 2 ≤ used then .next ((s.poisonWord c s.ev.addr).retireCore c)
    else
      let ok := s.ev.flag
      let a := s.ev.addr
      let s := { s with spares := mput s.spares b (used + 1), remap := mput s.remap (b * 64 + s.ev.val) used }
      let s := if ok then s else s.poisonWord c a
      .next (if used = 1 then s.retireCore c else s)

/-- TIER_TEST_YIELD (R400): the tier test engine yields core ev.core; with ev.flag it has been offered the core, which is idle. (DESIGN CHOICE, log entry 50) -/
def execTierTestYield (s : State) : Out :=
  let c := s.ev.core
  if s.ev.flag then
    .next (if c < 64 && !s.testing.contains c && (s.teamsOn c) == [] && s.mxCmds c == [] then { s with testing := s.testing ++ [c] } else s)
  else .next { s with testing := s.testing.filter (· != c) }

end Sys2Proof.Machine
end

