-- ==== Sys2Proof/Machine/TrapEv.lean ====
section
/-! DEFINITION. Traps that no issuing instruction takes by itself (R60, R130, R135, R136, R147): entries under way, conditions of completed lane instructions, held causes, the queue protocol fault. -/

namespace Sys2Proof.Machine

/-- TRAP_ENTRY (R130, R136): an entry of strand ev.who whose record write was parked or delayed is completed. -/
def execTrapEntry (s : State) : Out :=
  let st := s.strand s.ev.who
  match st.entry with
  | none => .next s
  | some t => if st.entryPark.isSome then .next s else .next (s.enterHandler s.ev.who t)

/-- AFTER_COMPLETION_TRAP (R147, R148): the trap sets that strand ev.who's lane instructions have completed with make one entry. -/
def execAfterCompletionTrap (s : State) : Out :=
  let sid := s.ev.who
  let st := s.strand sid
  if st.condsKnown (s.cycles (coreOf sid)) && st.entry.isNone && st.halt == .none && !s.coreStopped (coreOf sid) then .next (s.takeTrap sid { code := 0 })
  else .next s

/-- The held cause that goes first (R135): the lowest CODE, the earliest among equals. -/
def Strand.firstHeld (st : Strand) : Option Nat :=
  ((List.range st.held.length).foldl (fun b i =>
    match b with
    | none => some i
    | some j => if ((st.held.getD i { code := 0 }).code).toNat < ((st.held.getD j { code := 0 }).code).toNat then some i else b) none)

/-- HELD_CAUSE_TRAP (R135): outside a handler, strand ev.who takes a held cause at its next issue; a before-effect fault that stands goes first. -/
def execHeldCauseTrap (s : State) : Out :=
  let sid := s.ev.who
  let st := s.strand sid
  if st.csr.ih || st.entry.isSome || st.halt != .none || st.pendC != [] || (s.team st.team).st != .running || st.faultStands
      || s.coreStopped (coreOf sid) then .next s
  else match st.firstHeld with
    | none => .next s
    | some i =>
      match st.held[i]? with
      | none => .next s
      | some h =>
        .next ((s.setStrand sid { st with held := dropAt st.held i }).takeTrap sid { code := h.code, tmask := h.tmask, faddr := h.faddr })

/-! ### The queue protocol fault -/

/-- Whether the scalar stream stands in a stall that only the lane stream can end (R60): for entries, for room, at DISP, or for the end of the lane blocks (R93, R118, R124, R127, R133, R227). -/
def Strand.scalarStuck (st : Strand) : Bool :=
  match st.stallS with
  | none => false
  | some q =>
    if q.port = 9 then true
    else if q.port = 8 then decide ((if st.csr.ih then 4 else 16) ≤ (st.laneCtx st.csr.ih).dq.length)
    else if q.port < 4 then decide (8 ≤ (st.queue q.port).length)
    else decide ((st.queue q.port).length + st.pushesUnderWay q.port < q.need)

/-- Whether a side stands in a stall that only the scalar stream can end (R60). -/
def Strand.sideStuck (st : Strand) (b : Bool) : Bool :=
  match if b then st.stallB else st.stallA with
  | none => false
  | some q =>
    if q.port < 4 then decide ((st.queue q.port).length + (st.replies.filter fun r => r.dst == 48 + q.port).length < q.need)
    else decide (8 ≤ (st.queue q.port).length + st.pushesUnderWay q.port)

/-- Whether each stream of a strand waits on the other (R60). -/
def Strand.deadlocked (st : Strand) : Bool :=
  let c := st.laneCtx st.csr.ih
  st.entry.isNone && st.pendC == [] && st.halt == .none && c.busy && c.spill.isNone && st.parkS.isNone && st.parkL.isNone
  && st.scalarStuck && (c.runs false || c.runs true)
  && (!c.runs false || st.sideStuck false) && (!c.runs true || st.sideStuck true)

/-- QUEUE_PROTOCOL_FAULT (R60, R129): a strand ev.who whose streams each wait on the other takes CODE 0x04 at both stalled instructions. -/
def execQueueProtocolFault (s : State) : Out :=
  let sid := s.ev.who
  let st := s.strand sid
  if !(s.isRes sid && st.deadlocked) then .next s
  else
    let win := st.csr.ih
    let b := !(st.laneCtx win).runs false
    let sw : W32 := match s.fetchScalar sid with
      | .got w _ => w
      | _ => 0
    let (s1, u) : State × W96 := match s.prepSide sid win b with
      | .unit u s' => (s', u)
      | _ => (s, 0)
    let sd := ((s1.strand sid).laneCtx win).side b
    .next (s1.takeTrap sid
      { code := 0x04, lfault := true, sfault := true, sideB := b, unitNo := some sd.unitNow, lword := u, sword := sw
        fA := sd.flagsNow.1, fB := sd.flagsNow.2 })

end Sys2Proof.Machine
end

