-- ==== Sys2Proof/Machine/Dispatch.lean ====
section
/-! DEFINITION. The meaning of every instruction and event: one arm each. -/

namespace Sys2Proof.Machine

/-- One arm per constructor of Instr. -/
def exec (i : Instr) (s : State) : Host.Outcome State Fault Refusal :=
  match i with
  | .add d a b => Sys2Proof.Machine.execAdd d a b s
  | .sub d a b => Sys2Proof.Machine.execSub d a b s
  | .mul d a b => Sys2Proof.Machine.execMul d a b s
  | .mulh d a b => Sys2Proof.Machine.execMulh d a b s
  | .mulhn d a b => Sys2Proof.Machine.execMulhn d a b s
  | .div d a b => Sys2Proof.Machine.execDiv d a b s
  | .divn d a b => Sys2Proof.Machine.execDivn d a b s
  | .rem d a b => Sys2Proof.Machine.execRem d a b s
  | .remn d a b => Sys2Proof.Machine.execRemn d a b s
  | .and d a b => Sys2Proof.Machine.execAnd d a b s
  | .or d a b => Sys2Proof.Machine.execOr d a b s
  | .xor d a b => Sys2Proof.Machine.execXor d a b s
  | .andn d a b => Sys2Proof.Machine.execAndn d a b s
  | .shl d a b => Sys2Proof.Machine.execShl d a b s
  | .shr d a b => Sys2Proof.Machine.execShr d a b s
  | .sar d a b => Sys2Proof.Machine.execSar d a b s
  | .min d a b => Sys2Proof.Machine.execMin d a b s
  | .max d a b => Sys2Proof.Machine.execMax d a b s
  | .minn d a b => Sys2Proof.Machine.execMinn d a b s
  | .maxn d a b => Sys2Proof.Machine.execMaxn d a b s
  | .slt d a b => Sys2Proof.Machine.execSlt d a b s
  | .sltn d a b => Sys2Proof.Machine.execSltn d a b s
  | .seq d a b => Sys2Proof.Machine.execSeq d a b s
  | .popc d a => Sys2Proof.Machine.execPopc d a s
  | .clz d a => Sys2Proof.Machine.execClz d a s
  | .ctz d a => Sys2Proof.Machine.execCtz d a s
  | .addi d a im => Sys2Proof.Machine.execAddi d a im s
  | .andi d a im => Sys2Proof.Machine.execAndi d a im s
  | .ori d a im => Sys2Proof.Machine.execOri d a im s
  | .xori d a im => Sys2Proof.Machine.execXori d a im s
  | .slti d a im => Sys2Proof.Machine.execSlti d a im s
  | .shli d a n => Sys2Proof.Machine.execShli d a n s
  | .shri d a n => Sys2Proof.Machine.execShri d a n s
  | .sari d a n => Sys2Proof.Machine.execSari d a n s
  | .lih d im => Sys2Proof.Machine.execLih d im s
  | .ld t b sg z x o => Sys2Proof.Machine.execLd t b sg z x o s
  | .st t b sg z o => Sys2Proof.Machine.execSt t b sg z o s
  | .csrr d c => Sys2Proof.Machine.execCsrr d c s
  | .csrw a c => Sys2Proof.Machine.execCsrw a c s
  | .csrs a c => Sys2Proof.Machine.execCsrs a c s
  | .csrc a c => Sys2Proof.Machine.execCsrc a c s
  | .bcc a b c o => Sys2Proof.Machine.execBcc a b c o s
  | .j o => Sys2Proof.Machine.execJ o s
  | .jal o => Sys2Proof.Machine.execJal o s
  | .jr a => Sys2Proof.Machine.execJr a s
  | .jalr d a => Sys2Proof.Machine.execJalr d a s
  | .loop a o => Sys2Proof.Machine.execLoop a o s
  | .disp d im => Sys2Proof.Machine.execDisp d im s
  | .vgetV d a n => Sys2Proof.Machine.execVgetV d a n s
  | .vgetK d a n => Sys2Proof.Machine.execVgetK d a n s
  | .vsetV d a n => Sys2Proof.Machine.execVsetV d a n s
  | .vsetK d a n => Sys2Proof.Machine.execVsetK d a n s
  | .fwait f => Sys2Proof.Machine.execFwait f s
  | .fenceAcq sg => Sys2Proof.Machine.execFenceAcq sg s
  | .fenceRel sg => Sys2Proof.Machine.execFenceRel sg s
  | .fenceAr sg => Sys2Proof.Machine.execFenceAr sg s
  | .fenceW => Sys2Proof.Machine.execFenceW s
  | .bar l n => Sys2Proof.Machine.execBar l n s
  | .bara l n => Sys2Proof.Machine.execBara l n s
  | .barw l n => Sys2Proof.Machine.execBarw l n s
  | .mxcfgClaim n => Sys2Proof.Machine.execMxcfgClaim n s
  | .mxcfgSet t a => Sys2Proof.Machine.execMxcfgSet t a s
  | .mxcfgStat d t => Sys2Proof.Machine.execMxcfgStat d t s
  | .mxcfgFree => Sys2Proof.Machine.execMxcfgFree s
  | .mxloop t g k f w u => Sys2Proof.Machine.execMxloop t g k f w u s
  | .mxsp t g k f w u => Sys2Proof.Machine.execMxsp t g k f w u s
  | .mxrk t g r f w => Sys2Proof.Machine.execMxrk t g r f w s
  | .mxst v e z t d x f m => Sys2Proof.Machine.execMxst v e z t d x f m s
  | .mxstZero e t f => Sys2Proof.Machine.execMxstZero e t f s
  | .skickH d g b f t => Sys2Proof.Machine.execSkickH d g b f t s
  | .skickE d g b f t => Sys2Proof.Machine.execSkickE d g b f t s
  | .scopyLd l p f z b => Sys2Proof.Machine.execScopyLd l p f z b s
  | .scopySt l p f z b => Sys2Proof.Machine.execScopySt l p f z b s
  | .sstat d a => Sys2Proof.Machine.execSstat d a s
  | .sstatCancel d a => Sys2Proof.Machine.execSstatCancel d a s
  | .abinit d a b => Sys2Proof.Machine.execAbinit d a b s
  | .abfree a => Sys2Proof.Machine.execAbfree a s
  | .abwait a b => Sys2Proof.Machine.execAbwait a b s
  | .abwaitT d a b => Sys2Proof.Machine.execAbwaitT d a b s
  | .abrel a => Sys2Proof.Machine.execAbrel a s
  | .osalloc d a b c => Sys2Proof.Machine.execOsalloc d a b c s
  | .osfree a b => Sys2Proof.Machine.execOsfree a b s
  | .osquery d a => Sys2Proof.Machine.execOsquery d a s
  | .osqueryX d a => Sys2Proof.Machine.execOsqueryX d a s
  | .wltake d a h n => Sys2Proof.Machine.execWltake d a h n s
  | .wldone a => Sys2Proof.Machine.execWldone a s
  | .wlquiet a f => Sys2Proof.Machine.execWlquiet a f s
  | .hdef a sg n => Sys2Proof.Machine.execHdef a sg n s
  | .hread a sg n => Sys2Proof.Machine.execHread a sg n s
  | .nprEnter => Sys2Proof.Machine.execNprEnter s
  | .nprExit => Sys2Proof.Machine.execNprExit s
  | .yield => Sys2Proof.Machine.execYield s
  | .park a b => Sys2Proof.Machine.execPark a b s
  | .coll g f sg => Sys2Proof.Machine.execColl g f sg s
  | .amosX d a b p o w => Sys2Proof.Machine.execAmosX d a b p o w s
  | .trap im => Sys2Proof.Machine.execTrap im s
  | .eret => Sys2Proof.Machine.execEret s
  | .eretRetry => Sys2Proof.Machine.execEretRetry s
  | .sysc im => Sys2Proof.Machine.execSysc im s
  | .segld a b sg => Sys2Proof.Machine.execSegld a b sg s
  | .segrdBase d sg => Sys2Proof.Machine.execSegrdBase d sg s
  | .segrdLen d sg => Sys2Proof.Machine.execSegrdLen d sg s
  | .exit => Sys2Proof.Machine.execExit s
  | .halt => Sys2Proof.Machine.execHalt s
  | .flushs b sg o => Sys2Proof.Machine.execFlushs b sg o s
  | .amos d a b p o w sg => Sys2Proof.Machine.execAmos d a b p o w sg s
  | .lea t b sg z o => Sys2Proof.Machine.execLea t b sg z o s
  | .qstat d sg => Sys2Proof.Machine.execQstat d sg s
  | .laneNop w => Sys2Proof.Machine.execLaneNop w s
  | .mov w => Sys2Proof.Machine.execMov w s
  | .sel w => Sys2Proof.Machine.execSel w s
  | .fadd w => Sys2Proof.Machine.execFadd w s
  | .fsub w => Sys2Proof.Machine.execFsub w s
  | .fmul w => Sys2Proof.Machine.execFmul w s
  | .ffma w => Sys2Proof.Machine.execFfma w s
  | .fmin w => Sys2Proof.Machine.execFmin w s
  | .fmax w => Sys2Proof.Machine.execFmax w s
  | .fcmp w => Sys2Proof.Machine.execFcmp w s
  | .fclass w => Sys2Proof.Machine.execFclass w s
  | .frnd w => Sys2Proof.Machine.execFrnd w s
  | .fscale w => Sys2Proof.Machine.execFscale w s
  | .fdot2 w => Sys2Proof.Machine.execFdot2 w s
  | .cvt w => Sys2Proof.Machine.execCvt w s
  | .cvtef w => Sys2Proof.Machine.execCvtef w s
  | .packq4 w => Sys2Proof.Machine.execPackq4 w s
  | .unpackq4 w => Sys2Proof.Machine.execUnpackq4 w s
  | .iadd w => Sys2Proof.Machine.execIadd w s
  | .isub w => Sys2Proof.Machine.execIsub w s
  | .imul w => Sys2Proof.Machine.execImul w s
  | .imulh w => Sys2Proof.Machine.execImulh w s
  | .imad w => Sys2Proof.Machine.execImad w s
  | .idiv w => Sys2Proof.Machine.execIdiv w s
  | .irem w => Sys2Proof.Machine.execIrem w s
  | .iabs w => Sys2Proof.Machine.execIabs w s
  | .imin w => Sys2Proof.Machine.execImin w s
  | .imax w => Sys2Proof.Machine.execImax w s
  | .icmp w => Sys2Proof.Machine.execIcmp w s
  | .iadds w => Sys2Proof.Machine.execIadds w s
  | .isubs w => Sys2Proof.Machine.execIsubs w s
  | .laneAnd w => Sys2Proof.Machine.execLaneAnd w s
  | .laneOr w => Sys2Proof.Machine.execLaneOr w s
  | .laneXor w => Sys2Proof.Machine.execLaneXor w s
  | .laneShl w => Sys2Proof.Machine.execLaneShl w s
  | .laneShr w => Sys2Proof.Machine.execLaneShr w s
  | .laneSar w => Sys2Proof.Machine.execLaneSar w s
  | .lanePopc w => Sys2Proof.Machine.execLanePopc w s
  | .laneClz w => Sys2Proof.Machine.execLaneClz w s
  | .brev w => Sys2Proof.Machine.execBrev w s
  | .bfe w => Sys2Proof.Machine.execBfe w s
  | .bfi w => Sys2Proof.Machine.execBfi w s
  | .kand w => Sys2Proof.Machine.execKand w s
  | .kor w => Sys2Proof.Machine.execKor w s
  | .kxor w => Sys2Proof.Machine.execKxor w s
  | .knot w => Sys2Proof.Machine.execKnot w s
  | .kmov w => Sys2Proof.Machine.execKmov w s
  | .kmovV w => Sys2Proof.Machine.execKmovV w s
  | .kmovK w => Sys2Proof.Machine.execKmovK w s
  | .kbal w => Sys2Proof.Machine.execKbal w s
  | .exp2 w => Sys2Proof.Machine.execExp2 w s
  | .log2 w => Sys2Proof.Machine.execLog2 w s
  | .rcp w => Sys2Proof.Machine.execRcp w s
  | .rsq w => Sys2Proof.Machine.execRsq w s
  | .sqrt w => Sys2Proof.Machine.execSqrt w s
  | .sin w => Sys2Proof.Machine.execSin w s
  | .cos w => Sys2Proof.Machine.execCos w s
  | .tanh w => Sys2Proof.Machine.execTanh w s
  | .shfl w => Sys2Proof.Machine.execShfl w s
  | .redx w => Sys2Proof.Machine.execRedx w s
  | .scanx w => Sys2Proof.Machine.execScanx w s
  | .rtwcfg w => Sys2Proof.Machine.execRtwcfg w s
  | .rtwnext w => Sys2Proof.Machine.execRtwnext w s
  | .segred w => Sys2Proof.Machine.execSegred w s
  | .laneLd w => Sys2Proof.Machine.execLaneLd w s
  | .laneSt w => Sys2Proof.Machine.execLaneSt w s
  | .wlappend w => Sys2Proof.Machine.execWlappend w s
  | .ldo w => Sys2Proof.Machine.execLdo w s
  | .sto w => Sys2Proof.Machine.execSto w s
  | .ldx w => Sys2Proof.Machine.execLdx w s
  | .xst w => Sys2Proof.Machine.execXst w s
  | .atom w => Sys2Proof.Machine.execAtom w s
  | .red w => Sys2Proof.Machine.execRed w s
  | .flush w => Sys2Proof.Machine.execFlush w s
  | .topk w => Sys2Proof.Machine.execTopk w s
  | .rkenc w => Sys2Proof.Machine.execRkenc w s
  | .rkrec w => Sys2Proof.Machine.execRkrec w s
  | .rktab w => Sys2Proof.Machine.execRktab w s
  | .rkmrg w => Sys2Proof.Machine.execRkmrg w s
  | .lbr w => Sys2Proof.Machine.execLbr w s
  | .lbra w => Sys2Proof.Machine.execLbra w s
  | .join w => Sys2Proof.Machine.execJoin w s
  | .laneEnd w => Sys2Proof.Machine.execLaneEnd w s
  | .ltrap w => Sys2Proof.Machine.execLtrap w s
  | .tile w => Sys2Proof.Machine.execTile w s
  | .mcast w => Sys2Proof.Machine.execMcast w s
  | .storeTile w => Sys2Proof.Machine.execStoreTile w s
  | .gather w => Sys2Proof.Machine.execGather w s
  | .setReg w => Sys2Proof.Machine.execSetReg w s
  | .addc w => Sys2Proof.Machine.execAddc w s
  | .streamLoop w => Sys2Proof.Machine.execStreamLoop w s
  | .jmp w => Sys2Proof.Machine.execJmp w s
  | .notifyStore w => Sys2Proof.Machine.execNotifyStore w s
  | .notifyAdd w => Sys2Proof.Machine.execNotifyAdd w s
  | .notifyCredit w => Sys2Proof.Machine.execNotifyCredit w s
  | .waitv w => Sys2Proof.Machine.execWaitv w s
  | .save w => Sys2Proof.Machine.execSave w s
  | .fetch w => Sys2Proof.Machine.execFetch w s
  | .streamFence w => Sys2Proof.Machine.execStreamFence w s
  | .streamEnd w => Sys2Proof.Machine.execStreamEnd w s
  | .stackPushDone => Sys2Proof.Machine.execStackPushDone s
  | .stackPopDone => Sys2Proof.Machine.execStackPopDone s
  | .laneBlockStart => Sys2Proof.Machine.execLaneBlockStart s
  | .scalarLoadReply => Sys2Proof.Machine.execScalarLoadReply s
  | .amosReply => Sys2Proof.Machine.execAmosReply s
  | .laneMemoryComplete => Sys2Proof.Machine.execLaneMemoryComplete s
  | .sfuComplete => Sys2Proof.Machine.execSfuComplete s
  | .crossLaneComplete => Sys2Proof.Machine.execCrossLaneComplete s
  | .rankOpComplete => Sys2Proof.Machine.execRankOpComplete s
  | .trapEntry => Sys2Proof.Machine.execTrapEntry s
  | .afterCompletionTrap => Sys2Proof.Machine.execAfterCompletionTrap s
  | .heldCauseTrap => Sys2Proof.Machine.execHeldCauseTrap s
  | .queueProtocolFault => Sys2Proof.Machine.execQueueProtocolFault s
  | .translationWalk => Sys2Proof.Machine.execTranslationWalk s
  | .retry => Sys2Proof.Machine.execRetry s
  | .deliver => Sys2Proof.Machine.execDeliver s
  | .sliceRequest => Sys2Proof.Machine.execSliceRequest s
  | .replicatedFill => Sys2Proof.Machine.execReplicatedFill s
  | .replicatedStore => Sys2Proof.Machine.execReplicatedStore s
  | .commit => Sys2Proof.Machine.execCommit s
  | .hostCxlMemRead => Sys2Proof.Machine.execHostCxlMemRead s
  | .hostCxlMemWrite => Sys2Proof.Machine.execHostCxlMemWrite s
  | .doorbell => Sys2Proof.Machine.execDoorbell s
  | .queueDescriptorWrite => Sys2Proof.Machine.execQueueDescriptorWrite s
  | .queueDisable => Sys2Proof.Machine.execQueueDisable s
  | .queueEnable => Sys2Proof.Machine.execQueueEnable s
  | .errClear => Sys2Proof.Machine.execErrClear s
  | .launchRecordRead => Sys2Proof.Machine.execLaunchRecordRead s
  | .launchReady => Sys2Proof.Machine.execLaunchReady s
  | .teamPlace => Sys2Proof.Machine.execTeamPlace s
  | .gangStart => Sys2Proof.Machine.execGangStart s
  | .teamRetire => Sys2Proof.Machine.execTeamRetire s
  | .launchEnd => Sys2Proof.Machine.execLaunchEnd s
  | .msixUnmask => Sys2Proof.Machine.execMsixUnmask s
  | .barrierPhaseComplete => Sys2Proof.Machine.execBarrierPhaseComplete s
  | .compactionAppend => Sys2Proof.Machine.execCompactionAppend s
  | .tailCommit => Sys2Proof.Machine.execTailCommit s
  | .terminationPass => Sys2Proof.Machine.execTerminationPass s
  | .lineExpiry => Sys2Proof.Machine.execLineExpiry s
  | .eviction => Sys2Proof.Machine.execEviction s
  | .teamReturn => Sys2Proof.Machine.execTeamReturn s
  | .preemptionDone => Sys2Proof.Machine.execPreemptionDone s
  | .teamSave => Sys2Proof.Machine.execTeamSave s
  | .nprOverrun => Sys2Proof.Machine.execNprOverrun s
  | .abwaitTLimit => Sys2Proof.Machine.execAbwaitTLimit s
  | .dieLoss => Sys2Proof.Machine.execDieLoss s
  | .basinLoss => Sys2Proof.Machine.execBasinLoss s
  | .colDieLoss => Sys2Proof.Machine.execColDieLoss s
  | .hostLinkDown => Sys2Proof.Machine.execHostLinkDown s
  | .hostLinkUp => Sys2Proof.Machine.execHostLinkUp s
  | .tileClaimGrant => Sys2Proof.Machine.execTileClaimGrant s
  | .matrixStep => Sys2Proof.Machine.execMatrixStep s
  | .matrixCommandComplete => Sys2Proof.Machine.execMatrixCommandComplete s
  | .skickSlotGrant => Sys2Proof.Machine.execSkickSlotGrant s
  | .streamCommandStart => Sys2Proof.Machine.execStreamCommandStart s
  | .streamChunk => Sys2Proof.Machine.execStreamChunk s
  | .streamCommandComplete => Sys2Proof.Machine.execStreamCommandComplete s
  | .programStop => Sys2Proof.Machine.execProgramStop s
  | .waitvReread => Sys2Proof.Machine.execWaitvReread s
  | .nvmeCompletion => Sys2Proof.Machine.execNvmeCompletion s
  | .scopyComplete => Sys2Proof.Machine.execScopyComplete s
  | .collComplete => Sys2Proof.Machine.execCollComplete s
  | .collAbort => Sys2Proof.Machine.execCollAbort s
  | .collMessage => Sys2Proof.Machine.execCollMessage s
  | .abortMessage => Sys2Proof.Machine.execAbortMessage s
  | .managementMessage => Sys2Proof.Machine.execManagementMessage s
  | .denialMessage => Sys2Proof.Machine.execDenialMessage s
  | .class0Message => Sys2Proof.Machine.execClass0Message s
  | .flitReceive => Sys2Proof.Machine.execFlitReceive s
  | .nak => Sys2Proof.Machine.execNak s
  | .ack => Sys2Proof.Machine.execAck s
  | .ackSend => Sys2Proof.Machine.execAckSend s
  | .stripe => Sys2Proof.Machine.execStripe s
  | .train => Sys2Proof.Machine.execTrain s
  | .ready => Sys2Proof.Machine.execReady s
  | .permit => Sys2Proof.Machine.execPermit s
  | .portLinkDown => Sys2Proof.Machine.execPortLinkDown s
  | .peerSilenceTimeout => Sys2Proof.Machine.execPeerSilenceTimeout s
  | .parkRequest => Sys2Proof.Machine.execParkRequest s
  | .wakeRequest => Sys2Proof.Machine.execWakeRequest s
  | .wakeDone => Sys2Proof.Machine.execWakeDone s
  | .serviceAnswer => Sys2Proof.Machine.execServiceAnswer s
  | .modeWrite => Sys2Proof.Machine.execModeWrite s
  | .plimWrite => Sys2Proof.Machine.execPlimWrite s
  | .registerWrite => Sys2Proof.Machine.execRegisterWrite s
  | .ctxcreate => Sys2Proof.Machine.execCtxcreate s
  | .ctxend => Sys2Proof.Machine.execCtxend s
  | .xinv => Sys2Proof.Machine.execXinv s
  | .preempt => Sys2Proof.Machine.execPreempt s
  | .resume => Sys2Proof.Machine.execResume s
  | .kill => Sys2Proof.Machine.execKill s
  | .teamgo => Sys2Proof.Machine.execTeamgo s
  | .migrate => Sys2Proof.Machine.execMigrate s
  | .touch => Sys2Proof.Machine.execTouch s
  | .nsdef => Sys2Proof.Machine.execNsdef s
  | .atset => Sys2Proof.Machine.execAtset s
  | .tagrd => Sys2Proof.Machine.execTagrd s
  | .poisonclr => Sys2Proof.Machine.execPoisonclr s
  | .lossrel => Sys2Proof.Machine.execLossrel s
  | .portfail => Sys2Proof.Machine.execPortfail s
  | .portset => Sys2Proof.Machine.execPortset s
  | .unknownCmd => Sys2Proof.Machine.execUnknownCmd s
  | .packageReset => Sys2Proof.Machine.execPackageReset s
  | .measurementExtend => Sys2Proof.Machine.execMeasurementExtend s
  | .attestationRequest => Sys2Proof.Machine.execAttestationRequest s
  | .attestationReport => Sys2Proof.Machine.execAttestationReport s
  | .powerThrottleStep => Sys2Proof.Machine.execPowerThrottleStep s
  | .thermalThreshold => Sys2Proof.Machine.execThermalThreshold s
  | .thermalClockStep => Sys2Proof.Machine.execThermalClockStep s
  | .tierShutdown => Sys2Proof.Machine.execTierShutdown s
  | .regionPowerOff => Sys2Proof.Machine.execRegionPowerOff s
  | .operandUncorrectable => Sys2Proof.Machine.execOperandUncorrectable s
  | .memoryUncorrectable => Sys2Proof.Machine.execMemoryUncorrectable s
  | .beatCrcFail => Sys2Proof.Machine.execBeatCrcFail s
  | .tierTestYield => Sys2Proof.Machine.execTierTestYield s
  | .unassignedEncoding => Sys2Proof.Machine.execUnassignedEncoding s
  | .instructionFetchFault => Sys2Proof.Machine.execInstructionFetchFault s
  | .clusterAtomicMessage => Sys2Proof.Machine.execClusterAtomicMessage s
  | .dieCacheEviction => Sys2Proof.Machine.execDieCacheEviction s
  | .portComesUp => Sys2Proof.Machine.execPortComesUp s
  | .trainPeriodEnd => Sys2Proof.Machine.execTrainPeriodEnd s
  | .regionReturnToService => Sys2Proof.Machine.execRegionReturnToService s

end Sys2Proof.Machine
end

