-- ==== Sys2Proof/Machine/Sched.lean ====
section
/-! DEFINITION. What moves in a step: the streams of strands (R58, R63, R178), stream programs (R290), events; the order of moves where the state names none (R219, R220; log entry 1); and the placing of one instruction for the next step. -/

namespace Sys2Proof.Machine

/-! ### One move -/

/-- Whether a strand's scalar stream waits for the answer of the service agent to its SYSC (R125). -/
def Strand.awaitsService (st : Strand) : Bool := st.replies.any fun r => r.svc.isSome && r.inH == st.csr.ih

/-- The scalar stream of a strand moves: the results of lane instructions of earlier cycles have landed (R139); its next word is fetched and executed. A strand that may not issue, that waits for a service, or whose access is parked, stays as it is; one whose parked access has been answered Deliver traps now (R87). -/
def stepScalar (sid : Nat) (s : State) : Out :=
  match (s.strand sid).parkS with
    | some p => .next (if p.delivered && s.mayTrap sid then s.takeDelivered sid else s)
    | none =>
      if !s.mayIssue sid then .next s
      else if (s.strand sid).awaitsService then .next (s.modStrand sid fun st => { st with waitS := true })
      else
      let s := (s.modStrand sid fun st => st.landTo (s.cycles (coreOf sid) - 1))
      let s := { s with cur := sid, curB := false, curWin := false, ev := { flag := false } }
      match s.fetchScalar sid with
      | .got w s' =>
        let s' := { s' with curWord := w.setWidth 96 }
        match decodeScalar w with
        | .ok i => exec i s'
        | .error _ => exec .unassignedEncoding s'
      | _ => exec .instructionFetchFault s

/-- A side of a strand's lane stream moves: its next unit is fetched, with the header before it if one stands there, and executed. While it waits, the side stays where it was; a parked access stays at its unit (R87). -/
def stepSide (sid : Nat) (win b : Bool) (s : State) : Out :=
  let s := { s with cur := sid, curB := b, curWin := win, ev := { flag := true } }
  match s.prepSide sid win b with
  | .wait => .next (s.modStrand sid fun st => { st.stallSide b none with waitL := true })
  | .fault s' => exec .instructionFetchFault s'
  | .bad u s' => exec .unassignedEncoding { s' with curWord := u }
  | .unit u s' =>
    let s' := { s' with curWord := u }
    let out := match decodeLane u with
      | .ok i => exec i s'
      | .error _ => exec .unassignedEncoding s'
    match out with
    | .next t =>
      if (t.strand sid).waitL && (t.strand sid).parkL.isNone then
        .next (t.modStrand sid fun st =>
          st.setLaneCtx win ((st.laneCtx win).setSide b (((s.strand sid).laneCtx win).side b)))
      else .next t
    | o => o

/-- The side that issues (R58, R178): of two that run, the one whose dist cycles have passed first; of two that can issue in one cycle, the one that issued less recently. -/
def State.sideChoice (s : State) (sid : Nat) (win : Bool) : Bool :=
  let c := (s.strand sid).laneCtx win
  if c.runs false && c.runs true then
    match s.sideCycle sid win false, s.sideCycle sid win true with
    | some a, some b => if a = b then !c.lastB else decide (b < a)
    | none, some _ => true
    | some _, none => false
    | none, none => !c.lastB
  else c.runs true

/-- The lane stream of a strand moves (R178): the side that issues, the other one when that one waits; what each stalls on is noted (R60). A parked access that has been answered Deliver traps, after one of the scalar stream (R135). -/
def stepLane (sid : Nat) (s : State) : Out :=
  let st := s.strand sid
  match st.parkL with
    | some p =>
      .next (if p.delivered && s.mayTrap sid then s.takeDelivered sid else s)
    | none =>
      if !s.mayIssue sid || !st.laneHasWork then .next s
      else
        let win := st.csr.ih
        let first := s.sideChoice sid win
        match stepSide sid win first s with
        | .next t =>
          if (t.strand sid).waitL && (st.laneCtx win).runs (!first) && (t.strand sid).parkL.isNone then stepSide sid win (!first) t else .next t
        | o => o

/-- A stream program moves: its current command goes on, or the next one is fetched, accepted and run (R290). -/
def stepProg (n : Nat) (s : State) : Out :=
  match s.nextStream n with
  | .done t => .next t
  | .cmd i t => exec i { t with curProg := n }

/-- Whether an entry of the table is an event that comes about by itself. What a fetch alone brings about is none. -/
def Instr.isEvent (i : Instr) : Bool :=
  match i with
  | .unassignedEncoding => false
  | .instructionFetchFault => false
  | i => i.laneOp?.isNone && i.streamOp?.isNone && (encodeScalar i).isNone

/-- A cycle of a core passes (R6). (DESIGN CHOICE, log entry 2) -/
def State.addCycle (s : State) (core : Nat) : State := { s with cycle := mput s.cycle core (s.cycles core + 1) }

/-- Ticks of a retention ticker pass (R6). (DESIGN CHOICE, log entry 2) -/
def State.addTicks (s : State) (k n : Nat) : State := { s with tick := mput s.tick k (s.ticks k + n) }

/-- One move. (DESIGN CHOICE, log entry 1) -/
def State.move (s : State) (c : Choice) : Out :=
  match c with
  | .time k n => .next (if k < 13 then s.addTicks k n else s)
  | .scalar sid => stepScalar sid (s.addCycle (coreOf sid))
  | .lane sid => stepLane sid (s.addCycle (coreOf sid))
  | .prog n => stepProg n s
  | .pass sid idx L => .next (s.passLane sid idx L)
  | .event i e => if Instr.isEvent i then exec i { s with ev := e } else .next s
  | .hostRead off n => .next (s.hostRead off n)
  | .hostPeek a n => .next (s.hostPeek a n)
  | .hostPoke a bs => .next (s.hostPoke a bs)
  | .mask v => .next (s.maskVector v)
  | .corrected c => .next (s.correctedError c)
  | .staged i bs => .next (s.stage i bs)

/-! ### The order of moves where none is named (log entry 1) -/

/-- The strands that may issue, or take a before-effect fault that stands (R135). -/
def State.issuers (s : State) : List Nat := (s.strands.filter fun p => s.isRes p.1 && (s.mayIssue p.1 || (s.mayTrap p.1 && p.2.faultStands))).map (·.1)

/-- The slots, core × 4 + slot, of strands (R219). -/
def slotsOf (sids : List Nat) : List Nat :=
  (sids.map fun sid => coreOf sid * 4 + sid % 4).eraseDups

/-- Whether a running side of a strand's lane stream stands at a unit whose dist cycles have passed in the coming cycle (R58, R219). -/
def State.distMet (s : State) (sid : Nat) : Bool :=
  let win := (s.strand sid).csr.ih
  let t := s.addCycle (coreOf sid)
  [false, true].any fun b => ((s.strand sid).laneCtx win).runs b && (match t.sideCycle sid win b with
    | some c => decide (c ≤ t.cycles (coreOf sid))
    | none => false)

/-- Whether a stream is ready (R219): a move of it does not wait, and the dist of a lane unit is met. -/
def State.streamReady (s : State) (isLane : Bool) (sid : Nat) : Bool :=
  let st := s.strand sid
  if isLane then
    ((st.laneHasWork && s.mayIssue sid && s.distMet sid) || (st.parkL.map (·.delivered)).getD false)
    && (match stepLane sid s with
      | .next t => !(t.strand sid).waitL || (t.strand sid).parkL.isSome
      | _ => true)
  else
    (match st.parkS with
      | some p => p.delivered
      | none => s.mayIssue sid)
    && (match stepScalar sid s with
      | .next t => !(t.strand sid).waitS || (t.strand sid).parkS.isSome
      | _ => true)

/-- Whether stream a goes before stream b (R220): a wait age of 256 or more, the class, the least recent issue, the lower STRANDID. (DESIGN CHOICE, log entry 1) -/
def State.goesBefore (s : State) (isLane : Bool) (a b : Nat) : Bool :=
  let age := fun sid => let st := s.strand sid; if isLane then st.ageL else st.ageS
  let last : Nat → Nat := fun sid => match (if isLane then (s.strand sid).lastL else (s.strand sid).lastS) with
    | none => 0
    | some n => n + 1
  let big := fun sid => decide (256 ≤ age sid)
  if big a || big b then
    if big a && big b then decide (age b < age a) || (age a == age b && decide (a < b)) else big a
  else
    let pa := (s.strand a).prio
    let pb := (s.strand b).prio
    if pa != pb then decide (pb < pa)
    else if last a != last b then decide (last a < last b)
    else decide (a < b)

/-- The stream that a slot chooses among ready ones (R220). -/
def State.slotChoice (s : State) (isLane : Bool) : List Nat → Option Nat
  | [] => none
  | a :: l =>
    match s.slotChoice isLane l with
    | none => some a
    | some b => if s.goesBefore isLane a b then some a else some b

/-- The wait ages after a choice (R220): the chosen one's is 0, that of every other ready stream of the slot grows. -/
def State.ageStreams (s : State) (isLane : Bool) (ready : List Nat) (chosen : Nat) : State :=
  ready.foldl (fun s sid => s.modStrand sid fun st =>
    if isLane then { st with ageL := if sid = chosen then 0 else st.ageL + 1 }
    else { st with ageS := if sid = chosen then 0 else st.ageS + 1 }) s

/-- A slot's choice among its ready streams, with the yields of clause headers counted before it and the wait ages after it (R220). -/
def State.slotTurn (s : State) (isLane : Bool) (ready : List Nat) : Option (Nat × State) :=
  let s := if isLane then ready.foldl (fun s sid => s.noteYield sid) s else s
  (s.slotChoice isLane ready).map fun sid => (sid, s.ageStreams isLane ready sid)

/-- The issue slot, core × 4 + slot, of a strand (R219). -/
def slotKey (sid : Nat) : Nat := coreOf sid * 4 + sid % 4

/-- Whether the slot of a strand gives a named move of its stream its turn (R220, R221): the streams of the slot that are ready are chosen among; where none is, the named one tries. -/
def State.namedTurn (s : State) (isLane : Bool) (sid : Nat) : Option State :=
  let st := s.strand sid
  if (s.strands.filter fun p => slotKey p.1 == slotKey sid).length ≤ 1 && (if isLane then st.ageL else st.ageS) = 0 then some s
  else
    let ready := (s.issuers.filter fun x => slotKey x == slotKey sid).filter (s.streamReady isLane)
    match s.slotTurn isLane ready with
    | none => some s
    | some (c, t) => if c = sid then some t else none

/-- The turn of the streams of one kind: a slot's choice among its ready streams; where none is ready, one that has something to issue tries, so that what it waits for is known. -/
def State.streamTurn (s : State) (isLane : Bool) : Option (Choice × State) :=
  let all := s.issuers
  let mk := fun sid => if isLane then Choice.lane sid else Choice.scalar sid
  let ready := all.filter (s.streamReady isLane)
  let slots := slotsOf ready
  match slots[s.stepNo % Nat.max 1 slots.length]? with
  | none =>
    let try' := all.filter fun sid => s.mayIssue sid && (if isLane then (s.strand sid).laneHasWork else (s.strand sid).parkS.isNone)
    (try'[s.stepNo % Nat.max 1 try'.length]?).map fun sid => (mk sid, s)
  | some k =>
    (s.slotTurn isLane (ready.filter fun sid => slotKey sid == k)).map fun r => (mk r.1, r.2)

/-- The events that agents of the package can bring about by themselves for a strand. -/
def strandEvents (sid : Nat) (st : Strand) : List (Instr × EvArg) :=
  let e : EvArg := { who := sid }
  (List.range st.replies.length).flatMap (fun i => [(.scalarLoadReply, { e with idx := i }), (.amosReply, { e with idx := i })])
  ++ (List.range st.longs.length).flatMap (fun i =>
      [(.laneMemoryComplete, { e with idx := i }), (.crossLaneComplete, { e with idx := i }), (.rankOpComplete, { e with idx := i })])
  ++ [(.sfuComplete, e), (.stackPushDone, e), (.stackPushDone, { e with flag := true }), (.stackPopDone, e), (.stackPopDone, { e with flag := true })]
  ++ [(.laneBlockStart, e), (.laneBlockStart, { e with flag := true }), (.trapEntry, e), (.afterCompletionTrap, e), (.heldCauseTrap, e)]
  ++ [(.queueProtocolFault, e), (.nprOverrun, e), (.abwaitTLimit, e)]

/-- The events of cores, engines and copy paths. -/
def State.engineEvents (s : State) : List (Instr × EvArg) :=
  s.mxq.flatMap (fun p => (List.range p.2.length).flatMap fun i =>
    [(.matrixStep, { core := p.1, idx := i }), (.matrixCommandComplete, { core := p.1, idx := i })])
  ++ (List.range 64).map (fun c => (.tileClaimGrant, { core := c }))
  ++ s.skickQ.map (fun p => (.skickSlotGrant, { core := p.1 }))
  ++ s.scopies.flatMap (fun p => (List.range p.2.length).map fun i => (.scopyComplete, { core := p.1, idx := i }))
  ++ (List.range s.clusterMsgs.length).map (fun i => (.clusterAtomicMessage, { idx := i }))
  ++ (List.range s.appends.length).flatMap (fun i => [(.compactionAppend, { idx := i }), (.tailCommit, { idx := i })])
  ++ s.quiets.map (fun q => (.terminationPass, { who := q.ctx, addr := q.group }))

/-- The running management command goes on (R378). -/
def State.cmdEvents (s : State) : List (Instr × EvArg) :=
  match s.runningCmd with
  | none => []
  | some (u, b) =>
    match (mgmtFields b).cmd.toNat with
    | 0x03 => [(.xinv, { flag := u })]
    | 0x08 => [(.migrate, { flag := u })]
    | 0x0B => [(.atset, { flag := u })]
    | _ => []

/-- The migrations that Ultik starts by itself (R236, R377, R396, R399): of a team on a retired core, or on one with a migration event for heat that arose under MIGR = 0, to the first core that takes its cluster set. (DESIGN CHOICE, log entry 47) -/
def State.ultikMoves (s : State) : List (Instr × EvArg) :=
  if s.runningCmd.isSome || s.mgmtQ != [] then []
  else
    let go := s.teams.filter fun p => p.2.st == .running && decide (p.2.core < 64)
      && (s.retired.contains p.2.core || s.heat.contains p.2.core)
    go.filterMap fun p =>
      ((List.range 64).find? fun c => c != p.2.core && !s.hot c && (s.migrateCores p.1 c).isSome).map fun c =>
        (.migrate, { flag := true, bytes := s.moveBlock p.2 c })

/-- The events of the Basin die. -/
def State.basinEvents (s : State) : List (Instr × EvArg) :=
  s.queues.map (fun p => (.launchRecordRead, { who := p.1 }))
  ++ s.launches.flatMap (fun p => [(.launchReady, { who := p.1 }), (.teamPlace, { who := p.1 }), (.launchEnd, { who := p.1 })])
  ++ s.teams.flatMap (fun p => [(.gangStart, { who := p.1 }), (.teamRetire, { who := p.1 }), (.eviction, { who := p.1 })])
  ++ s.teams.flatMap (fun p => [(.teamReturn, { who := p.1 }), (.teamSave, { who := p.1 })])
  ++ s.ctxs.map (fun p => (.preemptionDone, { who := p.1 }))
  ++ s.updates.map (fun u => (.commit, { addr := u.line }))
  ++ s.colls.flatMap (fun c => [(.collComplete, { who := c.ctx, addr := c.gid, idx := c.k }), (.collAbort, { who := c.ctx, addr := c.gid, idx := c.k })])
  ++ (if s.attQ = [] then [] else [(.attestationReport, ({} : EvArg))])
  ++ s.cmdEvents ++ s.ultikMoves

/-- The moves other than issue that the package can make by itself. (DESIGN CHOICE, log entry 35) -/
def State.ownMoves (s : State) : List Choice :=
  (s.strands.flatMap fun p => strandEvents p.1 p.2).map (fun x => Choice.event x.1 x.2)
  ++ (s.progs.filter fun p => p.2.running).map (fun p => Choice.prog p.1)
  ++ (s.engineEvents ++ s.basinEvents).map fun x => Choice.event x.1 x.2

/-- Whether a move changes the package, its operands and the acting agent aside. -/
def State.moves (s : State) (c : Choice) : Bool :=
  match s.move c with
  | .next t => decide ({ t with ev := s.ev, curProg := s.curProg } ≠ s)
  | _ => true

/-- The turn of the other moves: the first, from a place that goes on by one each time, that changes something. -/
def State.ownTurn (s : State) : Option (Choice × State) :=
  let l := s.ownMoves
  let k := s.stepNo / 3 % Nat.max 1 l.length
  ((l.drop k ++ l.take k).find? s.moves).map fun c => (c, s)

/-- The move of a step for which none is named: scalar streams, lane streams and other moves in turn; the next kind where one has nothing to do. (DESIGN CHOICE, log entry 1) -/
def State.ownChoice (s : State) : Option (Choice × State) :=
  let a := s.streamTurn false
  let b := s.streamTurn true
  let c := s.ownTurn
  match s.stepNo % 3 with
  | 0 => (a.or b).or c
  | 1 => (b.or c).or a
  | _ => (c.or a).or b

/-- Time that passes with such a step: on every ticker, and a cycle on every core with strands (DESIGN CHOICE, log entry 2). -/
def State.passTime (s : State) : State :=
  let s := (List.range 13).foldl (fun s k => s.addTicks k (Config.tickAdvance k s.stepNo)) s
  (s.strands.map fun p => coreOf p.1).eraseDups.foldl State.addCycle s

/-- A named move of a stream: it issues when its slot gives it the turn. -/
def State.moveNamed (s : State) (isLane : Bool) (sid : Nat) : Out :=
  match s.namedTurn isLane sid with
  | some t => t.move (if isLane then .lane sid else .scalar sid)
  | none => .next s

/-- A step of the package that has not met a fatal error: the next move that the state names, or one of its own. (DESIGN CHOICE, log entry 1) -/
def State.advance (s : State) : Out :=
  match s.sched with
  | .scalar sid :: cs => ({ s with sched := cs, stepNo := s.stepNo + 1 } : State).moveNamed false sid
  | .lane sid :: cs => ({ s with sched := cs, stepNo := s.stepNo + 1 } : State).moveNamed true sid
  | c :: cs => ({ s with sched := cs, stepNo := s.stepNo + 1 } : State).move c
  | [] =>
    let s' := { s with stepNo := s.stepNo + 1 }
    match s'.ownChoice with
    | none => .next s'.passTime
    | some (c, t) => t.passTime.move c

/-! ### Placing one instruction (log entry 15) -/

/-- The physical page and the virtual page that the model's placing of an instruction uses. (DESIGN CHOICE, log entry 15) -/
def State.placeCode (s : State) (off : Nat) (bs : List Byte) : State :=
  { s with
    hbm := memPutAll s.hbm off bs
    tlb := mput s.tlb (tlbKey 0 0 0) { ppage := 0, r := true, w := true, x := true, policy := polNC, level := 0 }
    acc := mput s.acc (accKey 0 0 0) 3
    ctxs := match mget? s.ctxs 0 with
      | some _ => s.ctxs
      | none => mput s.ctxs 0 {} }

/-- The team and the strand that the instruction is given to: strand 0 of core 0, of team 0 of launch 0 in context 0. (DESIGN CHOICE, log entry 15) -/
def State.placeStrand (s : State) (f : Strand → Strand) : State :=
  let st := (mget? s.strands 0).getD {}
  let ks : Seg := { base := 0, len := 4096 }
  let kl : Seg := { base := 4096, len := 4092 }
  { s with
    strands := mput s.strands 0 (f { st with team := 0, segs := { st.segs with ks := ks, kl := kl } })
    teams := match mget? s.teams 0 with
      | some _ => s.teams
      | none => mput s.teams 0 { st := .running, sids := [0] }
    launches := match mget? s.launches 0 with
      | some _ => s.launches
      | none => mput s.launches 0 { st := .ready, checked := true, placed := 1 } }

/-- A scalar word for the next step. (DESIGN CHOICE, log entry 15) -/
def State.placeScalar (s : State) (w : Nat) : State :=
  { (s.placeCode 0 (leBytes 4 w)).placeStrand fun st => { st with pc := 0, parkS := none } with sched := [.scalar 0] }

/-- A lane unit for the next step: it stands in a clause of one instruction whose flags are f0 and f1. (DESIGN CHOICE, log entry 15) -/
def State.placeLane (s : State) (w : Nat) : State :=
  { (s.placeCode 4096 (leBytes 12 w)).placeStrand fun st =>
      let sd : Side := { pc := 0, mask := BitVec.allOnes 64, live := true, st := .running, left := 1, flagA := 0, flagB := 1 }
      { st with lane := { st.lane with a := sd, busy := true, spill := none }, parkL := none }
    with sched := [.lane 0] }

/-- A stream command for the next step: it stands at the PC of program 0, kicked by strand 0. (DESIGN CHOICE, log entry 15) -/
def State.placeStream (s : State) (w : Nat) : State :=
  { (s.placeCode 8192 (leBytes 32 w)).placeStrand fun st => st with
    progs := mput s.progs 0 { ctx := 0, pc := 8192, start := 8192, targets := [1, 0, 0, 0], running := true, gen := 1 }
    sched := [.prog 0] }

end Sys2Proof.Machine
end

