-- ==== Sys2Proof/Machine/Step.lean ====
section
/-! DEFINITION. One step of the package, and the placing of the instruction that the next step runs. -/

namespace Sys2Proof.Machine

/-- One step: a package that has met a fatal error does nothing further (R18, R352). -/
def step (s : State) : Host.Outcome State Fault Refusal :=
  if s.fatal then .fault .packageFatal else s.advance

/-- The state with one instruction stored where the next step fetches it: a scalar word of 32 bits, a lane unit of 96 bits, a stream command of 64 to 256 bits; it stands for the load of a program by the host (DESIGN CHOICE, log entry 15). -/
def State.withFetchWord (s : State) (nbits w : Nat) : State :=
  if nbits ≤ 32 then s.placeScalar w else if nbits = 96 then s.placeLane w else s.placeStream w

end Sys2Proof.Machine
end

