-- ==== Sys2Proof/Safety.lean ====
section
/-! DEFINITION. What claims about the machine are said in: memories in order, the operands of an instruction and the way it ends. -/

namespace Sys2Proof.Machine

/-- Both memories are in their canonical form: addresses strictly rising, no entry equal to what an unlisted address reads as; and the tags of lines stand in rising order. -/
def State.memOk (s : State) : Prop := s.hbm.wf = true ∧ s.hostMem.wf = true ∧ mwf s.tags = true

/-! ### Operands of the scalar stream -/

/-- The acting strand. -/
def State.me (s : State) : Strand := s.strand s.cur

/-- The value that the acting strand reads from source register r, and the package after the read (R45, R105, R108): the first
entry of q4 to q7, popped; 0 from a0; the value of a register that awaits no result. none: the read waits, or the port is a push port. -/
def State.source (s : State) (r : BitVec 6) : Option (W64 × State) :=
  let n := r.toNat
  if isPush n || s.me.regBusy n then none
  else if isPop n then
    match s.me.queue (n - 48) with
    | [] => none
    | x :: xs => some (x, s.setStrand s.cur (s.me.setQueue (n - 48) xs))
  else some (s.me.reg n, s)

/-- Two source registers, the first one read first. -/
def State.source2 (s : State) (a b : BitVec 6) : Option (W64 × W64 × State) :=
  match s.source a with
  | none => none
  | some (x, s1) =>
    match s1.source b with
    | none => none
    | some (y, s2) => some (x, y, s2)

/-- Whether destination register r can take a value now (R45, R108): no pop port, no result awaited, room for one more entry in q0 to q3. -/
def State.takes (s : State) (r : BitVec 6) : Bool :=
  let n := r.toNat
  !isPop n && !s.me.regBusy n && (!isPush n || decide ((s.me.queue (n - 48)).length < 8))

/-- A register of an instruction is a queue port in the wrong direction (R45). -/
def portsWrong (srcs dsts : List (BitVec 6)) : Bool := (srcs.any fun r => isPush r.toNat) || dsts.any fun r => isPop r.toNat

/-- A register of an instruction awaits the result of an earlier one (R108). -/
def State.portsBusy (s : State) (srcs dsts : List (BitVec 6)) : Bool := (srcs ++ dsts).any fun r => s.me.regBusy r.toNat

/-- What an instruction stalls on (R45, R60): the first of q4 to q7 with fewer entries than it takes, else the first of its ports q0 to q3 without room. -/
def State.portStall (s : State) (srcs dsts : List (BitVec 6)) : Option Stall :=
  match (List.range 4).find? fun i => decide ((s.me.queue (4 + i)).length < popsOf srcs (4 + i)) with
  | some i => some { port := 4 + i, need := popsOf srcs (4 + i) }
  | none => (dsts.find? fun r => isPush r.toNat && decide (8 ≤ (s.me.queue (r.toNat - 48)).length)).map fun r => { port := r.toNat - 48, need := 1 }

/-- The source and the destination registers of a scalar instruction that may be queue ports (R45), in the order in which it reads them; none of an instruction without such registers. -/
def portRegs : Instr → Option (List (BitVec 6) × List (BitVec 6))
  | .add d a b => some ([a, b], [d])
  | .sub d a b => some ([a, b], [d])
  | .mul d a b => some ([a, b], [d])
  | .mulh d a b => some ([a, b], [d])
  | .mulhn d a b => some ([a, b], [d])
  | .div d a b => some ([a, b], [d])
  | .divn d a b => some ([a, b], [d])
  | .rem d a b => some ([a, b], [d])
  | .remn d a b => some ([a, b], [d])
  | .and d a b => some ([a, b], [d])
  | .or d a b => some ([a, b], [d])
  | .xor d a b => some ([a, b], [d])
  | .andn d a b => some ([a, b], [d])
  | .shl d a b => some ([a, b], [d])
  | .shr d a b => some ([a, b], [d])
  | .sar d a b => some ([a, b], [d])
  | .min d a b => some ([a, b], [d])
  | .max d a b => some ([a, b], [d])
  | .minn d a b => some ([a, b], [d])
  | .maxn d a b => some ([a, b], [d])
  | .slt d a b => some ([a, b], [d])
  | .sltn d a b => some ([a, b], [d])
  | .seq d a b => some ([a, b], [d])
  | .popc d a => some ([a], [d])
  | .clz d a => some ([a], [d])
  | .ctz d a => some ([a], [d])
  | .addi d a _ => some ([a], [d])
  | .andi d a _ => some ([a], [d])
  | .ori d a _ => some ([a], [d])
  | .xori d a _ => some ([a], [d])
  | .slti d a _ => some ([a], [d])
  | .shli d a _ => some ([a], [d])
  | .shri d a _ => some ([a], [d])
  | .sari d a _ => some ([a], [d])
  | .lih d _ => some ([], [d])
  | .lea t b _ _ _ => some ([b], [t])
  | .ld t b _ _ _ _ => some ([b], [t])
  | .st t b _ _ _ => some ([t, b], [])
  | .amos d a b p _ _ _ => some (if p = 9 then [a, b, d] else [a, b], [d])
  | .amosX d a b p _ _ => some (if p = 9 then [a, b, d] else [a, b], [d])
  | .flushs b _ _ => some ([b], [])
  | .csrr d _ => some ([], [d])
  | .csrw a _ => some ([a], [])
  | .csrs a _ => some ([a], [])
  | .csrc a _ => some ([a], [])
  | .bcc a b _ _ => some ([a, b], [])
  | .jr a => some ([a], [])
  | .jalr d a => some ([a], [d])
  | .loop a _ => some ([a], [a])
  | .disp d _ => some ([d], [])
  | .vgetV d a _ => some ([a], [d])
  | .vgetK d a _ => some ([a], [d])
  | .vsetV d a _ => some ([d, a], [])
  | .vsetK d a _ => some ([d, a], [])
  | .qstat d _ => some ([], [d])
  | .mxcfgSet _ a => some ([a], [])
  | .mxcfgStat d _ => some ([], [d])
  | .mxloop _ g k _ _ _ => some (groupRegs g 6 ++ [k], [])
  | .mxsp _ g k _ _ _ => some (groupRegs g 8 ++ [k], [])
  | .mxrk _ g r _ _ => some (groupRegs g 4 ++ [r], [])
  | .mxst _ _ _ _ d x _ _ => some (if x = 0 then [d] else [d, x], [])
  | .skickH d g b _ _ => some (groupRegs g 3 ++ [b], [d])
  | .skickE d g b _ _ => some (groupRegs g 3 ++ [b], [d])
  | .scopyLd _ p _ _ _ => some (groupRegs p 3, [])
  | .scopySt _ p _ _ _ => some (groupRegs p 3, [])
  | .coll g _ _ => some (groupRegs g 3, [])
  | .sstat d a => some ([a], [d])
  | .sstatCancel d a => some ([a], [d])
  | .abinit d a b => some ([d, a, b], [])
  | .abfree a => some ([a], [])
  | .abwait a b => some ([a, b], [])
  | .abwaitT d a b => some ([a, b], [d])
  | .abrel a => some ([a], [])
  | .park a b => some ([a, b], [])
  | .osalloc d a b _ => some ([a, b], [d])
  | .osfree a b => some ([a, b], [])
  | .osquery d a => some ([a], [d])
  | .osqueryX d a => some ([a], [d])
  | .wltake d a _ _ => some ([a], [d])
  | .wldone a => some ([a], [])
  | .wlquiet a _ => some ([a], [])
  | .hdef a _ _ => some ([a], [])
  | .hread a _ _ => some ([a], [])
  | .segld a b _ => some ([a, b], [])
  | .segrdBase d _ => some ([], [d])
  | .segrdLen d _ => some ([], [d])
  | _ => none

/-- What an instruction checks before its ports: the privilege of SEGLD (R50), the range of a lane register that it names (R46). -/
def State.beforePorts (s : State) (i : Instr) : Prop :=
  match i with
  | .segld _ _ _ => (s.ctx (s.ctxOf s.cur)).user = false
  | .vgetV _ _ n => n.toNat < s.me.budget ∨ 960 ≤ n.toNat
  | .vsetV _ _ n => n.toNat < s.me.budget ∨ 960 ≤ n.toNat
  | .wltake _ _ _ n => n.toNat < s.me.budget ∨ 960 ≤ n.toNat
  | _ => True

/-- A value written to destination register r (R45, R105): a new last entry of q0 to q3, nothing for a0, the register otherwise. -/
def State.dest (s : State) (r : BitVec 6) (v : W64) : State :=
  let n := r.toNat
  s.setStrand s.cur (if isPush n then s.me.setQueue (n - 48) (s.me.queue (n - 48) ++ [v]) else s.me.setReg n v)

/-- The scalar stream of the acting strand has issued its instruction and goes on at pc; it waits for nothing. -/
def State.endScalar (s : State) (pc : W64) : State :=
  s.modStrand s.cur fun st => { st with pc := pc, lastS := some s.stepNo, waitS := false, stallS := none, parkS := none }

/-- The scalar stream goes on at the next word. -/
def State.nextWord (s : State) : State := s.endScalar (s.me.pc + 4)

/-- The scalar stream of the acting strand waits: nothing else has happened. on: what it stalls on, where only the lane stream ends the wait (R60). -/
def State.waitScalar (s : State) (on : Option Stall) : State :=
  s.modStrand s.cur fun st => { st with waitS := true, stallS := on }

/-- A lane stream is between blocks: none in progress, none queued (R118). -/
def LaneCtx.noBlock (c : LaneCtx) : Bool := !c.busy && c.dq == []

/-- The scalar instruction of the acting strand traps with a CODE, before any other effect (R130, R131). -/
def State.trapScalar (s : State) (t : Trap) : State :=
  s.takeTrap s.cur { t with sfault := true, epc := some s.me.pc, sword := s.curWord.setWidth 32 }

/-- Conditions that a scalar instruction has met: their bits of SFLAGS are set (R107). -/
def State.sticky (s : State) (c : Conds) : State :=
  s.setStrand s.cur { s.me with csr := { s.me.csr with sflags := s.me.csr.sflags ||| ((c &&& ~~~(cEXPT ||| cRKF)).setWidth 64) } }

/-- A scalar instruction of the acting strand has completed, which met conditions c, and goes on at pc; then it traps with CODE 0x10 when one of them is enabled (R107, R110, R113). epc: its own address. -/
def State.endWith (s : State) (c : Conds) (epc pc : W64) : State :=
  let t := s.endScalar pc
  if c &&& s.me.enabled = 0 then t
  else t.takeTrap s.cur
    { code := 0x10, acm := c &&& s.me.enabled, sfault := true, epc := some epc, sword := s.curWord.setWidth 32, after := true }

/-- The acting strand waits for a result (R108). -/
def State.awaitReply (s : State) (r : Reply) : State := s.setStrand s.cur { s.me with replies := s.me.replies ++ [r] }

/-- The acting strand takes held causes at a later issue (R135). -/
def State.holds (s : State) (l : List Held) : State := s.setStrand s.cur { s.me with held := s.me.held ++ l }

/-- No AMOS acquire is awaited, so that the scalar stream may make a further access (R351). -/
def State.mayAccess (s : State) : Prop := (s.me.replies.any fun r => r.acq.isSome) = false

/-- VGET and VSET act now (R118): in the handler, or with an idle lane stream. -/
def State.laneQuiet (s : State) : Prop := s.me.csr.ih = true ∨ s.me.laneIdle = true

/-- The acting strand as the results of its lane instructions that are due have landed (R139). -/
def State.landedNow (s : State) (st : Strand) : Strand := st.landTo (s.cycles (coreOf s.cur))

/-- The package in which VGET acts (R118, R139): what is due has landed. -/
def State.laneSeen (s : State) : State := s.setStrand s.cur (s.landedNow s.me)

/-- What a scalar instruction that stops leaves (R87, R109, R131): a trap with its denials logged, a parked access, a wait. -/
def State.scalarStop (s : State) : Stop → State
  | .trap t l => (s.logDenied (s.ctxOf s.cur) l).takeTrap s.cur { t with sfault := true, epc := some s.me.pc, sword := s.curWord.setWidth 32 }
  | .park p => s.parkScalar s.cur p
  | .wait q => s.waitScalar q

/-- Release and acquire actions of the acting strand at a scope (R99 to R101). -/
def State.releases (s : State) (scope : Nat) : State := s.releaseAt (dieOf (coreOf s.cur)) (s.ctxOf s.cur) scope
def State.acquires (s : State) (scope : Nat) : State := s.acquireAt (dieOf (coreOf s.cur)) (s.ctxOf s.cur) scope

/-- The acting strand's group for a barrier, and its barrier. -/
def State.myGroup (s : State) (l : BitVec 2) : Nat := (s.teamOf s.cur).barGroup s.me.team l.toNat
def State.myBar (s : State) (l : BitVec 2) (n : BitVec 4) : Bar := s.barAt (barKey l.toNat n.toNat (s.myGroup l))

/-- The acting strand is a member of a barrier (R222). -/
def State.isMember (s : State) (l : BitVec 2) (n : BitVec 4) : Bool := (s.barMask (s.teamOf s.cur) l.toNat n.toNat).getLsbD s.me.role

/-- The acting strand arrives at a barrier (R223): the release, the phase it arrives in noted, itself among the arrived, and the phase completed if it is full. -/
def State.arrives (s : State) (l : BitVec 2) (n : BitVec 4) : State :=
  let g := s.myGroup l
  let k := barKey l.toNat n.toNat g
  let b := s.myBar l n
  let s1 := s.releases (barScope l.toNat)
  let s2 := s1.setStrand s.cur { s.me with arr := mput s.me.arr (arrIdx l n) b.phase }
  ({ s2 with bars := mput s.bars k { b with arrived := b.arrived ++ [s.me.member] } } : State).barCheck l.toNat n.toNat g

/-- The phase of the acting strand's arrival has completed; so it is when the strand has never arrived, or the barrier is broken (R223, R237). -/
def State.phasePassed (s : State) (l : BitVec 2) (n : BitVec 4) : Bool :=
  match mget? s.me.arr (arrIdx l n) with
  | none => true
  | some p => decide (p < (s.myBar l n).phase) || (s.myBar l n).broken

/-- The bytes of the acting strand's O segment from o on are lines that OSALLOC and OSFREE take (R250): whole lines within the limit, without an arrival barrier. -/
def State.linesOk (s : State) (o n : Nat) : Prop :=
  o % 256 = 0 ∧ n % 256 = 0 ∧ 256 ≤ n ∧ o + n ≤ s.me.segs.o.len.toNat
  ∧ ∀ i < n / 256, (s.osLine (coreOf s.cur) ((s.me.segs.o.base.toNat + o) / 256 + i)).barr = 0

/-- The place in the store of the 32 bytes at O offset o (R304). -/
def State.oOff (s : State) (o : Nat) : Nat := s.me.segs.o.base.toNat + o

/-- A barrier can stand at O offset o (R304): natural multiple, limit, no FREE line. -/
def State.abFits (s : State) (o : Nat) : Prop :=
  o % 32 = 0 ∧ o + 32 ≤ s.me.segs.o.len.toNat ∧ (s.osLine (coreOf s.cur) (s.oOff o / 256)).free = false

/-- An arrival barrier stands at O offset o (R303, R307). -/
def State.abStands (s : State) (o : Nat) : Prop := s.abFits o ∧ s.hasBarrier (coreOf s.cur) (s.oOff o) = true

/-- The registers of a group can be read (R108, R273): plain registers, none of which awaits a result; and their values. -/
def State.groupReady (s : State) (g : BitVec 6) (n : Nat) : Prop := groupOk g n = true ∧ ∀ i < n, s.me.regBusy (g.toNat + i) = false
def State.group (s : State) (g : BitVec 6) (n : Nat) : List W64 := (List.range n).map fun i => s.me.reg (g.toNat + i)

/-- A flag that can be counted (R47), and the acting strand with it counted; no flag stands for 15. -/
def State.flagRoom (s : State) (f : BitVec 4) : Prop := 11 < f.toNat ∨ s.me.flag f.toNat < 65535
def State.counted (s : State) (f : BitVec 4) : State :=
  if 11 < f.toNat then s
  else s.setStrand s.cur { s.me with flags := mset s.me.flags f.toNat (s.me.flag f.toNat + 1) 0 }

/-- The acting strand with a flag counted for work whose completion is visible at .pkg (R93). -/
def State.countedPkg (s : State) (f : BitVec 4) : State :=
  let t := s.counted f
  if 11 < f.toNat then t
  else t.setStrand t.cur { t.me with pkgFlags := if t.me.pkgFlags.contains f.toNat then t.me.pkgFlags else t.me.pkgFlags ++ [f.toNat] }

/-- A release of the acting strand at a scope is complete at once (R95, R101): its stores to replicated lines are acknowledged, its host stores observed. -/
def State.freeRelease (s : State) (scope : Nat) : Prop := (s.releases scope).released s.cur scope = true

/-- The matrix engine of the acting strand's core accepts a command (R270). -/
def State.mxAccepts (s : State) (c : MxCmd) : State :=
  let t := s.counted c.flag
  t.setMxCmds (coreOf t.cur) (t.mxCmds (coreOf t.cur) ++ [{ c with sid := t.cur }])

/-- The matrix engine has room (R270), and no tiles of the acting strand wait to be restored (R286). -/
def State.mxReady (s : State) : Prop :=
  (s.mxCmds (coreOf s.cur)).length < 32 ∧ (s.tileBack.any fun b => b.sid == s.cur) = false

/-- Every region lies in its segment, and none has a FREE line (R274). -/
def State.regionsOk (s : State) (rs : List MxRegion) : Prop := ∀ r ∈ rs, s.mxInside s.cur r = true ∧ s.mxNotFree s.cur r = true

/-- The turn of the acting strand's claim on its core (R266). -/
def State.claimTurn (s : State) : Bool :=
  match s.nextClaim (coreOf s.cur) with
  | none => !s.tileBack.any fun b => b.core == coreOf s.cur
  | some h => h == s.cur

/-! ### The lane stream -/

/-- The state on which a lane instruction of the acting side acts (R140): what is due by its cycle has landed, and its side has issued last. -/
def State.laneStart (s : State) (w : LaneW) : State :=
  let x := s.laneIn w
  (s.modStrand s.cur fun st => st.landTo x.t).modStrand s.cur fun st => st.setLaneCtx x.win { st.laneCtx x.win with lastB := x.sideB }

/-- The acting side may issue (R147): no after-completion condition is known by its cycle. -/
def State.laneMay (s : State) (w : LaneW) : Prop := s.isRes s.cur = true ∧ (s.strand s.cur).condsKnown (s.laneIn w).t = false

/-- Active of the instruction (R177). -/
def State.act (s : State) (w : LaneW) : W64 := (s.laneIn w).active

/-- The lane stream after an instruction whose effect left u: its side stands as f says; the stream waits for nothing. -/
def State.laneDone (s : State) (w : LaneW) (f : LaneCtx → LaneCtx) (u : State) : State :=
  let x := s.laneIn w
  (u.modStrand s.cur fun st =>
    { (st.setLaneCtx x.win (f (st.laneCtx x.win))).stallSide x.sideB none with
      lastLane := some x.t, lastL := some s.stepNo, waitL := false, parkL := none }).toCycle (coreOf s.cur) x.t

/-- What a lane instruction that stops leaves (R60, R87, R130): a trap with its denials logged, a parked access, a wait. -/
def State.laneStop (s : State) (w : LaneW) (e : Stop) : State :=
  let x := s.laneIn w
  let s0 := s.modStrand s.cur fun st => st.landTo x.t
  match e with
  | .trap t l => (s0.logDenied (s.ctxOf s.cur) l).takeTrap s.cur
      { t with lfault := true, sideB := x.sideB, unitNo := some x.unitNo, lword := s.curWord, fA := x.fA, fB := x.fB }
  | .park p => s0.parkLane s.cur { p with sideB := x.sideB, unitNo := x.unitNo, word := s.curWord, fA := x.fA, fB := x.fB }
  | .wait q => s.modStrand s.cur fun st => { st.stallSide x.sideB q with waitL := true }

/-- The lane stream goes on at the side's next unit (R57). -/
def State.laneNext (s : State) (w : LaneW) (u : State) : State :=
  s.laneDone w (fun c => c.setSide s.curB (c.side s.curB).advance) u

/-- A lane instruction has its operands (R46, R58, R60, R64): registers in range and in the right direction, a reading rd that gives r and leaves u, room in the ports that it writes. -/
def State.laneHas {α : Type} (s : State) (w : LaneW) (srcs dsts : List (BitVec 10)) (rd : LaneIn → M α) (r : α) (u : State) : Prop :=
  s.laneMay w ∧ laneRegs (s.laneIn w) srcs dsts (s.laneStart w) = .ok ((), s.laneStart w) ∧ rd (s.laneIn w) (s.laneStart w) = .ok (r, u)
  ∧ ∀ d ∈ dsts, roomFor d (s.act w) u = .ok ((), u)

/-- Readings: nothing; a; b; a and b; a, b and c; and a with vb, where no immediate stands. -/
def rdNone (_ : LaneIn) : M Unit := pure ()
def rdA (w : LaneW) (x : LaneIn) : M (Nat → W32) := readV x w.va
def rdB (w : LaneW) (x : LaneIn) : M (Nat → W32) := readB x w
def rdAB (w : LaneW) (x : LaneIn) : M ((Nat → W32) × (Nat → W32)) := do return (← readV x w.va, ← readB x w)
def rdABC (w : LaneW) (x : LaneIn) : M ((Nat → W32) × (Nat → W32) × (Nat → W32)) := do return (← readV x w.va, ← readB x w, ← readV x w.vc)
def rdV (w : LaneW) (x : LaneIn) : M ((Nat → W32) × (Nat → W32)) := do return (← readV x w.va, ← readV x w.vb)

/-- What the instruction leaves under way from u: writes and conditions, landing lat cycles after its own (R139). -/
def State.laneGives (s : State) (w : LaneW) (u : State) (lat : Nat) (ws : List LaneWrite) (cs : List LaneCond) : State :=
  s.laneNext w (u.setStrand u.cur (u.me.pend (s.laneIn w) u.curWord u.stepNo lat ws cs))

/-- One result for each Active lane, with its conditions, written to vd. -/
def State.laneEach (s : State) (w : LaneW) (u : State) (lat : Nat) (f : Nat → W32 × Conds) : State :=
  s.laneGives w u lat (destWrites w.vd (s.act w) fun L => (f L).1) ((lanesOf (s.act w)).map fun L => { lane := L, bits := (f L).2 })

/-- One result for each Active lane, written to vd, without a condition. -/
def State.laneVals (s : State) (w : LaneW) (u : State) (lat : Nat) (f : Nat → W32) : State := s.laneGives w u lat (destWrites w.vd (s.act w) f) []

/-- One truth value for each Active lane, written to predicate vd, with its conditions. -/
def State.lanePreds (s : State) (w : LaneW) (u : State) (lat : Nat) (f : Nat → Bool × Conds) : State :=
  s.laneGives w u lat (predWrites w.vd.toNat (s.act w) fun L => (f L).1) ((lanesOf (s.act w)).map fun L => { lane := L, bits := (f L).2 })

/-- The completion flag of a long instruction (R53, R54), and its being named and free to count. -/
def State.laneFlag (s : State) (w : LaneW) : BitVec 4 := if w.fsel = 1 then (s.laneIn w).fB else (s.laneIn w).fA
def State.laneFlagOk (s : State) (w : LaneW) (u : State) : Prop := s.laneFlag w ≠ 15 ∧ u.flagRoom (s.laneFlag w)

/-- A long instruction has issued from u: its flag is counted, and it has joined the operations under way (R54). -/
def State.laneIssues (s : State) (w : LaneW) (u : State) (op : LaneOp) (kind : LongKind) (lat : Nat) (l : LongOp) : State :=
  let t := u.counted (s.laneFlag w)
  s.laneNext w (t.setStrand t.cur (t.me.issue (s.laneIn w) t.curWord t.stepNo w op kind (s.laneFlag w) lat l))

/-- A lane memory instruction with its accesses still to be performed (R194), and the scopes of the release before them and of the acquire after them, by the qualifiers in its word (R192). -/
def accOp (w : LaneW) (a : LaneAcc) : LongOp :=
  let scope (on : Bool) : Option (BitVec 3) := if on then some (BitVec.ofNat 3 (auxScope w)) else none
  { acc := some { a with rel := scope (auxRel w) }, acq := scope (auxAcq w) }

/-- The lane stream of an instruction put in order, with its effect on the stream itself. -/
def State.putCtx (u : State) (win : Bool) (c : LaneCtx) : State := u.setStrand u.cur (u.me.setLaneCtx win c)

/-! ### Stream programs -/

/-- A program is about to take a command (R290, R294): it runs, is not halted, has no access parked, no current command, and is not to be cancelled. -/
def State.progFree (s : State) (n : Nat) : Prop :=
  (s.prog n).running = true ∧ (s.prog n).halted = false ∧ (s.prog n).park = none ∧ (s.prog n).cur = none ∧ (s.prog n).cancel = false

/-- A program with its command's number and place noted (R295), and with a command accepted. -/
def State.progTakes (s : State) (n : Nat) (op : StreamOp) : State := s.modProg n fun p => { p with cmd := op.code, cmdPc := p.pc }
def State.progHas (s : State) (n : Nat) (c : StreamCur) : State := (s.progTakes n c.op).modProg n fun p => { p with cur := some c }

/-- A command that copies nothing has had its effect: the program with f applied goes on (R299). -/
def State.progAfter (s : State) (n : Nat) (op : StreamOp) (f : Prog → Prog) : State :=
  s.modProg n fun p => { f p with cmd := op.code, cmdPc := p.pc, cur := none, waiting := false }


/-- The release of a command at its end (R290, R302). -/
def State.cmdRelease (s : State) (w : StreamW) : State := s.engRelease (w.w0.getLsbD 56) (w.w0.extractLsb' 53 3).toNat

end Sys2Proof.Machine
end

