-- ==== Sys2Proof/Certificates/Slice0/Obligations.lean ====
section
/-! DEFINITION. The statements about the model. -/

open Sys2Proof Sys2Proof.Machine

/-- R110: the two-source instructions that raise no condition. R110, R28: the divisions, with the cases of a zero divisor and of INT_MIN ÷ −1: the result, the sticky condition, and the trap after completion when it is enabled. R110: the one-source instructions: number of 1 bits, leading zeros, trailing zeros (64 for 0). R51, R110: the words of the SR-ALU instructions, on registers that may be named. -/
def Obligations.ArithmeticResults : Prop :=
  (∀ (s s' : State) (d a b : BitVec 6) (x y : W64),
      s.isRes s.cur = true → s.source2 a b = some (x, y, s') → s'.takes d = true →
      let gives := fun (i : Instr) (v : W64) => exec i s = .next ((s'.dest d v).endScalar (s.me.pc + 4))
      gives (.add d a b) (x + y) ∧ gives (.sub d a b) (x - y) ∧ gives (.mul d a b) (x * y)
      ∧ gives (.mulh d a b) ((x.signExtend 128 * y.signExtend 128).extractLsb' 64 64)
      ∧ gives (.mulhn d a b) ((x.setWidth 128 * y.setWidth 128).extractLsb' 64 64)
      ∧ gives (.and d a b) (x &&& y) ∧ gives (.or d a b) (x ||| y) ∧ gives (.xor d a b) (x ^^^ y) ∧ gives (.andn d a b) (x &&& ~~~y)
      ∧ gives (.shl d a b) (x <<< (y.extractLsb' 0 6).toNat) ∧ gives (.shr d a b) (x >>> (y.extractLsb' 0 6).toNat)
      ∧ gives (.sar d a b) (x.sshiftRight (y.extractLsb' 0 6).toNat)
      ∧ gives (.min d a b) (if x.toInt < y.toInt then x else y) ∧ gives (.max d a b) (if y.toInt < x.toInt then x else y)
      ∧ gives (.minn d a b) (if x.toNat < y.toNat then x else y) ∧ gives (.maxn d a b) (if y.toNat < x.toNat then x else y)
      ∧ gives (.slt d a b) (if x.toInt < y.toInt then 1 else 0) ∧ gives (.sltn d a b) (if x.toNat < y.toNat then 1 else 0)
      ∧ gives (.seq d a b) (if x = y then 1 else 0))
  ∧ (∀ (s s' : State) (d a b : BitVec 6) (x y : W64),
      s.isRes s.cur = true → s.source2 a b = some (x, y, s') → s'.takes d = true →
      let gives := fun (i : Instr) (v : W64) (c : Conds) =>
        exec i s = .next (((s'.dest d v).sticky c).endWith c s.me.pc (s.me.pc + 4))
      let least : W64 := BitVec.intMin 64
      (y = 0 →
        gives (.div d a b) (if 0 ≤ x.toInt then BitVec.intMax 64 else least) cIDZ ∧ gives (.rem d a b) x cIDZ
        ∧ gives (.divn d a b) (BitVec.allOnes 64) cIDZ ∧ gives (.remn d a b) x cIDZ)
      ∧ (y ≠ 0 →
        gives (.divn d a b) (x / y) 0 ∧ gives (.remn d a b) (x % y) 0
        ∧ (if x = least ∧ y = -1 then gives (.div d a b) least cIOV ∧ gives (.rem d a b) 0 cIOV
           else gives (.div d a b) (x.sdiv y) 0 ∧ gives (.rem d a b) (x.srem y) 0)))
  ∧ (∀ (s s' : State) (d a : BitVec 6) (x : W64),
      s.isRes s.cur = true → s.source a = some (x, s') → s'.takes d = true →
      let gives := fun (i : Instr) (n : Nat) => exec i s = .next ((s'.dest d (BitVec.ofNat 64 n)).endScalar (s.me.pc + 4))
      gives (.popc d a) ((List.range 64).countP fun i => x.getLsbD i)
      ∧ (∃ n ≤ 64, gives (.clz d a) n ∧ (∀ i, 64 - n ≤ i → x.getLsbD i = false) ∧ (n < 64 → x.getLsbD (63 - n) = true))
      ∧ (∃ n ≤ 64, gives (.ctz d a) n ∧ (∀ i, i < n → x.getLsbD i = false) ∧ (n < 64 → x.getLsbD n = true)))
  ∧ (∀ d a b : BitVec 6, regOk d = true → regOk a = true → regOk b = true →
      (∀ (fn : BitVec 8) (i : Instr), (fn, i) ∈ [(0x00, Instr.add d a b), (0x01, .sub d a b), (0x02, .mul d a b), (0x03, .mulh d a b), (0x04, .mulhn d a b), (0x05, .div d a b), (0x06, .divn d a b),
          (0x07, .rem d a b), (0x08, .remn d a b), (0x10, .and d a b), (0x11, .or d a b), (0x12, .xor d a b), (0x13, .andn d a b), (0x18, .shl d a b), (0x19,
          .shr d a b), (0x1A, .sar d a b), (0x20, .min d a b), (0x21, .max d a b), (0x22, .minn d a b), (0x23, .maxn d a b), (0x28, .slt d a b), (0x29, .sltn d
          a b), (0x2A, .seq d a b)] →
        decodeScalar (0x00#6 ++ d ++ a ++ b ++ fn) = .ok i)
      ∧ decodeScalar (0x00#6 ++ d ++ a ++ 0#6 ++ 0x30#8) = .ok (.popc d a) ∧ decodeScalar (0x00#6 ++ d ++ a ++ 0#6 ++ 0x31#8) = .ok (.clz d a)
      ∧ decodeScalar (0x00#6 ++ d ++ a ++ 0#6 ++ 0x32#8) = .ok (.ctz d a))

/-- R111: the immediate forms and LIH; kind 3 and a non-zero [11:6] of SHIFTI are no instruction. -/
def Obligations.ImmediateResults : Prop :=
  (∀ (s s' : State) (d a n : BitVec 6) (i : BitVec 14) (x : W64),
    s.isRes s.cur = true → s.source a = some (x, s') → s'.takes d = true →
    let gives := fun (j : Instr) (v : W64) => exec j s = .next ((s'.dest d v).endScalar (s.me.pc + 4))
    gives (.addi d a i) (x + i.signExtend 64) ∧ gives (.andi d a i) (x &&& i.setWidth 64)
    ∧ gives (.ori d a i) (x ||| i.setWidth 64) ∧ gives (.xori d a i) (x ^^^ i.setWidth 64)
    ∧ gives (.slti d a i) (if x.toInt < i.toInt then 1 else 0)
    ∧ gives (.shli d a n) (x <<< n.toNat) ∧ gives (.shri d a n) (x >>> n.toNat) ∧ gives (.sari d a n) (x.sshiftRight n.toNat))
  ∧ (∀ (s : State) (d : BitVec 6) (i : BitVec 20), s.isRes s.cur = true → s.takes d = true →
      exec (.lih d i) s = .next ((s.dest d (i.signExtend 64 <<< 12)).endScalar (s.me.pc + 4)))
  ∧ (∀ w : W32, w.extractLsb' 26 6 = 0x06 → w.extractLsb' 12 2 = 3 ∨ w.extractLsb' 6 6 ≠ 0 →
      (∃ e, decodeScalar w = .error e)
      ∧ ∀ (s t : State) (sid : Nat), s.mayIssue sid = true → (s.strand sid).parkS = none → (s.strand sid).awaitsService = false →
          ({ s.modStrand sid (fun st => st.landTo (s.cycles (coreOf sid) - 1)) with
            cur := sid, curB := false, curWin := false, ev := { flag := false } } : State).fetchScalar sid = .got w t →
          t.cur = sid → t.ev.flag = false → t.isRes sid = true →
          let u : State := { t with curWord := w.setWidth 96 }
          stepScalar sid s = .next (u.takeTrap sid { code := 0x01, sfault := true, epc := some (u.strand sid).pc, sword := w }))
  ∧ (∀ d a n : BitVec 6, regOk d = true → regOk a = true →
      (∀ i : BitVec 14, decodeScalar (0x01#6 ++ d ++ a ++ i) = .ok (.addi d a i) ∧ decodeScalar (0x02#6 ++ d ++ a ++ i) = .ok (.andi d a i)
        ∧ decodeScalar (0x03#6 ++ d ++ a ++ i) = .ok (.ori d a i) ∧ decodeScalar (0x04#6 ++ d ++ a ++ i) = .ok (.xori d a i)
        ∧ decodeScalar (0x05#6 ++ d ++ a ++ i) = .ok (.slti d a i))
      ∧ decodeScalar (0x06#6 ++ d ++ a ++ 0#2 ++ 0#6 ++ n) = .ok (.shli d a n) ∧ decodeScalar (0x06#6 ++ d ++ a ++ 1#2 ++ 0#6 ++ n) = .ok (.shri d a n)
      ∧ decodeScalar (0x06#6 ++ d ++ a ++ 2#2 ++ 0#6 ++ n) = .ok (.sari d a n)
      ∧ (∀ i : BitVec 20, decodeScalar (0x07#6 ++ d ++ i) = .ok (.lih d i)))

/-- R106, R107, R112, R119, R122, R124: LEA, SEGRD, CSRR and QSTAT write what they read of the strand; BASE of O and of X is the offset within the store's set of offsets. R106, R107, R122: CSRW, CSRS and CSRC change the named register; a non-zero reserved bit of the new value traps and changes nothing. Where a clause rests on a choice of the model and not on a rule of the spec, the choice is that of log entries 12 and 66. -/
def Obligations.StrandRegisters : Prop :=
  (∀ (s : State) (d : BitVec 6), s.isRes s.cur = true →
      let t := s.teamOf s.cur
      let base : Nat → W64 := fun g =>
        if g = 4 ∨ g = 5 then BitVec.ofNat 64 ((s.me.segs.get g).base.toNat % 2 ^ 26) else (s.me.segs.get g).base
      (∀ (s' : State) (b : BitVec 6) (g : BitVec 3) (z : BitVec 2) (o : BitVec 8) (x : W64),
        s.source b = some (x, s') → s'.takes d = true →
        exec (.lea d b g z o) s = .next ((s'.dest d (base g.toNat + x + (o.setWidth 64 <<< z.toNat))).endScalar (s.me.pc + 4)))
      ∧ (s.takes d = true →
        let gives := fun (i : Instr) (v : W64) => exec i s = .next ((s.dest d v).endScalar (s.me.pc + 4))
        (∀ g, gives (.segrdBase d g) (base g.toNat) ∧ gives (.segrdLen d g) (s.me.segs.get g.toNat).len)
        ∧ (∀ (c : BitVec 12) (v : W64), (c, v) ∈
            [(0x000, (64 : W64)), (0x001, BitVec.ofNat 64 (s.cur % 4096)), (0x002, BitVec.ofNat 64 t.id), (0x003, BitVec.ofNat 64 t.x), (0x004, BitVec.ofNat 64 t.y),
             (0x005, BitVec.ofNat 64 t.z), (0x006, BitVec.ofNat 64 s.me.role), (0x007, BitVec.ofNat 64 s.me.roleIdx), (0x008, BitVec.ofNat 64 (s.cur / 4096)),
             (0x009, BitVec.ofNat 64 (s.cur / 4096 / 8)),
             (0x00A, BitVec.ofNat 64 (((List.range 8).countP fun i => s.live.getLsbD i) * 256 + s.live.toNat)),
             (0x00B, (s.ctx t.ctx).touched.setWidth 64), (0x00C, BitVec.ofNat 64 t.ctx), (0x00D, BitVec.ofNat 64 s.me.budget),
             (0x010, BitVec.ofNat 64 (s.cycles (s.cur / 4096))), (0x011, BitVec.ofNat 64 (s.ticks (s.cur / 4096 / 8))),
             (0x020, s.me.csr.tvec), (0x021, s.me.csr.tcause), (0x022, s.me.csr.tepc), (0x023, s.me.csr.tlpc), (0x024, s.me.csr.tmask),
             (0x025, s.me.segs.p.base + s.me.segs.p.len * 64 - 256), (0x026, s.me.csr.trapen), (0x027, s.me.csr.sflags),
             (0x028, if s.me.csr.ih then 1 else 0), (0x029, s.me.csr.tsave0), (0x02A, s.me.csr.tsave1)] → gives (.csrr d c) v)
        ∧ ((∀ i < 8, (s.me.queue i).length < 16) → s.me.lane.dq.length < 32 →
            ∃ v : W64, gives (.qstat d 0) v ∧ (∀ i < 8, (v.extractLsb' (4 * i) 4).toNat = (s.me.queue i).length)
              ∧ (v.extractLsb' 32 5).toNat = s.me.lane.dq.length ∧ v.getLsbD 40 = s.me.lane.busy ∧ v.extractLsb' 37 3 = 0 ∧ v.extractLsb' 41 23 = 0)
        ∧ (∃ v : W64, gives (.qstat d 1) v ∧ (∀ i < 12, v.getLsbD i = decide (s.me.flag i = 0)) ∧ v.extractLsb' 12 52 = 0)
        ∧ (∃ v : W64, gives (.qstat d 2) v ∧ (∀ i < 12, v.getLsbD i = decide (s.me.csr.ih = false ∨ mget s.me.savedFlags i 0 = 0)) ∧ v.extractLsb' 12 52 = 0)))
  ∧ (∀ (s s' : State) (a : BitVec 6) (c : BitVec 12) (x : W64), s.isRes s.cur = true → s.source a = some (x, s') →
      let old := s.csr s.cur c.toNat
      let does := fun (i : Instr) (v : W64) =>
        if v &&& csrReserved c.toNat = 0 then
          exec i s = .next ((s'.setStrand s'.cur { s'.me with csr := s'.me.csr.put c.toNat v }).endScalar (s.me.pc + 4))
        else exec i s = .next (s.trapScalar { code := 0x05 })
      does (.csrw a c) x ∧ does (.csrs a c) (old ||| x) ∧ does (.csrc a c) (old &&& ~~~x))

/-- R116, R48: control transfers. -/
def Obligations.ControlTransfers : Prop :=
  ∀ s : State, s.isRes s.cur = true →
    (∀ (s' : State) (a b : BitVec 6) (o : BitVec 11) (x y : W64), s.source2 a b = some (x, y, s') →
      let goes := fun (c : BitVec 3) (p : Prop) [Decidable p] =>
        exec (.bcc a b c o) s = .next (s'.endScalar (if p then s.me.pc + o.signExtend 64 * 4 else s.me.pc + 4))
      goes 0 (x = y) ∧ goes 1 (x ≠ y) ∧ goes 2 (x.toInt < y.toInt) ∧ goes 3 (y.toInt ≤ x.toInt)
      ∧ goes 4 (x.toNat < y.toNat) ∧ goes 5 (y.toNat ≤ x.toNat))
    ∧ (∀ o, exec (.j o) s = .next (s.endScalar (s.me.pc + o.signExtend 64 * 4)))
    ∧ (∀ o, s.takes 63 = true → exec (.jal o) s = .next ((s.dest 63 (s.me.pc + 4)).endScalar (s.me.pc + o.signExtend 64 * 4)))
    ∧ (∀ (s' : State) (a : BitVec 6) (x : W64), s.source a = some (x, s') →
      exec (.jr a) s = .next (s'.endScalar x)
      ∧ (∀ d, s'.takes d = true → exec (.jalr d a) s = .next ((s'.dest d (s.me.pc + 4)).endScalar x))
      ∧ (∀ o, s'.takes a = true →
        exec (.loop a o) s
          = .next ((s'.dest a (x - 1)).endScalar (if x = 1 then s.me.pc + 4 else s.me.pc + o.signExtend 64 * 4))))

/-- R64, R76, R78, R80, R83, R86, R87, R113, R131, R252, R309: where a scalar access of n bytes goes, and the faults of its limit, its alignment, a store into C, a FREE line, an arrival barrier, its translation, its permission and the host link. R108, R113, R247, R261: a load. The value arrives with its reply; an expired line's condition is sticky, and traps when enabled. Where a clause rests on a choice of the model and not on a rule of the spec, the choice is that of log entries 27 and 58. -/
def Obligations.ScalarLoads : Prop :=
  (∀ (s : State) (seg o n kind : Nat), seg < 8 → n ∈ [1, 2, 4, 8] → kind < 3 →
      let d := s.me.segs.get seg
      let len := if seg = 1 then d.len.toNat * 64 else d.len.toNat
      let fa : W64 := if seg = 4 ∨ seg = 5 then BitVec.ofNat 64 o else if seg ≤ 3 then d.base + BitVec.ofNat 64 o else 0
      let need : Need := if kind = 0 then { r := true } else if kind = 1 then { w := true } else { r := true, w := true }
      let die := dieOf (coreOf s.cur)
      let ctx := s.ctxOf s.cur
      let va := (d.base.toNat + o) % 2 ^ 64
      let traps := fun (c : Byte) => scalarPlace seg o n kind s = .error (.trap { code := c, faddr := fa } [])
      if (kind ≠ 0 ∧ seg = 2) ∨ ¬ (o < len ∧ o + n ≤ len) ∨ o % n ≠ 0 ∨ (d.base.toNat + o) % n ≠ 0 then traps 0x06
      else if seg = 4 ∨ seg = 5 then
        let off := if seg = 4 then d.base.toNat + o else (s.teamOf s.cur).xOff false o
        if (s.osLine (coreOf s.cur) (off / 256)).free = true then traps 0x06
        else if kind ≠ 0 ∧ s.osMeetsBarrier (coreOf s.cur) off n = true then traps 0x05
        else scalarPlace seg o n kind s = .ok (.os (coreOf s.cur) off, s)
      else if seg = 3 ∧ s.cacheUp = false then traps 0x07
      else match s.xlate (if seg = 3 then 8 else die) ctx va need (if seg = 3 then .host else .mem) with
        | .error x => scalarPlace seg o n kind s = .error (.park (parkOf ctx va (if seg = 3 then 5 else 0) kind x))
        | .ok r =>
          if r.s.allowed ctx r.pa need = false then scalarPlace seg o n kind s = .error (.trap { code := 0x07, faddr := fa } [(r.pa, kind)])
          else scalarPlace seg o n kind s = .ok (.mem r.pa (if seg = 1 then polP else r.pol) (seg == 3), r.s))
  ∧ (∀ (s s1 s2 s3 : State) (t b : BitVec 6) (g : BitVec 3) (z : BitVec 2) (x : BitVec 1) (o : BitVec 8) (base : W64) (p : Place)
      (v : Nat) (c : Conds) (pois : Bool),
      s.isRes s.cur = true → s.source b = some (base, s1) → s1.takes t = true → s.mayAccess →
      let n := 2 ^ z.toNat
      let off := base.toNat + o.toNat * n
      let fa := faddrS (s.me.segs.get g.toNat) g.toNat off
      let val : W64 := if x = 1 then (BitVec.ofNat (8 * n) v).signExtend 64 else BitVec.ofNat 64 v
      scalarPlace g.toNat off n 0 s1 = .ok (p, s2) → readPlace p n s2 = .ok ((v, c, pois), s3) →
      (c &&& s.me.enabled = 0 →
        exec (.ld t b g z x o) s
          = .next (((s3.sticky c).awaitReply { kind := .load, dst := t.toNat, val := val, held := poisonHeld pois fa }).endScalar (s.me.pc + 4)))
      ∧ (c &&& s.me.enabled ≠ 0 →
        exec (.ld t b g z x o) s = .next ((((s3.sticky c).dest t val).holds (poisonHeld pois fa)).endWith c s.me.pc (s.me.pc + 4))))

/-- R95, R113: a store; the first after a FENCE.rel or FENCE.ar at .pkg or .sys is performed at the home slice. R63, R78, R87, R131: what LD, ST, AMOS, AMOS_X and FLUSHS leave when their access finds no place: the trap, with the denials logged, or the parked access, and none of their other effects. Where a clause rests on a choice of the model and not on a rule of the spec, the choice is that of log entries 27 and 60. -/
def Obligations.ScalarStores : Prop :=
  (∀ (s s1 s2 s3 : State) (t b : BitVec 6) (g : BitVec 3) (z : BitVec 2) (o : BitVec 8) (v base : W64) (p : Place),
      s.isRes s.cur = true → s.source2 t b = some (v, base, s1) → s.mayAccess →
      let n := 2 ^ z.toNat
      scalarPlace g.toNat (base.toNat + o.toNat * n) n 1 s1 = .ok (p, s2) →
      writePlace p n (v.toNat % 2 ^ (8 * n)) (decide (∃ sc, s.me.relStore = some sc ∧ 4 ≤ sc.toNat)) s2 = .ok ((), s3) →
      exec (.st t b g z o) s = .next ((s3.setStrand s3.cur { s3.me with relStore := none }).endScalar (s.me.pc + 4)))
  ∧ (∀ (s s1 : State) (t b a : BitVec 6) (g : BitVec 3) (z : BitVec 2) (sx : BitVec 1) (o : BitVec 8) (op : BitVec 4) (ord : BitVec 2) (w : BitVec 1)
      (base v : W64) (e : Stop), s.isRes s.cur = true → s.mayAccess →
      let n := 2 ^ z.toNat
      let m := if w = 1 then 4 else 8
      (s.source b = some (base, s1) → s1.takes t = true → scalarPlace g.toNat (base.toNat + o.toNat * n) n 0 s1 = .error e →
        exec (.ld t b g z sx o) s = .next (s.scalarStop e))
      ∧ (s.source2 t b = some (v, base, s1) → scalarPlace g.toNat (base.toNat + o.toNat * n) n 1 s1 = .error e →
        exec (.st t b g z o) s = .next (s.scalarStop e))
      ∧ (s.source b = some (base, s1) → scalarPlace g.toNat (base.toNat + o.toNat) 1 0 s1 = .error e →
        exec (.flushs b g o) s = .next (s.scalarStop e))
      ∧ (s.source2 a b = some (base, v, s1) → s1.takes t = true → (op = 9 → isPush t.toNat = false) →
        ∀ (i : Instr) (seg : Nat), (i, seg) ∈ [(Instr.amos t a b op ord w 0, 0), (.amos t a b op ord w 1, 4), (.amosX t a b op ord w, 5)] →
          scalarPlace seg base.toNat m 2 s1 = .error e → exec i s = .next (s.scalarStop e)))

/-- R114, R351: an atomic of the scalar stream. The release comes before the operation, the acquire with the old value; the condition of an expired line is sticky, and traps when enabled. R108, R351, R357: the replies of loads and of atomics bring the value, the held causes and, for an AMOS with .acq, its acquire; that of an atomic waits for the sequencer's acknowledgement. R102, R114, R197, R255, R349, R353: the table of atomic operations, of 4 and 8 bytes, with the compare of CAS and the float addition; the codes of ATOM and RED; several operations on a line one after the other, each on what the ones before it have left; what an atomic operation of the scalar stream gives and leaves at its place; an operation at a bank unit. Where a clause rests on a choice of the model and not on a rule of the spec, the choice is that of log entries 27 and 60. -/
def Obligations.ScalarAtomics : Prop :=
  (∀ (s s1 s2 s4 : State) (d a b : BitVec 6) (op : BitVec 4) (ord : BitVec 2) (w : BitVec 1) (off v : W64) (p : Place)
      (old : Nat) (c : Conds) (pois : Bool),
      s.isRes s.cur = true → s.source2 a b = some (off, v, s1) → s1.takes d = true → (op = 9 → isPush d.toNat = false) → s.mayAccess →
      let n := if w = 1 then 4 else 8
      ∀ (i : Instr) (seg scope : Nat), (i, seg, scope) ∈ [(Instr.amos d a b op ord w 0, 0, 4), (.amos d a b op ord w 1, 4, 1), (.amosX d a b op ord w, 5, 2)] →
      scalarPlace seg off.toNat n 2 s1 = .ok (p, s2) →
      let s3 := if ord.getLsbD 1 then s2.releases scope else s2
      (ord.getLsbD 1 = true → s3.released s3.cur scope = true) →
      scalarAtomic p op.toNat n v (s1.me.reg d.toNat) s3 = .ok ((old, c, pois), s4) →
      let held := poisonHeld pois (faddrS (s.me.segs.get seg) seg off.toNat)
      (c &&& s.me.enabled = 0 →
        exec i s = .next (((s4.sticky c).awaitReply
          { kind := .atomic, dst := d.toNat, val := BitVec.ofNat 64 old, held := held
            acq := if ord.getLsbD 0 then some (BitVec.ofNat 3 scope) else none }).endScalar (s.me.pc + 4)))
      ∧ (c &&& s.me.enabled ≠ 0 →
        let u := ((s4.sticky c).dest d (BitVec.ofNat 64 old)).holds held
        exec i s = .next ((if ord.getLsbD 0 then u.acquires scope else u).endWith c s.me.pc (s.me.pc + 4))))
  ∧ (∀ (s : State) (r : Reply), (s.strand s.ev.who).replies[s.ev.idx]? = some r →
      let s1 := s.modStrand s.ev.who fun st =>
        { st.put r.dst r.val with replies := st.replies.eraseIdx s.ev.idx, held := st.held ++ r.held }
      let due := s.updates.any fun u => u.who == some (s.strand s.ev.who).member
      (r.kind = .load → exec .scalarLoadReply s = .next s1)
      ∧ (r.kind = .atomic → due = true → exec .amosReply s = .next s)
      ∧ (r.kind = .atomic → due = false → r.acq = none → exec .amosReply s = .next s1)
      ∧ (∀ sc, r.kind = .atomic → due = false → r.acq = some sc →
          exec .amosReply s = .next (s1.acquireAt (dieOf (coreOf s.ev.who)) (s.ctxOf s.ev.who) sc.toNat)))
  ∧ ((∀ w : Nat, w = 4 ∨ w = 8 →
      (∀ x y c : BitVec (8 * w),
        let f := fun op => atomicOp op w x.toNat y.toNat c.toNat
        f 0 = (x + y).toNat ∧ f 1 = (x &&& y).toNat ∧ f 2 = (x ||| y).toNat ∧ f 3 = (x ^^^ y).toNat
        ∧ f 4 = (if x.slt y = true then x else y).toNat ∧ f 5 = (if x.slt y = true then y else x).toNat
        ∧ f 6 = (if x.ult y = true then x else y).toNat ∧ f 7 = (if x.ult y = true then y else x).toNat
        ∧ f 8 = y.toNat ∧ f 9 = (if x = c then y else x).toNat)
      ∧ (∀ op old b c : Nat, op < 10 → atomicOp op w old b c = atomicOp op w old (b % 2 ^ (8 * w)) (c % 2 ^ (8 * w)))
      ∧ (∀ (fadd : Nat → Nat → Nat) (op : Nat) (d : BitVec 1024) (o : SliceOp) (os : List SliceOp), o.off + w ≤ 128 →
        let old := lineNat d o.off w
        let new := if op = 10 then fadd old o.val.toNat else atomicOp op w old o.val.toNat o.cmp.toNat
        atomicLine fadd op w d [] = (d, [])
        ∧ ∃ d1, (∀ i < 128, lineByte d1 i = if o.off ≤ i ∧ i < o.off + w then BitVec.ofNat 8 (new / 2 ^ (8 * (i - o.off))) else lineByte d i)
          ∧ atomicLine fadd op w d (o :: os) = ((atomicLine fadd op w d1 os).1, BitVec.ofNat 64 old :: (atomicLine fadd op w d1 os).2))
      ∧ (∀ (s : State) (op pa pol : Nat) (host : Bool) (v cmp : W64), s.memOk → op < 10 → pa % 128 + w ≤ 128 → s.isRes s.cur = true →
        let u := if pol = polREPL then s else s.dcFlush (dieOf (coreOf s.cur)) (pa / 128)
        let old := memNat u.hbm pa w
        (pol = polREPL → 256 ≤ s.updates.length → scalarAtomic (.mem pa pol host) op w v cmp s = .error (.wait none))
        ∧ ((pol = polREPL → s.updates.length < 256) →
          (u.poisoned (pa / 128) = true → scalarAtomic (.mem pa pol host) op w v cmp s = .ok ((0, 0, true), u))
          ∧ (u.poisoned (pa / 128) = false → ∃ t, scalarAtomic (.mem pa pol host) op w v cmp s = .ok ((old, 0, false), t)
            ∧ (∀ a, memByte t.hbm a = if pa ≤ a ∧ a < pa + w then BitVec.ofNat 8 (atomicOp op w old v.toNat cmp.toNat / 2 ^ (8 * (a - pa))) else memByte u.hbm a)
            ∧ t.tag (pa / 128) = u.tag (pa / 128) + 1 ∧ t.strands = s.strands ∧ t.os = s.os)))
      ∧ (∀ (s : State) (op core off : Nat) (v cmp : W64), op < 10 →
        let r := s.osRead core off w
        scalarAtomic (.os core off) op w v cmp s = .ok (r, s.osWrite core off (leBytes w (atomicOp op w r.1 v.toNat cmp.toNat)))
        ∧ (w = 4 → s.osAtomic core off op v cmp = (s.osWrite core off (leBytes 4 (atomicOp op 4 r.1 v.toNat cmp.toNat)), r))
        ∧ (w = 4 → s.osAtomic core off 10 v cmp = (s.osWrite core off (leBytes 4 (fadd32 r.1 v.toNat)), r))))
    ∧ (∀ x y : Nat, fadd32 x y = (encodeF f32 0 false false (addF 0 (decodeF f32 x) (decodeF f32 y)).1).1)
    ∧ (∀ w : LaneW,
      (w.md.toNat < 4 → atomCode w = w.md.toNat) ∧ (w.md = 4 → atomCode w = if w.ty = 5 then 4 else 6) ∧ (w.md = 5 → atomCode w = if w.ty = 5 then 5 else 7)
      ∧ (w.md = 6 → atomCode w = 8) ∧ (w.md = 7 → atomCode w = 9) ∧ (w.md = 8 → atomCode w = 10)))

/-- R115: FLUSHS writes the line back and invalidates it; an uncached line, a line of host memory and a place that is no memory are left alone. R93, R95, R99 to R101, R120, R132: FWAIT and the fences: what each waits for, and what it performs. Where a clause rests on a choice of the model and not on a rule of the spec, the choice is that of log entry 10. -/
def Obligations.FlushFencesAndFlagWaits : Prop :=
  (∀ (s s1 s2 : State) (b : BitVec 6) (g : BitVec 3) (o : BitVec 8) (base : W64) (p : Place),
      s.isRes s.cur = true → s.source b = some (base, s1) → s.mayAccess →
      scalarPlace g.toNat (base.toNat + o.toNat) 1 0 s1 = .ok (p, s2) →
      exec (.flushs b g o) s
        = .next (match p with
            | .mem pa pol false =>
              let die := dieOf (coreOf s.cur)
              let ln := pa / 128
              if pol = polNC then s2.endScalar (s.me.pc + 4)
              else if pol ≠ polREPL then (s2.dcFlush die ln).endScalar (s.me.pc + 4)
              else if ∃ u ∈ s2.updates, u.line = ln ∧ u.sharers.getLsbD die = true then s.waitScalar none
              else (s2.repDrop die ln).endScalar (s.me.pc + 4)
            | _ => s2.endScalar (s.me.pc + 4)))
  ∧ (∀ s : State, s.isRes s.cur = true →
      (∀ f : BitVec 4, s.me.flag f.toNat ≠ 0 → exec (.fwait f) s = .next (s.waitScalar none))
      ∧ (∀ f : BitVec 4, s.me.flag f.toNat = 0 →
          exec (.fwait f) s = .next ((if s.me.pkgFlags.contains f.toNat then
              let t := s.acquires 4
              t.setStrand t.cur { t.me with pkgFlags := t.me.pkgFlags.filter (· != f.toNat) }
            else s).endScalar (s.me.pc + 4)))
      ∧ (∀ sc : BitVec 3,
        let wide : State → State := fun t => t.setStrand t.cur { t.me with
          relStore := some (match t.me.relStore with
            | none => sc
            | some o => if o.toNat < sc.toNat then sc else o) }
        let t := s.releases sc.toNat
        let atomics := s.me.replies.any (fun r => r.kind == .atomic) = true ∨ ∃ l ∈ s.me.longs, l.op = .atom ∨ l.op = .red
        (exec (.fenceAcq sc) s = .next (if s.me.replies.any (fun r => r.kind == .load || r.kind == .atomic) then s.waitScalar none
          else (s.acquires sc.toNat).endScalar (s.me.pc + 4)))
        ∧ (exec (.fenceRel sc) s = .next (
            if atomics ∨ t.released s.cur sc.toNat = false then s.waitScalar none
            else (wide t).endScalar (s.me.pc + 4)))
        ∧ (exec (.fenceAr sc) s = .next (
            if atomics ∨ s.me.replies.any (fun r => r.kind == .load) = true ∨ t.released s.cur sc.toNat = false then s.waitScalar none
            else (wide (t.acquires sc.toNat)).endScalar (s.me.pc + 4))))
      ∧ (let c := s.me.laneCtx s.me.csr.ih
         exec .fenceW s = .next (
           if c.busy = true ∨ c.dq ≠ [] then s.waitScalar (some { port := 9, need := 1 })
           else if ∃ l ∈ s.me.longs, l.kind = .mem ∨ l.kind = .rank then s.waitScalar none
           else s.endScalar (s.me.pc + 4))))

/-- R46, R64, R118, R145, R200, R261: VGET and VSET of ordinary lane registers, of zero, laneid, lstat, and of predicates; a poisoned word; a register that may not be named; a lane that does not exist; the wait for an idle lane stream outside a handler. Where a clause rests on a choice of the model and not on a rule of the spec, the choice is that of log entry 17. -/
def Obligations.LaneRegisterAccess : Prop :=
  ∀ (s s1 s2 : State) (d a : BitVec 6) (x v : W64), s.isRes s.cur = true →
    let inRange := fun (n : BitVec 10) => n.toNat < s.me.budget ∨ 960 ≤ n.toNat
    let waits : Out := .next (s.waitScalar (if s.me.blocksRun then some { port := 9, need := 1 } else none))
    (∀ n : BitVec 10, ¬ inRange n → exec (.vgetV d a n) s = .next (s.trapScalar { code := 0x03 }) ∧ exec (.vsetV d a n) s = .next (s.trapScalar { code := 0x03 }))
    ∧ (s.source a = some (x, s1) → s.takes d = true →
      (∀ n : BitVec 10, inRange n → 960 ≤ n.toNat → n.toNat ≤ 967 → exec (.vgetV d a n) s = .next (s.trapScalar { code := 0x05 }))
      ∧ (64 ≤ x.toNat → (∀ n : BitVec 10, inRange n → (n.toNat < 960 ∨ 967 < n.toNat) → exec (.vgetV d a n) s = .next (s.trapScalar { code := 0x05 }))
          ∧ ∀ n, exec (.vgetK d a n) s = .next (s.trapScalar { code := 0x05 }))
      ∧ (x.toNat < 64 → s.me.csr.ih = false → s.me.laneIdle = false →
          (∀ n, exec (.vgetK d a n) s = waits)
          ∧ ∀ n : BitVec 10, inRange n → (n.toNat < 960 ∨ 967 < n.toNat) → exec (.vgetV d a n) s = waits)
      ∧ (x.toNat < 64 → s.laneQuiet → s1.laneSeen.takes d = true →
        let t := s1.laneSeen
        (∀ n : BitVec 10, n.toNat < s.me.budget → n.toNat < 960 →
          exec (.vgetV d a n) s = .next ((
            if t.me.vpois.contains (vKey n.toNat x.toNat) then
              (t.holds [{ code := 0x0D, tmask := BitVec.ofNat 64 (2 ^ x.toNat) }]).dest d 0
            else t.dest d ((mget t.me.v (vKey n.toNat x.toNat) 0).setWidth 64)).endScalar (s.me.pc + 4)))
        ∧ exec (.vgetV d a 968) s = .next ((t.dest d x).endScalar (s.me.pc + 4))
        ∧ exec (.vgetV d a 969) s = .next ((t.dest d 0).endScalar (s.me.pc + 4))
        ∧ exec (.vgetV d a 970) s = .next ((t.dest d ((mget t.me.v (lstatKey x.toNat) 0).setWidth 64)).endScalar (s.me.pc + 4))
        ∧ (∀ n : BitVec 3, exec (.vgetK d a n) s
            = .next ((t.dest d (if t.me.pred n.toNat x.toNat then 1 else 0)).endScalar (s.me.pc + 4)))))
    ∧ (s.source2 d a = some (v, x, s2) →
      (∀ n : BitVec 10, inRange n → 960 ≤ n.toNat → n.toNat ≤ 968 → exec (.vsetV d a n) s = .next (s.trapScalar { code := 0x05 }))
      ∧ (64 ≤ x.toNat → (∀ n : BitVec 10, inRange n → (n.toNat < 960 ∨ 968 < n.toNat) → exec (.vsetV d a n) s = .next (s.trapScalar { code := 0x05 }))
          ∧ ∀ n, exec (.vsetK d a n) s = .next (s.trapScalar { code := 0x05 }))
      ∧ (x.toNat < 64 → s.me.csr.ih = false → s.me.laneIdle = false →
          (∀ n, exec (.vsetK d a n) s = waits)
          ∧ ∀ n : BitVec 10, inRange n → (n.toNat < 960 ∨ 968 < n.toNat) → exec (.vsetV d a n) s = waits)
      ∧ (x.toNat < 64 → s.laneQuiet →
        let puts := fun (k : Nat) (y : W32) => (s2.setStrand s2.cur (s2.landedNow (s2.me.putLane k y))).endScalar (s.me.pc + 4)
        (∀ n : BitVec 10, n.toNat < s.me.budget → n.toNat < 960 → exec (.vsetV d a n) s = .next (puts (vKey n.toNat x.toNat) (v.setWidth 32)))
        ∧ exec (.vsetV d a 969) s = .next (s2.laneSeen.endScalar (s.me.pc + 4))
        ∧ exec (.vsetV d a 970) s = .next (puts (lstatKey x.toNat) (v.setWidth 32 &&& 0x00FF07FF))
        ∧ (∀ n : BitVec 3, exec (.vsetK d a n) s = .next (if n = 0 then s2.laneSeen.endScalar (s.me.pc + 4)
            else puts (kKey n.toNat x.toNat) (if v.getLsbD 0 then 1 else 0)))))

/-- R222, R223, R237: BARA arrives, BARW waits for the phase of the arrival and acquires, BAR does both; a strand that is no member traps with CODE 0x09. A strand that has arrived waits for the phase, and goes on when the barrier is broken. R235: a non-preemptible region begins and ends; a second entry and an exit outside one trap with CODE 0x05. Where a clause rests on a choice of the model and not on a rule of the spec, the choice is that of log entry 55. -/
def Obligations.BarriersAndRegions : Prop :=
  (∀ (s : State) (l : BitVec 2) (n : BitVec 4), s.isRes s.cur = true →
      (s.isMember l n = false →
        exec (.bara l n) s = .next (s.trapScalar { code := 0x09 }) ∧ exec (.barw l n) s = .next (s.trapScalar { code := 0x09 })
        ∧ exec (.bar l n) s = .next (s.trapScalar { code := 0x09 }))
      ∧ (s.isMember l n = true →
        let here := (s.myBar l n).arrived.contains s.me.member
        (exec (.barw l n) s
          = .next (if s.phasePassed l n then (s.acquires (barScope l.toNat)).endScalar (s.me.pc + 4) else s.waitScalar none))
        ∧ (s.me.barAt = some s.me.pc →
          exec (.bar l n) s = .next (if s.phasePassed l n then
              let t := s.acquires (barScope l.toNat)
              (t.setStrand t.cur { t.me with barAt := none }).endScalar (s.me.pc + 4)
            else s.waitScalar none))
        ∧ ((here = true ∧ (s.myBar l n).broken = false ∨ here = false ∧ ¬ s.freeRelease (barScope l.toNat)) →
          exec (.bara l n) s = .next (s.waitScalar none) ∧ (s.me.barAt ≠ some s.me.pc → exec (.bar l n) s = .next (s.waitScalar none)))
        ∧ (∀ t, (here = true ∧ (s.myBar l n).broken = true ∧ t = s ∨ here = false ∧ s.freeRelease (barScope l.toNat) ∧ t = s.arrives l n) →
          exec (.bara l n) s = .next (t.endScalar (s.me.pc + 4))
          ∧ (s.me.barAt ≠ some s.me.pc →
            let u := t.setStrand t.cur { t.me with barAt := some s.me.pc }
            exec (.bar l n) s = .next (if u.phasePassed l n then
                let v := u.acquires (barScope l.toNat)
                (v.setStrand v.cur { v.me with barAt := none }).endScalar (s.me.pc + 4)
              else u.endScalar s.me.pc)))))
  ∧ (∀ s : State, s.isRes s.cur = true →
      let sets := fun (v : Option Nat) => (s.setStrand s.cur { s.me with npr := v }).endScalar (s.me.pc + 4)
      (s.me.npr = none →
        exec .nprEnter s = .next (sets (some (s.ticks (dieOf (coreOf s.cur))))) ∧ exec .nprExit s = .next (s.trapScalar { code := 0x05 }))
      ∧ (∀ t, s.me.npr = some t → exec .nprExit s = .next (sets none) ∧ exec .nprEnter s = .next (s.trapScalar { code := 0x05 })))

/-- R250 to R253: OSALLOC, OSFREE and OSQUERY on lines of the team segment: what they write, the segment fault of a range that is not whole lines within the limit, the illegal-operand trap of a range that holds an arrival barrier, and the fields of OSQUERY's word. -/
def Obligations.OperandStoreLines : Prop :=
  ∀ (s s1 s2 : State) (d a b : BitVec 6) (o n : W64), s.isRes s.cur = true →
    let core := coreOf s.cur
    let first := (s.me.segs.o.base.toNat + o.toNat) / 256
    let cnt := n.toNat / 256
    let scrub := fun (l : OsLine) => (List.range cnt).foldl (fun t i => t.setOsLine core (first + i) l) (s2.osScrub core (first * 256) (cnt * 256))
    (s.source2 a b = some (o, n, s2) → s.linesOk o.toNat n.toNat →
      (∀ c : BitVec 4, s2.takes d = true →
        exec (.osalloc d a b c) s
          = .next (((scrub { cls := c.toNat, written := s.ticks (dieOf core) }).dest d (BitVec.ofNat 64 cnt)).endScalar (s.me.pc + 4)))
      ∧ exec (.osfree a b) s = .next ((scrub { free := true }).endScalar (s.me.pc + 4)))
    ∧ (s.source2 a b = some (o, n, s2) →
      let whole : Prop := o.toNat % 256 = 0 ∧ n.toNat % 256 = 0 ∧ 256 ≤ n.toNat ∧ o.toNat + n.toNat ≤ s.me.segs.o.len.toNat
      let traps := fun (t : Trap) => (∀ c : BitVec 4, s2.takes d = true → exec (.osalloc d a b c) s = .next (s.trapScalar t))
        ∧ exec (.osfree a b) s = .next (s.trapScalar t)
      (¬ whole → traps { code := 0x06, faddr := o })
      ∧ (whole → (∃ i < cnt, (s.osLine core (first + i)).barr ≠ 0) → traps { code := 0x05 }))
    ∧ (s.source a = some (o, s1) → s1.takes d = true →
      (s.me.segs.o.len.toNat ≤ o.toNat → exec (.osquery d a) s = .next (s.trapScalar { code := 0x06, faddr := o }))
      ∧ (s.me.segs.x.len.toNat ≤ o.toNat → exec (.osqueryX d a) s = .next (s.trapScalar { code := 0x06, faddr := o })))
    ∧ (∀ c line : Nat,
      let w := s.lineWord c line
      let l := s.osLine c line
      (l.free = true → w = 0x800000000)
      ∧ (l.free = false → l.cls < 16 →
        w.extractLsb' 40 24 = 0 ∧ (w.extractLsb' 36 4).toNat = l.cls ∧ w.getLsbD 35 = false ∧ w.getLsbD 34 = s.osExpired c l
        ∧ w.getLsbD 33 = (l.barr != 0) ∧ w.getLsbD 32 = (l.poison != 0) ∧ w.extractLsb' 20 12 = 0
        ∧ (c < 64 → (w.extractLsb' 0 20).toNat = min 0xFFFFF ((s.ticks (dieOf c) : Int) - l.written).toNat)))
    ∧ (s.source a = some (o, s1) → s1.takes d = true →
      (o.toNat < s.me.segs.o.len.toNat →
        exec (.osquery d a) s = .next ((s1.dest d (s.lineWord core first)).endScalar (s.me.pc + 4)))
      ∧ (o.toNat < s.me.segs.x.len.toNat →
        exec (.osqueryX d a) s
          = .next ((s1.dest d (s.lineWord core ((s.teamOf s.cur).xOff false o.toNat / 256))).endScalar (s.me.pc + 4))))

/-- R303, R304: ABINIT writes the 32 bytes of a barrier and marks their place. R261: a poisoned word of a barrier reads 0, and what a strand reads of it holds CODE 0x0D, with the barrier's offset in FADDR, once. An instruction that goes on waiting then issues with no other effect. R304, R307, R308: ABFREE of a barrier that nothing names clears it; ABWAIT waits for a phase and acquires at .pkg; ABREL releases at .pkg and counts RLS. R230, R307: PARK and ABWAIT.T on a completed phase, and how they begin to wait and go on waiting: the tick and the phase, or the cycle at which the limit runs out, are noted; ABWAIT.T tells whether the phase was complete when its limit ran out. R261: a poisoned word of a barrier reads 0, and what the strand reads of it holds CODE 0x0D; an instruction that goes on waiting issues with no other effect. Where a clause rests on a choice of the model and not on a rule of the spec, the choice is that of log entry 50. Where a clause rests on a choice of the model and not on a rule of the spec, the choice is that of log entry 50. -/
def Obligations.ArrivalBarriers : Prop :=
  (∀ (s s1 s2 s3 : State) (d a b : BitVec 6) (p o e : W64), s.isRes s.cur = true →
      s.source d = some (p, s1) → s1.source a = some (o, s2) → s2.source b = some (e, s3) →
      let w := (p.extractLsb' 16 4).toNat + 1
      let st := (p.extractLsb' 20 4).toNat + 1
      let p0 := (p.extractLsb' 0 16).toNat
      let core := coreOf s.cur
      let off := s.oOff o.toNat
      p.extractLsb' 24 40 = 0 → 0 < e.toNat → e.toNat < 2 ^ 32 → w ≤ st → s.abFits o.toNat →
      (s.osLine core (off / 256)).cls = 0 → s.hasBarrier core off = false →
      let t := s3.osWrite core off (leBytes 4 e.toNat ++ leBytes 4 0 ++ leBytes 2 p0 ++ leBytes 2 p0 ++ leBytes 1 w ++ leBytes 1 st ++ leBytes 18 0)
      let l := t.osLine core (off / 256)
      exec (.abinit d a b) s
        = .next ((t.setOsLine core (off / 256) { l with barr := l.barr ||| (1#8 <<< (off % 256 / 32)) }).endScalar (s.me.pc + 4)))
  ∧ (∀ (s : State) (core off : Nat) (o : W64), off % 4 = 0 →
      let pois := (s.osLine core ((off + 8) / 256)).poison.getLsbD ((off + 8) / 4 % 64) = true
      (pois → s.abField core off 8 2 = 0 ∧ s.abField core off 10 2 = 0)
      ∧ s.abHeld core off o
          = if pois ∧ ({ code := 0x0D, faddr := o } : Held) ∉ s.me.held then [{ code := 0x0D, faddr := o }] else [])
  ∧ (∀ (s s1 : State) (a : BitVec 6) (o : W64), s.isRes s.cur = true → s.source a = some (o, s1) → s.abStands o.toNat →
      let core := coreOf s.cur
      let off := s.oOff o.toNat
      let h := s.abHeld core off o
      (let t := s1.osWrite core off (leBytes 32 0)
       let l := t.osLine core (off / 256)
       if s.barrierNamed s.me.team (s.team s.me.team) off then exec (.abfree a) s = .next (s.trapScalar { code := 0x05 })
       else exec (.abfree a) s
        = .next ((t.setOsLine core (off / 256) { l with barr := l.barr &&& ~~~(1#8 <<< (off % 256 / 32)) }).endScalar (s.me.pc + 4)))
      ∧ (∀ (s2 : State) (b : BitVec 6) (p : W64), s1.source b = some (p, s2) → p.toNat < 2 ^ 16 →
          exec (.abwait a b) s
            = .next (if s.abDone core off p.toNat then ((s2.holds h).acquires 4).endScalar (s.me.pc + 4)
              else if h = [] then s.waitScalar none else (s.holds h).endScalar s.me.pc))
      ∧ (let rls := s.abField core off 10 2
         (rls = s.abField core off 8 2 → exec (.abrel a) s = .next ((if h = [] then s else s.holds h).trapScalar { code := 0x05 }))
         ∧ (rls ≠ s.abField core off 8 2 → (s1.holds h).freeRelease 4 →
            exec (.abrel a) s = .next ((((s1.holds h).releases 4).abPut core off 10 2 ((rls + 1) % 2 ^ 16)).endScalar (s.me.pc + 4)))
         ∧ (rls ≠ s.abField core off 8 2 → ¬ (s1.holds h).freeRelease 4 → exec (.abrel a) s = .next (s.waitScalar none))))
  ∧ (∀ (s s1 : State) (d a b : BitVec 6) (o p : W64), s.isRes s.cur = true → s.source2 a b = some (o, p, s1) → s.abStands o.toNat →
      let core := coreOf s.cur
      let off := s.oOff o.toNat
      let now := s.cycles core
      let h := s.abHeld core off o
      let u := s.holds h
      (p.toNat < 2 ^ 16 →
        (s.abDone core off p.toNat = true →
          let t := (s1.holds h).acquires 4
          exec (.park a b) s = .next ((t.setStrand t.cur { t.me with parkSince := none }).endScalar (s.me.pc + 4)))
        ∧ (s.abDone core off p.toNat = false → s.me.parkSince = none →
          exec (.park a b) s
            = .next ((u.setStrand u.cur { u.me with parkSince := some (s.ticks (dieOf core), off, p.toNat) }).endScalar s.me.pc))
        ∧ (s.abDone core off p.toNat = false → s.me.parkSince ≠ none →
          exec (.park a b) s = .next (if h = [] then s.waitScalar none else u.endScalar s.me.pc)))
      ∧ (p.extractLsb' 48 16 = 0 → s.takes d = true →
        let ph := (p.extractLsb' 0 16).toNat
        let fresh : AbWait := { pc := s.me.pc, limit := now + (p.extractLsb' 16 32).toNat, off := off, phase := ph }
        ∀ w : AbWait, (s.me.waitAt = some w ∧ w.pc = s.me.pc ∨ (∀ v, s.me.waitAt = some v → v.pc ≠ s.me.pc) ∧ w = fresh) →
        let met := w.met = true ∨ s.abDone core off ph = true ∧ now ≤ w.limit
        let u1 := s1.holds h
        (met →
          let t := u1.acquires 4
          exec (.abwaitT d a b) s = .next (((t.setStrand t.cur { t.me with waitAt := none }).dest d 0).endScalar (s.me.pc + 4)))
        ∧ (¬met → w.limit ≤ now →
          exec (.abwaitT d a b) s = .next (((u1.setStrand u1.cur { u1.me with waitAt := none }).dest d 1).endScalar (s.me.pc + 4)))
        ∧ (¬met → now < w.limit → exec (.abwaitT d a b) s = .next (
            if s.me.waitAt ≠ some w then (u.setStrand u.cur { u.me with waitAt := some w }).endScalar s.me.pc
            else if h = [] then s.waitScalar none else u.endScalar s.me.pc))))

/-- R38 to R43, R95, R123: HDEF puts a valid record into force, HREAD writes it back word by word, and after a FENCE.rel or FENCE.ar its stores are the release store; a record that R40 refuses, and a handle that is not in force, trap; an access that finds no place stops them without an effect. R77, R109, R124: SEGLD in a context that is no user context: it waits for an idle lane stream, in a handler too; then it writes a descriptor that keeps R77, and traps for one that does not. BASE of O and of X is the offset within the store's set of offsets that the team has. R50, R129: SEGLD and HALT of a strand of a user context take the privilege trap, CODE 0x02. Where a clause rests on a choice of the model and not on a rule of the spec, the choice is that of log entries 6 and 12. -/
def Obligations.HandlesAndPrivilege : Prop :=
  (∀ (s s1 s2 s3 : State) (a : BitVec 6) (g : BitVec 3) (n : BitVec 8) (off : W64) (ps : List Place) (v : Nat) (pois : Bool),
      s.isRes s.cur = true → s.source a = some (off, s1) →
      (s.mayAccess → recordPlaces g.toNat off.toNat 0 s1 = .ok (ps, s2) → readRecord ps s2 = .ok ((v, pois), s3) →
        (handleOk (BitVec.ofNat 2048 v) = true →
          let t := { s3 with ctxs := mmod s3.ctxs (s.ctxOf s.cur) fun x => { x with handles := mput x.handles n.toNat (BitVec.ofNat 2048 v) } }
          exec (.hdef a g n) s = .next ((t.holds (poisonHeld pois (faddrS (s.me.segs.get g.toNat) g.toNat off.toNat))).endScalar (s.me.pc + 4)))
        ∧ (handleOk (BitVec.ofNat 2048 v) = false → exec (.hdef a g n) s = .next ((s3.setStrand s3.cur s.me).trapScalar { code := 0x05 })))
      ∧ (∀ e, s.mayAccess → recordPlaces g.toNat off.toNat 0 s1 = .error e → exec (.hdef a g n) s = .next (s.scalarStop e))
      ∧ (∀ h, s.mayAccess → s.handle (s.ctxOf s.cur) n.toNat = some h →
        (recordPlaces g.toNat off.toNat 1 s1 = .ok (ps, s2) →
          ((ps.zip (List.range 32)).forM fun p => writePlace p.1 8 (h.extractLsb' (64 * p.2) 64).toNat
            (decide (∃ sc, s.me.relStore = some sc ∧ 4 ≤ sc.toNat))) s2 = .ok ((), s3) →
          exec (.hread a g n) s = .next ((s3.setStrand s3.cur { s3.me with relStore := none }).endScalar (s.me.pc + 4)))
        ∧ (∀ e, recordPlaces g.toNat off.toNat 1 s1 = .error e → exec (.hread a g n) s = .next (s.scalarStop e)))
      ∧ (s.handle (s.ctxOf s.cur) n.toNat = none → exec (.hread a g n) s = .next (s.trapScalar { code := 0x05 })))
  ∧ (∀ (s s1 : State) (a b : BitVec 6) (g : BitVec 3) (x y : W64), s.isRes s.cur = true →
      (s.ctx (s.ctxOf s.cur)).user = false → s.source2 a b = some (x, y, s1) →
      let t := s.teamOf s.cur
      let ob := t.obase % 2 ^ 26
      let keeps : Prop := match g.toNat with
        | 1 => x.toNat % 256 = 0 ∧ y.toNat % 4 = 0
        | 4 => x.toNat % 256 = 0 ∧ y.toNat % 256 = 0 ∧ ob ≤ x.toNat ∧ x.toNat + y.toNat ≤ ob + t.tseg
        | 5 => x.toNat = t.xbase % 2 ^ 26 ∧ y.toNat = t.blk.window
        | 6 => x.toNat % 4 = 0
        | 7 => x.toNat % 4 = 0
        | _ => True
      let set := if g = 4 then osTag t.obase else if g = 5 then osTag t.xbase else 0
      (s.me.laneIdle = true → keeps →
        exec (.segld a b g) s
          = .next ((s1.setStrand s1.cur { s1.me with segs := s1.me.segs.put g.toNat { base := x + BitVec.ofNat 64 set, len := y } }).endScalar (s.me.pc + 4)))
      ∧ (s.me.laneIdle = true → ¬keeps → exec (.segld a b g) s = .next (s.trapScalar { code := 0x05 }))
      ∧ (s.me.blocksRun = true → exec (.segld a b g) s = .next (s.waitScalar (some { port := 9, need := 1 })))
      ∧ (s.me.blocksRun = false → s.me.longs ≠ [] → exec (.segld a b g) s = .next (s.waitScalar none)))
  ∧ (∀ (s : State) (a b : BitVec 6) (g : BitVec 3), s.isRes s.cur = true → (s.ctx (s.ctxOf s.cur)).user = true →
      exec (.segld a b g) s = .next (s.trapScalar { code := 0x02 }) ∧ exec .halt s = .next (s.trapScalar { code := 0x02 }))

/-- R81, R126 to R128, R356: YIELD changes nothing but the order of issue; EXIT waits for all work of the strand, its stores' acknowledgements among it, and then removes it; HALT stops every strand of the team and reports it. R125, R202, R203, R375: SYSC. LAUNCH reads its record and appends it to the queue's ring; one of a full, foreign, unknown or disabled queue only answers. A host service is posted and its answer awaited in a1 and a2; any other number answers at once. Where a clause rests on a choice of the model and not on a rule of the spec, the choice is that of log entries 8, 22 and 64. -/
def Obligations.StrandEndsAndServices : Prop :=
  (∀ s : State, s.isRes s.cur = true →
      exec .yield s = .next s.nextWord
      ∧ (let done := s.workLeft s.cur = false ∧ s.me.flagsClear = true ∧ s.me.savedClear = true ∧ s.me.replies = [] ∧ s.me.longs = [] ∧ s.me.pendC = []
           ∧ ∀ u ∈ s.updates, u.who ≠ some s.me.member
         let noBlock := s.me.lane.noBlock = true ∧ s.me.win.noBlock = true
         (noBlock → done → exec .exit s = .next ((s.removeStrand s.cur).barLeave s.me.team (s.team s.me.team)))
         ∧ (noBlock → ¬done → exec .exit s = .next (s.waitScalar none))
         ∧ (¬noBlock → exec .exit s = .next (s.waitScalar (some { port := 9, need := 1 }))))
      ∧ ((s.ctx (s.ctxOf s.cur)).user = false →
         let t := ((s.team s.me.team).sids.foldl (fun s sid => s.stopStrand sid .byHalt) s).report 0x33
           (BitVec.ofNat 64 s.me.team) (BitVec.ofNat 64 s.cur) 0
         exec .halt s = .next (t.endScalar (s.me.pc + 4))))
  ∧ (∀ s : State, s.isRes s.cur = true → (∀ r ∈ List.range 7, s.me.regBusy r = false) →
      (∀ i : BitVec 20, 0x80000 ≤ i.toNat →
        let e : SvcEntry := { ty := 3, arg := BitVec.ofNat 48 (i.toNat + s.ctxOf s.cur * 2 ^ 20)
                              body := (List.range 6).map fun k => s.me.reg (k + 1), sid := s.cur, seq := 0 }
        let t := s.postService e
        let r := fun (d : Nat) => ({ kind := .service, dst := d, svc := some s.svcNext, inH := s.me.csr.ih } : Reply)
        exec (.sysc i) s = .next (((t.awaitReply (r 1)).awaitReply (r 2)).endScalar (s.me.pc + 4)))
      ∧ (∀ i : BitVec 20, i ≠ 1 → i.toNat < 0x80000 →
        exec (.sysc i) s
          = .next ((s.setStrand s.cur ((s.me.setReg 1 (BitVec.allOnes 64)).setReg 2 0)).endScalar (s.me.pc + 4)))
      ∧ (s.mayAccess → ∀ (ps : List Place) (v : Nat) (pois : Bool) (s1 s2 : State),
        recordPlaces 0 (s.me.reg 2).toNat 0 s = .ok (ps, s1) → readRecord ps s1 = .ok ((v, pois), s2) →
        let n := (s.me.reg 1).toNat
        let c := s.ctxOf s.cur
        let answer := fun (t : State) (n : W64) =>
          ((t.setStrand t.cur ((t.me.setReg 1 n).setReg 2 0)).holds (poisonHeld pois (faddrS s.me.segs.g 0 (s.me.reg 2).toNat))).endScalar (s.me.pc + 4)
        (mget? s.queues n = none → exec (.sysc 1) s = .next (answer s2 (if n ≤ 32767 ∧ c = 0 then 3 else 2)))
        ∧ (∀ q, mget? s.queues n = some q → (32767 < n ∨ q.ctx ≠ c) → exec (.sysc 1) s = .next (answer s2 2))
        ∧ (∀ q, mget? s.queues n = some q → n ≤ 32767 → q.ctx = c →
          (q.en = false → exec (.sysc 1) s = .next (answer s2 3))
          ∧ (q.en = true → (q.tail - q.head).toNat = 2 ^ q.ringlog → exec (.sysc 1) s = .next (answer s2 1))
          ∧ (∀ s3, q.en = true → (q.tail - q.head).toNat ≠ 2 ^ q.ringlog →
            ringWrite c ((q.lring.toNat + 256 * (q.tail.toNat % 2 ^ q.ringlog)) % 2 ^ 64) (leBytes 256 v) s2 = .ok ((), s3) →
            exec (.sysc 1) s = .next (answer (s3.doorbell n (q.tail + 1)) 0)))))

/-- R38, R40, R43, R266 to R269: MXCFG. A claim takes the lowest free tiles or joins the waiting claims; set, stat and free of claimed tiles; the illegal-operand traps of a claim of no or of too many tiles, of a second claim, of an unclaimed tile, of a handle not in force, of a configuration that R268 refuses. Where a clause rests on a choice of the model and not on a rule of the spec, the choice is that of log entry 37. -/
def Obligations.MatrixConfiguration : Prop :=
  ∀ s : State, s.isRes s.cur = true →
    let core := coreOf s.cur
    let bad := fun (i : Instr) => exec i s = .next (s.trapScalar { code := 0x05 })
    (∀ n : BitVec 4, (n = 0 ∨ 8 < n.toNat) → bad (.mxcfgClaim n))
    ∧ ((s.tileBack.any fun b => b.sid == s.cur) = true → ∀ n : BitVec 4, 1 ≤ n.toNat → n.toNat ≤ 8 →
        exec (.mxcfgClaim n) s = .next (s.waitScalar none) ∧ exec .mxcfgFree s = .next (s.waitScalar none))
    ∧ ((s.tileBack.any fun b => b.sid == s.cur) = false →
      (∀ n : BitVec 4, 1 ≤ n.toNat → n.toNat ≤ 8 → s.holdsTile s.cur = true → bad (.mxcfgClaim n))
      ∧ (∀ n : BitVec 4, 1 ≤ n.toNat → n.toNat ≤ 8 → s.holdsTile s.cur = false →
        (s.claimTurn = true ∧ n.toNat ≤ (s.freeTiles core).length →
          let t := (s.dropClaim s.cur).takeTiles s.cur n.toNat
          exec (.mxcfgClaim n) s = .next ((t.setStrand t.cur { t.me with claim := none }).endScalar (s.me.pc + 4)))
        ∧ (¬(s.claimTurn = true ∧ n.toNat ≤ (s.freeTiles core).length) →
          exec (.mxcfgClaim n) s = .next (if s.me.claim.isSome = true ∧ (mget s.claimQ core []).contains s.cur = true then s.waitScalar none
            else
              let t := (s.dropClaim s.cur).addClaim s.cur
              (t.setStrand t.cur { t.me with claim := some n.toNat }).endScalar s.me.pc)))
      ∧ (∀ (t : BitVec 3) (s1 : State) (a : BitVec 6) (c : W64), s.source a = some (c, s1) →
        let h := fun (i : Nat) => s.handle (s.ctxOf s.cur) (c.extractLsb' i 8).toNat
        (s.tileOf s.cur t.toNat = none ∨ h 0 = none ∨ h 8 = none → bad (.mxcfgSet t a))
        ∧ (∀ p ha hb, s.tileOf s.cur t.toNat = some p → h 0 = some ha → h 8 = some hb →
          (cfgOk c ha hb = false → bad (.mxcfgSet t a))
          ∧ (cfgOk c ha hb = true → exec (.mxcfgSet t a) s
              = .next ((s1.setTile core p { s.tile core p with cfg := some c, ha := ha, hb := hb }).endScalar (s.me.pc + 4)))))
      ∧ (∀ (t : BitVec 3) (d : BitVec 6), s.takes d = true →
        (s.tileOf s.cur t.toNat = none → bad (.mxcfgStat d t))
        ∧ (∀ p, s.tileOf s.cur t.toNat = some p → exec (.mxcfgStat d t) s
          = .next (((s.setTile core p { s.tile core p with status := 0 }).dest d (s.tileStatus core p)).endScalar (s.me.pc + 4))))
      ∧ ((∃ c ∈ s.mxCmds core, c.sid = s.cur) → exec .mxcfgFree s = .next (s.waitScalar none))
      ∧ ((∀ c ∈ s.mxCmds core, c.sid ≠ s.cur) →
        exec .mxcfgFree s
          = .next (((List.range 8).foldl (fun t p => if (s.tile core p).owner = some s.cur then t.freeTile core p else t) s).endScalar (s.me.pc + 4))))

/-- R264, R265, R270 to R274, R279: a dense or sparse command on a claimed, configured tile, its regions inside their segments and not FREE, is accepted. R280, R281: MXRK with 1 to 128 rows and a B of 1 to 4096 rows is accepted. R282, R283, R287, R309: MXST in every format, with and without residues, and MXST.zero, are accepted; FREE gives the tile up at once. R34, R35, R264, R265, R275, R278, R279, R281, R283: what the matrix engine computes: every element of C takes the chunks of its row of A and its column of B in order, each chunk's exact sum times the scales added with one rounding; the elements that a fragment's bytes stand for; the value of a chunk, its NaN and infinite products; a row's tokens; the bytes that MXST writes. Where a clause rests on a choice of the model and not on a rule of the spec, the choice is that of log entry 37. -/
def Obligations.MatrixCommandsAccepted : Prop :=
  (∀ (s s1 : State) (t : BitVec 3) (g k : BitVec 6) (f : BitVec 4) (w : BitVec 1) (u : BitVec 2) (n : W64) (p : Nat) (cfg : W64),
      s.isRes s.cur = true → s.source k = some (n, s1) → s.mxReady → s.flagRoom f →
      s.tileOf s.cur t.toNat = some p → (s.tile (coreOf s.cur) p).cfg = some cfg →
      let x := s.tile (coreOf s.cur) p
      let a := hFmt x.ha
      let b := hFmt x.hb
      let acq := if w = 1 then some (s.me.lane.started + s.me.lane.dq.length, s.me.win.started + s.me.win.dq.length) else none
      let r := fun i => (s.group g 8).getD i 0
      let c : MxCmd := { kind := .dense, sid := s.cur, tile := p, flag := f, count := n.toNat, offA := adOff (r 0), offB := adOff (r 1)
                         cfg := cfg, ha := x.ha, hb := x.hb, acq := acq }
      adOk 256 (r 0) = true → adOk 256 (r 1) = true → incOk (r 0) (r 2) = true → incOk (r 1) (r 3) = true →
      (s.groupReady g 6 → stageOk s s.cur (r 4) (r 5) n = true → cfgSp cfg = 0 → a ≠ 12 →
        s.regionsOk (stepRegions [(r 0, r 2, fragA a (denseK a b)), (r 1, r 3, fragB b (denseK a b))] n.toNat [(adOff (r 0) : Int), (adOff (r 1) : Int)]) →
        exec (.mxloop t g k f w u) s = .next ((s1.mxAccepts { c with regs := s.group g 6 }).endScalar (s.me.pc + 4)))
      ∧ (s.groupReady g 8 → stageOk s s.cur (r 4) (r 5) n = true → cfgSp cfg ≠ 0 → a ≠ 12 → a ≠ 11 → adOk 256 (r 6) = true → incOk (r 6) (r 7) = true →
        let nn := sparseN (cfgSp cfg)
        let kk := sparseK a nn
        s.regionsOk (stepRegions [(r 0, r 2, 4 * kk * nn * tyBytes a), (r 1, r 3, fragB b kk), (r 6, r 7, 4 * kk * nn)] n.toNat
          [(adOff (r 0) : Int), (adOff (r 1) : Int), (adOff (r 6) : Int)]) →
        exec (.mxsp t g k f w u) s
          = .next ((s1.mxAccepts { c with kind := .sparse, regs := s.group g 8, offM := adOff (r 6) }).endScalar (s.me.pc + 4))))
  ∧ (∀ (s s1 : State) (t : BitVec 3) (g k : BitVec 6) (f : BitVec 4) (w : BitVec 1) (n : W64) (p : Nat) (cfg : W64),
      s.isRes s.cur = true → s.groupReady g 4 → s.source k = some (n, s1) → s.mxReady → s.flagRoom f →
      s.tileOf s.cur t.toNat = some p → (s.tile (coreOf s.cur) p).cfg = some cfg →
      let x := s.tile (coreOf s.cur) p
      let acq := if w = 1 then some (s.me.lane.started + s.me.lane.dq.length, s.me.win.started + s.me.win.dq.length) else none
      let q := fun i => (s.group g 4).getD i 0
      let stride := (q 2).toNat
      let nb := (q 3).toNat
      hFmt x.ha = 12 → adOk 4 (q 0) = true → adOk 256 (q 1) = true → adRb (q 0) = 0 → adRb (q 1) = 0 → stride < 2 ^ 32 → stride % 4 = 0 →
      1 ≤ nb → nb ≤ 4096 → 1 ≤ n.toNat → n.toNat ≤ 128 →
      s.regionsOk ((List.range n.toNat).map (fun m => ({ ad := q 0, off := (adOff (q 0) + m * stride : Nat), size := 514 } : MxRegion))
        ++ [{ ad := q 1, off := adOff (q 1), size := nb * 192 * tyBytes (hFmt x.hb) }]) →
      exec (.mxrk t g k f w) s
        = .next ((s1.mxAccepts { kind := .rank, sid := s.cur, tile := p, flag := f, regs := s.group g 4, count := n.toNat
                                 rows := List.replicate n.toNat {}, cfg := cfg, ha := x.ha, hb := x.hb, acq := acq }).endScalar (s.me.pc + 4)))
  ∧ (∀ (s : State) (e : BitVec 1) (t : BitVec 3) (f : BitVec 4) (p : Nat),
      s.isRes s.cur = true → s.mxReady → s.flagRoom f → s.tileOf s.cur t.toNat = some p →
      let core := coreOf s.cur
      let cfg := (s.tile core p).cfg.getD 0
      let givesUp := fun (u : State) => if e = 1 then u.setTile core p { u.tile core p with freed := true } else u
      exec (.mxstZero e t f) s
        = .next ((givesUp (s.mxAccepts { kind := .store, sid := s.cur, tile := p, flag := f, count := 0, cfg := cfg, out := 15, zero := true
                                         free := e == 1 })).endScalar (s.me.pc + 4))
      ∧ (∀ (s1 s2 : State) (v z : BitVec 1) (d x : BitVec 6) (m : BitVec 4) (dr er : W64),
        s.source d = some (dr, s1) → (if x = 0 then er = 0 ∧ s2 = s1 else s1.source x = some (er, s2)) →
        let fmt := m.toNat
        let base := (dr.extractLsb' 32 32).toNat
        let dst := (dr.extractLsb' 0 26).toNat
        let ro := (er.extractLsb' 0 26).toNat
        let size := storeSize fmt
        dr.extractLsb' 26 6 = 0 → (if fmt = 11 then normal32 base = true else base = 0) → dst % 256 = 0 →
        er.extractLsb' 26 38 = 0 → ro % 256 = 0 → (x ≠ 0 → fmt ≠ 0 ∧ ¬(dst < ro + 98304 ∧ ro < dst + size)) →
        let rs : List MxRegion := { ad := 0, off := dst, size := size } :: (if x ≠ 0 then [{ ad := 0, off := ro, size := 98304 }] else [])
        s.regionsOk rs → (∀ r ∈ rs, s.osMeetsBarrier core (osTag s.me.segs.o.base.toNat + r.off.toNat) r.size = false) →
        exec (.mxst v e z t d x f m) s
          = .next ((givesUp (s2.mxAccepts { kind := .store, sid := s.cur, tile := p, flag := f, regs := [dr, er], count := 8, cfg := cfg
                                            out := fmt, ovf := v == 1, zero := z == 1, free := e == 1, res := x != 0 })).endScalar (s.me.pc + 4))))
  ∧ ((∀ (scale : Fv) (as bs : List (List Chunk)) (cs : List (List Nat)) (k : Conds) (m n : Nat) (a b : List Chunk) (row : List Nat) (c : Nat),
      as[m]? = some a → cs[m]? = some row → bs[n]? = some b → row[n]? = some c →
      ((mxRows scale bs as cs k).1[m]?.bind fun r => r[n]?) = some (mxElem scale a b c 0).1)
    ∧ (∀ (scale : Fv) (a b : Chunk) (as bs : List Chunk) (c : Nat) (k : Conds),
      mxElem scale (a :: as) (b :: bs) c k
        = mxElem scale as bs (mxAdd c (mulF (chunkSum a b).1 scale).1).1 (k ||| (chunkSum a b).2 ||| (mxAdd c (mulF (chunkSum a b).1 scale).1).2)
      ∧ mxElem scale [] (b :: bs) c k = (c, k) ∧ mxElem scale (a :: as) [] c k = (c, k))
    ∧ (∀ (c : Nat) (p : Fv),
      (isZeroF p = true → mxAdd c p = (c, 0))
      ∧ (isZeroF p = false → (mxAdd c p).1 = (encodeF f32 0 false false (addF 0 (decodeF f32 c) p).1).1))
    ∧ (∀ (vs us : List Fv),
      let a := mkChunk vs
      let b := mkChunk us
      let ps := (vs.zip us).map fun p => (mulF p.1 p.2).1
      let at' : Int → Fv → Int := fun q x => match x with
        | .fin neg m e => if neg then -((m * 2 ^ (e - q).toNat : Nat) : Int) else ((m * 2 ^ (e - q).toNat : Nat) : Int)
        | _ => 0
      (∀ b', chunkSum (mkChunk vs true) b' = (.nan false, cINV))
      ∧ ((∃ p ∈ ps, isNan p = true) ∨ (.inf false ∈ ps ∧ .inf true ∈ ps) → chunkSum a b = (.nan false, cINV))
      ∧ (∀ neg, (∀ p ∈ ps, isNan p = false) → .inf neg ∈ ps → .inf (!neg) ∉ ps → chunkSum a b = (.inf neg, 0))
      ∧ (∀ q : Int, q ≤ 0 → (∀ p ∈ ps, ∃ neg m e, p = .fin neg m e ∧ q ≤ e) →
          ∃ neg m e, chunkSum a b = (.fin neg m e, 0) ∧ q ≤ e ∧ at' q (.fin neg m e) = (ps.map (at' q)).sum))
    ∧ (∀ (win : Option MxWin) (s : State) (fmt k off i q : Nat) (g : MxMet), fmt ≠ 11 → q < k / 32 →
      let w := tyBytes fmt
      let el := fun o => mxVal fmt (mxRead win s w o {}).1
      (i < 128 → ((mxRowsA win s fmt k off g).1[i]?.bind fun r => r[q]?) = some (mkChunk ((List.range 32).map fun j => el (off + i * (k * w) + (32 * q + j) * w))))
      ∧ (i < 192 → ((mxColsB win s fmt k off g).1[i]?.bind fun r => r[q]?) = some (mkChunk ((List.range 32).map fun j => el (off + i * w + (32 * q + j) * (192 * w))))))
    ∧ (∀ v, mxVal 9 v = ofInt (sval 8 v) ∧ mxVal 10 v = ofInt (v % 256) ∧ mxVal 1 v = decodeF (fmtOf 1) v ∧ mxVal 2 v = decodeF (fmtOf 2) v
      ∧ mxVal 3 v = decodeF (fmtOf 3) v ∧ mxVal 4 v = decodeF (fmtOf 4) v)
    ∧ (∀ (fmt : Nat) (vs ms : List Nat), vs.length = ms.length → (∀ m ∈ ms, m < 32) → ms.Pairwise (· < ·) →
      (sparseChunk fmt vs ms).bad = false
      ∧ (∀ i m v : Nat, ms[i]? = some m → vs[i]? = some v → (sparseChunk fmt vs ms).vals[m]? = some (mxVal fmt v))
      ∧ (∀ k < 32, k ∉ ms → (sparseChunk fmt vs ms).vals[k]? = some (.fin false 0 0)))
    ∧ (∀ (fmt : Nat) (vs ms : List Nat), (∃ m ∈ ms, 32 ≤ m) ∨ (∃ i m m' : Nat, ms[i]? = some m ∧ ms[i + 1]? = some m' ∧ m' ≤ m) → (sparseChunk fmt vs ms).bad = true)
    ∧ (∀ (s : State) (c : MxCmd) (m : Nat) (row : MxRow) (cr : List Nat) (g : MxMet),
      let r := fun i => c.regs.getD i 0
      let tok := (mxRead (s.mxWindow c.sid (r 0) c.sels c.pick (adOff (r 0))) s 2 (adOff (r 0) + m * (r 2).toNat + 2 * row.pos) {}).1
      let idx := tok % 4096
      let tie := tok.testBit 13
      let o := rkToken1 s c m row cr g
      (tok = 0xFFFF → o.1 = { row with ended := true } ∧ o.2.1 = cr)
      ∧ (tok ≠ 0xFFFF → 2 ^ 14 ≤ tok ∨ (row.pos = 0 ∧ tie = true) ∨ 256 ≤ row.pos ∨ (r 3).toNat ≤ idx →
          o.1 = { row with ended := true } ∧ o.2.1 = cr ∧ o.2.2.conds &&& cRKF = cRKF)
      ∧ (tok < 2 ^ 14 → ¬ (row.pos = 0 ∧ tie = true) → row.pos < 256 → idx < (r 3).toNat →
          let run := if tie = true then row.run else row.pos
          let t := decodeF (fmtOf 1) (c.table.getD (if cfgTs c.cfg = true then run else row.pos) 0).toNat
          let wt := (mulF (mulF (if tok.testBit 12 = true then negF t else t) (mxScale c.ha)).1 (mxScale c.hb)).1
          let fmt := hFmt c.hb
          o.1 = { row with pos := row.pos + 1, run := run } ∧ o.2.1.length = cr.length
          ∧ ∀ n x, cr[n]? = some x → o.2.1[n]? = some (mxAdd x (mulF wt (mxVal fmt
              (mxRead (s.mxWindow c.sid (r 1) c.sels (c.pick / 2 ^ 65536) (adOff (r 1))) s (tyBytes fmt)
                (adOff (r 1) + idx * 192 * tyBytes fmt + n * tyBytes fmt) {}).1)).1).1))
    ∧ (∀ (c : MxCmd) (xs es : List Nat), xs.length = es.length → c.out ≤ 4 →
      (c.res = false → (storeRow c xs es).1 = xs.flatMap fun x =>
        leBytes (tyBytes c.out) (if c.out = 0 then x else (encodeF (fmtOf c.out) 0 c.ovf false (decodeF f32 x)).1))
      ∧ (c.res = true → c.out ≠ 0 → (storeRow c xs es).1 = (xs.zip es).flatMap (fun p => leBytes (tyBytes c.out) (errFeedback (fmtOf c.out) c.ovf p.1 p.2).1)
        ∧ (storeRow c xs es).2.1 = (xs.zip es).map fun p => (errFeedback (fmtOf c.out) c.ovf p.1 p.2).2.1)))

/-- R292, R293: SKICK releases at .pkg and starts a program in the lowest free slot of the engine; on an absent engine it only answers; without a slot it waits in its turn. R294, R295: SSTAT reads a ticket's status word; its cancel form also has the program stop at its next command. Where a clause rests on a choice of the model and not on a rule of the spec, the choice is that of log entries 42 and 53. -/
def Obligations.StreamKicksAndStatus : Prop :=
  (∀ (s s0 s2 : State) (d g b : BitVec 6) (f : BitVec 4) (t : BitVec 1) (bv : W64) (eng : Nat),
      s.isRes s.cur = true → s.groupReady g 3 → s.source b = some (bv, s0) → s.takes d = true → s.flagRoom f →
      let r := fun i => (s.group g 3).getD i 0
      (r 0).toNat % 8 = 0 →
      ∀ i : Instr,
      (i = .skickE d g b f t ∧ bv.toNat < 16 ∧ eng = bv.toNat ∧ s2 = s
        ∨ i = .skickH d g b f t ∧ bv.toNat < 256 ∧ ∃ h pa pol host, s.handle (s.ctxOf s.cur) bv.toNat = some h
            ∧ xlateMine (hBase h).toNat {} 0 0 0 (hBase h) s = .ok (.mem pa pol host, s2) ∧ eng = stackOf pa) →
      let ws := s.skickWaiters eng
      let rel := s2.releases 4
      let unqueue := fun (u : State) (me : List Nat) => ({ u with skickQ := mset u.skickQ eng ((mget u.skickQ eng []).filter (· != s.cur) ++ me) [] } : State)
      (¬ s2.freeRelease 4 → exec i s = .next (s.waitScalar none))
      ∧ (s2.freeRelease 4 → s.dieLive (eng / 2) = false →
        ∀ s3, rel.source b = some (bv, s3) → exec i s = .next ((s3.dest d (BitVec.ofNat 64 eng)).endScalar (s.me.pc + 4)))
      ∧ (s2.freeRelease 4 → s.dieLive (eng / 2) = true → (ws = [] ∨ ws.headD 0 = s.cur) → ∀ n s3, s.freeSlot eng = some n →
        (rel.countedPkg f).source b = some (bv, s3) →
        let s4 := (unqueue s3 []).takeSlot s.cur (eng * 64 + n) (r 0) (r 1) (r 2) f (t == 1)
        let s5 := s4.setStrand s4.cur { s4.me with skick := none }
        exec i s = .next ((s5.dest d (BitVec.ofNat 64 (s5.ticket (eng * 64 + n)))).endScalar (s.me.pc + 4)))
      ∧ (s2.freeRelease 4 → s.dieLive (eng / 2) = true → (s.freeSlot eng = none ∨ ws ≠ [] ∧ ws.headD 0 ≠ s.cur) →
        exec i s = .next (if ws.contains s.cur then s.waitScalar none
          else
            let s4 := unqueue rel [s.cur]
            let k : SkickWait := { eng := eng, e := i == .skickE d g b f t, d := d, g := g, b := b, f := f, t := t }
            (s4.setStrand s4.cur { s4.me with skick := some k }).endScalar s.me.pc)))
  ∧ (∀ (s s1 : State) (d a : BitVec 6) (tk : W64), s.isRes s.cur = true → s.source a = some (tk, s1) → s1.takes d = true →
      let w := s.ticketWord (s.ctxOf s.cur) tk
      exec (.sstat d a) s = .next ((s1.dest d w).endScalar (s.me.pc + 4))
      ∧ (∀ n, s.ticketSlot (s.ctxOf s.cur) tk = some n →
        exec (.sstatCancel d a) s = .next (((s1.modProg n fun p => { p with cancel := p.running }).dest d w).endScalar (s.me.pc + 4)))
      ∧ (s.ticketSlot (s.ctxOf s.cur) tk = none → exec (.sstatCancel d a) s = .next ((s1.dest d w).endScalar (s.me.pc + 4))))

/-- R93, R311, R312: SCOPY. With an empty leader predicate it does nothing; otherwise its checked copy joins the die's copy path and its flag is counted. R86, R93, R362 to R365: a COLL whose operands, handles and descriptor agree is accepted by the collective engine after its release at .pkg. Where a clause rests on a choice of the model and not on a rule of the spec, the choice is that of log entries 38, 44 and 67. -/
def Obligations.CopiesAndCollectivesAccepted : Prop :=
  (∀ (s : State) (store : Bool) (l : BitVec 3) (p : BitVec 6) (f : BitVec 4) (z b : BitVec 1),
      s.isRes s.cur = true → s.groupReady p 3 →
      let i : Instr := if store then .scopySt l p f z b else .scopyLd l p f z b
      let m := s.me.predMask l.toNat
      let r := fun j => (s.group p 3).getD j 0
      let nd := ((r 0).extractLsb' 44 2).toNat + 1
      let vc := ((r 0).extractLsb' 46 10).toNat
      let lead := lowBit 64 m.toNat
      let rel := (r 0).getLsbD 40
      let acq := (r 0).getLsbD 39
      let sc := (r 0).extractLsb' 41 3
      let keys := (List.range nd).map fun d => vKey (vc + d) lead
      (m = 0 → exec i s = .next s.nextWord)
      ∧ (∀ h, m ≠ 0 → vc + nd - 1 < s.me.budget → vc + nd - 1 < 960 → scopeOk sc = true → (sc = 0 ∨ acq = true ∨ rel = true) →
        (r 0).extractLsb' 26 13 = 0 → (r 2).extractLsb' 42 6 = 0 → (b = 0 → r 2 = 0) →
        s.handle (s.ctxOf s.cur) ((r 0).extractLsb' 56 8).toNat = some h →
        let c : Scopy := { sid := s.cur, team := s.me.team, flag := f, lead := lead, store := store, w := scopyWords z b (r 0) (r 1) (r 2), h := h
                           coords := keys.map fun k => if s.me.vpois.contains k then 0 else (mget s.me.v k 0).toNat, ph := ((r 2).extractLsb' 48 16).toNat }
        c.copy.fieldsOk c.w.w1 = true → s.regionInside c.copy (s.teamOf s.cur) = true →
        (s.dieCopies (dieOf (coreOf s.cur))).length < 256 → s.flagRoom f →
        let t := (s.countedPkg f).holds (poisonHeld (keys.any fun k => s.me.vpois.contains k) 0 (BitVec.ofNat 64 (2 ^ lead)))
        exec i s = .next ((t.setDieCopies (dieOf (coreOf s.cur)) (s.dieCopies (dieOf (coreOf s.cur)) ++ [c])).endScalar (s.me.pc + 4))))
  ∧ (∀ (s s1 s2 : State) (g : BitVec 6) (f op : BitVec 4) (hs hd : BitVec 2048) (head bs : List Byte),
      s.isRes s.cur = true → s.groupReady g 3 →
      let r := fun i => (s.group g 3).getD i 0
      let c := s.ctxOf s.cur
      let rel := (r 0).getLsbD 20
      let acq := (r 0).getLsbD 19
      let sc := (r 0).extractLsb' 16 3
      let e := elemsOf hs
      let p := fld head 4 2
      let d := (List.range (8 + p)).map fun i => (BitVec.ofNat 64 (fld bs (8 * i) 8) : W64)
      (r 0).extractLsb' 21 43 = 0 → (r 2).extractLsb' 16 48 = 0 → (if acq = true ∨ rel = true then sc = 4 ∨ sc = 5 else sc = 0) → (r 1).toNat % 64 = 0 →
      s.handle c ((r 0).extractLsb' 0 8).toNat = some hs → s.handle c ((r 0).extractLsb' 8 8).toNat = some hd →
      hFmt hs = hFmt hd → collFmtOk op.toNat (hFmt hs) = true → elemsOf hd = e → 0 < e → e ≤ 2 ^ 24 →
      descBytes c (r 1).toNat 64 0 s = .ok (head, s1) → 1 ≤ p → p ≤ 1024 → descBytes c (r 1).toNat (64 + 8 * p) (fld head 0 4) s1 = .ok (bs, s2) →
      descOk d = true → (r 2).toNat < p → dRemote d (r 2).toNat = false → s.colls.length < 256 → s.flagRoom f →
      exec (.coll g f op) s
        = .next (if (s2.releases 4).released s.cur 4 = true then
            (((s2.releases 4).countedPkg f).acceptColl
              { ctx := c, team := s.me.team, gid := dGid d, k := 0, rank := (r 2).toNat, p := p, op := op, hs := hs, hd := hd, desc := d
                acq := acq, rel := rel, scope := sc, sid := s.cur, flag := f, gd := r 1 }).endScalar (s.me.pc + 4)
          else s.waitScalar none))

/-- R107, R129 to R131, R134: TRAP with a handler installed and a trap record that can be written: what TCAUSE, TEPC, TLPC and TMASK hold, the flags in their saved copy, IH, the PC at the handler, and the 256 bytes of the trap record in the two lines of the die cache at TREC. A JOIN or END whose pop is under way completes before (u); without one u is s. -/
def Obligations.TrapInstructionEntersHandler : Prop :=
  ∀ (s : State) (i : BitVec 20) (r : Xl), s.isRes s.cur = true → s.me.csr.ih = false → 4 ≤ s.me.csr.tvec.toNat →
    256 ≤ s.me.segs.p.len.toNat * 64 → s.me.pendC = [] →
    let die := dieOf (coreOf s.cur)
    let ctx := s.ctxOf s.cur
    let u := s.finishPop s.cur (s.me.lane.depth + 1)
    let st := u.me.landAll
    let c := u.me.lane
    let va := s.me.segs.p.base + s.me.segs.p.len * 64 - 256
    let cause := i.setWidth 64 <<< 44 ||| 0x20E
    let half : Side → W32 := fun x => if x.live then (x.reissue.head?.map (·.unitNo)).getD x.pc else 0xFFFFFFFF
    let tlpc : W64 := (half c.b).setWidth 64 <<< 32 ||| (half c.a).setWidth 64
    let mask : Side → Nat := fun x => if x.live then x.mask.toNat else 0
    let live : Side → Nat → Nat := fun x n => if x.live then n else 0
    let record := leBytes 8 cause.toNat ++ leBytes 8 s.me.pc.toNat ++ leBytes 8 tlpc.toNat ++ leBytes 8 0 ++ leBytes 8 0
      ++ (List.range 12).flatMap (fun k => leBytes 2 (s.me.flag k))
      ++ leBytes 8 (mask c.a) ++ leBytes 8 (mask c.b)
      ++ leBytes 1 (live c.a 1 + live c.b 2) ++ leBytes 7 0
      ++ leBytes 8 st.qocc.toNat ++ leBytes 12 0 ++ leBytes 4 (s.curWord.setWidth 32).toNat ++ leBytes 144 0
    ((∀ sb e n, s.me.lane.spill ≠ some (.pop sb e n)) → u = s)
    ∧ (va.toNat % 256 = 0 → u.xlate die ctx va.toNat { w := true } .mem = .ok r → r.s.allowed ctx r.pa { w := true } = true →
    ∃ t, exec (.trap i) s = .next t
      ∧ t.me.csr.tcause = cause ∧ t.me.csr.tepc = s.me.pc ∧ t.me.csr.tlpc = tlpc ∧ t.me.csr.tmask = 0
      ∧ t.me.savedFlags = s.me.flags ∧ t.me.flags = [] ∧ t.me.csr.ih = true ∧ t.me.pc = s.me.csr.tvec &&& ~~~3
      ∧ record.length = 256
      ∧ (∀ k < 2, ∃ l, t.dcLine die (r.pa / 128 + k) = some l ∧ l.ctx = ctx ∧ l.poisoned = false
        ∧ ∀ b < 128, lineByte l.data b = record.getD (128 * k + b) 0))

/-- R130, R136: a trap without a handler, and a trap in the handler, are reported and end the team. R133: ERET and ERET.retry. The saved flags come back, IH falls, and the scalar stream goes on after the recorded instruction, or at it for a retry or a cause that is not its own; they wait for the trap window's blocks and for the live flags; outside a handler both are illegal. -/
def Obligations.TrapEndsAndReturns : Prop :=
  (∀ (s : State) (i : BitVec 20), s.isRes s.cur = true → s.me.pendC = [] →
      (s.me.csr.ih = true →
        ∃ u : State, exec (.trap i) s = .next (u.killTeam s.me.team 9) ∧ ∃ r ∈ u.reports, r.kind = 0x11 ∧ r.v0 = s.me.csr.tcause)
      ∧ (s.me.csr.ih = false → s.me.csr.tvec.toNat < 4 →
        ∃ u : State, exec (.trap i) s = .next (u.killTeam s.me.team 9)
          ∧ ∃ r ∈ u.reports, r.kind = 0x10 ∧ r.v0 = i.setWidth 64 <<< 44 ||| 0x20E))
  ∧ (∀ (s : State) (retry : Bool), s.isRes s.cur = true →
      let i : Instr := if retry then .eretRetry else .eret
      (s.me.csr.ih = true → s.me.win.noBlock = true → s.me.flagsClear = true →
        ∃ t, exec i s = .next t ∧ t = (s.returnFromTrap s.cur retry).endScalar t.me.pc
          ∧ t.me.flags = s.me.savedFlags ∧ t.me.savedFlags = [] ∧ t.me.csr = { s.me.csr with ih := false }
          ∧ t.me.pkgFlags = s.me.savedPkg ∧ t.me.savedPkg = []
          ∧ t.me.pc = (if s.me.csr.tcause.getLsbD 9 = true ∧ retry = false then s.me.csr.tepc + 4 else s.me.csr.tepc)
          ∧ t.hbm = s.hbm ∧ t.hostMem = s.hostMem)
      ∧ (s.me.csr.ih = true → s.me.win.noBlock = false → exec i s = .next (s.waitScalar (some { port := 9, need := 1 })))
      ∧ (s.me.csr.ih = true → s.me.win.noBlock = true → s.me.flagsClear = false → exec i s = .next (s.waitScalar none))
      ∧ (s.me.csr.ih = false → exec i s = .next (s.trapScalar { code := 0x01 })))

/-- R44, R63, R80, R87: a pattern that is no instruction traps with CODE 0x01 before any effect, in both streams; a fetch outside KS or KL, or not on a multiple of 4, with CODE 0x06, one that the access tables deny with CODE 0x07, one whose page has no valid translation parks the stream; a fetch that succeeds changes nothing. R44, R64, R76, R87, R98, R104, R356: the word of a fetch: of the line's copy that the context owns, a copy under another context's number having been written back and fetched again, else of the slice; a denied page, a page without a translation, a commit under way. A lane fetch reads three words: the first one that fails gives CODE 0x07, parks the stream, or makes it wait, and nothing else takes effect. R130, R135, R136, R147: the traps that no issuing instruction takes by itself: an entry that was parked, conditions of completed instructions, a held cause of the lowest CODE. Where a clause rests on a choice of the model and not on a rule of the spec, the choice is that of log entries 33 and 34. -/
def Obligations.FetchAndDeferredTraps : Prop :=
  (∀ s : State, s.isRes s.cur = true →
      let sd := (s.me.laneCtx s.curWin).side s.curB
      let die := dieOf (coreOf s.cur)
      let ctx := s.ctxOf s.cur
      let va := (s.me.segs.ks.base.toNat + s.me.pc.toNat) % 2 ^ 64
      (s.ev.flag = false →
        exec .unassignedEncoding s
          = .next (s.takeTrap s.cur { code := 0x01, sfault := true, epc := some s.me.pc, sword := s.curWord.setWidth 32 })
        ∧ (s.me.pc.toNat % 4 ≠ 0 ∨ s.me.segs.ks.len.toNat < s.me.pc.toNat + 4 →
          exec .instructionFetchFault s = .next (s.takeTrap s.cur { code := 0x06, sfault := true, epc := some s.me.pc }))
        ∧ (s.me.pc.toNat % 4 = 0 → s.me.pc.toNat + 4 ≤ s.me.segs.ks.len.toNat →
          (∀ x, s.xlate die ctx va { x := true } .mem = .error x → exec .instructionFetchFault s = .next (s.parkScalar s.cur (parkOf ctx va 0 3 x)))
          ∧ (∀ r, s.xlate die ctx va { x := true } .mem = .ok r → r.s.allowed ctx r.pa { x := true } = false →
            exec .instructionFetchFault s
              = .next ((s.logDenied ctx [(r.pa, 3)]).takeTrap s.cur { code := 0x07, sfault := true, epc := some s.me.pc })))
        ∧ (∀ w t, s.fetchScalar s.cur = .got w t → exec .instructionFetchFault s = .next s))
      ∧ (s.ev.flag = true →
        exec .unassignedEncoding s
          = .next (s.takeTrap s.cur { code := 0x01, lfault := true, sideB := s.curB, unitNo := some sd.unitNow, lword := s.curWord })
        ∧ (s.me.segs.kl.len.toNat < 12 * sd.unitNow.toNat + 12 →
          exec .instructionFetchFault s
            = .next (s.takeTrap s.cur { code := 0x06, lfault := true, sideB := s.curB, unitNo := some sd.unitNow }))))
  ∧ ((∀ (s : State) (die ctx va agent : Nat),
      (∀ x, s.xlate die ctx va { x := true } .mem = .error x → s.fetchWord die ctx va agent = .park (parkOf ctx va agent 3 x))
      ∧ (∀ r, s.xlate die ctx va { x := true } .mem = .ok r →
        let busy := r.pol = polREPL ∧ s.replBusy die (r.pa / 128) = true
        let u := r.s.dcOwn die ctx (r.pa / 128)
        let l := u.dcLine (copyDie die r.pol) (r.pa / 128)
        (r.s.allowed ctx r.pa { x := true } = false → s.fetchWord die ctx va agent = .trap 0x07 [(r.pa, 3)])
        ∧ (r.s.allowed ctx r.pa { x := true } = true → busy → s.fetchWord die ctx va agent = .wait)
        ∧ (r.s.allowed ctx r.pa { x := true } = true → ¬busy → ∃ w, s.fetchWord die ctx va agent = .got w u
          ∧ ∀ b < 4,
            (∀ c, l = some c → c.poisoned = false → w.extractLsb' (8 * b) 8 = lineByte c.data (r.pa % 128 + b))
            ∧ (l = none → w.extractLsb' (8 * b) 8 = lineByte (u.sliceRead (r.pa / 128)).1 (r.pa % 128 + b)))))
    ∧ (∀ s : State, s.isRes s.cur = true → s.ev.flag = true →
      let n := (((s.me.laneCtx s.curWin).side s.curB).unitNow).toNat
      let word := fun (u : State) (i : Nat) =>
        u.fetchWord (dieOf (coreOf s.cur)) (s.ctxOf s.cur) ((s.me.segs.kl.base.toNat + 12 * n + 4 * i) % 2 ^ 64) 1
      let stops := fun (f : Fetched W32) =>
        (∀ c d, f = .trap c d → exec .instructionFetchFault s = .next ((s.logDenied (s.ctxOf s.cur) d).takeTrap s.cur
          { code := c, lfault := true, sideB := s.curB, unitNo := some (BitVec.ofNat 32 n) }))
        ∧ (∀ p, f = .park p → exec .instructionFetchFault s = .next (s.parkLane s.cur { p with sideB := s.curB, unitNo := BitVec.ofNat 32 n }))
        ∧ (f = .wait → exec .instructionFetchFault s = .next (s.setStrand s.cur { s.me with waitL := true }))
      12 * n + 12 ≤ s.me.segs.kl.len.toNat →
      stops (word s 0)
      ∧ (∀ w0 s0, word s 0 = .got w0 s0 → stops (word s0 1)
        ∧ ∀ w1 s1, word s0 1 = .got w1 s1 → stops (word s1 2)
          ∧ ∀ w2 s2, word s1 2 = .got w2 s2 → s.fetchUnit s.cur n = .got (w2 ++ w1 ++ w0) s2 ∧ exec .instructionFetchFault s = .next s)))
  ∧ (∀ s : State,
      let sid := s.ev.who
      let st := s.strand sid
      (∀ t, st.entry = some t → st.entryPark = none → exec .trapEntry s = .next (s.enterHandler sid t))
      ∧ (st.condsKnown (s.cycles (coreOf sid)) = true → st.entry = none → st.halt = .none → s.coreStopped (coreOf sid) = false →
        exec .afterCompletionTrap s = .next (s.takeTrap sid { code := 0 }))
      ∧ (∀ (i : Nat) (h : Held), st.csr.ih = false → st.entry = none → st.halt = .none → st.pendC = [] → (s.team st.team).st = .running →
        s.coreStopped (coreOf sid) = false → (∀ p, st.parkS = some p ∨ st.parkL = some p → p.delivered = false) →
        st.held[i]? = some h → (∀ j h', st.held[j]? = some h' → h.code.toNat < h'.code.toNat ∨ h.code = h'.code ∧ i ≤ j) →
        exec .heldCauseTrap s = .next ((s.setStrand sid { st with held := st.held.eraseIdx i }).takeTrap sid
          { code := h.code, tmask := h.tmask, faddr := h.faddr }))
      ∧ (s.isRes sid = true → st.deadlocked = true →
        ∃ (s1 : State) (t : Trap), exec .queueProtocolFault s = .next (s1.takeTrap sid t) ∧ t.code = 0x04 ∧ t.lfault = true ∧ t.sfault = true))

/-- R45, R46, R60, R63, R64, R108, R109, for every scalar instruction with registers that may be queue ports: a port in the wrong direction traps with CODE 0x04 before every other check of operands; else a register that awaits a result makes the stream wait; else an empty port that is read, or one with fewer entries than the instruction takes, and a full port that is written, make it wait in a stall that the lane stream ends. R59, R117, R200: DISP queues a block, in the handler in the trap window; with a full queue it waits. Where a clause rests on a choice of the model and not on a rule of the spec, the choice is that of log entries 26 and 34. -/
def Obligations.QueuePortsAndDispatch : Prop :=
  (∀ (s : State) (i : Instr) (srcs dsts : List (BitVec 6)), s.isRes s.cur = true → portRegs i = some (srcs, dsts) → s.beforePorts i →
      (portsWrong srcs dsts = true → exec i s = .next (s.trapScalar { code := 0x04 }))
      ∧ (portsWrong srcs dsts = false → s.portsBusy srcs dsts = true → exec i s = .next (s.waitScalar none))
      ∧ (portsWrong srcs dsts = false → s.portsBusy srcs dsts = false → ∀ q, s.portStall srcs dsts = some q → exec i s = .next (s.waitScalar (some q))))
  ∧ (∀ (s s1 : State) (d : BitVec 6) (i : BitVec 20) (x : W64), s.isRes s.cur = true → s.source d = some (x, s1) →
      let win := s.me.csr.ih
      let q := (s.me.laneCtx win).dq
      (q.length < (if win then 4 else 16) →
        exec (.disp d i) s = .next ((s1.setStrand s1.cur (s1.me.setLaneCtx win
          { s1.me.laneCtx win with dq := q ++ [x.setWidth 32 + i.setWidth 32] })).endScalar (s.me.pc + 4)))
      ∧ ((if win then 4 else 16) ≤ q.length → exec (.disp d i) s = .next (s.waitScalar (some { port := 8, need := 1 }))))

/-- Frame of the register-only scalar forms (R45, R105, R110 to R112, R116, R122, R124): a destination register other than a port takes the value; every other scalar register, the flags, the lane state, the control registers, the segments, every memory and operand store, and every other strand stay as they were. Ports as sources and destinations are the subject of R45's other statements. -/
def Obligations.RegisterFormsFrame : Prop :=
  ∀ (s s' : State) (d a b : BitVec 6) (i14 : BitVec 14) (g : BitVec 3) (z : BitVec 2) (o : BitVec 8) (x y : W64),
    s.isRes s.cur = true → s.source2 a b = some (x, y, s') → s'.takes d = true → isPush d.toNat = false → isPop a.toNat = false → isPop b.toNat = false →
    ∀ i ∈ [Instr.add d a b, .sub d a b, .mul d a b, .mulh d a b, .mulhn d a b, .and d a b, .or d a b, .xor d a b, .andn d a b, .shl d a b,
        .shr d a b, .sar d a b, .min d a b, .max d a b, .minn d a b, .maxn d a b, .slt d a b, .sltn d a b, .seq d a b, .popc d a, .clz d a, .ctz d a,
        .addi d a i14, .andi d a i14, .ori d a i14, .xori d a i14, .slti d a i14, .shli d a b, .shri d a b, .sari d a b, .lea d a g z o,
        .segrdBase d g, .segrdLen d g],
    ∃ t, exec i s = .next t
      ∧ (∀ r, r ≠ d.toNat → t.me.reg r = s.me.reg r) ∧ t.me.reg 0 = 0
      ∧ t.me.q = s.me.q ∧ t.me.csr = s.me.csr ∧ t.me.segs = s.me.segs ∧ t.me.flags = s.me.flags ∧ t.me.savedFlags = s.me.savedFlags
      ∧ t.me.v = s.me.v ∧ t.me.lane = s.me.lane ∧ t.me.win = s.me.win ∧ t.me.held = s.me.held ∧ t.me.pendC = s.me.pendC
      ∧ (∀ sid, sid ≠ s.cur → t.strand sid = s.strand sid)
      ∧ (∀ p, memByte t.hbm p = memByte s.hbm p) ∧ (∀ p, memByte t.hostMem p = memByte s.hostMem p)
      ∧ t.os = s.os ∧ t.osLines = s.osLines ∧ t.dc = s.dc ∧ t.tileVal = s.tileVal ∧ t.bars = s.bars

/-- R46, R53, R54, R58, R64, R141, R142: what a lane instruction reads: an ordinary register of its own lane, the popped entry of q0 to q3 in every lane, laneid, zero, lstat, an immediate; the faults of register numbers, and the entries that its ports must hold before it issues. A long instruction with Active empty reads nothing. Where a clause rests on a choice of the model and not on a rule of the spec, the choice is that of log entry 61. -/
def Obligations.LaneOperands : Prop :=
  ∀ (s : State) (x : LaneIn) (w : LaneW) (r : BitVec 10),
    (x.idle = true → readV x r s = .ok ((fun _ => 0), s))
    ∧ (x.idle = false →
      (r.toNat < 960 → (∀ L, s.me.vpois.contains (vKey r.toNat L) = false) →
        readV x r s = .ok ((fun L => mget s.me.v (vKey r.toNat L) 0), s))
      ∧ (∀ i e es, r.toNat = 960 + i → i < 4 → s.me.queue i = e :: es →
          readV x r s = .ok ((fun _ => e.setWidth 32), s.setStrand s.cur (s.me.setQueue i es)))
      ∧ (∀ i, r.toNat = 960 + i → i < 4 → s.me.queue i = [] → readV x r s = .error (.wait (some { port := i, need := 1 })))
      ∧ readV x 968 s = .ok ((fun L => BitVec.ofNat 32 L), s) ∧ readV x 969 s = .ok ((fun _ => 0), s)
      ∧ readV x 970 s = .ok ((fun L => mget s.me.v (lstatKey L) 0), s))
    ∧ (w.im = 1 → readB x w s = .ok ((fun _ => w.low), s)) ∧ (w.im = 0 → readB x w s = readV x w.vb s)
    ∧ (∀ srcs dsts : List (BitVec 10),
        let need := fun i => srcs.countP fun k => k.toNat == 960 + i
        laneRegs x srcs dsts s =
          if ∃ k ∈ srcs ++ dsts, s.me.budget ≤ k.toNat ∧ k.toNat < 960 then .error (.trap { code := 0x03 } [])
          else if (∃ k ∈ srcs, 964 ≤ k.toNat ∧ k.toNat < 968) ∨ (∃ k ∈ dsts, 960 ≤ k.toNat ∧ k.toNat < 964) then .error (.trap { code := 0x04 } [])
          else if (968 : BitVec 10) ∈ dsts then .error (.trap { code := 0x05 } [])
          else if x.idle = true then .ok ((), s)
          else match (List.range 4).find? fun i => decide ((s.me.queue i).length < need i) with
            | some i => .error (.wait (some { port := i, need := need i }))
            | none => .ok ((), s))

/-- R157, R167 to R169: NOP, MOV, SEL and the bitwise instructions. -/
def Obligations.LaneBitwiseResults : Prop :=
  ∀ (s u : State) (w : LaneW) (a b : Nat → W32),
    (s.laneMay w → exec (.laneNop w) s = .next (s.laneNext w (s.laneStart w)))
    ∧ (s.laneHas w [w.vb] [w.vd] (rdB w) b u → exec (.mov w) s = .next (s.laneVals w u 2 b))
    ∧ (s.laneHas w [w.va, w.vb] [w.vd] (rdAB w) (a, b) u →
      let gives := fun (i : Instr) (f : W32 → W32 → W32) => exec i s = .next (s.laneVals w u 2 fun L => f (a L) (b L))
      exec (.sel w) s = .next (s.laneVals w u 2 fun L => if u.me.pred w.vc.toNat L = true then a L else b L)
      ∧ gives (.laneAnd w) (· &&& ·) ∧ gives (.laneOr w) (· ||| ·) ∧ gives (.laneXor w) (· ^^^ ·)
      ∧ gives (.laneShl w) (fun p q => p <<< (q.extractLsb' 0 5).toNat) ∧ gives (.laneShr w) (fun p q => p >>> (q.extractLsb' 0 5).toNat)
      ∧ gives (.laneSar w) (fun p q => p.sshiftRight (q.extractLsb' 0 5).toNat))
    ∧ (s.laneHas w [w.va] [w.vd] (rdA w) a u →
      let gives := fun (i : Instr) (f : W32 → W32) => exec i s = .next (s.laneVals w u 2 fun L => f (a L))
      gives (.lanePopc w) (fun p => BitVec.ofNat 32 ((List.range 32).countP fun i => p.getLsbD i))
      ∧ gives (.laneClz w) (fun p => BitVec.ofNat 32 (if p = 0 then 32 else 31 - p.toNat.log2))
      ∧ gives (.brev w) BitVec.reverse
      ∧ (bfPos w + bfLen w ≤ 32 → 1 ≤ bfLen w →
        gives (.bfe w) (fun p => let f := p.extractLsb' (bfPos w) (bfLen w)
                                 if w.aux.getLsbD 11 = true then f.signExtend 32 else f.setWidth 32)))
    ∧ (s.laneHas w [w.va, w.vb] [w.vd] (rdV w) (a, b) u → bfPos w + bfLen w ≤ 32 → 1 ≤ bfLen w →
      ∃ f, exec (.bfi w) s = .next (s.laneVals w u 2 f)
        ∧ ∀ L i, (f L).getLsbD i = if bfPos w ≤ i ∧ i < bfPos w + bfLen w then (a L).getLsbD (i - bfPos w) else (b L).getLsbD i)

/-- R20, R28, R162 to R165: integer arithmetic in the type of the instruction: wrapping, high half, multiply-add, saturation, division with its conditions. -/
def Obligations.LaneIntegerResults : Prop :=
  ∀ (s u : State) (w : LaneW) (a b c : Nat → W32),
    let t := w.ty.toNat
    let n := 8 * tyBytes t
    let v := fun f L => tyInt t (f L)
    (s.laneHas w [w.va, w.vb] [w.vd] (rdAB w) (a, b) u →
      let gives := fun (i : Instr) (lat : Nat) (f : Int → Int → Int) => exec i s = .next (s.laneVals w u lat fun L => intRes t (f (v a L) (v b L)))
      gives (.iadd w) 2 (· + ·) ∧ gives (.isub w) 2 (· - ·) ∧ gives (.imul w) 4 (· * ·)
      ∧ gives (.imulh w) 4 (fun p q => p * q / 2 ^ n) ∧ gives (.imin w) 2 min ∧ gives (.imax w) 2 max
      ∧ gives (.iadds w) 2 (fun p q => max (tyMin t) (min (tyMax t) (p + q)))
      ∧ gives (.isubs w) 2 (fun p q => max (tyMin t) (min (tyMax t) (p - q)))
      ∧ (tySigned t = true →
        exec (.idiv w) s = .next (s.laneEach w u 7 fun L => let r := sdivR n (v a L) (v b L); (intRes t r.1, r.2))
        ∧ exec (.irem w) s = .next (s.laneEach w u 7 fun L => let r := sremR n (v a L) (v b L); (intRes t r.1, r.2)))
      ∧ (tySigned t = false →
        exec (.idiv w) s = .next (s.laneEach w u 7 fun L =>
          if v b L = 0 then (intRes t (2 ^ n - 1), cIDZ) else (intRes t (v a L / v b L), 0))
        ∧ exec (.irem w) s = .next (s.laneEach w u 7 fun L =>
          if v b L = 0 then (intRes t (v a L), cIDZ) else (intRes t (v a L % v b L), 0))))
    ∧ (s.laneHas w [w.va, w.vb, w.vc] [w.vd] (rdABC w) (a, b, c) u →
      exec (.imad w) s = .next (s.laneVals w u 4 fun L => intRes t (v a L * v b L + v c L)))
    ∧ (s.laneHas w [w.va] [w.vd] (rdA w) a u → exec (.iabs w) s = .next (s.laneVals w u 2 fun L => intRes t ((v a L).natAbs : Int)))
    ∧ (∀ p q : Int, q ≠ 0 → ¬(p = -2 ^ (n - 1) ∧ q = -1) → sdivR n p q = (p.tdiv q, 0) ∧ sremR n p q = (p.tmod q, 0))
    ∧ (∀ p : Int, sdivR n p 0 = (if 0 ≤ p then 2 ^ (n - 1) - 1 else -2 ^ (n - 1), cIDZ) ∧ sremR n p 0 = (p, cIDZ))
    ∧ sdivR n (-2 ^ (n - 1)) (-1) = (-2 ^ (n - 1), cIOV) ∧ sremR n (-2 ^ (n - 1)) (-1) = (0, cIOV)

/-- R152, R166, R170 to R172: comparisons, predicate arithmetic, moves between predicates and registers, KBAL. -/
def Obligations.LanePredicateResults : Prop :=
  ∀ (s u : State) (w : LaneW) (a b : Nat → W32),
    let t := w.ty.toNat
    let fm := fmtOf t
    let p := (s.laneStart w).me.pred
    (s.laneHas w [w.va, w.vb] [] (rdAB w) (a, b) u →
      exec (.icmp w) s = .next (s.lanePreds w u 2 fun L => (relHolds w.md.toNat (compare (tyInt t (a L)) (tyInt t (b L))), 0))
      ∧ exec (.fcmp w) s = .next (s.lanePreds w u 4 fun L =>
          fcmpF w.md.toNat (decodeF fm (modA fm false w (a L))) (decodeF fm (modB fm false w (b L)))))
    ∧ (s.laneMay w →
      let gives := fun (i : Instr) (f : Bool → Bool → Bool) =>
        exec i s = .next (s.lanePreds w (s.laneStart w) 2 fun L => (f (p w.va.toNat L) (p w.vb.toNat L), 0))
      gives (.kand w) and ∧ gives (.kor w) or ∧ gives (.kxor w) xor ∧ gives (.knot w) (fun x _ => !x) ∧ gives (.kmov w) (fun x _ => x))
    ∧ (s.laneHas w [w.va] [] (rdA w) a u → exec (.kmovV w) s = .next (s.lanePreds w u 2 fun L => (a L != 0, 0)))
    ∧ (s.laneHas w [] [w.vd] rdNone () u →
      exec (.kmovK w) s = .next (s.laneVals w u 2 fun L => if p w.va.toNat L = true then 1 else 0)
      ∧ exec (.kbal w) s = .next (s.laneVals w u 6 fun _ =>
          let m := s.act w &&& (s.laneStart w).me.predMask w.va.toNat
          if w.md = 0 then m.extractLsb' 0 32 else if w.md = 1 then m.extractLsb' 32 32
          else BitVec.ofNat 32 ((List.range 64).countP fun i => m.getLsbD i)))
    ∧ (∀ x y : Int, relHolds 0 (compare x y) = decide (x = y) ∧ relHolds 1 (compare x y) = decide (x ≠ y) ∧ relHolds 2 (compare x y) = decide (x < y)
      ∧ relHolds 3 (compare x y) = decide (x ≤ y) ∧ relHolds 4 (compare x y) = decide (y < x) ∧ relHolds 5 (compare x y) = decide (y ≤ x))

/-- R150, R151, R153 to R156: floating-point arithmetic: sources under their modifiers as exact data, the exact result rounded once, the conditions of its lane. R22 to R26, R150 to R152, R156: the arithmetic that the floating-point instructions share: exact sums and products with the signs of IEEE 754, invalid operations and NaN operands; one rounding by the mode, with overflow, saturation into the 8-bit formats, tininess after rounding and .ftz; comparisons; the smaller and the larger. Where a clause rests on a choice of the model and not on a rule of the spec, the choice is that of log entry 19. -/
def Obligations.LaneFloatResults : Prop :=
  (∀ (s u : State) (w : LaneW) (a b c : Nat → W32),
      let t := w.ty.toNat
      let fm := fmtOf t
      let z := mdFtz w
      let A := fun L => decodeF fm (modA fm z w (a L))
      let B := fun L => decodeF fm (modB fm z w (b L))
      let C := fun L => decodeF fm (flushIn fm z (c L).toNat)
      (s.laneHas w [w.va, w.vb] [w.vd] (rdAB w) (a, b) u →
        let gives := fun (i : Instr) (f : Nat → Fv × Conds) => exec i s = .next (s.laneEach w u 4 fun L => roundRes w (f L))
        gives (.fadd w) (fun L => addF (mdRm w) (A L) (B L)) ∧ gives (.fsub w) (fun L => addF (mdRm w) (A L) (negF (B L)))
        ∧ gives (.fmul w) (fun L => mulF (A L) (B L))
        ∧ exec (.fmin w) s = .next (s.laneEach w u 4 fun L => fpRes t (minMaxF fm false (w.md.getLsbD 0) (modA fm false w (a L)) (modB fm false w (b L))))
        ∧ exec (.fmax w) s = .next (s.laneEach w u 4 fun L => fpRes t (minMaxF fm true (w.md.getLsbD 0) (modA fm false w (a L)) (modB fm false w (b L))))
        ∧ exec (.fscale w) s = .next (s.laneEach w u 4 fun L =>
            if isNan (A L) = true then fpRes t (fm.nanBits, if isSig (A L) = true then cINV else 0) else roundRes w (scaleF (A L) (b L).toInt, 0)))
      ∧ (s.laneHas w [w.va, w.vb, w.vc] [w.vd] (rdABC w) (a, b, c) u →
        exec (.ffma w) s = .next (s.laneEach w u 4 fun L => roundRes w (fmaF (mdRm w) (A L) (B L) (C L)))
        ∧ exec (.fdot2 w) s = .next (s.laneEach w u 5 fun L =>
            let h := fun i => mulF (decodeF fm (modA fm z w (half i (a L)))) (decodeF fm (modB fm z w (half i (b L))))
            let r := dotSum (mdRm w) [(h 0).1, (h 1).1, decodeF f32 (flushIn f32 z (c L).toNat)]
            let e := encodeF f32 (mdRm w) false z r.1
            (BitVec.ofNat 32 e.1, e.2 ||| r.2 ||| (h 0).2 ||| (h 1).2)))
      ∧ (s.laneHas w [w.va] [w.vd] (rdA w) a u →
        exec (.fclass w) s = .next (s.laneVals w u 4 fun L => BitVec.ofNat 32 (2 ^ classOf fm (modA fm false w (a L))))
        ∧ exec (.frnd w) s = .next (s.laneEach w u 4 fun L =>
            match A L with
            | .nan sig => fpRes t (fm.nanBits, if sig = true then cINV else 0)
            | .inf _ => fpRes t (modA fm z w (a L), 0)
            | .fin neg m e =>
              if 0 ≤ e then fpRes t (modA fm z w (a L), 0)
              else fpRes t ((encodeF fm 0 false false (.fin neg (toIntF (mdRm w) neg m e).1.natAbs 0)).1, 0))))
  ∧ (∀ (t rm : Nat), t ≤ 4 → rm < 4 →
      let fm := fmtOf t
      let sgn : Bool → Int → Int := fun n v => if n then -v else v
      let at' : Bool → Nat → Int → Int → Int := fun n m e q => sgn n ((m * 2 ^ (e - q).toNat : Nat) : Int)
      (∀ x y : Fv, isNan x = true ∨ isNan y = true →
        let c := if isSig x = true ∨ isSig y = true then cINV else 0
        addF rm x y = (.nan false, c) ∧ mulF x y = (.nan false, c))
      ∧ (∀ (p q : Bool) (m : Nat) (e : Int),
        addF rm (.inf p) (.inf q) = (if p = q then (.inf p, 0) else (.nan false, cINV))
        ∧ addF rm (.inf p) (.fin q m e) = (.inf p, 0) ∧ addF rm (.fin q m e) (.inf p) = (.inf p, 0)
        ∧ mulF (.inf p) (.inf q) = (.inf (p != q), 0)
        ∧ (m ≠ 0 → mulF (.inf p) (.fin q m e) = (.inf (p != q), 0) ∧ mulF (.fin q m e) (.inf p) = (.inf (q != p), 0))
        ∧ mulF (.inf p) (.fin q 0 e) = (.nan false, cINV) ∧ mulF (.fin q 0 e) (.inf p) = (.nan false, cINV))
      ∧ (∀ (na nb : Bool) (ma mb : Nat) (ea eb : Int),
        let q := min ea eb
        let v := at' na ma ea q + at' nb mb eb q
        addF rm (.fin na ma ea) (.fin nb mb eb)
            = (if v = 0 then (.fin (if ma = 0 ∧ mb = 0 ∧ na = nb then na else rm == 2) 0 0, 0) else (.fin (decide (v < 0)) v.natAbs q, 0))
        ∧ mulF (.fin na ma ea) (.fin nb mb eb) = (.fin (na != nb) (ma * mb) (ea + eb), 0)
        ∧ (fcmpF 0 (.fin na ma ea) (.fin nb mb eb)).1 = decide (at' na ma ea q = at' nb mb eb q)
        ∧ (fcmpF 2 (.fin na ma ea) (.fin nb mb eb)).1 = decide (at' na ma ea q < at' nb mb eb q)
        ∧ (fcmpF 4 (.fin na ma ea) (.fin nb mb eb)).1 = decide (at' nb mb eb q < at' na ma ea q))
      ∧ (∀ a b c : Fv, fmaF rm a b c = ((addF rm (mulF a b).1 c).1, (mulF a b).2 ||| (addF rm (mulF a b).1 c).2))
      ∧ (∀ l : List Fv, dotSum rm l = ((sumF rm l).1, (sumF rm l).2 ||| (if Fv.inf false ∈ l ∧ Fv.inf true ∈ l then cINV else 0)))
      ∧ (∀ x y : Fv, isNan x = false → isNan y = false →
        let r := fun c => fcmpF c x y
        (∀ c < 8, (r c).2 = 0)
        ∧ (r 1).1 = !(r 0).1 ∧ (r 3).1 = ((r 2).1 || (r 0).1) ∧ (r 5).1 = ((r 4).1 || (r 0).1) ∧ (r 6).1 = false ∧ (r 7).1 = true)
      ∧ (∀ p x, isNan x = false → (fcmpF 2 (.inf p) x).1 = (p && x != .inf true) ∧ (fcmpF 4 (.inf p) x).1 = (!p && x != .inf false)
        ∧ (fcmpF 0 (.inf p) x).1 = (x == .inf p) ∧ (fcmpF 2 x (.inf p)).1 = (!p && x != .inf false))
      ∧ (∀ x y : Fv, isNan x = true ∨ isNan y = true →
        ∀ c < 8, fcmpF c x y = (c == 1 || c == 6, if isSig x = true ∨ isSig y = true ∨ (2 ≤ c ∧ c < 6) then cINV else 0))
      ∧ (∀ (isMax num : Bool) (a b : Nat),
        let x := decodeF fm a
        let y := decodeF fm b
        let c := if isSig x = true ∨ isSig y = true then cINV else 0
        let r := minMaxF fm isMax num a b
        (isNan x = true → isNan y = true → r = (fm.nanBits, c))
        ∧ (isNan x = true → isNan y = false → r = (if num = true then b else fm.nanBits, c))
        ∧ (isNan x = false → isNan y = true → r = (if num = true then a else fm.nanBits, c))
        ∧ (isNan x = false → isNan y = false →
          let lower := fun u v : Fv => (fcmpF 2 u v).1 = true ∨ ((fcmpF 0 u v).1 = true ∧ isNeg u = true ∧ isNeg v = false)
          r = (if isMax = true then (if lower x y then b else a) else (if lower y x then b else a), 0)))
      ∧ (∀ ovf ftz sig, encodeF fm rm ovf ftz (.nan sig) = (fm.nanBits, if sig = true then cINV else 0))
      ∧ (∀ ovf ftz neg e, encodeF fm rm ovf ftz (.fin neg 0 e) = (fm.signBit neg, 0))
      ∧ (∀ ovf ftz neg, encodeF fm rm ovf ftz (.inf neg) =
          if fm.fp8 = false then (fm.signBit neg + fm.infBits, 0)
          else if ovf = false then (fm.signBit neg + fm.maxBits, cOVF ||| cINX)
          else if fm.e4 = true then (fm.nanBits, cOVF ||| cINV) else (fm.signBit neg + fm.infBits, cOVF))
      ∧ (∀ (ovf ftz neg : Bool) (m : Nat) (e : Int), m ≠ 0 →
        let top : Int := e + m.log2
        let emin : Int := 1 - fm.bias
        let whole := fun q : Int => m * 2 ^ (e - q).toNat / 2 ^ (q - e).toNat
        let rest := fun q : Int => m * 2 ^ (e - q).toNat % 2 ^ (q - e).toNat
        let up := fun q : Int =>
          if rm = 0 then 2 ^ (q - e).toNat < 2 * rest q ∨ (2 * rest q = 2 ^ (q - e).toNat ∧ whole q % 2 = 1)
          else rest q ≠ 0 ∧ ((rm = 2 ∧ neg = true) ∨ (rm = 3 ∧ neg = false))
        let rnd := fun q : Int => if up q then whole q + 1 else whole q
        let q := max top emin - fm.fbits
        let bits := (q - fm.qmin).toNat * 2 ^ fm.fbits + rnd q
        let tiny := rnd (top - fm.fbits) < 2 ^ (emin - (top - fm.fbits)).toNat ∧ top < emin
        let c := if rest q = 0 then 0 else if tiny then cUNF ||| cINX else cINX
        encodeF fm rm ovf ftz (.fin neg m e) =
          if fm.maxBits < bits then
            if fm.fp8 = true then
              if ovf = false then (fm.signBit neg + fm.maxBits, cOVF ||| cINX)
              else if fm.e4 = true then (fm.nanBits, cOVF ||| cINV) else (fm.signBit neg + fm.infBits, cOVF ||| cINX)
            else (fm.signBit neg + (if rm = 0 ∨ (rm = 2 ∧ neg = true) ∨ (rm = 3 ∧ neg = false) then fm.infBits else fm.maxBits), cOVF ||| cINX)
          else if ftz = true ∧ 0 < bits ∧ bits < 2 ^ fm.fbits then (fm.signBit neg, c ||| cUNF ||| cINX)
          else (fm.signBit neg + bits, c)))

/-- R25, R27, R29, R31 to R33, R158 to R161: conversions; CVTEF, PACKQ4 and UNPACKQ4 with their groups of 32 lanes. R20 to R23, R25, R27, R29, R31 to R33, R158: what conversions compute. A float to an integer: one rounding by the mode, saturation with INV and a NaN as 0, INX where the rounding changed the value and the result is in range; every pair of types of CVT. Error feedback: the sum, the narrowing that saturates, the residue. Q4X: the decoded elements of a block, of a NaN block and of a malformed one; the scale exponent of an encoded block, the least under which at most two elements are above 7 units, its outliers, codes, tails and conditions; the residue. Where a clause rests on a choice of the model and not on a rule of the spec, the choice is that of log entries 21, 65 and 71. -/
def Obligations.LaneConversions : Prop :=
  (∀ (s u : State) (w : LaneW) (a b e : Nat → W32),
      let t := w.ty.toNat
      let fm := fmtOf t
      let st := (w.aux.extractLsb' 0 4).toNat
      let m := s.act w
      let gs := q4Groups m
      let heads : W64 := maskOf fun L => gs.contains (L / 32) && L % 32 == 0
      let block : W64 := maskOf fun L => gs.contains (L / 32) && L % 32 < 5
      (s.laneHas w [w.va] [w.vd] (rdA w) a u →
        exec (.cvt w) s = .next (s.laneEach w u 4 fun L => cvtOne st t (mdRm w) (mdFtz w) (mdOvf w) (a L)))
      ∧ (veCheck w.ve w.vd (s.laneStart w) = .ok ((), s.laneStart w) →
        (s.laneHas w [w.va] [w.vd] (fun x => do return (← readV x w.va, ← readV x w.ve)) (a, e) u →
          let r := fun L => errFeedback fm (mdOvf w) (a L).toNat (e L).toNat
          let u1 := u.setStrand u.cur (u.me.pend (s.laneIn w) u.curWord u.stepNo 4 (destWrites w.vd m fun L => extTy t (r L).1)
            ((lanesOf m).map fun L => { lane := L, bits := (r L).2.2 }))
          exec (.cvtef w) s = .next (s.laneGives w u1 4 (destWrites w.ve m fun L => BitVec.ofNat 32 (r L).2.1) []))
        ∧ (s.laneHas w [w.va, w.vb] [w.vd]
            (fun x => do return (← readV x w.va, ← readV { x with active := heads } w.vb, ← readV x w.ve)) (a, b, e) u →
          roomFor w.vd block u = .ok ((), u) → (∀ g ∈ gs, normal32 (b (32 * g)).toNat = true) →
          let inp := fun L => if m.getLsbD L = true then (add32 (a L).toNat (e L).toNat).1 else 0
          let enc := fun g => q4Encode ((List.range 32).map fun i => inp (32 * g + i)) (b (32 * g)).toNat
          let u1 := u.setStrand u.cur (u.me.pend (s.laneIn w) u.curWord u.stepNo 6
            (destWrites w.vd block fun L => BitVec.ofNat 32 ((enc (L / 32)).blk / 2 ^ (32 * (L % 32))))
            ((lanesOf m).map fun L => { lane := L, bits := (enc (L / 32)).conds.getD (L % 32) 0 }))
          exec (.packq4 w) s = .next (s.laneGives w u1 6 (destWrites w.ve m fun L =>
            BitVec.ofNat 32 (if (enc (L / 32)).bad = true then 0 else q4Residue (inp L) ((enc (L / 32)).vals.getD (L % 32) (.nan false)))) [])))
      ∧ (s.laneHas w [w.va, w.vb] [w.vd]
          (fun x => do return (← readV { x with active := block } w.va, ← readB { x with active := heads } w)) (a, b) u →
        (∀ g ∈ gs, normal32 (b (32 * g)).toNat = true) →
        let dec := fun g => q4Decode ((List.range 5).foldl (fun v j => v + (a (32 * g + j)).toNat * 2 ^ (32 * j)) 0 % 2 ^ 144) (decodeF f32 (b (32 * g)).toNat)
        exec (.unpackq4 w) s = .next (s.laneEach w u 6 fun L =>
          let d := dec (L / 32)
          if d.bad = true then (extTy t fm.nanBits, cQMAL) else fpRes t (encodeF fm 0 false false (d.vals.getD (L % 32) (.nan false))))))
  ∧ ((∀ (rm n : Nat) (signed : Bool), rm < 4 → n = 8 ∨ n = 16 ∨ n = 32 →
      let lo : Int := if signed = true then -(2 ^ (n - 1)) else 0
      let hi : Int := if signed = true then 2 ^ (n - 1) - 1 else 2 ^ n - 1
      let f := floatToInt rm n signed
      (∀ sig, f (.nan sig) = (0, cINV)) ∧ f (.inf true) = (lo, cINV) ∧ f (.inf false) = (hi, cINV)
      ∧ ∀ (neg : Bool) (m : Nat) (e : Int),
        let p := m * 2 ^ e.toNat
        let d := 2 ^ (-e).toNat
        let up := if rm = 0 then d < 2 * (p % d) ∨ (2 * (p % d) = d ∧ p / d % 2 = 1) else p % d ≠ 0 ∧ ((rm = 2 ∧ neg = true) ∨ (rm = 3 ∧ neg = false))
        let k : Int := ((if up then p / d + 1 else p / d : Nat) : Int)
        let v := if neg = true then -k else k
        f (.fin neg m e) = if v < lo then (lo, cINV) else if hi < v then (hi, cINV) else (v, if p % d ≠ 0 then cINX else 0))
    ∧ (∀ (st dt rm : Nat) (ftz ovf : Bool) (a : W32), st ≤ 10 → dt ≤ 10 → rm < 4 →
      let n := 8 * tyBytes st
      let k := 8 * tyBytes dt
      let x := a.toNat % 2 ^ n
      let v : Int := if tySigned st = true then (BitVec.ofNat n x).toInt else (x : Int)
      let y := if ftz = true ∧ isSubnormal (fmtOf st) x = true then x / 2 ^ (n - 1) * 2 ^ (n - 1) else x
      let int : Int → W32 := fun r => if tySigned dt = true then (BitVec.ofInt k r).signExtend 32 else (BitVec.ofInt k r).setWidth 32
      let flt : Nat × Conds → W32 × Conds := fun r => (BitVec.ofNat 32 (r.1 % 2 ^ k), r.2)
      let r := cvtOne st dt rm ftz ovf a
      (st ≤ 4 → dt ≤ 4 → r = flt (encodeF (fmtOf dt) rm ovf (ftz && dt != 3 && dt != 4) (decodeF (fmtOf st) y)))
      ∧ (st ≤ 4 → 4 < dt → r = (int (floatToInt rm k (tySigned dt) (decodeF (fmtOf st) y)).1, (floatToInt rm k (tySigned dt) (decodeF (fmtOf st) y)).2))
      ∧ (4 < st → dt ≤ 4 → r = flt (encodeF (fmtOf dt) rm ovf false (.fin (decide (v < 0)) v.natAbs 0)))
      ∧ (4 < st → 4 < dt → r = (int v, 0)))
    ∧ (∀ (t : Nat) (ovf : Bool) (x e : Nat), 1 ≤ t → t ≤ 4 →
      let f := fmtOf t
      let round := fun v : Fv => (encodeF f32 0 false false v).1
      let sum := addF 0 (decodeF f32 x) (decodeF f32 e)
      let s := decodeF f32 (round sum.1)
      let spill := ovf && f.fp8
      let r := errFeedback f ovf x e
      (isNan s = true → r = (f.nanBits, 0, sum.2))
      ∧ (∀ neg, s = .inf neg → r = if spill = false then (f.signBit neg + f.maxBits, 0, cOVF ||| cINX)
          else if f.e4 = true then (f.nanBits, 0, cOVF ||| cINV) else (f.signBit neg + f.infBits, 0, cOVF))
      ∧ (∀ neg m ex, s = .fin neg m ex →
        let y := encodeF f 0 spill false s
        let big := f.signBit neg + f.maxBits
        (y.2 &&& cOVF = 0 → r = (y.1, round (addF 0 s (negF (decodeF f y.1))).1, y.2 &&& cINX))
        ∧ (y.2 &&& cOVF ≠ 0 → spill = false → r = (big, round (addF 0 s (negF (decodeF f big))).1, cOVF ||| cINX))
        ∧ (y.2 &&& cOVF ≠ 0 → spill = true → r = (y.1, 0, y.2))))
    ∧ (∀ neg m e, negF (.fin neg m e) = .fin (!neg) m e)
    ∧ (∀ (blk mb : Nat) (eb : Int),
      let E : Nat := blk / 2 ^ 128 % 256
      let tail := blk / 2 ^ 136 % 256
      let nib := fun i => blk / 2 ^ (4 * i) % 16
      let pair := fun i => if i % 2 = 0 then i + 1 else i - 1
      let ms := (List.range 32).filter fun i => nib i == 8
      let r := q4Decode blk (.fin false mb eb)
      let s := eb + ((E : Int) - 127)
      let malformed := 2 < ms.length ∨ ∃ i ∈ ms, pair i ∈ ms
      (E = 255 → r.bad = false ∧ ∀ i < 32, r.vals[i]? = some (.nan false))
      ∧ (E ≠ 255 → malformed → r.bad = true ∧ ∀ i < 32, r.vals[i]? = some (.nan false))
      ∧ (E ≠ 255 → ¬ malformed → r.bad = false ∧ ∀ i < 32,
        (i ∈ ms → ∀ t : Nat, ((∀ j ∈ ms, i ≤ j) → t = tail % 16) → ((∃ j ∈ ms, j < i) → t = tail / 16) →
          (∀ (n : Bool) (m : Nat) (e : Int), decodeF (fmtOf 3) (nib (pair i) * 16 + t) = .fin n m e → r.vals[i]? = some (.fin n (m * mb) (e + s)))
          ∧ (decodeF (fmtOf 3) (nib (pair i) * 16 + t) = .nan false → r.vals[i]? = some (.nan false)))
        ∧ (i ∉ ms → pair i ∈ ms → r.vals[i]? = some (.fin false 0 0))
        ∧ (i ∉ ms → pair i ∉ ms →
          let c := (BitVec.ofNat 4 (nib i)).toInt
          r.vals[i]? = some (if c = 0 then .fin false 0 0 else .fin (decide (c < 0)) (c.natAbs * mb) s))))
    ∧ (∀ (xs : List Nat) (b mb : Nat) (eb : Int), xs.length = 32 → decodeF f32 b = .fin false mb eb → mb ≠ 0 →
      let v := fun i => decodeF f32 (xs.getD i 0)
      let r := q4Encode xs b
      ((∃ i < 32, isFin (v i) = false) →
        r = { blk := 0xFF * 2 ^ 128, conds := List.replicate 32 cINV, vals := List.replicate 32 (.nan false), bad := true })
      ∧ (∀ (n : Nat → Bool) (m : Nat → Nat) (ex : Nat → Int), (∀ i < 32, v i = .fin (n i) (m i) (ex i)) →
        let above := fun (E i : Nat) => let q := min (ex i) (eb + ((E : Int) - 127)); 7 * mb * 2 ^ (eb + ((E : Int) - 127) - q).toNat < m i * 2 ^ (ex i - q).toNat
        let less := fun (i j : Nat) => let q := min (ex i) (ex j); m i * 2 ^ (ex i - q).toNat < m j * 2 ^ (ex j - q).toNat
        let E : Nat := r.blk / 2 ^ 128 % 256
        let nib := fun i => r.blk / 2 ^ (4 * i) % 16
        let pair := fun i => if i % 2 = 0 then i + 1 else i - 1
        r.bad = false ∧ r.blk < 2 ^ 144 ∧ r.vals = (q4Decode r.blk (.fin false mb eb)).vals
        ∧ 1 ≤ E ∧ E ≤ 254
        ∧ (E < 254 → ∀ i j k, i < j → j < k → k < 32 → ¬(above E i ∧ above E j ∧ above E k))
        ∧ (∀ F, 1 ≤ F → F < E → ∃ i j k, i < j ∧ j < k ∧ k < 32 ∧ above F i ∧ above F j ∧ above F k)
        ∧ (∀ i1 i2, i1 < 32 → i2 < 32 → i1 ≠ i2 → (∀ j < 32, ¬ less i1 j ∧ (j < i1 → less j i1)) → (∀ j < 32, j ≠ i1 → ¬ less i2 j ∧ (j < i2 → less j i2)) →
          let out := fun i => (i = i1 ∧ above E i1) ∨ (i = i2 ∧ above E i2 ∧ i2 ≠ pair i1)
          let c := fun i => min (ex i) (eb + ((E : Int) - 127))
          let p := fun i => m i * 2 ^ (ex i - c i).toNat
          let q := fun i => mb * 2 ^ (eb + ((E : Int) - 127) - c i).toNat
          let o := fun i => encodeF (fmtOf 3) 0 false false (.fin (n i) (2 * (p i * 2 ^ 24 / q i) + if p i * 2 ^ 24 % q i = 0 then 0 else 1) (-25))
          let k := fun i => p i / q i + if q i < 2 * (p i % q i) ∨ (2 * (p i % q i) = q i ∧ p i / q i % 2 = 1) then 1 else 0
          (∀ i < 32,
            (out i → nib i = 8 ∧ nib (pair i) = (o i).1 / 16)
            ∧ (¬ out i → ¬ out (pair i) → nib i = (BitVec.ofInt 4 (if n i = true then -((min (k i) 7 : Nat) : Int) else ((min (k i) 7 : Nat) : Int))).toNat)
            ∧ (let inx := if (fcmpF 0 (r.vals.getD i (.nan false)) (v i)).1 = true then 0 else cINX
               (out i → r.conds[i]? = some (((o i).2 &&& cOVF) ||| inx))
               ∧ (¬ out i → out (pair i) → r.conds[i]? = some inx)
               ∧ (¬ out i → ¬ out (pair i) → r.conds[i]? = some ((if 7 < k i then cOVF else 0) ||| inx))))
          ∧ ((∀ i < 32, ¬ out i) → r.blk / 2 ^ 136 = 0)
          ∧ (∀ i < 32, out i → (∀ j < 32, out j → j = i) → r.blk / 2 ^ 136 = (o i).1 % 16)
          ∧ (∀ i j, i < j → j < 32 → out i → out j → r.blk / 2 ^ 136 = (o i).1 % 16 + 16 * ((o j).1 % 16)))))
    ∧ (∀ (s : Nat) (d : Fv),
      (isFin (decodeF f32 s) = true → isFin d = true → q4Residue s d = (encodeF f32 0 false false (addF 0 (decodeF f32 s) (negF d)).1).1)
      ∧ (isFin (decodeF f32 s) = false ∨ isFin d = false → q4Residue s d = 0))
    ∧ (∀ x y : Nat, (add32 x y).1 = (encodeF f32 0 false false (addF 0 (decodeF f32 x) (decodeF f32 y)).1).1))

/-- R54, R173, R174: a special-function instruction issues into the queue of 16: its values and conditions are those of its issue, and come with its completion. R174 to R176: the special functions: the special inputs; EXP2 of an integer, LOG2 of a power of two, RSQ of an even power of two; RCP and SQRT rounded once, from the quotient and the root to which a bit for what is left is added; TANH from 9.1 on. Every other result is within the bound of the function about the reference value that the model computes (log entry 3), raises INX, and UNF where it is subnormal or zero. Where a clause rests on a choice of the model and not on a rule of the spec, the choice is that of log entry 3. -/
def Obligations.SpecialFunctionIssue : Prop :=
  (∀ (s u : State) (w : LaneW) (a : Nat → W32) (n : Nat) (op : LaneOp) (i : Instr),
      (n, op, i) ∈ [(0, LaneOp.exp2, Instr.exp2 w), (1, .log2, .log2 w), (2, .rcp, .rcp w), (3, .rsq, .rsq w), (4, .sqrt, .sqrt w), (5, .sin, .sin w),
        (6, .cos, .cos w), (7, .tanh, .tanh w)] →
      s.laneHas w [w.va] [w.vd] (rdA w) a u → s.laneFlagOk w u → ((s.laneStart w).me.longs.filter fun l => l.kind == .sfu).length < 16 →
      let f := fmtOf w.ty.toNat
      let r := fun L => fpRes w.ty.toNat (sfuF n f (mdRm w) (mdFtz w) (modA f (mdFtz w) w (a L)))
      exec i s = .next (s.laneIssues w u op .sfu 20
        { writes := destWrites w.vd (s.act w) fun L => (r L).1
          conds := ((lanesOf (s.act w)).map fun L => ({ lane := L, bits := (r L).2 } : LaneCond)).filter fun c => c.bits != 0 }))
  ∧ (∀ (t rm a : Nat) (ftz : Bool), t ≤ 1 → rm < 4 →
      let f := fmtOf t
      let sg := f.signBit
      let one := (encodeF f 0 false false (.fin false 1 0)).1
      let bad : Nat × Conds := (f.nanBits, cINV)
      let r := fun op => sfuF op f rm ftz a
      (∀ sig, decodeF f a = .nan sig → ∀ op < 8, r op = (f.nanBits, if sig = true then cINV else 0))
      ∧ (decodeF f a = .inf true → r 0 = (0, 0) ∧ r 1 = bad ∧ r 2 = (sg true, 0) ∧ r 3 = bad ∧ r 4 = bad ∧ r 5 = bad ∧ r 6 = bad ∧ r 7 = (sg true + one, 0))
      ∧ (decodeF f a = .inf false → r 0 = (f.infBits, 0) ∧ r 1 = (f.infBits, 0) ∧ r 2 = (0, 0) ∧ r 3 = (0, 0) ∧ r 4 = (f.infBits, 0) ∧ r 5 = bad ∧ r 6 = bad ∧ r 7 = (one, 0))
      ∧ (∀ neg e, decodeF f a = .fin neg 0 e → r 0 = (one, 0) ∧ r 1 = (sg true + f.infBits, cDZ) ∧ r 2 = (sg neg + f.infBits, cDZ) ∧ r 3 = (sg neg + f.infBits, cDZ)
        ∧ r 4 = (sg neg, 0) ∧ r 5 = (sg neg, 0) ∧ r 6 = (one, 0) ∧ r 7 = (sg neg, 0))
      ∧ (∀ (neg : Bool) (m : Nat) (e : Int), decodeF f a = .fin neg m e → m ≠ 0 →
        let e2 := e - e % 2
        let v := m * 2 ^ (e % 2).toNat
        (∀ k : Int, -300 ≤ k → k ≤ 300 → k.natAbs * 2 ^ (-e).toNat = m * 2 ^ e.toNat → (k < 0 ↔ neg = true) → r 0 = encodeF f 0 false ftz (.fin false 1 k))
        ∧ (neg = true → r 1 = bad ∧ r 3 = bad ∧ r 4 = bad)
        ∧ (neg = false → ∀ j : Nat, m = 2 ^ j → r 1 = encodeF f 0 false ftz (.fin (decide (e + (j : Int) < 0)) (e + (j : Int)).natAbs 0)
          ∧ ∀ h : Int, e + (j : Int) = 2 * h → r 3 = encodeF f 0 false ftz (.fin false 1 (-h)))
        ∧ (let n := m.log2 + 41
           r 2 = encodeF f rm false ftz (.fin neg (2 * (2 ^ n / m) + if 2 ^ n % m = 0 then 0 else 1) (-((n : Int) + 1) - e)))
        ∧ (neg = false → ∀ q, q * q ≤ v * 2 ^ 80 → v * 2 ^ 80 < (q + 1) * (q + 1) →
          r 4 = encodeF f rm false ftz (.fin false (2 * q + if q * q = v * 2 ^ 80 then 0 else 1) (e2 / 2 - 41)))
        ∧ (91 * 2 ^ (-e).toNat ≤ 10 * (m * 2 ^ e.toNat) → r 7 = (sg neg + one, cINX))
        ∧ (ftz = false →
          let close := fun (op : Nat) (w : Fv) (k : Option Int) =>
            (r op).2 &&& cINX ≠ 0
            ∧ ((r op).2 &&& cOVF = 0 → within (decodeF f (r op).1) w (if t = 1 then ulpOf f w else k.getD (ulpOf f w)) = true)
            ∧ (isSubnormal f (r op).1 = true ∨ (r op).1 % 2 ^ (f.width - 1) = 0 → (r op).2 &&& cUNF ≠ 0)
          (m * 2 ^ e.toNat % 2 ^ (-e).toNat ≠ 0 → close 0 (exp2Ref neg m e) none)
          ∧ (neg = false → (∀ j : Nat, m ≠ 2 ^ j) → close 1 (log2Ref m e) (if -1 ≤ e + (m.log2 : Int) ∧ e + (m.log2 : Int) ≤ 0 then some (-22) else none))
          ∧ (neg = false → (∀ j : Nat, m = 2 ^ j → (e + (j : Int)) % 2 ≠ 0) →
            ∃ q, q * q * v ≤ 2 ^ 240 ∧ 2 ^ 240 < (q + 1) * (q + 1) * v ∧ close 3 (.fin false q (-120 - e2 / 2)) none)
          ∧ close 5 (sinCosRef false neg m e) (some (-21)) ∧ close 6 (sinCosRef true neg m e) (some (-21))
          ∧ (10 * (m * 2 ^ e.toNat) < 91 * 2 ^ (-e).toNat → close 7 (tanhRef neg m e) (some (-22))))))

/-- R36, R185 to R189: SHFL, REDX, SCANX and SEGRED issue with the results of the sources at their issue. R36, R151, R187: a step of a reduction: the f32 sum rounded once, FMIN and FMAX without .num, wrapping sums, signed and unsigned minima and maxima, bitwise operations; the identity that lanes outside Active enter as, which leaves the other value as it is; the tree, lane i with lane i + h, h from half the lanes down. R190, R191: the ragged tile walker: RTWCFG loads its lengths; RTWNEXT hands the next positions to the Active lanes, lowest first, and moves it on at issue. Where a clause rests on a choice of the model and not on a rule of the spec, the choice is that of log entry 57. -/
def Obligations.CrossLaneAndWalker : Prop :=
  (∀ (s u : State) (w : LaneW) (a b : Nat → W32), s.laneFlagOk w u →
      let m := s.act w
      let t := w.ty.toNat
      let o := w.md.toNat
      let issues := fun (i : Instr) (op : LaneOp) (lat : Nat) (v : Nat → W32) (cs : List LaneCond) =>
        exec i s = .next (s.laneIssues w u op .cross lat { writes := destWrites w.vd m v, conds := cs })
      (s.laneHas w [w.va, w.vb] [w.vd] (fun x => do return (← readV { x with active := 0 } w.va, ← if w.md = 0 then readV x w.vb else pure fun _ => 0)) (a, b) u →
        u.me.vpois = [] → ∀ src : Nat → Nat,
        (∀ L < 64, src L = (match o with
          | 0 => if (b L).toNat < 64 then (b L).toNat else L
          | 1 => if shflN w ≤ L then L - shflN w else L
          | 2 => if L + shflN w < 64 then L + shflN w else L
          | 3 => if L ^^^ shflN w < 64 then L ^^^ shflN w else L
          | _ => (L + shflN w) % 64)) →
        issues (.shfl w) .shfl 6 (fun L => a (src L)) [])
      ∧ (s.laneHas w [w.va] [w.vd] (rdA w) a u →
        let xs := redIn (s.laneIn w) t o a
        let r := treeReduce (redStep t o) 6 xs
        issues (.redx w) .redx 12 (fun _ => BitVec.ofNat 32 r.1) (if r.2 = 0 then [] else (lanesOf m).map fun L => { lane := L, bits := r.2 })
        ∧ (let g := segFold (redStep t o) (u.me.pred w.vb.toNat) lanes xs [] []
           let of' := fun L => g.1.getD (g.2.getD L 0) (0, 0)
           issues (.segred w) .segred 12 (fun L => BitVec.ofNat 32 (of' L).1)
             (((lanesOf m).map fun L => ({ lane := L, bits := (of' L).2 } : LaneCond)).filter fun c => c.bits != 0))
        ∧ (let o := o % 8
           let g := scanSteps (redStep t o) 6 1 (redIn (s.laneIn w) t o a)
           issues (.scanx w) .scanx 12
             (fun L => BitVec.ofNat 32 (if w.md.getLsbD 3 = true then (if L = 0 then (if t = 0 ∧ o = 0 then 0 else redId t o) else g.1.getD (L - 1) 0) else g.1.getD L 0))
             (if g.2 = 0 then [] else (lanesOf m).map fun L => { lane := L, bits := g.2 }))))
  ∧ ((∀ x y : W32,
      let a := x.toNat
      let b := y.toNat
      let sum := addF 0 (decodeF f32 a) (decodeF f32 b)
      let rnd := encodeF f32 0 false false sum.1
      redStep 0 0 a b = (rnd.1, sum.2 ||| rnd.2)
      ∧ redStep 0 1 a b = minMaxF f32 false false a b ∧ redStep 0 2 a b = minMaxF f32 true false a b
      ∧ redStep 5 0 a b = ((x + y).toNat, 0) ∧ redStep 6 0 a b = ((x + y).toNat, 0)
      ∧ redStep 5 1 a b = ((if y.slt x = true then y else x).toNat, 0) ∧ redStep 5 2 a b = ((if x.slt y = true then y else x).toNat, 0)
      ∧ redStep 6 1 a b = ((if y.ult x = true then y else x).toNat, 0) ∧ redStep 6 2 a b = ((if x.ult y = true then y else x).toNat, 0)
      ∧ redStep 13 3 a b = ((x &&& y).toNat, 0) ∧ redStep 13 4 a b = ((x ||| y).toNat, 0) ∧ redStep 13 5 a b = ((x ^^^ y).toNat, 0))
    ∧ redId 0 0 = 0x80000000 ∧ redId 0 1 = 0x7F800000 ∧ redId 0 2 = 0xFF800000 ∧ redId 5 0 = 0 ∧ redId 5 1 = 0x7FFFFFFF ∧ redId 5 2 = 0x80000000
    ∧ redId 6 0 = 0 ∧ redId 6 1 = 0xFFFFFFFF ∧ redId 6 2 = 0 ∧ redId 13 3 = 0xFFFFFFFF ∧ redId 13 4 = 0 ∧ redId 13 5 = 0
    ∧ (∀ t o : Nat, ∀ x : W32, (t, o) ∈ [(0, 0), (0, 1), (0, 2), (5, 0), (5, 1), (5, 2), (6, 0), (6, 1), (6, 2), (13, 3), (13, 4), (13, 5)] →
      (t = 0 → isNan (decodeF f32 x.toNat) = false) →
      redStep t o x.toNat (redId t o) = (x.toNat, 0) ∧ redStep t o (redId t o) x.toNat = (x.toNat, 0))
    ∧ (∀ (f : Nat → Nat → Nat × Conds) (x : Nat), treeReduce f 0 [x] = (x, 0))
    ∧ (∀ (f : Nat → Nat → Nat × Conds) (n : Nat) (xs ys : List Nat), xs.length = 2 ^ n → ys.length = 2 ^ n →
      (treeReduce f (n + 1) (xs ++ ys)).1 = (treeReduce f n (List.zipWith (fun x y => (f x y).1) xs ys)).1))
  ∧ (∀ (s u : State) (w : LaneW) (a b : Nat → W32),
      let m := s.act w
      let low := (lanesOf m).headD 0
      (s.laneHas w [w.va, w.vb] [] (fun x => do
          return (← readV { x with active := 0 } w.va, ← readB { x with active := if m = 0 then 0 else BitVec.ofNat 64 (2 ^ low) } w)) (a, b) u →
        (m = 0 → exec (.rtwcfg w) s = .next (s.laneNext w u))
        ∧ (m ≠ 0 → u.me.vpois = [] → 1 ≤ (b low).toNat → (b low).toNat ≤ 64 →
          ∃ k : Walker, exec (.rtwcfg w) s = .next (s.laneNext w (u.setStrand u.cur { u.me with walker := k }))
            ∧ k.c = (b low).toNat ∧ k.seq = 0 ∧ k.pos = 0 ∧ ∀ j < (b low).toNat, mget k.len j 0 = a j)
        ∧ (m ≠ 0 → (b low).toNat = 0 ∨ 64 < (b low).toNat → exec (.rtwcfg w) s = .next
            (((s.modStrand s.cur fun st => st.landTo (s.laneIn w).t)).takeTrap s.cur
              { code := 0x05, lfault := true, sideB := s.curB, unitNo := some (s.laneIn w).unitNo, lword := s.curWord, fA := (s.laneIn w).fA, fB := (s.laneIn w).fB })))
      ∧ (s.laneHas w [] [w.vd] rdNone () u → veCheck w.ve w.vd u = .ok ((), u) → s.laneFlagOk w u →
        let k := u.me.walker.walk true (lanesOf m)
        let f := fun L => (k.2.find? fun o => o.lane == L).getD { lane := L, sq := 0, pos := 0, mark := false }
        exec (.rtwnext w) s = .next (s.laneIssues w (u.setStrand u.cur { u.me with walker := k.1 }) .rtwnext .cross 8
          { writes := destWrites w.vd m (fun L => (f L).sq) ++ destWrites w.ve m (fun L => (f L).pos)
              ++ predWrites (w.aux.extractLsb' 0 3).toNat m fun L => (f L).mark })))

/-- R88, R91, R92, R95, R100, R194, R197, R198, R226, R244, R255, R256, R261: the accesses of a lane memory instruction as they are performed, the lanes that are served together at once: a load reads its place, stores write in lane order, atomic operations act at the home slice or the bank unit, a message goes out, FLUSH and WLAPPEND act once for each line and each descriptor; the release goes before the first of them; and what a completed instruction leaves in registers. R54, R148, R173, R185, R338: completions of long instructions: writes land, conditions join lstat, held causes and the trap set become known, the flag falls by one. R257, R258: a message to a partner's window is applied to its visible area in the order of issue, and brings the old values back; one whose team has left has no effect. Where a clause rests on a choice of the model and not on a rule of the spec, the choice is that of log entries 27, 57 and 63. -/
def Obligations.LongCompletionsAndMessages : Prop :=
  (∀ (s : State) (l : LongOp) (a : LaneAcc),
      let sid := s.ev.who
      let idx := s.ev.idx
      let die := dieOf (coreOf sid)
      (s.strand sid).longs[idx]? = some l → l.kind = .mem → l.acc = some a → s.accHeld sid l = false →
      let val := fun L => ((mget? a.data L).getD (0, 0)).1
      let sop : LanePlace → Nat → SliceOp := fun p o =>
        { off := o, val := (val p.lane).setWidth 64, cmp := ((mget? a.data p.lane).getD (0, 0)).2.setWidth 64 }
      (a.rel = none → ∀ (k : Nat × Nat) (p : LanePlace) (qs : List LanePlace), (a.todo.filter fun p => a.key p == k) = p :: qs →
        let ps := p :: qs
        let keeps := fun (u : State) (got : List LaneGot) => s.pass sid idx k = some (u.setLong sid idx { l with acc := some { a with
          todo := a.todo.filter (fun p => a.key p != k), got := a.got ++ got, pois := a.pois ++ ps.filter fun p => got.any fun g => g.1 == p.lane && g.2.2.2 } })
        (∀ u r, a.kind = .load → qs = [] → l.acq = none → s.readAt sid p.place a.n = some (u, r) → keeps u [(p.lane, r)])
        ∧ (∀ pa pol sc u r, a.kind = .load → qs = [] → l.acq = some sc → p.place = .mem pa pol false →
            (s.acquireLine die pa pol sc.toNat).readAt sid p.place a.n = some (u, r) → keeps u [(p.lane, r)])
        ∧ (∀ th u, a.kind = .store th →
            ps.foldlM (fun t p => t.writeAt sid p.place a.n ((val p.lane).toNat % 2 ^ (8 * a.n)) th) s = some u → keeps u [])
        ∧ (∀ op pa pol h, a.kind = .atomic op → p.place = .mem pa pol h →
            let ops := ps.map fun q => sop q (match q.place with
              | .mem pa _ _ => pa % 128
              | _ => 0)
            let r := (if pol = polREPL then s else s.dcFlush die (pa / 128)).sliceAtomic fadd32 (pa / 128) op 4 (pol == polREPL) ops (some (s.strand sid).member)
            (pol = polREPL → 256 ≤ s.updates.length → s.pass sid idx k = none)
            ∧ (pol ≠ polREPL ∨ s.updates.length < 256 → keeps r.1 ((ps.zip r.2.1).map fun q => (q.1.lane, q.2.toNat, (0 : Conds), r.2.2))))
        ∧ (∀ op core off, a.kind = .atomic op → qs = [] → s.settle p.place = .os core off →
            let old := s.osRead core off 4
            keeps (s.osWrite core off (leBytes 4 (if op = 10 then fadd32 old.1 (val p.lane).toNat else atomicOp op 4 old.1 (val p.lane).toNat (sop p 0).cmp.toNat)))
              [(p.lane, old)])
        ∧ (∀ op team, a.kind = .message op team → keeps { s with clusterMsgs := s.clusterMsgs ++ [{
            sid := sid, tag := l.tag, team := team, op := op, fetch := l.op == .atom, ops := ps.map fun p => (p.lane, sop p p.fa.toNat) }] } [])
        ∧ (∀ pa pol, a.kind = .flush → p.place = .mem pa pol false →
          (pol = polREPL → s.replBusy die (pa / 128) = true → s.pass sid idx k = none)
          ∧ (pol = polREPL → s.replBusy die (pa / 128) = false → keeps (s.repDrop die (pa / 128)) [])
          ∧ (pol ≠ polREPL → keeps (if pol = polNC then s else s.dcFlush die (pa / 128)) []))
        ∧ (a.kind = .append → keeps { s with appends := s.appends ++ [{
            ctx := s.ctxOf sid, die := die, sid := sid, tag := l.tag, desc := p.fa.toNat, items := ps.map fun p => (p.lane, val p.lane) }] } []))
      ∧ (∀ sc, a.rel = some sc → let u := s.releaseAt die (s.ctxOf sid) sc.toNat
          (u.released sid sc.toNat = false → exec .laneMemoryComplete s = .next s ∧ ∀ k, s.pass sid idx k = none)
          ∧ (u.released sid sc.toNat = true → a.todo = [] → s.passAll sid idx = some (u.setLong sid idx { l with acc := some { a with rel := none } })))
      ∧ (a.rel = none → a.todo = [] → s.accDue sid l = false →
        let got := fun L => (mget? a.got L).elim (0 : W32) fun r => if l.op = .atom then BitVec.ofNat 32 r.1 else extTy l.w.ty.toNat r.1
        let ws := if a.kind = .load ∨ l.op = .atom then destWrites l.w.vd l.active got else []
        let cs : List LaneCond := (a.got.filter fun r => r.2.2.1 != 0).map fun r => { lane := r.1, bits := r.2.2.1 }
        exec .laneMemoryComplete s
          = .next ((s.setLong sid idx { l with acc := none, writes := ws, conds := cs, held := poisHeld a.pois }).finishLong sid idx ws cs (poisHeld a.pois) 0))
      ∧ poisHeld [] = []
      ∧ (∀ (ps : List LanePlace) (q : LanePlace), q ∈ ps → (∀ p ∈ ps, q.lane < p.lane ∨ p = q) →
        poisHeld ps = [{ code := 0x0D, tmask := maskOf fun L => ps.any fun p => p.lane == L, faddr := q.fa }]))
  ∧ (∀ (s : State) (i : Nat) (l : LongOp),
      let sid := s.ev.who
      let st := s.strand sid
      let done := s.finishLong sid i l.writes l.conds l.held 0
      st.longs[i]? = some l →
      (l.kind = .cross → s.ev.idx = i → exec .crossLaneComplete s = .next done)
      ∧ (l.kind = .sfu → (∀ j k, j < i → st.longs[j]? = some k → k.kind ≠ .sfu) → exec .sfuComplete s = .next done)
      ∧ (l.kind = .mem → s.ev.idx = i →
          (s.passAll sid i = none → exec .laneMemoryComplete s = .next s)
          ∧ (∀ (u : State) (k : LongOp), s.passAll sid i = some u → (u.strand sid).longs[i]? = some k → k.kind = .mem →
            (u.accDue sid k = true → exec .laneMemoryComplete s = .next u)
            ∧ (u.accDue sid k = false → exec .laneMemoryComplete s
                = .next ((u.setLong sid i k.filled).finishLong sid i k.filled.writes k.filled.conds k.filled.held 0))))
      ∧ (l.kind = .rank → s.ev.idx = i → s.rankHeld sid l = true ∨ s.accHeld sid l = true → exec .rankOpComplete s = .next s)
      ∧ (l.kind = .rank → s.ev.idx = i → s.rankHeld sid l = false → s.accHeld sid l = false →
          (l.rank = none → exec .rankOpComplete s = .next done)
          ∧ (∀ r, l.rank = some r →
            (l.op = .rkenc → exec .rankOpComplete s = .next (finishRank sid i l r (runRkenc s sid l.w r)))
            ∧ (l.op = .rkrec → exec .rankOpComplete s = .next (finishRank sid i l r (runRkrec s sid l.w r)))
            ∧ (l.op = .rktab → exec .rankOpComplete s = .next (finishRank sid i l r (runRktab s sid l.w r)))
            ∧ (l.op = .rkmrg → exec .rankOpComplete s = .next (finishRank sid i l r (runRkmrg s sid l.w r)))
            ∧ (l.op = .topk → exec .rankOpComplete s = .next (done.modStrand sid fun st => r.nan.foldl (fun st p => st.addNan p.1 p.2) st))))
      ∧ (l.conds = [] → l.acq = none → l.due ≤ s.cycles (coreOf sid) → st.pendW = [] →
          done.strand sid = ({ l.writes.foldl (fun st w => st.land1 { due := 0, key := w.key, val := w.val }) st with
            longs := st.longs.eraseIdx i, held := st.held ++ l.held } : Strand).decFlag l.flag.toNat l.saved))
  ∧ (∀ (s : State) (m : ClusterMsg), s.clusterMsgs[s.ev.idx]? = some m →
      let core := (s.team m.team).core
      let at' := fun (o : SliceOp) => (s.team m.team).xOff false o.off
      ((∃ o ∈ s.clusterMsgs.take s.ev.idx, o.sid = m.sid ∧ o.team = m.team) → exec .clusterAtomicMessage s = .next s)
      ∧ ((∀ o ∈ s.clusterMsgs.take s.ev.idx, ¬(o.sid = m.sid ∧ o.team = m.team)) →
        ((s.team m.team).placed = true →
          ∃ t, exec .clusterAtomicMessage s = .next t ∧ t.clusterMsgs = s.clusterMsgs.eraseIdx s.ev.idx
            ∧ t.os = (m.ops.foldl (fun (u : State) p => (u.osAtomic core (at' p.2) m.op p.2.val p.2.cmp).1) s).os
            ∧ (∀ L o, m.ops = [(L, o)] → ∀ (i : Nat) (l : LongOp) (a : LaneAcc),
              (s.strand m.sid).longs[i]? = some l → l.tag = m.tag → l.acc = some a →
              let old := s.osRead core (at' o) 4
              (t.strand m.sid).longs[i]? = some { l with acc := some { a with got := a.got ++ [(L, old)], pois := a.pois ++
                (if old.2.2 = true then [{ lane := L, place := .win m.team false o.off, fa := BitVec.ofNat 64 o.off }] else []) } }))
        ∧ ((s.team m.team).placed = false →
          ∃ t, exec .clusterAtomicMessage s = .next t ∧ t.clusterMsgs = s.clusterMsgs.eraseIdx s.ev.idx ∧ t.os = s.os ∧ t.hbm = s.hbm)))

/-- R78 to R80, R86 to R88, R193, R252, R257, R309, R361: the checks of a lane access, each over all lanes before any lane performs: in memory the limit with the alignment, for H that the link to the host is up, the access tables, the translation; in an operand store the limit, FREE lines, arrival barriers. The trap names every lane that fails the first failing check and the address of the lowest; a translation fault parks the instruction, with a record for each page that faulted. R194, R196, R199: loads of the lane stream, from memory, from O and X, and from a partner's window: the checks of all lanes, then the accesses, which the instruction has still to perform, with its acquire after them; a check that fails stops it. R91, R194, R196, R199: stores of the lane stream: the checks of all lanes, then the accesses, which the instruction has still to perform, its release before them; a check that fails stops it. Where a clause rests on a choice of the model and not on a rule of the spec, the choice is that of log entries 27 and 58. -/
def Obligations.LaneLoadsAndStores : Prop :=
  (∀ (s : State) (n kind : Nat) (offs : List (Nat × Int)),
      let d := s.me.segs
      let mask := fun (l : List (Nat × Int)) => maskOf fun L => l.any fun p => p.1 == L
      (∀ (seg : Nat) (need : Need) (X : Nat × Int → Except XErr (Nat × Nat)),
        let sg := d.get seg
        let va : Nat × Int → W64 := fun p => sg.base + BitVec.ofInt 64 (if seg = 1 then p.2 / 4 * 256 + 4 * p.1 + p.2 % 4 else p.2)
        let host := seg == 3
        let unitNo := if seg = 3 then 8 else dieOf (coreOf s.cur)
        let ctx := s.ctxOf s.cur
        let run := memLanes seg n kind need offs s
        let bad := offs.filter fun (p : Nat × Int) => (kind != 0 && seg == 2)
          || !(decide (0 ≤ p.2) && decide (p.2 + (n : Int) ≤ sg.len.toNat) && decide (p.2 % (n : Int) = 0) && decide ((va p).toNat % n = 0))
        (∀ p ps, bad = p :: ps → run = .error (.trap { code := 0x06, tmask := mask bad, faddr := va p } []))
        ∧ (bad = [] → host = true → s.cacheUp = false → ∀ p ps, offs = p :: ps →
          run = .error (.trap { code := 0x07, tmask := mask offs, faddr := va p } []))
        ∧ (bad = [] → host = false ∨ s.cacheUp = true →
          (∀ p ∈ offs, s.xlate unitNo ctx (va p).toNat need (if host then .host else .mem)
            = (X p).map fun r => ({ s := s, pa := r.1, pol := r.2 } : Xl)) →
          let denied := offs.filter fun p => match X p with
            | .ok r => !s.allowed ctx r.1 need
            | .error _ => false
          let faults : List ((Nat × Int) × Park) := offs.filterMap fun p => match X p with
            | .ok _ => none
            | .error x => some (p, parkOf ctx (va p).toNat (if seg = 3 then 5 else 1) kind x)
          (∀ p ps, denied = p :: ps → run = .error (.trap { code := 0x07, tmask := mask denied, faddr := va p }
            (denied.filterMap fun p => match X p with
              | .ok r => some (r.1, kind)
              | .error _ => none)))
          ∧ (∀ p ps, denied = [] → faults = p :: ps → run = .error (.park { p.2 with
              tmask := mask (faults.map (·.1))
              more := (ps.filter fun q => q.2.page != p.2.page).map fun q => (q.2.page, q.2.va, q.2.cause, q.2.level) }))
          ∧ (denied = [] → faults = [] → run = .ok (offs.filterMap fun p => match X p with
              | .ok r => some { lane := p.1, place := .mem r.1 (if seg = 1 then polP else r.2) host, fa := va p }
              | .error _ => none, s))))
      ∧ (∀ (g : MemSeg) (wr : Bool) (at' : Nat → Place) (len : Nat), osWindow g s = .ok ((at', len), s) →
        let fa : Nat × Int → W64 := fun p => BitVec.ofInt 64 p.2
        let run := osLanes g n wr offs s
        let bad := offs.filter fun (p : Nat × Int) => !(decide (0 ≤ p.2) && decide (p.2 + (n : Int) ≤ (len : Int)) && decide (p.2 % (n : Int) = 0))
        let free := offs.filter fun p => match s.settle (at' p.2.toNat) with
          | .os core off => (s.osLine core (off / 256)).free
          | _ => false
        let barr := offs.filter fun p => wr && match s.settle (at' p.2.toNat) with
          | .os core off => s.osMeetsBarrier core off n
          | _ => false
        (∀ p ps, bad = p :: ps → run = .error (.trap { code := 0x06, tmask := mask bad, faddr := fa p } []))
        ∧ (∀ p ps, bad = [] → free = p :: ps → run = .error (.trap { code := 0x06, tmask := mask free, faddr := fa p } []))
        ∧ (∀ p ps, bad = [] → free = [] → barr = p :: ps → run = .error (.trap { code := 0x05, tmask := mask barr, faddr := fa p } []))
        ∧ (bad = [] → free = [] → barr = [] → run = .ok (offs.map fun p => { lane := p.1, place := at' p.2.toNat, fa := fa p }, s)))
      ∧ osWindow .team s = .ok ((fun x => .os (coreOf s.cur) (d.o.base.toNat + x), d.o.len.toNat), s)
      ∧ osWindow .own s = .ok ((fun x => .win s.me.team false x, d.x.len.toNat), s)
      ∧ (∀ m sh k t, s.partner (s.teamOf s.cur) m = some (k, t) → osWindow (.partner m sh) s = .ok ((fun x => .win k sh x, t.blk.window), s)))
  ∧ (∀ (s u : State) (w : LaneW) (lo hi : Nat → W32) (op : LaneOp) (g : MemSeg) (i : Instr),
      (op, g, i) ∈ [(LaneOp.laneLd, .mem (auxSeg w), Instr.laneLd w), (.ldo, (if auxSeg w = 4 then .team else .own), .ldo w), (.ldx, .partner (mdN w) false, .ldx w)] →
      let wide := op == .laneLd && w.md.getLsbD 0
      let n := tyBytes w.ty.toNat
      let at' := lanePlaces g n 0 { r := true } false (laneOffs (s.laneIn w) wide lo hi (auxOff8 w * n)) u
      s.laneHas w (if wide then [w.va, w.vc] else [w.va]) [w.vd] (fun x => do return (← readV x w.va, ← if wide then readV x w.vc else pure fun _ => 0)) (lo, hi) u →
      s.laneFlag w ≠ 15 →
      (∀ e, at' = .error e → exec i s = .next (s.laneStop w e))
      ∧ (∀ ps u1, at' = .ok (ps, u1) → s.laneFlagOk w u1 →
        exec i s = .next (s.laneIssues w u1 op .mem (u1.accessTime g ps) (accOp w { kind := .load, n := n, todo := ps }))))
  ∧ (∀ (s u : State) (w : LaneW) (lo data hi : Nat → W32) (op : LaneOp) (g : MemSeg) (i : Instr),
      (op, g, i) ∈ [(LaneOp.laneSt, .mem (auxSeg w), Instr.laneSt w), (.sto, (if auxSeg w = 4 then .team else .own), .sto w), (.xst, .partner (mdN w) true, .xst w)] →
      let wide := op == .laneSt && w.md.getLsbD 0
      let n := tyBytes w.ty.toNat
      let at' := lanePlaces g n 1 { w := true } true (laneOffs (s.laneIn w) wide lo hi (auxOff8 w * n)) u
      s.laneHas w (if wide then [w.va, w.vb, w.vc] else [w.va, w.vb]) []
        (fun x => do return (← readV x w.va, ← readV x w.vb, ← if wide then readV x w.vc else pure fun _ => 0)) (lo, data, hi) u →
      s.laneFlag w ≠ 15 →
      (∀ e, at' = .error e → exec i s = .next (s.laneStop w e))
      ∧ (∀ ps u1, at' = .ok (ps, u1) → s.laneFlagOk w u1 →
        exec i s = .next (s.laneIssues w u1 op .mem (u1.accessTime g ps)
          (accOp w { kind := .store (auxRel w && decide (4 ≤ auxScope w)), n := n, todo := ps, data := ps.map fun p => (p.lane, data p.lane, 0) }))))

/-- R197, R199, R255, R256: ATOM and RED: the checks of all lanes, then one operation for each lane, at the home slices, at the own bank unit, or by a message to a partner, which the instruction has still to perform; a check that fails stops it. R195, R198, R199, R226: FLUSH and WLAPPEND: the checks of all lanes, then their actions, which the instruction has still to perform; a check that fails stops it. Where a clause rests on a choice of the model and not on a rule of the spec, the choice is that of log entries 27 and 28. -/
def Obligations.LaneAtomicsAndAppends : Prop :=
  (∀ (s u : State) (w : LaneW) (lo v c : Nat → W32) (fetch : Bool),
      let i : Instr := if fetch then .atom w else .red w
      let lop : LaneOp := if fetch then .atom else .red
      let cas := fetch && w.md == 7
      let g : MemSeg := if auxSeg w = 0 then .mem 0 else if auxSeg w = 4 then .team else if auxSeg w = 5 then .partner (auxN w) false else .own
      let at' := lanePlaces g 4 2 (if fetch then { r := true, w := true } else { w := true }) true
        (laneOffs (s.laneIn w) false lo (fun _ => 0) (auxOff6 w * 4)) u
      s.laneHas w (if cas then [w.va, w.vb, w.vc] else [w.va, w.vb]) (if fetch then [w.vd] else [])
        (fun x => do return (← readV x w.va, ← readV x w.vb, ← if cas then readV x w.vc else pure fun _ => 0)) (lo, v, c) u →
      s.laneFlag w ≠ 15 →
      (∀ e, at' = .error e → exec i s = .next (s.laneStop w e))
      ∧ (∀ ps u1, at' = .ok (ps, u1) → s.laneFlagOk w u1 →
        let data := ps.map fun p => (p.lane, v p.lane, c p.lane)
        (auxSeg w = 0 → exec i s = .next (s.laneIssues w u1 lop .mem 1 (accOp w { kind := .atomic (atomCode w), todo := ps, data := data })))
        ∧ (auxSeg w ≠ 0 → auxSeg w ≠ 5 → exec i s
            = .next (s.laneIssues w u1 lop .mem (12 + bankExtra (u1.osOffs ps)) (accOp w { kind := .atomic (atomCode w), todo := ps, data := data })))
        ∧ (∀ k t, auxSeg w = 5 → u1.partner (u1.teamOf u1.cur) (auxN w) = some (k, t) →
          exec i s = .next (s.laneIssues w u1 lop .mem 24 (accOp w { kind := .message (atomCode w) k, todo := ps, data := data })))))
  ∧ (∀ (s u : State) (w : LaneW) (lo items hi : Nat → W32),
      let wide := w.md.getLsbD 0
      s.laneFlag w ≠ 15 →
      (s.laneHas w (if wide then [w.va, w.vc] else [w.va]) [] (fun x => do return (← readV x w.va, ← if wide then readV x w.vc else pure fun _ => 0)) (lo, hi) u →
        let at' := lanePlaces (.mem (auxSeg w)) 1 0 { r := true } false (laneOffs (s.laneIn w) wide lo hi (auxOff8 w)) u
        (∀ e, at' = .error e → exec (.flush w) s = .next (s.laneStop w e))
        ∧ (∀ ps u1, at' = .ok (ps, u1) → s.laneFlagOk w u1 →
          exec (.flush w) s = .next (s.laneIssues w u1 .flush .mem 1 (accOp w { kind := .flush, n := 1, todo := ps }))))
      ∧ (s.laneHas w (if wide then [w.va, w.vb, w.vc] else [w.va, w.vb]) []
          (fun x => do return (← readV x w.va, ← readV x w.vb, ← if wide then readV x w.vc else pure fun _ => 0)) (lo, items, hi) u →
        let at' := lanePlaces (.mem 0) 64 1 { w := true } false (laneOffs (s.laneIn w) wide lo hi (auxOff8 w * 4)) u
        (∀ e, at' = .error e → exec (.wlappend w) s = .next (s.laneStop w e))
        ∧ (∀ ps u1, at' = .ok (ps, u1) → s.laneFlagOk w u1 →
          exec (.wlappend w) s = .next (s.laneIssues w u1 .wlappend .mem 1
            (accOp w { kind := .append, n := 64, todo := ps, data := ps.map fun p => (p.lane, items p.lane, 0) })))))

/-- R322 to R326, R329, R331, R333 to R335: rank instructions are accepted while fewer than 4 are in progress on the core, with the operands of the leader lane, the lowest Active one, whose registers alone are read; with Active empty they only count their flag. R34, R327 to R331, R333, R334, R336: what the operations of the rank network write, from sources that nothing has freed, let expire or poisoned, into such a destination. RKENC: the first C elements in the order of decreasing magnitude, as tokens or as pairs, then the end mark, and the number of NaNs. RKTAB: the 256 values, in its slot, for its context. RKREC: token by token the signed, scaled weight added to its element, rounded once, up to the end mark or the first token that breaks the form. RKMRG: the first C entries of two ordered lists in one order, or those up to the entry that breaks the order of its list. Nothing else of a store changes. NANC stops at 255. R327, R335: TOPK keeps, of the k candidates in the list registers and one in each Active lane, the first k in ranking order; NaN candidates are counted and left out. Where a clause rests on a choice of the model and not on a rule of the spec, the choice is that of log entry 36. -/
def Obligations.RankAndTopk : Prop :=
  (∀ (s u : State) (w : LaneW), s.laneFlagOk w u → (u.rankOps (coreOf s.cur)).length < 4 →
      let m := s.act w
      let L := leader m
      let k := tyBytes w.ty.toNat
      let core := coreOf s.cur
      let ctx := s.ctxOf s.cur
      let lead := fun (x : LaneIn) => { x with active := m &&& -m }
      let reads3 := fun (x : LaneIn) => (do return (← readV (lead x) w.va, ← readV (lead x) w.vb, ← readV (lead x) w.vc) :
        M ((Nat → W32) × (Nat → W32) × (Nat → W32)))
      let issues := fun (i : Instr) (op : LaneOp) (lat : Nat) (l : LongOp) => exec i s = .next (s.laneIssues w u op .rank lat l)
      (∀ a b c : Nat → W32, s.laneHas w [w.va, w.vb, w.vc] [w.vd] reads3 (a, b, c) u →
        let r : RankOp := { src := (a L).toNat, dst := (b L).toNat, n := (c L).toNat, lead := L }
        let g : RankOp := { src := (a L).toNat, n := (b L).toNat, dst := (c L).toNat, lead := L }
        let ws := destWrites w.vd m fun _ => 0
        (m = 0 → issues (.rkenc w) .rkenc 16 {} ∧ issues (.rkrec w) .rkrec 16 {} ∧ issues (.rkmrg w) .rkmrg 16 {})
        ∧ (m ≠ 0 → 1 ≤ r.n → r.n ≤ 4096 → rkCheck L
            [{ space := rkSrc w, off := r.src, len := r.n * k, al := k },
             { space := rkDst w, off := r.dst, len := (rkC w + 1) * rkEntry .rkenc w, al := rkEntry .rkenc w, dst := true }] u = .ok ((), u) →
          issues (.rkenc w) .rkenc 16 { writes := ws, rank := some r })
        ∧ (∀ h, m ≠ 0 → u.handle ctx (w.aux.extractLsb' 0 8).toNat = some h → hFmt h = 12 → 1 ≤ r.n → r.n ≤ 4096 → rkCheck L
            [{ space := rkSrc w, off := r.src, len := 2, al := 2 }, { space := .o, off := r.dst, len := r.n * k, al := k, dst := true }] u = .ok ((), u) →
          let tab := u.rkTable core (w.aux.extractLsb' 8 2).toNat ctx
          issues (.rkrec w) .rkrec 16 { writes := ws, rank := some { r with scale := hScale h, table := tab.getD [], tableOk := tab.isSome } })
        ∧ (m ≠ 0 → rkCheck L [{ space := .o, off := g.src, len := 8, al := 8 }, { space := .o, off := g.n, len := 8, al := 8 },
             { space := .o, off := g.dst, len := (rkC w + 1) * rkEntry .rkmrg w, al := rkEntry .rkmrg w, dst := true }] u = .ok ((), u) →
          issues (.rkmrg w) .rkmrg 16 { writes := ws, rank := some g }))
      ∧ (∀ a : Nat → W32, s.laneHas w [w.va] [] (fun x => readV (lead x) w.va) a u →
        (m = 0 → issues (.rktab w) .rktab 8 {})
        ∧ (m ≠ 0 → rkCheck L [{ space := .o, off := (a L).toNat, len := 512, al := 2 }] u = .ok ((), u) →
          issues (.rktab w) .rktab 8 { rank := some { src := (a L).toNat, lead := L } })))
  ∧ ((∀ (t i v : Nat), t = 0 ∨ t = 1 ∨ t = 2 ∨ t = 3 ∨ t = 4 ∨ t = 5 ∨ t = 7 ∨ t = 9 →
      let f := fmtOf t
      (t ≤ 4 → rkElem t i v = if isNan (decodeF f v) = true then none else some {
        key := ((v % 2 ^ (f.width - 1) : Nat) : Int), idx := i, neg := v.testBit (f.width - 1), val := BitVec.ofNat 32 (encodeF f32 0 false false (decodeF f v)).1 })
      ∧ (4 < t → let k := (BitVec.ofNat (8 * tyBytes t) v).toInt
        rkElem t i v = some { key := (k.natAbs : Int), idx := i, neg := decide (k < 0), val := BitVec.ofInt 32 k }))
    ∧ (∀ (s : State) (sid : Nat) (w : LaneW) (r : RankOp),
      let b := tyBytes w.ty.toNat
      let C := rkC w
      let num := fun (u : State) (core a n : Nat) => leValue ((List.range n).map fun i => mget u.os (osKey core (a + i)) 0)
      let clean := fun (core lo n : Nat) => ∀ a, lo ≤ a → a < lo + n → let l := s.osLine core (a / 256)
        l.free = false ∧ s.osExpired core l = false ∧ l.poison.getLsbD (colOf a) = false
      let takes := fun (core lo n : Nat) => ∀ a, lo ≤ a → a < lo + n → let l := s.osLine core (a / 256); l.free = false ∧ s.osExpired core l = false
      let keeps := fun (u : State) (core lo n : Nat) => u.strands = s.strands ∧ u.hbm = s.hbm ∧ u.dc = s.dc
        ∧ ∀ k, (k < osKey core lo ∨ osKey core lo + n ≤ k) → mget u.os k 0 = mget s.os k 0
      let holds := fun (u : State) (core lo : Nat) (pairs : Bool) (l : List Ranked) =>
        (pairs = true → keeps u core lo (8 * (l.length + 1)) ∧ num u core (lo + 8 * l.length) 4 = 0 ∧ num u core (lo + 8 * l.length + 4) 4 = 0xFFFFFFFF
          ∧ ∀ k e, l[k]? = some e → num u core (lo + 8 * k) 4 = e.val.toNat ∧ num u core (lo + 8 * k + 4) 4 = e.idx % 2 ^ 32)
        ∧ (pairs = false → keeps u core lo (2 * (l.length + 1)) ∧ num u core (lo + 2 * l.length) 2 = 0xFFFF
          ∧ ∀ k e, l[k]? = some e →
            let tie := k ≠ 0 ∧ ((l[k - 1]?).map (·.key)) = some e.key
            num u core (lo + 2 * k) 2 = e.idx % 4096 + (if e.neg = true then 2 ^ 12 else 0) + if tie then 2 ^ 13 else 0)
      let first := fun (p q : Ranked) => q.key < p.key ∨ (p.key = q.key ∧ p.idx < q.idx)
      (∀ core base len dcore dbase dlen, s.rkWindow sid (rkSrc w) = some (core, base, len) → s.rkWindow sid (rkDst w) = some (dcore, dbase, dlen) →
        base % 256 = 0 → r.src % b = 0 → clean core (base + r.src) (r.n * b) →
        takes dcore (dbase + r.dst) ((C + 1) * (if rkPairs w = true then 8 else 2)) →
        let es := (List.range r.n).map fun i => rkElem w.ty.toNat i (num s core (base + r.src + b * i) b)
        let o := runRkenc s sid w r
        ∃ l : List Ranked, l.Perm ((es.filterMap id).filter fun e => !(rkNz w && e.key == 0)) ∧ l.Pairwise first
          ∧ o.count = min C l.length ∧ o.nan = (es.filter (·.isNone)).length ∧ o.conds = 0 ∧ o.met.conds = 0 ∧ o.met.pois = none ∧ o.met.freed = none
          ∧ holds o.s dcore (dbase + r.dst) (rkPairs w) (l.take C))
      ∧ (∀ core base len, s.rkWindow sid .o = some (core, base, len) → base % 256 = 0 →
        let tab := (w.aux.extractLsb' 0 2).toNat
        let o := runRktab s sid w r
        (r.src % 2 = 0 → clean core (base + r.src) 512 →
          o.s.rkTable core tab (s.ctxOf sid) = some ((List.range 256).map fun i => BitVec.ofNat 16 (num s core (base + r.src + 2 * i) 2))
          ∧ (∀ c, c ≠ s.ctxOf sid → o.s.rkTable core tab c = none)
          ∧ (∀ c k x, k < 4 → (c ≠ core ∨ k ≠ tab) → o.s.rkTable c k x = s.rkTable c k x) ∧ o.s.os = s.os ∧ o.s.strands = s.strands ∧ o.conds = 0)
        ∧ (∀ score sbase slen, s.rkWindow sid (rkSrc w) = some (score, sbase, slen) → sbase % 256 = 0 → r.src % 2 = 0 → r.dst % b = 0 → w.ty.toNat ≤ 2 →
          clean core (base + r.dst) (r.n * b) →
          let f := fmtOf w.ty.toNat
          let tok := fun k => num s score (sbase + r.src + 2 * k) 2
          let tie := fun k => (tok k).testBit 13 = true
          let fits := fun k => r.src + 2 * k + 2 ≤ slen
          let good := fun k => fits k ∧ tok k < 2 ^ 14 ∧ k < 256 ∧ tok k % 4096 < r.n ∧ (k = 0 → ¬ tie k)
          ∀ (T : Nat) (run : Nat → Nat) (v : Nat → Nat → Nat) (c : Nat → Conds),
            (∀ k < T, good k) → ¬ good T → (fits T → clean score (sbase + r.src) (2 * (T + 1))) → clean score (sbase + r.src) (2 * T) →
            (∀ k < T, (tie k → run k = run (k - 1)) ∧ (¬ tie k → run k = k)) →
            (let wt := fun k => decodeF (fmtOf 1) (r.table.getD (if rkTs w = true then run k else k) 0).toNat
             let term := fun k => mulF (wt k) (decodeF f32 r.scale)
             let sum := fun k => addF 0 (decodeF f (v k (tok k % 4096))) (if (tok k).testBit 12 = true then negF (term k).1 else (term k).1)
             let y := fun k => encodeF f 0 false false (sum k).1
             (∀ i < r.n, v 0 i = if rkAcc w = true then num s core (base + r.dst + b * i) b else 0)
             ∧ (∀ k < T, ∀ i < r.n, v (k + 1) i = if i = tok k % 4096 then (y k).1 else v k i)
             ∧ c 0 = (if r.tableOk = true then 0 else cRKF)
             ∧ ∀ k < T, c (k + 1) = (c k ||| (term k).2 ||| (sum k).2 ||| (y k).2 ||| if isNan (wt k) = true then cINV else 0)) →
            let o := runRkrec s sid w r
            o.count = T ∧ o.conds = (c T ||| if fits T ∧ tok T = 0xFFFF then 0 else cRKF) ∧ o.nan = 0
            ∧ keeps o.s core (base + r.dst) (r.n * b) ∧ ∀ i < r.n, num o.s core (base + r.dst + b * i) b = v T i)
        ∧ (∀ la lb : List (Nat × Nat),
          let list := fun (l : List (Nat × Nat)) (off : Nat) =>
            l.length < 2047 ∧ off % 8 = 0 ∧ off + 8 * (l.length + 1) ≤ len ∧ clean core (base + off) (8 * (l.length + 1)) ∧ num s core (base + off + 8 * l.length + 4) 4 = 0xFFFFFFFF
            ∧ ∀ k p, l[k]? = some p → p.2 ≠ 0xFFFFFFFF ∧ num s core (base + off + 8 * k) 4 = p.1 ∧ num s core (base + off + 8 * k + 4) 4 = p.2
          let elems := fun (l : List (Nat × Nat)) => l.filterMap fun p => (rkElem w.ty.toNat p.2 p.1).map fun e => { e with val := BitVec.ofNat 32 p.1 }
          let o := runRkmrg s sid w r
          list la r.src → list lb r.n → r.dst % 2 = 0 → takes core (base + r.dst) ((C + 1) * (if rkTok w = true then 2 else 8)) →
          (rkTok w = true → ∀ p ∈ la ++ lb, p.2 ≤ 4095) →
          ((elems la).Pairwise first → (elems lb).Pairwise first →
            ∃ out rest : List Ranked, (out ++ rest).Perm (elems la ++ elems lb)
              ∧ (out ++ rest).Pairwise (fun p q => q.key < p.key ∨ (p.key = q.key ∧ p.idx ≤ q.idx))
              ∧ out.length = min C ((elems la).length + (elems lb).length) ∧ o.count = out.length ∧ o.conds = 0
              ∧ (out.length < C → o.nan + (elems la).length + (elems lb).length = la.length + lb.length)
              ∧ holds o.s core (base + r.dst) (!rkTok w) out)
          ∧ (∀ e1 e2 l', 2 ≤ C → lb = [] → elems la = e1 :: e2 :: l' → ¬ first e1 e2 → o.count = 1 ∧ o.conds = cRKF ∧ holds o.s core (base + r.dst) (!rkTok w) [e1]))))
    ∧ (∀ (st : Strand) (L n : Nat),
      let old := mget st.v (lstatKey L) 0
      let new := mget (st.addNan L n).v (lstatKey L) 0
      (new.extractLsb' 16 8).toNat = min 255 ((old.extractLsb' 16 8).toNat + n) ∧ new &&& 0xFF00FFFF = old &&& 0xFF00FFFF
      ∧ ∀ k, k ≠ lstatKey L → mget (st.addNan L n).v k 0 = mget st.v k 0))
  ∧ (∀ (s u : State) (w : LaneW) (ov oi a b : Nat → W32), s.laneFlagOk w u → (u.rankOps (coreOf s.cur)).length < 4 →
      let m := s.act w
      let n := (w.aux.extractLsb' 0 7).toNat
      let reg : W64 := if m = 0 then 0 else maskOf fun j => decide (j < n)
      s.laneHas w [w.va, w.vb, w.vd] [w.vd] (fun x => do
        return (← readV { x with active := reg } w.vd, ← readV { x with active := reg } w.ve, ← readV x w.va, ← readV x w.vb)) (ov, oi, a, b) u →
      veCheck w.ve w.vd (s.laneStart w) = .ok ((), s.laneStart w) → roomFor w.vd reg u = .ok ((), u) → 1 ≤ n → n ≤ 64 →
      let cand := ((List.range n).map (fun j => (ov j, oi j)) ++ (lanesOf m).map fun L => (a L, b L)).filter fun p => p.2 != 0xFFFFFFFF
      let elem := fun (p : W32 × W32) => (rkElem w.ty.toNat p.2.toNat p.1.toNat).map fun r =>
        { r with key := if r.neg && !w.md.getLsbD 0 then -r.key else r.key, val := p.1 }
      ∃ (l : LongOp) (top : List Ranked), exec (.topk w) s = .next (s.laneIssues w u .topk .rank 10 l)
        ∧ (m = 0 → l.writes = [] ∧ l.rank = none)
        ∧ top.Perm (cand.filterMap elem)
        ∧ top.Pairwise (fun p q => q.key < p.key ∨ (p.key = q.key ∧ p.idx ≤ q.idx))
        ∧ l.writes = destWrites w.vd reg (fun j => (top[j]?).elim 0 (·.val))
            ++ destWrites w.ve reg fun j => (top[j]?).elim 0xFFFFFFFF fun r => BitVec.ofNat 32 r.idx)

/-- R180 to R182: control of the lane stream: LBR, LBRA, JOIN, END and LTRAP, as the last instruction of a clause; a JOIN or END whose sibling is parked at another point traps before any effect. R59, R87, R130, R135, R181, R184, R200: a queued block starts with all lanes on side A, in the trap window while the strand is in its handler and in the lane stream otherwise; a push is performed; a pop brings back the side of the record that a push wrote, and traps when the record breaks its form or its state is a mismatch, once the strand may trap; one whose page has no translation is parked until it is answered; at END a popped side that is parked at END merges in its turn. Before a trap entry a pop under way completes, or, parked or faulting, counts as not issued. Where a clause rests on a choice of the model and not on a rule of the spec, the choice is that of log entries 32 and 62. -/
def Obligations.LaneControl : Prop :=
  (∀ (s : State) (w : LaneW), s.laneMay w →
      let x := s.laneIn w
      let u := s.laneStart w
      let c := u.me.laneCtx x.win
      let me := c.side x.sideB
      let other := c.side (!x.sideB)
      let rest := me.mask &&& ~~~x.active
      let past := u.me.pastOf me
      let joined := (u.me.longs.filter fun l => (u.me.pastOf c.a ++ u.me.pastOf c.b).contains l.tag).map (·.tag)
      let split := fun (c : LaneCtx) => { (c.setSide x.sideB { me.goTo (me.pc + 1) with mask := rest }).setSide (!x.sideB)
          { pc := w.low, mask := x.active, live := true, hdr := w.low, no := s.stepNo, past := past } with lastB := true }
      let becomes := fun (i : Instr) (c' : LaneCtx) => exec i s = .next (s.laneDone w id (u.putCtx x.win c'))
      me.left = 1 →
      (x.active = 0 → becomes (.lbr w) (c.setSide x.sideB (me.goTo (me.pc + 1))))
      ∧ (x.active ≠ 0 → rest = 0 → becomes (.lbr w) (c.setSide x.sideB (me.goTo w.low)))
      ∧ (x.active ≠ 0 → rest ≠ 0 → other.live = false → becomes (.lbr w) (split c))
      ∧ (∀ v, x.active ≠ 0 → rest ≠ 0 → other.live = true → pushSide x other u = .ok ((), v) →
        exec (.lbr w) s = .next (s.laneDone w id (v.putCtx x.win (split (v.me.laneCtx x.win)))))
      ∧ (∀ e, x.active ≠ 0 → rest ≠ 0 → other.live = true → pushSide x other u = .error e → exec (.lbr w) s = .next (s.laneStop w e))
      ∧ becomes (.lbra w) (c.setSide x.sideB (me.goTo
          (if (w.md = 0 ∧ x.active ≠ 0) ∨ (w.md ≠ 0 ∧ x.active = me.mask) then w.low else me.pc + 1)))
      ∧ (other.live = false → becomes (.join w) (c.setSide x.sideB (me.goTo (me.pc + 1))) ∧ becomes (.laneEnd w) c.endBlock)
      ∧ (other.live = true → other.st = .running →
        becomes (.join w) (c.setSide x.sideB { me with st := .parkedJoin }) ∧ becomes (.laneEnd w) (c.setSide x.sideB { me with st := .parkedEnd }))
      ∧ (other.live = true → c.depth = 0 →
        (other.st = .parkedJoin → other.pc = me.pc →
          becomes (.join w) { c with
            a := { pc := me.pc + 1, mask := c.a.mask ||| c.b.mask, live := true, hdr := c.a.hdr, no := s.stepNo, past := joined }, b := {} })
        ∧ (other.st = .parkedEnd → becomes (.laneEnd w) c.endBlock))
      ∧ (other.live = true → 0 < c.depth →
        (other.st = .parkedJoin → other.pc = me.pc → becomes (.join w) { c with spill := some (.pop x.sideB false me.pc) })
        ∧ (other.st = .parkedEnd → becomes (.laneEnd w) { c with spill := some (.pop x.sideB true me.pc) }))
      ∧ (other.live = true →
        (other.st = .parkedEnd ∨ (other.st = .parkedJoin ∧ other.pc ≠ me.pc) → exec (.join w) s = .next (s.laneStop w (.trap { code := 0x05 } [])))
        ∧ (other.st = .parkedJoin → exec (.laneEnd w) s = .next (s.laneStop w (.trap { code := 0x05 } []))))
      ∧ (x.active = 0 → becomes (.ltrap w) (c.setSide x.sideB me.advance))
      ∧ (x.active ≠ 0 → exec (.ltrap w) s = .next ((s.modStrand s.cur fun st => st.landTo x.t).takeTrap s.cur
          { code := 0x0F, info := w.low.extractLsb' 0 20, tmask := x.active, lfault := true, sideB := x.sideB, unitNo := some x.unitNo
            lword := s.curWord, fA := x.fA, fB := x.fB })))
  ∧ (∀ s : State,
      let sid := s.ev.who
      let win := s.ev.flag
      let st := s.strand sid
      let c := st.laneCtx win
      let puts := fun (u : State) (c' : LaneCtx) => { u.modStrand sid fun st => { st.setLaneCtx win c' with parkL := none, waitL := false } with cur := s.cur }
      (∀ p ps, c.dq = p :: ps → c.busy = false → st.csr.ih = win →
        exec .laneBlockStart s = .next (s.modStrand sid fun st => st.setLaneCtx win
          { dq := ps, busy := true, started := c.started + 1
            a := { pc := p, mask := BitVec.allOnes 64, live := true, hdr := p, no := s.stepNo, past := st.longs.map (·.tag) } }))
      ∧ (c.dq = [] ∨ c.busy = true ∨ st.csr.ih ≠ win → exec .laneBlockStart s = .next s)
      ∧ (c.spill = some .push → exec .stackPushDone s = .next (s.modStrand sid fun st => st.setLaneCtx win { c with spill := none }))
      ∧ (∀ (b isEnd : Bool) (n : W32), c.spill = some (.pop b isEnd n) →
        let read := popRecord win { s with cur := sid }
        let ends := fun (t : State) => exec .stackPopDone s = .next t ∧ (win = false → ∀ k, s.finishPop sid (k + 1) = t.finishPop sid k)
        let undone := win = false → ∀ k, s.finishPop sid (k + 1) = s.modStrand sid fun st => { st with lane := { c with spill := none } }
        let traps := fun (t : Trap) (l : List (Nat × Nat)) => undone ∧ exec .stackPopDone s = .next (if s.mayTrap sid = true then
            (((s.logDenied (s.ctxOf sid) l).modStrand sid fun st => st.setLaneCtx win { c with spill := none }).takeTrap sid
              { t with lfault := true, sideB := b, unitNo := some n, lword := joinWord isEnd, fA := (c.side b).flagA, fB := (c.side b).flagB })
          else s)
        (st.parkL ≠ none → undone ∧ exec .stackPopDone s = .next s)
        ∧ (st.parkL = none →
          (∀ p, read = .error (.park p) → undone ∧ exec .stackPopDone s = .next (s.parkLane sid
            { p with sideB := b, unitNo := n, word := joinWord isEnd, fA := (c.side b).flagA, fB := (c.side b).flagB }))
          ∧ (∀ t l, read = .error (.trap t l) → traps t l)
          ∧ (∀ (r : Nat) (s1 : State), read = .ok (r, s1) →
            let old := recordSide r (c.a.mask ||| c.b.mask)
            (old = none → traps { code := 0x05 } [])
            ∧ (∀ (sd : Side), old = some sd → isEnd = true → sd.st = .parkedJoin → traps { code := 0x05 } [])
            ∧ (∀ (sd : Side) (s2 : State) (left : Nat) (fA fB : BitVec 4), old = some sd → s1.clauseOf sid sd.pc sd.hdr = (s2, left, fA, fB) →
              let kept := c.spilled.head?.getD (0, [], [])
              let c' : LaneCtx := { c with
                spill := none, depth := c.depth - 1, spilled := c.spilled.tail, a := (s2.strand sid).mergedSide c.a c.b isEnd n s.stepNo
                b := { sd with left := left, flagA := fA, flagB := fB, no := kept.1, past := kept.2.1, reissue := kept.2.2 } }
              (isEnd = false ∨ sd.st = .running → ends (puts s2 c'))
              ∧ (isEnd = true → sd.st = .parkedEnd → 1 < c.depth → ends (puts s2 { c' with spill := some (.pop b isEnd n) }))
              ∧ (isEnd = true → sd.st = .parkedEnd → c.depth ≤ 1 → ends (puts s2 c'.endBlock))))))
      ∧ (∀ (sd : Side) (live : W64), sd.live = true → sd.mask &&& live = 0 →
        recordSide sd.record live = some { pc := sd.pc, hdr := sd.hdr, mask := sd.mask, live := true, st := sd.st }))

/-- R16, R64, R118, R225, R227: WLTAKE waits for an idle lane stream as VGET waits outside a handler; the descriptor that it reads may be an illegal operand; a denial of an item's or the group's page goes before a translation fault of another; then it takes the smaller of 64 and the waiting items in one step at the home slice, counts the producers with .hold, and writes the items to the lanes from 0 up. R228, R229: WLDONE takes one from a group's producers, none of which is the fault; WLQUIET waits for the detector, or counts its flag. Where a clause rests on a choice of the model and not on a rule of the spec, the choice is that of log entries 28, 29, 30 and 31. -/
def Obligations.WorkLists : Prop :=
  (∀ (s s1 : State) (d a : BitVec 6) (h : BitVec 1) (n : BitVec 10) (o : W64),
      s.isRes s.cur = true → s.source a = some (o, s1) → s1.takes d = true → (n.toNat < s.me.budget ∧ n.toNat < 960 ∨ n = 969 ∨ n = 970) →
      (s.me.blocksRun = true → exec (.wltake d a h n) s = .next (s.waitScalar (some { port := 9, need := 1 })))
      ∧ (s.me.blocksRun = false → s.me.longs ≠ [] → exec (.wltake d a h n) s = .next (s.waitScalar none))
      ∧ (s.me.laneIdle = true → (s.me.segs.g.base.toNat + o.toNat) % 64 ≠ 0 → exec (.wltake d a h n) s = .next (s.trapScalar { code := 0x05 }))
      ∧ (s.me.laneIdle = true → (s.me.segs.g.base.toNat + o.toNat) % 64 = 0 →
        (∀ e, descPlace o.toNat 2 s1 = .error e → exec (.wltake d a h n) s = .next (s.scalarStop e))
        ∧ (∀ (s2 : State) (pa pol : Nat), descPlace o.toNat 2 s1 = .ok ((pa, pol), s2) →
          let die := dieOf (coreOf s.cur)
          let s3 := s2.toHome die pa pol
          let w := s3.wlDesc pa
          let cnt := min (sub64 w.tail w.head) 64
          (¬(w.ok = true ∧ w.ring % 4 = 0 ∧ w.group % 64 = 0) → exec (.wltake d a h n) s = .next ((s3.setStrand s3.cur s.me).trapScalar { code := 0x05 }))
          ∧ (w.ok = true → w.ring % 4 = 0 → w.group % 64 = 0 →
            let slotAt := fun j => wlPlace (w.slot (w.head + j)) { r := true } 0
            let group := wlPlace w.group { r := true, w := true } 2
            let denies := fun (m : M (Nat × Nat)) (t : Trap) (l : List (Nat × Nat)) => m s3 = .error (.trap t l)
            (∀ j t l, j < cnt → (∀ i < j, ∀ t' l', ¬denies (slotAt i) t' l') → denies (slotAt j) t l →
              exec (.wltake d a h n) s = .next (s.scalarStop (.trap t l)))
            ∧ ((∀ j < cnt, ∀ t l, ¬denies (slotAt j) t l) →
              (∀ t l, h = 1 → cnt ≠ 0 → denies group t l → exec (.wltake d a h n) s = .next (s.scalarStop (.trap t l)))
              ∧ ((h = 1 → cnt ≠ 0 → ∀ t l, ¬denies group t l) →
                ∀ e, ((List.range cnt).mapM fun j => do return (← slotAt j).1) s3 = .error e → exec (.wltake d a h n) s = .next (s.scalarStop e))
              ∧ ((h = 1 → cnt ≠ 0 → ∀ t l, ¬denies group t l) → ∀ (slots : List Nat) (s4 s5 s6 : State),
                ((List.range cnt).mapM fun j => do return (← slotAt j).1) s3 = .ok (slots, s4) →
                (if h = 1 ∧ cnt ≠ 0 then ∃ (ga gp : Nat) (t : State), group s4 = .ok ((ga, gp), s5)
                    ∧ s5.home8 (pa + 0x18) pol (w.head + cnt) = some t
                    ∧ (t.toHome die ga gp).home8 ga gp ((t.toHome die ga gp).slice8 ga + 1) = some s6
                  else s5 = s4 ∧ s4.home8 (pa + 0x18) pol (w.head + cnt) = some s6) →
                let items := (slots.map (s5.sliceNat · 4)).zip (List.range cnt)
                let put := fun (st : Strand) (p : (Nat × Bool) × Nat) =>
                  if n.toNat < 960 then st.putLane (vKey n.toNat p.2) (BitVec.ofNat 32 p.1.1)
                  else if n = 970 then st.putLane (lstatKey p.2) (BitVec.ofNat 32 p.1.1 &&& 0x00FF07FF) else st
                let bad := items.filter fun p => p.1.2
                let t := ((s6.setStrand s6.cur (items.foldl put s6.me)).holds (poisonHeld (bad != []) 0 (maskOf fun L => bad.any fun p => p.2 == L))).laneSeen
                exec (.wltake d a h n) s = .next (((t.dest d (BitVec.ofNat 64 cnt)).quietScan (s.ctxOf s.cur)).endScalar (s.me.pc + 4))))))))
  ∧ (∀ (s s1 s2 : State) (a : BitVec 6) (o : W64) (pa pol : Nat), s.isRes s.cur = true → s.source a = some (o, s1) →
      let die := dieOf (coreOf s.cur)
      let ctx := s.ctxOf s.cur
      let g := (s.me.segs.g.base.toNat + o.toNat) % 2 ^ 64
      (descPlace o.toNat 2 s1 = .ok ((pa, pol), s2) →
        let s3 := s2.toHome die pa pol
        (∀ t, s3.slice8 pa ≠ 0 → s3.home8 pa pol (s3.slice8 pa - 1) = some t → exec (.wldone a) s = .next ((t.quietScan ctx).endScalar (s.me.pc + 4)))
        ∧ (pol ≠ polREPL → s3.slice8 pa ≠ 0 → ∃ t, s3.home8 pa pol (s3.slice8 pa - 1) = some t)
        ∧ (s3.slice8 pa ≠ 0 → s3.home8 pa pol (s3.slice8 pa - 1) = none → exec (.wldone a) s = .next (s.waitScalar none))
        ∧ (s3.slice8 pa = 0 → exec (.wldone a) s = .next ((s3.setStrand s3.cur s.me).trapScalar { code := 0x05 })))
      ∧ (∀ e, descPlace o.toNat 2 s1 = .error e → exec (.wldone a) s = .next (s.scalarStop e))
      ∧ (s.quietMet.contains (s.cur, g) = true →
        exec (.wlquiet a 15) s = .next ((({ s1 with quietMet := s1.quietMet.filter (· != (s.cur, g)) } : State).acquires 4).endScalar (s.me.pc + 4)))
      ∧ (s.quietMet.contains (s.cur, g) = false → (s.quiets.any fun q => q.sid == s.cur && q.flag == 15 && q.group == g) = true →
        exec (.wlquiet a 15) s = .next (s.waitScalar none))
      ∧ (descPlace o.toNat 0 s = .ok ((pa, pol), s2) →
        (s.quietMet.contains (s.cur, g) = false → (s.quiets.any fun q => q.sid == s.cur && q.flag == 15 && q.group == g) = false →
          let t : State := { s2 with quiets := (s2.quiets.filter fun q => !(q.sid == s.cur && q.flag == 15)) ++ [{ sid := s.cur, flag := 15, ctx := ctx, group := g }] }
          exec (.wlquiet a 15) s = .next ((t.detectorPass ctx g).endScalar s.me.pc))
        ∧ (∀ (f : BitVec 4) s3, f ≠ 15 → s2.source a = some (o, s3) → s3.flagRoom f →
          let t := s3.countedPkg f
          let t : State := { t with quiets := t.quiets ++ [{ sid := s.cur, flag := f, ctx := ctx, group := g }] }
          exec (.wlquiet a f) s = .next ((t.detectorPass ctx g).endScalar (s.me.pc + 4))))
      ∧ (∀ e f, descPlace o.toNat 0 s = .error e → s.quietMet.contains (s.cur, g) = false →
        (s.quiets.any fun q => q.sid == s.cur && q.flag == 15 && q.group == g) = false → exec (.wlquiet a f) s = .next (s.scalarStop e)))

/-- R288, R299: the stream commands that work on the program's registers and its PC, and END. R261, R300 to R302, R306: NOTIFY, WAITV and FENCE: the effect, the release at the end, and the next command; a WAITV whose test fails waits; an address that is no multiple of 8 stops the program, and so does a credit to a place with no arrival barrier (0x09) or to a position with no team (0x03); a credit that reads a poisoned word of the barrier sets POIS. -/
def Obligations.StreamRegisterAndSyncCommands : Prop :=
  (∀ (s : State) (w : StreamW), s.progFree s.curProg →
      let n := s.curProg
      let i := (w.w0.extractLsb' 0 32).signExtend 64
      let cA := (w.w0.extractLsb' 40 4).toNat
      let cD := (w.w0.extractLsb' 44 4).toNat
      exec (.setReg w) s = .next (s.progAfter n .setReg fun p => { p.setReg (w.w0.extractLsb' 0 4).toNat w.w1 with pc := p.pc + 16 })
      ∧ exec (.addc w) s = .next (s.progAfter n .addc fun p => { p.setReg cD (p.reg cA + i) with pc := p.pc + 8 })
      ∧ exec (.streamLoop w) s = .next (s.progAfter n .streamLoop fun p =>
          { p.setReg cD (p.reg cD - 1) with pc := if p.reg cD = 1 then p.pc + 8 else p.pc + i * 8 })
      ∧ exec (.jmp w) s = .next (s.progAfter n .jmp fun p => { p with pc := p.pc + i * 8 })
      ∧ (∃ t, exec (.streamEnd w) s = .next t ∧ (t.prog n).running = false ∧ (t.prog n).code = 0 ∧ (t.prog n).detail = 0
          ∧ (t.prog n).sticky = (s.prog n).sticky ∧ (t.prog n).gen = (s.prog n).gen
          ∧ t.strand (s.prog n).kicker = (s.strand (s.prog n).kicker).decFlag (s.prog n).flag.toNat (s.prog n).saved
          ∧ t.hbm = s.hbm ∧ t.os = s.os))
  ∧ (∀ (s : State) (w : StreamW), s.progFree s.curProg →
      let n := s.curProg
      let p := s.prog n
      let g := s.progEng n
      let ca := p.reg (w.w0.extractLsb' 44 4).toNat
      let cv := p.reg (w.w0.extractLsb' 40 4).toNat
      let u := fun (op : StreamOp) => s.progHas n { op := op, w := w }
      let ends := fun (i : Instr) (op : StreamOp) (r : Run) => exec i s = .next (((r.into n).cmdRelease w).nextCmd n op.words)
      (∀ (i : Instr) (op : StreamOp) (m : E Unit), (i, op, m) ∈ [(Instr.notifyStore w, StreamOp.notifyStore, engWrite g ca.toNat (leBytes 8 cv.toNat)),
          (.notifyAdd w, .notifyAdd, notifyAddE g ca cv),
          (.waitv w, .waitv, do let x ← engRead g ca.toNat 8
                                if !waitTest (w.w0.extractLsb' 40 4).toNat (BitVec.ofNat 64 x) w.w1 then waitE)] →
        (ca.toNat % 8 ≠ 0 → exec i s = .next ((({ s := u op } : Run).into n).endProg n 0x01 0))
        ∧ (ca.toNat % 8 = 0 → (∀ r, runE m { s := u op } = .ok ((), r) → ends i op r)
          ∧ (∀ e, runE m { s := u op } = .error e → exec i s = .next (progStop n e))))
      ∧ (∀ t, s.target (p.targets.getD (w.w1.extractLsb' 26 2).toNat 0) = some t →
        let boff := (w.w1.extractLsb' 0 26).toNat
        let o := s.teamO t
        let stands := boff % 32 = 0 ∧ boff + 32 ≤ o.2 ∧ s.hasBarrier t.core (o.1 + boff) = true
        (stands → ends (.notifyCredit w) .notifyCredit {
          s := ((u .notifyCredit).abCredit t.core (o.1 + boff) (cv.extractLsb' 0 32).toNat).reimage t.core
          sticky := if s.osPois t.core (o.1 + boff) 12 = true then stPOIS else 0 })
        ∧ (¬stands → exec (.notifyCredit w) s = .next ((({ s := u .notifyCredit } : Run).into n).endProg n 0x09 0)))
      ∧ (s.target (p.targets.getD (w.w1.extractLsb' 26 2).toNat 0) = none →
        exec (.notifyCredit w) s = .next ((({ s := u .notifyCredit } : Run).into n).endProg n 0x03 0))
      ∧ ends (.streamFence w) .streamFence { s := u .streamFence }
      ∧ (∀ (x v : W64), waitTest 0 x v = decide (x = v) ∧ waitTest 1 x v = decide (x ≠ v)
        ∧ waitTest 2 x v = decide (v.toNat ≤ x.toNat) ∧ waitTest 3 x v = decide (x.toNat < v.toNat)))

/-- R261, R289, R290, R295 to R298, R306, R314, R316, R319: the commands that copy data. A command that breaks a rule stops the program with its status; one whose window is closed waits; otherwise its first chunk of units is copied, or its NVMe commands go out, and a copy that has ended releases, credits its barriers and goes on; a unit that stops or parks keeps what the units before it have done. Poisoned words of the barriers that it reads, at its acceptance, its wait and its end, set POIS. Where a clause rests on a choice of the model and not on a rule of the spec, the choice is that of log entries 38 and 56. -/
def Obligations.StreamDataCommands : Prop :=
  ∀ (s : State) (w : StreamW) (op : StreamOp) (i : Instr), s.progFree s.curProg →
    (op, i) ∈ [(StreamOp.tile, Instr.tile w), (.mcast, .mcast w), (.storeTile, .storeTile w), (.gather, .gather w), (.save, .save w), (.fetch, .fetch w)] →
    let n := s.curProg
    let s1 := (s.progTakes n op).acceptNote n op w
    (∀ e, s1.acceptData n op w = .error e → exec i s = .next ((s1.denyNs n op w e).endProg n e 0))
    ∧ (∀ c cp, s1.acceptData n op w = .ok c →
      let s0 := s1.modProg n fun p => { p with cur := some c }
      let s2 := s0.barNote n cp 8 8
      s0.curCopy n c = some cp →
      (s2.copyOpen cp = false → exec i s = .next (s2.modProg n fun p => { p with waiting := true }))
      ∧ (s2.copyOpen cp = true → 0 < cp.units →
        let c' := { c with begun := true }
        let s3 := (s2.modCur n fun c => { c with begun := true }).modProg n fun p => { p with waiting := false }
        let k := min (max 1 (65536 / max 1 (if op = .save then unitBytes c.hs cp.un else cp.destBytes))) cp.units
        let work := runE (unitsFrom (unitWork (s3.prog n) (s3.progEng n) c' cp) k 0) { s := s3 }
        let noted := fun (r : Run) => r.s.modProg n fun p => { p with cur := some { c' with pos := r.done, resid := r.resid, buf := r.buf } }
        let moved := fun (r : Run) => ({ r with s := noted r } : Run).into n
        (∀ r, op ≠ .save → op ≠ .fetch → work = .ok ((), r) →
          (k < cp.units → exec i s = .next ((moved r).modProg n fun p => { p with waiting := false }))
          ∧ (k = cp.units →
            let t := ((moved r).cmdRelease w).endBarriers n cp
            exec i s = .next (if (cp.mc && cp.tgts.any fun t' => (t.target t').isNone) = true then t.endProg n 0x03 0 else t.nextCmd n op.words)))
        ∧ (∀ code fa l r, op ≠ .fetch → work = .error (.stop code fa l r) → exec i s = .next (progStop n (.stop code fa l { r with s := noted r })))
        ∧ (∀ p b r, op ≠ .fetch → op ≠ .save → work = .error (.park p b r) → exec i s = .next (progStop n (.park p b { r with s := noted r })))
        ∧ (∀ r e, op = .save → work = .ok ((), r) → mget? s.ns (w.w0.extractLsb' 11 9).toNat = some e → 0 < nvmeCount e (storedLen cp c.hs) →
          exec i s = .next (((moved r).submitStep n 64).modProg n fun p => { p with waiting := decide (cp.units ≤ k) }))
        ∧ (∀ e, op = .fetch → mget? s.ns (w.w0.extractLsb' 11 9).toNat = some e → 0 < nvmeCount e (storedLen cp c.hs) →
          exec i s = .next ((s3.submitStep n 64).modProg n fun p => { p with waiting := true }))))
    ∧ (∀ cp : Copy, cp.destBytes = if cp.fill = true ∧ cp.os = true then cp.ub * cp.tgts.length else cp.ub)
    ∧ (∀ (u : State) (cp : Copy),
      (∀ j k, u.barNote n cp j k = if u.copyPois cp j k = true then u.modProg n fun p => { p with sticky := p.sticky ||| stPOIS } else u)
      ∧ (cp.bar = false → ∀ j k, u.copyPois cp j k = false)
      ∧ (∀ tk t j k, cp.bar = true → cp.tgts = [tk] → u.target tk = some t → u.hasBarrier t.core ((u.teamO t).1 + cp.boff) = true →
        (u.copyPois cp j k = true ↔ ∃ b < k, let a := (u.teamO t).1 + cp.boff + j + b
          (u.osLine t.core (a / 256)).poison.getLsbD (a / 4 % 64) = true))
      ∧ u.endBarriers n cp = (u.barNote n cp (if cp.fill = true then 0 else 8) (if cp.fill = true then 12 else 4)).copyBarriers cp
      ∧ (∀ h, u.handle (u.prog n).ctx (w.w0.extractLsb' 40 8).toNat = some h →
        copyOf (u.prog n) op w h ((u.handle (u.prog n).ctx (w.w0.extractLsb' 24 8).toNat).getD 0) = some cp →
        u.acceptNote n op w = if cp.fill = true then u.barNote n cp 8 4 else u))

/-- R289, R290, R294, R301, R318: what a program does without a new word: its next command is taken and checked, a chunk of at most 64 KiB of destination bytes of its units is copied, its work done it completes, a WAITV reads again, and a cancelled program stops at its boundary with status 0x08. R316, R320: an NVMe command completes: a Read's data, those that came with the completion or else those staged before it, are kept for its FETCH, and are copied while the program is halted; any other status than 0 stops the program with 0x0C; the command of a program that is gone is dropped. Where a clause rests on a choice of the model and not on a rule of the spec, the choice is that of log entries 11, 38 and 56. -/
def Obligations.StreamProgramMoves : Prop :=
  (∀ s : State,
      let n := s.ev.who
      let p := s.prog n
      p.running = true → p.halted = false → p.park = none →
      (∀ i op w t, p.cur = none → p.cancel = false → s.nextStream n = .cmd i t → i.streamOp? = some (op, w) →
        exec .streamCommandStart s = .next (t.acceptCmd n op w))
      ∧ (p.cur = none → p.cancel = true → exec .streamCommandStart s = .next (s.endProg n 0x08 0) ∧ exec .programStop s = .next (s.endProg n 0x08 0))
      ∧ (∀ c cp, p.cur = some c → s.curCopy n c = some cp →
        exec .streamChunk s = .next (((s.gateStep n c cp).moveStep n (chunkOf c cp)).submitStep n 64)
        ∧ chunkOf c cp = max 1 (65536 / max 1 (if c.op = .save then unitBytes c.hs cp.un else cp.destBytes))
        ∧ (s.dataDone n c cp = true →
          let t := (s.cmdRelease c.w).endBarriers n cp
          exec .streamCommandComplete s
            = .next (if (cp.mc && cp.tgts.any fun k => (t.target k).isNone) = true then t.endProg n 0x03 0 else t.nextCmd n c.op.words)))
      ∧ (∀ c, p.cur = some c → c.begun = false → p.cancel = true → exec .programStop s = .next (s.endProg n 0x08 0))
      ∧ (∀ c, p.cur = some c → c.op = .waitv → p.cancel = false →
        let g := s.progEng n
        let ca := p.reg (c.w.w0.extractLsb' 44 4).toNat
        ca.toNat % 8 = 0 → ∀ x r, runE (engRead g ca.toNat 8) { s := s } = .ok (x, r) →
        exec .waitvReread s = .next (
          if waitTest (c.w.w0.extractLsb' 40 4).toNat (BitVec.ofNat 64 x) c.w.w1 = true then ((r.into n).cmdRelease c.w).nextCmd n StreamOp.waitv.words
          else (r.into n).modProg n fun p => { p with waiting := true })))
  ∧ (∀ (s : State) (r : NvmeReq), s.nvme[s.ev.idx]? = some r →
      let n := r.prog
      let u : State := { s with nvme := s.nvme.eraseIdx s.ev.idx }
      let bs := if s.ev.bytes = [] then r.buf else s.ev.bytes
      ((s.prog n).running = false ∨ (s.prog n).gen ≠ r.gen → exec .nvmeCompletion s = .next u)
      ∧ ((s.prog n).running = true → (s.prog n).gen = r.gen →
        (s.ev.val ≠ 0 → exec .nvmeCompletion s = .next (u.endProg n 0x0C (BitVec.ofNat 8 s.ev.val)))
        ∧ (∀ c cp, s.ev.val = 0 → (s.prog n).cur = some c →
          let c' := { c with fin := c.fin + 1, data := if r.op = 2 then mput c.data r.n bs else c.data }
          let t := u.modCur n fun c => { c with fin := c.fin + 1, data := if r.op = 2 then mput c.data r.n bs else c.data }
          t.curCopy n c' = some cp →
          exec .nvmeCompletion s = .next (if c.op = .fetch ∧ (s.prog n).halted = true then t.moveStep n cp.units else t))))

/-- R345 to R349, R352 to R354: a home slice applies a request whole: a read gives the line's bytes, or zeros and the poison mark; a write puts its masked bytes and advances the tag; an atomic operation gives the old value and writes the new one, those of several lanes one after the other, at a poisoned line nothing. A line that HBM or the shared cache cannot correct (ev.flag false) joins the poison list, when that is full its page, and when those are full too the package has failed. Where a clause rests on a choice of the model and not on a rule of the spec, the choice is that of log entry 50. -/
def Obligations.HomeSliceRequests : Prop :=
  ∀ s : State, s.memOk →
    let r := s.ev.req
    let ln := r.pa / 128
    (s.inHbm r.pa = true →
      (r.kind = .read → exec .sliceRequest s
        = .next { s with ack := { tag := s.tag ln, data := if s.poisoned ln = true then 0 else lineOf s.hbm ln, poisoned := s.poisoned ln } })
      ∧ (∀ m d, r.kind = .write m d → ∃ t, exec .sliceRequest s = .next t
        ∧ (∀ a, memByte t.hbm a = if a / 128 = ln ∧ m.getLsbD (a % 128) = true then lineByte d (a % 128) else memByte s.hbm a)
        ∧ t.tag ln = s.tag ln + 1 ∧ t.ack.tag = s.tag ln + 1 ∧ (∀ k, k ≠ ln → t.tag k = s.tag k)
        ∧ t.poisonLines = (if m = BitVec.allOnes 128 then s.poisonLines.filter (· != ln) else s.poisonLines) ∧ t.poisonPages = s.poisonPages
        ∧ t.strands = s.strands ∧ t.dc = s.dc ∧ t.hostMem = s.hostMem)
      ∧ (∀ (op : BitVec 4) (w : Nat) (o : SliceOp), r.kind = .atomic op w false [o] → op.toNat ≤ 9 → opsFit w [o] = true → s.poisoned ln = false →
        let old := memNat s.hbm (ln * 128 + o.off) w
        let new := atomicOp op.toNat w old o.val.toNat o.cmp.toNat
        ∃ t, exec .sliceRequest s = .next t
          ∧ t.ack = { tag := s.tag ln + 1, vals := [BitVec.ofNat 64 old] } ∧ t.tag ln = s.tag ln + 1
          ∧ (∀ a, memByte t.hbm a = if ln * 128 + o.off ≤ a ∧ a < ln * 128 + o.off + w then BitVec.ofNat 8 (new / 2 ^ (8 * (a - (ln * 128 + o.off)))) else memByte s.hbm a))
      ∧ (∀ (op : BitVec 4) (w : Nat) (float : Bool) (ops : List SliceOp), r.kind = .atomic op w float ops → opsFit w ops = true → (float = true → w = 4) →
        (s.poisoned ln = false →
          let x := atomicLine fadd32 (if float = true then 10 else op.toNat) w (lineOf s.hbm ln) ops
          ∃ t, exec .sliceRequest s = .next t ∧ t.ack = { tag := s.tag ln + ops.length, vals := x.2 } ∧ t.tag ln = s.tag ln + ops.length
            ∧ lineOf t.hbm ln = x.1 ∧ (∀ a, a / 128 ≠ ln → memByte t.hbm a = memByte s.hbm a))
        ∧ (s.poisoned ln = true →
          exec .sliceRequest s = .next { s with ack := { tag := s.tag ln, vals := ops.map fun _ => 0, poisoned := true } })))
    ∧ (s.ev.flag = false → s.inHbm s.ev.addr = true → s.poisoned (s.ev.addr / 128) = false →
      (s.poisonLines.length < 8192 → exec .memoryUncorrectable s = .next { s with poisonLines := s.poisonLines ++ [s.ev.addr / 128] })
      ∧ (8192 ≤ s.poisonLines.length → s.poisonPages.length < 512 →
        exec .memoryUncorrectable s = .next { s with poisonPages := s.poisonPages ++ [s.ev.addr / 128 / 512] })
      ∧ (8192 ≤ s.poisonLines.length → 512 ≤ s.poisonPages.length → exec .memoryUncorrectable s = .next { s with fatal := true }))

/-- R98, R104, R355 to R357: replicated lines: a fill sets the die's sharer bit; a store is ordered at the sequencer, is written through at once and its update is sent to the sharers, unless 256 are in flight; an atomic's result is sent as a store's is; reads of the line wait on a sharing die until its commit, which applies the earliest update of the line to every sharing die at once and to no copy of another policy; and a die gives up a copy on its own. R353, R354, R359 to R361, R371, R374, R375, R381, R18: the host reads and writes HBM, is denied, loses its link and has it again, at full speed or below; it loads and stores its own memory, where it sees the host agent's dirty bytes; it masks a vector; the Basin die is lost. Where a clause rests on a choice of the model and not on a rule of the spec, the choice is that of log entries 7, 18 and 59. -/
def Obligations.ReplicationAndHostMemory : Prop :=
  (∀ s : State,
      let ln := s.ev.addr
      let die := s.ev.core
      (s.dieLive die = true → s.inHbm (ln * 128) = true → s.replMapped die s.ev.who ln = true → s.replBusy die ln = false →
        s.dcLine (repDie die) ln = none → (∀ l, s.dcLine die ln = some l → l.ctx = s.ev.who) →
        ∃ t, exec .replicatedFill s = .next t
          ∧ t.dcLine (repDie die) ln = some { ctx := s.ev.who, data := (s.sliceRead ln).1, poisoned := (s.sliceRead ln).2 }
          ∧ t.sharerMask ln = s.sharerMask ln ||| (1#8 <<< die) ∧ t.dcLine die ln = s.dcLine die ln ∧ t.hbm = s.hbm ∧ t.strands = s.strands)
      ∧ (let n := s.ev.bytes.length
         let k := ln / 128
         let m := byteMask (ln % 128) n
         let d := lineData (ln % 128) n (leValue s.ev.bytes)
         s.inHbm ln = true → s.replAnywhere k = true → 0 < n → ln % 128 + n ≤ 128 →
         (s.updates.length < 256 → exec .replicatedStore s
            = .next (({ s with updates := s.updates ++ [{ line := k, mask := m, data := d, sharers := s.sharerMask k }] } : State).sliceWrite k m d))
         ∧ (256 ≤ s.updates.length → exec .replicatedStore s = .next s))
      ∧ (∀ (k : Nat) (m : BitVec 128) (d : BitVec 1024) (who : Option Nat),
          (256 ≤ s.updates.length → s.replStore k m d who = none)
          ∧ (s.updates.length < 256 → ∃ t, s.replStore k m d who = some t ∧ t.dc = s.dc
            ∧ t.updates = s.updates ++ [{ line := k, mask := m, data := d, sharers := s.sharerMask k, who := who }]
            ∧ t.tag k = s.tag k + 1
            ∧ (∀ d', (s.sharerMask k).getLsbD d' = true → t.replBusy d' k = true)))
      ∧ (∀ (fadd : Nat → Nat → Nat) (k op w : Nat) (ops : List SliceOp) (who : Option Nat), s.poisoned k = false →
          let r := atomicLine fadd op w (lineOf s.hbm k) ops
          let t := (s.sliceAtomic fadd k op w true ops who).1
          (s.sliceAtomic fadd k op w true ops who).2 = (r.2, false) ∧ t.dc = s.dc ∧ t.sharers = s.sharers
          ∧ t.updates = s.updates ++ [{ line := k, mask := atomicMask w ops, data := r.1, sharers := s.sharerMask k, who := who }])
      ∧ (∀ i u, s.updates[i]? = some u → u.line = ln → (∀ j v, j < i → s.updates[j]? = some v → v.line ≠ ln) → ln < 2 ^ 41 →
        ∃ t, exec .commit s = .next t ∧ t.updates = s.updates.eraseIdx i ∧ t.hbm = s.hbm
          ∧ (∀ d l, d < 8 → s.dcLine (repDie d) ln = some l →
              t.dcLine (repDie d) ln = some (if u.sharers.getLsbD d = true
                then { l with data := mergeLine l.data u.data u.mask, poisoned := l.poisoned && u.mask != BitVec.allOnes 128 } else l))
          ∧ (∀ d, d < 8 → t.dcLine d ln = s.dcLine d ln)
          ∧ (∀ d k, k ≠ ln → k < 2 ^ 41 → t.dcLine d k = s.dcLine d k))
      ∧ (∀ l, die < 8 →
        (s.ev.flag = true → s.replBusy die ln = false → s.dcLine (repDie die) ln = some l →
          ∃ t, exec .dieCacheEviction s = .next t ∧ t.dcLine (repDie die) ln = none ∧ t.hbm = s.hbm
            ∧ t.sharerMask ln = s.sharerMask ln &&& ~~~(1#8 <<< die))
        ∧ (s.ev.flag = false → s.dcLine die ln = some l →
          (l.dirty = 0 → exec .dieCacheEviction s = .next (s.dcDrop die ln))
          ∧ (l.dirty ≠ 0 →
            let t := (s.sliceWrite ln l.dirty l.data).dcPut die ln { l with dirty := 0 }
            exec .dieCacheEviction s = .next ((if l.bad = true then t.poisonLine ln else t).dcDrop die ln)))))
  ∧ (∀ s : State,
      let pa := s.ev.addr
      let r := s.ev.size
      let n := s.ev.bytes.length
      (s.cacheUp = true → s.inHbm pa = true → 0 < r → pa % 128 + r ≤ 128 →
        (s.allowed 0x400 pa { r := true } = true →
          exec .hostCxlMemRead s = .next { s with ack := { tag := s.tag (pa / 128), data := BitVec.ofNat 1024 (s.sliceNat pa r).1, poisoned := (s.sliceNat pa r).2 } })
        ∧ (s.allowed 0x400 pa { r := true } = false →
          exec .hostCxlMemRead s = .next { s.denyPa 0x400 pa 0 with ack := { poisoned := true } }))
      ∧ (s.cacheUp = true → s.inHbm pa = true → 0 < n → pa % 128 + n ≤ 128 →
        let t := s.sliceWrite (pa / 128) (byteMask (pa % 128) n) (lineData (pa % 128) n (leValue s.ev.bytes))
        (s.allowed 0x400 pa { w := true } = true → exec .hostCxlMemWrite s = .next { t with ack := { tag := t.tag (pa / 128) } })
        ∧ (s.allowed 0x400 pa { w := true } = false → exec .hostCxlMemWrite s = .next (s.denyPa 0x400 pa 1)))
      ∧ (s.linkUp = false ∨ s.linkSlow = true → exec .hostCxlMemRead s = .next s ∧ exec .hostCxlMemWrite s = .next s ∧ s.hostFlush = s)
      ∧ exec .hostLinkDown s = .next { s with linkUp := false }
      ∧ (∃ t, exec .hostLinkUp s = .next t ∧ t.linkUp = true ∧ t.linkSlow = s.ev.flag
          ∧ t.hostLines = (if s.ev.flag = true then s.hostLines else []) ∧ t.hostOwed = (if s.ev.flag = true then s.hostOwed else [])
          ∧ t.hbm = s.hbm ∧ t.strands = s.strands
          ∧ ∃ l m, t.msixSent = s.msixSent ++ s.msixPending.filter (s.msixOpen.contains ·) ++ l
            ∧ t.msixPending = s.msixPending.filter (fun v => !s.msixOpen.contains v) ++ m)
      ∧ (∀ (a k : Nat) (bs : List Byte), s.cacheUp = true → mwf s.hostLines = true →
          (s.hostPeek a k).hostGot = (List.range k).map (fun i => s.hostByte (a + i))
          ∧ (∀ j, (s.hostPeek a k).hostByte j = s.hostByte j)
          ∧ (∀ j, (s.hostPoke a bs).hostByte j = if a ≤ j ∧ j < a + bs.length then bs.getD (j - a) 0 else s.hostByte j)
          ∧ (s.hostPoke a bs).hbm = s.hbm)
      ∧ (∀ v, s.linkUp = true → v ∉ (s.maskVector v).msixOpen ∧ (∀ w, w ≠ v → (w ∈ (s.maskVector v).msixOpen ↔ w ∈ s.msixOpen)))
      ∧ exec .basinLoss s = .next { s with fatal := true } ∧ step { s with fatal := true } = .fault .packageFatal)

/-- R86, R87, R135, R136: a walk installs the leaf that it finds; Retry ends the record and unparks every access on the page at its unit; Deliver ends the record and gives the translation trap to the strand whose access was parked, that of the scalar stream before that of the lane stream, once the strand may trap; a parked record write is a double trap. Where a clause rests on a choice of the model and not on a rule of the spec, the choice is that of log entry 41. -/
def Obligations.TranslationAnswers : Prop :=
  ∀ s : State,
    (∀ e, s.walk s.ev.who (s.ev.addr % 2 ^ 64) = .ok e → s.ev.core ≤ 8 →
      exec .translationWalk s = .next (s.install s.ev.core s.ev.who (s.ev.addr % 2 ^ 64) e))
    ∧ (∀ f, s.faults[s.ev.idx]? = some f → s.hostAnswers s.ev.idx = false →
      let i := s.ev.idx
      let ctx := f.park.ctx
      let page := f.park.page
      (∃ t, exec .retry s = .next t ∧ t.faults = s.faults.eraseIdx i ∧ t.hbm = s.hbm ∧ t.teams = s.teams
        ∧ ∀ sid, let st := s.strand sid
            let here := fun (p : Option Park) => parkedAt p f.xunit (dieOf (coreOf sid)) ctx page
            (t.strand sid) = { st with parkS := if here st.parkS = true then none else st.parkS
                                       parkL := if here st.parkL = true then none else st.parkL
                                       entryPark := if here st.entryPark = true then none else st.entryPark })
      ∧ (let u := ({ s with faults := s.faults.eraseIdx i } : State).deliverStrands f.xunit ctx page
         exec .deliver s = .next (if f.xunit < 8 then u.deliverDie f.xunit ctx page else ((u.deliverLaunch ctx page).deliverQuiet ctx page).deliverColls ctx page)))
    ∧ (∀ (sid xu ctx page : Nat),
      let st := s.strand sid
      let die := dieOf (coreOf sid)
      let mark := fun (p : Park) => if p.at xu die ctx page = true then { p with delivered := true } else p
      let u := s.modStrand sid fun st => { st with parkS := st.parkS.map mark, parkL := st.parkL.map mark }
      let given := s.deliverStrand sid xu ctx page
      (parkedAt st.entryPark xu die ctx page = true →
        given = (s.modStrand sid fun st => { st with entry := none, entryPark := none }).doubleTrap sid)
      ∧ (parkedAt st.entryPark xu die ctx page = false →
        (s.mayTrap sid = false → given = u)
        ∧ (s.mayTrap sid = true →
          (∀ p, st.parkS.map mark = some p → p.delivered = true → ∃ w : W32, given = u.takeTrap sid
            { code := 0x08, sfault := true, epc := some st.pc, sword := w, faddr := if p.kind = 3 then 0 else p.va })
          ∧ ((∀ p, st.parkS.map mark = some p → p.delivered = false) →
            (∀ q, st.parkL.map mark = some q → q.delivered = true → given = u.takeTrap sid
              { code := 0x08, lfault := true, sideB := q.sideB, unitNo := some q.unitNo, lword := q.word, tmask := q.tmask
                faddr := if q.kind = 3 then 0 else q.va, fA := q.fA, fB := q.fB })
            ∧ ((∀ q, st.parkL.map mark = some q → q.delivered = false) → given = u)))))

/-- R202, R203, R205, R371, R373, R380, R381: a queue's descriptor and doorbell: enabling starts HEAD, TAIL, sequence numbers and completions anew; disabling drains, also by a descriptor write that differs only in EN = 0 (with ERR = 1 too); a doorbell out of the ring sets ERR; a write of 1 to ERR clears it. The host's writes of a descriptor need W and the link; its doorbells need the link alone. R371, R373 to R378, R381, R395: the host's writes in the management space need the link and W, and are answered; MODE refuses reserved bits, PLIM what lies outside 1,000 to 3,200 W; an answer closes its entry, or is discarded and logged; other registers; a vector that is unmasked sends its pending signal. R352, R373, R378, R380, R381, R383, R384, R394, R395: the host reads the management space over CXL.io with R, and is denied without; status, measurements, the access table, the denial log, port status words (whose count of replays starts anew), PLIM, command results and the poison list are there, at the offsets that the model gives them inside their regions (log entry 14); reserved regions read 0. Where a clause rests on a choice of the model and not on a rule of the spec, the choice is that of log entries 14, 16, 23 and 70. -/
def Obligations.QueuesAndHostWrites : Prop :=
  (∀ s : State,
      let q := s.ev.who
      let d := s.queue q
      let v := s.ev.val
      let f := fun (o n : Nat) => v / 2 ^ o % 2 ^ n
      let fin := fun (t : State) => if s.ev.flag = true then t else { t with cio := some [] }
      let new : Queue := { d with lring := BitVec.ofNat 64 (f 8 56 * 256), cring := BitVec.ofNat 64 (f 136 56 * 256), ringlog := f 112 4, cqlog := f 116 4
                                  ctx := f 102 10, err := d.err && f 65 1 == 0 }
      (s.ev.flag = true ∨ s.linkUp = true ∧ s.hostMay true = true →
        (d.en = true → exec .queueDisable s = .next (fin (s.setQueue q { d with en := false, drain := s.draining q, park := none })))
        ∧ (d.en = false → d.drain = false → q < 32768 → 4 ≤ d.ringlog → d.ringlog ≤ 15 → 4 ≤ d.cqlog → d.cqlog ≤ 15 →
          ∃ t, exec .queueEnable s = .next t ∧ t.queue q = { d with en := true, head := 0, tail := 0, readCount := 0, written := 0 }
            ∧ (∀ k, k ≠ q → t.queue k = s.queue k) ∧ (∀ p ∈ t.completions, p.1 / 2 ^ 48 ≠ q) ∧ t.launches = s.launches)
        ∧ (d.err = true → exec .errClear s = .next (fin (s.setQueue q { d with err := false })))
        ∧ (q < 32768 → f 0 8 = 0 → f 66 36 = 0 → f 121 15 = 0 →
          (d.en = false → d.drain = false →
            (f 64 1 = 0 → exec .queueDescriptorWrite s = .next (fin (s.setQueue q new)))
            ∧ (f 64 1 = 1 → ringsOk (f 112 4) (f 116 4) = true → exec .queueDescriptorWrite s = .next (fin ((s.setQueue q new).enableQueue q)))
            ∧ (f 64 1 = 1 → ringsOk (f 112 4) (f 116 4) = false → exec .queueDescriptorWrite s = .next (fin s)))
          ∧ (d.en = true → f 64 1 = 0 → new.lring = d.lring → new.cring = d.cring → new.ringlog = d.ringlog → new.cqlog = d.cqlog → new.ctx = d.ctx →
            (d.err = true ∨ f 65 1 = 0) →
            exec .queueDescriptorWrite s = .next (fin ((s.setQueue q { d with err := new.err }).disableQueue q)))
          ∧ (d.en = true ∨ d.drain = true → new.lring ≠ d.lring ∨ new.cring ≠ d.cring ∨ new.ringlog ≠ d.ringlog ∨ new.cqlog ≠ d.cqlog ∨ new.ctx ≠ d.ctx →
            exec .queueDescriptorWrite s = .next (fin s))))
      ∧ (s.ev.flag = false → ∀ i ∈ [Instr.queueDescriptorWrite, .queueEnable, .queueDisable, .errClear],
          (s.linkUp = true → s.hostMay true = false → exec i s = .next { s.deny 4 0 0x400 1 (0x200000 + 32 * q) with cio := none })
          ∧ (s.linkUp = false → exec i s = .next s))
      ∧ (s.linkUp = true → s.ev.size = 4 → d.en = true → mget? s.queues q = some d →
        let w : W32 := BitVec.ofNat 32 v
        exec .doorbell s = .next (s.setQueue q (if (w - d.head).toNat ≤ 2 ^ d.ringlog then { d with tail := w } else { d with err := true })))
      ∧ (s.linkUp = true → s.ev.size = 4 → d.en = false → exec .doorbell s = .next s)
      ∧ (s.linkUp = true → s.ev.size ≠ 4 → exec .doorbell s = .next (s.deny 4 0 0x400 1 (0x100000 + 4 * q)))
      ∧ (s.linkUp = false → exec .doorbell s = .next s))
  ∧ (∀ s : State,
      let v := s.ev.val
      let off := s.ev.addr
      let n := s.ev.size
      let deny := fun (o : Nat) => ({ s.deny 4 0 0x400 1 o with cio := none } : State)
      (s.linkUp = false → ∀ i ∈ [Instr.modeWrite, .plimWrite, .serviceAnswer, .registerWrite], exec i s = .next s)
      ∧ (s.linkUp = true → s.hostMay true = false →
        exec .modeWrite s = .next (deny modeAt) ∧ exec .plimWrite s = .next (deny plimAt) ∧ exec .serviceAnswer s = .next (deny answerAt)
        ∧ (¬ (0x100000 ≤ off ∧ off < 0x120000) → exec .registerWrite s = .next (deny off)))
      ∧ (s.linkUp = true → s.hostMay true = true →
        exec .modeWrite s = .next { (if v < 32 then { s with mode := BitVec.ofNat 5 v } else s) with cio := some [] }
        ∧ exec .plimWrite s = .next { (if 1000 ≤ v ∧ v ≤ 3200 then { s with plim := v } else s) with cio := some [] }
        ∧ (∀ e, (s.svc.find? fun e => e.seq == off && e.posted) = some e →
          let a := s.answerEntry e n (BitVec.ofNat 64 v) (BitVec.ofNat 64 s.ev.val2) s.ev.bytes
          (∀ t, a = some t →
            exec .serviceAnswer s = .next { (({ t with svc := t.svc.filter fun e => e.seq != off } : State).svcFlush) with cio := some [] })
          ∧ (a = none → exec .serviceAnswer s = .next { s.deny 4 0 0x400 1 answerAt with cio := some [] }))
        ∧ ((s.svc.find? fun e => e.seq == off && e.posted) = none →
          exec .serviceAnswer s = .next { s.deny 4 0 0x400 1 answerAt with cio := some [] })
        ∧ (0xA00000 ≤ off → off + n ≤ 0xA00040 → s.mBusy = false →
          ∃ t, exec .registerWrite s = .next t
            ∧ ∀ i < 64, t.mcmd.extractLsb' (8 * i) 8
                = if off - 0xA00000 ≤ i ∧ i < off - 0xA00000 + n then BitVec.ofNat 8 (v / 2 ^ (8 * (i - (off - 0xA00000)))) else s.mcmd.extractLsb' (8 * i) 8)
        ∧ (0xA00000 ≤ off → off + n ≤ 0xA00040 → s.mBusy = true → exec .registerWrite s = .next { s.deny 4 0 0x400 1 off with cio := some [] })
        ∧ (off = 0xA00040 → 0 < n → v / 2 % 2 = 1 → exec .registerWrite s = .next { s with mDone := false, cio := some [] })
        ∧ (off = 0xA00048 →
          (s.mBusy = true → exec .registerWrite s = .next { s.deny 4 0 0x400 1 off with cio := some [] })
          ∧ (s.mBusy = false → v ≠ 1 → exec .registerWrite s = .next { s with cio := some [] })
          ∧ (s.mBusy = false → v = 1 → exec .registerWrite s = .next { s.runMcmd with cio := some [] })))
      ∧ (s.linkUp = true → 0x100000 ≤ off → off < 0x120000 →
        exec .registerWrite s = .next (if n = 4 ∧ off % 4 = 0 then s.doorbell ((off - 0x100000) / 4) (BitVec.ofNat 32 v) else s.deny 4 0 0x400 1 off))
      ∧ (let i := s.ev.idx
         s.msixOpen.contains i = false → s.linkUp = true → s.msixPending.contains i = true →
         exec .msixUnmask s = .next { s with msixOpen := s.msixOpen ++ [i], msixPending := s.msixPending.filter (· != i), msixSent := s.msixSent ++ [i] }))
  ∧ (∀ (s : State) (off n : Nat),
      let bell := 0x100000 ≤ off ∧ off < 0x120000
      (s.linkUp = false → s.hostRead off n = s)
      ∧ (s.linkUp = true → ¬ bell → s.hostMay false = false → s.hostRead off n = { s.deny 4 0 0x400 0 off with cio := none })
      ∧ (s.linkUp = true → bell ∨ s.hostMay false = true →
        (s.hostRead off n).cio = some ((List.range n).map fun i => s.mgmtByte (off + i))
        ∧ (s.hostRead off n).hbm = s.hbm ∧ (s.hostRead off n).strands = s.strands ∧ (s.hostRead off n).denials = s.denials
        ∧ ∀ p < 32, (mget? s.ports p).isSome = true →
          (s.hostRead off n).port p
            = if off ≤ 0x800000 + 64 * p + 4 ∧ 0x800000 + 64 * p + 4 < off + n then { s.port p with repl := 0 } else s.port p)
      ∧ (∀ k, s.startFailed = some k → s.mgmtWord 0 = 1 + k * 256) ∧ (s.startFailed = none → s.mgmtWord 0 = 0)
      ∧ s.mgmtWord 8 = s.livedies.toNat ∧ s.mgmtWord 0xFF8 = (if s.attBusy = true then 1 else 0)
      ∧ (∀ i < 8, ∀ j < 8, s.mgmtWord (0x100 + 64 * i + 8 * j) = (s.measOf i).toNat / 2 ^ (64 * j) % 2 ^ 64)
      ∧ (∀ q < 32768, ∀ j < 4, s.mgmtWord (0x200000 + 32 * q + 8 * j) = (s.queue q).word / 2 ^ (64 * j) % 2 ^ 64)
      ∧ s.mgmtWord 0x400000 = s.mode.toNat ∧ s.mgmtWord 0x900000 = s.plim
      ∧ (∀ r m, r < 1536 → m < 2048 → s.mgmtWord (0x500000 + (r * 2048 + m) / 32 * 8) / 4 ^ (m % 32) % 4 = (s.accEntry 0 r m).toNat)
      ∧ (∀ i d, s.denials[i]? = some d → i < 256 → s.mgmtWord (0x700000 + 16 * i + 8) = d.addr % 2 ^ 64)
      ∧ s.mgmtWord 0x701000 = s.denialCount.toNat
      ∧ (∀ p < 32, s.mgmtWord (0x800000 + 64 * p) = (s.port p).status.toNat)
      ∧ s.mgmtWord 0xA00050 = s.mres0.toNat ∧ s.mgmtWord 0xA00058 = s.mres1.toNat
      ∧ s.mgmtWord 0xA00040 = (if s.mBusy = true then 1 else 0) + (if s.mDone = true then 2 else 0) + s.mCmd.toNat * 2 ^ 8 + s.mResult.toNat * 2 ^ 16
      ∧ (∀ i ln, s.poisonLines[i]? = some ln → i < 8192 → s.mgmtWord (0xA10000 + 8 * i) = ln * 128 + 1)
      ∧ (∀ i p, s.poisonPages[i]? = some p → i < 512 → s.mgmtWord (0xA20000 + 8 * i) = p * 65536 + 1)
      ∧ (∀ o, 0x100000 ≤ o ∧ o < 0x200000 ∨ 0x300000 ≤ o ∧ o < 0x400000 → s.mgmtWord o = 0))

/-- R202, R204, R208 to R210, R101, R103, R216, R238: the life of a launch: its record is read and submitted in order, with the predecessors that it names as they stand then, one not submitted yet being status 4, its predecessors end, its gang starts after an acquire for each team, its teams retire (not while host memory owes them an observation), and its end writes the completion record into the queue's next slot; a record whose write is denied takes no slot and sets ERR. Where a clause rests on a choice of the model and not on a rule of the spec, the choice is that of log entries 39 and 43. -/
def Obligations.LaunchLife : Prop :=
  ∀ s : State,
    let k := s.ev.who
    let l := s.launch k
    (let d := s.queue k
     (s.launches.find? fun p => p.2.queue == k && !p.2.checked && p.2.st == .submitted) = none →
     d.en = true → d.err = false → d.head ≠ d.tail → d.park = none →
     let va := (d.lring.toNat + 256 * (d.head.toNat % 2 ^ d.ringlog)) % 2 ^ 64
     (∀ u pa, s.ringPlace d.ctx va 0 = .ok u pa →
        exec .launchRecordRead s = .next ((u.submit k (u.anyBytes pa 256)).checkLaunch u.submitNext))
     ∧ (∀ u, s.ringPlace d.ctx va 0 = .denied u → exec .launchRecordRead s = .next (u.recordLost k))
     ∧ (∀ p, s.ringPlace d.ctx va 0 = .park p → exec .launchRecordRead s = .next ((s.setQueue k { d with park := some p }).raiseFault 8 k 0 p))
     ∧ (s.ringPlace d.ctx va 0 = .wait → exec .launchRecordRead s = .next s))
    ∧ (∀ bs : List Byte,
      let d := s.queue k
      let t := s.submit k bs
      let j := t.launch s.submitNext
      j.queue = k ∧ j.seq = d.readCount ∧ j.ctx = d.ctx ∧ j.recBytes = bs ∧ (t.queue k).readCount = d.readCount + 1 ∧ (t.queue k).head = d.head + 1
      ∧ (j.predBad = true ↔ ∃ p ∈ recPreds bs, ∀ e, mget? s.queues p.1 = some e → e.ctx ≠ d.ctx ∨ e.readCount ≤ p.2)
      ∧ j.preds = (recPreds bs).map fun p => mget? s.completions (p.1 * 2 ^ 48 + p.2))
    ∧ (∀ b, recordInvalid l.recBytes b = false → layoutInvalid l.recBytes = false → blkOf l.recBytes b ≠ none → l.predBad = true →
      s.judge k b = s.endLaunch k 4)
    ∧ (l.st = .submitted → l.checked = true → l.hostDep = none →
      (recDepfail l.recBytes = true → (∃ p ∈ l.preds, p.getD 0 ≠ 0) → exec .launchReady s = .next (s.endLaunch k 5))
      ∧ ((recDepfail l.recBytes = false ∨ ∀ p ∈ l.preds, p = some 0) → (∀ p ∈ l.preds, p.isSome = true) →
        exec .launchReady s = .next (s.modLaunch k fun l => { l with st := .ready })))
    ∧ (let t := s.team k
       (t.st = .placed →
         exec .gangStart s = .next (((s.setOf t).filter fun p => p.2.st == .placed).foldl (fun s p =>
           (s.acquireAt (dieOf p.2.core) p.2.ctx 5).modTeam p.1 fun t => { t with st := .running }) s))
       ∧ (t.st = .running → t.sids = [] → (s.cacheUp = true ∨ ∀ w ∈ s.hostOwed, w / 256 ≠ k) →
           ∃ u, exec .teamRetire s = .next u ∧ (u.team k).st = .exited
           ∧ (mget? s.launches t.launch ≠ none → (u.launch t.launch).exited = (s.launch t.launch).exited + 1))
       ∧ (s.cacheUp = false → (∃ w ∈ s.hostOwed, w / 256 = k) → exec .teamRetire s = .next s))
    ∧ (mget? s.launches k = some l → l.st = .ended → l.written = false → l.park = none →
      let d := s.queue l.queue
      let va := (d.cring.toNat + 32 * (d.written % 2 ^ d.cqlog)) % 2 ^ 64
      let first := if l.status = 9 then l.first.getD 0 else if l.status = 10 then l.firstLoss.getD 0 else 0
      (∀ w pa, s.ringPlace d.ctx va 1 = .ok w pa →
        let x := (((w.anyPutBytes pa (leBytes 8 (l.seq + l.queue * 2 ^ 48) ++ leBytes 8 (fld l.recBytes 8 8) ++ leBytes 2 l.status ++ leBytes 2 0
          ++ leBytes 4 l.exited ++ leBytes 4 first ++ leBytes 4 0)).setQueue l.queue { d with written := d.written + 1 }).modLaunch k
            fun l => { l with slot := some d.written }).recordDone k
        exec .launchEnd s = .next (if recIrq l.recBytes = true then x.signal (1 + l.queue % 2047) else x))
      ∧ (∀ w, s.ringPlace d.ctx va 1 = .denied w → ∃ u, exec .launchEnd s = .next u
          ∧ (u.queue l.queue).err = true ∧ (u.queue l.queue).written = d.written ∧ (u.launch k).written = true)
      ∧ (∀ p, s.ringPlace d.ctx va 1 = .park p →
          exec .launchEnd s = .next ((s.modLaunch k fun l => { l with park := some p }).raiseFault 8 l.queue 0 p))
      ∧ (s.ringPlace d.ctx va 1 = .wait → exec .launchEnd s = .next s))

/-- R13, R211, R214 to R217, R245, R400: of the launches with teams to place, the oldest of the highest class that finds room is next, after every team that is ready to return; a launch that is next has its next cluster set, or its whole co-resident field, placed on the cores that are named, with room; every strand of a placed team begins at its role's entry with zero registers, its team's space is zero with no line state, and a test of the core ends. R231 to R234, R236, R320: a team past its threshold is evicted with its set; a halted one is saved where a higher class needs its room; what is saved has its place in the save area, whose bytes it changes; a saved group that is ready returns; a pre-emption that has stopped everything is done. Where a clause rests on a choice of the model and not on a rule of the spec, the choice is that of log entries 12, 40 and 68. -/
def Obligations.TeamPlacementAndMoves : Prop :=
  (∀ s : State,
      let k := s.ev.who
      let l := s.launch k
      (s.isNext k = true →
        s.wantsPlace l = true ∧ s.someReturning = false
        ∧ (∀ p ∈ s.launches, s.wantsPlace p.2 = true → recPrio p.2.recBytes = recPrio l.recBytes → k ≤ p.1)
        ∧ (∀ p ∈ s.launches, s.oldest p.1 = true → recPrio l.recBytes < recPrio p.2.recBytes → recCores p.2.recBytes = false ∧ s.findsRoom p.1 = false))
      ∧ (s.isNext k = true → s.ev.bytes ≠ [] →
        let cores := s.ev.bytes.map (·.toNat)
        let oAt := s.ev.addr / 256 * 256
        let xAt := s.ev.val / 256 * 256
        cores.length = l.batch →
        (∀ t, s.placeSets k oAt xAt cores l.placed = some t → exec .teamPlace s = .next t)
        ∧ (s.placeSets k oAt xAt cores l.placed = none → exec .teamPlace s = .next s)
        ∧ (∀ (id core : Nat) (t : State), s.placeTeam k id core oAt xAt = some t →
          let tm := t.team (teamKey k id)
          s.hasRoom core l.blk (recTseg l.recBytes) = true ∧ s.permitted l.recBytes (dieOf core) = true
          ∧ tm.st = .placed ∧ tm.core = core ∧ tm.ctx = l.ctx
          ∧ t.hbm = s.hbm ∧ t.testing = s.testing.filter (· != core)
          ∧ t.os = (s.freeSpace tm).os ∧ t.osLines = (s.freeSpace tm).osLines
          ∧ tm.sids.length = l.blk.strands
          ∧ ∀ sid ∈ tm.sids, coreOf sid = core ∧ (t.strand sid).team = teamKey k id
            ∧ (t.strand sid).pc = (l.blk.roles.getD (t.strand sid).role {}).entry.setWidth 64
            ∧ (t.strand sid).a = [] ∧ (t.strand sid).v = [])))
  ∧ (∀ s : State,
      let k := s.ev.who
      let t := s.team k
      (let set := (s.setOf t).filter fun p => p.2.alive
       t.st = .running → (∀ p ∈ set, s.evictable p.2 = true) → ∀ u, set.foldlM (fun s p => s.saveTeam p.1 .moving) s = some u → exec .eviction s = .next u)
      ∧ (t.st = .running → (∀ i ∈ t.sids, (s.strand i).halt ≠ .none) → (∃ i ∈ t.sids, (s.strand i).halt = .preempt) → s.copyable t = true → s.roomWanted t = true →
        ∀ u, s.saveTeam k .preempt = some u → exec .teamSave s = .next u)
      ∧ (t.st = .saved true → s.nextBack t = true → s.ev.bytes ≠ [] → s.ev.bytes.length = (s.backGroup t).length →
        ∀ u, s.bringBack ((s.backGroup t).zip (s.ev.bytes.map (·.toNat))) = some u → exec .teamReturn s = .next u)
      ∧ (∀ c, mget? s.ctxs k = some c → c.preempted = true →
        let u := s.preemptNow k
        (∀ b m, u.runningCmd = some (b, m) → u.allHalted k = true → (mgmtFields m).cmd = 0x04 → (mgmtFields m).ctx.toNat = k →
          exec .preemptionDone s = .next ((u.mgmtDone b (mgmtFields m) 0 0 0).mgmtNext u.mgmtQ.length))
        ∧ (u.allHalted k = false ∨ u.runningCmd = none
            ∨ (∃ b m, u.runningCmd = some (b, m) ∧ ((mgmtFields m).cmd ≠ 0x04 ∨ (mgmtFields m).ctx.toNat ≠ k)) → exec .preemptionDone s = .next u))
      ∧ (∀ (h : Halt) (u : State), s.saveTeam k h = some u → t.core < 64 → mget? s.teams k = some t →
        (u.team k).st = .saved false ∧ (u.team k).core = 64 + k ∧ (∀ i ∈ (u.team k).sids, coreOf i = 64 + k) ∧ (u.team k).sids.length = t.sids.length
        ∧ ∃ v a, s.takeGranules k t = some (v, a) ∧ (u.team k).image = some (s.stepNo, a, s.imageSize t)
          ∧ (∀ i < s.imageSize t, memByte u.hbm (a + i) = Config.imageByte s.stepNo i) ∧ u.imageIntact (u.team k) = true))

/-- R219 to R221: of the streams of a slot that are ready, the one issues whose wait age is 256 or more and the greatest, otherwise the highest class, otherwise the one that issued least recently, otherwise the lowest STRANDID; its age is 0 then, and that of every other ready stream of the slot grows by one. A named move of a stream waits for its slot's choice. R137, R223, R229, R235, R247, R266, R270, R285, R286, R293, R307: what becomes of a strand's waits: a full barrier's phase, a detector's pass, an overrun region (in which the strand does not issue before it takes its cause), an expired line, the limit of an ABWAIT, a granted claim, a granted slot. R261, R269, R270, R276, R277, R281, R283, R285, R286, R340: the matrix engine at work: the arrays and the store path each step the command that goes first of those that can, of two begun MXSTs the one that stepped last; a step that only begins starts the command, with the table of an MXRK, and notes the mapping of its exchange windows; a command that waits at a barrier whose words are poisoned reports it once; a command whose steps are done leaves the queue, zeroes or frees its tile, and its flag falls. Where a clause rests on a choice of the model and not on a rule of the spec, the choice is that of log entries 1, 37 and 56. -/
def Obligations.WaitingEvents : Prop :=
  (∀ (s : State) (isLane : Bool) (a b : Nat),
      let age := fun sid => if isLane = true then (s.strand sid).ageL else (s.strand sid).ageS
      let last := fun sid => (if isLane = true then (s.strand sid).lastL else (s.strand sid).lastS).map (· + 1)
      (256 ≤ age a → age b < 256 → s.goesBefore isLane a b = true ∧ s.goesBefore isLane b a = false)
      ∧ (256 ≤ age a → 256 ≤ age b → age b < age a → s.goesBefore isLane a b = true)
      ∧ (age a < 256 → age b < 256 →
        ((s.strand b).prio < (s.strand a).prio → s.goesBefore isLane a b = true ∧ s.goesBefore isLane b a = false)
        ∧ ((s.strand a).prio = (s.strand b).prio →
          ((last a).getD 0 < (last b).getD 0 → s.goesBefore isLane a b = true)
          ∧ (last a = last b → s.goesBefore isLane a b = decide (a < b))))
      ∧ (∀ ready, s.slotChoice isLane ready = some a → a ∈ ready ∧ ∀ c ∈ ready, c ≠ a → s.goesBefore isLane a c = true)
      ∧ (∀ ready sid st, ready.Nodup → mget? s.strands sid = some st →
        let st' := ((s.ageStreams isLane ready a).strand sid)
        (sid ∈ ready → sid = a → (if isLane = true then st'.ageL else st'.ageS) = 0)
        ∧ (sid ∈ ready → sid ≠ a → (if isLane = true then st'.ageL else st'.ageS) = age sid + 1)
        ∧ (sid ∉ ready → st' = st))
      ∧ (∀ sid t, 1 < (s.strands.filter fun p => slotKey p.1 == slotKey sid).length → s.namedTurn isLane sid = some t →
        let ready := (s.issuers.filter fun x => slotKey x == slotKey sid).filter (s.streamReady isLane)
        s.slotTurn isLane ready = some (sid, t) ∨ (s.slotTurn isLane ready = none ∧ t = s)))
  ∧ (∀ s : State,
      let sid := s.ev.who
      let st := s.strand sid
      let core := s.ev.core
      (let lvl := s.ev.idx / 16
       let n := s.ev.idx % 16
       s.barFull lvl n s.ev.addr = true → exec .barrierPhaseComplete s = .next (s.barComplete lvl n s.ev.addr))
      ∧ (∀ q qs u, s.quietOn sid s.ev.addr = q :: qs → q.park = none →
        (s.groupPass sid s.ev.addr = (.quiet, u) → exec .terminationPass s = .next (u.reportQuiet sid s.ev.addr))
        ∧ (s.groupPass sid s.ev.addr = (.busy, u) → exec .terminationPass s = .next u))
      ∧ (∀ t, s.isRes sid = true → st.npr = some t → t + 400 ≤ s.ticks (dieOf (coreOf sid)) →
        s.mayIssue sid = false
        ∧ exec .nprOverrun s = .next (s.setStrand sid { st with npr := none, held := st.held ++ [{ code := 0x0A }] }))
      ∧ (∀ t, st.npr = some t → s.ticks (dieOf (coreOf sid)) < t + 400 → exec .nprOverrun s = .next s)
      ∧ (s.osExpired core (s.osLine core s.ev.idx) = true → exec .lineExpiry s = .next (s.osExpire core s.ev.idx))
      ∧ (∀ w, st.waitAt = some w →
        exec .abwaitTLimit s = .next (if s.cycles (coreOf sid) < w.limit then { s with cycle := mput s.cycle (coreOf sid) w.limit } else s))
      ∧ ((s.tileBack.find? fun b => b.core == core) = none → ∀ h n, s.nextClaim core = some h → (s.strand h).claim = some n → (s.strand h).halt = .none →
        (s.strand h).entry = none → n ≤ (s.freeTiles core).length →
        exec .tileClaimGrant s = .next (((s.dropClaim h).takeTiles h n).modStrand h fun st => { st with claim := none, pc := st.pc + 4, lastS := some s.stepNo }))
      ∧ (∀ b, (s.tileBack.find? fun b => b.core == core) = some b → (s.tilesLeft b).length ≤ (s.freeTiles core).length →
        exec .tileClaimGrant s = .next (s.restoreTiles b))
      ∧ (∀ h hs k w u, s.skickWaiters core = h :: hs → (s.strand h).skick = some k → s.mayIssue h = true → s.fetchScalar h = .got w u →
        let s' : State := { s with cur := h, curWord := w.setWidth 96 }
        let r := fun i => (s'.group k.g 3).getD i 0
        ∀ (s0 s2 s3 : State) (bv : W64) (n : Nat),
          s'.isRes h = true → s'.groupReady k.g 3 → s'.source k.b = some (bv, s0) → s'.takes k.d = true → s'.flagRoom k.f → (r 0).toNat % 8 = 0 →
          (k.e = true ∧ bv.toNat = core ∧ core < 16 ∧ s2 = s'
            ∨ k.e = false ∧ bv.toNat < 256 ∧ ∃ hd pa pol host, s'.handle (s'.ctxOf h) bv.toNat = some hd
                ∧ xlateMine (hBase hd).toNat {} 0 0 0 (hBase hd) s' = .ok (.mem pa pol host, s2) ∧ core = stackOf pa) →
          s2.freeRelease 4 → s.dieLive (core / 2) = true → s.freeSlot core = some n → ((s2.releases 4).countedPkg k.f).source k.b = some (bv, s3) →
          let s4 := ({ s3 with skickQ := mset s3.skickQ core ((mget s3.skickQ core []).filter (· != h)) [] } : State).takeSlot h (core * 64 + n) (r 0) (r 1) (r 2) k.f (k.t == 1)
          let s5 := s4.setStrand s4.cur { s4.me with skick := none }
          exec .skickSlotGrant s = .next ((s5.dest k.d (BitVec.ofNat 64 (s5.ticket (core * 64 + n)))).endScalar ((s.strand h).pc + 4))))
  ∧ (∀ (s : State) (c : MxCmd),
      let core := s.ev.core
      let n := s.ev.idx
      let store := c.kind == .store
      (s.mxCmds core)[n]? = some c →
      (s.mxChoice core store ≠ some n → exec .matrixStep s = .next (s.mxWaitNote core n c))
      ∧ (let b := stBoff (c.regs.getD 4 0)
         let word := osTag (s.strand c.sid).segs.o.base.toNat + b + 8
         let bad := ∃ k < 4, (s.osLine core ((word + k) / 256)).poison.getLsbD ((word + k) / 4 % 64) = true
         (bad → s.mxBarPois core c = some (b + 8)) ∧ (¬bad → s.mxBarPois core c = none)
         ∧ (s.mxWaits core c = false ∨ c.raised.getLsbD 11 = true ∨ ¬bad → s.mxWaitNote core n c = s)
         ∧ (s.mxWaits core c = true → core < 64 → c.tile < 8 → firstOnTile (s.mxCmds core) n c = true → c.raised.getLsbD 11 = false → bad →
           ∃ c', (s.mxWaitNote core n c).mxCmds core = setAt (s.mxCmds core) n c' ∧ c'.raised.getLsbD 11 = true ∧ c'.pois = c.pois.or (some (b + 8))))
      ∧ (∀ (d : MxCmd) (x y : Nat), c.kind = .store → d.kind = .store → 0 < c.done → 0 < d.done → c.last = some x → d.last = some y →
        s.mxBefore c d = decide (y ≤ x))
      ∧ (c.started = true → c.start s = c)
      ∧ (c.started = false → c.kind = .rank → ∀ t, s.rkTable (coreOf c.sid) (cfgRt c.cfg) (s.ctxOf c.sid) = some t →
        c.start s = { c with started := true, table := t })
      ∧ (s.mxChoice core store = some n →
        s.mxRunnable core n = true
        ∧ (∀ m d, (s.mxCmds core)[m]? = some d → s.mxRunnable core m = true → (d.kind == .store) = store → s.mxBefore c d = true)
        ∧ (s.ev.flag = true → exec .matrixStep s = .next (s.mxPut core n c { c.start s with sels := s.mxSels c } {}))
        ∧ (s.ev.flag = false →
          let u := s.mxAge core n store
          let c1 := { c with age := 0, last := some s.stepNo, pick := if c.sels = [] then 0 else s.ev.val }
          (c.kind = .dense ∨ c.kind = .sparse → exec .matrixStep s = .next (u.mxDense core n c1))
          ∧ (c.kind = .rank → ∀ v c' g, rankGroup u (c1.start u) = (v, c', g) →
            exec .matrixStep s = .next (v.mxPut core n c1 { c' with done := c1.done + 1, sels := [], pick := 0 } g))
          ∧ (c.kind = .store → ∀ v g, storeGroup u c1 = (v, g) →
            exec .matrixStep s = .next (v.mxPut core n c1 { c1.start v with done := c1.done + 1 } g))))
      ∧ (c.isOver = true → core < 64 → c.tile < 8 → firstOnTile (s.mxCmds core) n c = true →
        exec .matrixCommandComplete s = .next (s.mxFinish core n c)
        ∧ ((s.strand c.sid).csr.ih = false →
        (c.kind = .store → c.free = true → ((s.mxFinish core n c).tile core c.tile).owner = none)
        ∧ (c.kind = .store → c.free = false → c.zero = true → ∀ e < 24576, mget? (s.mxFinish core n c).tileVal (elemKey core c.tile e) = none)
        ∧ (s.mxFinish core n c).mxCmds core = dropAt (s.mxCmds core) n)))

/-- R11, R226, R289, R311, R312, R320, R356, R382: an append reserves its slots in one step, counting in DROP the items past the room, or all of them where the descriptor breaks its layout; its items are written and TAIL passes them when every slot below has been committed; where the access tables deny the descriptor the items are lost; a SCOPY copies chunk by chunk, releases, credits, and its flag falls; it does not go on while its context is pre-empted, and stops at a fault or a failed check. Where a clause rests on a choice of the model and not on a rule of the spec, the choice is that of log entries 38, 41 and 56. -/
def Obligations.AppendsAndCopies : Prop :=
  ∀ s : State,
    (∀ a r, s.appends[s.ev.idx]? = some a → a.park = none → s.xlate a.die a.ctx a.desc { w := true } .mem = .ok r →
      let u := r.s.toHome a.die r.pa r.pol
      let d := u.wlDesc r.pa
      let all := a.items.map (·.1)
      let rest := s.appends.eraseIdx s.ev.idx
      (a.reserved = false → r.s.allowed a.ctx r.pa { w := true } = true →
        let n := a.items.length
        let room := 2 ^ d.caplog - sub64 d.resv d.head
        let m := min n room
        (d.ok = true → ∀ u1 u2, u.home8 (r.pa + 0x20) r.pol (d.resv + m) = some u1 →
          (if m < n then u1.home8 (r.pa + 0x30) r.pol (d.drop + (n - m)) else some u1) = some u2 →
          exec .compactionAppend s = .next (if m = 0 then { u2 with appends := rest }
            else u2.setAppend s.ev.idx { a with reserved := true, first := d.resv, items := a.items.take m }))
        ∧ (d.ok = false → ∀ u1, u.home8 (r.pa + 0x30) r.pol (d.drop + n) = some u1 → exec .compactionAppend s = .next { u1 with appends := rest })
        ∧ (r.pol = polREPL → 256 ≤ s.updates.length → exec .compactionAppend s = .next u))
      ∧ (a.reserved = false → r.s.allowed a.ctx r.pa { w := true } = false →
        exec .compactionAppend s = .next (({ r.s.denyPa a.ctx r.pa 2 with appends := rest } : State).loseItems a all a.desc))
      ∧ (a.reserved = true → r.s.allowed a.ctx r.pa { w := true } = true →
        (d.tail = a.first → a.lost = [] → ∀ u1 ps u2, u.placeItems a d (a.items.zip (List.range a.items.length)) = (u1, ps, none) →
          (∀ p ∈ ps, p.pa.isSome = true) →
          ({ ps.foldl putItem u1 with appends := rest } : State).home8 (r.pa + 0x28) r.pol (a.first + a.items.length) = some u2 →
          exec .tailCommit s = .next (u2.quietScan a.ctx))
        ∧ (d.tail ≠ a.first → exec .tailCommit s = .next u))
      ∧ (a.reserved = true → r.s.allowed a.ctx r.pa { w := true } = false →
        (a.lost = [] → all ≠ [] →
          exec .tailCommit s = .next (((r.s.denyPa a.ctx r.pa 2).setAppend s.ev.idx { a with lost := all }).loseItems a all a.desc))
        ∧ (a.lost = all → exec .tailCommit s = .next s)))
    ∧ (∀ c, (s.dieCopies s.ev.core)[s.ev.idx]? = some c → c.park = none →
      let die := s.ev.core
      let i := s.ev.idx
      let cp := c.copy
      let g : Eng := { ctx := s.ctxOf c.sid, die := die, agent := 3, unitNo := die, who := c.sid }
      let m := min (chunkUnits cp.destBytes) (cp.units - c.pos)
      (s.ctxHalted (s.ctxOf c.sid) = true → exec .scopyComplete s = .next s)
      ∧ (s.ctxHalted (s.ctxOf c.sid) = false →
        (c.pos = 0 → ∀ e, s.checkCopy cp = .error e → exec .scopyComplete s = .next (s.endScopy die i c (some (cp.failAt e))))
        ∧ (c.pos = 0 → s.checkCopy cp = .ok () → s.copyOpen cp = false → exec .scopyComplete s = .next s)
        ∧ (0 < c.pos ∨ s.checkCopy cp = .ok () ∧ s.copyOpen cp = true →
          (∀ r, runE (unitsFrom (tileUnit g cp) m c.pos) { s := s } = .ok ((), r) →
            let u := r.s.scopyNote c r.sticky
            (c.pos + m < cp.units → exec .scopyComplete s = .next (u.setCopy die i { c with pos := c.pos + m }))
            ∧ (cp.units ≤ c.pos + m → exec .scopyComplete s
                = .next (((u.engRelease (c.w.w0.getLsbD 56) (c.w.w0.extractLsb' 53 3).toNat).copyBarriers cp).endScopy die i c none)))
          ∧ (∀ code a d r, runE (unitsFrom (tileUnit g cp) m c.pos) { s := s } = .error (.stop code a d r) →
            exec .scopyComplete s = .next (((r.s.scopyNote c r.sticky).logDenied g.ctx d).endScopy die i c (some a))))))

/-- R365, R366, R368, R369, R380, R381, R390: the collective engine: chunk by chunk it tells a value that another package waits for, or writes results to every local rank, and ends when all are written and sent; it does nothing while its context is pre-empted; it aborts where its COLLs disagree or one has lost its team; and what a partial value, a root result, an abort message and a denied message from a peer do. Where a clause rests on a choice of the model and not on a rule of the spec, the choice is that of log entry 44. -/
def Obligations.CollectiveEvents : Prop :=
  ∀ s : State,
    let ctx := s.ev.who
    let gid := s.ev.addr
    let k := s.ev.idx
    let g := s.collGroup ctx gid k
    (∀ c cs, g = c :: cs → s.ctxHalted ctx = true → exec .collComplete s = .next s)
    ∧ (∀ c cs, g = c :: cs → s.collReady g ctx = true →
      (c.res ≠ [] → exec .collComplete s = .next (s.collPut g c))
      ∧ (∀ t vs q, c.res = [] → s.nextTell g c = some t → collVal s g c t.e0 t.n t.j t.i { s := s } = .ok (vs, q) →
        exec .collComplete s = .next (((q.coll c).modFirst c fun d => { d with told := (t.j, t.i, t.e0 + t.n) :: d.told }).tell c [t.port]
          (c.msgs 0 t.j t.i t.e0 vs)))
      ∧ (let n := min (chunkElems g c) (elemsOf c.hs - c.pos)
         c.res = [] → s.nextTell g c = none →
         (n = 0 → exec .collComplete s = .next (s.collEnd c.ctx c.gid c.k))
         ∧ (n ≠ 0 → dRemote c.desc 0 = false → s.collHas c c.pos n (rootLevel c.p) 0 = true → ∀ vs q,
           collVal s g c c.pos n (rootLevel c.p) 0 { s := s } = .ok (vs, q) → exec .collComplete s = .next ((q.coll c).collGot g c vs))
         ∧ (n ≠ 0 → dRemote c.desc 0 = true → partsFull (s.parts c true 0 0) c.pos n = true →
           exec .collComplete s = .next (s.collGot g c (partVals (s.parts c true 0 0) c.pos n))))
      ∧ (let n := c.res.length
         ∀ q, runE (unitsFrom (resultUnit g c.res c.pos) (g.length * n - c.wrote) c.wrote) { s := s } = .ok ((), q) →
         s.collPut g c = (((q.coll c).modFirst c fun d => { d with pos := c.pos + n, res := [], wrote := 0 }).tell c
           (if dRemote c.desc 0 = true then [] else remotePorts c.desc) (c.msgs 1 0 0 c.pos c.res)).collEnd c.ctx c.gid c.k)
      ∧ (c.pos = elemsOf c.hs → s.collQueued c = false → s.collEnd ctx gid k = s.collDone g (g.any (·.pois)))
      ∧ (c.pos ≠ elemsOf c.hs ∨ s.collQueued c = true → s.collEnd ctx gid k = s))
    ∧ (∀ c cs, g = c :: cs →
      ((∃ d ∈ g, d.lost = true) → c.pos ≠ elemsOf c.hs → exec .collAbort s = .next (s.collAbort ctx gid k .other))
      ∧ ((∀ d ∈ g, d.lost = false) ∨ c.pos = elemsOf c.hs →
        (groupMismatch g = true → exec .collAbort s = .next (s.collAbort ctx gid k .mismatch))
        ∧ (groupMismatch g = false → exec .collAbort s = .next s))
      ∧ (∀ b p, cs = [] → remotePorts c.desc = [p] → s.portMay p ctx true = false → (∀ d ∈ s.collDead, ¬(d.ctx = ctx ∧ d.gid = gid ∧ d.k = k)) →
        (s.collAbort ctx gid k b).denialCount = s.denialCount + 1))
    ∧ (let p := s.ev.who
       let m := s.ev.bytes
       (s.port p).up = true →
       (∀ c, (s.colls.find? fun c => c.expects p m) = some c →
        (s.portMay p c.ctx false = true →
         (mKind m ≤ 1 → c.agrees m = true → exec .collMessage s = .next { s with collParts := s.collParts ++
            [{ ctx := c.ctx, gid := c.gid, k := c.k, level := mLevel m, idx := mIdx m, root := mKind m == 1, first := mFirst m, vals := mVals (hFmt c.hs) m }] })
         ∧ (mKind m ≤ 1 → c.agrees m = false → exec .collMessage s = .next (s.collAbort c.ctx c.gid c.k .mismatch))
         ∧ (mKind m = 2 ∨ mKind m = 3 → exec .abortMessage s = .next (s.collAbort c.ctx c.gid c.k .other)))
        ∧ (s.portMay p c.ctx false = false → mKind m ≤ 1 →
          exec .collMessage s = .next (((s.deny 3 p c.ctx 0 0).sendMsg p (denialMsg m)).collAbort c.ctx c.gid c.k .denied)))
       ∧ ((s.colls.find? fun c => c.expects p m) = none → mKind m ≤ 1 →
         ((s.collDead.any fun d => d.expects p m) = true → exec .collMessage s = .next s)
         ∧ ((s.collDead.any fun d => d.expects p m) = false → exec .collMessage s = .next (s.holdMsg p m))))
    ∧ (∀ b c cs, g = c :: cs → cs = [] → remotePorts c.desc = [] → s.isRes c.sid = true → (s.strand c.sid).team = c.team →
      let u := s.collAbort ctx gid k b
      (∀ d ∈ u.colls, ¬(d.ctx = ctx ∧ d.gid = gid ∧ d.k = k)) ∧ (∃ d ∈ u.collDead, d.ctx = ctx ∧ d.gid = gid ∧ d.k = k)
      ∧ u.strand c.sid = (let st := (s.strand c.sid).decFlag c.flag.toNat c.saved
          match b.cause c with
          | some h => { st with held := st.held ++ [h] }
          | none => st))

/-- R371, R378 to R382: the command mailbox: a command of the host needs the link and W, and is discarded and logged while BUSY = 1; commands run one after another; one with a RESULT that is not 0 changes nothing else; done, it leaves MRES, RESULT and DONE (Ultik's own its results apart) and signals when asked; one that is not done at once goes on, and the commands that wait run after it. R89, R128, R234, R238, R313, R348, R354, R379, R380, R391, R393: what the management commands do, and their RESULTs. Where a clause rests on a choice of the model and not on a rule of the spec, the choice is that of log entries 46 and 47. -/
def Obligations.ManagementMailbox : Prop :=
  (∀ (s : State),
      let u := s.ev.flag
      let b := if u = true then BitVec.ofNat 512 (leValue s.ev.bytes) else s.mcmd
      let m := mgmtFields b
      let fin := fun (t : State) => if u = true then t else { t with cio := some [] }
      let done := fun (m : MgmtW) (t : State) (res v0 v1 : Nat) =>
        let x : State := if u = true then { t with uBusy := false, uResult := BitVec.ofNat 16 res, uRes0 := BitVec.ofNat 64 v0, uRes1 := BitVec.ofNat 64 v1 }
          else { t with mBusy := false, mDone := true, mCmd := m.cmd, mResult := BitVec.ofNat 16 res, mres0 := BitVec.ofNat 64 v0, mres1 := BitVec.ofNat 64 v1 }
        if m.flags.getLsbD 0 = true then x.signal 0 else x
      (∀ (i : Instr) (cmd : MgmtW → State → MgmtOut),
        (i, cmd) ∈ [(Instr.ctxcreate, cmdCtxcreate), (.ctxend, cmdCtxend), (.xinv, cmdXinv), (.preempt, cmdPreempt), (.resume, cmdResume), (.kill, cmdKill),
          (.teamgo, cmdTeamgo), (.touch, cmdTouch), (.nsdef, cmdNsdef), (.atset, cmdAtset), (.tagrd, cmdTagrd), (.poisonclr, cmdPoisonclr),
          (.lossrel, cmdLossrel), (.portfail, cmdPortfail), (.portset, cmdPortset), (.migrate, cmdMigrate), (.unknownCmd, fun _ s => .done 1 0 0 s)] →
        let goes := i = .xinv ∨ i = .migrate ∨ i = .atset
        (u = true ∨ s.linkUp = true ∧ s.hostMay true = true →
          (s.runningCmd = none → s.mgmtQ = [] →
            let s' : State := { s with mStart := s.stepNo, moving := [] }
            (∀ v0 v1 t, cmd m s' = .done 0 v0 v1 t → exec i s = .next (fin (done m t 0 v0 v1)))
            ∧ (∀ res v0 v1 t, res ≠ 0 → cmd m s' = .done res v0 v1 t → exec i s = .next (fin (done m s' res v0 v1)))
            ∧ (∀ t, cmd m s' = .busy t →
              exec i s = .next (fin (if u = true then { t with uBusy := true, uCmd := b } else { t with mBusy := true, mCmd := m.cmd }))))
          ∧ (¬ goes → u = false → s.mBusy = true → exec i s = .next (fin (s.deny 4 0 0x400 1 mgoAt)))
          ∧ (¬ goes → (u = true ∨ s.mBusy = false) → (s.runningCmd ≠ none ∨ s.mgmtQ ≠ []) →
            exec i s = .next (fin { s with mgmtQ := s.mgmtQ ++ [if u = true then some b else none], mBusy := s.mBusy || !u })))
        ∧ (u = false → (s.runningCmd = none ∨ ¬ goes) →
          (s.linkUp = true → s.hostMay true = false → exec i s = .next { s.deny 4 0 0x400 1 mgoAt with cio := none })
          ∧ (s.linkUp = false → exec i s = .next s)))
      ∧ (∀ (i : Instr) (code : Nat) (cmd : MgmtW → State → MgmtOut) (b' : BitVec 512),
        (i, code, cmd) ∈ [(Instr.xinv, 0x03, cmdXinv), (.migrate, 0x08, cmdMigrate), (.atset, 0x0B, cmdAtset)] →
        s.runningCmd = some (u, b') → (mgmtFields b').cmd.toNat = code →
        let m' := mgmtFields b'
        (∀ v0 v1 t, cmd m' s = .done 0 v0 v1 t → exec i s = .next ((done m' t 0 v0 v1).mgmtNext s.mgmtQ.length))
        ∧ (∀ res v0 v1 t, res ≠ 0 → cmd m' s = .done res v0 v1 t → exec i s = .next ((done m' s.unmove res v0 v1).mgmtNext s.mgmtQ.length))
        ∧ (∀ t, cmd m' s = .busy t → exec i s = .next (t.mgmtNext s.mgmtQ.length)))
      ∧ (∀ n o q, s.mgmtQ = o :: q → s.runningCmd = none →
        s.mgmtNext (n + 1) = (({ s with mgmtQ := q } : State).runMgmt o.isSome (o.getD s.mcmd) (cmdBody (mgmtFields (o.getD s.mcmd)).cmd.toNat)).mgmtNext n)
      ∧ (∀ n, s.runningCmd ≠ none → s.mgmtNext n = s))
  ∧ (∀ (s : State) (m : MgmtW), m.flags.toNat ≤ 1 → m.resv = 0 →
      let c := m.ctx.toNat
      let rest0 := m.w3 = 0 ∧ m.w4 = 0 ∧ m.w5 = 0 ∧ m.w6 = 0 ∧ m.w7 = 0
      (1023 < c → m.w1 = 0 → m.w2 = 0 → rest0 → ∀ cmd ∈ [cmdCtxend, cmdXinv, cmdPreempt, cmdResume, cmdTouch, cmdLossrel, cmdKill], cmd m s = .done 2 0 0 s)
      ∧ (c ≤ 1023 → mget? s.ctxs c = none → m.w1 = 0 → m.w2 = 0 → rest0 →
        (∀ cmd ∈ [cmdCtxend, cmdXinv, cmdPreempt, cmdResume, cmdTouch, cmdLossrel, cmdKill, cmdTeamgo, cmdMigrate], cmd m s = .done 3 0 0 s)
        ∧ (s.startFailed = none → ∃ t, cmdCtxcreate m s = .done 0 0 0 t ∧ mget? t.ctxs c = some { troot := 0, saveBase := 0, saveLen := 0, touched := 0 }
            ∧ (∀ p ∈ t.tlb, p.1 / 2 ^ 48 % 1024 ≠ c) ∧ t.hbm = s.hbm))
      ∧ (c ≤ 1023 → mget? s.ctxs c = none → m.w4.toNat < 256 → m.w5 = 0 → m.w6 = 0 → m.w7 = 0 →
        let root := m.w1.toNat
        let base := m.w2.toNat
        let n := m.w3.toNat
        let suits := root % 4096 = 0 ∧ (n = 0 ∨ base % 65536 = 0 ∧ n % 65536 = 0 ∧ s.inHbm base = true ∧ base + n ≤ (stackOf base + 1) * 0xC00000000)
        let dies : Byte := if n = 0 then 0 else 1#8 <<< dieOfPa base
        (s.startFailed ≠ none → cmdCtxcreate m s = .done 4 0 0 s)
        ∧ (s.startFailed = none → ¬ suits → cmdCtxcreate m s = .done 2 0 0 s)
        ∧ (s.startFailed = none → suits → ∃ t, cmdCtxcreate m s = .done 0 0 0 t
          ∧ mget? t.ctxs c = some { troot := root, saveBase := if n = 0 then 0 else base, saveLen := n, touched := m.w4.setWidth 8 ||| dies }
          ∧ (∀ kind u, t.accEntry kind u c = 0) ∧ (∀ kind u w, w < 4096 → w ≠ c → t.accEntry kind u w = s.accEntry kind u w)
          ∧ (∀ d, d ≠ c → mget? t.ctxs d = mget? s.ctxs d)))
      ∧ (∀ x, c ≤ 1023 → mget? s.ctxs c = some x → rest0 →
        (m.w1 = 0 → m.w2 = 0 → cmdCtxcreate m s = .done 4 0 0 s)
        ∧ (m.w1.toNat % 65536 = 0 → m.w2.toNat % 65536 = 0 → ∃ t, cmdXinv m s = (if s.inFlight c = true then .busy t else .done 0 0 0 t)
          ∧ ∀ k e, (k, e) ∈ t.tlb ↔ (k, e) ∈ s.tlb ∧ ¬(k / 2 ^ 48 % 1024 = c ∧ (m.w2.toNat = 0 ∨ m.w1.toNat / 65536 ≤ k % 2 ^ 48 ∧ k % 2 ^ 48 < m.w1.toNat / 65536 + m.w2.toNat / 65536)))
        ∧ (m.w2 = 0 → m.w1.toNat < 256 → cmdTouch m s
            = .done 0 0 0 { s with ctxs := mmod s.ctxs c fun x => { x with touched := x.touched ||| (m.w1.setWidth 8 &&& s.live) } })
        ∧ (m.w1 = 0 → m.w2 = 0 → cmdPreempt m s = if (s.preemptCtx c).allHalted c = true then .done 0 0 0 (s.preemptCtx c) else .busy (s.preemptCtx c))
        ∧ (m.w1 = 0 → m.w2 = 0 → cmdResume m s = .done 0 0 0 ((List.range 32).foldl State.flowPort (s.resumeCtx c)))
        ∧ (m.w1 = 0 → m.w2 = 0 → (s.queues.any fun p => p.2.ctx == c && (p.2.en || p.2.drain)) = true → cmdCtxend m s = .done 4 0 0 s)
        ∧ (m.w1 = 0 → m.w2 = 0 → (s.queues.any fun p => p.2.ctx == c && (p.2.en || p.2.drain)) = false →
          let t := ((((s.ctxLaunches c).foldl (fun s k => s.killLaunch k 8) s).stopProgs c 0x08).abortAll c .other).forgetCtx c
          cmdCtxend m s = .done 0 0 0 { t with ctxs := mdel t.ctxs c })
        ∧ (m.w2 = 0 → s.launchNamed c m.w1 = none → cmdKill m s = .done 3 0 0 s)
        ∧ (∀ k, m.w2 = 0 → s.launchNamed c m.w1 = some k → cmdKill m s = .done 0 0 0 (s.killLaunch k 8))
        ∧ (m.w1 = 0 → m.w2 = 0 →
          (x.lossHeld = true → x.lossHost = s.ev.flag → cmdLossrel m s = .done 4 0 0 s)
          ∧ (x.lossHeld = true → x.lossHost ≠ s.ev.flag →
            cmdLossrel m s = .done 0 0 0 { s with ctxs := mmod s.ctxs c fun x => { x with lossHeld := false } })
          ∧ (x.lossHeld = false → cmdLossrel m s = .done 0 0 0 { s with ctxs := mmod s.ctxs c fun x => { x with lossHeld := false } }))
        ∧ (m.w1 = 1 → m.w2 = 0 → x.lossHeld = true → x.lossHost ≠ s.ev.flag → mwf s.launches = true →
          ∃ t, cmdLossrel m s = .done 0 0 0 t ∧ (∃ z, mget? t.ctxs c = some z ∧ z.lossHeld = false)
            ∧ (∀ k l, mget? s.launches k = some l → l.ctx = c → l.st ≠ .ended → l.isOver = false →
              let all := l.placed = recTeams l.recBytes ∧ l.st = .ready
              (all → t.launch k = l)
              ∧ (¬ all → l.placed = 0 → (t.launch k).st = .ended ∧ (t.launch k).status = 10 ∧ mget? t.completions (l.queue * 2 ^ 48 + l.seq) = some 10)
              ∧ (¬ all → 0 < l.placed → (t.launch k).cancelled = true ∧ (t.launch k).status = max l.status 10 ∧ (t.launch k).placed = l.placed))
            ∧ (∀ k l, mget? s.launches k = some l → l.ctx ≠ c → (t.launch k).st = l.st ∧ (t.launch k).placed = l.placed ∧ (t.launch k).status = l.status))
        ∧ (m.w2 = 1 → cmdKill m s = .done 0 0 0 (((s.ctxLaunches c).foldl (fun s k => s.killLaunch k 8) s).stopProgs c 0x08)))
      ∧ (c ≤ 1023 → mget? s.ctxs c ≠ none → rest0 →
        (s.teamNamed c m.w1 m.w2 = none → cmdTeamgo m s = .done 3 0 0 s)
        ∧ (∀ key, s.teamNamed c m.w1 m.w2 = some key →
          let sids := (s.team key).sids
          ((∀ sid ∈ sids, (s.strand sid).halt ≠ .byHalt) → cmdTeamgo m s = .done 4 0 0 s)
          ∧ ((∃ sid ∈ sids, (s.strand sid).halt = .byHalt) → ∃ t, cmdTeamgo m s = .done 0 0 0 t ∧ t.teams = s.teams ∧ t.hbm = s.hbm ∧ t.os = s.os
            ∧ ∀ sid, t.strand sid = if sid ∈ sids ∧ (s.strand sid).halt = .byHalt
                then { s.strand sid with halt := if s.ctxHalted c = true then .preempt else .none } else s.strand sid)))
      ∧ (∀ key core, c ≤ 1023 → mget? s.ctxs c ≠ none → m.w4 = 0 → m.w5 = 0 → m.w6 = 0 → m.w7 = 0 → m.w3.toNat = core → core < 64 →
        s.teamNamed c m.w1 m.w2 = some key → s.dieLive (dieOf core) = true →
        let from' := (s.team key).core
        let hosts := (s.mode.getLsbD 3 = true ∨ ∃ i < 4, 2 ≤ (s.region from' i).action) ∧ s.heat.contains from' = false ∧ s.retired.contains from' = false
        (s.ev.flag = true → s.moving = [] → hosts → cmdMigrate m s = .done 4 0 0 s)
        ∧ ((s.ev.flag = false ∨ s.moving ≠ [] ∨ ¬ hosts) →
          ((s.team key).st ≠ .running → cmdMigrate m s = .done 4 0 0 s)
          ∧ ((s.team key).st = .running → (s.team key).core = core → cmdMigrate m s = .done 0 0 0 s)
          ∧ ((s.team key).st = .running → (s.team key).core ≠ core → cmdMigrate m s = s.migrate key core)))
      ∧ (c = 0 → rest0 →
        (∀ pa, pa = m.w1.toNat → m.w2 = 0 →
          cmdTagrd m s = (if s.inHbm pa = true ∧ pa % 128 = 0 then .done 0 (s.tag (pa / 128)).toNat (sliceOf pa) s else .done 2 0 0 s)
          ∧ cmdPoisonclr m s = (if s.inHbm pa = true ∧ pa % 65536 = 0 then
              (if s.poisonPages.contains (pa / 65536) = true then .done 0 0 0 { s with poisonPages := s.poisonPages.filter (· != pa / 65536) } else .done 3 0 0 s)
            else .done 2 0 0 s)
          ∧ (pa < 32 → cmdPortfail m s = if (s.port pa).up = true then .done 4 0 0 s else .done 0 0 0 (s.failPort pa)))
        ∧ (m.w2.toNat < 4 → m.w1.toNat < 2 ^ 48 → m.w1.toNat / 2 ^ 4 % 2 ^ 12 = 0 →
          let kind := m.w1.toNat % 16
          let u := m.w1.toNat / 2 ^ 16 % 2 ^ 16
          let w := m.w1.toNat / 2 ^ 32
          let t : State := { s with acc := mset s.acc (accKey kind u w) (m.w2.setWidth 2) 0 }
          let may := s.ev.flag = true ∨ s.mStart ≠ s.stepNo ∨ s.hostMay true = true
          (may → cmdAtset m s = if accRange kind u w = true then (if s.inFlight w = true then .busy t else .done 0 0 0 t) else .done 2 0 0 s)
          ∧ (¬ may → cmdAtset m s = .done 5 0 0 s))
        ∧ (m.w1.toNat < 512 → m.w2 = 0 → s.nsUsed m.w1.toNat = false → cmdNsdef m s = .done 0 0 0 { s with ns := mdel s.ns m.w1.toNat }))
      ∧ (c = 0 → m.w1.toNat < 512 → m.w2.toNat < 2 ^ 33 → m.w4.toNat < 2 ^ 48 → m.w5.toNat < 2 → m.w6 = 0 → m.w7 = 0 →
        let e := m.w1.toNat
        (s.nsUsed e = true → cmdNsdef m s = .done 4 0 0 s)
        ∧ (s.nsUsed e = false → m.w5 = 1 → ∃ t, cmdNsdef m s = .done 0 0 0 t ∧ (∀ d, d ≠ e → mget? t.ns d = mget? s.ns d)
          ∧ ∃ x : NsEntry, mget? t.ns e = some x ∧ x.nsid = m.w2.setWidth 32 ∧ x.big = m.w2.getLsbD 32 ∧ x.cap = m.w3.toNat
            ∧ x.sq = m.w4.toNat % 2 ^ 16 ∧ x.cq = m.w4.toNat / 2 ^ 16 % 2 ^ 16 ∧ x.depth = m.w4.toNat / 2 ^ 32))
      ∧ (c = 0 → m.w1.toNat < 32 → m.w4 = 0 → m.w5 = 0 → m.w6 = 0 → m.w7 = 0 →
        let n := m.w2.toNat
        cmdPortset m s = if (n = 1 ∨ n = 2 ∨ n = 4 ∨ n = 8) ∧ m.w3 ≠ 0 ∧ m.w3.toNat ≤ 1000
          then .done 0 0 0 (s.setPort m.w1.toNat { s.port m.w1.toNat with minwl := n, idle := m.w3.toNat }) else .done 2 0 0 s))

/-- R6, R387, R389, R391 to R393, R18: a port trains for 1000 ticks and comes up with a width and wavelengths that both sides have named, its flits going out over the live wavelengths in turn; it parks when its traffic would have fitted in half its width, and wakes when a flit has waited; it goes down after 1000 ticks of silence; the loss of a Col die takes its eight ports down. R387 to R393: a fabric port receives: a bad CRC or a SEQ out of order is answered with a NAK, a control flit acts on the port, a data flit in order joins its message; the control flits one by one, RET with PERMIT; and messages of classes 0, 1 and 4. Where a clause rests on a choice of the model and not on a rule of the spec, the choice is that of log entries 45 and 69. -/
def Obligations.FabricPorts : Prop :=
  (∀ s : State,
      let p := s.ev.who
      let x := s.port p
      let now := s.portNow p
      (p < 32 → x.up = false → x.training = false → s.colLive.getLsbD (p / 8) = true →
        ∃ t, exec .portComesUp s = .next t ∧ (t.port p).training = true ∧ (t.port p).up = false ∧ (t.port p).sent.length = x.sent.length + 128
          ∧ (t.port p).trainAt = now ∧ (t.port p).outq = x.outq ∧ (t.port p).replay = x.replay ∧ (∀ q, q ≠ p → t.port q = s.port q))
      ∧ (x.training = true → x.liveWl ≠ 0 → x.readySent = false →
        let f := controlFlit 4 (roundWidth (popCount 8 x.liveWl.toNat)) x.liveWl.toNat 0 ownReserve
        (now < x.trainAt + 1000 → exec .trainPeriodEnd s = .next s)
        ∧ (x.trainAt + 1000 ≤ now → ∀ w, beatWl x.liveWl 0 = some w →
          exec .trainPeriodEnd s = .next ((s.setPort p (({ x.sendOn w [f] with readySent := true, readyWl := x.liveWl } : Port).tryUp now)).flowPort p)))
      ∧ (∀ w wls perms, x.peerReady = some (w, wls, perms) →
        let both := x.readyWl &&& wls
        (x.readySent = false ∨ both = 0 → x.tryUp now = x)
        ∧ (x.readySent = true → both ≠ 0 →
          let n := min (min (roundWidth (popCount 8 x.readyWl.toNat)) w) (roundWidth (popCount 8 both.toNat))
          (x.tryUp now).up = true ∧ (x.tryUp now).training = false ∧ (x.tryUp now).rxSeq = 0 ∧ (x.tryUp now).rxWidth = n ∧ (x.tryUp now).lastRx = now
          ∧ (x.replay = [] → x.nextWidth = none → (x.tryUp now).width = n ∧ (x.tryUp now).liveWl = lowestWl both n ∧ (x.tryUp now).txSeq = 0
            ∧ (x.tryUp now).reserve = perms)))
      ∧ (∀ (ws : List Nat) (i : Nat), ws = ((List.range 8).filter fun w => x.liveWl.getLsbD w) → ws ≠ [] → i < 32 →
        (beatsOn x.liveWl)[i]? = ws[i % ws.length]?)
      ∧ (x.up = true →
        exec .portLinkDown s = .next (s.setPort p x.down)
        ∧ (x.lastRx + 1000 ≤ now → exec .peerSilenceTimeout s = .next (s.setPort p x.down))
        ∧ (now < x.lastRx + 1000 → exec .peerSilenceTimeout s = .next s)
        ∧ (now < x.idleAt + 100 * x.idle → exec .parkRequest s = .next s)
        ∧ (x.idleAt + 100 * x.idle ≤ now → x.waking = false → x.parkPend = false → x.nextWidth = none → x.minwl < x.width →
          x.flits * 2048 ≤ x.idle * 200000 * (x.width / 2) → (∀ m ∈ x.outq, now ≤ m.since + 50) →
          ∃ t, exec .parkRequest s = .next t ∧ (t.port p).nextWidth = some (x.width / 2, x.txSeq) ∧ (t.port p).parkPend = true ∧ (t.port p).width = x.width
            ∧ (t.port p).idleAt = now)
        ∧ (x.waking = false → x.parkPend = false → x.nextWidth = none → x.width < 8 → (∃ m ∈ x.outq, m.since + 50 < now) →
          exec .wakeRequest s = .next (s.setPort p { x with waking := true }))
        ∧ ((∀ m ∈ x.outq, now ≤ m.since + 50) → exec .wakeRequest s = .next s)
        ∧ (x.waking = true → ∃ t, exec .wakeDone s = .next t ∧ (t.port p).nextWidth = some (8, x.txSeq) ∧ (t.port p).waking = false)
        ∧ x.down.up = false ∧ x.down.liveWl = 0 ∧ x.down.outq = x.outq ∧ x.down.replay = x.replay ∧ x.down.tail = x.tail)
      ∧ (p < 4 → ∃ t, exec .colDieLoss s = .next t ∧ t.colLive = s.colLive &&& ~~~(1#4 <<< p)
        ∧ (∀ q, q / 8 = p → mget? s.ports q ≠ none → t.port q = (s.port q).down) ∧ (∀ q, q / 8 ≠ p → t.port q = s.port q) ∧ t.strands = s.strands))
  ∧ (∀ s : State,
      let p := s.ev.who
      let x := s.port p
      let v : W32 := BitVec.ofNat 32 s.ev.val
      let now := s.portNow p
      let heard := fun (y : Port) => s.setPort p { y with lastRx := now }
      (x.up = true →
        let f := BitVec.ofNat 2048 (leValue s.ev.bytes)
        (flitCrcOk f = false → exec .flitReceive s = .next (s.setPort p x.sendNak))
        ∧ (flitCrcOk f = true → flitCls f = 7 → exec .flitReceive s = .next ((heard (x.gotControl now (flitRet f) (flitData f))).flowPort p))
        ∧ (flitCrcOk f = true → flitCls f ≠ 7 → flitSeq f ≠ x.rxSeq → exec .flitReceive s = .next (s.setPort p x.sendNak))
        ∧ (flitCrcOk f = true → flitCls f ≠ 7 → flitSeq f = x.rxSeq → exec .flitReceive s = .next (s.gotFlit p f))
        ∧ exec .nak s = .next ((heard (x.naked v)).flowPort p)
        ∧ exec .ack s = .next ((heard (x.acked v)).flowPort p)
        ∧ (x.unacked ≠ 0 → exec .ackSend s = .next (s.setPort p x.sendAck))
        ∧ (s.ev.size = 1 ∨ s.ev.size = 2 ∨ s.ev.size = 4 ∨ s.ev.size = 8 → exec .stripe s = .next (heard { x with rxNext := some (s.ev.size, v) }))
        ∧ exec .permit s = .next ((heard (x.gotPermits (permsOf s.ev.bytes))).flowPort p)
        ∧ exec .managementMessage s = .next (s.mgmtArrive p s.ev.bytes)
        ∧ exec .denialMessage s = .next (s.denialArrive p s.ev.bytes)
        ∧ exec .class0Message s = .next ((s.setPort p (x.owe 0 ((s.ev.bytes.length + 239) / 240))).class0Arrive p s.ev.bytes))
      ∧ (x.up = false → x.training = true →
        (s.ev.idx < 8 → mget x.trainCount s.ev.idx 0 + 1 < 16 →
          exec .train s = .next (heard { x with trainCount := mput x.trainCount s.ev.idx (mget x.trainCount s.ev.idx 0 + 1) }))
        ∧ (s.ev.idx < 8 → 16 ≤ mget x.trainCount s.ev.idx 0 + 1 →
          exec .train s = .next (heard { x with trainCount := mput x.trainCount s.ev.idx (mget x.trainCount s.ev.idx 0 + 1), liveWl := x.liveWl ||| (1#8 <<< s.ev.idx) }))
        ∧ (s.ev.size = 1 ∨ s.ev.size = 2 ∨ s.ev.size = 4 ∨ s.ev.size = 8 →
          exec .ready s = .next ((heard (({ x with peerReady := some (s.ev.size, BitVec.ofNat 8 s.ev.val, permsOf s.ev.bytes) } : Port).tryUp now)).flowPort p)))
      ∧ (∀ (ret : Nat) (d : List Byte), x.up = true →
        let sq := BitVec.ofNat 32 (fld d 4 4)
        (fld d 0 1 = 1 → x.gotControl now ret d = x.naked sq)
        ∧ (fld d 0 1 = 2 → x.gotControl now ret d = x.acked sq)
        ∧ (fld d 0 1 = 5 → x.gotControl now ret d = (x.givePermits (ret / 2 ^ 13) (ret % 2 ^ 11)).gotPermits (permsOf (d.drop 8)))
        ∧ (5 < fld d 0 1 → x.gotControl now ret d = { x with dropc := min 65535 (x.dropc + 1) }))
      ∧ (∀ sq, x.replay.findIdx? (fun f => flitSeq f == sq) = none → x.naked sq = x ∧ x.acked sq = x)
      ∧ (∀ sq i, x.replay.findIdx? (fun f => flitSeq f == sq) = some i →
        (x.acked sq).replay = x.replay.drop (i + 1)
        ∧ (x.acked sq).tail = x.tail.drop ((x.replay.take (i + 1)).filter flitLast).length
        ∧ (x.nakCount = 0 → (x.naked sq).sent.map (·.bits) = x.sent.map (·.bits) ++ x.replay.drop i ∧ (x.naked sq).replay = x.replay ∧ (x.naked sq).nakCount = 1
          ∧ (x.naked sq).repl = min 255 (x.repl + 1))))

/-- R6, R237, R262, R321, R352, R395 to R400, R261: the loss of a Vale die and what it does to a context whose TOUCHED names the die, and to no other; power and temperature on the Basin's ticks; a tier region's shutdown, loss of power and return; words and lines that cannot be corrected, corrected errors, CRC failures, the tier test. What the events themselves carry is the model's choice (log entries 50 and 51). Where a clause rests on a choice of the model and not on a rule of the spec, the choice is that of log entries 50 and 51. -/
def Obligations.LossHeatAndErrors : Prop :=
  ∀ s : State,
    let c := s.ev.core
    let i := s.ev.idx
    let v := s.ev.val
    let now := s.ticks 8
    (let d := s.ev.who
     (s.dieLive d = true →
      let s1 : State := { s with live := s.live &&& ~~~(1#8 <<< d) }
      let s2 := (s1.teams.filter fun p => p.2.core < 64 && dieOf p.2.core == d && p.2.resident).foldl (fun s p => s.killTeam p.1 10) s1
      let s3 := (s2.progs.filter fun p => p.1 / 128 == d && p.2.running).foldl (fun s p => s.endProg p.1 0x10 0) s2
      let s4 := s3.dropDie d
      let s5 := (s4.ctxs.filter fun p => p.2.touched.getLsbD d).foldl (fun s p => s.ctxLoss p.1) s4
      exec .dieLoss s = .next (if s5.mode.getLsbD 4 = true then s5.postService { ty := 6, body := [BitVec.ofNat 64 d], seq := 0 } else s5.signal 0))
     ∧ (s.dieLive d = true → ∃ t, exec .dieLoss s = .next t ∧ t.live = s.live &&& ~~~(1#8 <<< d)
      ∧ (∀ x y, mget? s.ctxs x = some y → y.touched.getLsbD d = false → y.lossHeld = false → (s.ctxs.filter fun p => p.1 == x).length = 1 →
          ∃ z, mget? t.ctxs x = some z ∧ z.lossHeld = false)))
    ∧ (s.dieLive s.ev.who = false → exec .dieLoss s = .next s)
    ∧ (∀ x, let u := s.ctxLoss x
        (∀ y, mget? s.ctxs x = some y → ∃ z, mget? u.ctxs x = some z ∧ z.lossHeld = true ∧ z.lossHost = s.mode.getLsbD 4)
        ∧ (∀ p ∈ s.teams, p.2.ctx = x → p.2.alive = true → ∀ sid ∈ p.2.sids, mget? s.strands sid ≠ none → ({ code := 0x0C } : Held) ∈ (u.strand sid).held)
        ∧ (∀ p ∈ s.launches, p.2.ctx = x → p.2.st ≠ .ended → 0 < p.2.placed → ∀ n < 2, (u.barAt (barKey 2 n p.1)).broken = true)
        ∧ (∀ k l, mget? s.launches k = some l → l.placed = 0 → mwf s.launches = true → ∀ n < 2, u.barAt (barKey 2 n k) = s.barAt (barKey 2 n k))
        ∧ (∀ e ∈ u.colls, e.ctx ≠ x) ∧ u.hbm = s.hbm)
    ∧ (let low := if v * 100 < s.plim * 95 then some (s.lowSince.getD now) else none
       (now < s.powerAt + 10000 → exec .powerThrottleStep s = .next { s with lowSince := low })
       ∧ (s.powerAt + 10000 ≤ now →
        (s.plim < v → ∃ t, exec .powerThrottleStep s = .next t ∧ (∀ k < 64, t.clockStep k = min 12 (s.clockStep k + 1)) ∧ t.powerAt = now ∧ t.strands = s.strands)
        ∧ (v ≤ s.plim → v * 100 < s.plim * 95 → s.lowSince.getD now + 100000 ≤ now →
          exec .powerThrottleStep s = .next ((List.range 64).foldl (fun s k => if s.hot k = true then s else s.setStep k (s.clockStep k - 1))
            { s with lowSince := low, powerAt := now }))
        ∧ (v ≤ s.plim → (s.plim * 95 ≤ v * 100 ∨ now < s.lowSince.getD now + 100000) → exec .powerThrottleStep s = .next { s with lowSince := low })))
    ∧ (s.hot c = true → (mget? s.stepAt c = none ∨ ∃ t, mget? s.stepAt c = some t ∧ t + 1000 ≤ now) →
      ∃ t, exec .thermalClockStep s = .next t ∧ t.clockStep c = min 12 (s.clockStep c + 1) ∧ mget? t.stepAt c = some now ∧ t.strands = s.strands)
    ∧ (s.hot c = false ∨ (∃ t, mget? s.stepAt c = some t ∧ now < t + 1000) → exec .thermalClockStep s = .next s)
    ∧ (let old := s.region c i
       let since := if 210 ≤ v then some (old.since.getD now) else none
       let r : Region := { old with reading := v, since := since, action := nextAction old.action v (lasted since 1000 now) 5 }
       (c < 64 → i < 4 → ∃ t, exec .thermalThreshold s = .next t ∧ t.region c i = r ∧ (3 ≤ r.action → t.clockStep c = 12)
         ∧ (old.action < 2 → 2 ≤ r.action → s.mode.getLsbD 3 = false → t.heat.contains c = true ∧ t.svc = s.svc)
         ∧ (2 ≤ old.action ∨ r.action < 2 → t.svc = s.svc ∧ (s.heat.contains c = false → t.heat.contains c = false))
         ∧ ((∀ k < 4, k ≠ i → (s.region c k).action < 2) → r.action < 2 → t.heat.contains c = false))
       ∧ (64 ≤ c → c < 69 → i = 0 → exec .thermalThreshold s = .next (s.setRegion c 0 { old with reading := v })))
    ∧ (let r := s.region c i
       (64 ≤ c ∨ 4 ≤ i → exec .tierShutdown s = .next s ∧ exec .regionPowerOff s = .next s)
       ∧ (c < 64 → i < 4 → 4 ≤ r.action → r.shutdown = false → ∃ t, exec .tierShutdown s = .next t ∧ (t.region c i).shutdown = true ∧ (t.region c i).shutAt = now
         ∧ ∀ p ∈ s.teamsOn c, ∀ sid ∈ (s.team p.1).sids, s.isRes sid = true → (t.strand sid).halt ≠ .none)
       ∧ (c < 64 → i < 4 → r.shutdown = true → r.off = false → s.ev.bytes = [] → s.teamsOn c = [] → exec .regionPowerOff s = .next (s.setRegion c i { r with off := true }))
       ∧ (c < 64 → i < 4 → r.shutdown = true → r.off = false → ∀ sid, coreOf sid = c → s.mayIssue sid = false)
       ∧ (c < 64 → i < 4 → r.off = true → v ≤ 204 → ∃ t, exec .regionReturnToService s = .next t ∧ t.strands = s.strands ∧ t.hbm = s.hbm ∧ t.os = s.os
         ∧ t.region c i = { reading := v, action := nextAction r.action v false 5 } ∧ ∀ d k, (d ≠ c ∨ k ≠ i) → k < 4 → t.region d k = s.region d k))
    ∧ (s.ev.flag = false → c < 64 → (s.osLine c (s.ev.addr / 256)).free = false → (s.ownerOf c s.ev.addr).isSome = true →
      exec .operandUncorrectable s = .next (s.setOsLine c (s.ev.addr / 256)
        { s.osLine c (s.ev.addr / 256) with poison := (s.osLine c (s.ev.addr / 256)).poison ||| (1#64 <<< colOf s.ev.addr) }))
    ∧ (s.ev.flag = true → s.isRes s.ev.who = true →
      let st := s.strand s.ev.who
      (i < st.budget → v < 64 → exec .operandUncorrectable s = .next (s.setStrand s.ev.who { st with vpois := st.vpois ++ [vKey i v] }))
      ∧ (st.budget ≤ i → 2048 < i → i < 2096 → v < 2 → ∃ t, exec .operandUncorrectable s = .next (s.setStrand s.ev.who t)
        ∧ t.reg (i - 2048) = (if v = 0 then st.reg (i - 2048) / 2 ^ 32 * 2 ^ 32 else st.reg (i - 2048) % 2 ^ 32)
        ∧ t.held = st.held ++ [{ code := 0x0D, tmask := 0 }] ∧ (∀ r, r ≠ i - 2048 → t.reg r = st.reg r) ∧ t.v = st.v ∧ t.q = st.q))
    ∧ (∀ l, s.ev.flag = true → c < 8 → s.inHbm s.ev.addr = true → s.dcLine c (s.ev.addr / 128) = some l →
      let u := s.dcPut c (s.ev.addr / 128) { l with poisoned := true, bad := true }
      exec .memoryUncorrectable s = .next (if l.dirty = 0 then u.poisonLine (s.ev.addr / 128) else u))
    ∧ (∀ k, s.correctedError k = if k < 64 then { s with corrected := mput s.corrected k (mget s.corrected k 0 + 1) } else s)
    ∧ (c < 64 → i < 16 → s.ev.size < 4 → exec .beatCrcFail s = .next { s with corrected := mput s.corrected c (mget s.corrected c 0 + 1) })
    ∧ (c < 64 → i < 16 → 4 ≤ s.ev.size →
      let b := c * 16 + i
      let used := mget s.spares b 0
      let u : State := { s with spares := mput s.spares b (used + 1), remap := mput s.remap (b * 64 + v) used }
      (used = 0 → s.ev.flag = true → exec .beatCrcFail s = .next u)
      ∧ (used = 0 → s.ev.flag = false → exec .beatCrcFail s = .next (u.poisonWord c s.ev.addr))
      ∧ (1 ≤ used → ∃ t, exec .beatCrcFail s = .next t ∧ t.retired.contains c = true ∧ ∀ d, s.retired.contains d = true → t.retired.contains d = true))
    ∧ (s.ev.flag = true → c < 64 → s.testing.contains c = false → s.teamsOn c = [] → s.mxCmds c = [] →
      exec .tierTestYield s = .next { s with testing := s.testing ++ [c] })
    ∧ (s.ev.flag = false → exec .tierTestYield s = .next { s with testing := s.testing.filter (· != c) })

/-- R371, R381, R383 to R386: a measured start loads its five stages in order, each checked and then measured, and stops at the first that fails; later items extend MEAS5 to MEAS7; attestation requests queue, four of each requester, and are answered in order with a signed report. Where a clause rests on a choice of the model and not on a rule of the spec, the choice is that of log entries 4, 13, 14 and 48. -/
def Obligations.StartAndAttestation : Prop :=
  ∀ s : State,
    (∃ t, exec .packageReset s = .next t ∧ t.live = BitVec.ofNat 8 s.ev.val ∧ t.strands = [] ∧ t.ctxs = [] ∧ t.hbm = s.hbm ∧ t.hostMem = s.hostMem
      ∧ (let ok := fun (i : Nat) (b : BootStage) => Config.slhVerify b.image b.sig = true ∧ Config.minSvn i ≤ b.svn
         ∀ n ≤ 5, (∀ i < n, ∃ b, s.ev.stages[i]? = some b ∧ ok i b) →
          (∀ i b, i < n → s.ev.stages[i]? = some b → t.measOf i = shake256 (leBytes 64 0 ++ leBytes 64 (shake256 b.image).toNat))
          ∧ (n < 5 → (∀ b, s.ev.stages[n]? = some b → ¬ ok n b) → t.startFailed = some n ∧ t.svns = (s.ev.stages.take n).map (·.svn) ∧ ∀ i, n ≤ i → t.measOf i = 0)
          ∧ (n = 5 → t.startFailed = none ∧ t.svns = (s.ev.stages.take 5).map (·.svn) ∧ ∀ i, 5 ≤ i → t.measOf i = 0)))
    ∧ (5 ≤ s.ev.idx → s.ev.idx ≤ 7 → s.startFailed = none →
      let h := shake256 (leBytes 64 (s.measOf s.ev.idx).toNat ++ leBytes 64 (shake256 s.ev.bytes).toNat)
      exec .measurementExtend s = .next { s with meas := mput s.meas s.ev.idx h })
    ∧ (let nonce := BitVec.ofNat 256 (leValue s.ev.bytes)
       let tag := BitVec.ofNat 64 s.ev.val
       (s.ev.who = 0 → s.linkUp = true → s.hostMay true = true → exec .attestationRequest s = .next { s.attRequest 0 nonce tag with cio := some [] })
       ∧ (s.ev.who = 0 → s.linkUp = true → s.hostMay true = false → exec .attestationRequest s = .next { s.deny 4 0 0x400 1 0x1000 with cio := none })
       ∧ (s.ev.who = 0 → s.linkUp = false → exec .attestationRequest s = .next s)
       ∧ (∀ p < 32, s.ev.who = p + 1 → (s.accEntry 4 0 (0x500 + p)).getLsbD 0 = true → exec .attestationRequest s = .next (s.attRequest (p + 1) nonce tag))
       ∧ ((s.attQ.filter fun q => q.who == 0).length < 4 →
           s.attRequest 0 nonce tag = { s with
             attQ := s.attQ ++ [{ who := 0, nonce := nonce, tag := tag, snap := if s.attQ = [] then s.measNow else [] }], attBusy := false })
       ∧ (4 ≤ (s.attQ.filter fun q => q.who == 0).length → s.attRequest 0 nonce tag = { s with attBusy := true })
       ∧ (∀ p, 4 ≤ (s.attQ.filter fun q => q.who == p + 1).length → s.attRequest (p + 1) nonce tag = s.sendMsg p (tagMsg 4 2 tag [])))
    ∧ (∀ q, s.attQ = [q] →
      let body := s.reportBody q
      exec .attestationReport s = .next (({ s with attQ := [], attCount := s.attCount + 1 } : State).attAnswer q.who 1 q.tag
        (body ++ (List.range 29792).map (Config.slhSign body))))
    ∧ (∀ q, q.snap.length = 8 → (s.reportBody q).length = 0x270)

/-- R15, R18, R106, R107, R145, R202, R330, R347, R374, R376, R380, R383, R394: what the spec gives for reset: no strand, queue, launch or context is there; a queue's descriptor, a port's status word, MODE and the measurement registers are 0; every table slot of a core is invalid; the host alone has an access entry, R and W on the management space; counters are 0; and a strand that starts has TVEC, SFLAGS, TCAUSE, TEPC, TLPC, TMASK, lstat 0, TRAPEN 0x600, and is in no handler. -/
def Obligations.ResetState : Prop :=
  let s := State.reset
  s.fatal = false ∧ s.strands = [] ∧ s.teams = [] ∧ s.launches = [] ∧ s.ctxs = [] ∧ s.progs = [] ∧ s.mode = 0
  ∧ (∀ q, s.queue q = {} ∧ (s.queue q).en = false ∧ (s.queue q).err = false ∧ (s.queue q).drain = false ∧ (s.queue q).head = 0 ∧ (s.queue q).tail = 0
      ∧ (s.queue q).lring = 0 ∧ (s.queue q).cring = 0 ∧ (s.queue q).ringlog = 0 ∧ (s.queue q).cqlog = 0 ∧ (s.queue q).ctx = 0)
  ∧ (∀ p, (s.port p).up = false ∧ (s.port p).trained = false ∧ (s.port p).waking = false ∧ (s.port p).parkPend = false ∧ (s.port p).liveWl = 0
      ∧ (s.port p).dropc = 0 ∧ (s.port p).repl = 0)
  ∧ (∀ core t ctx, s.rkTable core t ctx = none) ∧ (∀ i, s.measOf i = 0) ∧ s.attCount = 0 ∧ s.denialCount = 0
  ∧ (∀ kind u m, kind < 5 → u < 2 ^ 20 → m < 2 ^ 12 → s.accEntry kind u m = if kind = 4 ∧ u = 0 ∧ m = 0x400 then 3 else 0)
  ∧ (∀ core, s.cycles core = 0) ∧ (∀ k, s.ticks k = 0)
  ∧ (∀ sid L, let st := s.strand sid
      st.csr.tvec = 0 ∧ st.csr.tcause = 0 ∧ st.csr.tepc = 0 ∧ st.csr.tlpc = 0 ∧ st.csr.tmask = 0 ∧ st.csr.trapen = 0x600 ∧ st.csr.sflags = 0
      ∧ st.csr.ih = false ∧ st.csr.tsave0 = 0 ∧ st.csr.tsave1 = 0 ∧ mget st.v (lstatKey L) 0 = 0)

/-- Both memories and the tags are in their canonical form at reset. Where a clause rests on a choice of the model and not on a rule of the spec, the choice is that of log entry 5. -/
def Obligations.ResetMemories : Prop :=
  State.reset.memOk ∧ (∀ a, memByte State.reset.hbm a = 0) ∧ (∀ a, memByte State.reset.hostMem a = 0)

/-- A step runs what is decoded. The moves that a state names are made in their order (log entry 1), a stream's where its slot gives it the turn; a move of a scalar stream runs the instruction of the word at the PC, a move of a lane stream that of the unit at the side that issues, a move of a stream program its current command or the one at its PC, an event its entry. A cycle of the core passes with a move of a strand. A word of code is read from memory at its translated address. Where a clause rests on a choice of the model and not on a rule of the spec, the choice is that of log entry 1. -/
def Obligations.StepRunsDecodedInstruction : Prop :=
  (∀ (s : State) (c : Choice) (cs : List Choice), s.fatal = false → s.sched = c :: cs →
    let s0 : State := { s with sched := cs, stepNo := s.stepNo + 1 }
    (∀ sid isLane, (s0.strands.filter fun p => slotKey p.1 == slotKey sid).length ≤ 1 →
      (if isLane = true then (s0.strand sid).ageL else (s0.strand sid).ageS) = 0 → s0.namedTurn isLane sid = some s0)
    ∧ (∀ (sid : Nat) (w : W32) (i : Instr) (s2 t0 : State), c = .scalar sid → s0.namedTurn false sid = some t0 →
      let s1 := t0.addCycle (coreOf sid)
      s1.mayIssue sid = true → (s1.strand sid).parkS = none → (s1.strand sid).awaitsService = false →
      ({ s1.modStrand sid fun st => st.landTo (s1.cycles (coreOf sid) - 1) with cur := sid, curB := false, curWin := false, ev := { flag := false } } : State).fetchScalar sid
        = .got w s2 →
      decodeScalar w = .ok i → step s = exec i { s2 with curWord := w.setWidth 96 })
    ∧ (∀ (sid : Nat) (u : W96) (i : Instr) (s2 t t0 : State), c = .lane sid → s0.namedTurn true sid = some t0 →
      let s1 := t0.addCycle (coreOf sid)
      let win := (s1.strand sid).csr.ih
      let ctx := (s1.strand sid).laneCtx win
      let b := s1.sideChoice sid win
      s1.mayIssue sid = true → (s1.strand sid).parkL = none → (s1.strand sid).laneHasWork = true →
      let s1' : State := { s1 with cur := sid, curB := b, curWin := win, ev := { flag := true } }
      s1'.prepSide sid win b = .unit u s2 → decodeLane u = .ok i → exec i { s2 with curWord := u } = .next t →
      ((t.strand sid).waitL = false → step s = .next t)
      ∧ ((t.strand sid).waitL = true → (t.strand sid).parkL = none → ctx.runs (!b) = false →
          step s = .next (t.modStrand sid fun st => st.setLaneCtx win ((st.laneCtx win).setSide b (ctx.side b)))))
    ∧ (∀ sid, c = .scalar sid → s0.namedTurn false sid = none → step s = .next s0)
    ∧ (∀ sid, c = .lane sid → s0.namedTurn true sid = none → step s = .next s0)
    ∧ (∀ n i t, c = .prog n → s0.nextStream n = .cmd i t → step s = exec i { t with curProg := n })
    ∧ (∀ i e, c = .event i e → Instr.isEvent i = true → step s = exec i { s0 with ev := e })
    ∧ (∀ k n, c = .time k n → k < 13 → step s = .next (s0.addTicks k n))
    ∧ (∀ sid n L, c = .pass sid n L → step s = .next (s0.passLane sid n L))
    ∧ (∀ off n, c = .hostRead off n → step s = .next (s0.hostRead off n))
    ∧ (∀ a n, c = .hostPeek a n → step s = .next (s0.hostPeek a n))
    ∧ (∀ a bs, c = .hostPoke a bs → step s = .next (s0.hostPoke a bs))
    ∧ (∀ v, c = .mask v → step s = .next (s0.maskVector v))
    ∧ (∀ k, c = .corrected k → step s = .next (s0.correctedError k))
    ∧ (∀ n bs, c = .staged n bs → step s = .next (s0.stage n bs)))
  ∧ (∀ s : State, s.fatal = false → s.sched = [] →
    let s0 : State := { s with stepNo := s.stepNo + 1 }
    (∀ c t, s0.ownChoice = some (c, t) → step s = t.passTime.move c) ∧ (s0.ownChoice = none → step s = .next s0.passTime))
  ∧ (∀ (s : State) (sid : Nat) (win : Bool),
    let c := (s.strand sid).laneCtx win
    (∀ b, c.runs b = true → c.runs (!b) = false → s.sideChoice sid win = b)
    ∧ (c.runs false = true → c.runs true = true → ∀ x y, s.sideCycle sid win false = some x → s.sideCycle sid win true = some y →
      (x < y → s.sideChoice sid win = false) ∧ (y < x → s.sideChoice sid win = true) ∧ (x = y → s.sideChoice sid win = !c.lastB)))
  ∧ (∀ (s : State) (die ctx va agent : Nat) (e : TlbEntry), mget? s.tlb (tlbKey die ctx va) = some e → e.x = true → va % 4 = 0 →
    let pa := e.ppage * 65536 + va % 65536
    let ln := pa / 128
    inHostWin (e.ppage * 65536) = false → s.allowed ctx pa { x := true } = true → (e.policy = polREPL → s.replBusy die ln = false) →
    ((∀ d ∈ [die, repDie die], ∀ l, s.dcLine d ln = some l → l.ctx = ctx) →
      (s.dcLine (copyDie die e.policy) ln = none → s.poisoned ln = false →
        s.fetchWord die ctx va agent = .got (scalarOfBytes ((List.range 4).map fun i => memByte s.hbm (pa + i))) s)
      ∧ (∀ l, s.dcLine (copyDie die e.policy) ln = some l → l.poisoned = false →
        s.fetchWord die ctx va agent = .got (scalarOfBytes ((List.range 4).map fun i => lineByte l.data (pa % 128 + i))) s))
    ∧ (∀ l, e.policy ≠ polREPL → s.dcLine die ln = some l → l.ctx ≠ ctx → l.bad = false → s.dcLine (repDie die) ln = none → s.poisoned ln = false → s.memOk →
      ∃ u, (∀ i < 128, memByte u.hbm (ln * 128 + i) = if l.dirty.getLsbD i = true then lineByte l.data i else memByte s.hbm (ln * 128 + i))
        ∧ (∃ l', u.dcLine die ln = some l' ∧ l'.ctx = ctx ∧ l'.dirty = 0)
        ∧ s.fetchWord die ctx va agent = .got (scalarOfBytes ((List.range 4).map fun i => memByte u.hbm (pa + i))) u))

/-- Words that the spec writes out bit by bit (R48, R49, R53, R54 and the worked example of a FETCH) decode to the instructions they stand for: ADDI a4, a0, #0x40; B.LT a5, a6 with offset −3; ADD a0, a0, a0 for the word 0; FFMA.f32.rz v10, v11, v12, v13 under (!k3) !2; a FETCH; END. All ones, FFMA with ty 14 and FFMA with vd 980 are no instruction. -/
def Obligations.KnownWordsDecode : Prop :=
  let ffma : LaneW := { ty := 0, md := 1, dist := 2, g := 3, gn := 1, vd := 10, va := 11, vb := 12, vc := 13, im := 0, low := 0 }
  decodeTableWord 32 0x04400040 = some (.addi 4 0 0x40)
  ∧ decodeTableWord 32 0x305197FD = some (.bcc 5 6 2 0x7FD)
  ∧ decodeTableWord 32 0 = some (.add 0 0 0)
  ∧ decodeTableWord 32 0xFFFFFFFF = none
  ∧ decodeTableWord 96 0x06014E050160601A00000000 = some (.ffma ffma)
  ∧ decodeTableWord 96 0x06E14E050160601A00000000 = none
  ∧ decodeTableWord 96 0x06014FEA0160601A00000000 = none
  ∧ decodeTableWord 256 0x0000000100000800000010000000000000000000004000803409060407002800
      = some (.fetch { w0 := 0x3409060407002800, w1 := 0x00400080, w2 := 0x0000100000000000, w3 := 0x0000000100000800 })
  ∧ decodeTableWord 64 0x4000000000000000 = some (.streamEnd { w0 := 0x4000000000000000, w1 := 0, w2 := 0, w3 := 0 })

/-- Decoding what is encoded gives the instruction back: for every well-formed instruction that has words, of the scalar stream, the lane stream and the stream commands; and a word, unit or command that decodes is the encoding of what it decodes to. -/
def Obligations.DecodeOfEncode : Prop :=
  (∀ (i : Instr) (e : Encoded), i.wf = true → encode i = some e → decode e = .ok i)
  ∧ (∀ (w : W32) (i : Instr), decodeScalar w = .ok i → i.wf = true ∧ encode i = some (.scalar w))
  ∧ (∀ (u : W96) (i : Instr), decodeLane u = .ok i → i.wf = true ∧ encode i = some (.lane u))
  ∧ (∀ (ws : List W64) (i : Instr), decodeStream ws = .ok i →
      i.wf = true ∧ streamLength (ws.headD 0) ≤ ws.length ∧ encode i = some (.stream (ws.take (streamLength (ws.headD 0)))))

/-- Every step keeps the canonical form of both memories and of the tags, whatever it does. -/
def Obligations.StepKeepsMemoriesCanonical : Prop :=
  ∀ s s' : State, s.memOk → step s = .next s' → s'.memOk

/-- R44, R84, R98, R113, R356, R359: where a scalar store goes. Its place is the one that its address computation gives; read through the same die and context, its bytes hold the value and every other byte of memory, at an address of 48 bits (R85), reads as before; a store to host memory leaves all of HBM, one to a replicated line is written to its home slice and waits to be committed; a store to an operand store leaves all of memory, and every other byte of the operand stores. Registers, flags, lane state, control registers and every other strand stay as they were. R84, R85, R98, R194, R252, R356, R359: what a store of the lane stream (which has no acquire and gives no values, R194) leaves as it is, when its lanes write to operand stores, to host memory, to replicated lines, or to other lines of HBM: every byte outside the bytes of its lanes, and every other strand. Where a clause rests on a choice of the model and not on a rule of the spec, the choice is that of log entry 60. -/
def Obligations.ScalarStoreFrame : Prop :=
  (∀ (s s1 s2 : State) (t b : BitVec 6) (g : BitVec 3) (z : BitVec 2) (o : BitVec 8) (v base : W64) (p : Place),
      s.isRes s.cur = true → s.source2 t b = some (v, base, s1) → isPop t.toNat = false → isPop b.toNat = false → s.mayAccess → s.memOk → mwf s.dc = true →
      let n := 2 ^ z.toNat
      scalarPlace g.toNat (base.toNat + o.toNat * n) n 1 s1 = .ok (p, s2) →
      let die := dieOf (coreOf s.cur)
      let ctx := s.ctxOf s.cur
      let keeps := fun (u : State) => u.me.a = s.me.a ∧ u.me.q = s.me.q ∧ u.me.csr = s.me.csr ∧ u.me.segs = s.me.segs ∧ u.me.flags = s.me.flags ∧ u.me.v = s.me.v
        ∧ u.me.lane = s.me.lane ∧ u.me.win = s.me.win ∧ (∀ sid, sid ≠ s.cur → u.strand sid = s.strand sid) ∧ u.hostMem = s.hostMem
      (∀ pa pol, p = .mem pa pol true →
        ∃ u, exec (.st t b g z o) s = .next u ∧ keeps u ∧ u.hbm = s2.hbm ∧ (pol ≠ polP → u.dc = s2.dc) ∧ u.os = s2.os
          ∧ ∀ x, u.hostByte x = if hostAddr pa ≤ x ∧ x < hostAddr pa + n then BitVec.ofNat 8 (v.toNat / 2 ^ (8 * (x - hostAddr pa))) else s2.hostByte x)
      ∧ (∀ pa, p = .mem pa polREPL false → pa % 128 + n ≤ 128 → (∀ d ∈ [die, repDie die], ∀ l, s2.dcLine d (pa / 128) = some l → l.ctx = ctx) →
        s2.updates.length < 256 →
        ∃ u e, exec (.st t b g z o) s = .next u ∧ keeps u ∧ u.os = s2.os ∧ u.dc = s2.dc ∧ u.hostLines = s2.hostLines
          ∧ u.updates = s2.updates ++ [e] ∧ e.line = pa / 128 ∧ e.sharers = s2.sharerMask (pa / 128) ∧ e.who = some s.me.member
          ∧ ∀ x, memByte u.hbm x = if pa ≤ x ∧ x < pa + n then BitVec.ofNat 8 (v.toNat / 2 ^ (8 * (x - pa))) else memByte s2.hbm x)
      ∧ (∀ core off, p = .os core off → off % 256 + n ≤ 256 → (s2.osLine core (off / 256)).free = false → s2.osExpired core (s2.osLine core (off / 256)) = false → mwf s2.os = true →
        ∃ u, exec (.st t b g z o) s = .next u ∧ keeps u ∧ u.hbm = s2.hbm ∧ u.dc = s2.dc
          ∧ ∀ k, mget u.os k 0 = if osKey core off ≤ k ∧ k < osKey core off + n then BitVec.ofNat 8 (v.toNat / 2 ^ (8 * (k - osKey core off))) else mget s2.os k 0)
      ∧ (∀ pa pol, p = .mem pa pol false → pol ≠ polREPL → pa % 128 + n ≤ 128 → s2.updates = [] → s2.poisonLines = [] → s2.poisonPages = [] →
        (∀ ln l, s2.dcLine die ln = some l → l.poisoned = false ∧ l.bad = false) →
        ∃ u, exec (.st t b g z o) s = .next u ∧ keeps u ∧ u.os = s2.os
          ∧ ∀ a, a < 2 ^ 48 → ((u.memRead die ctx a 1 pol false).map fun r => r.2.1)
              = if pa ≤ a ∧ a < pa + n then some (v.toNat / 2 ^ (8 * (a - pa)) % 256) else (s2.memRead die ctx a 1 pol false).map fun r => r.2.1))
  ∧ (∀ (s t : State) (l : LongOp) (a : LaneAcc) (th : Bool),
      let sid := s.ev.who
      let die := dieOf (coreOf sid)
      let ctx := s.ctxOf sid
      (s.strand sid).longs[s.ev.idx]? = some l → l.kind = .mem → l.acq = none → l.acc = some a → a.kind = .store th → a.rel = none → a.got = [] → s.memOk →
      exec .laneMemoryComplete s = .next t →
      (∀ x, x ≠ sid → t.strand x = s.strand x) ∧ t.hostMem = s.hostMem ∧ t.ctxs = s.ctxs ∧ t.teams = s.teams
      ∧ ((∀ p ∈ a.todo, ∃ core off, p.place = .os core off ∧ off % 256 + a.n ≤ 256 ∧ s.osExpired core (s.osLine core (off / 256)) = false) →
        t.hbm = s.hbm ∧ t.dc = s.dc ∧ t.hostLines = s.hostLines
        ∧ ∀ k, (∀ p ∈ a.todo, ∀ core off, p.place = .os core off → k < osKey core off ∨ osKey core off + a.n ≤ k) → mget t.os k 0 = mget s.os k 0)
      ∧ ((∀ p ∈ a.todo, ∃ pa pol, p.place = .mem pa pol true) →
        t.hbm = s.hbm ∧ ((∀ p ∈ a.todo, ∀ pa, p.place ≠ .mem pa polP true) → t.dc = s.dc) ∧ t.os = s.os
        ∧ ∀ x, (∀ p ∈ a.todo, ∀ pa pol, p.place = .mem pa pol true → x < hostAddr pa ∨ hostAddr pa + a.n ≤ x) → t.hostByte x = s.hostByte x)
      ∧ ((∀ p ∈ a.todo, ∃ pa, p.place = .mem pa polREPL false ∧ pa % 128 + a.n ≤ 128) → (∀ ln c, s.dcLine die ln = some c → c.ctx = ctx) →
        t.os = s.os ∧ t.hostLines = s.hostLines
        ∧ ∀ x, (∀ p ∈ a.todo, ∀ pa pol, p.place = .mem pa pol false → x < pa ∨ pa + a.n ≤ x) → memByte t.hbm x = memByte s.hbm x)
      ∧ ((∀ p ∈ a.todo, ∃ pa pol, p.place = .mem pa pol false ∧ pol ≠ polREPL ∧ pa % 128 + a.n ≤ 128) → s.poisonLines = [] → s.poisonPages = [] →
        (∀ ln c, s.dcLine die ln = some c → c.poisoned = false ∧ c.bad = false) →
        t.os = s.os ∧ t.hostLines = s.hostLines
        ∧ ∀ x pol, x < 2 ^ 48 → pol ≠ polREPL → pol ≠ polNC → (∀ p ∈ a.todo, ∀ pa pol', p.place = .mem pa pol' false → x < pa ∨ pa + a.n ≤ x) →
          ((t.memRead die ctx x 1 pol false).map fun q => q.2.1) = (s.memRead die ctx x 1 pol false).map fun q => q.2.1))
end

