-- ==== Sys2Proof/Laws/Map.lean ====
section
/-! SUPPORT. Sparse data and memory: read after write, and the canonical form that every write keeps. -/

namespace Sys2Proof.Machine

variable {β : Type}

@[simp] theorem mget?_mput (m : NMap β) (k j : Nat) (x : β) :
    mget? (mput m k x) j = if j = k then some x else mget? m j := by
  induction m with
  | nil => rfl
  | cons p m ih =>
    obtain ⟨i, v⟩ := p
    simp only [mput]
    split
    · rfl
    · split
      · next h => subst h; simp only [mget?]; split <;> rfl
      · simp only [mget?, ih]
        split
        · next h1 h2 h3 => subst h3; rw [if_neg (fun h => h2 h.symm)]
        · rfl

theorem mget?_mput_same (m : NMap β) (k : Nat) (x : β) : mget? (mput m k x) k = some x := by simp

@[simp] theorem mget_mput (m : NMap β) (k j : Nat) (x d : β) :
    mget (mput m k x) j d = if j = k then x else mget m j d := by
  simp only [mget, mget?_mput]
  split <;> rfl

@[simp] theorem mput_mput (m : NMap β) (k : Nat) (x y : β) : mput (mput m k x) k y = mput m k y := by
  induction m with
  | nil => simp [mput]
  | cons p m ih =>
    obtain ⟨i, v⟩ := p
    simp only [mput]
    split
    · simp [mput]
    · split
      · simp [mput]
      · next h1 h2 => simp [mput, h1, h2, ih]

theorem mwfFrom_le {lo hi : Nat} (m : NMap β) (h : lo ≤ hi) (w : mwfFrom hi m = true) : mwfFrom lo m = true := by
  cases m with
  | nil => rfl
  | cons p m =>
    simp only [mwfFrom, Bool.and_eq_true, decide_eq_true_eq] at *
    exact ⟨Nat.le_trans h w.1, w.2⟩

theorem mwfFrom_mput (m : NMap β) (lo k : Nat) (x : β) (h : lo ≤ k) (w : mwfFrom lo m = true) :
    mwfFrom lo (mput m k x) = true := by
  induction m generalizing lo with
  | nil => simp [mput, mwfFrom, h]
  | cons p m ih =>
    obtain ⟨i, v⟩ := p
    simp only [mwfFrom, Bool.and_eq_true, decide_eq_true_eq] at w
    simp only [mput]
    split
    · next hk =>
      simp only [mwfFrom, Bool.and_eq_true, decide_eq_true_eq]
      exact ⟨h, by omega, w.2⟩
    · split
      · next hk => subst hk; simp only [mwfFrom, Bool.and_eq_true, decide_eq_true_eq]; exact ⟨h, w.2⟩
      · simp only [mwfFrom, Bool.and_eq_true, decide_eq_true_eq]
        exact ⟨w.1, ih (i + 1) (by omega) w.2⟩

theorem mwf_mput (m : NMap β) (k : Nat) (x : β) (w : mwf m = true) : mwf (mput m k x) = true :=
  mwfFrom_mput m 0 k x (Nat.zero_le k) w

/-- No key of a map with bound lo lies below it. -/
theorem mget?_below (m : NMap β) (lo j : Nat) (w : mwfFrom lo m = true) (h : j < lo) : mget? m j = none := by
  induction m generalizing lo with
  | nil => rfl
  | cons p m ih =>
    obtain ⟨i, v⟩ := p
    simp only [mwfFrom, Bool.and_eq_true, decide_eq_true_eq] at w
    simp only [mget?]
    rw [if_neg (by omega)]
    exact ih (i + 1) w.2 (by omega)

theorem mwfFrom_mdel (m : NMap β) (lo k : Nat) (w : mwfFrom lo m = true) : mwfFrom lo (mdel m k) = true := by
  induction m generalizing lo with
  | nil => rfl
  | cons p m ih =>
    obtain ⟨i, v⟩ := p
    simp only [mwfFrom, Bool.and_eq_true, decide_eq_true_eq] at w
    simp only [mdel]
    split
    · exact mwfFrom_le _ (by omega) (ih (i + 1) w.2)
    · simp only [mwfFrom, Bool.and_eq_true, decide_eq_true_eq]
      exact ⟨w.1, ih (i + 1) w.2⟩

/-- A key that is taken out reads nothing, another keeps its entry. -/
@[simp] theorem mget?_mdel (m : NMap β) (k j : Nat) : mget? (mdel m k) j = if j = k then none else mget? m j := by
  induction m with
  | nil => simp [mdel, mget?]
  | cons p m ih =>
    obtain ⟨i, v⟩ := p
    simp only [mdel]
    split
    · next h =>
      subst h
      rw [ih]
      split
      · rfl
      · next hj => simp [mget?, hj]
    · next h =>
      simp only [mget?, ih]
      split
      · next hj => subst hj; rw [if_neg (fun e => h e.symm)]
      · rfl

/-- Another key keeps its entry. -/
theorem mget?_mdel_ne (m : NMap β) {k j : Nat} (h : j ≠ k) : mget? (mdel m k) j = mget? m j := by simp [h]

/-- Another key reads as before. -/
theorem mget_mset_ne [DecidableEq β] (m : NMap β) {k j : Nat} (x d e : β) (h : j ≠ k) : mget (mset m k x d) j e = mget m j e := by
  unfold mset
  split
  · simp only [mget, mget?_mdel_ne m h]
  · simp [h]

theorem mwf_mset [DecidableEq β] (m : NMap β) (k : Nat) (x d : β) (w : mwf m = true) : mwf (mset m k x d) = true := by
  unfold mset
  split
  · exact mwfFrom_mdel m 0 k w
  · exact mwf_mput m k x w

/-- Read after write, where an unlisted key reads as the value that is never listed. -/
@[simp] theorem mget_mset [DecidableEq β] (m : NMap β) (k j : Nat) (x d : β) :
    mget (mset m k x d) j d = if j = k then x else mget m j d := by
  unfold mset
  split
  · next h =>
    subst h
    simp only [mget, mget?_mdel]
    split <;> rfl
  · exact mget_mput m k j x d

theorem mem_mput {m : NMap β} {k : Nat} {x : β} {p : Nat × β} (h : p ∈ mput m k x) : p = (k, x) ∨ p ∈ m := by
  induction m with
  | nil => exact Or.inl (by simpa [mput] using h)
  | cons q m ih =>
    obtain ⟨i, v⟩ := q
    simp only [mput] at h
    split at h
    · exact (List.mem_cons.mp h).imp_right id
    · split at h
      · exact (List.mem_cons.mp h).imp_right (List.mem_cons_of_mem _)
      · rcases List.mem_cons.mp h with h | h
        · exact Or.inr (h ▸ List.mem_cons_self)
        · exact (ih h).imp_right (List.mem_cons_of_mem _)

theorem mem_mdel {m : NMap β} {k : Nat} {p : Nat × β} (h : p ∈ mdel m k) : p ∈ m := by
  induction m with
  | nil => simp [mdel] at h
  | cons q m ih =>
    obtain ⟨i, v⟩ := q
    simp only [mdel] at h
    split at h
    · exact List.mem_cons_of_mem _ (ih h)
    · rcases List.mem_cons.mp h with h | h
      · exact h ▸ List.mem_cons_self
      · exact List.mem_cons_of_mem _ (ih h)

/-! ### Memory -/

theorem Memory.wf_iff (m : Memory) : m.wf = true ↔ mwf m = true ∧ ∀ c ∈ m, c.2 ≠ 0 := by
  simp [Memory.wf, List.all_eq_true]

/-- A write of one byte keeps the canonical form. -/
theorem memPut_wf (m : Memory) (a : Nat) (b : Byte) (w : m.wf = true) : (memPut m a b).wf = true := by
  obtain ⟨h1, h2⟩ := (Memory.wf_iff m).mp w
  refine (Memory.wf_iff _).mpr ⟨mwf_mset m a b 0 h1, fun c hc => ?_⟩
  unfold memPut mset at hc
  split at hc
  · exact h2 c (mem_mdel hc)
  · next hb =>
    rcases mem_mput hc with rfl | hc
    · exact hb
    · exact h2 c hc

/-- What a byte reads as after a write of one byte. -/
theorem memByte_memPut (m : Memory) (a j : Nat) (b : Byte) :
    memByte (memPut m a b) j = if j = a then b else memByte m j :=
  mget_mset m a j b 0

/-- A write of bytes keeps the canonical form. -/
theorem memPutAll_wf (m : Memory) (a : Nat) (bs : List Byte) (w : m.wf = true) : (memPutAll m a bs).wf = true := by
  induction bs generalizing m a with
  | nil => exact w
  | cons b bs ih => exact ih _ _ (memPut_wf m a b w)

/-- What a byte reads as after a write of bytes. -/
theorem memByte_memPutAll (m : Memory) (a j : Nat) (bs : List Byte) :
    memByte (memPutAll m a bs) j = if a ≤ j ∧ j < a + bs.length then bs.getD (j - a) 0 else memByte m j := by
  induction bs generalizing m a with
  | nil =>
    simp only [memPutAll, List.length_nil, Nat.add_zero]
    rw [if_neg (by omega)]
  | cons b bs ih =>
    simp only [memPutAll, ih, memByte_memPut m a j b, List.length_cons]
    by_cases h0 : j = a
    · subst h0; rw [if_neg (by omega), if_pos rfl, if_pos (by omega)]; simp
    · by_cases h1 : a + 1 ≤ j ∧ j < a + 1 + bs.length
      · rw [if_pos h1, if_pos (by omega)]
        have : j - a = (j - (a + 1)) + 1 := by omega
        rw [this]; simp
      · rw [if_neg h1, if_neg h0, if_neg (by omega)]

/-- A write of bytes leaves every byte outside them. -/
theorem memByte_memPutAll_outside (m : Memory) (a j : Nat) (bs : List Byte)
    (h : j < a ∨ a + bs.length ≤ j) : memByte (memPutAll m a bs) j = memByte m j := by
  rw [memByte_memPutAll m a j bs, if_neg (by omega)]

end Sys2Proof.Machine
end

