-- ==== Sys2Proof/Laws/Memory.lean ====
section
/-! SUPPORT. What the operations of the memory system can do: they change only what belongs to it, and keep both memories in canonical form. -/

namespace Sys2Proof.Machine

/-- The fields of the package that belong to the memory system: memories, caches, translations, replication, operand stores, and the contexts, whose TOUCHED bits a translation sets. -/
structure MemPart where
  hbm : Memory
  hostMem : Memory
  hostLines : NMap Byte
  dc : NMap DcLine
  tlb : NMap TlbEntry
  tags : NMap W32
  poisonLines : List Nat
  poisonPages : List Nat
  fatal : Bool
  sharers : NMap Byte
  updates : List ReplUpdate
  hostOwed : List Nat
  os : NMap Byte
  osLines : NMap OsLine
  ctxs : NMap Ctx

/-- The package with another memory system. -/
def State.withMem (s : State) (m : MemPart) : State :=
  { s with
    hbm := m.hbm, hostMem := m.hostMem, hostLines := m.hostLines, dc := m.dc, tlb := m.tlb, tags := m.tags
    poisonLines := m.poisonLines, poisonPages := m.poisonPages, fatal := m.fatal, sharers := m.sharers, updates := m.updates
    hostOwed := m.hostOwed, os := m.os, osLines := m.osLines, ctxs := m.ctxs }

/-- The memory system of a package. -/
def State.memPart (s : State) : MemPart :=
  { hbm := s.hbm, hostMem := s.hostMem, hostLines := s.hostLines, dc := s.dc, tlb := s.tlb, tags := s.tags
    poisonLines := s.poisonLines, poisonPages := s.poisonPages, fatal := s.fatal, sharers := s.sharers, updates := s.updates
    hostOwed := s.hostOwed, os := s.os, osLines := s.osLines, ctxs := s.ctxs }

/-- From s to t only the memory system has changed, and memories in canonical form have kept it. -/
def MemStep (s t : State) : Prop := t = s.withMem t.memPart ∧ (s.memOk → t.memOk)

theorem MemStep.refl (s : State) : MemStep s s := ⟨rfl, id⟩

theorem MemStep.trans {s t u : State} (h : MemStep s t) (k : MemStep t u) : MemStep s u := by
  refine ⟨?_, k.2 ∘ h.2⟩
  have hk := k.1
  rw [hk, h.1]
  rfl

/-- A change of the memory system that leaves both memories alone. -/
theorem MemStep.of_eq {s t : State} (h : t = s.withMem t.memPart) (h1 : t.hbm = s.hbm) (h2 : t.hostMem = s.hostMem)
    (h3 : t.tags = s.tags := by rfl) : MemStep s t :=
  ⟨h, fun ⟨a, b, c⟩ => ⟨h1 ▸ a, h2 ▸ b, h3 ▸ c⟩⟩

theorem MemStep.strands {s t : State} (h : MemStep s t) : t.strands = s.strands := by rw [h.1]; rfl
theorem MemStep.teams {s t : State} (h : MemStep s t) : t.teams = s.teams := by rw [h.1]; rfl
theorem MemStep.cur {s t : State} (h : MemStep s t) : t.cur = s.cur := by rw [h.1]; rfl
theorem MemStep.stepNo {s t : State} (h : MemStep s t) : t.stepNo = s.stepNo := by rw [h.1]; rfl
theorem MemStep.curWord {s t : State} (h : MemStep s t) : t.curWord = s.curWord := by rw [h.1]; rfl
theorem MemStep.ev {s t : State} (h : MemStep s t) : t.ev = s.ev := by rw [h.1]; rfl
theorem MemStep.linkUp {s t : State} (h : MemStep s t) : t.linkUp = s.linkUp := by rw [h.1]; rfl
theorem MemStep.strand {s t : State} (h : MemStep s t) (sid : Nat) : t.strand sid = s.strand sid := by
  unfold State.strand; rw [h.strands]
theorem MemStep.me {s t : State} (h : MemStep s t) : t.me = s.me := by
  unfold State.me; rw [h.strand, h.cur]
theorem MemStep.isRes {s t : State} (h : MemStep s t) (sid : Nat) : t.isRes sid = s.isRes sid := by
  unfold State.isRes; rw [h.strands]
theorem MemStep.team {s t : State} (h : MemStep s t) (k : Nat) : t.team k = s.team k := by
  unfold State.team; rw [h.teams]
theorem MemStep.teamOf {s t : State} (h : MemStep s t) (sid : Nat) : t.teamOf sid = s.teamOf sid := by
  unfold State.teamOf; rw [h.strand, h.team]
theorem MemStep.ctxOf {s t : State} (h : MemStep s t) (sid : Nat) : t.ctxOf sid = s.ctxOf sid := by
  unfold State.ctxOf; rw [h.teamOf]

/-- A loop over the memory system. -/
theorem MemStep.foldl {α : Type} (f : State → α → State) (h : ∀ s a, MemStep s (f s a)) (l : List α) (s : State) :
    MemStep s (l.foldl f s) := by
  induction l generalizing s with
  | nil => exact .refl s
  | cons a l ih => exact (h s a).trans (ih _)

/-! ### Memories -/

theorem putList_wf (l : List Nat) (m : Memory) (ln : Nat) (k : BitVec 128) (d : BitVec 1024) (w : m.wf = true) :
    (l.foldl (fun mm i => if k.getLsbD i then memPut mm (ln * 128 + i) (lineByte d i) else mm) m).wf = true := by
  induction l generalizing m with
  | nil => exact w
  | cons i l ih =>
    simp only [List.foldl_cons]
    apply ih
    split
    · exact memPut_wf _ _ _ w
    · exact w

theorem putLine_wf (m : Memory) (ln : Nat) (k : BitVec 128) (d : BitVec 1024) (w : m.wf = true) : (putLine m ln k d).wf = true :=
  putList_wf _ m ln k d w

theorem memFold_wf (l : NMap Byte) (m : Memory) (w : m.wf = true) : (l.foldl (fun m p => memPut m p.1 p.2) m).wf = true := by
  induction l generalizing m with
  | nil => exact w
  | cons p l ih => exact ih _ (memPut_wf _ _ _ w)

/-! ### Home slices and die caches -/

theorem bumpTag_step (s : State) (ln n : Nat) : MemStep s (s.bumpTag ln n) := by
  refine ⟨rfl, fun h => ⟨h.1, h.2.1, ?_⟩⟩
  show mwf (mset s.tags ln _ 0) = true
  unfold mset
  split
  · exact mwfFrom_mdel _ 0 _ h.2.2
  · exact mwf_mput _ _ _ h.2.2

theorem hbm_step (s : State) (m : Memory) (h : s.hbm.wf = true → m.wf = true) : MemStep s { s with hbm := m } :=
  ⟨rfl, fun w => And.intro (h w.1) w.2⟩

theorem sliceWrite_step (s : State) (ln : Nat) (m : BitVec 128) (d : BitVec 1024) : MemStep s (s.sliceWrite ln m d) := by
  unfold State.sliceWrite
  refine MemStep.trans (hbm_step s (putLine s.hbm ln m d) (putLine_wf _ _ _ _)) ?_
  refine MemStep.trans (bumpTag_step _ ln 1) ?_
  split
  · exact .of_eq rfl rfl rfl
  · exact .refl _

theorem dcPut_step (s : State) (die ln : Nat) (l : DcLine) : MemStep s (s.dcPut die ln l) := .of_eq rfl rfl rfl

theorem dcDrop_step (s : State) (die ln : Nat) : MemStep s (s.dcDrop die ln) := .of_eq rfl rfl rfl

theorem poisonLine_step (s : State) (ln : Nat) : MemStep s (s.poisonLine ln) := by
  unfold State.poisonLine
  repeat' split
  all_goals first
    | exact .refl _
    | exact .of_eq rfl rfl rfl

theorem dcClean_step (s : State) (die ln : Nat) : MemStep s (s.dcClean die ln) := by
  unfold State.dcClean
  split
  · exact .refl _
  · rename_i l _
    split
    · exact .refl _
    · refine ((sliceWrite_step s ln l.dirty l.data).trans (dcPut_step _ die ln { l with dirty := 0 })).trans ?_
      split
      · exact poisonLine_step ..
      · exact .refl _

theorem dcFlush_step (s : State) (die ln : Nat) : MemStep s (s.dcFlush die ln) :=
  (dcClean_step s die ln).trans (dcDrop_step _ die ln)

theorem repDrop_step (s : State) (die ln : Nat) : MemStep s (s.repDrop die ln) := .of_eq rfl rfl rfl

theorem flushLine_step {s t : State} {die ln pol : Nat} (h : s.flushLine die ln pol = some t) : MemStep s t := by
  unfold State.flushLine at h
  split at h
  · split at h
    · cases h
    · cases h; exact repDrop_step ..
  · cases h; exact dcFlush_step ..

theorem lineFill_step (s : State) (die ctx ln pol : Nat) : MemStep s (s.lineFill die ctx ln pol) := by
  unfold State.lineFill
  generalize s.sliceRead ln = r
  obtain ⟨d, p⟩ := r
  refine (dcPut_step s (copyDie die pol) ln { ctx := ctx, data := d, poisoned := p }).trans ?_
  simp only
  split
  · exact .of_eq rfl rfl rfl
  · exact .refl _

theorem dcOwn_step (s : State) (die ctx ln : Nat) : MemStep s (s.dcOwn die ctx ln) := by
  have own : ∀ o : Option DcLine, MemStep s (match o with
      | some l => if l.ctx = ctx then s else (s.dcFlush die ln).lineFill die ctx ln polWB
      | none => s) := by
    intro o
    cases o with
    | none => exact .refl _
    | some l =>
      dsimp only
      split
      · exact .refl _
      · exact (dcFlush_step ..).trans (lineFill_step ..)
  have rep : ∀ (t : State) (o : Option DcLine), MemStep t (match o with
      | some l => if l.ctx = ctx then t else (t.repDrop die ln).lineFill die ctx ln polREPL
      | none => t) := by
    intro t o
    cases o with
    | none => exact .refl _
    | some l =>
      dsimp only
      split
      · exact .refl _
      · exact (repDrop_step ..).trans (lineFill_step ..)
  exact (own _).trans (rep _ _)

theorem dcFill_step (s : State) (die ctx ln pol : Nat) : MemStep s (s.dcFill die ctx ln pol) := by
  unfold State.dcFill
  refine (dcOwn_step s die ctx ln).trans ?_
  dsimp only
  split
  · exact .refl _
  · exact lineFill_step ..

theorem markPriv_step (s : State) (die ln who : Nat) : MemStep s (s.markPriv die ln who) := by
  unfold State.markPriv
  split
  · exact dcPut_step ..
  · exact .refl _

theorem hostStore_step (s : State) (pa : Nat) (bs : List Byte) (who : Option Nat) : MemStep s (s.hostStore pa bs who) := .of_eq rfl rfl rfl

theorem hostFlush_step (s : State) : MemStep s s.hostFlush := by
  unfold State.hostFlush
  split
  · exact ⟨rfl, fun h => ⟨h.1, memFold_wf _ _ h.2.1, h.2.2⟩⟩
  · exact .refl _

theorem memRead_step {s t : State} {die ctx pa n pol v : Nat} {host p : Bool} {who : Option Nat}
    (h : s.memRead die ctx pa n pol host who = some (t, v, p)) : MemStep s t := by
  unfold State.memRead at h
  simp only at h
  split at h
  · simp only [Option.some.injEq, Prod.mk.injEq] at h; exact h.1 ▸ .refl _
  · split at h
    · simp only [Option.some.injEq, Prod.mk.injEq] at h; exact h.1 ▸ .refl _
    · split at h
      · simp at h
      · split at h <;> (simp only [Option.some.injEq, Prod.mk.injEq] at h; exact h.1 ▸ dcFill_step ..)

theorem applyUpdate_step (s : State) (ln : Nat) (m : BitVec 128) (d : BitVec 1024) (sh : Byte) : MemStep s (s.applyUpdate ln m d sh) := by
  unfold State.applyUpdate
  refine MemStep.foldl _ (fun s die => ?_) _ s
  split
  · split
    · exact dcPut_step _ _ _ _
    · exact .refl _
  · exact .refl _

theorem sendUpdate_step (s : State) (ln : Nat) (m : BitVec 128) (d : BitVec 1024) (who : Option Nat) : MemStep s (s.sendUpdate ln m d who) :=
  .of_eq rfl rfl rfl

theorem replStore_step {s t : State} {ln : Nat} {m : BitVec 128} {d : BitVec 1024} {who : Option Nat}
    (h : s.replStore ln m d who = some t) : MemStep s t := by
  unfold State.replStore at h
  split at h
  · simp at h
  · simp only [Option.some.injEq] at h
    exact h ▸ (sendUpdate_step s ln m d who).trans (sliceWrite_step ..)

theorem memWrite_step {s t : State} {die ctx pa n v pol : Nat} {host through : Bool} {who : Option Nat}
    (h : s.memWrite die ctx pa n v pol host through who = some t) : MemStep s t := by
  unfold State.memWrite at h
  simp only at h
  split at h
  · simp only [Option.some.injEq] at h; exact h ▸ hostStore_step ..
  · split at h
    · simp only [Option.some.injEq] at h; exact h ▸ sliceWrite_step ..
    · split at h
      · exact (dcOwn_step ..).trans (replStore_step h)
      · split at h
        · simp only [Option.some.injEq] at h; exact h ▸ dcFill_step ..
        · split at h
          · simp only [Option.some.injEq] at h
            exact h ▸ ((dcFill_step s die ctx (pa / 128) pol).trans (dcPut_step ..)).trans (sliceWrite_step ..)
          · simp only [Option.some.injEq] at h
            rw [← h]
            split
            · exact ((dcFill_step s die ctx (pa / 128) pol).trans (dcPut_step ..)).trans (dcClean_step ..)
            · exact (dcFill_step s die ctx (pa / 128) pol).trans (dcPut_step ..)

theorem releasePkg_step (s : State) (die ctx : Nat) : MemStep s (s.releasePkg die ctx) :=
  MemStep.foldl (fun (s : State) (p : Nat × DcLine) => s.dcClean die p.1) (fun s p => dcClean_step s die p.1) _ s

theorem acquirePkg_step (s : State) (die ctx : Nat) : MemStep s (s.acquirePkg die ctx) := by
  refine MemStep.foldl _ (fun s p => ?_) _ s
  split
  · exact .refl _
  · exact dcFlush_step ..

theorem releaseAt_step (s : State) (die ctx scope : Nat) : MemStep s (s.releaseAt die ctx scope) := by
  unfold State.releaseAt
  repeat' split
  · exact .refl _
  · exact releasePkg_step ..
  · exact (releasePkg_step ..).trans (hostFlush_step _)

theorem acquireAt_step (s : State) (die ctx scope : Nat) : MemStep s (s.acquireAt die ctx scope) := by
  unfold State.acquireAt
  split
  · exact .refl _
  · exact acquirePkg_step ..

theorem acquireLine_step (s : State) (die pa pol scope : Nat) : MemStep s (s.acquireLine die pa pol scope) := by
  unfold State.acquireLine
  split
  · exact .refl _
  · exact dcFlush_step ..

theorem sliceAtomic_step (s : State) (f : Nat → Nat → Nat) (ln op w : Nat) (repl : Bool) (ops : List SliceOp) (who : Option Nat) :
    MemStep s (s.sliceAtomic f ln op w repl ops who).1 := by
  unfold State.sliceAtomic
  split
  · exact .refl _
  · generalize atomicLine f op w (lineOf s.hbm ln) ops = r
    obtain ⟨d, vs⟩ := r
    simp only
    refine MemStep.trans (hbm_step s (putLine s.hbm ln (atomicMask w ops) d) (putLine_wf _ _ _ _)) ?_
    refine (bumpTag_step _ ln ops.length).trans ?_
    split
    · exact sendUpdate_step ..
    · exact .refl _

theorem slicePutBytes_step (s : State) (pa : Nat) (bs : List Byte) : MemStep s (s.slicePutBytes pa bs) := by
  unfold State.slicePutBytes
  simp only
  split
  · exact .refl _
  · exact MemStep.foldl _ (fun s k => sliceWrite_step ..) _ s

theorem anyPutBytes_step (s : State) (pa : Nat) (bs : List Byte) : MemStep s (s.anyPutBytes pa bs) := by
  unfold State.anyPutBytes
  split
  · exact (hostStore_step ..).trans (hostFlush_step _)
  · exact slicePutBytes_step ..

/-! ### Translation -/

theorem install_step (s : State) (u ctx va : Nat) (e : TlbEntry) : MemStep s (s.install u ctx va e) := by
  unfold State.install
  simp only
  split <;> exact .of_eq rfl rfl rfl

theorem xlate_step {s : State} {u ctx va : Nat} {need : Need} {via : Via} {r : Xl}
    (h : s.xlate u ctx va need via = .ok r) : MemStep s r.s := by
  have walked : ∀ {r : Xl}, (match s.walk ctx va with
      | .error x => .error x
      | .ok e => match e.check need via with
        | .error x => .error x
        | .ok () => .ok { s := s.install u ctx va e, pa := e.ppage * 65536 + va % 65536, pol := e.policy }
      : Except XErr Xl) = .ok r → MemStep s r.s := by
    intro r h
    split at h
    · simp at h
    · split at h
      · simp at h
      · simp only [Except.ok.injEq] at h; exact h ▸ install_step ..
  unfold State.xlate at h
  simp only at h
  split at h
  · split at h
    · simp only [Except.ok.injEq] at h; exact h ▸ .refl _
    · exact walked h
  · exact walked h

/-! ### Operand stores -/

theorem setOsLine_step (s : State) (core line : Nat) (l : OsLine) : MemStep s (s.setOsLine core line l) := .of_eq rfl rfl rfl
theorem osPutRaw_step (s : State) (core off : Nat) (b : Byte) : MemStep s (s.osPutRaw core off b) := .of_eq rfl rfl rfl
theorem osZero_step (s : State) (core line : Nat) : MemStep s (s.osZero core line) := .of_eq rfl rfl rfl
theorem osExpire_step (s : State) (core line : Nat) : MemStep s (s.osExpire core line) :=
  (osZero_step ..).trans (setOsLine_step ..)
theorem osScrub_step (s : State) (core off n : Nat) : MemStep s (s.osScrub core off n) := .of_eq rfl rfl rfl
theorem dropP_step (s : State) (die ctx who : Nat) (p : Seg) : MemStep s (s.dropP die ctx who p) := .of_eq rfl rfl rfl

theorem osWrite_step (s : State) (core off : Nat) (bs : List Byte) : MemStep s (s.osWrite core off bs) := by
  unfold State.osWrite
  simp only
  split
  · exact .refl _
  · refine MemStep.trans (t := if s.osExpired core (s.osLine core (off / 256)) then s.osZero core (off / 256) else s) ?_ ?_
    · split
      · exact osZero_step ..
      · exact .refl _
    · exact (setOsLine_step ..).trans (MemStep.foldl _ (fun s p => osPutRaw_step ..) _ _)

theorem osWriteAll_step (s : State) (core off : Nat) (bs : List Byte) : MemStep s (s.osWriteAll core off bs) := by
  unfold State.osWriteAll
  simp only
  split
  · exact .refl _
  · exact MemStep.foldl _ (fun s k => osWrite_step ..) _ s

end Sys2Proof.Machine
end

