-- ==== Sys2Proof/Laws/State.lean ====
section
/-! SUPPORT. What the shared updates of the state leave and change, field by field. -/

namespace Sys2Proof.Machine

/-! ### A strand is written -/

@[simp] theorem State.setStrand_live (s : State) (sid : Nat) (st : Strand) : (s.setStrand sid st).live = s.live := rfl
@[simp] theorem State.setStrand_colLive (s : State) (sid : Nat) (st : Strand) : (s.setStrand sid st).colLive = s.colLive := rfl
@[simp] theorem State.setStrand_fatal (s : State) (sid : Nat) (st : Strand) : (s.setStrand sid st).fatal = s.fatal := rfl
@[simp] theorem State.setStrand_ctxs (s : State) (sid : Nat) (st : Strand) : (s.setStrand sid st).ctxs = s.ctxs := rfl
@[simp] theorem State.setStrand_strands (s : State) (sid : Nat) (st : Strand) :
    (s.setStrand sid st).strands = mput s.strands sid st := rfl
@[simp] theorem State.setStrand_teams (s : State) (sid : Nat) (st : Strand) : (s.setStrand sid st).teams = s.teams := rfl
@[simp] theorem State.setStrand_launches (s : State) (sid : Nat) (st : Strand) : (s.setStrand sid st).launches = s.launches := rfl
@[simp] theorem State.setStrand_queues (s : State) (sid : Nat) (st : Strand) : (s.setStrand sid st).queues = s.queues := rfl
@[simp] theorem State.setStrand_submitNext (s : State) (sid : Nat) (st : Strand) : (s.setStrand sid st).submitNext = s.submitNext := rfl
@[simp] theorem State.setStrand_bars (s : State) (sid : Nat) (st : Strand) : (s.setStrand sid st).bars = s.bars := rfl
@[simp] theorem State.setStrand_completions (s : State) (sid : Nat) (st : Strand) : (s.setStrand sid st).completions = s.completions := rfl
@[simp] theorem State.setStrand_hbm (s : State) (sid : Nat) (st : Strand) : (s.setStrand sid st).hbm = s.hbm := rfl
@[simp] theorem State.setStrand_hostMem (s : State) (sid : Nat) (st : Strand) : (s.setStrand sid st).hostMem = s.hostMem := rfl
@[simp] theorem State.setStrand_hostLines (s : State) (sid : Nat) (st : Strand) : (s.setStrand sid st).hostLines = s.hostLines := rfl
@[simp] theorem State.setStrand_hostOwed (s : State) (sid : Nat) (st : Strand) : (s.setStrand sid st).hostOwed = s.hostOwed := rfl
@[simp] theorem State.setStrand_linkUp (s : State) (sid : Nat) (st : Strand) : (s.setStrand sid st).linkUp = s.linkUp := rfl
@[simp] theorem State.setStrand_linkSlow (s : State) (sid : Nat) (st : Strand) : (s.setStrand sid st).linkSlow = s.linkSlow := rfl
@[simp] theorem State.setStrand_cio (s : State) (sid : Nat) (st : Strand) : (s.setStrand sid st).cio = s.cio := rfl
@[simp] theorem State.setStrand_hostGot (s : State) (sid : Nat) (st : Strand) : (s.setStrand sid st).hostGot = s.hostGot := rfl
@[simp] theorem State.setStrand_dc (s : State) (sid : Nat) (st : Strand) : (s.setStrand sid st).dc = s.dc := rfl
@[simp] theorem State.setStrand_tlb (s : State) (sid : Nat) (st : Strand) : (s.setStrand sid st).tlb = s.tlb := rfl
@[simp] theorem State.setStrand_tags (s : State) (sid : Nat) (st : Strand) : (s.setStrand sid st).tags = s.tags := rfl
@[simp] theorem State.setStrand_poisonLines (s : State) (sid : Nat) (st : Strand) : (s.setStrand sid st).poisonLines = s.poisonLines := rfl
@[simp] theorem State.setStrand_poisonPages (s : State) (sid : Nat) (st : Strand) : (s.setStrand sid st).poisonPages = s.poisonPages := rfl
@[simp] theorem State.setStrand_sharers (s : State) (sid : Nat) (st : Strand) : (s.setStrand sid st).sharers = s.sharers := rfl
@[simp] theorem State.setStrand_updates (s : State) (sid : Nat) (st : Strand) : (s.setStrand sid st).updates = s.updates := rfl
@[simp] theorem State.setStrand_ack (s : State) (sid : Nat) (st : Strand) : (s.setStrand sid st).ack = s.ack := rfl
@[simp] theorem State.setStrand_os (s : State) (sid : Nat) (st : Strand) : (s.setStrand sid st).os = s.os := rfl
@[simp] theorem State.setStrand_osLines (s : State) (sid : Nat) (st : Strand) : (s.setStrand sid st).osLines = s.osLines := rfl
@[simp] theorem State.setStrand_clusterMsgs (s : State) (sid : Nat) (st : Strand) : (s.setStrand sid st).clusterMsgs = s.clusterMsgs := rfl
@[simp] theorem State.setStrand_tiles (s : State) (sid : Nat) (st : Strand) : (s.setStrand sid st).tiles = s.tiles := rfl
@[simp] theorem State.setStrand_tileVal (s : State) (sid : Nat) (st : Strand) : (s.setStrand sid st).tileVal = s.tileVal := rfl
@[simp] theorem State.setStrand_claimQ (s : State) (sid : Nat) (st : Strand) : (s.setStrand sid st).claimQ = s.claimQ := rfl
@[simp] theorem State.setStrand_tileBack (s : State) (sid : Nat) (st : Strand) : (s.setStrand sid st).tileBack = s.tileBack := rfl
@[simp] theorem State.setStrand_mxq (s : State) (sid : Nat) (st : Strand) : (s.setStrand sid st).mxq = s.mxq := rfl
@[simp] theorem State.setStrand_rkTab (s : State) (sid : Nat) (st : Strand) : (s.setStrand sid st).rkTab = s.rkTab := rfl
@[simp] theorem State.setStrand_progs (s : State) (sid : Nat) (st : Strand) : (s.setStrand sid st).progs = s.progs := rfl
@[simp] theorem State.setStrand_skickQ (s : State) (sid : Nat) (st : Strand) : (s.setStrand sid st).skickQ = s.skickQ := rfl
@[simp] theorem State.setStrand_scopies (s : State) (sid : Nat) (st : Strand) : (s.setStrand sid st).scopies = s.scopies := rfl
@[simp] theorem State.setStrand_ns (s : State) (sid : Nat) (st : Strand) : (s.setStrand sid st).ns = s.ns := rfl
@[simp] theorem State.setStrand_nvme (s : State) (sid : Nat) (st : Strand) : (s.setStrand sid st).nvme = s.nvme := rfl
@[simp] theorem State.setStrand_colls (s : State) (sid : Nat) (st : Strand) : (s.setStrand sid st).colls = s.colls := rfl
@[simp] theorem State.setStrand_collCount (s : State) (sid : Nat) (st : Strand) : (s.setStrand sid st).collCount = s.collCount := rfl
@[simp] theorem State.setStrand_collParts (s : State) (sid : Nat) (st : Strand) : (s.setStrand sid st).collParts = s.collParts := rfl
@[simp] theorem State.setStrand_collDead (s : State) (sid : Nat) (st : Strand) : (s.setStrand sid st).collDead = s.collDead := rfl
@[simp] theorem State.setStrand_faults (s : State) (sid : Nat) (st : Strand) : (s.setStrand sid st).faults = s.faults := rfl
@[simp] theorem State.setStrand_faultSeq (s : State) (sid : Nat) (st : Strand) : (s.setStrand sid st).faultSeq = s.faultSeq := rfl
@[simp] theorem State.setStrand_svcBase (s : State) (sid : Nat) (st : Strand) : (s.setStrand sid st).svcBase = s.svcBase := rfl
@[simp] theorem State.setStrand_svcLog (s : State) (sid : Nat) (st : Strand) : (s.setStrand sid st).svcLog = s.svcLog := rfl
@[simp] theorem State.setStrand_svcOn (s : State) (sid : Nat) (st : Strand) : (s.setStrand sid st).svcOn = s.svcOn := rfl
@[simp] theorem State.setStrand_svcNext (s : State) (sid : Nat) (st : Strand) : (s.setStrand sid st).svcNext = s.svcNext := rfl
@[simp] theorem State.setStrand_svc (s : State) (sid : Nat) (st : Strand) : (s.setStrand sid st).svc = s.svc := rfl
@[simp] theorem State.setStrand_mode (s : State) (sid : Nat) (st : Strand) : (s.setStrand sid st).mode = s.mode := rfl
@[simp] theorem State.setStrand_msixOpen (s : State) (sid : Nat) (st : Strand) : (s.setStrand sid st).msixOpen = s.msixOpen := rfl
@[simp] theorem State.setStrand_msixPending (s : State) (sid : Nat) (st : Strand) : (s.setStrand sid st).msixPending = s.msixPending := rfl
@[simp] theorem State.setStrand_msixSent (s : State) (sid : Nat) (st : Strand) : (s.setStrand sid st).msixSent = s.msixSent := rfl
@[simp] theorem State.setStrand_reports (s : State) (sid : Nat) (st : Strand) : (s.setStrand sid st).reports = s.reports := rfl
@[simp] theorem State.setStrand_appends (s : State) (sid : Nat) (st : Strand) : (s.setStrand sid st).appends = s.appends := rfl
@[simp] theorem State.setStrand_quiets (s : State) (sid : Nat) (st : Strand) : (s.setStrand sid st).quiets = s.quiets := rfl
@[simp] theorem State.setStrand_quietMet (s : State) (sid : Nat) (st : Strand) : (s.setStrand sid st).quietMet = s.quietMet := rfl
@[simp] theorem State.setStrand_mcmd (s : State) (sid : Nat) (st : Strand) : (s.setStrand sid st).mcmd = s.mcmd := rfl
@[simp] theorem State.setStrand_mBusy (s : State) (sid : Nat) (st : Strand) : (s.setStrand sid st).mBusy = s.mBusy := rfl
@[simp] theorem State.setStrand_mDone (s : State) (sid : Nat) (st : Strand) : (s.setStrand sid st).mDone = s.mDone := rfl
@[simp] theorem State.setStrand_mCmd (s : State) (sid : Nat) (st : Strand) : (s.setStrand sid st).mCmd = s.mCmd := rfl
@[simp] theorem State.setStrand_mResult (s : State) (sid : Nat) (st : Strand) : (s.setStrand sid st).mResult = s.mResult := rfl
@[simp] theorem State.setStrand_mres0 (s : State) (sid : Nat) (st : Strand) : (s.setStrand sid st).mres0 = s.mres0 := rfl
@[simp] theorem State.setStrand_mres1 (s : State) (sid : Nat) (st : Strand) : (s.setStrand sid st).mres1 = s.mres1 := rfl
@[simp] theorem State.setStrand_uCmd (s : State) (sid : Nat) (st : Strand) : (s.setStrand sid st).uCmd = s.uCmd := rfl
@[simp] theorem State.setStrand_uBusy (s : State) (sid : Nat) (st : Strand) : (s.setStrand sid st).uBusy = s.uBusy := rfl
@[simp] theorem State.setStrand_uResult (s : State) (sid : Nat) (st : Strand) : (s.setStrand sid st).uResult = s.uResult := rfl
@[simp] theorem State.setStrand_uRes0 (s : State) (sid : Nat) (st : Strand) : (s.setStrand sid st).uRes0 = s.uRes0 := rfl
@[simp] theorem State.setStrand_uRes1 (s : State) (sid : Nat) (st : Strand) : (s.setStrand sid st).uRes1 = s.uRes1 := rfl
@[simp] theorem State.setStrand_mgmtQ (s : State) (sid : Nat) (st : Strand) : (s.setStrand sid st).mgmtQ = s.mgmtQ := rfl
@[simp] theorem State.setStrand_mStart (s : State) (sid : Nat) (st : Strand) : (s.setStrand sid st).mStart = s.mStart := rfl
@[simp] theorem State.setStrand_moving (s : State) (sid : Nat) (st : Strand) : (s.setStrand sid st).moving = s.moving := rfl
@[simp] theorem State.setStrand_acc (s : State) (sid : Nat) (st : Strand) : (s.setStrand sid st).acc = s.acc := rfl
@[simp] theorem State.setStrand_denials (s : State) (sid : Nat) (st : Strand) : (s.setStrand sid st).denials = s.denials := rfl
@[simp] theorem State.setStrand_denialCount (s : State) (sid : Nat) (st : Strand) : (s.setStrand sid st).denialCount = s.denialCount := rfl
@[simp] theorem State.setStrand_meas (s : State) (sid : Nat) (st : Strand) : (s.setStrand sid st).meas = s.meas := rfl
@[simp] theorem State.setStrand_startFailed (s : State) (sid : Nat) (st : Strand) : (s.setStrand sid st).startFailed = s.startFailed := rfl
@[simp] theorem State.setStrand_attQ (s : State) (sid : Nat) (st : Strand) : (s.setStrand sid st).attQ = s.attQ := rfl
@[simp] theorem State.setStrand_attCount (s : State) (sid : Nat) (st : Strand) : (s.setStrand sid st).attCount = s.attCount := rfl
@[simp] theorem State.setStrand_attOut (s : State) (sid : Nat) (st : Strand) : (s.setStrand sid st).attOut = s.attOut := rfl
@[simp] theorem State.setStrand_attBusy (s : State) (sid : Nat) (st : Strand) : (s.setStrand sid st).attBusy = s.attBusy := rfl
@[simp] theorem State.setStrand_svns (s : State) (sid : Nat) (st : Strand) : (s.setStrand sid st).svns = s.svns := rfl
@[simp] theorem State.setStrand_ports (s : State) (sid : Nat) (st : Strand) : (s.setStrand sid st).ports = s.ports := rfl
@[simp] theorem State.setStrand_plim (s : State) (sid : Nat) (st : Strand) : (s.setStrand sid st).plim = s.plim := rfl
@[simp] theorem State.setStrand_clock (s : State) (sid : Nat) (st : Strand) : (s.setStrand sid st).clock = s.clock := rfl
@[simp] theorem State.setStrand_stepAt (s : State) (sid : Nat) (st : Strand) : (s.setStrand sid st).stepAt = s.stepAt := rfl
@[simp] theorem State.setStrand_powerAt (s : State) (sid : Nat) (st : Strand) : (s.setStrand sid st).powerAt = s.powerAt := rfl
@[simp] theorem State.setStrand_lowSince (s : State) (sid : Nat) (st : Strand) : (s.setStrand sid st).lowSince = s.lowSince := rfl
@[simp] theorem State.setStrand_regions (s : State) (sid : Nat) (st : Strand) : (s.setStrand sid st).regions = s.regions := rfl
@[simp] theorem State.setStrand_heat (s : State) (sid : Nat) (st : Strand) : (s.setStrand sid st).heat = s.heat := rfl
@[simp] theorem State.setStrand_corrected (s : State) (sid : Nat) (st : Strand) : (s.setStrand sid st).corrected = s.corrected := rfl
@[simp] theorem State.setStrand_spares (s : State) (sid : Nat) (st : Strand) : (s.setStrand sid st).spares = s.spares := rfl
@[simp] theorem State.setStrand_remap (s : State) (sid : Nat) (st : Strand) : (s.setStrand sid st).remap = s.remap := rfl
@[simp] theorem State.setStrand_retired (s : State) (sid : Nat) (st : Strand) : (s.setStrand sid st).retired = s.retired := rfl
@[simp] theorem State.setStrand_testing (s : State) (sid : Nat) (st : Strand) : (s.setStrand sid st).testing = s.testing := rfl
@[simp] theorem State.setStrand_cycle (s : State) (sid : Nat) (st : Strand) : (s.setStrand sid st).cycle = s.cycle := rfl
@[simp] theorem State.setStrand_tick (s : State) (sid : Nat) (st : Strand) : (s.setStrand sid st).tick = s.tick := rfl
@[simp] theorem State.setStrand_cur (s : State) (sid : Nat) (st : Strand) : (s.setStrand sid st).cur = s.cur := rfl
@[simp] theorem State.setStrand_curB (s : State) (sid : Nat) (st : Strand) : (s.setStrand sid st).curB = s.curB := rfl
@[simp] theorem State.setStrand_curWin (s : State) (sid : Nat) (st : Strand) : (s.setStrand sid st).curWin = s.curWin := rfl
@[simp] theorem State.setStrand_curWord (s : State) (sid : Nat) (st : Strand) : (s.setStrand sid st).curWord = s.curWord := rfl
@[simp] theorem State.setStrand_curProg (s : State) (sid : Nat) (st : Strand) : (s.setStrand sid st).curProg = s.curProg := rfl
@[simp] theorem State.setStrand_ev (s : State) (sid : Nat) (st : Strand) : (s.setStrand sid st).ev = s.ev := rfl
@[simp] theorem State.setStrand_sched (s : State) (sid : Nat) (st : Strand) : (s.setStrand sid st).sched = s.sched := rfl
@[simp] theorem State.setStrand_stepNo (s : State) (sid : Nat) (st : Strand) : (s.setStrand sid st).stepNo = s.stepNo := rfl

@[simp] theorem State.strand_setStrand (s : State) (sid n : Nat) (st : Strand) :
    (s.setStrand sid st).strand n = if n = sid then st else s.strand n := by
  simp only [State.strand, State.setStrand, mget?_mput]
  split <;> rfl

@[simp] theorem State.setStrand_setStrand (s : State) (sid : Nat) (a b : Strand) :
    (s.setStrand sid a).setStrand sid b = s.setStrand sid b := by
  simp [State.setStrand]

@[simp] theorem State.isRes_setStrand (s : State) (sid n : Nat) (st : Strand) :
    (s.setStrand sid st).isRes n = (decide (n < 64 * 4096) && (decide (n = sid) || (mget? s.strands n).isSome)) := by
  simp only [State.isRes, State.setStrand, mget?_mput]
  by_cases h : n = sid <;> simp [h]

/-- A strand that is listed is changed by being written. -/
theorem State.modStrand_eq (s : State) (sid : Nat) (f : Strand → Strand) (h : (mget? s.strands sid).isSome = true) :
    s.modStrand sid f = s.setStrand sid (f (s.strand sid)) := by
  unfold State.modStrand State.strand
  cases hm : mget? s.strands sid with
  | none => simp [hm] at h
  | some st => rfl

theorem State.modStrand_none (s : State) (sid : Nat) (f : Strand → Strand) (h : mget? s.strands sid = none) :
    s.modStrand sid f = s := by
  unfold State.modStrand; rw [h]

theorem State.isRes_listed {s : State} {sid : Nat} (h : s.isRes sid = true) : (mget? s.strands sid).isSome = true := by
  simp only [State.isRes, Bool.and_eq_true] at h
  exact h.2

theorem State.modStrand_of_isRes {s : State} {sid : Nat} (f : Strand → Strand) (h : s.isRes sid = true) :
    s.modStrand sid f = s.setStrand sid (f (s.strand sid)) :=
  s.modStrand_eq sid f (s.isRes_listed h)

theorem State.modStrand_modStrand (s : State) (sid : Nat) (f g : Strand → Strand) :
    (s.modStrand sid f).modStrand sid g = s.modStrand sid (fun st => g (f st)) := by
  cases hm : mget? s.strands sid with
  | none => simp [State.modStrand, hm]
  | some st => simp [State.modStrand, State.setStrand, hm]

/-! ### A strand is changed -/

@[simp] theorem State.modStrand_live (s : State) (sid : Nat) (g : Strand → Strand) : (s.modStrand sid g).live = s.live := by
  unfold State.modStrand; split <;> rfl
@[simp] theorem State.modStrand_colLive (s : State) (sid : Nat) (g : Strand → Strand) : (s.modStrand sid g).colLive = s.colLive := by
  unfold State.modStrand; split <;> rfl
@[simp] theorem State.modStrand_fatal (s : State) (sid : Nat) (g : Strand → Strand) : (s.modStrand sid g).fatal = s.fatal := by
  unfold State.modStrand; split <;> rfl
@[simp] theorem State.modStrand_ctxs (s : State) (sid : Nat) (g : Strand → Strand) : (s.modStrand sid g).ctxs = s.ctxs := by
  unfold State.modStrand; split <;> rfl
@[simp] theorem State.modStrand_teams (s : State) (sid : Nat) (g : Strand → Strand) : (s.modStrand sid g).teams = s.teams := by
  unfold State.modStrand; split <;> rfl
@[simp] theorem State.modStrand_launches (s : State) (sid : Nat) (g : Strand → Strand) : (s.modStrand sid g).launches = s.launches := by
  unfold State.modStrand; split <;> rfl
@[simp] theorem State.modStrand_queues (s : State) (sid : Nat) (g : Strand → Strand) : (s.modStrand sid g).queues = s.queues := by
  unfold State.modStrand; split <;> rfl
@[simp] theorem State.modStrand_submitNext (s : State) (sid : Nat) (g : Strand → Strand) : (s.modStrand sid g).submitNext = s.submitNext := by
  unfold State.modStrand; split <;> rfl
@[simp] theorem State.modStrand_bars (s : State) (sid : Nat) (g : Strand → Strand) : (s.modStrand sid g).bars = s.bars := by
  unfold State.modStrand; split <;> rfl
@[simp] theorem State.modStrand_completions (s : State) (sid : Nat) (g : Strand → Strand) : (s.modStrand sid g).completions = s.completions := by
  unfold State.modStrand; split <;> rfl
@[simp] theorem State.modStrand_hbm (s : State) (sid : Nat) (g : Strand → Strand) : (s.modStrand sid g).hbm = s.hbm := by
  unfold State.modStrand; split <;> rfl
@[simp] theorem State.modStrand_hostMem (s : State) (sid : Nat) (g : Strand → Strand) : (s.modStrand sid g).hostMem = s.hostMem := by
  unfold State.modStrand; split <;> rfl
@[simp] theorem State.modStrand_hostLines (s : State) (sid : Nat) (g : Strand → Strand) : (s.modStrand sid g).hostLines = s.hostLines := by
  unfold State.modStrand; split <;> rfl
@[simp] theorem State.modStrand_hostOwed (s : State) (sid : Nat) (g : Strand → Strand) : (s.modStrand sid g).hostOwed = s.hostOwed := by
  unfold State.modStrand; split <;> rfl
@[simp] theorem State.modStrand_linkUp (s : State) (sid : Nat) (g : Strand → Strand) : (s.modStrand sid g).linkUp = s.linkUp := by
  unfold State.modStrand; split <;> rfl
@[simp] theorem State.modStrand_linkSlow (s : State) (sid : Nat) (g : Strand → Strand) : (s.modStrand sid g).linkSlow = s.linkSlow := by
  unfold State.modStrand; split <;> rfl
@[simp] theorem State.modStrand_cio (s : State) (sid : Nat) (g : Strand → Strand) : (s.modStrand sid g).cio = s.cio := by
  unfold State.modStrand; split <;> rfl
@[simp] theorem State.modStrand_hostGot (s : State) (sid : Nat) (g : Strand → Strand) : (s.modStrand sid g).hostGot = s.hostGot := by
  unfold State.modStrand; split <;> rfl
@[simp] theorem State.modStrand_dc (s : State) (sid : Nat) (g : Strand → Strand) : (s.modStrand sid g).dc = s.dc := by
  unfold State.modStrand; split <;> rfl
@[simp] theorem State.modStrand_tlb (s : State) (sid : Nat) (g : Strand → Strand) : (s.modStrand sid g).tlb = s.tlb := by
  unfold State.modStrand; split <;> rfl
@[simp] theorem State.modStrand_tags (s : State) (sid : Nat) (g : Strand → Strand) : (s.modStrand sid g).tags = s.tags := by
  unfold State.modStrand; split <;> rfl
@[simp] theorem State.modStrand_poisonLines (s : State) (sid : Nat) (g : Strand → Strand) : (s.modStrand sid g).poisonLines = s.poisonLines := by
  unfold State.modStrand; split <;> rfl
@[simp] theorem State.modStrand_poisonPages (s : State) (sid : Nat) (g : Strand → Strand) : (s.modStrand sid g).poisonPages = s.poisonPages := by
  unfold State.modStrand; split <;> rfl
@[simp] theorem State.modStrand_sharers (s : State) (sid : Nat) (g : Strand → Strand) : (s.modStrand sid g).sharers = s.sharers := by
  unfold State.modStrand; split <;> rfl
@[simp] theorem State.modStrand_updates (s : State) (sid : Nat) (g : Strand → Strand) : (s.modStrand sid g).updates = s.updates := by
  unfold State.modStrand; split <;> rfl
@[simp] theorem State.modStrand_ack (s : State) (sid : Nat) (g : Strand → Strand) : (s.modStrand sid g).ack = s.ack := by
  unfold State.modStrand; split <;> rfl
@[simp] theorem State.modStrand_os (s : State) (sid : Nat) (g : Strand → Strand) : (s.modStrand sid g).os = s.os := by
  unfold State.modStrand; split <;> rfl
@[simp] theorem State.modStrand_osLines (s : State) (sid : Nat) (g : Strand → Strand) : (s.modStrand sid g).osLines = s.osLines := by
  unfold State.modStrand; split <;> rfl
@[simp] theorem State.modStrand_clusterMsgs (s : State) (sid : Nat) (g : Strand → Strand) : (s.modStrand sid g).clusterMsgs = s.clusterMsgs := by
  unfold State.modStrand; split <;> rfl
@[simp] theorem State.modStrand_tiles (s : State) (sid : Nat) (g : Strand → Strand) : (s.modStrand sid g).tiles = s.tiles := by
  unfold State.modStrand; split <;> rfl
@[simp] theorem State.modStrand_tileVal (s : State) (sid : Nat) (g : Strand → Strand) : (s.modStrand sid g).tileVal = s.tileVal := by
  unfold State.modStrand; split <;> rfl
@[simp] theorem State.modStrand_claimQ (s : State) (sid : Nat) (g : Strand → Strand) : (s.modStrand sid g).claimQ = s.claimQ := by
  unfold State.modStrand; split <;> rfl
@[simp] theorem State.modStrand_tileBack (s : State) (sid : Nat) (g : Strand → Strand) : (s.modStrand sid g).tileBack = s.tileBack := by
  unfold State.modStrand; split <;> rfl
@[simp] theorem State.modStrand_mxq (s : State) (sid : Nat) (g : Strand → Strand) : (s.modStrand sid g).mxq = s.mxq := by
  unfold State.modStrand; split <;> rfl
@[simp] theorem State.modStrand_rkTab (s : State) (sid : Nat) (g : Strand → Strand) : (s.modStrand sid g).rkTab = s.rkTab := by
  unfold State.modStrand; split <;> rfl
@[simp] theorem State.modStrand_progs (s : State) (sid : Nat) (g : Strand → Strand) : (s.modStrand sid g).progs = s.progs := by
  unfold State.modStrand; split <;> rfl
@[simp] theorem State.modStrand_skickQ (s : State) (sid : Nat) (g : Strand → Strand) : (s.modStrand sid g).skickQ = s.skickQ := by
  unfold State.modStrand; split <;> rfl
@[simp] theorem State.modStrand_scopies (s : State) (sid : Nat) (g : Strand → Strand) : (s.modStrand sid g).scopies = s.scopies := by
  unfold State.modStrand; split <;> rfl
@[simp] theorem State.modStrand_ns (s : State) (sid : Nat) (g : Strand → Strand) : (s.modStrand sid g).ns = s.ns := by
  unfold State.modStrand; split <;> rfl
@[simp] theorem State.modStrand_nvme (s : State) (sid : Nat) (g : Strand → Strand) : (s.modStrand sid g).nvme = s.nvme := by
  unfold State.modStrand; split <;> rfl
@[simp] theorem State.modStrand_colls (s : State) (sid : Nat) (g : Strand → Strand) : (s.modStrand sid g).colls = s.colls := by
  unfold State.modStrand; split <;> rfl
@[simp] theorem State.modStrand_collCount (s : State) (sid : Nat) (g : Strand → Strand) : (s.modStrand sid g).collCount = s.collCount := by
  unfold State.modStrand; split <;> rfl
@[simp] theorem State.modStrand_collParts (s : State) (sid : Nat) (g : Strand → Strand) : (s.modStrand sid g).collParts = s.collParts := by
  unfold State.modStrand; split <;> rfl
@[simp] theorem State.modStrand_collDead (s : State) (sid : Nat) (g : Strand → Strand) : (s.modStrand sid g).collDead = s.collDead := by
  unfold State.modStrand; split <;> rfl
@[simp] theorem State.modStrand_faults (s : State) (sid : Nat) (g : Strand → Strand) : (s.modStrand sid g).faults = s.faults := by
  unfold State.modStrand; split <;> rfl
@[simp] theorem State.modStrand_faultSeq (s : State) (sid : Nat) (g : Strand → Strand) : (s.modStrand sid g).faultSeq = s.faultSeq := by
  unfold State.modStrand; split <;> rfl
@[simp] theorem State.modStrand_svcBase (s : State) (sid : Nat) (g : Strand → Strand) : (s.modStrand sid g).svcBase = s.svcBase := by
  unfold State.modStrand; split <;> rfl
@[simp] theorem State.modStrand_svcLog (s : State) (sid : Nat) (g : Strand → Strand) : (s.modStrand sid g).svcLog = s.svcLog := by
  unfold State.modStrand; split <;> rfl
@[simp] theorem State.modStrand_svcOn (s : State) (sid : Nat) (g : Strand → Strand) : (s.modStrand sid g).svcOn = s.svcOn := by
  unfold State.modStrand; split <;> rfl
@[simp] theorem State.modStrand_svcNext (s : State) (sid : Nat) (g : Strand → Strand) : (s.modStrand sid g).svcNext = s.svcNext := by
  unfold State.modStrand; split <;> rfl
@[simp] theorem State.modStrand_svc (s : State) (sid : Nat) (g : Strand → Strand) : (s.modStrand sid g).svc = s.svc := by
  unfold State.modStrand; split <;> rfl
@[simp] theorem State.modStrand_mode (s : State) (sid : Nat) (g : Strand → Strand) : (s.modStrand sid g).mode = s.mode := by
  unfold State.modStrand; split <;> rfl
@[simp] theorem State.modStrand_msixOpen (s : State) (sid : Nat) (g : Strand → Strand) : (s.modStrand sid g).msixOpen = s.msixOpen := by
  unfold State.modStrand; split <;> rfl
@[simp] theorem State.modStrand_msixPending (s : State) (sid : Nat) (g : Strand → Strand) : (s.modStrand sid g).msixPending = s.msixPending := by
  unfold State.modStrand; split <;> rfl
@[simp] theorem State.modStrand_msixSent (s : State) (sid : Nat) (g : Strand → Strand) : (s.modStrand sid g).msixSent = s.msixSent := by
  unfold State.modStrand; split <;> rfl
@[simp] theorem State.modStrand_reports (s : State) (sid : Nat) (g : Strand → Strand) : (s.modStrand sid g).reports = s.reports := by
  unfold State.modStrand; split <;> rfl
@[simp] theorem State.modStrand_appends (s : State) (sid : Nat) (g : Strand → Strand) : (s.modStrand sid g).appends = s.appends := by
  unfold State.modStrand; split <;> rfl
@[simp] theorem State.modStrand_quiets (s : State) (sid : Nat) (g : Strand → Strand) : (s.modStrand sid g).quiets = s.quiets := by
  unfold State.modStrand; split <;> rfl
@[simp] theorem State.modStrand_quietMet (s : State) (sid : Nat) (g : Strand → Strand) : (s.modStrand sid g).quietMet = s.quietMet := by
  unfold State.modStrand; split <;> rfl
@[simp] theorem State.modStrand_mcmd (s : State) (sid : Nat) (g : Strand → Strand) : (s.modStrand sid g).mcmd = s.mcmd := by
  unfold State.modStrand; split <;> rfl
@[simp] theorem State.modStrand_mBusy (s : State) (sid : Nat) (g : Strand → Strand) : (s.modStrand sid g).mBusy = s.mBusy := by
  unfold State.modStrand; split <;> rfl
@[simp] theorem State.modStrand_mDone (s : State) (sid : Nat) (g : Strand → Strand) : (s.modStrand sid g).mDone = s.mDone := by
  unfold State.modStrand; split <;> rfl
@[simp] theorem State.modStrand_mCmd (s : State) (sid : Nat) (g : Strand → Strand) : (s.modStrand sid g).mCmd = s.mCmd := by
  unfold State.modStrand; split <;> rfl
@[simp] theorem State.modStrand_mResult (s : State) (sid : Nat) (g : Strand → Strand) : (s.modStrand sid g).mResult = s.mResult := by
  unfold State.modStrand; split <;> rfl
@[simp] theorem State.modStrand_mres0 (s : State) (sid : Nat) (g : Strand → Strand) : (s.modStrand sid g).mres0 = s.mres0 := by
  unfold State.modStrand; split <;> rfl
@[simp] theorem State.modStrand_mres1 (s : State) (sid : Nat) (g : Strand → Strand) : (s.modStrand sid g).mres1 = s.mres1 := by
  unfold State.modStrand; split <;> rfl
@[simp] theorem State.modStrand_uCmd (s : State) (sid : Nat) (g : Strand → Strand) : (s.modStrand sid g).uCmd = s.uCmd := by
  unfold State.modStrand; split <;> rfl
@[simp] theorem State.modStrand_uBusy (s : State) (sid : Nat) (g : Strand → Strand) : (s.modStrand sid g).uBusy = s.uBusy := by
  unfold State.modStrand; split <;> rfl
@[simp] theorem State.modStrand_uResult (s : State) (sid : Nat) (g : Strand → Strand) : (s.modStrand sid g).uResult = s.uResult := by
  unfold State.modStrand; split <;> rfl
@[simp] theorem State.modStrand_uRes0 (s : State) (sid : Nat) (g : Strand → Strand) : (s.modStrand sid g).uRes0 = s.uRes0 := by
  unfold State.modStrand; split <;> rfl
@[simp] theorem State.modStrand_uRes1 (s : State) (sid : Nat) (g : Strand → Strand) : (s.modStrand sid g).uRes1 = s.uRes1 := by
  unfold State.modStrand; split <;> rfl
@[simp] theorem State.modStrand_mgmtQ (s : State) (sid : Nat) (g : Strand → Strand) : (s.modStrand sid g).mgmtQ = s.mgmtQ := by
  unfold State.modStrand; split <;> rfl
@[simp] theorem State.modStrand_mStart (s : State) (sid : Nat) (g : Strand → Strand) : (s.modStrand sid g).mStart = s.mStart := by
  unfold State.modStrand; split <;> rfl
@[simp] theorem State.modStrand_moving (s : State) (sid : Nat) (g : Strand → Strand) : (s.modStrand sid g).moving = s.moving := by
  unfold State.modStrand; split <;> rfl
@[simp] theorem State.modStrand_acc (s : State) (sid : Nat) (g : Strand → Strand) : (s.modStrand sid g).acc = s.acc := by
  unfold State.modStrand; split <;> rfl
@[simp] theorem State.modStrand_denials (s : State) (sid : Nat) (g : Strand → Strand) : (s.modStrand sid g).denials = s.denials := by
  unfold State.modStrand; split <;> rfl
@[simp] theorem State.modStrand_denialCount (s : State) (sid : Nat) (g : Strand → Strand) : (s.modStrand sid g).denialCount = s.denialCount := by
  unfold State.modStrand; split <;> rfl
@[simp] theorem State.modStrand_meas (s : State) (sid : Nat) (g : Strand → Strand) : (s.modStrand sid g).meas = s.meas := by
  unfold State.modStrand; split <;> rfl
@[simp] theorem State.modStrand_startFailed (s : State) (sid : Nat) (g : Strand → Strand) : (s.modStrand sid g).startFailed = s.startFailed := by
  unfold State.modStrand; split <;> rfl
@[simp] theorem State.modStrand_attQ (s : State) (sid : Nat) (g : Strand → Strand) : (s.modStrand sid g).attQ = s.attQ := by
  unfold State.modStrand; split <;> rfl
@[simp] theorem State.modStrand_attCount (s : State) (sid : Nat) (g : Strand → Strand) : (s.modStrand sid g).attCount = s.attCount := by
  unfold State.modStrand; split <;> rfl
@[simp] theorem State.modStrand_attOut (s : State) (sid : Nat) (g : Strand → Strand) : (s.modStrand sid g).attOut = s.attOut := by
  unfold State.modStrand; split <;> rfl
@[simp] theorem State.modStrand_attBusy (s : State) (sid : Nat) (g : Strand → Strand) : (s.modStrand sid g).attBusy = s.attBusy := by
  unfold State.modStrand; split <;> rfl
@[simp] theorem State.modStrand_svns (s : State) (sid : Nat) (g : Strand → Strand) : (s.modStrand sid g).svns = s.svns := by
  unfold State.modStrand; split <;> rfl
@[simp] theorem State.modStrand_ports (s : State) (sid : Nat) (g : Strand → Strand) : (s.modStrand sid g).ports = s.ports := by
  unfold State.modStrand; split <;> rfl
@[simp] theorem State.modStrand_plim (s : State) (sid : Nat) (g : Strand → Strand) : (s.modStrand sid g).plim = s.plim := by
  unfold State.modStrand; split <;> rfl
@[simp] theorem State.modStrand_clock (s : State) (sid : Nat) (g : Strand → Strand) : (s.modStrand sid g).clock = s.clock := by
  unfold State.modStrand; split <;> rfl
@[simp] theorem State.modStrand_stepAt (s : State) (sid : Nat) (g : Strand → Strand) : (s.modStrand sid g).stepAt = s.stepAt := by
  unfold State.modStrand; split <;> rfl
@[simp] theorem State.modStrand_powerAt (s : State) (sid : Nat) (g : Strand → Strand) : (s.modStrand sid g).powerAt = s.powerAt := by
  unfold State.modStrand; split <;> rfl
@[simp] theorem State.modStrand_lowSince (s : State) (sid : Nat) (g : Strand → Strand) : (s.modStrand sid g).lowSince = s.lowSince := by
  unfold State.modStrand; split <;> rfl
@[simp] theorem State.modStrand_regions (s : State) (sid : Nat) (g : Strand → Strand) : (s.modStrand sid g).regions = s.regions := by
  unfold State.modStrand; split <;> rfl
@[simp] theorem State.modStrand_heat (s : State) (sid : Nat) (g : Strand → Strand) : (s.modStrand sid g).heat = s.heat := by
  unfold State.modStrand; split <;> rfl
@[simp] theorem State.modStrand_corrected (s : State) (sid : Nat) (g : Strand → Strand) : (s.modStrand sid g).corrected = s.corrected := by
  unfold State.modStrand; split <;> rfl
@[simp] theorem State.modStrand_spares (s : State) (sid : Nat) (g : Strand → Strand) : (s.modStrand sid g).spares = s.spares := by
  unfold State.modStrand; split <;> rfl
@[simp] theorem State.modStrand_remap (s : State) (sid : Nat) (g : Strand → Strand) : (s.modStrand sid g).remap = s.remap := by
  unfold State.modStrand; split <;> rfl
@[simp] theorem State.modStrand_retired (s : State) (sid : Nat) (g : Strand → Strand) : (s.modStrand sid g).retired = s.retired := by
  unfold State.modStrand; split <;> rfl
@[simp] theorem State.modStrand_testing (s : State) (sid : Nat) (g : Strand → Strand) : (s.modStrand sid g).testing = s.testing := by
  unfold State.modStrand; split <;> rfl
@[simp] theorem State.modStrand_cycle (s : State) (sid : Nat) (g : Strand → Strand) : (s.modStrand sid g).cycle = s.cycle := by
  unfold State.modStrand; split <;> rfl
@[simp] theorem State.modStrand_tick (s : State) (sid : Nat) (g : Strand → Strand) : (s.modStrand sid g).tick = s.tick := by
  unfold State.modStrand; split <;> rfl
@[simp] theorem State.modStrand_cur (s : State) (sid : Nat) (g : Strand → Strand) : (s.modStrand sid g).cur = s.cur := by
  unfold State.modStrand; split <;> rfl
@[simp] theorem State.modStrand_curB (s : State) (sid : Nat) (g : Strand → Strand) : (s.modStrand sid g).curB = s.curB := by
  unfold State.modStrand; split <;> rfl
@[simp] theorem State.modStrand_curWin (s : State) (sid : Nat) (g : Strand → Strand) : (s.modStrand sid g).curWin = s.curWin := by
  unfold State.modStrand; split <;> rfl
@[simp] theorem State.modStrand_curWord (s : State) (sid : Nat) (g : Strand → Strand) : (s.modStrand sid g).curWord = s.curWord := by
  unfold State.modStrand; split <;> rfl
@[simp] theorem State.modStrand_curProg (s : State) (sid : Nat) (g : Strand → Strand) : (s.modStrand sid g).curProg = s.curProg := by
  unfold State.modStrand; split <;> rfl
@[simp] theorem State.modStrand_ev (s : State) (sid : Nat) (g : Strand → Strand) : (s.modStrand sid g).ev = s.ev := by
  unfold State.modStrand; split <;> rfl
@[simp] theorem State.modStrand_sched (s : State) (sid : Nat) (g : Strand → Strand) : (s.modStrand sid g).sched = s.sched := by
  unfold State.modStrand; split <;> rfl
@[simp] theorem State.modStrand_stepNo (s : State) (sid : Nat) (g : Strand → Strand) : (s.modStrand sid g).stepNo = s.stepNo := by
  unfold State.modStrand; split <;> rfl

@[simp] theorem State.strand_modStrand_ne (s : State) (sid n : Nat) (g : Strand → Strand) (h : n ≠ sid) :
    (s.modStrand sid g).strand n = s.strand n := by
  unfold State.modStrand; split
  · simp [h]
  · rfl

@[simp] theorem State.isRes_modStrand (s : State) (sid n : Nat) (g : Strand → Strand) :
    (s.modStrand sid g).isRes n = s.isRes n := by
  unfold State.modStrand
  split
  · next st h =>
    simp only [State.isRes, State.setStrand, mget?_mput]
    by_cases e : n = sid
    · subst e; simp [h]
    · simp [e]
  · rfl

/-! ### A report is added -/

@[simp] theorem State.report_live (s : State) (k : Nat) (a b c : W64) : (s.report k a b c).live = s.live := rfl
@[simp] theorem State.report_colLive (s : State) (k : Nat) (a b c : W64) : (s.report k a b c).colLive = s.colLive := rfl
@[simp] theorem State.report_fatal (s : State) (k : Nat) (a b c : W64) : (s.report k a b c).fatal = s.fatal := rfl
@[simp] theorem State.report_ctxs (s : State) (k : Nat) (a b c : W64) : (s.report k a b c).ctxs = s.ctxs := rfl
@[simp] theorem State.report_strands (s : State) (k : Nat) (a b c : W64) : (s.report k a b c).strands = s.strands := rfl
@[simp] theorem State.report_teams (s : State) (k : Nat) (a b c : W64) : (s.report k a b c).teams = s.teams := rfl
@[simp] theorem State.report_launches (s : State) (k : Nat) (a b c : W64) : (s.report k a b c).launches = s.launches := rfl
@[simp] theorem State.report_queues (s : State) (k : Nat) (a b c : W64) : (s.report k a b c).queues = s.queues := rfl
@[simp] theorem State.report_submitNext (s : State) (k : Nat) (a b c : W64) : (s.report k a b c).submitNext = s.submitNext := rfl
@[simp] theorem State.report_bars (s : State) (k : Nat) (a b c : W64) : (s.report k a b c).bars = s.bars := rfl
@[simp] theorem State.report_completions (s : State) (k : Nat) (a b c : W64) : (s.report k a b c).completions = s.completions := rfl
@[simp] theorem State.report_hbm (s : State) (k : Nat) (a b c : W64) : (s.report k a b c).hbm = s.hbm := rfl
@[simp] theorem State.report_hostMem (s : State) (k : Nat) (a b c : W64) : (s.report k a b c).hostMem = s.hostMem := rfl
@[simp] theorem State.report_hostLines (s : State) (k : Nat) (a b c : W64) : (s.report k a b c).hostLines = s.hostLines := rfl
@[simp] theorem State.report_hostOwed (s : State) (k : Nat) (a b c : W64) : (s.report k a b c).hostOwed = s.hostOwed := rfl
@[simp] theorem State.report_linkUp (s : State) (k : Nat) (a b c : W64) : (s.report k a b c).linkUp = s.linkUp := rfl
@[simp] theorem State.report_linkSlow (s : State) (k : Nat) (a b c : W64) : (s.report k a b c).linkSlow = s.linkSlow := rfl
@[simp] theorem State.report_cio (s : State) (k : Nat) (a b c : W64) : (s.report k a b c).cio = s.cio := rfl
@[simp] theorem State.report_hostGot (s : State) (k : Nat) (a b c : W64) : (s.report k a b c).hostGot = s.hostGot := rfl
@[simp] theorem State.report_dc (s : State) (k : Nat) (a b c : W64) : (s.report k a b c).dc = s.dc := rfl
@[simp] theorem State.report_tlb (s : State) (k : Nat) (a b c : W64) : (s.report k a b c).tlb = s.tlb := rfl
@[simp] theorem State.report_tags (s : State) (k : Nat) (a b c : W64) : (s.report k a b c).tags = s.tags := rfl
@[simp] theorem State.report_poisonLines (s : State) (k : Nat) (a b c : W64) : (s.report k a b c).poisonLines = s.poisonLines := rfl
@[simp] theorem State.report_poisonPages (s : State) (k : Nat) (a b c : W64) : (s.report k a b c).poisonPages = s.poisonPages := rfl
@[simp] theorem State.report_sharers (s : State) (k : Nat) (a b c : W64) : (s.report k a b c).sharers = s.sharers := rfl
@[simp] theorem State.report_updates (s : State) (k : Nat) (a b c : W64) : (s.report k a b c).updates = s.updates := rfl
@[simp] theorem State.report_ack (s : State) (k : Nat) (a b c : W64) : (s.report k a b c).ack = s.ack := rfl
@[simp] theorem State.report_os (s : State) (k : Nat) (a b c : W64) : (s.report k a b c).os = s.os := rfl
@[simp] theorem State.report_osLines (s : State) (k : Nat) (a b c : W64) : (s.report k a b c).osLines = s.osLines := rfl
@[simp] theorem State.report_clusterMsgs (s : State) (k : Nat) (a b c : W64) : (s.report k a b c).clusterMsgs = s.clusterMsgs := rfl
@[simp] theorem State.report_tiles (s : State) (k : Nat) (a b c : W64) : (s.report k a b c).tiles = s.tiles := rfl
@[simp] theorem State.report_tileVal (s : State) (k : Nat) (a b c : W64) : (s.report k a b c).tileVal = s.tileVal := rfl
@[simp] theorem State.report_claimQ (s : State) (k : Nat) (a b c : W64) : (s.report k a b c).claimQ = s.claimQ := rfl
@[simp] theorem State.report_tileBack (s : State) (k : Nat) (a b c : W64) : (s.report k a b c).tileBack = s.tileBack := rfl
@[simp] theorem State.report_mxq (s : State) (k : Nat) (a b c : W64) : (s.report k a b c).mxq = s.mxq := rfl
@[simp] theorem State.report_rkTab (s : State) (k : Nat) (a b c : W64) : (s.report k a b c).rkTab = s.rkTab := rfl
@[simp] theorem State.report_progs (s : State) (k : Nat) (a b c : W64) : (s.report k a b c).progs = s.progs := rfl
@[simp] theorem State.report_skickQ (s : State) (k : Nat) (a b c : W64) : (s.report k a b c).skickQ = s.skickQ := rfl
@[simp] theorem State.report_scopies (s : State) (k : Nat) (a b c : W64) : (s.report k a b c).scopies = s.scopies := rfl
@[simp] theorem State.report_ns (s : State) (k : Nat) (a b c : W64) : (s.report k a b c).ns = s.ns := rfl
@[simp] theorem State.report_nvme (s : State) (k : Nat) (a b c : W64) : (s.report k a b c).nvme = s.nvme := rfl
@[simp] theorem State.report_colls (s : State) (k : Nat) (a b c : W64) : (s.report k a b c).colls = s.colls := rfl
@[simp] theorem State.report_collCount (s : State) (k : Nat) (a b c : W64) : (s.report k a b c).collCount = s.collCount := rfl
@[simp] theorem State.report_collParts (s : State) (k : Nat) (a b c : W64) : (s.report k a b c).collParts = s.collParts := rfl
@[simp] theorem State.report_collDead (s : State) (k : Nat) (a b c : W64) : (s.report k a b c).collDead = s.collDead := rfl
@[simp] theorem State.report_faults (s : State) (k : Nat) (a b c : W64) : (s.report k a b c).faults = s.faults := rfl
@[simp] theorem State.report_faultSeq (s : State) (k : Nat) (a b c : W64) : (s.report k a b c).faultSeq = s.faultSeq := rfl
@[simp] theorem State.report_svcBase (s : State) (k : Nat) (a b c : W64) : (s.report k a b c).svcBase = s.svcBase := rfl
@[simp] theorem State.report_svcLog (s : State) (k : Nat) (a b c : W64) : (s.report k a b c).svcLog = s.svcLog := rfl
@[simp] theorem State.report_svcOn (s : State) (k : Nat) (a b c : W64) : (s.report k a b c).svcOn = s.svcOn := rfl
@[simp] theorem State.report_svcNext (s : State) (k : Nat) (a b c : W64) : (s.report k a b c).svcNext = s.svcNext := rfl
@[simp] theorem State.report_svc (s : State) (k : Nat) (a b c : W64) : (s.report k a b c).svc = s.svc := rfl
@[simp] theorem State.report_mode (s : State) (k : Nat) (a b c : W64) : (s.report k a b c).mode = s.mode := rfl
@[simp] theorem State.report_msixOpen (s : State) (k : Nat) (a b c : W64) : (s.report k a b c).msixOpen = s.msixOpen := rfl
@[simp] theorem State.report_msixPending (s : State) (k : Nat) (a b c : W64) : (s.report k a b c).msixPending = s.msixPending := rfl
@[simp] theorem State.report_msixSent (s : State) (k : Nat) (a b c : W64) : (s.report k a b c).msixSent = s.msixSent := rfl
@[simp] theorem State.report_appends (s : State) (k : Nat) (a b c : W64) : (s.report k a b c).appends = s.appends := rfl
@[simp] theorem State.report_quiets (s : State) (k : Nat) (a b c : W64) : (s.report k a b c).quiets = s.quiets := rfl
@[simp] theorem State.report_quietMet (s : State) (k : Nat) (a b c : W64) : (s.report k a b c).quietMet = s.quietMet := rfl
@[simp] theorem State.report_mcmd (s : State) (k : Nat) (a b c : W64) : (s.report k a b c).mcmd = s.mcmd := rfl
@[simp] theorem State.report_mBusy (s : State) (k : Nat) (a b c : W64) : (s.report k a b c).mBusy = s.mBusy := rfl
@[simp] theorem State.report_mDone (s : State) (k : Nat) (a b c : W64) : (s.report k a b c).mDone = s.mDone := rfl
@[simp] theorem State.report_mCmd (s : State) (k : Nat) (a b c : W64) : (s.report k a b c).mCmd = s.mCmd := rfl
@[simp] theorem State.report_mResult (s : State) (k : Nat) (a b c : W64) : (s.report k a b c).mResult = s.mResult := rfl
@[simp] theorem State.report_mres0 (s : State) (k : Nat) (a b c : W64) : (s.report k a b c).mres0 = s.mres0 := rfl
@[simp] theorem State.report_mres1 (s : State) (k : Nat) (a b c : W64) : (s.report k a b c).mres1 = s.mres1 := rfl
@[simp] theorem State.report_uCmd (s : State) (k : Nat) (a b c : W64) : (s.report k a b c).uCmd = s.uCmd := rfl
@[simp] theorem State.report_uBusy (s : State) (k : Nat) (a b c : W64) : (s.report k a b c).uBusy = s.uBusy := rfl
@[simp] theorem State.report_uResult (s : State) (k : Nat) (a b c : W64) : (s.report k a b c).uResult = s.uResult := rfl
@[simp] theorem State.report_uRes0 (s : State) (k : Nat) (a b c : W64) : (s.report k a b c).uRes0 = s.uRes0 := rfl
@[simp] theorem State.report_uRes1 (s : State) (k : Nat) (a b c : W64) : (s.report k a b c).uRes1 = s.uRes1 := rfl
@[simp] theorem State.report_mgmtQ (s : State) (k : Nat) (a b c : W64) : (s.report k a b c).mgmtQ = s.mgmtQ := rfl
@[simp] theorem State.report_mStart (s : State) (k : Nat) (a b c : W64) : (s.report k a b c).mStart = s.mStart := rfl
@[simp] theorem State.report_moving (s : State) (k : Nat) (a b c : W64) : (s.report k a b c).moving = s.moving := rfl
@[simp] theorem State.report_acc (s : State) (k : Nat) (a b c : W64) : (s.report k a b c).acc = s.acc := rfl
@[simp] theorem State.report_denials (s : State) (k : Nat) (a b c : W64) : (s.report k a b c).denials = s.denials := rfl
@[simp] theorem State.report_denialCount (s : State) (k : Nat) (a b c : W64) : (s.report k a b c).denialCount = s.denialCount := rfl
@[simp] theorem State.report_meas (s : State) (k : Nat) (a b c : W64) : (s.report k a b c).meas = s.meas := rfl
@[simp] theorem State.report_startFailed (s : State) (k : Nat) (a b c : W64) : (s.report k a b c).startFailed = s.startFailed := rfl
@[simp] theorem State.report_attQ (s : State) (k : Nat) (a b c : W64) : (s.report k a b c).attQ = s.attQ := rfl
@[simp] theorem State.report_attCount (s : State) (k : Nat) (a b c : W64) : (s.report k a b c).attCount = s.attCount := rfl
@[simp] theorem State.report_attOut (s : State) (k : Nat) (a b c : W64) : (s.report k a b c).attOut = s.attOut := rfl
@[simp] theorem State.report_attBusy (s : State) (k : Nat) (a b c : W64) : (s.report k a b c).attBusy = s.attBusy := rfl
@[simp] theorem State.report_svns (s : State) (k : Nat) (a b c : W64) : (s.report k a b c).svns = s.svns := rfl
@[simp] theorem State.report_ports (s : State) (k : Nat) (a b c : W64) : (s.report k a b c).ports = s.ports := rfl
@[simp] theorem State.report_plim (s : State) (k : Nat) (a b c : W64) : (s.report k a b c).plim = s.plim := rfl
@[simp] theorem State.report_clock (s : State) (k : Nat) (a b c : W64) : (s.report k a b c).clock = s.clock := rfl
@[simp] theorem State.report_stepAt (s : State) (k : Nat) (a b c : W64) : (s.report k a b c).stepAt = s.stepAt := rfl
@[simp] theorem State.report_powerAt (s : State) (k : Nat) (a b c : W64) : (s.report k a b c).powerAt = s.powerAt := rfl
@[simp] theorem State.report_lowSince (s : State) (k : Nat) (a b c : W64) : (s.report k a b c).lowSince = s.lowSince := rfl
@[simp] theorem State.report_regions (s : State) (k : Nat) (a b c : W64) : (s.report k a b c).regions = s.regions := rfl
@[simp] theorem State.report_heat (s : State) (k : Nat) (a b c : W64) : (s.report k a b c).heat = s.heat := rfl
@[simp] theorem State.report_corrected (s : State) (k : Nat) (a b c : W64) : (s.report k a b c).corrected = s.corrected := rfl
@[simp] theorem State.report_spares (s : State) (k : Nat) (a b c : W64) : (s.report k a b c).spares = s.spares := rfl
@[simp] theorem State.report_remap (s : State) (k : Nat) (a b c : W64) : (s.report k a b c).remap = s.remap := rfl
@[simp] theorem State.report_retired (s : State) (k : Nat) (a b c : W64) : (s.report k a b c).retired = s.retired := rfl
@[simp] theorem State.report_testing (s : State) (k : Nat) (a b c : W64) : (s.report k a b c).testing = s.testing := rfl
@[simp] theorem State.report_cycle (s : State) (k : Nat) (a b c : W64) : (s.report k a b c).cycle = s.cycle := rfl
@[simp] theorem State.report_tick (s : State) (k : Nat) (a b c : W64) : (s.report k a b c).tick = s.tick := rfl
@[simp] theorem State.report_cur (s : State) (k : Nat) (a b c : W64) : (s.report k a b c).cur = s.cur := rfl
@[simp] theorem State.report_curB (s : State) (k : Nat) (a b c : W64) : (s.report k a b c).curB = s.curB := rfl
@[simp] theorem State.report_curWin (s : State) (k : Nat) (a b c : W64) : (s.report k a b c).curWin = s.curWin := rfl
@[simp] theorem State.report_curWord (s : State) (k : Nat) (a b c : W64) : (s.report k a b c).curWord = s.curWord := rfl
@[simp] theorem State.report_curProg (s : State) (k : Nat) (a b c : W64) : (s.report k a b c).curProg = s.curProg := rfl
@[simp] theorem State.report_ev (s : State) (k : Nat) (a b c : W64) : (s.report k a b c).ev = s.ev := rfl
@[simp] theorem State.report_sched (s : State) (k : Nat) (a b c : W64) : (s.report k a b c).sched = s.sched := rfl
@[simp] theorem State.report_stepNo (s : State) (k : Nat) (a b c : W64) : (s.report k a b c).stepNo = s.stepNo := rfl

/-! ### The scalar registers, queue ports and lane streams of a strand are written -/

@[simp] theorem Strand.setReg_team (st : Strand) (r : Nat) (v : W64) : (st.setReg r v).team = st.team := by
  unfold Strand.setReg; split <;> rfl
@[simp] theorem Strand.setReg_role (st : Strand) (r : Nat) (v : W64) : (st.setReg r v).role = st.role := by
  unfold Strand.setReg; split <;> rfl
@[simp] theorem Strand.setReg_roleIdx (st : Strand) (r : Nat) (v : W64) : (st.setReg r v).roleIdx = st.roleIdx := by
  unfold Strand.setReg; split <;> rfl
@[simp] theorem Strand.setReg_budget (st : Strand) (r : Nat) (v : W64) : (st.setReg r v).budget = st.budget := by
  unfold Strand.setReg; split <;> rfl
@[simp] theorem Strand.setReg_k (st : Strand) (r : Nat) (v : W64) : (st.setReg r v).k = st.k := by
  unfold Strand.setReg; split <;> rfl
@[simp] theorem Strand.setReg_prio (st : Strand) (r : Nat) (v : W64) : (st.setReg r v).prio = st.prio := by
  unfold Strand.setReg; split <;> rfl
@[simp] theorem Strand.setReg_segs (st : Strand) (r : Nat) (v : W64) : (st.setReg r v).segs = st.segs := by
  unfold Strand.setReg; split <;> rfl
@[simp] theorem Strand.setReg_pc (st : Strand) (r : Nat) (v : W64) : (st.setReg r v).pc = st.pc := by
  unfold Strand.setReg; split <;> rfl
@[simp] theorem Strand.setReg_q (st : Strand) (r : Nat) (v : W64) : (st.setReg r v).q = st.q := by
  unfold Strand.setReg; split <;> rfl
@[simp] theorem Strand.setReg_csr (st : Strand) (r : Nat) (v : W64) : (st.setReg r v).csr = st.csr := by
  unfold Strand.setReg; split <;> rfl
@[simp] theorem Strand.setReg_flags (st : Strand) (r : Nat) (v : W64) : (st.setReg r v).flags = st.flags := by
  unfold Strand.setReg; split <;> rfl
@[simp] theorem Strand.setReg_savedFlags (st : Strand) (r : Nat) (v : W64) : (st.setReg r v).savedFlags = st.savedFlags := by
  unfold Strand.setReg; split <;> rfl
@[simp] theorem Strand.setReg_v (st : Strand) (r : Nat) (v : W64) : (st.setReg r v).v = st.v := by
  unfold Strand.setReg; split <;> rfl
@[simp] theorem Strand.setReg_lane (st : Strand) (r : Nat) (v : W64) : (st.setReg r v).lane = st.lane := by
  unfold Strand.setReg; split <;> rfl
@[simp] theorem Strand.setReg_win (st : Strand) (r : Nat) (v : W64) : (st.setReg r v).win = st.win := by
  unfold Strand.setReg; split <;> rfl
@[simp] theorem Strand.setReg_walker (st : Strand) (r : Nat) (v : W64) : (st.setReg r v).walker = st.walker := by
  unfold Strand.setReg; split <;> rfl
@[simp] theorem Strand.setReg_pendW (st : Strand) (r : Nat) (v : W64) : (st.setReg r v).pendW = st.pendW := by
  unfold Strand.setReg; split <;> rfl
@[simp] theorem Strand.setReg_lastLane (st : Strand) (r : Nat) (v : W64) : (st.setReg r v).lastLane = st.lastLane := by
  unfold Strand.setReg; split <;> rfl
@[simp] theorem Strand.setReg_longs (st : Strand) (r : Nat) (v : W64) : (st.setReg r v).longs = st.longs := by
  unfold Strand.setReg; split <;> rfl
@[simp] theorem Strand.setReg_replies (st : Strand) (r : Nat) (v : W64) : (st.setReg r v).replies = st.replies := by
  unfold Strand.setReg; split <;> rfl
@[simp] theorem Strand.setReg_parkS (st : Strand) (r : Nat) (v : W64) : (st.setReg r v).parkS = st.parkS := by
  unfold Strand.setReg; split <;> rfl
@[simp] theorem Strand.setReg_parkL (st : Strand) (r : Nat) (v : W64) : (st.setReg r v).parkL = st.parkL := by
  unfold Strand.setReg; split <;> rfl
@[simp] theorem Strand.setReg_entry (st : Strand) (r : Nat) (v : W64) : (st.setReg r v).entry = st.entry := by
  unfold Strand.setReg; split <;> rfl
@[simp] theorem Strand.setReg_entryPark (st : Strand) (r : Nat) (v : W64) : (st.setReg r v).entryPark = st.entryPark := by
  unfold Strand.setReg; split <;> rfl
@[simp] theorem Strand.setReg_entryRec (st : Strand) (r : Nat) (v : W64) : (st.setReg r v).entryRec = st.entryRec := by
  unfold Strand.setReg; split <;> rfl
@[simp] theorem Strand.setReg_ret (st : Strand) (r : Nat) (v : W64) : (st.setReg r v).ret = st.ret := by
  unfold Strand.setReg; split <;> rfl
@[simp] theorem Strand.setReg_held (st : Strand) (r : Nat) (v : W64) : (st.setReg r v).held = st.held := by
  unfold Strand.setReg; split <;> rfl
@[simp] theorem Strand.setReg_pendC (st : Strand) (r : Nat) (v : W64) : (st.setReg r v).pendC = st.pendC := by
  unfold Strand.setReg; split <;> rfl
@[simp] theorem Strand.setReg_vpois (st : Strand) (r : Nat) (v : W64) : (st.setReg r v).vpois = st.vpois := by
  unfold Strand.setReg; split <;> rfl
@[simp] theorem Strand.setReg_halt (st : Strand) (r : Nat) (v : W64) : (st.setReg r v).halt = st.halt := by
  unfold Strand.setReg; split <;> rfl
@[simp] theorem Strand.setReg_npr (st : Strand) (r : Nat) (v : W64) : (st.setReg r v).npr = st.npr := by
  unfold Strand.setReg; split <;> rfl
@[simp] theorem Strand.setReg_arr (st : Strand) (r : Nat) (v : W64) : (st.setReg r v).arr = st.arr := by
  unfold Strand.setReg; split <;> rfl
@[simp] theorem Strand.setReg_barAt (st : Strand) (r : Nat) (v : W64) : (st.setReg r v).barAt = st.barAt := by
  unfold Strand.setReg; split <;> rfl
@[simp] theorem Strand.setReg_savedBar (st : Strand) (r : Nat) (v : W64) : (st.setReg r v).savedBar = st.savedBar := by
  unfold Strand.setReg; split <;> rfl
@[simp] theorem Strand.setReg_waitAt (st : Strand) (r : Nat) (v : W64) : (st.setReg r v).waitAt = st.waitAt := by
  unfold Strand.setReg; split <;> rfl
@[simp] theorem Strand.setReg_claim (st : Strand) (r : Nat) (v : W64) : (st.setReg r v).claim = st.claim := by
  unfold Strand.setReg; split <;> rfl
@[simp] theorem Strand.setReg_skick (st : Strand) (r : Nat) (v : W64) : (st.setReg r v).skick = st.skick := by
  unfold Strand.setReg; split <;> rfl
@[simp] theorem Strand.setReg_parkSince (st : Strand) (r : Nat) (v : W64) : (st.setReg r v).parkSince = st.parkSince := by
  unfold Strand.setReg; split <;> rfl
@[simp] theorem Strand.setReg_waitS (st : Strand) (r : Nat) (v : W64) : (st.setReg r v).waitS = st.waitS := by
  unfold Strand.setReg; split <;> rfl
@[simp] theorem Strand.setReg_stallS (st : Strand) (r : Nat) (v : W64) : (st.setReg r v).stallS = st.stallS := by
  unfold Strand.setReg; split <;> rfl
@[simp] theorem Strand.setReg_stallA (st : Strand) (r : Nat) (v : W64) : (st.setReg r v).stallA = st.stallA := by
  unfold Strand.setReg; split <;> rfl
@[simp] theorem Strand.setReg_stallB (st : Strand) (r : Nat) (v : W64) : (st.setReg r v).stallB = st.stallB := by
  unfold Strand.setReg; split <;> rfl
@[simp] theorem Strand.setReg_waitL (st : Strand) (r : Nat) (v : W64) : (st.setReg r v).waitL = st.waitL := by
  unfold Strand.setReg; split <;> rfl
@[simp] theorem Strand.setReg_lastS (st : Strand) (r : Nat) (v : W64) : (st.setReg r v).lastS = st.lastS := by
  unfold Strand.setReg; split <;> rfl
@[simp] theorem Strand.setReg_lastL (st : Strand) (r : Nat) (v : W64) : (st.setReg r v).lastL = st.lastL := by
  unfold Strand.setReg; split <;> rfl
@[simp] theorem Strand.setReg_ageS (st : Strand) (r : Nat) (v : W64) : (st.setReg r v).ageS = st.ageS := by
  unfold Strand.setReg; split <;> rfl
@[simp] theorem Strand.setReg_ageL (st : Strand) (r : Nat) (v : W64) : (st.setReg r v).ageL = st.ageL := by
  unfold Strand.setReg; split <;> rfl
@[simp] theorem Strand.setReg_relStore (st : Strand) (r : Nat) (v : W64) : (st.setReg r v).relStore = st.relStore := by
  unfold Strand.setReg; split <;> rfl
@[simp] theorem Strand.setReg_pkgFlags (st : Strand) (r : Nat) (v : W64) : (st.setReg r v).pkgFlags = st.pkgFlags := by
  unfold Strand.setReg; split <;> rfl
@[simp] theorem Strand.setReg_savedPkg (st : Strand) (r : Nat) (v : W64) : (st.setReg r v).savedPkg = st.savedPkg := by
  unfold Strand.setReg; split <;> rfl
@[simp] theorem Strand.setQueue_team (st : Strand) (i : Nat) (l : List W64) : (st.setQueue i l).team = st.team := rfl
@[simp] theorem Strand.setQueue_role (st : Strand) (i : Nat) (l : List W64) : (st.setQueue i l).role = st.role := rfl
@[simp] theorem Strand.setQueue_roleIdx (st : Strand) (i : Nat) (l : List W64) : (st.setQueue i l).roleIdx = st.roleIdx := rfl
@[simp] theorem Strand.setQueue_budget (st : Strand) (i : Nat) (l : List W64) : (st.setQueue i l).budget = st.budget := rfl
@[simp] theorem Strand.setQueue_k (st : Strand) (i : Nat) (l : List W64) : (st.setQueue i l).k = st.k := rfl
@[simp] theorem Strand.setQueue_prio (st : Strand) (i : Nat) (l : List W64) : (st.setQueue i l).prio = st.prio := rfl
@[simp] theorem Strand.setQueue_segs (st : Strand) (i : Nat) (l : List W64) : (st.setQueue i l).segs = st.segs := rfl
@[simp] theorem Strand.setQueue_a (st : Strand) (i : Nat) (l : List W64) : (st.setQueue i l).a = st.a := rfl
@[simp] theorem Strand.setQueue_pc (st : Strand) (i : Nat) (l : List W64) : (st.setQueue i l).pc = st.pc := rfl
@[simp] theorem Strand.setQueue_csr (st : Strand) (i : Nat) (l : List W64) : (st.setQueue i l).csr = st.csr := rfl
@[simp] theorem Strand.setQueue_flags (st : Strand) (i : Nat) (l : List W64) : (st.setQueue i l).flags = st.flags := rfl
@[simp] theorem Strand.setQueue_savedFlags (st : Strand) (i : Nat) (l : List W64) : (st.setQueue i l).savedFlags = st.savedFlags := rfl
@[simp] theorem Strand.setQueue_v (st : Strand) (i : Nat) (l : List W64) : (st.setQueue i l).v = st.v := rfl
@[simp] theorem Strand.setQueue_lane (st : Strand) (i : Nat) (l : List W64) : (st.setQueue i l).lane = st.lane := rfl
@[simp] theorem Strand.setQueue_win (st : Strand) (i : Nat) (l : List W64) : (st.setQueue i l).win = st.win := rfl
@[simp] theorem Strand.setQueue_walker (st : Strand) (i : Nat) (l : List W64) : (st.setQueue i l).walker = st.walker := rfl
@[simp] theorem Strand.setQueue_pendW (st : Strand) (i : Nat) (l : List W64) : (st.setQueue i l).pendW = st.pendW := rfl
@[simp] theorem Strand.setQueue_lastLane (st : Strand) (i : Nat) (l : List W64) : (st.setQueue i l).lastLane = st.lastLane := rfl
@[simp] theorem Strand.setQueue_longs (st : Strand) (i : Nat) (l : List W64) : (st.setQueue i l).longs = st.longs := rfl
@[simp] theorem Strand.setQueue_replies (st : Strand) (i : Nat) (l : List W64) : (st.setQueue i l).replies = st.replies := rfl
@[simp] theorem Strand.setQueue_parkS (st : Strand) (i : Nat) (l : List W64) : (st.setQueue i l).parkS = st.parkS := rfl
@[simp] theorem Strand.setQueue_parkL (st : Strand) (i : Nat) (l : List W64) : (st.setQueue i l).parkL = st.parkL := rfl
@[simp] theorem Strand.setQueue_entry (st : Strand) (i : Nat) (l : List W64) : (st.setQueue i l).entry = st.entry := rfl
@[simp] theorem Strand.setQueue_entryPark (st : Strand) (i : Nat) (l : List W64) : (st.setQueue i l).entryPark = st.entryPark := rfl
@[simp] theorem Strand.setQueue_entryRec (st : Strand) (i : Nat) (l : List W64) : (st.setQueue i l).entryRec = st.entryRec := rfl
@[simp] theorem Strand.setQueue_ret (st : Strand) (i : Nat) (l : List W64) : (st.setQueue i l).ret = st.ret := rfl
@[simp] theorem Strand.setQueue_held (st : Strand) (i : Nat) (l : List W64) : (st.setQueue i l).held = st.held := rfl
@[simp] theorem Strand.setQueue_pendC (st : Strand) (i : Nat) (l : List W64) : (st.setQueue i l).pendC = st.pendC := rfl
@[simp] theorem Strand.setQueue_vpois (st : Strand) (i : Nat) (l : List W64) : (st.setQueue i l).vpois = st.vpois := rfl
@[simp] theorem Strand.setQueue_halt (st : Strand) (i : Nat) (l : List W64) : (st.setQueue i l).halt = st.halt := rfl
@[simp] theorem Strand.setQueue_npr (st : Strand) (i : Nat) (l : List W64) : (st.setQueue i l).npr = st.npr := rfl
@[simp] theorem Strand.setQueue_arr (st : Strand) (i : Nat) (l : List W64) : (st.setQueue i l).arr = st.arr := rfl
@[simp] theorem Strand.setQueue_barAt (st : Strand) (i : Nat) (l : List W64) : (st.setQueue i l).barAt = st.barAt := rfl
@[simp] theorem Strand.setQueue_savedBar (st : Strand) (i : Nat) (l : List W64) : (st.setQueue i l).savedBar = st.savedBar := rfl
@[simp] theorem Strand.setQueue_waitAt (st : Strand) (i : Nat) (l : List W64) : (st.setQueue i l).waitAt = st.waitAt := rfl
@[simp] theorem Strand.setQueue_claim (st : Strand) (i : Nat) (l : List W64) : (st.setQueue i l).claim = st.claim := rfl
@[simp] theorem Strand.setQueue_skick (st : Strand) (i : Nat) (l : List W64) : (st.setQueue i l).skick = st.skick := rfl
@[simp] theorem Strand.setQueue_parkSince (st : Strand) (i : Nat) (l : List W64) : (st.setQueue i l).parkSince = st.parkSince := rfl
@[simp] theorem Strand.setQueue_waitS (st : Strand) (i : Nat) (l : List W64) : (st.setQueue i l).waitS = st.waitS := rfl
@[simp] theorem Strand.setQueue_stallS (st : Strand) (i : Nat) (l : List W64) : (st.setQueue i l).stallS = st.stallS := rfl
@[simp] theorem Strand.setQueue_stallA (st : Strand) (i : Nat) (l : List W64) : (st.setQueue i l).stallA = st.stallA := rfl
@[simp] theorem Strand.setQueue_stallB (st : Strand) (i : Nat) (l : List W64) : (st.setQueue i l).stallB = st.stallB := rfl
@[simp] theorem Strand.setQueue_waitL (st : Strand) (i : Nat) (l : List W64) : (st.setQueue i l).waitL = st.waitL := rfl
@[simp] theorem Strand.setQueue_lastS (st : Strand) (i : Nat) (l : List W64) : (st.setQueue i l).lastS = st.lastS := rfl
@[simp] theorem Strand.setQueue_lastL (st : Strand) (i : Nat) (l : List W64) : (st.setQueue i l).lastL = st.lastL := rfl
@[simp] theorem Strand.setQueue_ageS (st : Strand) (i : Nat) (l : List W64) : (st.setQueue i l).ageS = st.ageS := rfl
@[simp] theorem Strand.setQueue_ageL (st : Strand) (i : Nat) (l : List W64) : (st.setQueue i l).ageL = st.ageL := rfl
@[simp] theorem Strand.setQueue_relStore (st : Strand) (i : Nat) (l : List W64) : (st.setQueue i l).relStore = st.relStore := rfl
@[simp] theorem Strand.setQueue_pkgFlags (st : Strand) (i : Nat) (l : List W64) : (st.setQueue i l).pkgFlags = st.pkgFlags := rfl
@[simp] theorem Strand.setQueue_savedPkg (st : Strand) (i : Nat) (l : List W64) : (st.setQueue i l).savedPkg = st.savedPkg := rfl
@[simp] theorem Strand.put_team (st : Strand) (r : Nat) (v : W64) : (st.put r v).team = st.team := by
  unfold Strand.put; split <;> simp
@[simp] theorem Strand.put_role (st : Strand) (r : Nat) (v : W64) : (st.put r v).role = st.role := by
  unfold Strand.put; split <;> simp
@[simp] theorem Strand.put_roleIdx (st : Strand) (r : Nat) (v : W64) : (st.put r v).roleIdx = st.roleIdx := by
  unfold Strand.put; split <;> simp
@[simp] theorem Strand.put_budget (st : Strand) (r : Nat) (v : W64) : (st.put r v).budget = st.budget := by
  unfold Strand.put; split <;> simp
@[simp] theorem Strand.put_k (st : Strand) (r : Nat) (v : W64) : (st.put r v).k = st.k := by
  unfold Strand.put; split <;> simp
@[simp] theorem Strand.put_prio (st : Strand) (r : Nat) (v : W64) : (st.put r v).prio = st.prio := by
  unfold Strand.put; split <;> simp
@[simp] theorem Strand.put_segs (st : Strand) (r : Nat) (v : W64) : (st.put r v).segs = st.segs := by
  unfold Strand.put; split <;> simp
@[simp] theorem Strand.put_pc (st : Strand) (r : Nat) (v : W64) : (st.put r v).pc = st.pc := by
  unfold Strand.put; split <;> simp
@[simp] theorem Strand.put_csr (st : Strand) (r : Nat) (v : W64) : (st.put r v).csr = st.csr := by
  unfold Strand.put; split <;> simp
@[simp] theorem Strand.put_flags (st : Strand) (r : Nat) (v : W64) : (st.put r v).flags = st.flags := by
  unfold Strand.put; split <;> simp
@[simp] theorem Strand.put_savedFlags (st : Strand) (r : Nat) (v : W64) : (st.put r v).savedFlags = st.savedFlags := by
  unfold Strand.put; split <;> simp
@[simp] theorem Strand.put_v (st : Strand) (r : Nat) (v : W64) : (st.put r v).v = st.v := by
  unfold Strand.put; split <;> simp
@[simp] theorem Strand.put_lane (st : Strand) (r : Nat) (v : W64) : (st.put r v).lane = st.lane := by
  unfold Strand.put; split <;> simp
@[simp] theorem Strand.put_win (st : Strand) (r : Nat) (v : W64) : (st.put r v).win = st.win := by
  unfold Strand.put; split <;> simp
@[simp] theorem Strand.put_walker (st : Strand) (r : Nat) (v : W64) : (st.put r v).walker = st.walker := by
  unfold Strand.put; split <;> simp
@[simp] theorem Strand.put_pendW (st : Strand) (r : Nat) (v : W64) : (st.put r v).pendW = st.pendW := by
  unfold Strand.put; split <;> simp
@[simp] theorem Strand.put_lastLane (st : Strand) (r : Nat) (v : W64) : (st.put r v).lastLane = st.lastLane := by
  unfold Strand.put; split <;> simp
@[simp] theorem Strand.put_longs (st : Strand) (r : Nat) (v : W64) : (st.put r v).longs = st.longs := by
  unfold Strand.put; split <;> simp
@[simp] theorem Strand.put_replies (st : Strand) (r : Nat) (v : W64) : (st.put r v).replies = st.replies := by
  unfold Strand.put; split <;> simp
@[simp] theorem Strand.put_parkS (st : Strand) (r : Nat) (v : W64) : (st.put r v).parkS = st.parkS := by
  unfold Strand.put; split <;> simp
@[simp] theorem Strand.put_parkL (st : Strand) (r : Nat) (v : W64) : (st.put r v).parkL = st.parkL := by
  unfold Strand.put; split <;> simp
@[simp] theorem Strand.put_entry (st : Strand) (r : Nat) (v : W64) : (st.put r v).entry = st.entry := by
  unfold Strand.put; split <;> simp
@[simp] theorem Strand.put_entryPark (st : Strand) (r : Nat) (v : W64) : (st.put r v).entryPark = st.entryPark := by
  unfold Strand.put; split <;> simp
@[simp] theorem Strand.put_entryRec (st : Strand) (r : Nat) (v : W64) : (st.put r v).entryRec = st.entryRec := by
  unfold Strand.put; split <;> simp
@[simp] theorem Strand.put_ret (st : Strand) (r : Nat) (v : W64) : (st.put r v).ret = st.ret := by
  unfold Strand.put; split <;> simp
@[simp] theorem Strand.put_held (st : Strand) (r : Nat) (v : W64) : (st.put r v).held = st.held := by
  unfold Strand.put; split <;> simp
@[simp] theorem Strand.put_pendC (st : Strand) (r : Nat) (v : W64) : (st.put r v).pendC = st.pendC := by
  unfold Strand.put; split <;> simp
@[simp] theorem Strand.put_vpois (st : Strand) (r : Nat) (v : W64) : (st.put r v).vpois = st.vpois := by
  unfold Strand.put; split <;> simp
@[simp] theorem Strand.put_halt (st : Strand) (r : Nat) (v : W64) : (st.put r v).halt = st.halt := by
  unfold Strand.put; split <;> simp
@[simp] theorem Strand.put_npr (st : Strand) (r : Nat) (v : W64) : (st.put r v).npr = st.npr := by
  unfold Strand.put; split <;> simp
@[simp] theorem Strand.put_arr (st : Strand) (r : Nat) (v : W64) : (st.put r v).arr = st.arr := by
  unfold Strand.put; split <;> simp
@[simp] theorem Strand.put_barAt (st : Strand) (r : Nat) (v : W64) : (st.put r v).barAt = st.barAt := by
  unfold Strand.put; split <;> simp
@[simp] theorem Strand.put_savedBar (st : Strand) (r : Nat) (v : W64) : (st.put r v).savedBar = st.savedBar := by
  unfold Strand.put; split <;> simp
@[simp] theorem Strand.put_waitAt (st : Strand) (r : Nat) (v : W64) : (st.put r v).waitAt = st.waitAt := by
  unfold Strand.put; split <;> simp
@[simp] theorem Strand.put_claim (st : Strand) (r : Nat) (v : W64) : (st.put r v).claim = st.claim := by
  unfold Strand.put; split <;> simp
@[simp] theorem Strand.put_skick (st : Strand) (r : Nat) (v : W64) : (st.put r v).skick = st.skick := by
  unfold Strand.put; split <;> simp
@[simp] theorem Strand.put_parkSince (st : Strand) (r : Nat) (v : W64) : (st.put r v).parkSince = st.parkSince := by
  unfold Strand.put; split <;> simp
@[simp] theorem Strand.put_waitS (st : Strand) (r : Nat) (v : W64) : (st.put r v).waitS = st.waitS := by
  unfold Strand.put; split <;> simp
@[simp] theorem Strand.put_stallS (st : Strand) (r : Nat) (v : W64) : (st.put r v).stallS = st.stallS := by
  unfold Strand.put; split <;> simp
@[simp] theorem Strand.put_stallA (st : Strand) (r : Nat) (v : W64) : (st.put r v).stallA = st.stallA := by
  unfold Strand.put; split <;> simp
@[simp] theorem Strand.put_stallB (st : Strand) (r : Nat) (v : W64) : (st.put r v).stallB = st.stallB := by
  unfold Strand.put; split <;> simp
@[simp] theorem Strand.put_waitL (st : Strand) (r : Nat) (v : W64) : (st.put r v).waitL = st.waitL := by
  unfold Strand.put; split <;> simp
@[simp] theorem Strand.put_lastS (st : Strand) (r : Nat) (v : W64) : (st.put r v).lastS = st.lastS := by
  unfold Strand.put; split <;> simp
@[simp] theorem Strand.put_lastL (st : Strand) (r : Nat) (v : W64) : (st.put r v).lastL = st.lastL := by
  unfold Strand.put; split <;> simp
@[simp] theorem Strand.put_ageS (st : Strand) (r : Nat) (v : W64) : (st.put r v).ageS = st.ageS := by
  unfold Strand.put; split <;> simp
@[simp] theorem Strand.put_ageL (st : Strand) (r : Nat) (v : W64) : (st.put r v).ageL = st.ageL := by
  unfold Strand.put; split <;> simp
@[simp] theorem Strand.put_relStore (st : Strand) (r : Nat) (v : W64) : (st.put r v).relStore = st.relStore := by
  unfold Strand.put; split <;> simp
@[simp] theorem Strand.put_pkgFlags (st : Strand) (r : Nat) (v : W64) : (st.put r v).pkgFlags = st.pkgFlags := by
  unfold Strand.put; split <;> simp
@[simp] theorem Strand.put_savedPkg (st : Strand) (r : Nat) (v : W64) : (st.put r v).savedPkg = st.savedPkg := by
  unfold Strand.put; split <;> simp
@[simp] theorem Strand.setLaneCtx_team (st : Strand) (b : Bool) (c : LaneCtx) : (st.setLaneCtx b c).team = st.team := by
  unfold Strand.setLaneCtx; split <;> rfl
@[simp] theorem Strand.setLaneCtx_role (st : Strand) (b : Bool) (c : LaneCtx) : (st.setLaneCtx b c).role = st.role := by
  unfold Strand.setLaneCtx; split <;> rfl
@[simp] theorem Strand.setLaneCtx_roleIdx (st : Strand) (b : Bool) (c : LaneCtx) : (st.setLaneCtx b c).roleIdx = st.roleIdx := by
  unfold Strand.setLaneCtx; split <;> rfl
@[simp] theorem Strand.setLaneCtx_budget (st : Strand) (b : Bool) (c : LaneCtx) : (st.setLaneCtx b c).budget = st.budget := by
  unfold Strand.setLaneCtx; split <;> rfl
@[simp] theorem Strand.setLaneCtx_k (st : Strand) (b : Bool) (c : LaneCtx) : (st.setLaneCtx b c).k = st.k := by
  unfold Strand.setLaneCtx; split <;> rfl
@[simp] theorem Strand.setLaneCtx_prio (st : Strand) (b : Bool) (c : LaneCtx) : (st.setLaneCtx b c).prio = st.prio := by
  unfold Strand.setLaneCtx; split <;> rfl
@[simp] theorem Strand.setLaneCtx_segs (st : Strand) (b : Bool) (c : LaneCtx) : (st.setLaneCtx b c).segs = st.segs := by
  unfold Strand.setLaneCtx; split <;> rfl
@[simp] theorem Strand.setLaneCtx_a (st : Strand) (b : Bool) (c : LaneCtx) : (st.setLaneCtx b c).a = st.a := by
  unfold Strand.setLaneCtx; split <;> rfl
@[simp] theorem Strand.setLaneCtx_pc (st : Strand) (b : Bool) (c : LaneCtx) : (st.setLaneCtx b c).pc = st.pc := by
  unfold Strand.setLaneCtx; split <;> rfl
@[simp] theorem Strand.setLaneCtx_q (st : Strand) (b : Bool) (c : LaneCtx) : (st.setLaneCtx b c).q = st.q := by
  unfold Strand.setLaneCtx; split <;> rfl
@[simp] theorem Strand.setLaneCtx_csr (st : Strand) (b : Bool) (c : LaneCtx) : (st.setLaneCtx b c).csr = st.csr := by
  unfold Strand.setLaneCtx; split <;> rfl
@[simp] theorem Strand.setLaneCtx_flags (st : Strand) (b : Bool) (c : LaneCtx) : (st.setLaneCtx b c).flags = st.flags := by
  unfold Strand.setLaneCtx; split <;> rfl
@[simp] theorem Strand.setLaneCtx_savedFlags (st : Strand) (b : Bool) (c : LaneCtx) : (st.setLaneCtx b c).savedFlags = st.savedFlags := by
  unfold Strand.setLaneCtx; split <;> rfl
@[simp] theorem Strand.setLaneCtx_v (st : Strand) (b : Bool) (c : LaneCtx) : (st.setLaneCtx b c).v = st.v := by
  unfold Strand.setLaneCtx; split <;> rfl
@[simp] theorem Strand.setLaneCtx_walker (st : Strand) (b : Bool) (c : LaneCtx) : (st.setLaneCtx b c).walker = st.walker := by
  unfold Strand.setLaneCtx; split <;> rfl
@[simp] theorem Strand.setLaneCtx_pendW (st : Strand) (b : Bool) (c : LaneCtx) : (st.setLaneCtx b c).pendW = st.pendW := by
  unfold Strand.setLaneCtx; split <;> rfl
@[simp] theorem Strand.setLaneCtx_lastLane (st : Strand) (b : Bool) (c : LaneCtx) : (st.setLaneCtx b c).lastLane = st.lastLane := by
  unfold Strand.setLaneCtx; split <;> rfl
@[simp] theorem Strand.setLaneCtx_longs (st : Strand) (b : Bool) (c : LaneCtx) : (st.setLaneCtx b c).longs = st.longs := by
  unfold Strand.setLaneCtx; split <;> rfl
@[simp] theorem Strand.setLaneCtx_replies (st : Strand) (b : Bool) (c : LaneCtx) : (st.setLaneCtx b c).replies = st.replies := by
  unfold Strand.setLaneCtx; split <;> rfl
@[simp] theorem Strand.setLaneCtx_parkS (st : Strand) (b : Bool) (c : LaneCtx) : (st.setLaneCtx b c).parkS = st.parkS := by
  unfold Strand.setLaneCtx; split <;> rfl
@[simp] theorem Strand.setLaneCtx_parkL (st : Strand) (b : Bool) (c : LaneCtx) : (st.setLaneCtx b c).parkL = st.parkL := by
  unfold Strand.setLaneCtx; split <;> rfl
@[simp] theorem Strand.setLaneCtx_entry (st : Strand) (b : Bool) (c : LaneCtx) : (st.setLaneCtx b c).entry = st.entry := by
  unfold Strand.setLaneCtx; split <;> rfl
@[simp] theorem Strand.setLaneCtx_entryPark (st : Strand) (b : Bool) (c : LaneCtx) : (st.setLaneCtx b c).entryPark = st.entryPark := by
  unfold Strand.setLaneCtx; split <;> rfl
@[simp] theorem Strand.setLaneCtx_entryRec (st : Strand) (b : Bool) (c : LaneCtx) : (st.setLaneCtx b c).entryRec = st.entryRec := by
  unfold Strand.setLaneCtx; split <;> rfl
@[simp] theorem Strand.setLaneCtx_ret (st : Strand) (b : Bool) (c : LaneCtx) : (st.setLaneCtx b c).ret = st.ret := by
  unfold Strand.setLaneCtx; split <;> rfl
@[simp] theorem Strand.setLaneCtx_held (st : Strand) (b : Bool) (c : LaneCtx) : (st.setLaneCtx b c).held = st.held := by
  unfold Strand.setLaneCtx; split <;> rfl
@[simp] theorem Strand.setLaneCtx_pendC (st : Strand) (b : Bool) (c : LaneCtx) : (st.setLaneCtx b c).pendC = st.pendC := by
  unfold Strand.setLaneCtx; split <;> rfl
@[simp] theorem Strand.setLaneCtx_vpois (st : Strand) (b : Bool) (c : LaneCtx) : (st.setLaneCtx b c).vpois = st.vpois := by
  unfold Strand.setLaneCtx; split <;> rfl
@[simp] theorem Strand.setLaneCtx_halt (st : Strand) (b : Bool) (c : LaneCtx) : (st.setLaneCtx b c).halt = st.halt := by
  unfold Strand.setLaneCtx; split <;> rfl
@[simp] theorem Strand.setLaneCtx_npr (st : Strand) (b : Bool) (c : LaneCtx) : (st.setLaneCtx b c).npr = st.npr := by
  unfold Strand.setLaneCtx; split <;> rfl
@[simp] theorem Strand.setLaneCtx_arr (st : Strand) (b : Bool) (c : LaneCtx) : (st.setLaneCtx b c).arr = st.arr := by
  unfold Strand.setLaneCtx; split <;> rfl
@[simp] theorem Strand.setLaneCtx_barAt (st : Strand) (b : Bool) (c : LaneCtx) : (st.setLaneCtx b c).barAt = st.barAt := by
  unfold Strand.setLaneCtx; split <;> rfl
@[simp] theorem Strand.setLaneCtx_savedBar (st : Strand) (b : Bool) (c : LaneCtx) : (st.setLaneCtx b c).savedBar = st.savedBar := by
  unfold Strand.setLaneCtx; split <;> rfl
@[simp] theorem Strand.setLaneCtx_waitAt (st : Strand) (b : Bool) (c : LaneCtx) : (st.setLaneCtx b c).waitAt = st.waitAt := by
  unfold Strand.setLaneCtx; split <;> rfl
@[simp] theorem Strand.setLaneCtx_claim (st : Strand) (b : Bool) (c : LaneCtx) : (st.setLaneCtx b c).claim = st.claim := by
  unfold Strand.setLaneCtx; split <;> rfl
@[simp] theorem Strand.setLaneCtx_skick (st : Strand) (b : Bool) (c : LaneCtx) : (st.setLaneCtx b c).skick = st.skick := by
  unfold Strand.setLaneCtx; split <;> rfl
@[simp] theorem Strand.setLaneCtx_parkSince (st : Strand) (b : Bool) (c : LaneCtx) : (st.setLaneCtx b c).parkSince = st.parkSince := by
  unfold Strand.setLaneCtx; split <;> rfl
@[simp] theorem Strand.setLaneCtx_waitS (st : Strand) (b : Bool) (c : LaneCtx) : (st.setLaneCtx b c).waitS = st.waitS := by
  unfold Strand.setLaneCtx; split <;> rfl
@[simp] theorem Strand.setLaneCtx_stallS (st : Strand) (b : Bool) (c : LaneCtx) : (st.setLaneCtx b c).stallS = st.stallS := by
  unfold Strand.setLaneCtx; split <;> rfl
@[simp] theorem Strand.setLaneCtx_stallA (st : Strand) (b : Bool) (c : LaneCtx) : (st.setLaneCtx b c).stallA = st.stallA := by
  unfold Strand.setLaneCtx; split <;> rfl
@[simp] theorem Strand.setLaneCtx_stallB (st : Strand) (b : Bool) (c : LaneCtx) : (st.setLaneCtx b c).stallB = st.stallB := by
  unfold Strand.setLaneCtx; split <;> rfl
@[simp] theorem Strand.setLaneCtx_waitL (st : Strand) (b : Bool) (c : LaneCtx) : (st.setLaneCtx b c).waitL = st.waitL := by
  unfold Strand.setLaneCtx; split <;> rfl
@[simp] theorem Strand.setLaneCtx_lastS (st : Strand) (b : Bool) (c : LaneCtx) : (st.setLaneCtx b c).lastS = st.lastS := by
  unfold Strand.setLaneCtx; split <;> rfl
@[simp] theorem Strand.setLaneCtx_lastL (st : Strand) (b : Bool) (c : LaneCtx) : (st.setLaneCtx b c).lastL = st.lastL := by
  unfold Strand.setLaneCtx; split <;> rfl
@[simp] theorem Strand.setLaneCtx_ageS (st : Strand) (b : Bool) (c : LaneCtx) : (st.setLaneCtx b c).ageS = st.ageS := by
  unfold Strand.setLaneCtx; split <;> rfl
@[simp] theorem Strand.setLaneCtx_ageL (st : Strand) (b : Bool) (c : LaneCtx) : (st.setLaneCtx b c).ageL = st.ageL := by
  unfold Strand.setLaneCtx; split <;> rfl
@[simp] theorem Strand.setLaneCtx_relStore (st : Strand) (b : Bool) (c : LaneCtx) : (st.setLaneCtx b c).relStore = st.relStore := by
  unfold Strand.setLaneCtx; split <;> rfl
@[simp] theorem Strand.setLaneCtx_pkgFlags (st : Strand) (b : Bool) (c : LaneCtx) : (st.setLaneCtx b c).pkgFlags = st.pkgFlags := by
  unfold Strand.setLaneCtx; split <;> rfl
@[simp] theorem Strand.setLaneCtx_savedPkg (st : Strand) (b : Bool) (c : LaneCtx) : (st.setLaneCtx b c).savedPkg = st.savedPkg := by
  unfold Strand.setLaneCtx; split <;> rfl
@[simp] theorem Strand.putLane_team (st : Strand) (k : Nat) (v : W32) : (st.putLane k v).team = st.team := rfl
@[simp] theorem Strand.putLane_role (st : Strand) (k : Nat) (v : W32) : (st.putLane k v).role = st.role := rfl
@[simp] theorem Strand.putLane_roleIdx (st : Strand) (k : Nat) (v : W32) : (st.putLane k v).roleIdx = st.roleIdx := rfl
@[simp] theorem Strand.putLane_budget (st : Strand) (k : Nat) (v : W32) : (st.putLane k v).budget = st.budget := rfl
@[simp] theorem Strand.putLane_k (st : Strand) (k : Nat) (v : W32) : (st.putLane k v).k = st.k := rfl
@[simp] theorem Strand.putLane_prio (st : Strand) (k : Nat) (v : W32) : (st.putLane k v).prio = st.prio := rfl
@[simp] theorem Strand.putLane_segs (st : Strand) (k : Nat) (v : W32) : (st.putLane k v).segs = st.segs := rfl
@[simp] theorem Strand.putLane_a (st : Strand) (k : Nat) (v : W32) : (st.putLane k v).a = st.a := rfl
@[simp] theorem Strand.putLane_pc (st : Strand) (k : Nat) (v : W32) : (st.putLane k v).pc = st.pc := rfl
@[simp] theorem Strand.putLane_q (st : Strand) (k : Nat) (v : W32) : (st.putLane k v).q = st.q := rfl
@[simp] theorem Strand.putLane_csr (st : Strand) (k : Nat) (v : W32) : (st.putLane k v).csr = st.csr := rfl
@[simp] theorem Strand.putLane_flags (st : Strand) (k : Nat) (v : W32) : (st.putLane k v).flags = st.flags := rfl
@[simp] theorem Strand.putLane_savedFlags (st : Strand) (k : Nat) (v : W32) : (st.putLane k v).savedFlags = st.savedFlags := rfl
@[simp] theorem Strand.putLane_lane (st : Strand) (k : Nat) (v : W32) : (st.putLane k v).lane = st.lane := rfl
@[simp] theorem Strand.putLane_win (st : Strand) (k : Nat) (v : W32) : (st.putLane k v).win = st.win := rfl
@[simp] theorem Strand.putLane_walker (st : Strand) (k : Nat) (v : W32) : (st.putLane k v).walker = st.walker := rfl
@[simp] theorem Strand.putLane_pendW (st : Strand) (k : Nat) (v : W32) : (st.putLane k v).pendW = st.pendW := rfl
@[simp] theorem Strand.putLane_lastLane (st : Strand) (k : Nat) (v : W32) : (st.putLane k v).lastLane = st.lastLane := rfl
@[simp] theorem Strand.putLane_longs (st : Strand) (k : Nat) (v : W32) : (st.putLane k v).longs = st.longs := rfl
@[simp] theorem Strand.putLane_replies (st : Strand) (k : Nat) (v : W32) : (st.putLane k v).replies = st.replies := rfl
@[simp] theorem Strand.putLane_parkS (st : Strand) (k : Nat) (v : W32) : (st.putLane k v).parkS = st.parkS := rfl
@[simp] theorem Strand.putLane_parkL (st : Strand) (k : Nat) (v : W32) : (st.putLane k v).parkL = st.parkL := rfl
@[simp] theorem Strand.putLane_entry (st : Strand) (k : Nat) (v : W32) : (st.putLane k v).entry = st.entry := rfl
@[simp] theorem Strand.putLane_entryPark (st : Strand) (k : Nat) (v : W32) : (st.putLane k v).entryPark = st.entryPark := rfl
@[simp] theorem Strand.putLane_entryRec (st : Strand) (k : Nat) (v : W32) : (st.putLane k v).entryRec = st.entryRec := rfl
@[simp] theorem Strand.putLane_ret (st : Strand) (k : Nat) (v : W32) : (st.putLane k v).ret = st.ret := rfl
@[simp] theorem Strand.putLane_held (st : Strand) (k : Nat) (v : W32) : (st.putLane k v).held = st.held := rfl
@[simp] theorem Strand.putLane_pendC (st : Strand) (k : Nat) (v : W32) : (st.putLane k v).pendC = st.pendC := rfl
@[simp] theorem Strand.putLane_halt (st : Strand) (k : Nat) (v : W32) : (st.putLane k v).halt = st.halt := rfl
@[simp] theorem Strand.putLane_npr (st : Strand) (k : Nat) (v : W32) : (st.putLane k v).npr = st.npr := rfl
@[simp] theorem Strand.putLane_arr (st : Strand) (k : Nat) (v : W32) : (st.putLane k v).arr = st.arr := rfl
@[simp] theorem Strand.putLane_barAt (st : Strand) (k : Nat) (v : W32) : (st.putLane k v).barAt = st.barAt := rfl
@[simp] theorem Strand.putLane_savedBar (st : Strand) (k : Nat) (v : W32) : (st.putLane k v).savedBar = st.savedBar := rfl
@[simp] theorem Strand.putLane_waitAt (st : Strand) (k : Nat) (v : W32) : (st.putLane k v).waitAt = st.waitAt := rfl
@[simp] theorem Strand.putLane_claim (st : Strand) (k : Nat) (v : W32) : (st.putLane k v).claim = st.claim := rfl
@[simp] theorem Strand.putLane_skick (st : Strand) (k : Nat) (v : W32) : (st.putLane k v).skick = st.skick := rfl
@[simp] theorem Strand.putLane_parkSince (st : Strand) (k : Nat) (v : W32) : (st.putLane k v).parkSince = st.parkSince := rfl
@[simp] theorem Strand.putLane_waitS (st : Strand) (k : Nat) (v : W32) : (st.putLane k v).waitS = st.waitS := rfl
@[simp] theorem Strand.putLane_stallS (st : Strand) (k : Nat) (v : W32) : (st.putLane k v).stallS = st.stallS := rfl
@[simp] theorem Strand.putLane_stallA (st : Strand) (k : Nat) (v : W32) : (st.putLane k v).stallA = st.stallA := rfl
@[simp] theorem Strand.putLane_stallB (st : Strand) (k : Nat) (v : W32) : (st.putLane k v).stallB = st.stallB := rfl
@[simp] theorem Strand.putLane_waitL (st : Strand) (k : Nat) (v : W32) : (st.putLane k v).waitL = st.waitL := rfl
@[simp] theorem Strand.putLane_lastS (st : Strand) (k : Nat) (v : W32) : (st.putLane k v).lastS = st.lastS := rfl
@[simp] theorem Strand.putLane_lastL (st : Strand) (k : Nat) (v : W32) : (st.putLane k v).lastL = st.lastL := rfl
@[simp] theorem Strand.putLane_ageS (st : Strand) (k : Nat) (v : W32) : (st.putLane k v).ageS = st.ageS := rfl
@[simp] theorem Strand.putLane_ageL (st : Strand) (k : Nat) (v : W32) : (st.putLane k v).ageL = st.ageL := rfl
@[simp] theorem Strand.putLane_relStore (st : Strand) (k : Nat) (v : W32) : (st.putLane k v).relStore = st.relStore := rfl
@[simp] theorem Strand.putLane_pkgFlags (st : Strand) (k : Nat) (v : W32) : (st.putLane k v).pkgFlags = st.pkgFlags := rfl
@[simp] theorem Strand.putLane_savedPkg (st : Strand) (k : Nat) (v : W32) : (st.putLane k v).savedPkg = st.savedPkg := rfl

end Sys2Proof.Machine
end

