-- ==== Sys2Proof/Laws/Ops.lean ====
section
/-! SUPPORT. What the shared operations of the scalar stream do, once for each. -/

namespace Sys2Proof.Machine

/-! ### Computations -/

@[simp] theorem M.pure_run {α : Type} (x : α) (s : State) : (pure x : M α) s = .ok (x, s) := rfl

@[simp] theorem M.bind_run {α β : Type} (m : M α) (f : α → M β) (s : State) :
    (m >>= f) s = match m s with
      | .ok (x, t) => f x t
      | .error e => .error e := by
  show (StateT.bind m f) s = _
  unfold StateT.bind
  show Except.bind (m s) _ = _
  cases m s <;> rfl

@[simp] theorem M.map_run {α β : Type} (f : α → β) (m : M α) (s : State) :
    (f <$> m) s = match m s with
      | .ok (x, t) => .ok (f x, t)
      | .error e => .error e := by
  rw [← bind_pure_comp, M.bind_run]
  rfl

/-- A computation that goes on, and what follows it. -/
theorem M.bind_ok {α β : Type} {m : M α} {f : α → M β} {s t : State} {x : α} (h : m s = .ok (x, t)) :
    (m >>= f) s = f x t := by simp [h]

theorem M.bind_error {α β : Type} {m : M α} {f : α → M β} {s : State} {e : Stop} (h : m s = .error e) :
    (m >>= f) s = .error e := by simp [h]

@[simp] theorem M.get_run (s : State) : (get : M State) s = .ok (s, s) := rfl
@[simp] theorem M.set_run (s t : State) : (set t : M Unit) s = .ok ((), t) := rfl
@[simp] theorem M.modify_run (f : State → State) (s : State) : (modify f : M Unit) s = .ok ((), f s) := rfl
@[simp] theorem M.throw_run {α : Type} (e : Stop) (s : State) : (throw e : M α) s = .error e := rfl
@[simp] theorem M.ite_run {α : Type} (c : Prop) [Decidable c] (a b : M α) (s : State) :
    (if c then a else b) s = if c then a s else b s := by
  split <;> rfl
@[simp] theorem me_run (s : State) : Machine.me s = .ok (s.me, s) := rfl
@[simp] theorem modMe_run (f : Strand → Strand) (s : State) : modMe f s = .ok ((), s.setStrand s.cur (f s.me)) := rfl
@[simp] theorem waitM_run {α : Type} (s : State) : (waitM : M α) s = .error (.wait none) := rfl
@[simp] theorem waitQ_run {α : Type} (p n : Nat) (s : State) : (waitQ p n : M α) s = .error (.wait (some { port := p, need := n })) := rfl
@[simp] theorem trapM_run {α : Type} (c : Byte) (a : W64) (s : State) :
    (trapM c a : M α) s = .error (.trap { code := c, faddr := a } []) := rfl
@[simp] theorem illegal_run {α : Type} (s : State) : (illegal : M α) s = .error (.trap { code := 0x01 } []) := rfl
@[simp] theorem badOperand_run {α : Type} (s : State) : (badOperand : M α) s = .error (.trap { code := 0x05 } []) := rfl
@[simp] theorem waitUnless_run (b : Bool) (s : State) :
    waitUnless b s = if b then .ok ((), s) else .error (.wait none) := by
  cases b <;> rfl
@[simp] theorem myTeam_run (s : State) : myTeam s = .ok (s.teamOf s.cur, s) := rfl
@[simp] theorem myCtx_run (s : State) : myCtx s = .ok (s.ctxOf s.cur, s) := rfl
@[simp] theorem myCore_run (s : State) : myCore s = .ok (coreOf s.cur, s) := rfl
@[simp] theorem myDie_run (s : State) : myDie s = .ok (dieOf (coreOf s.cur), s) := rfl
@[simp] theorem releaseM_run (sc : Nat) (s : State) :
    releaseM sc s = (let t := s.releaseAt (dieOf (coreOf s.cur)) (s.ctxOf s.cur) sc
      if t.released t.cur sc then .ok ((), t) else .error (.wait none)) := by
  simp [releaseM]
@[simp] theorem acquireM_run (sc : Nat) (s : State) :
    acquireM sc s = .ok ((), s.acquireAt (dieOf (coreOf s.cur)) (s.ctxOf s.cur) sc) := rfl
@[simp] theorem advance_run (s : State) : advance s = .ok ({ pc := s.me.pc + 4 }, s) := rfl

/-! ### Operands -/

@[simp] theorem State.me_setStrand (s : State) (st : Strand) : (s.setStrand s.cur st).me = st := by simp [State.me]

theorem Strand.queue_setQueue (st : Strand) (i j : Nat) (l : List W64) : (st.setQueue i l).queue j = if j = i then l else st.queue j := by
  simp [Strand.queue, Strand.setQueue]

theorem State.me_setStrand_of {s : State} {k : Nat} {st : Strand} (h : k = s.cur) : (s.setStrand k st).me = st := by subst h; simp

@[simp] theorem State.awaitReply_cur (s : State) (r : Reply) : (s.awaitReply r).cur = s.cur := rfl
@[simp] theorem State.awaitReply_stepNo (s : State) (r : Reply) : (s.awaitReply r).stepNo = s.stepNo := rfl
@[simp] theorem State.awaitReply_me (s : State) (r : Reply) : (s.awaitReply r).me = { s.me with replies := s.me.replies ++ [r] } := by
  simp [State.awaitReply]
@[simp] theorem State.holds_cur (s : State) (l : List Held) : (s.holds l).cur = s.cur := rfl
@[simp] theorem State.holds_stepNo (s : State) (l : List Held) : (s.holds l).stepNo = s.stepNo := rfl
@[simp] theorem State.holds_curWord (s : State) (l : List Held) : (s.holds l).curWord = s.curWord := rfl
@[simp] theorem State.holds_me (s : State) (l : List Held) : (s.holds l).me = { s.me with held := s.me.held ++ l } := by
  simp [State.holds]
@[simp] theorem State.laneSeen_cur (s : State) : s.laneSeen.cur = s.cur := rfl
@[simp] theorem State.laneSeen_stepNo (s : State) : s.laneSeen.stepNo = s.stepNo := rfl
@[simp] theorem State.laneSeen_me (s : State) : s.laneSeen.me = s.landedNow s.me := by simp [State.laneSeen]

/-- A computation that adds a reply. -/
@[simp] theorem addReply_run (r : Reply) (s : State) : addReply r s = .ok ((), s.awaitReply r) := rfl

/-- A source that can be read is read. -/
theorem readSrc_of_source {s s' : State} {r : BitVec 6} {x : W64} (h : s.source r = some (x, s')) :
    readSrc r s = .ok (x, s') := by
  unfold State.source at h
  unfold readSrc
  simp only [M.bind_run, me_run] at *
  split at h
  · simp at h
  · next hq =>
    simp only [Bool.or_eq_true, not_or] at hq
    split at h
    · next hp =>
      rw [if_pos hp]
      split at h
      · simp at h
      · next y ys hq => simp only [Option.some.injEq, Prod.mk.injEq] at h; simp [hq, h]
    · next hp =>
      simp only [Option.some.injEq, Prod.mk.injEq] at h
      rw [if_neg hp, if_neg hq.1, if_neg hq.2]
      obtain ⟨rfl, rfl⟩ := h
      rfl

/-- Reading a source changes the acting strand's queue ports and nothing else. -/
theorem source_frame {s s' : State} {r : BitVec 6} {x : W64} (h : s.source r = some (x, s')) :
    s' = s ∨ ∃ i l, s' = s.setStrand s.cur (s.me.setQueue i l) := by
  unfold State.source at h
  simp only at h
  split at h
  · simp at h
  · split at h
    · split at h
      · simp at h
      · simp only [Option.some.injEq, Prod.mk.injEq] at h; exact .inr ⟨_, _, h.2.symm⟩
    · simp only [Option.some.injEq, Prod.mk.injEq] at h; exact .inl h.2.symm

theorem source_cur {s s' : State} {r : BitVec 6} {x : W64} (h : s.source r = some (x, s')) : s'.cur = s.cur := by
  rcases source_frame h with rfl | ⟨i, l, rfl⟩ <;> simp

theorem source_stepNo {s s' : State} {r : BitVec 6} {x : W64} (h : s.source r = some (x, s')) : s'.stepNo = s.stepNo := by
  rcases source_frame h with rfl | ⟨i, l, rfl⟩ <;> simp

theorem source_pc {s s' : State} {r : BitVec 6} {x : W64} (h : s.source r = some (x, s')) : s'.me.pc = s.me.pc := by
  rcases source_frame h with rfl | ⟨i, l, rfl⟩ <;> simp

/-- A source that can be read is no push port and awaits no result. -/
theorem source_ready {s s' : State} {r : BitVec 6} {x : W64} (h : s.source r = some (x, s')) :
    isPush r.toNat = false ∧ s.me.regBusy r.toNat = false := by
  unfold State.source at h
  simp only at h
  split at h
  · simp at h
  · next hq => simpa only [Bool.or_eq_true, not_or, Bool.not_eq_true] using hq

/-- What a source that can be read leaves in the queue ports: one entry fewer in the port that it names. -/
theorem source_queue {s s' : State} {r : BitVec 6} {x : W64} (h : s.source r = some (x, s')) (i : Nat) (hi : 4 ≤ i ∧ i < 8) :
    (s.me.queue i).length = (s'.me.queue i).length + popsOf [r] i := by
  unfold State.source at h
  simp only at h
  split at h
  · simp at h
  · split at h
    · next hp =>
      split at h
      · simp at h
      · next y ys hq =>
        simp only [Option.some.injEq, Prod.mk.injEq] at h
        obtain ⟨rfl, rfl⟩ := h
        rw [State.me_setStrand, Strand.queue_setQueue]
        simp only [isPop, Bool.and_eq_true, decide_eq_true_eq] at hp
        by_cases e : i = r.toNat - 48
        · subst e
          have : r.toNat = 48 + (r.toNat - 48) := by omega
          simp [hq, popsOf, ← this]
        · have : r.toNat ≠ 48 + i := by omega
          simp [e, popsOf, this]
    · next hp =>
      simp only [Option.some.injEq, Prod.mk.injEq] at h
      obtain ⟨rfl, rfl⟩ := h
      have : r.toNat ≠ 48 + i := by
        simp only [isPop, Bool.and_eq_true, decide_eq_true_eq] at hp; omega
      simp [popsOf, this]

theorem source2_of {s s' : State} {a b : BitVec 6} {x y : W64} (h : s.source2 a b = some (x, y, s')) :
    ∃ s1, s.source a = some (x, s1) ∧ s1.source b = some (y, s') := by
  unfold State.source2 at h
  split at h
  · simp at h
  · next x1 s1 h1 =>
    split at h
    · simp at h
    · next y1 s2 h2 =>
      simp only [Option.some.injEq, Prod.mk.injEq] at h
      obtain ⟨rfl, rfl, rfl⟩ := h
      exact ⟨s1, h1, h2⟩

theorem source2_cur {s s' : State} {a b : BitVec 6} {x y : W64} (h : s.source2 a b = some (x, y, s')) : s'.cur = s.cur := by
  obtain ⟨s1, h1, h2⟩ := source2_of h
  rw [source_cur h2, source_cur h1]

theorem source2_stepNo {s s' : State} {a b : BitVec 6} {x y : W64} (h : s.source2 a b = some (x, y, s')) :
    s'.stepNo = s.stepNo := by
  obtain ⟨s1, h1, h2⟩ := source2_of h
  rw [source_stepNo h2, source_stepNo h1]

/-- A destination that can take a value is no pop port. -/
theorem takes_not_pop {s : State} {r : BitVec 6} (h : s.takes r = true) : isPop r.toNat = false := by
  simp only [State.takes, Bool.and_eq_true, Bool.not_eq_true'] at h
  exact h.1.1

theorem dstReady_of_takes {s : State} {r : BitVec 6} (h : s.takes r = true) : dstReady r s = .ok ((), s) := by
  have hp := takes_not_pop h
  simp only [State.takes, Bool.and_eq_true, Bool.not_eq_true', Bool.or_eq_true, decide_eq_true_eq] at h
  unfold dstReady
  simp only [M.bind_run, me_run, hp, h.1.2, Bool.false_eq_true, ↓reduceIte]
  by_cases hd : isPush r.toNat = true
  · have h3 : (s.me.queue (r.toNat - 48)).length < 8 := by simpa [hd] using h.2
    rw [if_pos hd, if_pos h3]; rfl
  · rw [if_neg hd]; rfl

/-- A destination that can take a value takes it. -/
theorem writeDst_of_takes {s : State} {r : BitVec 6} {v : W64} (h : s.takes r = true) :
    writeDst r v s = .ok ((), s.dest r v) := by
  unfold writeDst
  simp only [M.bind_run, dstReady_of_takes h, modMe_run]
  rfl

/-- What the ports and registers of an instruction mean for its issue: a trap, one of three waits, or nothing. -/
theorem portsOk_run (srcs dsts : List (BitVec 6)) (s : State) :
    portsOk srcs dsts s =
      if portsWrong srcs dsts then .error (.trap { code := 0x04 } [])
      else if s.portsBusy srcs dsts then .error (.wait none)
      else match s.portStall srcs dsts with
        | some q => .error (.wait (some q))
        | none => .ok ((), s) := by
  unfold portsOk portsWrong State.portsBusy State.portStall
  simp only [M.bind_run, M.ite_run, trapM_run, me_run, waitM_run]
  split
  · rfl
  · split
    · rfl
    · cases (List.range 4).find? fun i => decide ((s.me.queue (4 + i)).length < popsOf srcs (4 + i)) with
      | some i => simp
      | none => cases dsts.find? fun r => isPush r.toNat && decide (8 ≤ (s.me.queue (r.toNat - 48)).length) <;> simp

/-- Reading a source leaves the interlocks of the acting strand. -/
theorem source_regBusy {s s' : State} {r : BitVec 6} {x : W64} (h : s.source r = some (x, s')) (n : Nat) : s'.me.regBusy n = s.me.regBusy n := by
  rcases source_frame h with rfl | ⟨i, l, rfl⟩
  · rfl
  · rw [State.me_setStrand]; rfl

theorem portsBusy_of {s : State} {srcs dsts : List (BitVec 6)} (hs : ∀ r ∈ srcs, s.me.regBusy r.toNat = false)
    (hd : ∀ r ∈ dsts, s.takes r = true) : s.portsBusy srcs dsts = false := by
  simp only [State.portsBusy, List.any_eq_false, List.mem_append, Bool.not_eq_true]
  rintro r (hr | hr)
  · exact hs r hr
  · have := hd r hr
    simp only [State.takes, Bool.and_eq_true, Bool.not_eq_true'] at this
    exact this.1.2

theorem portsWrong_of {s : State} {srcs dsts : List (BitVec 6)} (hs : ∀ r ∈ srcs, isPush r.toNat = false)
    (hd : ∀ r ∈ dsts, s.takes r = true) : portsWrong srcs dsts = false := by
  simp only [portsWrong, Bool.or_eq_false_iff, List.any_eq_false, Bool.not_eq_true]
  exact ⟨hs, fun r hr => takes_not_pop (hd r hr)⟩

theorem portStall_of {s : State} {srcs dsts : List (BitVec 6)} (hs : ∀ i, 4 ≤ i ∧ i < 8 → popsOf srcs i ≤ (s.me.queue i).length)
    (hd : ∀ r ∈ dsts, s.takes r = true) : s.portStall srcs dsts = none := by
  have h1 : ((List.range 4).find? fun i => decide ((s.me.queue (4 + i)).length < popsOf srcs (4 + i))) = none := by
    simp only [List.find?_eq_none, List.mem_range, decide_eq_true_eq, Nat.not_lt]
    exact fun i hi => hs (4 + i) (by omega)
  have h2 : (dsts.find? fun r => isPush r.toNat && decide (8 ≤ (s.me.queue (r.toNat - 48)).length)) = none := by
    simp only [List.find?_eq_none, Bool.and_eq_true, decide_eq_true_eq, not_and, Nat.not_le]
    intro r hr hp
    have := hd r hr
    simp only [State.takes, Bool.and_eq_true, Bool.or_eq_true, Bool.not_eq_true', decide_eq_true_eq] at this
    simpa [hp] using this.2
  simp only [State.portStall, h1, h2, Option.map_none]

/-- An instruction whose sources have their values and whose destinations can take theirs goes on. -/
theorem portsOk_ready {s : State} {srcs dsts : List (BitVec 6)} (hw : ∀ r ∈ srcs, isPush r.toNat = false ∧ s.me.regBusy r.toNat = false)
    (hq : ∀ i, 4 ≤ i ∧ i < 8 → popsOf srcs i ≤ (s.me.queue i).length) (hd : ∀ r ∈ dsts, s.takes r = true) :
    portsOk srcs dsts s = .ok ((), s) := by
  rw [portsOk_run, portsWrong_of (fun r hr => (hw r hr).1) hd, portsBusy_of (fun r hr => (hw r hr).2) hd, portStall_of hq hd]
  simp

theorem portsOk_source0 {s : State} {dsts : List (BitVec 6)} (hd : ∀ r ∈ dsts, s.takes r = true) : portsOk [] dsts s = .ok ((), s) :=
  portsOk_ready (by simp) (by simp [popsOf]) hd

theorem portsOk_source {s t : State} {a : BitVec 6} {x : W64} {dsts : List (BitVec 6)} (h : s.source a = some (x, t))
    (hd : ∀ r ∈ dsts, s.takes r = true) : portsOk [a] dsts s = .ok ((), s) :=
  portsOk_ready (by simpa using source_ready h) (fun i hi => by rw [source_queue h i hi]; omega) hd

theorem popsOf_cons (a : BitVec 6) (l : List (BitVec 6)) (i : Nat) : popsOf (a :: l) i = popsOf [a] i + popsOf l i := by
  simp only [popsOf, List.filter_cons, List.filter_nil]
  split <;> simp <;> omega

theorem portsOk_source2 {s t : State} {a b : BitVec 6} {x y : W64} {dsts : List (BitVec 6)} (h : s.source2 a b = some (x, y, t))
    (hd : ∀ r ∈ dsts, s.takes r = true) : portsOk [a, b] dsts s = .ok ((), s) := by
  obtain ⟨u, h1, h2⟩ := source2_of h
  refine portsOk_ready ?_ (fun i hi => ?_) hd
  · have hb := source_ready h2
    rw [source_regBusy h1] at hb
    simpa using ⟨source_ready h1, hb⟩
  · rw [popsOf_cons, source_queue h1 i hi, source_queue h2 i hi]; omega

/-- Reading a source leaves the ports that scalar code pushes. -/
theorem source_pushes {s s' : State} {r : BitVec 6} {x : W64} (h : s.source r = some (x, s')) (i : Nat) (hi : i < 4) :
    s'.me.queue i = s.me.queue i := by
  unfold State.source at h
  simp only at h
  split at h
  · simp at h
  · split at h
    · next hp =>
      split at h
      · simp at h
      · simp only [Option.some.injEq, Prod.mk.injEq] at h
        obtain ⟨-, rfl⟩ := h
        simp only [isPop, Bool.and_eq_true, decide_eq_true_eq] at hp
        rw [State.me_setStrand, Strand.queue_setQueue, if_neg (by omega)]
    · simp only [Option.some.injEq, Prod.mk.injEq] at h; rw [← h.2]

/-- A destination takes a value after a source has been read as it did before. -/
theorem takes_source {s t : State} {a : BitVec 6} {x : W64} (h : s.source a = some (x, t)) (d : BitVec 6) : t.takes d = s.takes d := by
  simp only [State.takes, source_regBusy h]
  by_cases hp : isPush d.toNat = true
  · have : d.toNat - 48 < 4 := by simp only [isPush, Bool.and_eq_true, decide_eq_true_eq] at hp; omega
    rw [source_pushes h _ this]
  · simp [hp]

theorem takes_source2 {s t : State} {a b : BitVec 6} {x y : W64} (h : s.source2 a b = some (x, y, t)) (d : BitVec 6) : t.takes d = s.takes d := by
  obtain ⟨u, h1, h2⟩ := source2_of h
  rw [takes_source h2, takes_source h1]

@[simp] theorem State.dest_cur (s : State) (r : BitVec 6) (v : W64) : (s.dest r v).cur = s.cur := rfl
@[simp] theorem State.dest_stepNo (s : State) (r : BitVec 6) (v : W64) : (s.dest r v).stepNo = s.stepNo := rfl
@[simp] theorem State.dest_pc (s : State) (r : BitVec 6) (v : W64) : (s.dest r v).me.pc = s.me.pc := by
  unfold State.dest
  simp only [State.me_setStrand]
  split <;> simp

theorem source_curWord {s s' : State} {r : BitVec 6} {x : W64} (h : s.source r = some (x, s')) : s'.curWord = s.curWord := by
  rcases source_frame h with rfl | ⟨i, l, rfl⟩ <;> simp
@[simp] theorem State.dest_curWord (s : State) (r : BitVec 6) (v : W64) : (s.dest r v).curWord = s.curWord := rfl

@[simp] theorem State.sticky_cur (s : State) (c : Conds) : (s.sticky c).cur = s.cur := by simp [State.sticky]
@[simp] theorem State.sticky_stepNo (s : State) (c : Conds) : (s.sticky c).stepNo = s.stepNo := by simp [State.sticky]
@[simp] theorem State.sticky_pc (s : State) (c : Conds) : (s.sticky c).me.pc = s.me.pc := by simp [State.sticky]
@[simp] theorem State.sticky_curWord (s : State) (c : Conds) : (s.sticky c).curWord = s.curWord := by simp [State.sticky]
@[simp] theorem State.sticky_enabled (s : State) (c : Conds) : (s.sticky c).me.enabled = s.me.enabled := by
  simp [State.sticky, Strand.enabled]

/-- Reading a source leaves everything of the acting strand but its queue ports. -/
theorem source_me {s s' : State} {r : BitVec 6} {x : W64} (h : s.source r = some (x, s')) : ∃ q, s'.me = { s.me with q := q } := by
  rcases source_frame h with rfl | ⟨i, l, rfl⟩
  · exact ⟨_, rfl⟩
  · rw [State.me_setStrand]; exact ⟨_, rfl⟩

theorem source2_me {s s' : State} {a b : BitVec 6} {x y : W64} (h : s.source2 a b = some (x, y, s')) : ∃ q, s'.me = { s.me with q := q } := by
  obtain ⟨s1, h1, h2⟩ := source2_of h
  obtain ⟨q1, e1⟩ := source_me h1
  obtain ⟨q2, e2⟩ := source_me h2
  exact ⟨q2, by rw [e2, e1]⟩

/-- Reading a source leaves the package's own registers but those of the acting strand. -/
theorem source_teams {s s' : State} {r : BitVec 6} {x : W64} (h : s.source r = some (x, s')) : s'.teams = s.teams := by
  rcases source_frame h with rfl | ⟨i, l, rfl⟩ <;> simp

/-- Two sources that can be read are read. -/
theorem readSrc2_of_source2 {s s' : State} {a b : BitVec 6} {x y : W64} (h : s.source2 a b = some (x, y, s')) :
    readSrc2 a b s = .ok ((x, y), s') := by
  obtain ⟨s1, h1, h2⟩ := source2_of h
  unfold readSrc2
  simp only [M.bind_run, readSrc_of_source h1, readSrc_of_source h2, M.pure_run]

/-! ### How a scalar instruction ends -/

/-- A scalar instruction that completes. -/
theorem scalar_next {s t : State} {body : M SOut} {o : SOut} (r : s.isRes s.cur = true) (h : body s = .ok (o, t))
    (hc : t.cur = s.cur) (hn : t.stepNo = s.stepNo) (ha : o.acm = 0) (ho : o.trap = none := by rfl) :
    scalar body s = .next (t.endScalar o.pc) := by
  unfold scalar
  simp [r, h, ha, ho, State.endScalar, hc, hn]

/-- A scalar instruction that completes, whatever it met. -/
theorem scalar_done {s t : State} {body : M SOut} {o : SOut} (r : s.isRes s.cur = true) (h : body s = .ok (o, t))
    (hc : t.cur = s.cur) (hn : t.stepNo = s.stepNo) (ho : o.trap = none := by rfl) :
    scalar body s = .next (if o.acm = 0 then t.endScalar o.pc else (t.endScalar o.pc).takeTrap s.cur
      { code := 0x10, acm := o.acm, sfault := true, epc := some s.me.pc, sword := s.curWord.setWidth 32, after := true }) := by
  have e : t.endScalar o.pc = t.modStrand s.cur fun st =>
      { st with pc := o.pc, lastS := some s.stepNo, waitS := false, stallS := none, parkS := none } := by
    rw [State.endScalar, hc, hn]
  unfold scalar
  rw [if_neg (by simp [r]), e]
  simp only [h, ho]
  by_cases ha : o.acm = 0
  · rw [if_pos ha, if_pos ha]
  · rw [if_neg ha, if_neg ha]; rfl

/-- A scalar instruction whose accesses have shown the cause of a trap takes it over the package as they left it (R40, R225, R228). -/
theorem scalar_late {s u : State} {body : M SOut} {o : SOut} {t : Trap} (r : s.isRes s.cur = true) (h : body s = .ok (o, u))
    (ho : o.trap = some t) : scalar body s
      = .next (u.takeTrap s.cur { t with sfault := true, epc := some s.me.pc, sword := s.curWord.setWidth 32 }) := by
  unfold scalar
  simp [r, h, ho, State.me]

@[simp] theorem raiseScalar_run (c : Conds) (s : State) : raiseScalar c s = .ok (c &&& s.me.enabled, s.sticky c) := by
  simp only [raiseScalar, M.bind_run, me_run, modMe_run, M.pure_run, Strand.enabled, State.sticky, BitVec.or_assoc]

/-- A scalar instruction that waits. -/
theorem scalar_wait {s : State} {body : M SOut} {q : Option Stall} (r : s.isRes s.cur = true)
    (h : body s = .error (.wait q)) : scalar body s = .next (s.waitScalar q) := by
  unfold scalar
  simp [r, h, State.waitScalar]

/-- A scalar instruction that traps without a denied access. -/
theorem scalar_trap {s : State} {body : M SOut} {t : Trap} (r : s.isRes s.cur = true)
    (h : body s = .error (.trap t [])) : scalar body s = .next (s.trapScalar t) := by
  unfold scalar
  simp [r, h, State.trapScalar, State.me, State.logDenied]

/-- A scalar instruction whose access parks. -/
theorem scalar_park {s : State} {body : M SOut} {p : Park} (r : s.isRes s.cur = true)
    (h : body s = .error (.park p)) : scalar body s = .next (s.parkScalar s.cur p) := by
  unfold scalar
  simp [r, h]

/-- A scalar instruction that stops, for whatever reason. -/
theorem scalar_stop {s : State} {body : M SOut} {e : Stop} (r : s.isRes s.cur = true)
    (h : body s = .error e) : scalar body s = .next (s.scalarStop e) := by
  unfold scalar
  cases e <;> simp [r, h, State.scalarStop, State.waitScalar, State.me]

/-- A scalar instruction of a strand that is not resident has no agent that issues it. -/
theorem scalar_noStrand {s : State} {body : M SOut} (r : s.isRes s.cur = false) : scalar body s = .refused .noStrand := by
  unfold scalar
  simp [r]

end Sys2Proof.Machine
end

