-- ==== Sys2Proof/Laws/Access.lean ====
section
/-! SUPPORT. What the accesses of the scalar stream can do: only the memory system changes. -/

namespace Sys2Proof.Machine

theorem xlateMine_step {s t : State} {va : Nat} {need : Need} {kind agent seg : Nat} {fa : W64} {p : Place}
    (e : xlateMine va need kind agent seg fa s = .ok (p, t)) : MemStep s t := by
  unfold xlateMine at e
  simp only [M.bind_run, M.get_run, myCtx_run, M.ite_run, trapM_run] at e
  split at e
  · simp at e
  cases hr : s.xlate (segUnit seg (dieOf (coreOf s.cur))) (s.ctxOf s.cur) va need (if seg = 3 then .host else .mem) with
  | error x => simp [hr, M.throw_run] at e
  | ok r =>
    simp only [hr, M.ite_run, M.throw_run, M.bind_run, M.set_run, M.pure_run] at e
    split at e
    · simp at e
    · simp only [Except.ok.injEq, Prod.mk.injEq] at e
      exact e.2 ▸ xlate_step hr

theorem scalarPlace_step {s t : State} {seg o n kind : Nat} {p : Place} (e : scalarPlace seg o n kind s = .ok (p, t)) :
    MemStep s t := by
  unfold scalarPlace at e
  simp only [M.bind_run, M.get_run, me_run, M.ite_run, trapM_run, myTeam_run, myCore_run, M.pure_run] at e
  generalize he : s.me.segs.get seg = d at e
  repeat' split at e
  all_goals first
    | (simp only [Except.ok.injEq, Prod.mk.injEq] at e; exact e.2 ▸ .refl _)
    | exact xlateMine_step e
    | simp at e

theorem notePriv_step (s : State) (die pa pol who : Nat) : MemStep s (s.notePriv die pa pol who) := by
  unfold State.notePriv
  split
  · exact markPriv_step ..
  · exact .refl _

theorem readAt_step {s t : State} {sid n v : Nat} {p : Place} {c : Conds} {b : Bool} (e : s.readAt sid p n = some (t, v, c, b)) :
    MemStep s t := by
  unfold State.readAt at e
  split at e
  · simp only [Option.some.injEq, Prod.mk.injEq] at e; exact e.1 ▸ .refl _
  · simp only [Option.some.injEq, Prod.mk.injEq] at e; exact e.1 ▸ .refl _
  · simp only [Option.map_eq_some_iff, Prod.mk.injEq] at e
    obtain ⟨⟨u, v', b'⟩, h, rfl, -⟩ := e
    exact (memRead_step h).trans (notePriv_step ..)

theorem writeAt_step {s t : State} {sid n v : Nat} {p : Place} {b : Bool} (e : s.writeAt sid p n v b = some t) : MemStep s t := by
  unfold State.writeAt at e
  split at e
  · simp only [Option.some.injEq] at e; exact e ▸ osWrite_step ..
  · simp only [Option.some.injEq] at e; exact e ▸ .refl _
  · simp only [Option.map_eq_some_iff] at e
    obtain ⟨u, h, rfl⟩ := e
    exact (memWrite_step h).trans (notePriv_step ..)

theorem readPlace_step {s t : State} {p : Place} {n v : Nat} {c : Conds} {b : Bool} (e : readPlace p n s = .ok ((v, c, b), t)) :
    MemStep s t := by
  unfold readPlace at e
  simp only [M.bind_run, M.get_run] at e
  cases h : s.readAt s.cur p n with
  | none => simp [h] at e
  | some r =>
    obtain ⟨t', v', c', b'⟩ := r
    simp only [h, M.bind_run, M.set_run, M.pure_run, Except.ok.injEq, Prod.mk.injEq] at e
    exact e.2 ▸ readAt_step h

theorem writePlace_step {s t : State} {p : Place} {n v : Nat} {b : Bool} (e : writePlace p n v b s = .ok ((), t)) :
    MemStep s t := by
  unfold writePlace at e
  simp only [M.bind_run, M.get_run] at e
  cases h : s.writeAt s.cur p n v b with
  | none => simp [h] at e
  | some t' =>
    simp only [h, M.set_run, Except.ok.injEq, Prod.mk.injEq, true_and] at e
    exact e ▸ writeAt_step h

end Sys2Proof.Machine
end

