-- ==== Sys2Proof/Laws/Lane.lean ====
section
/-! SUPPORT. What the shared meanings of the lane instructions do. -/

namespace Sys2Proof.Machine

/-- A lane instruction or control transfer whose effect leaves u completes (R54, R57). -/
theorem laneRun_next {s u : State} {w : LaneW} {body : LaneIn → M Unit} {done : LaneIn → LaneCtx → LaneCtx} (h : s.laneMay w)
    (e : body (s.laneIn w) (s.laneStart w) = .ok ((), u)) : laneRun w body done s = .next (s.laneDone w (done (s.laneIn w)) u) := by
  unfold laneRun
  simp only [h.1, h.2, Bool.not_true, Bool.false_eq_true, if_false]
  change (match body (s.laneIn w) (s.laneStart w) with | .ok (_, s') => _ | .error (.trap t l) => _ | .error (.park p) => _ | .error (.wait q) => _) = _
  rw [e]
  rfl

/-- A lane instruction whose effect leaves u completes, and its side goes on at the next unit. -/
theorem lane_next {s u : State} {w : LaneW} {body : LaneIn → M Unit} (h : s.laneMay w)
    (e : body (s.laneIn w) (s.laneStart w) = .ok ((), u)) : lane w body s = .next (s.laneNext w u) :=
  laneRun_next h e

/-- A lane instruction that stops with a trap gives it to the strand, and changes nothing else but what had landed (R130). -/
theorem laneRun_trap {s : State} {w : LaneW} {body : LaneIn → M Unit} {done : LaneIn → LaneCtx → LaneCtx} {t : Trap} {l : List (Nat × Nat)} (h : s.laneMay w)
    (e : body (s.laneIn w) (s.laneStart w) = .error (.trap t l)) :
    laneRun w body done s = .next (((s.modStrand s.cur fun st => st.landTo (s.laneIn w).t).logDenied (s.ctxOf s.cur) l).takeTrap s.cur
      { t with lfault := true, sideB := (s.laneIn w).sideB, unitNo := some (s.laneIn w).unitNo, lword := s.curWord, fA := (s.laneIn w).fA, fB := (s.laneIn w).fB }) := by
  unfold laneRun
  simp only [h.1, h.2, Bool.not_true, Bool.false_eq_true, if_false]
  change (match body (s.laneIn w) (s.laneStart w) with | .ok (_, s') => _ | .error (.trap t l) => _ | .error (.park p) => _ | .error (.wait q) => _) = _
  rw [e]

/-- A lane instruction that waits leaves the strand as it was, marked as waiting (R60). -/
theorem laneRun_wait {s : State} {w : LaneW} {body : LaneIn → M Unit} {done : LaneIn → LaneCtx → LaneCtx} {q : Option Stall} (h : s.laneMay w)
    (e : body (s.laneIn w) (s.laneStart w) = .error (.wait q)) :
    laneRun w body done s = .next (s.modStrand s.cur fun st => { st.stallSide (s.laneIn w).sideB q with waitL := true }) := by
  unfold laneRun
  simp only [h.1, h.2, Bool.not_true, Bool.false_eq_true, if_false]
  change (match body (s.laneIn w) (s.laneStart w) with | .ok (_, s') => _ | .error (.trap t l) => _ | .error (.park p) => _ | .error (.wait q) => _) = _
  rw [e]

/-- A lane instruction that stops, for whatever reason. -/
theorem laneRun_stop {s : State} {w : LaneW} {body : LaneIn → M Unit} {done : LaneIn → LaneCtx → LaneCtx} {e : Stop} (h : s.laneMay w)
    (k : body (s.laneIn w) (s.laneStart w) = .error e) : laneRun w body done s = .next (s.laneStop w e) := by
  unfold laneRun
  simp only [h.1, h.2, Bool.not_true, Bool.false_eq_true, if_false]
  change (match body (s.laneIn w) (s.laneStart w) with | .ok (_, s') => _ | .error (.trap t l) => _ | .error (.park p) => _ | .error (.wait q) => _) = _
  rw [k]
  cases e <;> rfl

/-- Without a resident strand there is nobody to act (log entry 54). -/
theorem laneRun_noStrand {s : State} {w : LaneW} {body : LaneIn → M Unit} {done : LaneIn → LaneCtx → LaneCtx} (r : s.isRes s.cur = false) :
    laneRun w body done s = .refused .noStrand := by
  unfold laneRun
  simp [r]

/-- A short result is under way (R139). -/
@[simp] theorem shortResult_run (x : LaneIn) (lat : Nat) (ws : List LaneWrite) (cs : List LaneCond) (s : State) :
    shortResult x lat ws cs s = .ok ((), s.setStrand s.cur ((s.strand s.cur).pend x s.curWord s.stepNo lat ws cs)) := rfl

/-- A lane's entry in a table of results. -/
theorem mget?_table {β : Type} (l : List Nat) (f : Nat → β) (L : Nat) (h : L ∈ l) : mget? (l.map fun i => (i, f i)) L = some (f L) := by
  induction l with
  | nil => cases h
  | cons i l ih =>
    simp only [List.map_cons, mget?]
    by_cases e : L = i
    · subst e; simp
    · rw [if_neg e]
      exact ih ((List.mem_cons.1 h).resolve_left e)

/-- The writes of a register depend on the values of the Active lanes alone. -/
theorem destWrites_congr (vd : BitVec 10) (m : W64) {f g : Nat → W32} (h : ∀ L ∈ lanesOf m, f L = g L) : destWrites vd m f = destWrites vd m g := by
  unfold destWrites
  simp only
  split
  · exact List.map_congr_left fun L hL => by rw [h L hL]
  · split
    · exact List.map_congr_left fun L hL => by rw [h L hL]
    · split
      · cases e : lanesOf m with
        | nil => rfl
        | cons L l => simp [h L (by simp [e])]
      · rfl

/-- The writes of a predicate depend on the values of the Active lanes alone. -/
theorem predWrites_congr (k : Nat) (m : W64) {f g : Nat → Bool} (h : ∀ L ∈ lanesOf m, f L = g L) : predWrites k m f = predWrites k m g := by
  unfold predWrites
  split
  · rfl
  · exact List.map_congr_left fun L hL => by rw [h L hL]

/-- A per-lane result is under way: the value and the conditions of each Active lane (R139). -/
theorem perLane_run {x : LaneIn} {lat : Nat} {vd : BitVec 10} {f : Nat → W32 × Conds} {s : State} (h : roomFor vd x.active s = .ok ((), s)) :
    perLane x lat vd f s = .ok ((), s.setStrand s.cur ((s.strand s.cur).pend x s.curWord s.stepNo lat (destWrites vd x.active fun L => (f L).1)
      ((lanesOf x.active).map fun L => { lane := L, bits := (f L).2 }))) := by
  unfold perLane
  rw [M.bind_ok h, shortResult_run, List.map_map]
  rw [destWrites_congr vd x.active (g := fun L => (f L).1) fun L hL => by simp [mget?_table _ f L hL]]
  rfl

/-- A per-lane predicate is under way. -/
theorem perLaneK_run {x : LaneIn} {lat k : Nat} {f : Nat → Bool × Conds} {s : State} :
    perLaneK x lat k f s = .ok ((), s.setStrand s.cur ((s.strand s.cur).pend x s.curWord s.stepNo lat (predWrites k x.active fun L => (f L).1)
      ((lanesOf x.active).map fun L => { lane := L, bits := (f L).2 }))) := by
  unfold perLaneK
  rw [shortResult_run, List.map_map]
  rw [predWrites_congr k x.active (g := fun L => (f L).1) fun L hL => by simp [mget?_table _ f L hL]]
  rfl

end Sys2Proof.Machine
end

