-- ==== Sys2Proof/Laws/PerInstr.lean ====
section
/-! SUPPORT. Per instruction: the kinds of words. -/

open Sys2Proof

/-- An instruction has words of one stream at most, the scalar stream (R48), the lane stream (R53) or a stream program (R61); a lane instruction and a stream command have their words. -/
def Sys2Proof.Laws.Encodes.Statement (i : Instr) : Prop :=
  ((encodeScalar i).isSome = true → i.laneOp? = none ∧ i.streamOp? = none)
  ∧ (i.laneOp?.isSome = true → (encodeLane i).isSome = true ∧ i.streamOp? = none)
  ∧ (i.streamOp?.isSome = true → (encodeStream i).isSome = true)

theorem Sys2Proof.Laws.Encodes.add (d a b : BitVec 6) : Sys2Proof.Laws.Encodes.Statement (.add d a b) :=
  by refine ⟨fun h => ?_, fun h => ?_, fun h => ?_⟩ <;> first | exact ⟨rfl, rfl⟩ | rfl | cases h
theorem Sys2Proof.Laws.Encodes.sub (d a b : BitVec 6) : Sys2Proof.Laws.Encodes.Statement (.sub d a b) :=
  by refine ⟨fun h => ?_, fun h => ?_, fun h => ?_⟩ <;> first | exact ⟨rfl, rfl⟩ | rfl | cases h
theorem Sys2Proof.Laws.Encodes.mul (d a b : BitVec 6) : Sys2Proof.Laws.Encodes.Statement (.mul d a b) :=
  by refine ⟨fun h => ?_, fun h => ?_, fun h => ?_⟩ <;> first | exact ⟨rfl, rfl⟩ | rfl | cases h
theorem Sys2Proof.Laws.Encodes.mulh (d a b : BitVec 6) : Sys2Proof.Laws.Encodes.Statement (.mulh d a b) :=
  by refine ⟨fun h => ?_, fun h => ?_, fun h => ?_⟩ <;> first | exact ⟨rfl, rfl⟩ | rfl | cases h
theorem Sys2Proof.Laws.Encodes.mulhn (d a b : BitVec 6) : Sys2Proof.Laws.Encodes.Statement (.mulhn d a b) :=
  by refine ⟨fun h => ?_, fun h => ?_, fun h => ?_⟩ <;> first | exact ⟨rfl, rfl⟩ | rfl | cases h
theorem Sys2Proof.Laws.Encodes.div (d a b : BitVec 6) : Sys2Proof.Laws.Encodes.Statement (.div d a b) :=
  by refine ⟨fun h => ?_, fun h => ?_, fun h => ?_⟩ <;> first | exact ⟨rfl, rfl⟩ | rfl | cases h
theorem Sys2Proof.Laws.Encodes.divn (d a b : BitVec 6) : Sys2Proof.Laws.Encodes.Statement (.divn d a b) :=
  by refine ⟨fun h => ?_, fun h => ?_, fun h => ?_⟩ <;> first | exact ⟨rfl, rfl⟩ | rfl | cases h
theorem Sys2Proof.Laws.Encodes.rem (d a b : BitVec 6) : Sys2Proof.Laws.Encodes.Statement (.rem d a b) :=
  by refine ⟨fun h => ?_, fun h => ?_, fun h => ?_⟩ <;> first | exact ⟨rfl, rfl⟩ | rfl | cases h
theorem Sys2Proof.Laws.Encodes.remn (d a b : BitVec 6) : Sys2Proof.Laws.Encodes.Statement (.remn d a b) :=
  by refine ⟨fun h => ?_, fun h => ?_, fun h => ?_⟩ <;> first | exact ⟨rfl, rfl⟩ | rfl | cases h
theorem Sys2Proof.Laws.Encodes.and (d a b : BitVec 6) : Sys2Proof.Laws.Encodes.Statement (.and d a b) :=
  by refine ⟨fun h => ?_, fun h => ?_, fun h => ?_⟩ <;> first | exact ⟨rfl, rfl⟩ | rfl | cases h
theorem Sys2Proof.Laws.Encodes.or (d a b : BitVec 6) : Sys2Proof.Laws.Encodes.Statement (.or d a b) :=
  by refine ⟨fun h => ?_, fun h => ?_, fun h => ?_⟩ <;> first | exact ⟨rfl, rfl⟩ | rfl | cases h
theorem Sys2Proof.Laws.Encodes.xor (d a b : BitVec 6) : Sys2Proof.Laws.Encodes.Statement (.xor d a b) :=
  by refine ⟨fun h => ?_, fun h => ?_, fun h => ?_⟩ <;> first | exact ⟨rfl, rfl⟩ | rfl | cases h
theorem Sys2Proof.Laws.Encodes.andn (d a b : BitVec 6) : Sys2Proof.Laws.Encodes.Statement (.andn d a b) :=
  by refine ⟨fun h => ?_, fun h => ?_, fun h => ?_⟩ <;> first | exact ⟨rfl, rfl⟩ | rfl | cases h
theorem Sys2Proof.Laws.Encodes.shl (d a b : BitVec 6) : Sys2Proof.Laws.Encodes.Statement (.shl d a b) :=
  by refine ⟨fun h => ?_, fun h => ?_, fun h => ?_⟩ <;> first | exact ⟨rfl, rfl⟩ | rfl | cases h
theorem Sys2Proof.Laws.Encodes.shr (d a b : BitVec 6) : Sys2Proof.Laws.Encodes.Statement (.shr d a b) :=
  by refine ⟨fun h => ?_, fun h => ?_, fun h => ?_⟩ <;> first | exact ⟨rfl, rfl⟩ | rfl | cases h
theorem Sys2Proof.Laws.Encodes.sar (d a b : BitVec 6) : Sys2Proof.Laws.Encodes.Statement (.sar d a b) :=
  by refine ⟨fun h => ?_, fun h => ?_, fun h => ?_⟩ <;> first | exact ⟨rfl, rfl⟩ | rfl | cases h
theorem Sys2Proof.Laws.Encodes.min (d a b : BitVec 6) : Sys2Proof.Laws.Encodes.Statement (.min d a b) :=
  by refine ⟨fun h => ?_, fun h => ?_, fun h => ?_⟩ <;> first | exact ⟨rfl, rfl⟩ | rfl | cases h
theorem Sys2Proof.Laws.Encodes.max (d a b : BitVec 6) : Sys2Proof.Laws.Encodes.Statement (.max d a b) :=
  by refine ⟨fun h => ?_, fun h => ?_, fun h => ?_⟩ <;> first | exact ⟨rfl, rfl⟩ | rfl | cases h
theorem Sys2Proof.Laws.Encodes.minn (d a b : BitVec 6) : Sys2Proof.Laws.Encodes.Statement (.minn d a b) :=
  by refine ⟨fun h => ?_, fun h => ?_, fun h => ?_⟩ <;> first | exact ⟨rfl, rfl⟩ | rfl | cases h
theorem Sys2Proof.Laws.Encodes.maxn (d a b : BitVec 6) : Sys2Proof.Laws.Encodes.Statement (.maxn d a b) :=
  by refine ⟨fun h => ?_, fun h => ?_, fun h => ?_⟩ <;> first | exact ⟨rfl, rfl⟩ | rfl | cases h
theorem Sys2Proof.Laws.Encodes.slt (d a b : BitVec 6) : Sys2Proof.Laws.Encodes.Statement (.slt d a b) :=
  by refine ⟨fun h => ?_, fun h => ?_, fun h => ?_⟩ <;> first | exact ⟨rfl, rfl⟩ | rfl | cases h
theorem Sys2Proof.Laws.Encodes.sltn (d a b : BitVec 6) : Sys2Proof.Laws.Encodes.Statement (.sltn d a b) :=
  by refine ⟨fun h => ?_, fun h => ?_, fun h => ?_⟩ <;> first | exact ⟨rfl, rfl⟩ | rfl | cases h
theorem Sys2Proof.Laws.Encodes.seq (d a b : BitVec 6) : Sys2Proof.Laws.Encodes.Statement (.seq d a b) :=
  by refine ⟨fun h => ?_, fun h => ?_, fun h => ?_⟩ <;> first | exact ⟨rfl, rfl⟩ | rfl | cases h
theorem Sys2Proof.Laws.Encodes.popc (d a : BitVec 6) : Sys2Proof.Laws.Encodes.Statement (.popc d a) :=
  by refine ⟨fun h => ?_, fun h => ?_, fun h => ?_⟩ <;> first | exact ⟨rfl, rfl⟩ | rfl | cases h
theorem Sys2Proof.Laws.Encodes.clz (d a : BitVec 6) : Sys2Proof.Laws.Encodes.Statement (.clz d a) :=
  by refine ⟨fun h => ?_, fun h => ?_, fun h => ?_⟩ <;> first | exact ⟨rfl, rfl⟩ | rfl | cases h
theorem Sys2Proof.Laws.Encodes.ctz (d a : BitVec 6) : Sys2Proof.Laws.Encodes.Statement (.ctz d a) :=
  by refine ⟨fun h => ?_, fun h => ?_, fun h => ?_⟩ <;> first | exact ⟨rfl, rfl⟩ | rfl | cases h
theorem Sys2Proof.Laws.Encodes.addi (d a : BitVec 6) (i : BitVec 14) : Sys2Proof.Laws.Encodes.Statement (.addi d a i) :=
  by refine ⟨fun h => ?_, fun h => ?_, fun h => ?_⟩ <;> first | exact ⟨rfl, rfl⟩ | rfl | cases h
theorem Sys2Proof.Laws.Encodes.andi (d a : BitVec 6) (i : BitVec 14) : Sys2Proof.Laws.Encodes.Statement (.andi d a i) :=
  by refine ⟨fun h => ?_, fun h => ?_, fun h => ?_⟩ <;> first | exact ⟨rfl, rfl⟩ | rfl | cases h
theorem Sys2Proof.Laws.Encodes.ori (d a : BitVec 6) (i : BitVec 14) : Sys2Proof.Laws.Encodes.Statement (.ori d a i) :=
  by refine ⟨fun h => ?_, fun h => ?_, fun h => ?_⟩ <;> first | exact ⟨rfl, rfl⟩ | rfl | cases h
theorem Sys2Proof.Laws.Encodes.xori (d a : BitVec 6) (i : BitVec 14) : Sys2Proof.Laws.Encodes.Statement (.xori d a i) :=
  by refine ⟨fun h => ?_, fun h => ?_, fun h => ?_⟩ <;> first | exact ⟨rfl, rfl⟩ | rfl | cases h
theorem Sys2Proof.Laws.Encodes.slti (d a : BitVec 6) (i : BitVec 14) : Sys2Proof.Laws.Encodes.Statement (.slti d a i) :=
  by refine ⟨fun h => ?_, fun h => ?_, fun h => ?_⟩ <;> first | exact ⟨rfl, rfl⟩ | rfl | cases h
theorem Sys2Proof.Laws.Encodes.shli (d a n : BitVec 6) : Sys2Proof.Laws.Encodes.Statement (.shli d a n) :=
  by refine ⟨fun h => ?_, fun h => ?_, fun h => ?_⟩ <;> first | exact ⟨rfl, rfl⟩ | rfl | cases h
theorem Sys2Proof.Laws.Encodes.shri (d a n : BitVec 6) : Sys2Proof.Laws.Encodes.Statement (.shri d a n) :=
  by refine ⟨fun h => ?_, fun h => ?_, fun h => ?_⟩ <;> first | exact ⟨rfl, rfl⟩ | rfl | cases h
theorem Sys2Proof.Laws.Encodes.sari (d a n : BitVec 6) : Sys2Proof.Laws.Encodes.Statement (.sari d a n) :=
  by refine ⟨fun h => ?_, fun h => ?_, fun h => ?_⟩ <;> first | exact ⟨rfl, rfl⟩ | rfl | cases h
theorem Sys2Proof.Laws.Encodes.lih (d : BitVec 6) (i : BitVec 20) : Sys2Proof.Laws.Encodes.Statement (.lih d i) :=
  by refine ⟨fun h => ?_, fun h => ?_, fun h => ?_⟩ <;> first | exact ⟨rfl, rfl⟩ | rfl | cases h
theorem Sys2Proof.Laws.Encodes.ld (t b : BitVec 6) (s : BitVec 3) (z : BitVec 2) (x : BitVec 1) (o : BitVec 8) : Sys2Proof.Laws.Encodes.Statement (.ld t b s z x o) :=
  by refine ⟨fun h => ?_, fun h => ?_, fun h => ?_⟩ <;> first | exact ⟨rfl, rfl⟩ | rfl | cases h
theorem Sys2Proof.Laws.Encodes.st (t b : BitVec 6) (s : BitVec 3) (z : BitVec 2) (o : BitVec 8) : Sys2Proof.Laws.Encodes.Statement (.st t b s z o) :=
  by refine ⟨fun h => ?_, fun h => ?_, fun h => ?_⟩ <;> first | exact ⟨rfl, rfl⟩ | rfl | cases h
theorem Sys2Proof.Laws.Encodes.csrr (d : BitVec 6) (c : BitVec 12) : Sys2Proof.Laws.Encodes.Statement (.csrr d c) :=
  by refine ⟨fun h => ?_, fun h => ?_, fun h => ?_⟩ <;> first | exact ⟨rfl, rfl⟩ | rfl | cases h
theorem Sys2Proof.Laws.Encodes.csrw (a : BitVec 6) (c : BitVec 12) : Sys2Proof.Laws.Encodes.Statement (.csrw a c) :=
  by refine ⟨fun h => ?_, fun h => ?_, fun h => ?_⟩ <;> first | exact ⟨rfl, rfl⟩ | rfl | cases h
theorem Sys2Proof.Laws.Encodes.csrs (a : BitVec 6) (c : BitVec 12) : Sys2Proof.Laws.Encodes.Statement (.csrs a c) :=
  by refine ⟨fun h => ?_, fun h => ?_, fun h => ?_⟩ <;> first | exact ⟨rfl, rfl⟩ | rfl | cases h
theorem Sys2Proof.Laws.Encodes.csrc (a : BitVec 6) (c : BitVec 12) : Sys2Proof.Laws.Encodes.Statement (.csrc a c) :=
  by refine ⟨fun h => ?_, fun h => ?_, fun h => ?_⟩ <;> first | exact ⟨rfl, rfl⟩ | rfl | cases h
theorem Sys2Proof.Laws.Encodes.bcc (a b : BitVec 6) (c : BitVec 3) (o : BitVec 11) : Sys2Proof.Laws.Encodes.Statement (.bcc a b c o) :=
  by refine ⟨fun h => ?_, fun h => ?_, fun h => ?_⟩ <;> first | exact ⟨rfl, rfl⟩ | rfl | cases h
theorem Sys2Proof.Laws.Encodes.j (o : BitVec 26) : Sys2Proof.Laws.Encodes.Statement (.j o) :=
  by refine ⟨fun h => ?_, fun h => ?_, fun h => ?_⟩ <;> first | exact ⟨rfl, rfl⟩ | rfl | cases h
theorem Sys2Proof.Laws.Encodes.jal (o : BitVec 26) : Sys2Proof.Laws.Encodes.Statement (.jal o) :=
  by refine ⟨fun h => ?_, fun h => ?_, fun h => ?_⟩ <;> first | exact ⟨rfl, rfl⟩ | rfl | cases h
theorem Sys2Proof.Laws.Encodes.jr (a : BitVec 6) : Sys2Proof.Laws.Encodes.Statement (.jr a) :=
  by refine ⟨fun h => ?_, fun h => ?_, fun h => ?_⟩ <;> first | exact ⟨rfl, rfl⟩ | rfl | cases h
theorem Sys2Proof.Laws.Encodes.jalr (d a : BitVec 6) : Sys2Proof.Laws.Encodes.Statement (.jalr d a) :=
  by refine ⟨fun h => ?_, fun h => ?_, fun h => ?_⟩ <;> first | exact ⟨rfl, rfl⟩ | rfl | cases h
theorem Sys2Proof.Laws.Encodes.loop (a : BitVec 6) (o : BitVec 11) : Sys2Proof.Laws.Encodes.Statement (.loop a o) :=
  by refine ⟨fun h => ?_, fun h => ?_, fun h => ?_⟩ <;> first | exact ⟨rfl, rfl⟩ | rfl | cases h
theorem Sys2Proof.Laws.Encodes.disp (d : BitVec 6) (i : BitVec 20) : Sys2Proof.Laws.Encodes.Statement (.disp d i) :=
  by refine ⟨fun h => ?_, fun h => ?_, fun h => ?_⟩ <;> first | exact ⟨rfl, rfl⟩ | rfl | cases h
theorem Sys2Proof.Laws.Encodes.vgetV (d a : BitVec 6) (n : BitVec 10) : Sys2Proof.Laws.Encodes.Statement (.vgetV d a n) :=
  by refine ⟨fun h => ?_, fun h => ?_, fun h => ?_⟩ <;> first | exact ⟨rfl, rfl⟩ | rfl | cases h
theorem Sys2Proof.Laws.Encodes.vgetK (d a : BitVec 6) (n : BitVec 3) : Sys2Proof.Laws.Encodes.Statement (.vgetK d a n) :=
  by refine ⟨fun h => ?_, fun h => ?_, fun h => ?_⟩ <;> first | exact ⟨rfl, rfl⟩ | rfl | cases h
theorem Sys2Proof.Laws.Encodes.vsetV (d a : BitVec 6) (n : BitVec 10) : Sys2Proof.Laws.Encodes.Statement (.vsetV d a n) :=
  by refine ⟨fun h => ?_, fun h => ?_, fun h => ?_⟩ <;> first | exact ⟨rfl, rfl⟩ | rfl | cases h
theorem Sys2Proof.Laws.Encodes.vsetK (d a : BitVec 6) (n : BitVec 3) : Sys2Proof.Laws.Encodes.Statement (.vsetK d a n) :=
  by refine ⟨fun h => ?_, fun h => ?_, fun h => ?_⟩ <;> first | exact ⟨rfl, rfl⟩ | rfl | cases h
theorem Sys2Proof.Laws.Encodes.fwait (f : BitVec 4) : Sys2Proof.Laws.Encodes.Statement (.fwait f) :=
  by refine ⟨fun h => ?_, fun h => ?_, fun h => ?_⟩ <;> first | exact ⟨rfl, rfl⟩ | rfl | cases h
theorem Sys2Proof.Laws.Encodes.fenceAcq (s : BitVec 3) : Sys2Proof.Laws.Encodes.Statement (.fenceAcq s) :=
  by refine ⟨fun h => ?_, fun h => ?_, fun h => ?_⟩ <;> first | exact ⟨rfl, rfl⟩ | rfl | cases h
theorem Sys2Proof.Laws.Encodes.fenceRel (s : BitVec 3) : Sys2Proof.Laws.Encodes.Statement (.fenceRel s) :=
  by refine ⟨fun h => ?_, fun h => ?_, fun h => ?_⟩ <;> first | exact ⟨rfl, rfl⟩ | rfl | cases h
theorem Sys2Proof.Laws.Encodes.fenceAr (s : BitVec 3) : Sys2Proof.Laws.Encodes.Statement (.fenceAr s) :=
  by refine ⟨fun h => ?_, fun h => ?_, fun h => ?_⟩ <;> first | exact ⟨rfl, rfl⟩ | rfl | cases h
theorem Sys2Proof.Laws.Encodes.fenceW : Sys2Proof.Laws.Encodes.Statement .fenceW :=
  by refine ⟨fun h => ?_, fun h => ?_, fun h => ?_⟩ <;> first | exact ⟨rfl, rfl⟩ | rfl | cases h
theorem Sys2Proof.Laws.Encodes.bar (l : BitVec 2) (n : BitVec 4) : Sys2Proof.Laws.Encodes.Statement (.bar l n) :=
  by refine ⟨fun h => ?_, fun h => ?_, fun h => ?_⟩ <;> first | exact ⟨rfl, rfl⟩ | rfl | cases h
theorem Sys2Proof.Laws.Encodes.bara (l : BitVec 2) (n : BitVec 4) : Sys2Proof.Laws.Encodes.Statement (.bara l n) :=
  by refine ⟨fun h => ?_, fun h => ?_, fun h => ?_⟩ <;> first | exact ⟨rfl, rfl⟩ | rfl | cases h
theorem Sys2Proof.Laws.Encodes.barw (l : BitVec 2) (n : BitVec 4) : Sys2Proof.Laws.Encodes.Statement (.barw l n) :=
  by refine ⟨fun h => ?_, fun h => ?_, fun h => ?_⟩ <;> first | exact ⟨rfl, rfl⟩ | rfl | cases h
theorem Sys2Proof.Laws.Encodes.mxcfgClaim (n : BitVec 4) : Sys2Proof.Laws.Encodes.Statement (.mxcfgClaim n) :=
  by refine ⟨fun h => ?_, fun h => ?_, fun h => ?_⟩ <;> first | exact ⟨rfl, rfl⟩ | rfl | cases h
theorem Sys2Proof.Laws.Encodes.mxcfgSet (t : BitVec 3) (a : BitVec 6) : Sys2Proof.Laws.Encodes.Statement (.mxcfgSet t a) :=
  by refine ⟨fun h => ?_, fun h => ?_, fun h => ?_⟩ <;> first | exact ⟨rfl, rfl⟩ | rfl | cases h
theorem Sys2Proof.Laws.Encodes.mxcfgStat (d : BitVec 6) (t : BitVec 3) : Sys2Proof.Laws.Encodes.Statement (.mxcfgStat d t) :=
  by refine ⟨fun h => ?_, fun h => ?_, fun h => ?_⟩ <;> first | exact ⟨rfl, rfl⟩ | rfl | cases h
theorem Sys2Proof.Laws.Encodes.mxcfgFree : Sys2Proof.Laws.Encodes.Statement .mxcfgFree :=
  by refine ⟨fun h => ?_, fun h => ?_, fun h => ?_⟩ <;> first | exact ⟨rfl, rfl⟩ | rfl | cases h
theorem Sys2Proof.Laws.Encodes.mxloop (t : BitVec 3) (g k : BitVec 6) (f : BitVec 4) (w : BitVec 1) (u : BitVec 2) : Sys2Proof.Laws.Encodes.Statement (.mxloop t g k f w u) :=
  by refine ⟨fun h => ?_, fun h => ?_, fun h => ?_⟩ <;> first | exact ⟨rfl, rfl⟩ | rfl | cases h
theorem Sys2Proof.Laws.Encodes.mxsp (t : BitVec 3) (g k : BitVec 6) (f : BitVec 4) (w : BitVec 1) (u : BitVec 2) : Sys2Proof.Laws.Encodes.Statement (.mxsp t g k f w u) :=
  by refine ⟨fun h => ?_, fun h => ?_, fun h => ?_⟩ <;> first | exact ⟨rfl, rfl⟩ | rfl | cases h
theorem Sys2Proof.Laws.Encodes.mxrk (t : BitVec 3) (g r : BitVec 6) (f : BitVec 4) (w : BitVec 1) : Sys2Proof.Laws.Encodes.Statement (.mxrk t g r f w) :=
  by refine ⟨fun h => ?_, fun h => ?_, fun h => ?_⟩ <;> first | exact ⟨rfl, rfl⟩ | rfl | cases h
theorem Sys2Proof.Laws.Encodes.mxst (v e z : BitVec 1) (t : BitVec 3) (d x : BitVec 6) (f m : BitVec 4) : Sys2Proof.Laws.Encodes.Statement (.mxst v e z t d x f m) :=
  by refine ⟨fun h => ?_, fun h => ?_, fun h => ?_⟩ <;> first | exact ⟨rfl, rfl⟩ | rfl | cases h
theorem Sys2Proof.Laws.Encodes.mxstZero (e : BitVec 1) (t : BitVec 3) (f : BitVec 4) : Sys2Proof.Laws.Encodes.Statement (.mxstZero e t f) :=
  by refine ⟨fun h => ?_, fun h => ?_, fun h => ?_⟩ <;> first | exact ⟨rfl, rfl⟩ | rfl | cases h
theorem Sys2Proof.Laws.Encodes.skickH (d g b : BitVec 6) (f : BitVec 4) (t : BitVec 1) : Sys2Proof.Laws.Encodes.Statement (.skickH d g b f t) :=
  by refine ⟨fun h => ?_, fun h => ?_, fun h => ?_⟩ <;> first | exact ⟨rfl, rfl⟩ | rfl | cases h
theorem Sys2Proof.Laws.Encodes.skickE (d g b : BitVec 6) (f : BitVec 4) (t : BitVec 1) : Sys2Proof.Laws.Encodes.Statement (.skickE d g b f t) :=
  by refine ⟨fun h => ?_, fun h => ?_, fun h => ?_⟩ <;> first | exact ⟨rfl, rfl⟩ | rfl | cases h
theorem Sys2Proof.Laws.Encodes.scopyLd (l : BitVec 3) (p : BitVec 6) (f : BitVec 4) (z b : BitVec 1) : Sys2Proof.Laws.Encodes.Statement (.scopyLd l p f z b) :=
  by refine ⟨fun h => ?_, fun h => ?_, fun h => ?_⟩ <;> first | exact ⟨rfl, rfl⟩ | rfl | cases h
theorem Sys2Proof.Laws.Encodes.scopySt (l : BitVec 3) (p : BitVec 6) (f : BitVec 4) (z b : BitVec 1) : Sys2Proof.Laws.Encodes.Statement (.scopySt l p f z b) :=
  by refine ⟨fun h => ?_, fun h => ?_, fun h => ?_⟩ <;> first | exact ⟨rfl, rfl⟩ | rfl | cases h
theorem Sys2Proof.Laws.Encodes.sstat (d a : BitVec 6) : Sys2Proof.Laws.Encodes.Statement (.sstat d a) :=
  by refine ⟨fun h => ?_, fun h => ?_, fun h => ?_⟩ <;> first | exact ⟨rfl, rfl⟩ | rfl | cases h
theorem Sys2Proof.Laws.Encodes.sstatCancel (d a : BitVec 6) : Sys2Proof.Laws.Encodes.Statement (.sstatCancel d a) :=
  by refine ⟨fun h => ?_, fun h => ?_, fun h => ?_⟩ <;> first | exact ⟨rfl, rfl⟩ | rfl | cases h
theorem Sys2Proof.Laws.Encodes.abinit (d a b : BitVec 6) : Sys2Proof.Laws.Encodes.Statement (.abinit d a b) :=
  by refine ⟨fun h => ?_, fun h => ?_, fun h => ?_⟩ <;> first | exact ⟨rfl, rfl⟩ | rfl | cases h
theorem Sys2Proof.Laws.Encodes.abfree (a : BitVec 6) : Sys2Proof.Laws.Encodes.Statement (.abfree a) :=
  by refine ⟨fun h => ?_, fun h => ?_, fun h => ?_⟩ <;> first | exact ⟨rfl, rfl⟩ | rfl | cases h
theorem Sys2Proof.Laws.Encodes.abwait (a b : BitVec 6) : Sys2Proof.Laws.Encodes.Statement (.abwait a b) :=
  by refine ⟨fun h => ?_, fun h => ?_, fun h => ?_⟩ <;> first | exact ⟨rfl, rfl⟩ | rfl | cases h
theorem Sys2Proof.Laws.Encodes.abwaitT (d a b : BitVec 6) : Sys2Proof.Laws.Encodes.Statement (.abwaitT d a b) :=
  by refine ⟨fun h => ?_, fun h => ?_, fun h => ?_⟩ <;> first | exact ⟨rfl, rfl⟩ | rfl | cases h
theorem Sys2Proof.Laws.Encodes.abrel (a : BitVec 6) : Sys2Proof.Laws.Encodes.Statement (.abrel a) :=
  by refine ⟨fun h => ?_, fun h => ?_, fun h => ?_⟩ <;> first | exact ⟨rfl, rfl⟩ | rfl | cases h
theorem Sys2Proof.Laws.Encodes.osalloc (d a b : BitVec 6) (c : BitVec 4) : Sys2Proof.Laws.Encodes.Statement (.osalloc d a b c) :=
  by refine ⟨fun h => ?_, fun h => ?_, fun h => ?_⟩ <;> first | exact ⟨rfl, rfl⟩ | rfl | cases h
theorem Sys2Proof.Laws.Encodes.osfree (a b : BitVec 6) : Sys2Proof.Laws.Encodes.Statement (.osfree a b) :=
  by refine ⟨fun h => ?_, fun h => ?_, fun h => ?_⟩ <;> first | exact ⟨rfl, rfl⟩ | rfl | cases h
theorem Sys2Proof.Laws.Encodes.osquery (d a : BitVec 6) : Sys2Proof.Laws.Encodes.Statement (.osquery d a) :=
  by refine ⟨fun h => ?_, fun h => ?_, fun h => ?_⟩ <;> first | exact ⟨rfl, rfl⟩ | rfl | cases h
theorem Sys2Proof.Laws.Encodes.osqueryX (d a : BitVec 6) : Sys2Proof.Laws.Encodes.Statement (.osqueryX d a) :=
  by refine ⟨fun h => ?_, fun h => ?_, fun h => ?_⟩ <;> first | exact ⟨rfl, rfl⟩ | rfl | cases h
theorem Sys2Proof.Laws.Encodes.wltake (d a : BitVec 6) (h : BitVec 1) (n : BitVec 10) : Sys2Proof.Laws.Encodes.Statement (.wltake d a h n) :=
  by refine ⟨fun h => ?_, fun h => ?_, fun h => ?_⟩ <;> first | exact ⟨rfl, rfl⟩ | rfl | cases h
theorem Sys2Proof.Laws.Encodes.wldone (a : BitVec 6) : Sys2Proof.Laws.Encodes.Statement (.wldone a) :=
  by refine ⟨fun h => ?_, fun h => ?_, fun h => ?_⟩ <;> first | exact ⟨rfl, rfl⟩ | rfl | cases h
theorem Sys2Proof.Laws.Encodes.wlquiet (a : BitVec 6) (f : BitVec 4) : Sys2Proof.Laws.Encodes.Statement (.wlquiet a f) :=
  by refine ⟨fun h => ?_, fun h => ?_, fun h => ?_⟩ <;> first | exact ⟨rfl, rfl⟩ | rfl | cases h
theorem Sys2Proof.Laws.Encodes.hdef (a : BitVec 6) (s : BitVec 3) (n : BitVec 8) : Sys2Proof.Laws.Encodes.Statement (.hdef a s n) :=
  by refine ⟨fun h => ?_, fun h => ?_, fun h => ?_⟩ <;> first | exact ⟨rfl, rfl⟩ | rfl | cases h
theorem Sys2Proof.Laws.Encodes.hread (a : BitVec 6) (s : BitVec 3) (n : BitVec 8) : Sys2Proof.Laws.Encodes.Statement (.hread a s n) :=
  by refine ⟨fun h => ?_, fun h => ?_, fun h => ?_⟩ <;> first | exact ⟨rfl, rfl⟩ | rfl | cases h
theorem Sys2Proof.Laws.Encodes.nprEnter : Sys2Proof.Laws.Encodes.Statement .nprEnter :=
  by refine ⟨fun h => ?_, fun h => ?_, fun h => ?_⟩ <;> first | exact ⟨rfl, rfl⟩ | rfl | cases h
theorem Sys2Proof.Laws.Encodes.nprExit : Sys2Proof.Laws.Encodes.Statement .nprExit :=
  by refine ⟨fun h => ?_, fun h => ?_, fun h => ?_⟩ <;> first | exact ⟨rfl, rfl⟩ | rfl | cases h
theorem Sys2Proof.Laws.Encodes.yield : Sys2Proof.Laws.Encodes.Statement .yield :=
  by refine ⟨fun h => ?_, fun h => ?_, fun h => ?_⟩ <;> first | exact ⟨rfl, rfl⟩ | rfl | cases h
theorem Sys2Proof.Laws.Encodes.park (a b : BitVec 6) : Sys2Proof.Laws.Encodes.Statement (.park a b) :=
  by refine ⟨fun h => ?_, fun h => ?_, fun h => ?_⟩ <;> first | exact ⟨rfl, rfl⟩ | rfl | cases h
theorem Sys2Proof.Laws.Encodes.coll (g : BitVec 6) (f s : BitVec 4) : Sys2Proof.Laws.Encodes.Statement (.coll g f s) :=
  by refine ⟨fun h => ?_, fun h => ?_, fun h => ?_⟩ <;> first | exact ⟨rfl, rfl⟩ | rfl | cases h
theorem Sys2Proof.Laws.Encodes.amosX (d a b : BitVec 6) (p : BitVec 4) (o : BitVec 2) (w : BitVec 1) : Sys2Proof.Laws.Encodes.Statement (.amosX d a b p o w) :=
  by refine ⟨fun h => ?_, fun h => ?_, fun h => ?_⟩ <;> first | exact ⟨rfl, rfl⟩ | rfl | cases h
theorem Sys2Proof.Laws.Encodes.trap (i : BitVec 20) : Sys2Proof.Laws.Encodes.Statement (.trap i) :=
  by refine ⟨fun h => ?_, fun h => ?_, fun h => ?_⟩ <;> first | exact ⟨rfl, rfl⟩ | rfl | cases h
theorem Sys2Proof.Laws.Encodes.eret : Sys2Proof.Laws.Encodes.Statement .eret :=
  by refine ⟨fun h => ?_, fun h => ?_, fun h => ?_⟩ <;> first | exact ⟨rfl, rfl⟩ | rfl | cases h
theorem Sys2Proof.Laws.Encodes.eretRetry : Sys2Proof.Laws.Encodes.Statement .eretRetry :=
  by refine ⟨fun h => ?_, fun h => ?_, fun h => ?_⟩ <;> first | exact ⟨rfl, rfl⟩ | rfl | cases h
theorem Sys2Proof.Laws.Encodes.sysc (i : BitVec 20) : Sys2Proof.Laws.Encodes.Statement (.sysc i) :=
  by refine ⟨fun h => ?_, fun h => ?_, fun h => ?_⟩ <;> first | exact ⟨rfl, rfl⟩ | rfl | cases h
theorem Sys2Proof.Laws.Encodes.segld (a b : BitVec 6) (s : BitVec 3) : Sys2Proof.Laws.Encodes.Statement (.segld a b s) :=
  by refine ⟨fun h => ?_, fun h => ?_, fun h => ?_⟩ <;> first | exact ⟨rfl, rfl⟩ | rfl | cases h
theorem Sys2Proof.Laws.Encodes.segrdBase (d : BitVec 6) (s : BitVec 3) : Sys2Proof.Laws.Encodes.Statement (.segrdBase d s) :=
  by refine ⟨fun h => ?_, fun h => ?_, fun h => ?_⟩ <;> first | exact ⟨rfl, rfl⟩ | rfl | cases h
theorem Sys2Proof.Laws.Encodes.segrdLen (d : BitVec 6) (s : BitVec 3) : Sys2Proof.Laws.Encodes.Statement (.segrdLen d s) :=
  by refine ⟨fun h => ?_, fun h => ?_, fun h => ?_⟩ <;> first | exact ⟨rfl, rfl⟩ | rfl | cases h
theorem Sys2Proof.Laws.Encodes.exit : Sys2Proof.Laws.Encodes.Statement .exit :=
  by refine ⟨fun h => ?_, fun h => ?_, fun h => ?_⟩ <;> first | exact ⟨rfl, rfl⟩ | rfl | cases h
theorem Sys2Proof.Laws.Encodes.halt : Sys2Proof.Laws.Encodes.Statement .halt :=
  by refine ⟨fun h => ?_, fun h => ?_, fun h => ?_⟩ <;> first | exact ⟨rfl, rfl⟩ | rfl | cases h
theorem Sys2Proof.Laws.Encodes.flushs (b : BitVec 6) (s : BitVec 3) (o : BitVec 8) : Sys2Proof.Laws.Encodes.Statement (.flushs b s o) :=
  by refine ⟨fun h => ?_, fun h => ?_, fun h => ?_⟩ <;> first | exact ⟨rfl, rfl⟩ | rfl | cases h
theorem Sys2Proof.Laws.Encodes.amos (d a b : BitVec 6) (p : BitVec 4) (o : BitVec 2) (w s : BitVec 1) : Sys2Proof.Laws.Encodes.Statement (.amos d a b p o w s) :=
  by refine ⟨fun h => ?_, fun h => ?_, fun h => ?_⟩ <;> first | exact ⟨rfl, rfl⟩ | rfl | cases h
theorem Sys2Proof.Laws.Encodes.lea (t b : BitVec 6) (s : BitVec 3) (z : BitVec 2) (o : BitVec 8) : Sys2Proof.Laws.Encodes.Statement (.lea t b s z o) :=
  by refine ⟨fun h => ?_, fun h => ?_, fun h => ?_⟩ <;> first | exact ⟨rfl, rfl⟩ | rfl | cases h
theorem Sys2Proof.Laws.Encodes.qstat (d : BitVec 6) (s : BitVec 4) : Sys2Proof.Laws.Encodes.Statement (.qstat d s) :=
  by refine ⟨fun h => ?_, fun h => ?_, fun h => ?_⟩ <;> first | exact ⟨rfl, rfl⟩ | rfl | cases h
theorem Sys2Proof.Laws.Encodes.laneNop (w : LaneW) : Sys2Proof.Laws.Encodes.Statement (.laneNop w) :=
  by refine ⟨fun h => ?_, fun h => ?_, fun h => ?_⟩ <;> first | exact ⟨rfl, rfl⟩ | rfl | cases h
theorem Sys2Proof.Laws.Encodes.mov (w : LaneW) : Sys2Proof.Laws.Encodes.Statement (.mov w) :=
  by refine ⟨fun h => ?_, fun h => ?_, fun h => ?_⟩ <;> first | exact ⟨rfl, rfl⟩ | rfl | cases h
theorem Sys2Proof.Laws.Encodes.sel (w : LaneW) : Sys2Proof.Laws.Encodes.Statement (.sel w) :=
  by refine ⟨fun h => ?_, fun h => ?_, fun h => ?_⟩ <;> first | exact ⟨rfl, rfl⟩ | rfl | cases h
theorem Sys2Proof.Laws.Encodes.fadd (w : LaneW) : Sys2Proof.Laws.Encodes.Statement (.fadd w) :=
  by refine ⟨fun h => ?_, fun h => ?_, fun h => ?_⟩ <;> first | exact ⟨rfl, rfl⟩ | rfl | cases h
theorem Sys2Proof.Laws.Encodes.fsub (w : LaneW) : Sys2Proof.Laws.Encodes.Statement (.fsub w) :=
  by refine ⟨fun h => ?_, fun h => ?_, fun h => ?_⟩ <;> first | exact ⟨rfl, rfl⟩ | rfl | cases h
theorem Sys2Proof.Laws.Encodes.fmul (w : LaneW) : Sys2Proof.Laws.Encodes.Statement (.fmul w) :=
  by refine ⟨fun h => ?_, fun h => ?_, fun h => ?_⟩ <;> first | exact ⟨rfl, rfl⟩ | rfl | cases h
theorem Sys2Proof.Laws.Encodes.ffma (w : LaneW) : Sys2Proof.Laws.Encodes.Statement (.ffma w) :=
  by refine ⟨fun h => ?_, fun h => ?_, fun h => ?_⟩ <;> first | exact ⟨rfl, rfl⟩ | rfl | cases h
theorem Sys2Proof.Laws.Encodes.fmin (w : LaneW) : Sys2Proof.Laws.Encodes.Statement (.fmin w) :=
  by refine ⟨fun h => ?_, fun h => ?_, fun h => ?_⟩ <;> first | exact ⟨rfl, rfl⟩ | rfl | cases h
theorem Sys2Proof.Laws.Encodes.fmax (w : LaneW) : Sys2Proof.Laws.Encodes.Statement (.fmax w) :=
  by refine ⟨fun h => ?_, fun h => ?_, fun h => ?_⟩ <;> first | exact ⟨rfl, rfl⟩ | rfl | cases h
theorem Sys2Proof.Laws.Encodes.fcmp (w : LaneW) : Sys2Proof.Laws.Encodes.Statement (.fcmp w) :=
  by refine ⟨fun h => ?_, fun h => ?_, fun h => ?_⟩ <;> first | exact ⟨rfl, rfl⟩ | rfl | cases h
theorem Sys2Proof.Laws.Encodes.fclass (w : LaneW) : Sys2Proof.Laws.Encodes.Statement (.fclass w) :=
  by refine ⟨fun h => ?_, fun h => ?_, fun h => ?_⟩ <;> first | exact ⟨rfl, rfl⟩ | rfl | cases h
theorem Sys2Proof.Laws.Encodes.frnd (w : LaneW) : Sys2Proof.Laws.Encodes.Statement (.frnd w) :=
  by refine ⟨fun h => ?_, fun h => ?_, fun h => ?_⟩ <;> first | exact ⟨rfl, rfl⟩ | rfl | cases h
theorem Sys2Proof.Laws.Encodes.fscale (w : LaneW) : Sys2Proof.Laws.Encodes.Statement (.fscale w) :=
  by refine ⟨fun h => ?_, fun h => ?_, fun h => ?_⟩ <;> first | exact ⟨rfl, rfl⟩ | rfl | cases h
theorem Sys2Proof.Laws.Encodes.fdot2 (w : LaneW) : Sys2Proof.Laws.Encodes.Statement (.fdot2 w) :=
  by refine ⟨fun h => ?_, fun h => ?_, fun h => ?_⟩ <;> first | exact ⟨rfl, rfl⟩ | rfl | cases h
theorem Sys2Proof.Laws.Encodes.cvt (w : LaneW) : Sys2Proof.Laws.Encodes.Statement (.cvt w) :=
  by refine ⟨fun h => ?_, fun h => ?_, fun h => ?_⟩ <;> first | exact ⟨rfl, rfl⟩ | rfl | cases h
theorem Sys2Proof.Laws.Encodes.cvtef (w : LaneW) : Sys2Proof.Laws.Encodes.Statement (.cvtef w) :=
  by refine ⟨fun h => ?_, fun h => ?_, fun h => ?_⟩ <;> first | exact ⟨rfl, rfl⟩ | rfl | cases h
theorem Sys2Proof.Laws.Encodes.packq4 (w : LaneW) : Sys2Proof.Laws.Encodes.Statement (.packq4 w) :=
  by refine ⟨fun h => ?_, fun h => ?_, fun h => ?_⟩ <;> first | exact ⟨rfl, rfl⟩ | rfl | cases h
theorem Sys2Proof.Laws.Encodes.unpackq4 (w : LaneW) : Sys2Proof.Laws.Encodes.Statement (.unpackq4 w) :=
  by refine ⟨fun h => ?_, fun h => ?_, fun h => ?_⟩ <;> first | exact ⟨rfl, rfl⟩ | rfl | cases h
theorem Sys2Proof.Laws.Encodes.iadd (w : LaneW) : Sys2Proof.Laws.Encodes.Statement (.iadd w) :=
  by refine ⟨fun h => ?_, fun h => ?_, fun h => ?_⟩ <;> first | exact ⟨rfl, rfl⟩ | rfl | cases h
theorem Sys2Proof.Laws.Encodes.isub (w : LaneW) : Sys2Proof.Laws.Encodes.Statement (.isub w) :=
  by refine ⟨fun h => ?_, fun h => ?_, fun h => ?_⟩ <;> first | exact ⟨rfl, rfl⟩ | rfl | cases h
theorem Sys2Proof.Laws.Encodes.imul (w : LaneW) : Sys2Proof.Laws.Encodes.Statement (.imul w) :=
  by refine ⟨fun h => ?_, fun h => ?_, fun h => ?_⟩ <;> first | exact ⟨rfl, rfl⟩ | rfl | cases h
theorem Sys2Proof.Laws.Encodes.imulh (w : LaneW) : Sys2Proof.Laws.Encodes.Statement (.imulh w) :=
  by refine ⟨fun h => ?_, fun h => ?_, fun h => ?_⟩ <;> first | exact ⟨rfl, rfl⟩ | rfl | cases h
theorem Sys2Proof.Laws.Encodes.imad (w : LaneW) : Sys2Proof.Laws.Encodes.Statement (.imad w) :=
  by refine ⟨fun h => ?_, fun h => ?_, fun h => ?_⟩ <;> first | exact ⟨rfl, rfl⟩ | rfl | cases h
theorem Sys2Proof.Laws.Encodes.idiv (w : LaneW) : Sys2Proof.Laws.Encodes.Statement (.idiv w) :=
  by refine ⟨fun h => ?_, fun h => ?_, fun h => ?_⟩ <;> first | exact ⟨rfl, rfl⟩ | rfl | cases h
theorem Sys2Proof.Laws.Encodes.irem (w : LaneW) : Sys2Proof.Laws.Encodes.Statement (.irem w) :=
  by refine ⟨fun h => ?_, fun h => ?_, fun h => ?_⟩ <;> first | exact ⟨rfl, rfl⟩ | rfl | cases h
theorem Sys2Proof.Laws.Encodes.iabs (w : LaneW) : Sys2Proof.Laws.Encodes.Statement (.iabs w) :=
  by refine ⟨fun h => ?_, fun h => ?_, fun h => ?_⟩ <;> first | exact ⟨rfl, rfl⟩ | rfl | cases h
theorem Sys2Proof.Laws.Encodes.imin (w : LaneW) : Sys2Proof.Laws.Encodes.Statement (.imin w) :=
  by refine ⟨fun h => ?_, fun h => ?_, fun h => ?_⟩ <;> first | exact ⟨rfl, rfl⟩ | rfl | cases h
theorem Sys2Proof.Laws.Encodes.imax (w : LaneW) : Sys2Proof.Laws.Encodes.Statement (.imax w) :=
  by refine ⟨fun h => ?_, fun h => ?_, fun h => ?_⟩ <;> first | exact ⟨rfl, rfl⟩ | rfl | cases h
theorem Sys2Proof.Laws.Encodes.icmp (w : LaneW) : Sys2Proof.Laws.Encodes.Statement (.icmp w) :=
  by refine ⟨fun h => ?_, fun h => ?_, fun h => ?_⟩ <;> first | exact ⟨rfl, rfl⟩ | rfl | cases h
theorem Sys2Proof.Laws.Encodes.iadds (w : LaneW) : Sys2Proof.Laws.Encodes.Statement (.iadds w) :=
  by refine ⟨fun h => ?_, fun h => ?_, fun h => ?_⟩ <;> first | exact ⟨rfl, rfl⟩ | rfl | cases h
theorem Sys2Proof.Laws.Encodes.isubs (w : LaneW) : Sys2Proof.Laws.Encodes.Statement (.isubs w) :=
  by refine ⟨fun h => ?_, fun h => ?_, fun h => ?_⟩ <;> first | exact ⟨rfl, rfl⟩ | rfl | cases h
theorem Sys2Proof.Laws.Encodes.laneAnd (w : LaneW) : Sys2Proof.Laws.Encodes.Statement (.laneAnd w) :=
  by refine ⟨fun h => ?_, fun h => ?_, fun h => ?_⟩ <;> first | exact ⟨rfl, rfl⟩ | rfl | cases h
theorem Sys2Proof.Laws.Encodes.laneOr (w : LaneW) : Sys2Proof.Laws.Encodes.Statement (.laneOr w) :=
  by refine ⟨fun h => ?_, fun h => ?_, fun h => ?_⟩ <;> first | exact ⟨rfl, rfl⟩ | rfl | cases h
theorem Sys2Proof.Laws.Encodes.laneXor (w : LaneW) : Sys2Proof.Laws.Encodes.Statement (.laneXor w) :=
  by refine ⟨fun h => ?_, fun h => ?_, fun h => ?_⟩ <;> first | exact ⟨rfl, rfl⟩ | rfl | cases h
theorem Sys2Proof.Laws.Encodes.laneShl (w : LaneW) : Sys2Proof.Laws.Encodes.Statement (.laneShl w) :=
  by refine ⟨fun h => ?_, fun h => ?_, fun h => ?_⟩ <;> first | exact ⟨rfl, rfl⟩ | rfl | cases h
theorem Sys2Proof.Laws.Encodes.laneShr (w : LaneW) : Sys2Proof.Laws.Encodes.Statement (.laneShr w) :=
  by refine ⟨fun h => ?_, fun h => ?_, fun h => ?_⟩ <;> first | exact ⟨rfl, rfl⟩ | rfl | cases h
theorem Sys2Proof.Laws.Encodes.laneSar (w : LaneW) : Sys2Proof.Laws.Encodes.Statement (.laneSar w) :=
  by refine ⟨fun h => ?_, fun h => ?_, fun h => ?_⟩ <;> first | exact ⟨rfl, rfl⟩ | rfl | cases h
theorem Sys2Proof.Laws.Encodes.lanePopc (w : LaneW) : Sys2Proof.Laws.Encodes.Statement (.lanePopc w) :=
  by refine ⟨fun h => ?_, fun h => ?_, fun h => ?_⟩ <;> first | exact ⟨rfl, rfl⟩ | rfl | cases h
theorem Sys2Proof.Laws.Encodes.laneClz (w : LaneW) : Sys2Proof.Laws.Encodes.Statement (.laneClz w) :=
  by refine ⟨fun h => ?_, fun h => ?_, fun h => ?_⟩ <;> first | exact ⟨rfl, rfl⟩ | rfl | cases h
theorem Sys2Proof.Laws.Encodes.brev (w : LaneW) : Sys2Proof.Laws.Encodes.Statement (.brev w) :=
  by refine ⟨fun h => ?_, fun h => ?_, fun h => ?_⟩ <;> first | exact ⟨rfl, rfl⟩ | rfl | cases h
theorem Sys2Proof.Laws.Encodes.bfe (w : LaneW) : Sys2Proof.Laws.Encodes.Statement (.bfe w) :=
  by refine ⟨fun h => ?_, fun h => ?_, fun h => ?_⟩ <;> first | exact ⟨rfl, rfl⟩ | rfl | cases h
theorem Sys2Proof.Laws.Encodes.bfi (w : LaneW) : Sys2Proof.Laws.Encodes.Statement (.bfi w) :=
  by refine ⟨fun h => ?_, fun h => ?_, fun h => ?_⟩ <;> first | exact ⟨rfl, rfl⟩ | rfl | cases h
theorem Sys2Proof.Laws.Encodes.kand (w : LaneW) : Sys2Proof.Laws.Encodes.Statement (.kand w) :=
  by refine ⟨fun h => ?_, fun h => ?_, fun h => ?_⟩ <;> first | exact ⟨rfl, rfl⟩ | rfl | cases h
theorem Sys2Proof.Laws.Encodes.kor (w : LaneW) : Sys2Proof.Laws.Encodes.Statement (.kor w) :=
  by refine ⟨fun h => ?_, fun h => ?_, fun h => ?_⟩ <;> first | exact ⟨rfl, rfl⟩ | rfl | cases h
theorem Sys2Proof.Laws.Encodes.kxor (w : LaneW) : Sys2Proof.Laws.Encodes.Statement (.kxor w) :=
  by refine ⟨fun h => ?_, fun h => ?_, fun h => ?_⟩ <;> first | exact ⟨rfl, rfl⟩ | rfl | cases h
theorem Sys2Proof.Laws.Encodes.knot (w : LaneW) : Sys2Proof.Laws.Encodes.Statement (.knot w) :=
  by refine ⟨fun h => ?_, fun h => ?_, fun h => ?_⟩ <;> first | exact ⟨rfl, rfl⟩ | rfl | cases h
theorem Sys2Proof.Laws.Encodes.kmov (w : LaneW) : Sys2Proof.Laws.Encodes.Statement (.kmov w) :=
  by refine ⟨fun h => ?_, fun h => ?_, fun h => ?_⟩ <;> first | exact ⟨rfl, rfl⟩ | rfl | cases h
theorem Sys2Proof.Laws.Encodes.kmovV (w : LaneW) : Sys2Proof.Laws.Encodes.Statement (.kmovV w) :=
  by refine ⟨fun h => ?_, fun h => ?_, fun h => ?_⟩ <;> first | exact ⟨rfl, rfl⟩ | rfl | cases h
theorem Sys2Proof.Laws.Encodes.kmovK (w : LaneW) : Sys2Proof.Laws.Encodes.Statement (.kmovK w) :=
  by refine ⟨fun h => ?_, fun h => ?_, fun h => ?_⟩ <;> first | exact ⟨rfl, rfl⟩ | rfl | cases h
theorem Sys2Proof.Laws.Encodes.kbal (w : LaneW) : Sys2Proof.Laws.Encodes.Statement (.kbal w) :=
  by refine ⟨fun h => ?_, fun h => ?_, fun h => ?_⟩ <;> first | exact ⟨rfl, rfl⟩ | rfl | cases h
theorem Sys2Proof.Laws.Encodes.exp2 (w : LaneW) : Sys2Proof.Laws.Encodes.Statement (.exp2 w) :=
  by refine ⟨fun h => ?_, fun h => ?_, fun h => ?_⟩ <;> first | exact ⟨rfl, rfl⟩ | rfl | cases h
theorem Sys2Proof.Laws.Encodes.log2 (w : LaneW) : Sys2Proof.Laws.Encodes.Statement (.log2 w) :=
  by refine ⟨fun h => ?_, fun h => ?_, fun h => ?_⟩ <;> first | exact ⟨rfl, rfl⟩ | rfl | cases h
theorem Sys2Proof.Laws.Encodes.rcp (w : LaneW) : Sys2Proof.Laws.Encodes.Statement (.rcp w) :=
  by refine ⟨fun h => ?_, fun h => ?_, fun h => ?_⟩ <;> first | exact ⟨rfl, rfl⟩ | rfl | cases h
theorem Sys2Proof.Laws.Encodes.rsq (w : LaneW) : Sys2Proof.Laws.Encodes.Statement (.rsq w) :=
  by refine ⟨fun h => ?_, fun h => ?_, fun h => ?_⟩ <;> first | exact ⟨rfl, rfl⟩ | rfl | cases h
theorem Sys2Proof.Laws.Encodes.sqrt (w : LaneW) : Sys2Proof.Laws.Encodes.Statement (.sqrt w) :=
  by refine ⟨fun h => ?_, fun h => ?_, fun h => ?_⟩ <;> first | exact ⟨rfl, rfl⟩ | rfl | cases h
theorem Sys2Proof.Laws.Encodes.sin (w : LaneW) : Sys2Proof.Laws.Encodes.Statement (.sin w) :=
  by refine ⟨fun h => ?_, fun h => ?_, fun h => ?_⟩ <;> first | exact ⟨rfl, rfl⟩ | rfl | cases h
theorem Sys2Proof.Laws.Encodes.cos (w : LaneW) : Sys2Proof.Laws.Encodes.Statement (.cos w) :=
  by refine ⟨fun h => ?_, fun h => ?_, fun h => ?_⟩ <;> first | exact ⟨rfl, rfl⟩ | rfl | cases h
theorem Sys2Proof.Laws.Encodes.tanh (w : LaneW) : Sys2Proof.Laws.Encodes.Statement (.tanh w) :=
  by refine ⟨fun h => ?_, fun h => ?_, fun h => ?_⟩ <;> first | exact ⟨rfl, rfl⟩ | rfl | cases h
theorem Sys2Proof.Laws.Encodes.shfl (w : LaneW) : Sys2Proof.Laws.Encodes.Statement (.shfl w) :=
  by refine ⟨fun h => ?_, fun h => ?_, fun h => ?_⟩ <;> first | exact ⟨rfl, rfl⟩ | rfl | cases h
theorem Sys2Proof.Laws.Encodes.redx (w : LaneW) : Sys2Proof.Laws.Encodes.Statement (.redx w) :=
  by refine ⟨fun h => ?_, fun h => ?_, fun h => ?_⟩ <;> first | exact ⟨rfl, rfl⟩ | rfl | cases h
theorem Sys2Proof.Laws.Encodes.scanx (w : LaneW) : Sys2Proof.Laws.Encodes.Statement (.scanx w) :=
  by refine ⟨fun h => ?_, fun h => ?_, fun h => ?_⟩ <;> first | exact ⟨rfl, rfl⟩ | rfl | cases h
theorem Sys2Proof.Laws.Encodes.rtwcfg (w : LaneW) : Sys2Proof.Laws.Encodes.Statement (.rtwcfg w) :=
  by refine ⟨fun h => ?_, fun h => ?_, fun h => ?_⟩ <;> first | exact ⟨rfl, rfl⟩ | rfl | cases h
theorem Sys2Proof.Laws.Encodes.rtwnext (w : LaneW) : Sys2Proof.Laws.Encodes.Statement (.rtwnext w) :=
  by refine ⟨fun h => ?_, fun h => ?_, fun h => ?_⟩ <;> first | exact ⟨rfl, rfl⟩ | rfl | cases h
theorem Sys2Proof.Laws.Encodes.segred (w : LaneW) : Sys2Proof.Laws.Encodes.Statement (.segred w) :=
  by refine ⟨fun h => ?_, fun h => ?_, fun h => ?_⟩ <;> first | exact ⟨rfl, rfl⟩ | rfl | cases h
theorem Sys2Proof.Laws.Encodes.laneLd (w : LaneW) : Sys2Proof.Laws.Encodes.Statement (.laneLd w) :=
  by refine ⟨fun h => ?_, fun h => ?_, fun h => ?_⟩ <;> first | exact ⟨rfl, rfl⟩ | rfl | cases h
theorem Sys2Proof.Laws.Encodes.laneSt (w : LaneW) : Sys2Proof.Laws.Encodes.Statement (.laneSt w) :=
  by refine ⟨fun h => ?_, fun h => ?_, fun h => ?_⟩ <;> first | exact ⟨rfl, rfl⟩ | rfl | cases h
theorem Sys2Proof.Laws.Encodes.wlappend (w : LaneW) : Sys2Proof.Laws.Encodes.Statement (.wlappend w) :=
  by refine ⟨fun h => ?_, fun h => ?_, fun h => ?_⟩ <;> first | exact ⟨rfl, rfl⟩ | rfl | cases h
theorem Sys2Proof.Laws.Encodes.ldo (w : LaneW) : Sys2Proof.Laws.Encodes.Statement (.ldo w) :=
  by refine ⟨fun h => ?_, fun h => ?_, fun h => ?_⟩ <;> first | exact ⟨rfl, rfl⟩ | rfl | cases h
theorem Sys2Proof.Laws.Encodes.sto (w : LaneW) : Sys2Proof.Laws.Encodes.Statement (.sto w) :=
  by refine ⟨fun h => ?_, fun h => ?_, fun h => ?_⟩ <;> first | exact ⟨rfl, rfl⟩ | rfl | cases h
theorem Sys2Proof.Laws.Encodes.ldx (w : LaneW) : Sys2Proof.Laws.Encodes.Statement (.ldx w) :=
  by refine ⟨fun h => ?_, fun h => ?_, fun h => ?_⟩ <;> first | exact ⟨rfl, rfl⟩ | rfl | cases h
theorem Sys2Proof.Laws.Encodes.xst (w : LaneW) : Sys2Proof.Laws.Encodes.Statement (.xst w) :=
  by refine ⟨fun h => ?_, fun h => ?_, fun h => ?_⟩ <;> first | exact ⟨rfl, rfl⟩ | rfl | cases h
theorem Sys2Proof.Laws.Encodes.atom (w : LaneW) : Sys2Proof.Laws.Encodes.Statement (.atom w) :=
  by refine ⟨fun h => ?_, fun h => ?_, fun h => ?_⟩ <;> first | exact ⟨rfl, rfl⟩ | rfl | cases h
theorem Sys2Proof.Laws.Encodes.red (w : LaneW) : Sys2Proof.Laws.Encodes.Statement (.red w) :=
  by refine ⟨fun h => ?_, fun h => ?_, fun h => ?_⟩ <;> first | exact ⟨rfl, rfl⟩ | rfl | cases h
theorem Sys2Proof.Laws.Encodes.flush (w : LaneW) : Sys2Proof.Laws.Encodes.Statement (.flush w) :=
  by refine ⟨fun h => ?_, fun h => ?_, fun h => ?_⟩ <;> first | exact ⟨rfl, rfl⟩ | rfl | cases h
theorem Sys2Proof.Laws.Encodes.topk (w : LaneW) : Sys2Proof.Laws.Encodes.Statement (.topk w) :=
  by refine ⟨fun h => ?_, fun h => ?_, fun h => ?_⟩ <;> first | exact ⟨rfl, rfl⟩ | rfl | cases h
theorem Sys2Proof.Laws.Encodes.rkenc (w : LaneW) : Sys2Proof.Laws.Encodes.Statement (.rkenc w) :=
  by refine ⟨fun h => ?_, fun h => ?_, fun h => ?_⟩ <;> first | exact ⟨rfl, rfl⟩ | rfl | cases h
theorem Sys2Proof.Laws.Encodes.rkrec (w : LaneW) : Sys2Proof.Laws.Encodes.Statement (.rkrec w) :=
  by refine ⟨fun h => ?_, fun h => ?_, fun h => ?_⟩ <;> first | exact ⟨rfl, rfl⟩ | rfl | cases h
theorem Sys2Proof.Laws.Encodes.rktab (w : LaneW) : Sys2Proof.Laws.Encodes.Statement (.rktab w) :=
  by refine ⟨fun h => ?_, fun h => ?_, fun h => ?_⟩ <;> first | exact ⟨rfl, rfl⟩ | rfl | cases h
theorem Sys2Proof.Laws.Encodes.rkmrg (w : LaneW) : Sys2Proof.Laws.Encodes.Statement (.rkmrg w) :=
  by refine ⟨fun h => ?_, fun h => ?_, fun h => ?_⟩ <;> first | exact ⟨rfl, rfl⟩ | rfl | cases h
theorem Sys2Proof.Laws.Encodes.lbr (w : LaneW) : Sys2Proof.Laws.Encodes.Statement (.lbr w) :=
  by refine ⟨fun h => ?_, fun h => ?_, fun h => ?_⟩ <;> first | exact ⟨rfl, rfl⟩ | rfl | cases h
theorem Sys2Proof.Laws.Encodes.lbra (w : LaneW) : Sys2Proof.Laws.Encodes.Statement (.lbra w) :=
  by refine ⟨fun h => ?_, fun h => ?_, fun h => ?_⟩ <;> first | exact ⟨rfl, rfl⟩ | rfl | cases h
theorem Sys2Proof.Laws.Encodes.join (w : LaneW) : Sys2Proof.Laws.Encodes.Statement (.join w) :=
  by refine ⟨fun h => ?_, fun h => ?_, fun h => ?_⟩ <;> first | exact ⟨rfl, rfl⟩ | rfl | cases h
theorem Sys2Proof.Laws.Encodes.laneEnd (w : LaneW) : Sys2Proof.Laws.Encodes.Statement (.laneEnd w) :=
  by refine ⟨fun h => ?_, fun h => ?_, fun h => ?_⟩ <;> first | exact ⟨rfl, rfl⟩ | rfl | cases h
theorem Sys2Proof.Laws.Encodes.ltrap (w : LaneW) : Sys2Proof.Laws.Encodes.Statement (.ltrap w) :=
  by refine ⟨fun h => ?_, fun h => ?_, fun h => ?_⟩ <;> first | exact ⟨rfl, rfl⟩ | rfl | cases h
theorem Sys2Proof.Laws.Encodes.tile (w : StreamW) : Sys2Proof.Laws.Encodes.Statement (.tile w) :=
  by refine ⟨fun h => ?_, fun h => ?_, fun h => ?_⟩ <;> first | exact ⟨rfl, rfl⟩ | rfl | cases h
theorem Sys2Proof.Laws.Encodes.mcast (w : StreamW) : Sys2Proof.Laws.Encodes.Statement (.mcast w) :=
  by refine ⟨fun h => ?_, fun h => ?_, fun h => ?_⟩ <;> first | exact ⟨rfl, rfl⟩ | rfl | cases h
theorem Sys2Proof.Laws.Encodes.storeTile (w : StreamW) : Sys2Proof.Laws.Encodes.Statement (.storeTile w) :=
  by refine ⟨fun h => ?_, fun h => ?_, fun h => ?_⟩ <;> first | exact ⟨rfl, rfl⟩ | rfl | cases h
theorem Sys2Proof.Laws.Encodes.gather (w : StreamW) : Sys2Proof.Laws.Encodes.Statement (.gather w) :=
  by refine ⟨fun h => ?_, fun h => ?_, fun h => ?_⟩ <;> first | exact ⟨rfl, rfl⟩ | rfl | cases h
theorem Sys2Proof.Laws.Encodes.setReg (w : StreamW) : Sys2Proof.Laws.Encodes.Statement (.setReg w) :=
  by refine ⟨fun h => ?_, fun h => ?_, fun h => ?_⟩ <;> first | exact ⟨rfl, rfl⟩ | rfl | cases h
theorem Sys2Proof.Laws.Encodes.addc (w : StreamW) : Sys2Proof.Laws.Encodes.Statement (.addc w) :=
  by refine ⟨fun h => ?_, fun h => ?_, fun h => ?_⟩ <;> first | exact ⟨rfl, rfl⟩ | rfl | cases h
theorem Sys2Proof.Laws.Encodes.streamLoop (w : StreamW) : Sys2Proof.Laws.Encodes.Statement (.streamLoop w) :=
  by refine ⟨fun h => ?_, fun h => ?_, fun h => ?_⟩ <;> first | exact ⟨rfl, rfl⟩ | rfl | cases h
theorem Sys2Proof.Laws.Encodes.jmp (w : StreamW) : Sys2Proof.Laws.Encodes.Statement (.jmp w) :=
  by refine ⟨fun h => ?_, fun h => ?_, fun h => ?_⟩ <;> first | exact ⟨rfl, rfl⟩ | rfl | cases h
theorem Sys2Proof.Laws.Encodes.notifyStore (w : StreamW) : Sys2Proof.Laws.Encodes.Statement (.notifyStore w) :=
  by refine ⟨fun h => ?_, fun h => ?_, fun h => ?_⟩ <;> first | exact ⟨rfl, rfl⟩ | rfl | cases h
theorem Sys2Proof.Laws.Encodes.notifyAdd (w : StreamW) : Sys2Proof.Laws.Encodes.Statement (.notifyAdd w) :=
  by refine ⟨fun h => ?_, fun h => ?_, fun h => ?_⟩ <;> first | exact ⟨rfl, rfl⟩ | rfl | cases h
theorem Sys2Proof.Laws.Encodes.notifyCredit (w : StreamW) : Sys2Proof.Laws.Encodes.Statement (.notifyCredit w) :=
  by refine ⟨fun h => ?_, fun h => ?_, fun h => ?_⟩ <;> first | exact ⟨rfl, rfl⟩ | rfl | cases h
theorem Sys2Proof.Laws.Encodes.waitv (w : StreamW) : Sys2Proof.Laws.Encodes.Statement (.waitv w) :=
  by refine ⟨fun h => ?_, fun h => ?_, fun h => ?_⟩ <;> first | exact ⟨rfl, rfl⟩ | rfl | cases h
theorem Sys2Proof.Laws.Encodes.save (w : StreamW) : Sys2Proof.Laws.Encodes.Statement (.save w) :=
  by refine ⟨fun h => ?_, fun h => ?_, fun h => ?_⟩ <;> first | exact ⟨rfl, rfl⟩ | rfl | cases h
theorem Sys2Proof.Laws.Encodes.fetch (w : StreamW) : Sys2Proof.Laws.Encodes.Statement (.fetch w) :=
  by refine ⟨fun h => ?_, fun h => ?_, fun h => ?_⟩ <;> first | exact ⟨rfl, rfl⟩ | rfl | cases h
theorem Sys2Proof.Laws.Encodes.streamFence (w : StreamW) : Sys2Proof.Laws.Encodes.Statement (.streamFence w) :=
  by refine ⟨fun h => ?_, fun h => ?_, fun h => ?_⟩ <;> first | exact ⟨rfl, rfl⟩ | rfl | cases h
theorem Sys2Proof.Laws.Encodes.streamEnd (w : StreamW) : Sys2Proof.Laws.Encodes.Statement (.streamEnd w) :=
  by refine ⟨fun h => ?_, fun h => ?_, fun h => ?_⟩ <;> first | exact ⟨rfl, rfl⟩ | rfl | cases h
theorem Sys2Proof.Laws.Encodes.stackPushDone : Sys2Proof.Laws.Encodes.Statement .stackPushDone :=
  by refine ⟨fun h => ?_, fun h => ?_, fun h => ?_⟩ <;> first | exact ⟨rfl, rfl⟩ | rfl | cases h
theorem Sys2Proof.Laws.Encodes.stackPopDone : Sys2Proof.Laws.Encodes.Statement .stackPopDone :=
  by refine ⟨fun h => ?_, fun h => ?_, fun h => ?_⟩ <;> first | exact ⟨rfl, rfl⟩ | rfl | cases h
theorem Sys2Proof.Laws.Encodes.laneBlockStart : Sys2Proof.Laws.Encodes.Statement .laneBlockStart :=
  by refine ⟨fun h => ?_, fun h => ?_, fun h => ?_⟩ <;> first | exact ⟨rfl, rfl⟩ | rfl | cases h
theorem Sys2Proof.Laws.Encodes.scalarLoadReply : Sys2Proof.Laws.Encodes.Statement .scalarLoadReply :=
  by refine ⟨fun h => ?_, fun h => ?_, fun h => ?_⟩ <;> first | exact ⟨rfl, rfl⟩ | rfl | cases h
theorem Sys2Proof.Laws.Encodes.amosReply : Sys2Proof.Laws.Encodes.Statement .amosReply :=
  by refine ⟨fun h => ?_, fun h => ?_, fun h => ?_⟩ <;> first | exact ⟨rfl, rfl⟩ | rfl | cases h
theorem Sys2Proof.Laws.Encodes.laneMemoryComplete : Sys2Proof.Laws.Encodes.Statement .laneMemoryComplete :=
  by refine ⟨fun h => ?_, fun h => ?_, fun h => ?_⟩ <;> first | exact ⟨rfl, rfl⟩ | rfl | cases h
theorem Sys2Proof.Laws.Encodes.sfuComplete : Sys2Proof.Laws.Encodes.Statement .sfuComplete :=
  by refine ⟨fun h => ?_, fun h => ?_, fun h => ?_⟩ <;> first | exact ⟨rfl, rfl⟩ | rfl | cases h
theorem Sys2Proof.Laws.Encodes.crossLaneComplete : Sys2Proof.Laws.Encodes.Statement .crossLaneComplete :=
  by refine ⟨fun h => ?_, fun h => ?_, fun h => ?_⟩ <;> first | exact ⟨rfl, rfl⟩ | rfl | cases h
theorem Sys2Proof.Laws.Encodes.rankOpComplete : Sys2Proof.Laws.Encodes.Statement .rankOpComplete :=
  by refine ⟨fun h => ?_, fun h => ?_, fun h => ?_⟩ <;> first | exact ⟨rfl, rfl⟩ | rfl | cases h
theorem Sys2Proof.Laws.Encodes.trapEntry : Sys2Proof.Laws.Encodes.Statement .trapEntry :=
  by refine ⟨fun h => ?_, fun h => ?_, fun h => ?_⟩ <;> first | exact ⟨rfl, rfl⟩ | rfl | cases h
theorem Sys2Proof.Laws.Encodes.afterCompletionTrap : Sys2Proof.Laws.Encodes.Statement .afterCompletionTrap :=
  by refine ⟨fun h => ?_, fun h => ?_, fun h => ?_⟩ <;> first | exact ⟨rfl, rfl⟩ | rfl | cases h
theorem Sys2Proof.Laws.Encodes.heldCauseTrap : Sys2Proof.Laws.Encodes.Statement .heldCauseTrap :=
  by refine ⟨fun h => ?_, fun h => ?_, fun h => ?_⟩ <;> first | exact ⟨rfl, rfl⟩ | rfl | cases h
theorem Sys2Proof.Laws.Encodes.queueProtocolFault : Sys2Proof.Laws.Encodes.Statement .queueProtocolFault :=
  by refine ⟨fun h => ?_, fun h => ?_, fun h => ?_⟩ <;> first | exact ⟨rfl, rfl⟩ | rfl | cases h
theorem Sys2Proof.Laws.Encodes.translationWalk : Sys2Proof.Laws.Encodes.Statement .translationWalk :=
  by refine ⟨fun h => ?_, fun h => ?_, fun h => ?_⟩ <;> first | exact ⟨rfl, rfl⟩ | rfl | cases h
theorem Sys2Proof.Laws.Encodes.retry : Sys2Proof.Laws.Encodes.Statement .retry :=
  by refine ⟨fun h => ?_, fun h => ?_, fun h => ?_⟩ <;> first | exact ⟨rfl, rfl⟩ | rfl | cases h
theorem Sys2Proof.Laws.Encodes.deliver : Sys2Proof.Laws.Encodes.Statement .deliver :=
  by refine ⟨fun h => ?_, fun h => ?_, fun h => ?_⟩ <;> first | exact ⟨rfl, rfl⟩ | rfl | cases h
theorem Sys2Proof.Laws.Encodes.sliceRequest : Sys2Proof.Laws.Encodes.Statement .sliceRequest :=
  by refine ⟨fun h => ?_, fun h => ?_, fun h => ?_⟩ <;> first | exact ⟨rfl, rfl⟩ | rfl | cases h
theorem Sys2Proof.Laws.Encodes.replicatedFill : Sys2Proof.Laws.Encodes.Statement .replicatedFill :=
  by refine ⟨fun h => ?_, fun h => ?_, fun h => ?_⟩ <;> first | exact ⟨rfl, rfl⟩ | rfl | cases h
theorem Sys2Proof.Laws.Encodes.replicatedStore : Sys2Proof.Laws.Encodes.Statement .replicatedStore :=
  by refine ⟨fun h => ?_, fun h => ?_, fun h => ?_⟩ <;> first | exact ⟨rfl, rfl⟩ | rfl | cases h
theorem Sys2Proof.Laws.Encodes.commit : Sys2Proof.Laws.Encodes.Statement .commit :=
  by refine ⟨fun h => ?_, fun h => ?_, fun h => ?_⟩ <;> first | exact ⟨rfl, rfl⟩ | rfl | cases h
theorem Sys2Proof.Laws.Encodes.hostCxlMemRead : Sys2Proof.Laws.Encodes.Statement .hostCxlMemRead :=
  by refine ⟨fun h => ?_, fun h => ?_, fun h => ?_⟩ <;> first | exact ⟨rfl, rfl⟩ | rfl | cases h
theorem Sys2Proof.Laws.Encodes.hostCxlMemWrite : Sys2Proof.Laws.Encodes.Statement .hostCxlMemWrite :=
  by refine ⟨fun h => ?_, fun h => ?_, fun h => ?_⟩ <;> first | exact ⟨rfl, rfl⟩ | rfl | cases h
theorem Sys2Proof.Laws.Encodes.doorbell : Sys2Proof.Laws.Encodes.Statement .doorbell :=
  by refine ⟨fun h => ?_, fun h => ?_, fun h => ?_⟩ <;> first | exact ⟨rfl, rfl⟩ | rfl | cases h
theorem Sys2Proof.Laws.Encodes.queueDescriptorWrite : Sys2Proof.Laws.Encodes.Statement .queueDescriptorWrite :=
  by refine ⟨fun h => ?_, fun h => ?_, fun h => ?_⟩ <;> first | exact ⟨rfl, rfl⟩ | rfl | cases h
theorem Sys2Proof.Laws.Encodes.queueDisable : Sys2Proof.Laws.Encodes.Statement .queueDisable :=
  by refine ⟨fun h => ?_, fun h => ?_, fun h => ?_⟩ <;> first | exact ⟨rfl, rfl⟩ | rfl | cases h
theorem Sys2Proof.Laws.Encodes.queueEnable : Sys2Proof.Laws.Encodes.Statement .queueEnable :=
  by refine ⟨fun h => ?_, fun h => ?_, fun h => ?_⟩ <;> first | exact ⟨rfl, rfl⟩ | rfl | cases h
theorem Sys2Proof.Laws.Encodes.errClear : Sys2Proof.Laws.Encodes.Statement .errClear :=
  by refine ⟨fun h => ?_, fun h => ?_, fun h => ?_⟩ <;> first | exact ⟨rfl, rfl⟩ | rfl | cases h
theorem Sys2Proof.Laws.Encodes.launchRecordRead : Sys2Proof.Laws.Encodes.Statement .launchRecordRead :=
  by refine ⟨fun h => ?_, fun h => ?_, fun h => ?_⟩ <;> first | exact ⟨rfl, rfl⟩ | rfl | cases h
theorem Sys2Proof.Laws.Encodes.launchReady : Sys2Proof.Laws.Encodes.Statement .launchReady :=
  by refine ⟨fun h => ?_, fun h => ?_, fun h => ?_⟩ <;> first | exact ⟨rfl, rfl⟩ | rfl | cases h
theorem Sys2Proof.Laws.Encodes.teamPlace : Sys2Proof.Laws.Encodes.Statement .teamPlace :=
  by refine ⟨fun h => ?_, fun h => ?_, fun h => ?_⟩ <;> first | exact ⟨rfl, rfl⟩ | rfl | cases h
theorem Sys2Proof.Laws.Encodes.gangStart : Sys2Proof.Laws.Encodes.Statement .gangStart :=
  by refine ⟨fun h => ?_, fun h => ?_, fun h => ?_⟩ <;> first | exact ⟨rfl, rfl⟩ | rfl | cases h
theorem Sys2Proof.Laws.Encodes.teamRetire : Sys2Proof.Laws.Encodes.Statement .teamRetire :=
  by refine ⟨fun h => ?_, fun h => ?_, fun h => ?_⟩ <;> first | exact ⟨rfl, rfl⟩ | rfl | cases h
theorem Sys2Proof.Laws.Encodes.launchEnd : Sys2Proof.Laws.Encodes.Statement .launchEnd :=
  by refine ⟨fun h => ?_, fun h => ?_, fun h => ?_⟩ <;> first | exact ⟨rfl, rfl⟩ | rfl | cases h
theorem Sys2Proof.Laws.Encodes.msixUnmask : Sys2Proof.Laws.Encodes.Statement .msixUnmask :=
  by refine ⟨fun h => ?_, fun h => ?_, fun h => ?_⟩ <;> first | exact ⟨rfl, rfl⟩ | rfl | cases h
theorem Sys2Proof.Laws.Encodes.barrierPhaseComplete : Sys2Proof.Laws.Encodes.Statement .barrierPhaseComplete :=
  by refine ⟨fun h => ?_, fun h => ?_, fun h => ?_⟩ <;> first | exact ⟨rfl, rfl⟩ | rfl | cases h
theorem Sys2Proof.Laws.Encodes.compactionAppend : Sys2Proof.Laws.Encodes.Statement .compactionAppend :=
  by refine ⟨fun h => ?_, fun h => ?_, fun h => ?_⟩ <;> first | exact ⟨rfl, rfl⟩ | rfl | cases h
theorem Sys2Proof.Laws.Encodes.tailCommit : Sys2Proof.Laws.Encodes.Statement .tailCommit :=
  by refine ⟨fun h => ?_, fun h => ?_, fun h => ?_⟩ <;> first | exact ⟨rfl, rfl⟩ | rfl | cases h
theorem Sys2Proof.Laws.Encodes.terminationPass : Sys2Proof.Laws.Encodes.Statement .terminationPass :=
  by refine ⟨fun h => ?_, fun h => ?_, fun h => ?_⟩ <;> first | exact ⟨rfl, rfl⟩ | rfl | cases h
theorem Sys2Proof.Laws.Encodes.lineExpiry : Sys2Proof.Laws.Encodes.Statement .lineExpiry :=
  by refine ⟨fun h => ?_, fun h => ?_, fun h => ?_⟩ <;> first | exact ⟨rfl, rfl⟩ | rfl | cases h
theorem Sys2Proof.Laws.Encodes.eviction : Sys2Proof.Laws.Encodes.Statement .eviction :=
  by refine ⟨fun h => ?_, fun h => ?_, fun h => ?_⟩ <;> first | exact ⟨rfl, rfl⟩ | rfl | cases h
theorem Sys2Proof.Laws.Encodes.teamReturn : Sys2Proof.Laws.Encodes.Statement .teamReturn :=
  by refine ⟨fun h => ?_, fun h => ?_, fun h => ?_⟩ <;> first | exact ⟨rfl, rfl⟩ | rfl | cases h
theorem Sys2Proof.Laws.Encodes.preemptionDone : Sys2Proof.Laws.Encodes.Statement .preemptionDone :=
  by refine ⟨fun h => ?_, fun h => ?_, fun h => ?_⟩ <;> first | exact ⟨rfl, rfl⟩ | rfl | cases h
theorem Sys2Proof.Laws.Encodes.teamSave : Sys2Proof.Laws.Encodes.Statement .teamSave :=
  by refine ⟨fun h => ?_, fun h => ?_, fun h => ?_⟩ <;> first | exact ⟨rfl, rfl⟩ | rfl | cases h
theorem Sys2Proof.Laws.Encodes.nprOverrun : Sys2Proof.Laws.Encodes.Statement .nprOverrun :=
  by refine ⟨fun h => ?_, fun h => ?_, fun h => ?_⟩ <;> first | exact ⟨rfl, rfl⟩ | rfl | cases h
theorem Sys2Proof.Laws.Encodes.abwaitTLimit : Sys2Proof.Laws.Encodes.Statement .abwaitTLimit :=
  by refine ⟨fun h => ?_, fun h => ?_, fun h => ?_⟩ <;> first | exact ⟨rfl, rfl⟩ | rfl | cases h
theorem Sys2Proof.Laws.Encodes.dieLoss : Sys2Proof.Laws.Encodes.Statement .dieLoss :=
  by refine ⟨fun h => ?_, fun h => ?_, fun h => ?_⟩ <;> first | exact ⟨rfl, rfl⟩ | rfl | cases h
theorem Sys2Proof.Laws.Encodes.basinLoss : Sys2Proof.Laws.Encodes.Statement .basinLoss :=
  by refine ⟨fun h => ?_, fun h => ?_, fun h => ?_⟩ <;> first | exact ⟨rfl, rfl⟩ | rfl | cases h
theorem Sys2Proof.Laws.Encodes.colDieLoss : Sys2Proof.Laws.Encodes.Statement .colDieLoss :=
  by refine ⟨fun h => ?_, fun h => ?_, fun h => ?_⟩ <;> first | exact ⟨rfl, rfl⟩ | rfl | cases h
theorem Sys2Proof.Laws.Encodes.hostLinkDown : Sys2Proof.Laws.Encodes.Statement .hostLinkDown :=
  by refine ⟨fun h => ?_, fun h => ?_, fun h => ?_⟩ <;> first | exact ⟨rfl, rfl⟩ | rfl | cases h
theorem Sys2Proof.Laws.Encodes.hostLinkUp : Sys2Proof.Laws.Encodes.Statement .hostLinkUp :=
  by refine ⟨fun h => ?_, fun h => ?_, fun h => ?_⟩ <;> first | exact ⟨rfl, rfl⟩ | rfl | cases h
theorem Sys2Proof.Laws.Encodes.tileClaimGrant : Sys2Proof.Laws.Encodes.Statement .tileClaimGrant :=
  by refine ⟨fun h => ?_, fun h => ?_, fun h => ?_⟩ <;> first | exact ⟨rfl, rfl⟩ | rfl | cases h
theorem Sys2Proof.Laws.Encodes.matrixStep : Sys2Proof.Laws.Encodes.Statement .matrixStep :=
  by refine ⟨fun h => ?_, fun h => ?_, fun h => ?_⟩ <;> first | exact ⟨rfl, rfl⟩ | rfl | cases h
theorem Sys2Proof.Laws.Encodes.matrixCommandComplete : Sys2Proof.Laws.Encodes.Statement .matrixCommandComplete :=
  by refine ⟨fun h => ?_, fun h => ?_, fun h => ?_⟩ <;> first | exact ⟨rfl, rfl⟩ | rfl | cases h
theorem Sys2Proof.Laws.Encodes.skickSlotGrant : Sys2Proof.Laws.Encodes.Statement .skickSlotGrant :=
  by refine ⟨fun h => ?_, fun h => ?_, fun h => ?_⟩ <;> first | exact ⟨rfl, rfl⟩ | rfl | cases h
theorem Sys2Proof.Laws.Encodes.streamCommandStart : Sys2Proof.Laws.Encodes.Statement .streamCommandStart :=
  by refine ⟨fun h => ?_, fun h => ?_, fun h => ?_⟩ <;> first | exact ⟨rfl, rfl⟩ | rfl | cases h
theorem Sys2Proof.Laws.Encodes.streamChunk : Sys2Proof.Laws.Encodes.Statement .streamChunk :=
  by refine ⟨fun h => ?_, fun h => ?_, fun h => ?_⟩ <;> first | exact ⟨rfl, rfl⟩ | rfl | cases h
theorem Sys2Proof.Laws.Encodes.streamCommandComplete : Sys2Proof.Laws.Encodes.Statement .streamCommandComplete :=
  by refine ⟨fun h => ?_, fun h => ?_, fun h => ?_⟩ <;> first | exact ⟨rfl, rfl⟩ | rfl | cases h
theorem Sys2Proof.Laws.Encodes.programStop : Sys2Proof.Laws.Encodes.Statement .programStop :=
  by refine ⟨fun h => ?_, fun h => ?_, fun h => ?_⟩ <;> first | exact ⟨rfl, rfl⟩ | rfl | cases h
theorem Sys2Proof.Laws.Encodes.waitvReread : Sys2Proof.Laws.Encodes.Statement .waitvReread :=
  by refine ⟨fun h => ?_, fun h => ?_, fun h => ?_⟩ <;> first | exact ⟨rfl, rfl⟩ | rfl | cases h
theorem Sys2Proof.Laws.Encodes.nvmeCompletion : Sys2Proof.Laws.Encodes.Statement .nvmeCompletion :=
  by refine ⟨fun h => ?_, fun h => ?_, fun h => ?_⟩ <;> first | exact ⟨rfl, rfl⟩ | rfl | cases h
theorem Sys2Proof.Laws.Encodes.scopyComplete : Sys2Proof.Laws.Encodes.Statement .scopyComplete :=
  by refine ⟨fun h => ?_, fun h => ?_, fun h => ?_⟩ <;> first | exact ⟨rfl, rfl⟩ | rfl | cases h
theorem Sys2Proof.Laws.Encodes.collComplete : Sys2Proof.Laws.Encodes.Statement .collComplete :=
  by refine ⟨fun h => ?_, fun h => ?_, fun h => ?_⟩ <;> first | exact ⟨rfl, rfl⟩ | rfl | cases h
theorem Sys2Proof.Laws.Encodes.collAbort : Sys2Proof.Laws.Encodes.Statement .collAbort :=
  by refine ⟨fun h => ?_, fun h => ?_, fun h => ?_⟩ <;> first | exact ⟨rfl, rfl⟩ | rfl | cases h
theorem Sys2Proof.Laws.Encodes.collMessage : Sys2Proof.Laws.Encodes.Statement .collMessage :=
  by refine ⟨fun h => ?_, fun h => ?_, fun h => ?_⟩ <;> first | exact ⟨rfl, rfl⟩ | rfl | cases h
theorem Sys2Proof.Laws.Encodes.abortMessage : Sys2Proof.Laws.Encodes.Statement .abortMessage :=
  by refine ⟨fun h => ?_, fun h => ?_, fun h => ?_⟩ <;> first | exact ⟨rfl, rfl⟩ | rfl | cases h
theorem Sys2Proof.Laws.Encodes.managementMessage : Sys2Proof.Laws.Encodes.Statement .managementMessage :=
  by refine ⟨fun h => ?_, fun h => ?_, fun h => ?_⟩ <;> first | exact ⟨rfl, rfl⟩ | rfl | cases h
theorem Sys2Proof.Laws.Encodes.denialMessage : Sys2Proof.Laws.Encodes.Statement .denialMessage :=
  by refine ⟨fun h => ?_, fun h => ?_, fun h => ?_⟩ <;> first | exact ⟨rfl, rfl⟩ | rfl | cases h
theorem Sys2Proof.Laws.Encodes.class0Message : Sys2Proof.Laws.Encodes.Statement .class0Message :=
  by refine ⟨fun h => ?_, fun h => ?_, fun h => ?_⟩ <;> first | exact ⟨rfl, rfl⟩ | rfl | cases h
theorem Sys2Proof.Laws.Encodes.flitReceive : Sys2Proof.Laws.Encodes.Statement .flitReceive :=
  by refine ⟨fun h => ?_, fun h => ?_, fun h => ?_⟩ <;> first | exact ⟨rfl, rfl⟩ | rfl | cases h
theorem Sys2Proof.Laws.Encodes.nak : Sys2Proof.Laws.Encodes.Statement .nak :=
  by refine ⟨fun h => ?_, fun h => ?_, fun h => ?_⟩ <;> first | exact ⟨rfl, rfl⟩ | rfl | cases h
theorem Sys2Proof.Laws.Encodes.ack : Sys2Proof.Laws.Encodes.Statement .ack :=
  by refine ⟨fun h => ?_, fun h => ?_, fun h => ?_⟩ <;> first | exact ⟨rfl, rfl⟩ | rfl | cases h
theorem Sys2Proof.Laws.Encodes.ackSend : Sys2Proof.Laws.Encodes.Statement .ackSend :=
  by refine ⟨fun h => ?_, fun h => ?_, fun h => ?_⟩ <;> first | exact ⟨rfl, rfl⟩ | rfl | cases h
theorem Sys2Proof.Laws.Encodes.stripe : Sys2Proof.Laws.Encodes.Statement .stripe :=
  by refine ⟨fun h => ?_, fun h => ?_, fun h => ?_⟩ <;> first | exact ⟨rfl, rfl⟩ | rfl | cases h
theorem Sys2Proof.Laws.Encodes.train : Sys2Proof.Laws.Encodes.Statement .train :=
  by refine ⟨fun h => ?_, fun h => ?_, fun h => ?_⟩ <;> first | exact ⟨rfl, rfl⟩ | rfl | cases h
theorem Sys2Proof.Laws.Encodes.ready : Sys2Proof.Laws.Encodes.Statement .ready :=
  by refine ⟨fun h => ?_, fun h => ?_, fun h => ?_⟩ <;> first | exact ⟨rfl, rfl⟩ | rfl | cases h
theorem Sys2Proof.Laws.Encodes.permit : Sys2Proof.Laws.Encodes.Statement .permit :=
  by refine ⟨fun h => ?_, fun h => ?_, fun h => ?_⟩ <;> first | exact ⟨rfl, rfl⟩ | rfl | cases h
theorem Sys2Proof.Laws.Encodes.portLinkDown : Sys2Proof.Laws.Encodes.Statement .portLinkDown :=
  by refine ⟨fun h => ?_, fun h => ?_, fun h => ?_⟩ <;> first | exact ⟨rfl, rfl⟩ | rfl | cases h
theorem Sys2Proof.Laws.Encodes.peerSilenceTimeout : Sys2Proof.Laws.Encodes.Statement .peerSilenceTimeout :=
  by refine ⟨fun h => ?_, fun h => ?_, fun h => ?_⟩ <;> first | exact ⟨rfl, rfl⟩ | rfl | cases h
theorem Sys2Proof.Laws.Encodes.parkRequest : Sys2Proof.Laws.Encodes.Statement .parkRequest :=
  by refine ⟨fun h => ?_, fun h => ?_, fun h => ?_⟩ <;> first | exact ⟨rfl, rfl⟩ | rfl | cases h
theorem Sys2Proof.Laws.Encodes.wakeRequest : Sys2Proof.Laws.Encodes.Statement .wakeRequest :=
  by refine ⟨fun h => ?_, fun h => ?_, fun h => ?_⟩ <;> first | exact ⟨rfl, rfl⟩ | rfl | cases h
theorem Sys2Proof.Laws.Encodes.wakeDone : Sys2Proof.Laws.Encodes.Statement .wakeDone :=
  by refine ⟨fun h => ?_, fun h => ?_, fun h => ?_⟩ <;> first | exact ⟨rfl, rfl⟩ | rfl | cases h
theorem Sys2Proof.Laws.Encodes.serviceAnswer : Sys2Proof.Laws.Encodes.Statement .serviceAnswer :=
  by refine ⟨fun h => ?_, fun h => ?_, fun h => ?_⟩ <;> first | exact ⟨rfl, rfl⟩ | rfl | cases h
theorem Sys2Proof.Laws.Encodes.modeWrite : Sys2Proof.Laws.Encodes.Statement .modeWrite :=
  by refine ⟨fun h => ?_, fun h => ?_, fun h => ?_⟩ <;> first | exact ⟨rfl, rfl⟩ | rfl | cases h
theorem Sys2Proof.Laws.Encodes.plimWrite : Sys2Proof.Laws.Encodes.Statement .plimWrite :=
  by refine ⟨fun h => ?_, fun h => ?_, fun h => ?_⟩ <;> first | exact ⟨rfl, rfl⟩ | rfl | cases h
theorem Sys2Proof.Laws.Encodes.registerWrite : Sys2Proof.Laws.Encodes.Statement .registerWrite :=
  by refine ⟨fun h => ?_, fun h => ?_, fun h => ?_⟩ <;> first | exact ⟨rfl, rfl⟩ | rfl | cases h
theorem Sys2Proof.Laws.Encodes.ctxcreate : Sys2Proof.Laws.Encodes.Statement .ctxcreate :=
  by refine ⟨fun h => ?_, fun h => ?_, fun h => ?_⟩ <;> first | exact ⟨rfl, rfl⟩ | rfl | cases h
theorem Sys2Proof.Laws.Encodes.ctxend : Sys2Proof.Laws.Encodes.Statement .ctxend :=
  by refine ⟨fun h => ?_, fun h => ?_, fun h => ?_⟩ <;> first | exact ⟨rfl, rfl⟩ | rfl | cases h
theorem Sys2Proof.Laws.Encodes.xinv : Sys2Proof.Laws.Encodes.Statement .xinv :=
  by refine ⟨fun h => ?_, fun h => ?_, fun h => ?_⟩ <;> first | exact ⟨rfl, rfl⟩ | rfl | cases h
theorem Sys2Proof.Laws.Encodes.preempt : Sys2Proof.Laws.Encodes.Statement .preempt :=
  by refine ⟨fun h => ?_, fun h => ?_, fun h => ?_⟩ <;> first | exact ⟨rfl, rfl⟩ | rfl | cases h
theorem Sys2Proof.Laws.Encodes.resume : Sys2Proof.Laws.Encodes.Statement .resume :=
  by refine ⟨fun h => ?_, fun h => ?_, fun h => ?_⟩ <;> first | exact ⟨rfl, rfl⟩ | rfl | cases h
theorem Sys2Proof.Laws.Encodes.kill : Sys2Proof.Laws.Encodes.Statement .kill :=
  by refine ⟨fun h => ?_, fun h => ?_, fun h => ?_⟩ <;> first | exact ⟨rfl, rfl⟩ | rfl | cases h
theorem Sys2Proof.Laws.Encodes.teamgo : Sys2Proof.Laws.Encodes.Statement .teamgo :=
  by refine ⟨fun h => ?_, fun h => ?_, fun h => ?_⟩ <;> first | exact ⟨rfl, rfl⟩ | rfl | cases h
theorem Sys2Proof.Laws.Encodes.migrate : Sys2Proof.Laws.Encodes.Statement .migrate :=
  by refine ⟨fun h => ?_, fun h => ?_, fun h => ?_⟩ <;> first | exact ⟨rfl, rfl⟩ | rfl | cases h
theorem Sys2Proof.Laws.Encodes.touch : Sys2Proof.Laws.Encodes.Statement .touch :=
  by refine ⟨fun h => ?_, fun h => ?_, fun h => ?_⟩ <;> first | exact ⟨rfl, rfl⟩ | rfl | cases h
theorem Sys2Proof.Laws.Encodes.nsdef : Sys2Proof.Laws.Encodes.Statement .nsdef :=
  by refine ⟨fun h => ?_, fun h => ?_, fun h => ?_⟩ <;> first | exact ⟨rfl, rfl⟩ | rfl | cases h
theorem Sys2Proof.Laws.Encodes.atset : Sys2Proof.Laws.Encodes.Statement .atset :=
  by refine ⟨fun h => ?_, fun h => ?_, fun h => ?_⟩ <;> first | exact ⟨rfl, rfl⟩ | rfl | cases h
theorem Sys2Proof.Laws.Encodes.tagrd : Sys2Proof.Laws.Encodes.Statement .tagrd :=
  by refine ⟨fun h => ?_, fun h => ?_, fun h => ?_⟩ <;> first | exact ⟨rfl, rfl⟩ | rfl | cases h
theorem Sys2Proof.Laws.Encodes.poisonclr : Sys2Proof.Laws.Encodes.Statement .poisonclr :=
  by refine ⟨fun h => ?_, fun h => ?_, fun h => ?_⟩ <;> first | exact ⟨rfl, rfl⟩ | rfl | cases h
theorem Sys2Proof.Laws.Encodes.lossrel : Sys2Proof.Laws.Encodes.Statement .lossrel :=
  by refine ⟨fun h => ?_, fun h => ?_, fun h => ?_⟩ <;> first | exact ⟨rfl, rfl⟩ | rfl | cases h
theorem Sys2Proof.Laws.Encodes.portfail : Sys2Proof.Laws.Encodes.Statement .portfail :=
  by refine ⟨fun h => ?_, fun h => ?_, fun h => ?_⟩ <;> first | exact ⟨rfl, rfl⟩ | rfl | cases h
theorem Sys2Proof.Laws.Encodes.portset : Sys2Proof.Laws.Encodes.Statement .portset :=
  by refine ⟨fun h => ?_, fun h => ?_, fun h => ?_⟩ <;> first | exact ⟨rfl, rfl⟩ | rfl | cases h
theorem Sys2Proof.Laws.Encodes.unknownCmd : Sys2Proof.Laws.Encodes.Statement .unknownCmd :=
  by refine ⟨fun h => ?_, fun h => ?_, fun h => ?_⟩ <;> first | exact ⟨rfl, rfl⟩ | rfl | cases h
theorem Sys2Proof.Laws.Encodes.packageReset : Sys2Proof.Laws.Encodes.Statement .packageReset :=
  by refine ⟨fun h => ?_, fun h => ?_, fun h => ?_⟩ <;> first | exact ⟨rfl, rfl⟩ | rfl | cases h
theorem Sys2Proof.Laws.Encodes.measurementExtend : Sys2Proof.Laws.Encodes.Statement .measurementExtend :=
  by refine ⟨fun h => ?_, fun h => ?_, fun h => ?_⟩ <;> first | exact ⟨rfl, rfl⟩ | rfl | cases h
theorem Sys2Proof.Laws.Encodes.attestationRequest : Sys2Proof.Laws.Encodes.Statement .attestationRequest :=
  by refine ⟨fun h => ?_, fun h => ?_, fun h => ?_⟩ <;> first | exact ⟨rfl, rfl⟩ | rfl | cases h
theorem Sys2Proof.Laws.Encodes.attestationReport : Sys2Proof.Laws.Encodes.Statement .attestationReport :=
  by refine ⟨fun h => ?_, fun h => ?_, fun h => ?_⟩ <;> first | exact ⟨rfl, rfl⟩ | rfl | cases h
theorem Sys2Proof.Laws.Encodes.powerThrottleStep : Sys2Proof.Laws.Encodes.Statement .powerThrottleStep :=
  by refine ⟨fun h => ?_, fun h => ?_, fun h => ?_⟩ <;> first | exact ⟨rfl, rfl⟩ | rfl | cases h
theorem Sys2Proof.Laws.Encodes.thermalThreshold : Sys2Proof.Laws.Encodes.Statement .thermalThreshold :=
  by refine ⟨fun h => ?_, fun h => ?_, fun h => ?_⟩ <;> first | exact ⟨rfl, rfl⟩ | rfl | cases h
theorem Sys2Proof.Laws.Encodes.thermalClockStep : Sys2Proof.Laws.Encodes.Statement .thermalClockStep :=
  by refine ⟨fun h => ?_, fun h => ?_, fun h => ?_⟩ <;> first | exact ⟨rfl, rfl⟩ | rfl | cases h
theorem Sys2Proof.Laws.Encodes.tierShutdown : Sys2Proof.Laws.Encodes.Statement .tierShutdown :=
  by refine ⟨fun h => ?_, fun h => ?_, fun h => ?_⟩ <;> first | exact ⟨rfl, rfl⟩ | rfl | cases h
theorem Sys2Proof.Laws.Encodes.regionPowerOff : Sys2Proof.Laws.Encodes.Statement .regionPowerOff :=
  by refine ⟨fun h => ?_, fun h => ?_, fun h => ?_⟩ <;> first | exact ⟨rfl, rfl⟩ | rfl | cases h
theorem Sys2Proof.Laws.Encodes.operandUncorrectable : Sys2Proof.Laws.Encodes.Statement .operandUncorrectable :=
  by refine ⟨fun h => ?_, fun h => ?_, fun h => ?_⟩ <;> first | exact ⟨rfl, rfl⟩ | rfl | cases h
theorem Sys2Proof.Laws.Encodes.memoryUncorrectable : Sys2Proof.Laws.Encodes.Statement .memoryUncorrectable :=
  by refine ⟨fun h => ?_, fun h => ?_, fun h => ?_⟩ <;> first | exact ⟨rfl, rfl⟩ | rfl | cases h
theorem Sys2Proof.Laws.Encodes.beatCrcFail : Sys2Proof.Laws.Encodes.Statement .beatCrcFail :=
  by refine ⟨fun h => ?_, fun h => ?_, fun h => ?_⟩ <;> first | exact ⟨rfl, rfl⟩ | rfl | cases h
theorem Sys2Proof.Laws.Encodes.tierTestYield : Sys2Proof.Laws.Encodes.Statement .tierTestYield :=
  by refine ⟨fun h => ?_, fun h => ?_, fun h => ?_⟩ <;> first | exact ⟨rfl, rfl⟩ | rfl | cases h
theorem Sys2Proof.Laws.Encodes.unassignedEncoding : Sys2Proof.Laws.Encodes.Statement .unassignedEncoding :=
  by refine ⟨fun h => ?_, fun h => ?_, fun h => ?_⟩ <;> first | exact ⟨rfl, rfl⟩ | rfl | cases h
theorem Sys2Proof.Laws.Encodes.instructionFetchFault : Sys2Proof.Laws.Encodes.Statement .instructionFetchFault :=
  by refine ⟨fun h => ?_, fun h => ?_, fun h => ?_⟩ <;> first | exact ⟨rfl, rfl⟩ | rfl | cases h
theorem Sys2Proof.Laws.Encodes.clusterAtomicMessage : Sys2Proof.Laws.Encodes.Statement .clusterAtomicMessage :=
  by refine ⟨fun h => ?_, fun h => ?_, fun h => ?_⟩ <;> first | exact ⟨rfl, rfl⟩ | rfl | cases h
theorem Sys2Proof.Laws.Encodes.dieCacheEviction : Sys2Proof.Laws.Encodes.Statement .dieCacheEviction :=
  by refine ⟨fun h => ?_, fun h => ?_, fun h => ?_⟩ <;> first | exact ⟨rfl, rfl⟩ | rfl | cases h
theorem Sys2Proof.Laws.Encodes.portComesUp : Sys2Proof.Laws.Encodes.Statement .portComesUp :=
  by refine ⟨fun h => ?_, fun h => ?_, fun h => ?_⟩ <;> first | exact ⟨rfl, rfl⟩ | rfl | cases h
theorem Sys2Proof.Laws.Encodes.trainPeriodEnd : Sys2Proof.Laws.Encodes.Statement .trainPeriodEnd :=
  by refine ⟨fun h => ?_, fun h => ?_, fun h => ?_⟩ <;> first | exact ⟨rfl, rfl⟩ | rfl | cases h
theorem Sys2Proof.Laws.Encodes.regionReturnToService : Sys2Proof.Laws.Encodes.Statement .regionReturnToService :=
  by refine ⟨fun h => ?_, fun h => ?_, fun h => ?_⟩ <;> first | exact ⟨rfl, rfl⟩ | rfl | cases h
end

