-- ==== Sys2Proof/Laws/Scalar.lean ====
section
/-! SUPPORT. What the shared meanings of the scalar instructions do. -/

namespace Sys2Proof.Machine

/-- An instruction of two sources completes (R108, R110). -/
theorem alu2_next {s s' : State} {d a b : BitVec 6} {f : W64 → W64 → W64} {x y : W64} (r : s.isRes s.cur = true)
    (h : s.source2 a b = some (x, y, s')) (t : s'.takes d = true) :
    alu2 d a b f s = .next ((s'.dest d (f x y)).endScalar (s.me.pc + 4)) := by
  obtain ⟨s1, h1, h2⟩ := source2_of h
  have hp := portsOk_source2 h (dsts := [d]) (by simpa using takes_source2 h d ▸ t)
  unfold alu2
  rw [scalar_next (t := s'.dest d (f x y)) (o := { pc := s.me.pc + 4 }) r _ (by simp [source2_cur h]) (by simp [source2_stepNo h]) rfl]
  simp [hp, readSrc_of_source h1, readSrc_of_source h2, writeDst_of_takes t, source_pc h1, source_pc h2]

/-- An instruction of one source completes (R108, R110). -/
theorem alu1_next {s s' : State} {d a : BitVec 6} {f : W64 → W64} {x : W64} (r : s.isRes s.cur = true)
    (h1 : s.source a = some (x, s')) (t : s'.takes d = true) :
    alu1 d a f s = .next ((s'.dest d (f x)).endScalar (s.me.pc + 4)) := by
  have hp := portsOk_source h1 (dsts := [d]) (by simpa using takes_source h1 d ▸ t)
  unfold alu1
  rw [scalar_next (t := s'.dest d (f x)) (o := { pc := s.me.pc + 4 }) r _ (by simp [source_cur h1]) (by simp [source_stepNo h1]) rfl]
  simp [hp, readSrc_of_source h1, writeDst_of_takes t, source_pc h1]

/-- A division completes, or traps after it with an enabled condition (R28, R110). -/
theorem divide_next {s s' : State} {d a b : BitVec 6} {f : W64 → W64 → W64 × Conds} {x y : W64} (r : s.isRes s.cur = true)
    (h : s.source2 a b = some (x, y, s')) (t : s'.takes d = true) (v : W64) (c : Conds) (e : f x y = (v, c)) :
    divide d a b f s = .next (((s'.dest d v).sticky c).endWith c s.me.pc (s.me.pc + 4)) := by
  obtain ⟨s1, h1, h2⟩ := source2_of h
  have hp := portsOk_source2 h (dsts := [d]) (by simpa using takes_source2 h d ▸ t)
  unfold divide
  rw [scalar_done (t := (s'.dest d v).sticky c) (o := { pc := s.me.pc + 4, acm := c &&& (s'.dest d v).me.enabled }) r _ (by simp [source2_cur h]) (by simp [source2_stepNo h])]
  · simp only [State.endWith, State.sticky_enabled, State.sticky_cur, State.dest_cur, source2_cur h, State.sticky_curWord, State.dest_curWord, source_curWord h1, source_curWord h2]
  · simp [hp, readSrc_of_source h1, readSrc_of_source h2, e, writeDst_of_takes t, source_pc h1, source_pc h2]

/-- An instruction without a source writes d and completes. -/
theorem write_next {s : State} {d : BitVec 6} {v : W64} {body : M SOut} (r : s.isRes s.cur = true) (t : s.takes d = true)
    (h : portsOk [] [d] s = .ok ((), s) → writeDst d v s = .ok ((), s.dest d v) → body s = .ok ({ pc := s.me.pc + 4 }, s.dest d v)) :
    scalar body s = .next ((s.dest d v).endScalar (s.me.pc + 4)) :=
  scalar_next (t := s.dest d v) (o := { pc := s.me.pc + 4 }) r (h (portsOk_source0 (dsts := [d]) (by simpa using t)) (writeDst_of_takes t)) (by simp) (by simp) rfl

/-- A target relative to the PC (R116). -/
theorem relTarget_eq (pc : W64) (n : Nat) (o : BitVec n) : relTarget pc n o = pc + o.signExtend 64 * 4 := by
  unfold relTarget
  congr 1
  generalize o.signExtend 64 = v
  apply BitVec.eq_of_toNat_eq
  simp [Nat.shiftLeft_eq]

end Sys2Proof.Machine
end

