-- ==== Sys2Proof/Tests/Slice0.lean ====
section
/-! SUPPORT. Tests: ill-formed terms refused, words decoded, and, for every statement, states and operands that meet its hypotheses, with its conclusion evaluated on them. Expected values are the spec's (the rule is named with the statement) or worked out by hand from it. -/

open Sys2Proof Sys2Proof.Machine

set_option maxRecDepth 100000
set_option Elab.async false

namespace Sys2Proof.Tests

/-- A package with one context, one team of one strand on core 0, and one page of memory, as the placing of an instruction makes it. -/
def one : State := State.reset.placeScalar 0
/-- It with changes to the strand. -/
def withSt (f : Strand → Strand) : State := one.modStrand 0 f
/-- It with values in registers, the scalar stream at byte 0x40. -/
def regs (l : List (Nat × W64)) : State := withSt fun st => { st with a := l, pc := 0x40, segs := { st.segs with g := { base := 0, len := 0x1000 } } }
/-- An outcome that is a given next state. -/
def nextIs (o : Out) (t : State) : Bool := match o with
  | .next u => decide (u = t)
  | _ => false
/-- A computation that goes on, with what is asked of its result. -/
def okAnd {α : Type} (r : Except Stop (α × State)) (f : α → State → Bool) : Bool := match r with
  | .ok (x, t) => f x t
  | .error _ => false
/-- A lane word with all fields 0. -/
def noW : LaneW := { ty := 0, md := 0, dist := 0, g := 0, gn := 0, vd := 0, va := 0, vb := 0, vc := 0, im := 0, low := 0 }
/-- The team with a change. -/
def withTeam (s : State) (f : Team → Team) : State := s.modTeam 0 f
/-- The strand with an O segment of 4 KiB at byte 0 of the store, and an X segment, in a team that has them. -/
def oseg (l : List (Nat × W64)) : State :=
  withTeam (withSt fun st => { st with a := l, segs := { st.segs with g := { base := 0, len := 0x1000 }, o := { base := 0, len := 0x1000 }, x := { base := 0x1000, len := 0x200 } } })
    fun t => { t with obase := 0, tseg := 0x1000, xbase := 0x1000, blk := { t.blk with window := 0x200 } }
/-- The same package with its strand's lane side A inside a clause of one instruction, all lanes live, flags f0 and f1, and changes to the strand. -/
def lanes1 (f : Strand → Strand) : State := (State.reset.placeLane 0).modStrand 0 f
/-- Only lanes 0, 1 and 63 live. -/
def lanes3 (f : Strand → Strand) : State := (lanes1 f).modStrand 0 fun st => { st with lane := { st.lane with a := { st.lane.a with mask := 0x8000000000000003 } } }
/-- What laneHas asks, for what a reading gives. -/
def hasOps {α : Type} (s : State) (w : LaneW) (srcs dsts : List (BitVec 10)) (rd : LaneIn → M α) (f : α → State → Bool) : Bool :=
  s.isRes s.cur && !(s.strand s.cur).condsKnown (s.laneIn w).t
  && okAnd (laneRegs (s.laneIn w) srcs dsts (s.laneStart w)) (fun _ t => decide (t = s.laneStart w))
  && okAnd (rd (s.laneIn w) (s.laneStart w)) fun r u => (dsts.all fun d => okAnd (roomFor d (s.act w) u) fun _ t => decide (t = u)) && f r u
/-- Two live lanes with offsets 0x20 and 0x24 in v1, data in v2, G and O segments. -/
def lm : State :=
  let s := (lanes1 fun st => { st with
    segs := { st.segs with g := { base := 0, len := 0x1000 }, o := { base := 0, len := 0x1000 }, x := { base := 0x1000, len := 0x200 } }
    v := [(vKey 1 0, 0x20), (vKey 1 1, 0x24), (vKey 2 0, 0x1234), (vKey 2 1, 0x5678)]
    lane := { st.lane with a := { st.lane.a with mask := 3 } } }).modTeam 0 fun t => { t with xbase := 0x1000, tseg := 0x1000, blk := { t.blk with window := 0x200 } }
  { s with hbm := memPutAll s.hbm 0x20 [0x81, 0x82, 0, 0, 0xFF] }
def wl (aux : BitVec 16) : LaneW := { noW with ty := 7, va := 1, low := 0x4000000 ||| aux.setWidth 32 }
/-- A work list at virtual 0x40 with a ring of 16 at 0x200, a group at 0x80 of 3 producers, and two items, 9 and 8. -/
def list2 (f : Strand → Strand) : State :=
  let pg : TlbEntry := { ppage := 0, r := true, w := true, x := true, policy := polNC }
  { withSt (fun st => f { st with a := [(1, 0x40), (2, 0x80)], segs := { st.segs with g := { base := 0, len := 0x1000 } } }) with
    tlb := [(tlbKey 0 0 0, pg), (tlbKey 8 0 0, pg)]
    hbm := [(0x41, 2), (0x48, 4), (0x50, 0x80), (0x60, 2), (0x68, 2), (0x80, 3), (0x200, 9), (0x204, 8)] }
/-- A stream program at virtual 0x2000 in slot 0 of engine 0, kicked by the strand, with stream registers. -/
def prog1 (c : List (Nat × W64)) : State :=
  let s := State.reset.placeStream 0
  { s with progs := mmod s.progs 0 fun p => { p with c := c, pc := 0x2000, start := 0x2000 } }

/-! ### Well-formedness -/

/-- For each check of a scalar word, a term that breaks it: reserved registers 56 to 62 (R45), segments and sizes (R113), CSRs that do not exist or cannot be written (R106), conditions, flags, scopes, barriers, groups. -/
theorem test_wf_refuses_scalar :
    ([.add 56 0 0, .add 0 57 0, .add 0 0 62, .popc 56 0, .popc 0 56, .addi 60 0 0, .addi 0 60 0, .shli 61 0 0, .lih 56 0,
      .ld 56 0 0 0 0 0, .ld 0 56 0 0 0 0, .ld 0 0 6 0 0 0, .ld 0 0 0 3 1 0, .st 56 0 0 0 0, .st 0 0 6 0 0,
      .csrr 56 0, .csrr 0 0x00E, .csrr 0 0x012, .csrw 56 0x020, .csrw 0 0x000, .csrw 0 0x025, .csrs 0 0x028, .csrc 0 0x02B,
      .bcc 56 0 0 0, .bcc 0 0 6 0, .jr 56, .jalr 56 0, .jalr 0 56, .loop 0 0, .loop 48 0, .disp 56 0,
      .vgetV 56 0 0, .vgetV 0 56 0, .vgetV 0 0 971, .vsetV 0 0 1000, .vgetK 56 0 0, .vsetK 0 56 0, .fwait 12, .fwait 15,
      .fenceAcq 6, .fenceRel 7, .fenceAr 6, .bar 1 4, .bara 2 2, .barw 3 0, .mxcfgSet 0 56, .mxcfgStat 56 0] : List Instr).all (fun i => !i.wf) = true := by decide +kernel
/-- The same for the engines' words, handles, services and the other checks. -/
theorem test_wf_refuses_scalar2 :
    ([.mxloop 0 0 1 0 0 0, .mxloop 0 43 1 0 0 0, .mxloop 0 10 0 0 0 0, .mxloop 0 10 48 0 0 0, .mxloop 0 10 1 12 0 0, .mxloop 0 10 1 0 0 3, .mxsp 0 41 1 0 0 0,
      .mxrk 0 45 0 0 0, .mxrk 0 10 56 0 0, .mxst 0 0 0 0 48 0 0 0, .mxst 0 0 0 0 0 55 0 0, .mxst 0 0 0 0 0 0 12 0, .mxst 0 0 0 0 0 0 0 5, .mxst 1 0 0 0 0 0 0 0, .mxstZero 0 0 14,
      .skickH 56 10 0 0 0, .skickE 0 46 0 0 0, .skickH 0 10 56 0 0, .skickE 0 10 0 13 0, .scopyLd 0 0 0 0 0, .scopySt 0 10 12 0 0, .sstat 56 0, .sstatCancel 0 56,
      .abinit 56 0 0, .abfree 56, .abrel 57, .abwait 0 56, .park 56 0, .abwaitT 0 0 56, .osalloc 0 0 0 9, .osalloc 56 0 0 0, .osfree 56 0, .osquery 0 56, .osqueryX 56 0,
      .wltake 0 0 0 971, .wldone 56, .wlquiet 0 12, .hdef 0 1 0, .hread 0 3 0, .hdef 56 0 0, .coll 0 0 0, .coll 46 0 0, .coll 10 12 0, .coll 10 0 6, .amos 0 0 0 10 0 0 0, .amosX 56 0 0 0 0 0,
      .segld 56 0 0, .segrdBase 56 0, .segrdLen 60 0, .flushs 0 2 0, .flushs 56 0 0, .lea 0 0 6 0 0, .lea 56 0 0 0 0, .qstat 0 3, .qstat 56 0] : List Instr).all (fun i => !i.wf) = true := by decide +kernel
/-- Terms at the limits of those checks are accepted. -/
theorem test_wf_accepts :
    ([.add 55 63 0, .ld 47 63 5 3 0 255, .csrr 0 0x00D, .csrr 0 0x011, .csrw 0 0x02A, .bcc 0 0 5 0, .loop 47 0, .loop 63 0, .vgetV 0 0 970, .fwait 11, .fenceAcq 5, .bar 0 15, .bar 1 3, .bar 2 1,
      .mxloop 0 42 63 15 0 2, .mxsp 0 40 1 11 0 0, .mxst 1 0 0 0 0 0 0 4, .skickH 0 45 0 15 0, .osalloc 0 0 0 8, .hdef 0 2 0, .amos 0 0 0 9 0 0 0, .qstat 0 2, .flitReceive] : List Instr).all (·.wf) = true := by decide +kernel
/-- For each check of a lane word, a term that breaks it: types, sub-operations, reserved registers, fields that have to be 0, modifiers, predicates, immediates, qualifiers. -/
theorem test_wf_refuses_lane :
    let w : LaneW := noW
    let l : LaneW := { noW with low := 0x4000000 }
    ([.laneNop { w with ty := 1 }, .laneNop { w with vd := 1 }, .laneNop { w with im := 1 }, .mov { w with ty := 12 }, .mov { w with ty := 13, va := 1 }, .mov { w with ty := 13, vd := 971 },
      .sel { w with ty := 13, vc := 8 }, .fadd { w with ty := 3 }, .fadd { w with md := 8 }, .fadd { w with vc := 1 }, .fadd { w with im := 1, vb := 1 }, .ffma { w with vc := 971 }, .ffma { w with ty := 14 },
      .fmin { w with md := 2 }, .fcmp { w with ty := 5 }, .fcmp { w with vd := 8 }, .fclass { w with vb := 1 }, .frnd { w with md := 8 }, .fdot2 { w with ty := 0 },
      .cvt { w with ty := 0 }, .cvt { w with ty := 11 }, .cvtef { w with ty := 0 }, .packq4 { w with ty := 10 }, .unpackq4 { w with ty := 3 }, .iadd { w with ty := 4 }, .iadd { w with ty := 5, md := 1 },
      .iabs { w with ty := 6 }, .icmp { w with ty := 5, md := 6 }, .icmp { w with ty := 5, vd := 8 }, .laneAnd { w with ty := 5 }, .laneShl { w with ty := 13, vc := 1 }, .brev { w with ty := 13, vb := 1 },
      .bfe { w with ty := 13 }, .bfe { w with ty := 13, low := 0x41F }, .bfi { w with ty := 13, low := 0x820 }, .kand { w with va := 8 }, .knot { w with vb := 1 }, .kmov { w with md := 1 }, .kmovV { w with md := 1, vd := 8 },
      .kmovK { w with md := 2, va := 8 }, .kbal { w with md := 3 }, .exp2 { l with md := 1 }, .exp2 w, .rcp { l with md := 8 }, .sqrt { l with ty := 2 },
      .shfl { l with ty := 13, md := 5 }, .shfl { w with ty := 13 }, .redx { l with ty := 1 }, .redx { l with ty := 13 }, .scanx { l with ty := 0, md := 3 }, .segred { l with vb := 8 }, .rtwcfg { w with ty := 6, vd := 1 }, .rtwnext { l with ty := 6, va := 1 }]
      : List Instr).all (fun i => !i.wf) = true := by decide +kernel
/-- The same for memory, rank and control words. -/
theorem test_wf_refuses_lane2 :
    let w : LaneW := noW
    let l : LaneW := { noW with low := 0x4000000 }
    ([.laneLd { l with ty := 11 }, .laneLd { l with md := 2 }, .laneLd { l with low := 0x4008000 }, .laneLd { l with low := 0x4001000 }, .laneLd { l with low := 0x4000100 }, .laneLd { l with low := 0x4000E00 }, .laneSt { l with vd := 1 }, .laneSt { l with low := 0x4000800 },
      .wlappend { l with md := 1 }, .wlappend { l with md := 2, low := 0x4002000 }, .ldo l, .ldo { l with low := 0x4008000, md := 1 }, .sto { l with low := 0x4008000, vd := 1 }, .ldx { l with low := 0x4008000 }, .xst { l with low := 0x400A000, md := 1 },
      .atom { l with ty := 5, md := 9 }, .atom { l with ty := 5, md := 1 }, .atom { l with ty := 13, low := 0x4002000 }, .atom { l with ty := 13, low := 0x4000040 }, .red { l with ty := 13, md := 6 }, .flush { l with ty := 13, md := 2 }, .flush { l with ty := 13, low := 0x4004000 },
      .topk { l with ty := 1 }, .topk { l with md := 2 }, .rkenc { l with ty := 6 }, .rkenc { l with low := 0x4000400 }, .rkrec { l with ty := 3 }, .rktab l, .rktab { l with ty := 1, vd := 1 }, .rkmrg { l with ty := 6 }, .rkmrg { l with low := 0x4000200 },
      .lbr w, .lbr { w with im := 1, va := 1 }, .lbra { w with im := 1, md := 2 }, .ltrap { w with im := 1, low := 0x100000 }, .join { w with g := 1 }, .laneEnd { w with low := 1 }] : List Instr).all (fun i => !i.wf) = true := by decide +kernel
/-- A stream command with another command's code, an undefined bit, an unassigned scope, a scope without a qualifier, a qualifier where none is taken, a word that has to be 0. -/
theorem test_wf_refuses_stream :
    let e : StreamW := { w0 := 0, w1 := 0, w2 := 0, w3 := 0 }
    ([.streamEnd e, .streamEnd { e with w0 := 0x4000000000000001 }, .streamFence { e with w0 := 0x3EC0000000000000 }, .streamFence { e with w0 := 0x3C20000000000000 }, .setReg { e with w0 := 0x1600000000000000 },
      .streamEnd { e with w0 := 0x4000000000000000, w1 := 1 }, .setReg { e with w0 := 0x1400000000000000, w2 := 1 }, .waitv { e with w0 := 0x2C00040000000000 }, .notifyAdd { e with w0 := 0x2800000000000000 },
      .notifyCredit { e with w0 := 0x2800002000000000, w1 := 0x10000000 }, .tile { e with w0 := 0x0404000000000000 }] : List Instr).all (fun i => !i.wf) = true
    ∧ Instr.wf (.streamEnd { e with w0 := 0x4000000000000000 }) = true ∧ Instr.wf (.streamFence { e with w0 := 0x3E80000000000000 }) = true := by decide +kernel

/-! ### Decoding -/

/-- Scalar words written out by the formats of R48 to R51, a value of its own in every field. -/
theorem test_decode_scalar1 :
    ([(0x00108300, .add 1 2 3),
      (0x00108301, .sub 1 2 3),
      (0x00108302, .mul 1 2 3),
      (0x00108303, .mulh 1 2 3),
      (0x00108304, .mulhn 1 2 3),
      (0x00108305, .div 1 2 3),
      (0x00108306, .divn 1 2 3),
      (0x00108307, .rem 1 2 3),
      (0x00108308, .remn 1 2 3),
      (0x00108310, .and 1 2 3),
      (0x00108311, .or 1 2 3),
      (0x00108312, .xor 1 2 3),
      (0x00108313, .andn 1 2 3),
      (0x00108318, .shl 1 2 3),
      (0x00108319, .shr 1 2 3),
      (0x0010831A, .sar 1 2 3),
      (0x00108320, .min 1 2 3),
      (0x00108321, .max 1 2 3),
      (0x00108322, .minn 1 2 3),
      (0x00108323, .maxn 1 2 3),
      (0x00108328, .slt 1 2 3),
      (0x00108329, .sltn 1 2 3),
      (0x0010832A, .seq 1 2 3),
      (0x00108030, .popc 1 2),
      (0x00108031, .clz 1 2),
      (0x00108032, .ctz 1 2),
      (0x0410A005, .addi 1 2 8197),
      (0x0810A005, .andi 1 2 8197),
      (0x0C10A005, .ori 1 2 8197),
      (0x1010A005, .xori 1 2 8197),
      (0x1410A005, .slti 1 2 8197),
      (0x18108003, .shli 1 2 3),
      (0x18109003, .shri 1 2 3),
      (0x1810A003, .sari 1 2 3),
      (0x1C180005, .lih 1 524293),
      (0x20109985, .ld 1 2 3 0 1 133)] : List (Nat × Instr)).all (fun p => decodeTableWord 32 p.1 == some p.2) = true := by decide +kernel

/-- Scalar words written out by the formats of R48 to R51, a value of its own in every field. -/
theorem test_decode_scalar2 :
    ([(0x24109885, .st 1 2 3 0 133),
      (0x28100022, .csrr 1 34),
      (0x2C004022, .csrw 1 34),
      (0x2C005022, .csrs 1 34),
      (0x2C006022, .csrc 1 34),
      (0x30109C05, .bcc 1 2 3 1029),
      (0x36000005, .j 33554437),
      (0x3A000005, .jal 33554437),
      (0x3C004000, .jr 1),
      (0x3C108001, .jalr 1 2),
      (0x40500405, .loop 5 1029),
      (0x44180005, .disp 1 524293),
      (0x48108003, .vgetV 1 2 3),
      (0x48109003, .vgetK 1 2 3),
      (0x4810A003, .vsetV 1 2 3),
      (0x4810B003, .vsetK 1 2 3),
      (0x4C000010, .fwait 1),
      (0x50000200, .fenceAcq 1),
      (0x50001200, .fenceRel 1),
      (0x50002200, .fenceAr 1),
      (0x50003000, .fenceW),
      (0x54000402, .bar 1 2),
      (0x54001402, .bara 1 2),
      (0x54002402, .barw 1 2),
      (0x58100000, .mxcfgClaim 1),
      (0x58108001, .mxcfgSet 1 2),
      (0x58100202, .mxcfgStat 1 2),
      (0x58000003, .mxcfgFree),
      (0x5C128345, .mxloop 1 10 3 4 1 1),
      (0x60128345, .mxsp 1 10 3 4 1 1),
      (0x64128344, .mxrk 1 10 3 4 1),
      (0x6BC14643, .mxst 1 1 1 4 5 6 4 3),
      (0x6920003F, .mxstZero 1 2 3),
      (0x6C128342, .skickH 1 10 3 4 1),
      (0x6C128343, .skickE 1 10 3 4 1),
      (0x70428036, .scopyLd 1 10 3 1 1)] : List (Nat × Instr)).all (fun p => decodeTableWord 32 p.1 == some p.2) = true := by decide +kernel

/-- Scalar words written out by the formats of R48 to R51, a value of its own in every field. -/
theorem test_decode_scalar3 :
    ([(0x70428037, .scopySt 1 10 3 1 1),
      (0x74108000, .sstat 1 2),
      (0x74108001, .sstatCancel 1 2),
      (0x78108300, .abinit 1 2 3),
      (0x78004001, .abfree 1),
      (0x7C004200, .abwait 1 2),
      (0x7C108301, .abwaitT 1 2 3),
      (0x80004000, .abrel 1),
      (0x84108304, .osalloc 1 2 3 4),
      (0x88004200, .osfree 1 2),
      (0x8C108000, .osquery 1 2),
      (0x8C108001, .osqueryX 1 2),
      (0x9010A004, .wltake 1 2 1 4),
      (0x94004000, .wldone 1),
      (0x98004020, .wlquiet 1 2),
      (0x9C005003, .hdef 1 2 3),
      (0xA0005003, .hread 1 2 3),
      (0xA4000000, .nprEnter),
      (0xA4000001, .nprExit),
      (0xA8000000, .yield),
      (0xA8004201, .park 1 2),
      (0xAC028023, .coll 10 2 3),
      (0xB0108346, .amosX 1 2 3 4 1 1),
      (0xB4080005, .trap 524293),
      (0xB8000000, .eret),
      (0xB8000001, .eretRetry),
      (0xBC080005, .sysc 524293),
      (0xC0004203, .segld 1 2 3),
      (0xC4100002, .segrdBase 1 2),
      (0xC410000A, .segrdLen 1 2),
      (0xC8000000, .exit),
      (0xCC000000, .halt),
      (0xD0004885, .flushs 1 1 133),
      (0xD4108347, .amos 1 2 3 4 1 1 1),
      (0xD8109885, .lea 1 2 3 0 133),
      (0xDC100002, .qstat 1 2)] : List (Nat × Instr)).all (fun p => decodeTableWord 32 p.1 == some p.2) = true := by decide +kernel

/-- Lane words written out by R53 and the grid of R55, a value of its own in every field that the instruction uses. -/
theorem test_decode_lane1 :
    ([(0x00006A000000000000000000, .laneNop { noW with dist := 3, g := 2, gn := 1 }),
      (0x01D06A0280000001DEADBEEF, .mov { noW with ty := 13, dist := 3, g := 2, gn := 1, vd := 5, im := 1, low := 0xDEADBEEF }),
      (0x02D06A0280C0380800000000, .sel { noW with ty := 13, dist := 3, g := 2, gn := 1, vd := 5, va := 6, vb := 7, vc := 4 }),
      (0x03136A0280C0380090000000, .fadd { noW with ty := 1, md := 3, dist := 3, g := 2, gn := 1, vd := 5, va := 6, vb := 7, low := 0x90000000 }),
      (0x04256A0280C0380000000000, .fsub { noW with ty := 2, md := 5, dist := 3, g := 2, gn := 1, vd := 5, va := 6, vb := 7 }),
      (0x05006A0280C000013F800000, .fmul { noW with dist := 3, g := 2, gn := 1, vd := 5, va := 6, im := 1, low := 0x3F800000 }),
      (0x06026A0280C0381060000000, .ffma { noW with md := 2, dist := 3, g := 2, gn := 1, vd := 5, va := 6, vb := 7, vc := 8, low := 0x60000000 }),
      (0x07006A0280C0380000000000, .fmin { noW with dist := 3, g := 2, gn := 1, vd := 5, va := 6, vb := 7 }),
      (0x08016A0280C0380000000000, .fmax { noW with md := 1, dist := 3, g := 2, gn := 1, vd := 5, va := 6, vb := 7 }),
      (0x09466A0280C0380000000000, .fcmp { noW with ty := 4, md := 6, dist := 3, g := 2, gn := 1, vd := 5, va := 6, vb := 7 }),
      (0x0A306A0280C0000000000000, .fclass { noW with ty := 3, dist := 3, g := 2, gn := 1, vd := 5, va := 6 }),
      (0x0B046A0280C0000000000000, .frnd { noW with md := 4, dist := 3, g := 2, gn := 1, vd := 5, va := 6 }),
      (0x0C006A0280C0380000000000, .fscale { noW with dist := 3, g := 2, gn := 1, vd := 5, va := 6, vb := 7 }),
      (0x0D106A0280C0381000000000, .fdot2 { noW with ty := 1, dist := 3, g := 2, gn := 1, vd := 5, va := 6, vb := 7, vc := 8 }),
      (0x20046A0280C0000000000002, .cvt { noW with md := 4, dist := 3, g := 2, gn := 1, vd := 5, va := 6, low := 0x2 }),
      (0x21386A0280C0000000090000, .cvtef { noW with ty := 3, md := 8, dist := 3, g := 2, gn := 1, vd := 5, va := 6, low := 0x90000 }),
      (0x22B06A0280C0380000090000, .packq4 { noW with ty := 11, dist := 3, g := 2, gn := 1, vd := 5, va := 6, vb := 7, low := 0x90000 }),
      (0x23206A0280C0380000000000, .unpackq4 { noW with ty := 2, dist := 3, g := 2, gn := 1, vd := 5, va := 6, vb := 7 }),
      (0x30506A0280C0380000000000, .iadd { noW with ty := 5, dist := 3, g := 2, gn := 1, vd := 5, va := 6, vb := 7 }),
      (0x31506A0280C0380000000000, .isub { noW with ty := 5, dist := 3, g := 2, gn := 1, vd := 5, va := 6, vb := 7 }),
      (0x32506A0280C0380000000000, .imul { noW with ty := 5, dist := 3, g := 2, gn := 1, vd := 5, va := 6, vb := 7 }),
      (0x33506A0280C0380000000000, .imulh { noW with ty := 5, dist := 3, g := 2, gn := 1, vd := 5, va := 6, vb := 7 }),
      (0x34606A0280C0381000000000, .imad { noW with ty := 6, dist := 3, g := 2, gn := 1, vd := 5, va := 6, vb := 7, vc := 8 }),
      (0x35506A0280C0380000000000, .idiv { noW with ty := 5, dist := 3, g := 2, gn := 1, vd := 5, va := 6, vb := 7 }),
      (0x36506A0280C0380000000000, .irem { noW with ty := 5, dist := 3, g := 2, gn := 1, vd := 5, va := 6, vb := 7 }),
      (0x37706A0280C0000000000000, .iabs { noW with ty := 7, dist := 3, g := 2, gn := 1, vd := 5, va := 6 })] : List (Nat × Instr)).all (fun p => decodeTableWord 96 p.1 == some p.2) = true := by decide +kernel

/-- Lane words written out by R53 and the grid of R55, a value of its own in every field that the instruction uses. -/
theorem test_decode_lane2 :
    ([(0x38506A0280C0380000000000, .imin { noW with ty := 5, dist := 3, g := 2, gn := 1, vd := 5, va := 6, vb := 7 }),
      (0x39506A0280C0380000000000, .imax { noW with ty := 5, dist := 3, g := 2, gn := 1, vd := 5, va := 6, vb := 7 }),
      (0x3A556A0280C0380000000000, .icmp { noW with ty := 5, md := 5, dist := 3, g := 2, gn := 1, vd := 5, va := 6, vb := 7 }),
      (0x3B506A0280C0380000000000, .iadds { noW with ty := 5, dist := 3, g := 2, gn := 1, vd := 5, va := 6, vb := 7 }),
      (0x3C506A0280C0380000000000, .isubs { noW with ty := 5, dist := 3, g := 2, gn := 1, vd := 5, va := 6, vb := 7 }),
      (0x40D06A0280C0380000000000, .laneAnd { noW with ty := 13, dist := 3, g := 2, gn := 1, vd := 5, va := 6, vb := 7 }),
      (0x41D06A0280C0380000000000, .laneOr { noW with ty := 13, dist := 3, g := 2, gn := 1, vd := 5, va := 6, vb := 7 }),
      (0x42D06A0280C0380000000000, .laneXor { noW with ty := 13, dist := 3, g := 2, gn := 1, vd := 5, va := 6, vb := 7 }),
      (0x43D06A0280C0380000000000, .laneShl { noW with ty := 13, dist := 3, g := 2, gn := 1, vd := 5, va := 6, vb := 7 }),
      (0x44D06A0280C0380000000000, .laneShr { noW with ty := 13, dist := 3, g := 2, gn := 1, vd := 5, va := 6, vb := 7 }),
      (0x45D06A0280C0380000000000, .laneSar { noW with ty := 13, dist := 3, g := 2, gn := 1, vd := 5, va := 6, vb := 7 }),
      (0x46D06A0280C0000000000000, .lanePopc { noW with ty := 13, dist := 3, g := 2, gn := 1, vd := 5, va := 6 }),
      (0x47D06A0280C0000000000000, .laneClz { noW with ty := 13, dist := 3, g := 2, gn := 1, vd := 5, va := 6 }),
      (0x48D06A0280C0000000000000, .brev { noW with ty := 13, dist := 3, g := 2, gn := 1, vd := 5, va := 6 }),
      (0x49D06A0280C0000000000924, .bfe { noW with ty := 13, dist := 3, g := 2, gn := 1, vd := 5, va := 6, low := 0x924 }),
      (0x4AD06A0280C0380000000124, .bfi { noW with ty := 13, dist := 3, g := 2, gn := 1, vd := 5, va := 6, vb := 7, low := 0x124 }),
      (0x50006A008040180000000000, .kand { noW with dist := 3, g := 2, gn := 1, vd := 1, va := 2, vb := 3 }),
      (0x51006A008040180000000000, .kor { noW with dist := 3, g := 2, gn := 1, vd := 1, va := 2, vb := 3 }),
      (0x52006A008040180000000000, .kxor { noW with dist := 3, g := 2, gn := 1, vd := 1, va := 2, vb := 3 }),
      (0x53006A008040000000000000, .knot { noW with dist := 3, g := 2, gn := 1, vd := 1, va := 2 }),
      (0x54006A008040000000000000, .kmov { noW with dist := 3, g := 2, gn := 1, vd := 1, va := 2 }),
      (0x54016A0080C0000000000000, .kmovV { noW with md := 1, dist := 3, g := 2, gn := 1, vd := 1, va := 6 }),
      (0x54026A028040000000000000, .kmovK { noW with md := 2, dist := 3, g := 2, gn := 1, vd := 5, va := 2 }),
      (0x55026A028060000000000000, .kbal { noW with md := 2, dist := 3, g := 2, gn := 1, vd := 5, va := 3 }),
      (0x60006A0280C0000004000000, .exp2 { noW with dist := 3, g := 2, gn := 1, vd := 5, va := 6, low := 0x4000000 }),
      (0x61046A0280C0000004000000, .log2 { noW with md := 4, dist := 3, g := 2, gn := 1, vd := 5, va := 6, low := 0x4000000 })] : List (Nat × Instr)).all (fun p => decodeTableWord 96 p.1 == some p.2) = true := by decide +kernel

/-- Lane words written out by R53 and the grid of R55, a value of its own in every field that the instruction uses. -/
theorem test_decode_lane3 :
    ([(0x62036A0280C0000004000000, .rcp { noW with md := 3, dist := 3, g := 2, gn := 1, vd := 5, va := 6, low := 0x4000000 }),
      (0x63106A0280C0000004000000, .rsq { noW with ty := 1, dist := 3, g := 2, gn := 1, vd := 5, va := 6, low := 0x4000000 }),
      (0x64006A0280C000000C000000, .sqrt { noW with dist := 3, g := 2, gn := 1, vd := 5, va := 6, low := 0xC000000 }),
      (0x65006A0280C0000084000000, .sin { noW with dist := 3, g := 2, gn := 1, vd := 5, va := 6, low := 0x84000000 }),
      (0x66006A0280C0000044000000, .cos { noW with dist := 3, g := 2, gn := 1, vd := 5, va := 6, low := 0x44000000 }),
      (0x67006A0280C0000004000000, .tanh { noW with dist := 3, g := 2, gn := 1, vd := 5, va := 6, low := 0x4000000 }),
      (0x70D16A0280C0000004000009, .shfl { noW with ty := 13, md := 1, dist := 3, g := 2, gn := 1, vd := 5, va := 6, low := 0x4000009 }),
      (0x71026A0280C0000004000000, .redx { noW with md := 2, dist := 3, g := 2, gn := 1, vd := 5, va := 6, low := 0x4000000 }),
      (0x72096A0280C0000004000000, .scanx { noW with md := 9, dist := 3, g := 2, gn := 1, vd := 5, va := 6, low := 0x4000000 }),
      (0x73606A0000C0380000000000, .rtwcfg { noW with ty := 6, dist := 3, g := 2, gn := 1, va := 6, vb := 7 }),
      (0x74606A028000000004090005, .rtwnext { noW with ty := 6, dist := 3, g := 2, gn := 1, vd := 5, low := 0x4090005 }),
      (0x75D56A0280C0080004000000, .segred { noW with ty := 13, md := 5, dist := 3, g := 2, gn := 1, vd := 5, va := 6, vb := 1, low := 0x4000000 }),
      (0x80916A0280C0001004006C00, .laneLd { noW with ty := 9, md := 1, dist := 3, g := 2, gn := 1, vd := 5, va := 6, vc := 8, low := 0x4006C00 }),
      (0x81D06A0000C0380004003500, .laneSt { noW with ty := 13, dist := 3, g := 2, gn := 1, va := 6, vb := 7, low := 0x4003500 }),
      (0x81626A0000C0380004000000, .wlappend { noW with ty := 6, md := 2, dist := 3, g := 2, gn := 1, va := 6, vb := 7, low := 0x4000000 }),
      (0x82D06A0280C0000004008012, .ldo { noW with ty := 13, dist := 3, g := 2, gn := 1, vd := 5, va := 6, low := 0x4008012 }),
      (0x83D06A0000C038000400A012, .sto { noW with ty := 13, dist := 3, g := 2, gn := 1, va := 6, vb := 7, low := 0x400A012 }),
      (0x84D46A0280C000000400A000, .ldx { noW with ty := 13, md := 4, dist := 3, g := 2, gn := 1, vd := 5, va := 6, low := 0x400A000 }),
      (0x85D86A0000C038000400A000, .xst { noW with ty := 13, md := 8, dist := 3, g := 2, gn := 1, va := 6, vb := 7, low := 0x400A000 }),
      (0x86D76A0280C038100400DC00, .atom { noW with ty := 13, md := 7, dist := 3, g := 2, gn := 1, vd := 5, va := 6, vb := 7, vc := 8, low := 0x400DC00 }),
      (0x87546A0000C0380004000000, .red { noW with ty := 5, md := 4, dist := 3, g := 2, gn := 1, va := 6, vb := 7, low := 0x4000000 }),
      (0x88D16A0000C0001004002000, .flush { noW with ty := 13, md := 1, dist := 3, g := 2, gn := 1, va := 6, vc := 8, low := 0x4002000 }),
      (0x90016A0280C0380004090045, .topk { noW with md := 1, dist := 3, g := 2, gn := 1, vd := 5, va := 6, vb := 7, low := 0x4090045 }),
      (0x91006A0280C0381004000205, .rkenc { noW with dist := 3, g := 2, gn := 1, vd := 5, va := 6, vb := 7, vc := 8, low := 0x4000205 }),
      (0x92206A0280C0381004000005, .rkrec { noW with ty := 2, dist := 3, g := 2, gn := 1, vd := 5, va := 6, vb := 7, vc := 8, low := 0x4000005 }),
      (0x93106A0000C0000004000002, .rktab { noW with ty := 1, dist := 3, g := 2, gn := 1, va := 6, low := 0x4000002 })] : List (Nat × Instr)).all (fun p => decodeTableWord 96 p.1 == some p.2) = true := by decide +kernel

/-- Lane words written out by R53 and the grid of R55, a value of its own in every field that the instruction uses. -/
theorem test_decode_lane4 :
    ([(0x94506A0280C0381004000003, .rkmrg { noW with ty := 5, dist := 3, g := 2, gn := 1, vd := 5, va := 6, vb := 7, vc := 8, low := 0x4000003 }),
      (0xA0006A0000000001FFFFFFF0, .lbr { noW with dist := 3, g := 2, gn := 1, im := 1, low := 0xFFFFFFF0 }),
      (0xA2016A000000000100000009, .lbra { noW with md := 1, dist := 3, g := 2, gn := 1, im := 1, low := 0x9 }),
      (0xA10060000000000000000000, .join { noW with dist := 3 }),
      (0xA30060000000000000000000, .laneEnd { noW with dist := 3 }),
      (0xA4006A0000000001000ABCDE, .ltrap { noW with dist := 3, g := 2, gn := 1, im := 1, low := 0xABCDE })] : List (Nat × Instr)).all (fun p => decodeTableWord 96 p.1 == some p.2) = true := by decide +kernel

/-- Stream commands of 1 words of 64 bits, the code of R62 in bits 63 to 58 of the first. -/
theorem test_decode_stream1 :
    ([(0x1800100000000009, .addc { w0 := 0x1800100000000009, w1 := 0x0, w2 := 0x0, w3 := 0x0 }),
      (0x1C004000FFFFFFF0, .streamLoop { w0 := 0x1C004000FFFFFFF0, w1 := 0x0, w2 := 0x0, w3 := 0x0 }),
      (0x2000000000000010, .jmp { w0 := 0x2000000000000010, w1 := 0x0, w2 := 0x0, w3 := 0x0 }),
      (0x3F80000000000000, .streamFence { w0 := 0x3F80000000000000, w1 := 0x0, w2 := 0x0, w3 := 0x0 }),
      (0x4000000000000000, .streamEnd { w0 := 0x4000000000000000, w1 := 0x0, w2 := 0x0, w3 := 0x0 })] : List (Nat × Instr)).all (fun p => decodeTableWord 64 p.1 == some p.2) = true := by decide +kernel

/-- Stream commands of 2 words of 64 bits, the code of R62 in bits 63 to 58 of the first. -/
theorem test_decode_stream2 :
    ([(0x00000000000012341400000000000007, .setReg { w0 := 0x1400000000000007, w1 := 0x1234, w2 := 0x0, w3 := 0x0 }),
      (0x00000000000000002800650000000000, .notifyStore { w0 := 0x2800650000000000, w1 := 0x0, w2 := 0x0, w3 := 0x0 }),
      (0x00000000000000002800651000000000, .notifyAdd { w0 := 0x2800651000000000, w1 := 0x0, w2 := 0x0, w3 := 0x0 }),
      (0x00000000000000092800072000000000, .notifyCredit { w0 := 0x2800072000000000, w1 := 0x9, w2 := 0x0, w3 := 0x0 }),
      (0x00000000000000082C00230000000000, .waitv { w0 := 0x2C00230000000000, w1 := 0x8, w2 := 0x0, w3 := 0x0 })] : List (Nat × Instr)).all (fun p => decodeTableWord 128 p.1 == some p.2) = true := by decide +kernel

/-- Stream commands of 4 words of 64 bits, the code of R62 in bits 63 to 58 of the first. -/
theorem test_decode_stream4 :
    ([(0x0000000000000005000000000000000400000000000000030540050000000012, .tile { w0 := 0x540050000000012, w1 := 0x3, w2 := 0x4, w3 := 0x5 }),
      (0x0000000000000005000000000000000400000000000000034400030000000012, .mcast { w0 := 0x4400030000000012, w1 := 0x3, w2 := 0x4, w3 := 0x5 }),
      (0x0000000000000005000000000000000400000000000000030A00000000000012, .storeTile { w0 := 0xA00000000000012, w1 := 0x3, w2 := 0x4, w3 := 0x5 }),
      (0x0000000000000005000000000000000400000000000000030C00000000000012, .gather { w0 := 0xC00000000000012, w1 := 0x3, w2 := 0x4, w3 := 0x5 }),
      (0x0000000000000003000000000000000200000000000000013000200000000000, .save { w0 := 0x3000200000000000, w1 := 0x1, w2 := 0x2, w3 := 0x3 }),
      (0x0000000000000003000000000000000200000000000000013400200000000000, .fetch { w0 := 0x3400200000000000, w1 := 0x1, w2 := 0x2, w3 := 0x3 })] : List (Nat × Instr)).all (fun p => decodeTableWord 256 p.1 == some p.2) = true := by decide +kernel

/-! ### Meanings: witnesses of the statements -/

/-- Registers a2 = −7 and a3 = 2, and a1 as the destination. -/
theorem witness_arithmetic : let s := regs [(2, -7), (3, 2)]
    (s.isRes s.cur = true ∧ s.source2 2 3 = some (-7, 2, s) ∧ s.takes 1 = true ∧ s.source 2 = some (-7, s))
    ∧ nextIs (exec (.mulh 1 2 3) s) ((s.dest 1 (-1)).endScalar 0x44) ∧ nextIs (exec (.sar 1 2 3) s) ((s.dest 1 (-2)).endScalar 0x44)
    ∧ nextIs (exec (.maxn 1 2 3) s) ((s.dest 1 (-7)).endScalar 0x44) ∧ nextIs (exec (.clz 1 3) s) ((s.dest 1 62).endScalar 0x44)
    ∧ nextIs (exec (.rem 1 2 3) s) (((s.dest 1 (-1)).sticky 0).endWith 0 0x40 0x44) := by decide +kernel
/-- A zero divisor, and INT_MIN ÷ −1; ports q4 and q0 as source and destination. -/
theorem witness_division :
    (let s := regs [(2, 100)]
     s.isRes s.cur = true ∧ s.source2 2 0 = some (100, 0, s) ∧ s.takes 3 = true
     ∧ nextIs (exec (.div 3 2 0) s) (((s.dest 3 0x7FFFFFFFFFFFFFFF).sticky cIDZ).endWith cIDZ 0x40 0x44))
    ∧ (let s := regs [(2, 0x8000000000000000), (3, -1)]
       s.source2 2 3 = some (BitVec.intMin 64, -1, s) ∧ nextIs (exec (.rem 1 2 3) s) (((s.dest 1 0).sticky cIOV).endWith cIOV 0x40 0x44))
    ∧ (let s := withSt fun st => { st with q := [(4, [9, 8])], a := [(3, 0)], csr := { st.csr with trapen := 0x620 } }
       ∃ s', s.source2 52 3 = some (9, 0, s') ∧ s'.takes 48 = true ∧ s'.me.queue 4 = [8] ∧ (s'.dest 48 9).me.queue 0 = [9]
         ∧ nextIs (exec (.divn 48 52 3) s) (((s'.dest 48 (-1)).sticky cIDZ).endWith cIDZ 0 4)) := by
  refine ⟨by decide +kernel, by decide +kernel, _, rfl, by decide +kernel, by decide +kernel, by decide +kernel, by decide +kernel⟩
/-- R111 on a source, and the patterns of SHIFTI that are no instruction. -/
theorem witness_immediates : let s := regs [(2, -7)]
    (s.isRes s.cur = true ∧ s.source 2 = some (-7, s) ∧ s.takes 1 = true ∧ regOk 1 = true ∧ regOk 63 = true)
    ∧ nextIs (exec (.addi 1 2 0x3FFF) s) ((s.dest 1 (-8)).endScalar 0x44) ∧ nextIs (exec (.andi 1 2 0x3FFF) s) ((s.dest 1 0x3FF9).endScalar 0x44)
    ∧ nextIs (exec (.lih 1 0x80000) s) ((s.dest 1 0xFFFFFFFF80000000).endScalar 0x44)
    ∧ (0x18103041 : W32).extractLsb' 26 6 = 0x06 ∧ (0x18103041 : W32).extractLsb' 12 2 = 3 ∧ (0x18100041 : W32).extractLsb' 6 6 ≠ 0 := by decide +kernel
/-- LEA and the reads of a strand's registers; a write that is legal and one of a reserved bit. -/
theorem witness_registers : let s := regs [(2, 0x10)]
    (s.isRes s.cur = true ∧ s.source 2 = some (0x10, s) ∧ s.takes 1 = true)
    ∧ nextIs (exec (.lea 1 2 0 3 2) s) ((s.dest 1 0x20).endScalar 0x44) ∧ nextIs (exec (.csrr 1 0x026) s) ((s.dest 1 0x600).endScalar 0x44)
    ∧ nextIs (exec (.qstat 1 2) s) ((s.dest 1 0xFFF).endScalar 0x44)
    ∧ (0x10 : W64) &&& csrReserved 0x020 = 0 ∧ (0x12 : W64) &&& csrReserved 0x020 ≠ 0
    ∧ nextIs (exec (.csrw 2 0x020) s) ((s.modStrand 0 fun st => { st with csr := { st.csr with tvec := 0x10 } }).endScalar 0x44) := by decide +kernel
/-- A taken branch backwards, a link, a target, and the last turn of LOOP. -/
theorem witness_control : let s := regs [(2, 1), (3, 2)]
    (s.isRes s.cur = true ∧ s.source2 2 3 = some (1, 2, s) ∧ s.source 2 = some (1, s) ∧ s.takes 63 = true ∧ s.takes 2 = true)
    ∧ nextIs (exec (.bcc 2 3 2 0x7FD) s) (s.endScalar 0x34) ∧ nextIs (exec (.jal 1) s) ((s.dest 63 0x44).endScalar 0x44)
    ∧ nextIs (exec (.jalr 2 2) s) ((s.dest 2 0x44).endScalar 1) ∧ nextIs (exec (.loop 2 0x7FF) s) ((s.dest 2 0).endScalar 0x44)
    ∧ nextIs (exec (.loop 3 0x7FF) s) ((s.dest 3 1).endScalar 0x3C) := by decide +kernel
/-- SHIFTI of kind 3 at the PC: the stream traps with CODE 0x01, the word in its record. -/
theorem witness_illegalShift :
    let s := State.reset.placeScalar 0x18103041
    (s.mayIssue 0 = true ∧ (s.strand 0).parkS = none ∧ (s.strand 0).awaitsService = false)
    ∧ (match ({ s.modStrand 0 (fun st => st.landTo (s.cycles (coreOf 0) - 1)) with cur := 0, curB := false, curWin := false, ev := { flag := false } } : State).fetchScalar 0 with
       | .got w t => decide (w = 0x18103041 ∧ t.cur = 0 ∧ t.ev.flag = false ∧ t.isRes 0 = true) && (let u : State := { t with curWord := w.setWidth 96 }
           nextIs (stepScalar 0 s) (u.takeTrap 0 { code := 0x01, sfault := true, epc := some (u.strand 0).pc, sword := w }))
       | _ => false) = true := by decide +kernel
/-- Bytes 0x81 … at G 0x20 of physical page 0. -/
def mem1 (l : List (Nat × W64)) : State := { regs l with hbm := [(0x20, 0x81), (0x21, 0x02), (0x27, 0x90)] }
/-- A signed byte load, a double load into port q1, and one that expires is of the operand store. -/
theorem witness_loads : let s := mem1 [(2, 0x20)]
    (s.isRes s.cur = true ∧ s.source 2 = some (0x20, s) ∧ s.takes 1 = true ∧ (s.me.replies.any fun r => r.acq.isSome) = false)
    ∧ (okAnd (scalarPlace 0 0x20 1 0 s) fun p s2 => okAnd (readPlace p 1 s2) fun r s3 => decide (r = (0x81, 0, false)) && decide (r.2.1 &&& s.me.enabled = 0) &&
        nextIs (exec (.ld 1 2 0 0 1 0) s) (((s3.sticky 0).awaitReply { kind := .load, dst := 1, val := 0xFFFFFFFFFFFFFF81 }).endScalar 0x44)) = true
    ∧ (okAnd (scalarPlace 0 0x20 8 0 s) fun p s2 => okAnd (readPlace p 8 s2) fun _ s3 =>
        nextIs (exec (.ld 49 2 0 3 0 0) s) (((s3.sticky 0).awaitReply { kind := .load, dst := 49, val := 0x9000000000000281 }).endScalar 0x44)) = true := by decide +kernel
/-- A line of class TRAP that has expired: the load completes with EXPT, enabled at reset. -/
theorem witness_expired_load :
    let s : State := { withSt fun st => { st with segs := { st.segs with o := { base := 0, len := 0x1000 } } } with
      osLines := [(oslKey 0 0, { cls := 5, written := 0 })], tick := [(0, 1000000)] }
    (s.isRes s.cur = true ∧ s.source 0 = some (0, s) ∧ s.takes 1 = true)
    ∧ (okAnd (scalarPlace 4 0 8 0 s) fun p s2 => okAnd (readPlace p 8 s2) fun r s3 => decide (r.2.1 &&& s.me.enabled ≠ 0) && r.1 == 0 &&
        nextIs (exec (.ld 1 0 4 3 0 0) s) ((((s3.sticky cEXPT).dest 1 0).holds []).endWith cEXPT 0 4)) = true := by decide +kernel
/-- A half-word store, uncached, and one to the operand store. -/
theorem witness_stores : let s := regs [(2, 0x20), (1, 0xABCD1234)]
    let t := { s with strands := (s.modStrand 0 fun st => { st with segs := { st.segs with o := { base := 0, len := 0x1000 } } }).strands }
    (s.isRes s.cur = true ∧ s.source2 1 2 = some (0xABCD1234, 0x20, s) ∧ s.hbm.wf = true ∧ s.hostMem.wf = true ∧ mwf s.tags = true ∧ mwf s.dc = true ∧ s.me.relStore = none)
    ∧ (okAnd (scalarPlace 0 0x22 2 1 s) fun p s2 => decide (p = .mem 0x22 3 false) && okAnd (writePlace p 2 0x1234 false s2) fun _ s3 =>
        decide (s3.hbm = [(0x22, 0x34), (0x23, 0x12)]) && s2.updates == [] && s2.poisonLines == [] && s2.poisonPages == [] && s2.dc == [] &&
        nextIs (exec (.st 1 2 0 1 1) s) (s3.endScalar 0x44)) = true
    ∧ (okAnd (scalarPlace 4 0x24 4 1 t) fun p s2 => decide (p = .os 0 0x24) && !(s2.osLine 0 0).free && !(s2.osExpired 0 (s2.osLine 0 0)) && mwf s2.os &&
        okAnd (writePlace p 4 0xABCD1234 false s2) fun _ s3 => nextIs (exec (.st 1 2 4 2 1) t) (s3.endScalar 0x44)) = true := by decide +kernel
/-- ADD on a double with release and acquire, and the order of its reply. -/
theorem witness_atomics : let s := mem1 [(1, 0x20), (2, 1)]
    (s.isRes s.cur = true ∧ s.source2 1 2 = some (0x20, 1, s) ∧ s.takes 3 = true ∧ isPush 3 = false)
    ∧ (okAnd (scalarPlace 0 0x20 8 2 s) fun p s2 => okAnd (scalarAtomic p 0 8 1 0 (s2.releases 4)) fun r s4 => decide (r = (0x9000000000000281, 0, false)) &&
        decide (memNat s4.hbm 0x20 8 = 0x9000000000000282) && nextIs (exec (.amos 3 1 2 0 3 0 0) s) (((s4.sticky 0).awaitReply
          { kind := .atomic, dst := 3, val := 0x9000000000000281, acq := some 4 }).endScalar 0x44)) = true := by decide +kernel
/-- FLUSHS of a line that is cached, the fences and FWAIT with and without what they wait for. -/
theorem witness_fences : let s := mem1 [(2, 0x20)]
    let s : State := { s with tlb := mput s.tlb (tlbKey 0 0 0) { ppage := 0, r := true, w := true, policy := polWB } }
    let u := withSt fun st => { st with replies := [{ kind := .atomic, dst := 3 }], flags := [(2, 1)], longs := [{ kind := .mem, op := .laneLd, w := noW, tag := 0 }] }
    (s.isRes s.cur = true ∧ s.source 2 = some (0x20, s) ∧ u.isRes u.cur = true ∧ u.me.flag 2 ≠ 0 ∧ s.me.flag 2 = 0)
    ∧ (okAnd (scalarPlace 0 0x20 1 0 s) fun p s2 => decide (p = .mem 0x20 0 false) && !s2.replBusy 0 0 && nextIs (exec (.flushs 2 0 0) s) ((s2.dcFlush 0 0).endScalar 0x44)) = true
    ∧ nextIs (exec (.fwait 2) s) ((s.acquires 4).endScalar 0x44) ∧ nextIs (exec (.fwait 2) u) (u.waitScalar none)
    ∧ nextIs (exec (.fenceRel 5) s) ((let t := s.releases 5; t.setStrand 0 { t.me with relStore := some 5 }).endScalar 0x44)
    ∧ nextIs (exec (.fenceAr 4) u) (u.waitScalar none) ∧ nextIs (exec .fenceW u) (u.waitScalar none) ∧ nextIs (exec .fenceW s) (s.endScalar 0x44) := by decide +kernel
/-- The reply of a load and that of an AMOS with .acq. -/
theorem witness_replies :
    let s := { withSt fun st => { st with replies := [{ kind := .load, dst := 3, val := 9, held := [{ code := 0x0D }] }, { kind := .atomic, dst := 4, val := 8, acq := some 4 }] } with ev := { idx := 0 } }
    let t := { s with ev := { idx := 1 } }
    (s.strand s.ev.who).replies[s.ev.idx]? = some { kind := .load, dst := 3, val := 9, held := [{ code := 0x0D }] }
    ∧ (t.strand t.ev.who).replies[t.ev.idx]? = some { kind := .atomic, dst := 4, val := 8, acq := some 4 }
    ∧ nextIs (exec .scalarLoadReply s) (s.modStrand 0 fun st => { st with a := [(3, 9)], replies := [{ kind := .atomic, dst := 4, val := 8, acq := some 4 }], held := [{ code := 0x0D }] })
    ∧ nextIs (exec .amosReply t) ((t.modStrand 0 fun st => { st with a := [(4, 8)], replies := [{ kind := .load, dst := 3, val := 9, held := [{ code := 0x0D }] }] }).acquireAt 0 0 4) := by decide +kernel
/-- VGET and VSET of lane 63: a register, laneid, lstat, predicates. -/
theorem witness_laneRegisters :
    let s := withSt fun st => { st with a := [(1, 5), (2, 63)], v := [(vKey 15 63, 77)] }
    let d := fun (v : W64) => (s.laneSeen.dest 3 v).endScalar 4
    let p := fun (k : Nat) (x : W32) => (s.setStrand 0 (s.landedNow (s.me.putLane k x))).endScalar 4
    (s.isRes s.cur = true ∧ s.laneQuiet ∧ s.source 2 = some (63, s) ∧ s.source2 1 2 = some (5, 63, s) ∧ s.laneSeen.takes 3 = true ∧ s.me.budget = 16
      ∧ s.laneSeen.me.vpois.contains (vKey 15 63) = false)
    ∧ nextIs (exec (.vgetV 3 2 15) s) (d 77) ∧ nextIs (exec (.vgetV 3 2 968) s) (d 63) ∧ nextIs (exec (.vgetV 3 2 969) s) (d 0) ∧ nextIs (exec (.vgetV 3 2 970) s) (d 0)
    ∧ nextIs (exec (.vgetK 3 2 0) s) (d 1) ∧ nextIs (exec (.vgetK 3 2 7) s) (d 0)
    ∧ nextIs (exec (.vsetV 1 2 15) s) (p (vKey 15 63) 5)
    ∧ nextIs (exec (.vsetV 1 2 969) s) (s.laneSeen.endScalar 4) ∧ nextIs (exec (.vsetV 1 2 970) s) (p (lstatKey 63) 5)
    ∧ nextIs (exec (.vsetK 1 2 0) s) (s.laneSeen.endScalar 4) ∧ nextIs (exec (.vsetK 1 2 7) s) (p (kKey 7 63) 1) := by
  refine ⟨⟨by decide +kernel, .inr (by decide +kernel), ?_⟩, ?_⟩ <;> decide +kernel
/-- DISP with room, and with 16 blocks queued. -/
theorem witness_dispatch : let s := regs [(2, 5)]
    let f := withSt fun st => { st with lane := { st.lane with dq := List.replicate 16 0 } }
    (s.isRes s.cur = true ∧ s.source 2 = some (5, s) ∧ (s.me.laneCtx s.me.csr.ih).dq.length < 16 ∧ (f.me.laneCtx f.me.csr.ih).dq.length = 16)
    ∧ nextIs (exec (.disp 2 0xFFFFF) s) ((s.modStrand 0 fun st => { st with lane := { st.lane with dq := [0x100004] } }).endScalar 0x44)
    ∧ nextIs (exec (.disp 2 0) f) (f.waitScalar (some { port := 8 })) := by decide +kernel
/-- Ports in the wrong direction, an empty one and a full one. -/
theorem witness_ports :
    let s := withSt fun st => { st with q := [(1, List.replicate 8 0)] }
    (s.isRes s.cur = true ∧ isPush 48 = true ∧ isPop 55 = true ∧ s.me.queue 4 = [] ∧ s.source2 2 3 = some (0, 0, s) ∧ (s.me.queue 1).length = 8 ∧ s.me.regBusy 49 = false)
    ∧ nextIs (exec (.add 1 2 48) s) (s.trapScalar { code := 0x04 }) ∧ nextIs (exec (.add 55 2 3) s) (s.trapScalar { code := 0x04 })
    ∧ nextIs (exec (.add 1 52 3) s) (s.waitScalar (some { port := 4 })) ∧ nextIs (exec (.add 49 2 3) s) (s.waitScalar (some { port := 1 })) := by decide +kernel
/-- Where an access of 4 bytes goes, and its faults at the ends of their ranges: the last word of G, one byte further, an offset that is no multiple, a store into C, a FREE line, a barrier, a page without a translation, a denied one, the host segment with its link up and down. -/
theorem witness_places :
    let g := regs []
    let s := withSt fun st => { st with segs := { st.segs with g := { base := 0, len := 0x100 }, c := { base := 0, len := 0x100 }, h := { base := 0, len := 0x100 }, o := { base := 0, len := 0x1000 } } }
    let o := { s with osLines := [(oslKey 0 0, { free := true }), (oslKey 0 1, { barr := 1 })] }
    let stop := fun (r : Except Stop (Place × State)) (c : Byte) (fa : W64) => match r with | .error (.trap t []) => decide (t = { code := c, faddr := fa }) | _ => false
    okAnd (scalarPlace 0 0xFC 4 0 s) (fun p _ => decide (p = .mem 0xFC polNC false)) = true ∧ stop (scalarPlace 0 0x100 4 0 s) 0x06 0x100 = true ∧ stop (scalarPlace 0 0xFE 4 0 s) 0x06 0xFE = true
    ∧ stop (scalarPlace 2 0 4 1 s) 0x06 0 = true ∧ stop (scalarPlace 4 0 4 0 o) 0x06 0 = true ∧ stop (scalarPlace 4 0x100 4 1 o) 0x05 0x100 = true ∧ okAnd (scalarPlace 4 0x100 4 0 o) (fun p t => decide (p = .os 0 0x100 ∧ t = o)) = true
    ∧ (match scalarPlace 0 0x10000 4 0 (withSt fun st => { st with segs := { st.segs with g := { base := 0, len := 0x20000 } } }) with | .error (.park _) => true | _ => false) = true
    ∧ (match scalarPlace 0 0xFC 4 1 { s with acc := [] } with | .error (.trap t l) => decide (t.code = 0x07 ∧ t.faddr = 0xFC ∧ l = [(0xFC, 1)]) | _ => false) = true
    ∧ g.isRes g.cur = true := by decide +kernel
/-- A load, a store and an atomic whose access finds no place: out of the limit, and on a page that has no translation. -/
theorem witness_accessStops : let s := regs [(1, 0x1000), (2, 5)]
    (s.isRes s.cur = true ∧ s.mayAccess ∧ s.source 1 = some (0x1000, s) ∧ s.takes 3 = true ∧ s.source2 2 1 = some (5, 0x1000, s) ∧ s.source2 1 2 = some (0x1000, 5, s))
    ∧ nextIs (exec (.ld 3 1 0 2 0 0) s) (s.trapScalar { code := 0x06, faddr := 0x1000 }) ∧ nextIs (exec (.st 2 1 0 2 0) s) (s.trapScalar { code := 0x06, faddr := 0x1000 })
    ∧ nextIs (exec (.amos 3 1 2 0 3 0 0) s) (s.trapScalar { code := 0x06, faddr := 0x1000 })
    ∧ (let u := withSt fun st => { st with a := [(1, 0x10000)], segs := { st.segs with g := { base := 0, len := 0x20000 } } }
       match scalarPlace 0 0x10000 4 0 u with
       | .error (.park p) => nextIs (exec (.ld 3 1 0 2 0 0) u) (u.parkScalar 0 p)
       | _ => false) = true := by
  refine ⟨⟨by decide +kernel, by unfold State.mayAccess; decide +kernel, by decide +kernel, by decide +kernel, by decide +kernel, by decide +kernel⟩, by decide +kernel, by decide +kernel, by decide +kernel, by decide +kernel⟩
/-- VGET and VSET of a register past the budget, of a queue, of lane 64, of a poisoned word, and with a block in progress. -/
theorem witness_laneRegisterTraps :
    let s := withSt fun st => { st with a := [(1, 5), (2, 63), (4, 64)], v := [(vKey 15 63, 77)], vpois := [vKey 15 63] }
    let b := withSt fun st => { st with a := [(2, 63)], lane := { st.lane with busy := true } }
    (s.isRes s.cur = true ∧ ¬ (16 < s.me.budget) ∧ s.source 2 = some (63, s) ∧ s.source 4 = some (64, s) ∧ s.takes 3 = true ∧ s.laneSeen.takes 3 = true ∧ s.laneSeen.me.vpois.contains (vKey 15 63) = true
      ∧ b.isRes b.cur = true ∧ b.me.csr.ih = false ∧ b.me.laneIdle = false ∧ b.source 2 = some (63, b))
    ∧ nextIs (exec (.vgetV 3 2 16) s) (s.trapScalar { code := 0x03 }) ∧ nextIs (exec (.vgetV 3 2 967) s) (s.trapScalar { code := 0x05 }) ∧ nextIs (exec (.vsetV 1 2 968) s) (s.trapScalar { code := 0x05 })
    ∧ nextIs (exec (.vgetV 3 4 15) s) (s.trapScalar { code := 0x05 }) ∧ nextIs (exec (.vsetK 1 4 1) s) (s.trapScalar { code := 0x05 })
    ∧ nextIs (exec (.vgetV 3 2 15) s) (((s.laneSeen.holds [{ code := 0x0D, tmask := 0x8000000000000000 }]).dest 3 0).endScalar 4)
    ∧ nextIs (exec (.vgetK 3 2 0) b) (b.waitScalar (if b.me.blocksRun then some { port := 9 } else none)) := by decide +kernel
/-- DISP in the handler: the fourth block of the trap window, and the fifth, which waits. -/
theorem witness_dispatchInHandler :
    let s := fun n => withSt fun st => { st with csr := { st.csr with ih := true }, win := { st.win with dq := List.replicate n 0 } }
    ((s 3).isRes 0 = true ∧ (s 3).source 0 = some (0, s 3) ∧ ((s 3).me.laneCtx true).dq.length = 3 ∧ ((s 4).me.laneCtx true).dq.length = 4)
    ∧ nextIs (exec (.disp 0 9) (s 3)) (((s 3).modStrand 0 fun st => { st with win := { st.win with dq := [0, 0, 0, 9] } }).endScalar 4)
    ∧ nextIs (exec (.disp 0 0) (s 4)) ((s 4).waitScalar (some { port := 8 })) := by decide +kernel
/-- A flag that stands for work visible at .pkg, a wider FENCE.rel before a narrower one, and the store that it has performed at the home slice. -/
theorem witness_flagsAndRelease :
    let s := withSt fun st => { st with pkgFlags := [2, 3] }
    let r := { regs [(1, 9), (2, 0x20)] with strands := (regs [(1, 9), (2, 0x20)]).strands.map fun (k, st) => (k, { st with relStore := some 4 }) }
    (s.isRes s.cur = true ∧ s.me.flag 2 = 0 ∧ r.isRes r.cur = true ∧ r.me.relStore = some 4 ∧ (r.releases 1).released r.cur 1 = true ∧ r.source2 1 2 = some (9, 0x20, r))
    ∧ nextIs (exec (.fwait 2) s) ((let t := s.acquires 4; t.setStrand 0 { t.me with pkgFlags := [3] }).endScalar 4)
    ∧ nextIs (exec (.fenceRel 1) r) ((r.releases 1).endScalar 0x44)
    ∧ (okAnd (scalarPlace 0 0x20 4 1 r) fun p s2 => okAnd (writePlace p 4 9 true s2) fun _ s3 => nextIs (exec (.st 1 2 0 2 0) r) ((s3.setStrand 0 { s3.me with relStore := none }).endScalar 0x44)) = true := by decide +kernel
/-- Ports of other scalar instructions: a push port as a source, a result awaited, one entry for two pops, a full port. -/
theorem witness_portForms :
    let s := withSt fun st => { st with q := [(1, List.replicate 8 0), (4, [7])], replies := [{ kind := .load, dst := 3 }] }
    (s.isRes s.cur = true ∧ portsWrong [48] [] = true ∧ portsWrong [1] [55] = true ∧ s.portsBusy [3, 53] [1] = true ∧ s.portStall [52, 52] [] = some { port := 4, need := 2 } ∧ s.portStall [52] [49] = some { port := 1 })
    ∧ nextIs (exec (.st 48 1 0 0 0) s) (s.trapScalar { code := 0x04 }) ∧ nextIs (exec (.ld 55 1 0 0 0 0) s) (s.trapScalar { code := 0x04 })
    ∧ nextIs (exec (.amos 1 3 53 0 0 0 0) s) (s.waitScalar none) ∧ nextIs (exec (.bcc 52 52 0 0) s) (s.waitScalar (some { port := 4, need := 2 }))
    ∧ nextIs (exec (.sstat 49 52) s) (s.waitScalar (some { port := 1 })) ∧ nextIs (exec (.disp 53 0) s) (s.waitScalar (some { port := 5 })) := by decide +kernel
/-- Team barrier 1 has role 0 as a member; barrier 2 has none. One strand completes the phase at once; in a team of two it waits. -/
theorem witness_barriers :
    let s := withTeam one fun t => { t with blk := { t.blk with tbar := [0, 1, 0] } }
    let two : State := { s with strands := mput s.strands 4 { (s.strand 0) with k := 1 }, teams := mput s.teams 0 { s.team 0 with sids := [0, 4] } }
    let w := { two with strands := (two.modStrand 0 fun st => { st with barAt := some 0, arr := [(1, 0)] }).strands }
    (s.isRes s.cur = true ∧ s.isMember 0 2 = false ∧ s.isMember 0 1 = true ∧ s.phasePassed 0 1 = true ∧ (s.myBar 0 1).arrived.contains s.me.member = false ∧ s.me.barAt ≠ some s.me.pc
      ∧ w.me.barAt = some w.me.pc ∧ w.phasePassed 0 1 = false)
    ∧ nextIs (exec (.bara 0 2) s) (s.trapScalar { code := 0x09 }) ∧ nextIs (exec (.barw 0 1) s) ((s.acquires 1).endScalar 4)
    ∧ nextIs (exec (.bara 0 1) s) ((s.arrives 0 1).endScalar 4) ∧ ((s.arrives 0 1).myBar 0 1).phase = 1 ∧ ((two.arrives 0 1).myBar 0 1).phase = 0
    ∧ nextIs (exec (.bar 0 1) s) ((let v := ((s.arrives 0 1).modStrand 0 fun st => { st with barAt := some 0 }).acquires 1; v.setStrand 0 { v.me with barAt := none }).endScalar 4)
    ∧ nextIs (exec (.bar 0 1) two) (((two.arrives 0 1).modStrand 0 fun st => { st with barAt := some 0 }).endScalar 0)
    ∧ nextIs (exec (.bar 0 1) w) (w.waitScalar none) := by decide +kernel
/-- NPR: enter at tick 0, exit, and the two that are illegal. -/
theorem witness_npr : let s := one
    let i := withSt fun st => { st with npr := some 7 }
    (s.isRes s.cur = true ∧ s.me.npr = none ∧ i.me.npr = some 7)
    ∧ nextIs (exec .nprEnter s) ((s.modStrand 0 fun st => { st with npr := some 0 }).endScalar 4) ∧ nextIs (exec .nprExit s) (s.trapScalar { code := 0x05 })
    ∧ nextIs (exec .nprExit i) ((i.modStrand 0 fun st => { st with npr := none }).endScalar 4) ∧ nextIs (exec .nprEnter i) (i.trapScalar { code := 0x05 }) := by decide +kernel
/-- The last two lines of the segment, and queries of its last byte and of the window. -/
theorem witness_lines : let s := oseg [(1, 0xE00), (2, 0x200), (3, 0xFFF), (4, 0x1FF)]
    (s.isRes s.cur = true ∧ s.source2 1 2 = some (0xE00, 0x200, s) ∧ s.source 3 = some (0xFFF, s) ∧ s.takes 5 = true
      ∧ 0xE00 % 256 = 0 ∧ 0xE00 + 0x200 ≤ s.me.segs.o.len.toNat ∧ (∀ i < 2, (s.osLine 0 (14 + i)).barr = 0) ∧ (0x1FF : Nat) < s.me.segs.x.len.toNat)
    ∧ nextIs (exec (.osalloc 5 1 2 9) s) (((((s.osScrub 0 0xE00 0x200).setOsLine 0 14 { cls := 9 }).setOsLine 0 15 { cls := 9 }).dest 5 2).endScalar 4)
    ∧ nextIs (exec (.osfree 1 2) s) ((((s.osScrub 0 0xE00 0x200).setOsLine 0 14 { free := true }).setOsLine 0 15 { free := true }).endScalar 4)
    ∧ nextIs (exec (.osquery 5 3) s) ((s.dest 5 (s.lineWord 0 15)).endScalar 4)
    ∧ nextIs (exec (.osqueryX 5 4) s) ((s.dest 5 (s.lineWord 0 ((s.teamOf 0).xOff false 0x1FF / 256))).endScalar 4) := by decide +kernel
/-- A barrier at O 0x20, before and after its first phase. -/
theorem witness_arrival : let s := oseg [(1, 0), (2, 0x20), (3, 3)]
    let b := (s.osWrite 0 0x20 ([3, 0, 0, 0, 0, 0, 0, 0, 0, 0, 0, 0, 1, 1] ++ leBytes 18 0)).setOsLine 0 0 { barr := 2 }
    let d := b.osWrite 0 0x28 [1, 0]
    (s.isRes s.cur = true ∧ s.source 1 = some (0, s) ∧ s.source 2 = some (0x20, s) ∧ s.source 3 = some (3, s) ∧ (s.osLine 0 0).cls = 0 ∧ (s.osLine 0 0).free = false ∧ s.hasBarrier 0 0x20 = false
      ∧ b.hasBarrier 0 0x20 = true ∧ b.abDone 0 0x20 0 = false ∧ d.abDone 0 0x20 0 = true ∧ d.hasBarrier 0 0x20 = true ∧ b.me.parkSince = none ∧ b.me.waitAt = none)
    ∧ nextIs (exec (.abinit 1 2 3) s) (b.endScalar 4)
    ∧ nextIs (exec (.abfree 2) b) (((b.osWrite 0 0x20 (leBytes 32 0)).setOsLine 0 0 { barr := 0 }).endScalar 4)
    ∧ nextIs (exec (.abwait 2 1) b) (b.waitScalar none) ∧ nextIs (exec (.abwait 2 1) d) ((d.acquires 4).endScalar 4)
    ∧ nextIs (exec (.abrel 2) b) (b.trapScalar { code := 0x05 }) ∧ nextIs (exec (.abrel 2) d) (((d.releases 4).abPut 0 0x20 10 2 1).endScalar 4)
    ∧ nextIs (exec (.park 2 1) b) ((b.modStrand 0 fun st => { st with parkSince := some (0, 0x20, 0) }).endScalar 0)
    ∧ nextIs (exec (.park 2 1) d) ((d.acquires 4).endScalar 4) := by decide +kernel
/-- ABWAIT.T with limits 0 and 1, and on a completed phase. -/
theorem witness_abwaitT : let s := oseg [(1, 0x10000), (2, 0x20), (3, 0)]
    let b := (s.osWrite 0 0x20 ([3, 0, 0, 0, 0, 0, 0, 0, 0, 0, 0, 0, 1, 1] ++ leBytes 18 0)).setOsLine 0 0 { barr := 2 }
    let d := b.osWrite 0 0x28 [1, 0]
    (b.isRes b.cur = true ∧ b.source2 2 1 = some (0x20, 0x10000, b) ∧ b.source2 2 3 = some (0x20, 0, b) ∧ b.takes 4 = true ∧ (0x10000 : W64).extractLsb' 48 16 = 0)
    ∧ nextIs (exec (.abwaitT 4 2 3) b) ((b.dest 4 1).endScalar 4)
    ∧ nextIs (exec (.abwaitT 4 2 1) b) ((b.modStrand 0 fun st => { st with waitAt := some { pc := 0, limit := 1, off := 0x20, phase := 0 } }).endScalar 0)
    ∧ nextIs (exec (.abwaitT 4 2 1) d) (((d.acquires 4).dest 4 0).endScalar 4) := by decide +kernel
/-- A record of one f32 dimension in memory; a handle that is defined and one that is not. -/
theorem witness_handles : let h : BitVec 2048 := 0x100 ||| (4#2048 <<< 128)
    let m : Memory := [(0x101, 1), (0x110, 4)]
    let s : State := { oseg [(1, 0x100)] with hbm := m }
    let t : State := { s with ctxs := mmod s.ctxs 0 fun x => { x with handles := [(7, h)] } }
    (s.isRes s.cur = true ∧ s.source 1 = some (0x100, s) ∧ s.handle 0 7 = none ∧ t.handle 0 7 = some h)
    ∧ okAnd (recordPlaces 0 0x100 0 s) (fun ps s2 => okAnd (readRecord ps s2) fun r s3 => decide (BitVec.ofNat 2048 r.1 = h) && !r.2 &&
        (if handleOk h then nextIs (exec (.hdef 1 0 7) s) (({ s3 with ctxs := mmod s3.ctxs 0 fun x => { x with handles := mput x.handles 7 h } } : State).endScalar 4) else false)) = true
    ∧ okAnd (recordPlaces 0 0x100 1 t) (fun ps s2 => okAnd (((ps.zip (List.range 32)).forM fun p => writePlace p.1 8 (h.extractLsb' (64 * p.2) 64).toNat false) s2) fun _ s3 =>
        nextIs (exec (.hread 1 0 7) t) (s3.endScalar 4)) = true
    ∧ nextIs (exec (.hread 1 0 7) s) (s.trapScalar { code := 0x05 }) := by decide +kernel
/-- A strand that has arrived at a broken barrier goes on; one whose stores to replicated lines are not acknowledged waits with its arrival. -/
theorem witness_barrierWaits :
    let s := withTeam one fun t => { t with blk := { t.blk with tbar := [0, 1, 0] } }
    let h : State := { s with strands := (s.modStrand 0 fun st => { st with arr := [(1, 0)] }).strands, bars := [(barKey 0 1 (s.myGroup 0), { arrived := [s.me.member] })] }
    let b : State := { h with bars := [(barKey 0 1 (s.myGroup 0), { arrived := [s.me.member], broken := true })] }
    let u : State := { s with updates := [{ line := 0, mask := 1, data := 0, sharers := 3, who := some s.me.member }] }
    (h.isRes h.cur = true ∧ h.isMember 0 1 = true ∧ (h.myBar 0 1).arrived.contains h.me.member = true ∧ (h.myBar 0 1).broken = false ∧ (b.myBar 0 1).broken = true ∧ b.phasePassed 0 1 = true
      ∧ h.phasePassed 0 1 = false ∧ (u.myBar 0 1).arrived.contains u.me.member = false ∧ (u.releases (barScope 0)).released u.cur (barScope 0) = false)
    ∧ nextIs (exec (.bara 0 1) h) (h.waitScalar none) ∧ nextIs (exec (.bar 0 1) u) (u.waitScalar none) ∧ nextIs (exec (.barw 0 1) h) (h.waitScalar none)
    ∧ nextIs (exec (.bara 0 1) b) (b.endScalar 4) ∧ nextIs (exec (.barw 0 1) b) ((b.acquires 1).endScalar 4) := by decide +kernel
/-- ABFREE of a barrier that a stream command names, ABREL before its release is complete, PARK and ABWAIT.T that wait already: the phase met within the limit, the limit run out, the limit to come. -/
theorem witness_arrivalWaits : let s := oseg [(1, 0x10000), (2, 0x20), (3, 0)]
    let b := (s.osWrite 0 0x20 ([3, 0, 0, 0, 0, 0, 0, 0, 0, 0, 0, 0, 1, 1] ++ leBytes 18 0)).setOsLine 0 0 { barr := 2 }
    let p := b.modStrand 0 fun st => { st with parkSince := some (0, 0x20, 0) }
    let n : State := { b with progs := [(0, { ctx := 0, running := true, targets := [1], cur := some { op := .notifyCredit, w := { w0 := 0, w1 := 0x20, w2 := 0, w3 := 0 } } })] }
    let w := fun (m : Bool) (l : Nat) => b.modStrand 0 fun st => { st with waitAt := some { pc := 0, limit := l, off := 0x20, phase := 0, met := m } }
    let d : State := { b.osWrite 0 0x28 [1, 0] with updates := [{ line := 0, mask := 1, data := 0, sharers := 3, who := some b.me.member }] }
    (b.abStands 0x20 ∧ p.isRes p.cur = true ∧ p.source 2 = some (0x20, p) ∧ p.source2 2 3 = some (0x20, 0, p) ∧ (w true 0).source2 2 1 = some (0x20, 0x10000, w true 0) ∧ (w true 0).takes 4 = true
      ∧ n.isRes n.cur = true ∧ n.source 2 = some (0x20, n) ∧ n.barrierNamed n.me.team (n.team n.me.team) 0x20 = true ∧ d.abField 0 0x20 10 2 ≠ d.abField 0 0x20 8 2 ∧ (d.releases 4).released d.cur 4 = false ∧ d.source 2 = some (0x20, d))
    ∧ nextIs (exec (.abfree 2) n) (n.trapScalar { code := 0x05 }) ∧ nextIs (exec (.park 2 3) p) (p.waitScalar none) ∧ nextIs (exec (.abrel 2) d) (d.waitScalar none)
    ∧ nextIs (exec (.abwaitT 4 2 1) (w true 0)) (((((w true 0).acquires 4).modStrand 0 fun st => { st with waitAt := none }).dest 4 0).endScalar 4)
    ∧ nextIs (exec (.abwaitT 4 2 1) (w false 0)) ((((w false 0).modStrand 0 fun st => { st with waitAt := none }).dest 4 1).endScalar 4)
    ∧ nextIs (exec (.abwaitT 4 2 1) (w false 1)) ((w false 1).waitScalar none) := by
  refine ⟨⟨by unfold State.abStands State.abFits; decide +kernel, by decide +kernel⟩, by decide +kernel⟩
/-- HDEF of a record that R40 refuses and of one out of the limit; HREAD as the release store of a FENCE.rel.pkg. -/
theorem witness_handleStops :
    let s : State := { oseg [(1, 0x100), (2, 0xFC0)] with hbm := [(0x101, 9)] }
    let t : State := ({ s with ctxs := mmod s.ctxs 0 fun x => { x with handles := [(7, 0x100)] } } : State).modStrand 0 fun st => { st with relStore := some 4 }
    (s.isRes s.cur = true ∧ s.mayAccess ∧ s.source 1 = some (0x100, s) ∧ s.source 2 = some (0xFC0, s) ∧ t.handle 0 7 = some 0x100 ∧ t.me.relStore = some 4)
    ∧ okAnd (recordPlaces 0 0x100 0 s) (fun ps s2 => okAnd (readRecord ps s2) fun r _ => !handleOk (BitVec.ofNat 2048 r.1) && nextIs (exec (.hdef 1 0 7) s) (s.trapScalar { code := 0x05 })) = true
    ∧ (match recordPlaces 0 0xFC0 0 s with | .error e => nextIs (exec (.hdef 2 0 7) s) (s.scalarStop e) | _ => false) = true
    ∧ (match recordPlaces 0 0xFC0 1 t with | .error e => nextIs (exec (.hread 2 0 7) t) (t.scalarStop e) | _ => false) = true
    ∧ okAnd (recordPlaces 0 0x100 1 t) (fun ps s2 => okAnd (((ps.zip (List.range 32)).forM fun p => writePlace p.1 8 ((0x100 : BitVec 2048).extractLsb' (64 * p.2) 64).toNat true) s2) fun _ s3 =>
        nextIs (exec (.hread 1 0 7) t) ((s3.setStrand 0 { s3.me with relStore := none }).endScalar 4)) = true := by
  refine ⟨⟨by decide +kernel, by unfold State.mayAccess; decide +kernel, by decide +kernel⟩, by decide +kernel⟩
/-- A context that is no user context loads a descriptor, one that breaks R77 traps; in a user context SEGLD and HALT trap. -/
theorem witness_segments : let s := regs [(1, 0x1000), (2, 0x80), (3, 4)]
    let k : State := { s with ctxs := [(0, { user := false })] }
    (s.isRes s.cur = true ∧ (s.ctx (s.ctxOf s.cur)).user = true ∧ (k.ctx (k.ctxOf k.cur)).user = false ∧ k.source2 1 2 = some (0x1000, 0x80, k) ∧ k.me.laneIdle = true)
    ∧ nextIs (exec (.segld 1 2 2) s) (s.trapScalar { code := 0x02 }) ∧ nextIs (exec .halt s) (s.trapScalar { code := 0x02 })
    ∧ nextIs (exec (.segld 1 2 2) k) ((k.modStrand 0 fun st => { st with segs := { st.segs with c := { base := 0x1000, len := 0x80 } } }).endScalar 0x44)
    ∧ nextIs (exec (.segld 3 2 1) k) (k.trapScalar { code := 0x05 })
    ∧ (let h := k.modStrand 0 fun st => { st with csr := { st.csr with ih := true }, lane := { st.lane with busy := true } }
       h.me.blocksRun = true ∧ nextIs (exec (.segld 1 2 2) h) (h.waitScalar (some { port := 9 })))
    ∧ (let h := k.modStrand 0 fun st => { st with longs := [{ kind := .mem, op := .laneLd, w := noW, tag := 0 }] }
       h.me.blocksRun = false ∧ h.me.longs ≠ [] ∧ nextIs (exec (.segld 1 2 2) h) (h.waitScalar none)) := by
  decide +kernel
/-- YIELD, EXIT with and without work, HALT. -/
theorem witness_ends : let s := one
    let k : State := { s with ctxs := [(0, { user := false })] }
    let b := withSt fun st => { st with replies := [{ kind := .load, dst := 3 }] }
    (s.isRes s.cur = true ∧ s.workLeft s.cur = false ∧ s.me.flagsClear = true ∧ s.me.savedClear = true ∧ s.me.longs = [] ∧ s.me.pendC = [])
    ∧ nextIs (exec .yield s) (s.endScalar 4) ∧ nextIs (exec .exit s) ((s.removeStrand 0).barLeave 0 (s.team 0)) ∧ nextIs (exec .exit b) (b.waitScalar none)
    ∧ (let l := withSt fun st => { st with lane := { st.lane with busy := true } }
       l.me.lane.noBlock = false ∧ nextIs (exec .exit l) (l.waitScalar (some { port := 9 })))
    ∧ nextIs (exec .halt k) ((((k.modStrand 0 fun st => { st with halt := .byHalt }).report 0x33 0 0 0)).endScalar 4) := by decide +kernel
/-- Services 0x80000 and 2; a LAUNCH on queue 5: disabled, full, and with room. -/
theorem witness_services : let s := regs [(1, 5), (2, 0x100)]
    let q : Queue := { ringlog := 4, lring := 0x800 }
    let a : State := { s with queues := [(5, q)] }
    let f : State := { s with queues := [(5, { q with en := true, tail := 16 })] }
    let e : State := { s with queues := [(5, { q with en := true, tail := 15 })], tlb := mput s.tlb (tlbKey 8 0 0) { ppage := 1, r := true, w := true, policy := polNC } }
    let answer := fun (t : State) (n : W64) => (t.modStrand 0 fun st => (st.setReg 1 n).setReg 2 0).endScalar 0x44
    let n : State := { s with queues := [(5, { q with ctx := 1, en := true })] }
    (s.isRes s.cur = true ∧ (∀ r ∈ List.range 7, s.me.regBusy r = false))
    ∧ okAnd (recordPlaces 0 0x100 0 n) (fun ps s1 => okAnd (readRecord ps s1) fun _ s2 => nextIs (exec (.sysc 1) n) (answer s2 2)) = true
    ∧ okAnd (recordPlaces 0 0x100 0 s) (fun ps s1 => okAnd (readRecord ps s1) fun _ s2 => mget? s.queues 5 == none && nextIs (exec (.sysc 1) s) (answer s2 3)) = true
    ∧ nextIs (exec (.sysc 2) s) ((s.modStrand 0 fun st => (st.setReg 1 (-1)).setReg 2 0).endScalar 0x44)
    ∧ nextIs (exec (.sysc 0x80000) s) ((((s.postService { ty := 3, arg := 0x80000, body := [5, 0x100, 0, 0, 0, 0], sid := 0, seq := 0 }).awaitReply
        { kind := .service, dst := 1, svc := some 0 }).awaitReply { kind := .service, dst := 2, svc := some 0 }).endScalar 0x44)
    ∧ okAnd (recordPlaces 0 0x100 0 a) (fun ps s1 => okAnd (readRecord ps s1) fun _ s2 => nextIs (exec (.sysc 1) a) (answer s2 3)) = true
    ∧ okAnd (recordPlaces 0 0x100 0 f) (fun ps s1 => okAnd (readRecord ps s1) fun _ s2 => nextIs (exec (.sysc 1) f) (answer s2 1)) = true
    ∧ okAnd (recordPlaces 0 0x100 0 e) (fun ps s1 => okAnd (readRecord ps s1) fun r s2 => okAnd (ringWrite 0 (0x800 + 256 * 15) (leBytes 256 r.1) s2) fun _ s3 =>
        nextIs (exec (.sysc 1) e) (answer (s3.doorbell 5 16) 0)) = true := by decide +kernel
/-- The strand with an O segment of 256 KiB, on a core with a tile that it holds, of the formats given. -/
def tiled (l : List (Nat × W64)) (cfg : W64) (ha hb : BitVec 2048) : State :=
  { withTeam (withSt fun st => { st with a := l, segs := { st.segs with o := { base := 0, len := 0x40000 } } }) fun t => { t with tseg := 0x40000 } with
    tiles := [(tileKey 0 0, { owner := some 0, cfg := some cfg, ha := ha, hb := hb })] }
/-- Tile configuration: a claim that is granted, one that waits; set, stat and free. -/
theorem witness_tiles : let s := tiled [(1, 0x201)] 0 0x101 0x101
    let n := one
    let full : State := { one with tiles := (List.range 7).map fun p => (tileKey 0 p, { owner := some 4 }) }
    let s' : State := { s with ctxs := mmod s.ctxs 0 fun x => { x with handles := [(1, 0x101), (2, 0x102)] } }
    (s.isRes s.cur = true ∧ (s.tileBack.any fun b => b.sid == s.cur) = false ∧ n.holdsTile n.cur = false ∧ n.claimTurn = true ∧ (n.freeTiles 0).length = 8 ∧ (full.freeTiles 0).length = 1
      ∧ s.tileOf s.cur 0 = some 0 ∧ s.source 1 = some (0x201, s) ∧ s.takes 2 = true ∧ s'.handle 0 1 = some 0x101 ∧ s'.handle 0 2 = some 0x102 ∧ s.mxCmds 0 = [])
    ∧ nextIs (exec (.mxcfgClaim 8) n) ((let t := (n.dropClaim 0).takeTiles 0 8; t.setStrand t.cur { t.me with claim := none }).endScalar 4)
    ∧ nextIs (exec (.mxcfgClaim 2) full) ((let t := (full.dropClaim 0).addClaim 0; t.setStrand t.cur { t.me with claim := some 2 }).endScalar 0)
    ∧ nextIs (exec (.mxcfgSet 0 1) s') (if cfgOk 0x201 0x101 0x102 then (s'.setTile 0 0 { s'.tile 0 0 with cfg := some 0x201, ha := 0x101, hb := 0x102 }).endScalar 4 else s'.trapScalar { code := 0x05 })
    ∧ nextIs (exec (.mxcfgStat 2 0) s) (((s.setTile 0 0 { s.tile 0 0 with status := 0 }).dest 2 (s.tileStatus 0 0)).endScalar 4)
    ∧ nextIs (exec .mxcfgFree s) ((s.freeTile 0 0).endScalar 4) := by decide +kernel
/-- MXLOOP and MXSP of one step on f16, A at O 0, B at O 0x8000, the metadata at O 0x10000. -/
theorem witness_multiply : let l : List (Nat × W64) := [(11, 0x8000), (16, 0x20000), (20, 1)]
    let s := tiled l 0 0x101 0x101
    let p := tiled l 0x10000 0x101 0x101
    let c : MxCmd := { kind := .dense, sid := 0, tile := 0, flag := 3, count := 1, offA := 0, offB := 0x8000, cfg := 0, ha := 0x101, hb := 0x101, acq := some (0, 0) }
    (s.isRes s.cur = true ∧ s.source 20 = some (1, s) ∧ (s.mxCmds 0).length < 32 ∧ s.tileOf 0 0 = some 0 ∧ groupOk 10 6 = true ∧ groupOk 10 8 = true ∧ (∀ i < 8, s.me.regBusy (10 + i) = false)
      ∧ adOk 256 0 = true ∧ adOk 256 0x8000 = true ∧ incOk 0 0 = true ∧ stageOk s 0 0 0 1 = true ∧ cfgSp 0 = 0 ∧ cfgSp 0x10000 ≠ 0
      ∧ (∀ r ∈ stepRegions [((0 : W64), (0 : W64), fragA 1 (denseK 1 1)), (0x8000, 0, fragB 1 (denseK 1 1))] 1 [0, 0x8000], s.mxInside 0 r = true ∧ s.mxNotFree 0 r = true))
    ∧ nextIs (exec (.mxloop 0 10 20 3 1 0) s) ((s.mxAccepts { c with regs := [0, 0x8000, 0, 0, 0, 0] }).endScalar 4)
    ∧ nextIs (exec (.mxsp 0 10 20 3 1 0) p) ((p.mxAccepts { c with kind := .sparse, cfg := 0x10000, regs := [0, 0x8000, 0, 0, 0, 0, 0x20000, 0], offM := 0x20000 }).endScalar 4) := by decide +kernel
/-- MXRK of 128 rows; MXST to f32 with no residue and to f16 with one; MXST.zero that frees the tile. -/
theorem witness_rankAndStore : let s := tiled [(11, 0x18000), (12, 516), (13, 4), (20, 128), (21, 0x100), (22, 0x20000)] 0 0x10C 0x101
    let c : MxCmd := { kind := .store, sid := 0, tile := 0, flag := 15, count := 8, cfg := 0 }
    (s.isRes s.cur = true ∧ s.source 20 = some (128, s) ∧ s.source 21 = some (0x100, s) ∧ s.source 22 = some (0x20000, s) ∧ hFmt (0x10C : BitVec 2048) = 12 ∧ groupOk 10 4 = true
      ∧ adOk 4 0 = true ∧ adOk 256 0x18000 = true)
    ∧ nextIs (exec (.mxrk 0 10 20 0 0) s) ((s.mxAccepts { kind := .rank, sid := 0, tile := 0, flag := 0, regs := [0, 0x18000, 516, 4], count := 128, rows := List.replicate 128 {}, cfg := 0, ha := 0x10C, hb := 0x101 }).endScalar 4)
    ∧ nextIs (exec (.mxst 0 0 0 0 21 0 15 0) s) ((s.mxAccepts { c with regs := [0x100, 0] }).endScalar 4)
    ∧ nextIs (exec (.mxst 1 1 0 0 21 22 15 1) s) ((let u := s.mxAccepts { c with regs := [0x100, 0x20000], out := 1, ovf := true, free := true, res := true }
        u.setTile 0 0 { u.tile 0 0 with freed := true }).endScalar 4)
    ∧ nextIs (exec (.mxstZero 1 0 15) s) ((let u := s.mxAccepts { c with count := 0, out := 15, zero := true, free := true }; u.setTile 0 0 { u.tile 0 0 with freed := true }).endScalar 4) := by decide +kernel
/-- SKICK on engine 2 of a live die, on one of a lost die, on a full engine; by a handle; the status and cancelling of its ticket. -/
theorem witness_streams : let l : List (Nat × W64) := [(10, 0x2000), (20, 2), (21, 0)]
    let s := withSt fun st => { st with a := l }
    let dead : State := { s with live := 0xFD }
    let full : State := { s with progs := (List.range 64).map fun i => (128 + i, { ctx := 0, running := true }) }
    let h : State := { s with ctxs := mmod s.ctxs 0 fun x => { x with handles := [(0, 0x101)] } }
    let k : State := { s with progs := [(128, { ctx := 0, running := true, gen := 3 })] }
    let tk : W64 := 0x30002
    let kt : State := { k with strands := (k.modStrand 0 fun st => { st with a := [(1, tk)] }).strands }
    (s.isRes s.cur = true ∧ groupOk 10 3 = true ∧ (∀ i < 3, s.me.regBusy (10 + i) = false) ∧ s.source 20 = some (2, s) ∧ s.takes 1 = true ∧ s.dieLive 1 = true ∧ dead.dieLive 1 = false
      ∧ s.skickWaiters 2 = [] ∧ s.freeSlot 2 = some 0 ∧ full.freeSlot 2 = none ∧ h.handle 0 0 = some 0x101 ∧ kt.source 1 = some (tk, kt) ∧ kt.ticketSlot 0 tk = some 128 ∧ s.ticketSlot 0 tk = none)
    ∧ nextIs (exec (.skickE 1 10 20 4 1) s) (let s4 := ((s.releases 4).countedPkg 4).takeSlot 0 128 0x2000 0 0 4 true
        let s5 := s4.setStrand 0 { s4.me with skick := none }
        (s5.dest 1 (BitVec.ofNat 64 (s5.ticket 128))).endScalar 4)
    ∧ nextIs (exec (.skickE 1 10 20 4 1) dead) (((dead.releases 4).dest 1 2).endScalar 4)
    ∧ nextIs (exec (.skickE 1 10 20 4 1) full) ((let t : State := { full.releases 4 with skickQ := [(2, [0])] }
        t.setStrand 0 { t.me with skick := some { eng := 2, e := true, d := 1, g := 10, b := 20, f := 4, t := 1 } }).endScalar 0)
    ∧ okAnd (xlateMine 0 {} 0 0 0 0 h) (fun p s2 => decide (p = .mem 0 3 false) && nextIs (exec (.skickH 1 10 21 15 0) h) (let s4 := (s2.releases 4).takeSlot 0 0 0x2000 0 0 15 false
        let s5 := s4.setStrand 0 { s4.me with skick := none }
        (s5.dest 1 (BitVec.ofNat 64 (s5.ticket 0))).endScalar 4)) = true
    ∧ nextIs (exec (.sstat 2 1) kt) ((kt.dest 2 (kt.ticketWord 0 tk)).endScalar 4)
    ∧ nextIs (exec (.sstatCancel 2 1) kt) (((kt.modProg 128 fun p => { p with cancel := true }).dest 2 (kt.ticketWord 0 tk)).endScalar 4) := by decide +kernel
/-- The illegal operands of MXCFG: no tile, nine tiles, a second claim, a tile that is not claimed, a handle not in force. -/
theorem witness_tileTraps : let s := tiled [(1, 0x201)] 0 0x101 0x101
    (s.isRes s.cur = true ∧ s.holdsTile s.cur = true ∧ s.tileOf s.cur 1 = none ∧ s.tileOf s.cur 0 = some 0 ∧ s.source 1 = some (0x201, s) ∧ s.handle 0 1 = none)
    ∧ nextIs (exec (.mxcfgClaim 0) one) (one.trapScalar { code := 0x05 }) ∧ nextIs (exec (.mxcfgClaim 9) one) (one.trapScalar { code := 0x05 }) ∧ nextIs (exec (.mxcfgClaim 1) s) (s.trapScalar { code := 0x05 })
    ∧ nextIs (exec (.mxcfgStat 2 1) s) (s.trapScalar { code := 0x05 }) ∧ nextIs (exec (.mxcfgSet 0 1) s) (s.trapScalar { code := 0x05 }) := by decide +kernel
/-- SKICK that waits already, and one whose release is not complete. -/
theorem witness_skickWaits :
    let s := withSt fun st => { st with a := [(10, 0x2000), (20, 2)] }
    let k : SkickWait := { eng := 2, e := true, d := 1, g := 10, b := 20, f := 4, t := 1 }
    let w : State := { s with skickQ := [(2, [4, 0])], strands := [(0, { s.me with skick := some k }), (4, { s.me with skick := some k })] }
    let u : State := { s with updates := [{ line := 0, mask := 1, data := 0, sharers := 3, who := some s.me.member }] }
    (w.isRes w.cur = true ∧ (w.releases 4).released w.cur 4 = true ∧ w.skickWaiters 2 = [4, 0] ∧ (u.releases 4).released u.cur 4 = false)
    ∧ nextIs (exec (.skickE 1 10 20 4 1) w) (w.waitScalar none) ∧ nextIs (exec (.skickE 1 10 20 4 1) u) (u.waitScalar none) := by decide +kernel
/-- SCOPY under an empty predicate, and a load of eight f32 elements from a tensor at virtual 0 into O 0x100. -/
theorem witness_scopy : let h : BitVec 2048 := 0x100 ||| (64#2048 <<< 128)
    let s : State := { oseg [(10, 0x0700000000000100 ||| (5 <<< 46)), (11, 8)] with ctxs := [(0, { handles := [(7, h)] })], launches := [(0, { recBytes := List.replicate 0x9D 0 ++ [0x10, 0, 0] })] }
    let s : State := { s with strands := (s.modStrand 0 fun st => { st with v := [(vKey 5 0, 16)] }).strands }
    let c : Scopy := { sid := 0, team := 0, flag := 2, lead := 0, store := false, w := scopyWords 0 0 (0x0700000000000100 ||| (5 <<< 46)) 8 0, h := h, coords := [16], ph := 0 }
    (s.isRes s.cur = true ∧ groupOk 10 3 = true ∧ (∀ i < 3, s.me.regBusy (10 + i) = false) ∧ s.me.predMask 1 = 0 ∧ s.me.predMask 0 ≠ 0 ∧ s.handle 0 7 = some h ∧ c.copy.fieldsOk c.w.w1 = true
      ∧ s.regionInside c.copy (s.teamOf 0) = true ∧ (s.dieCopies 0).length < 256)
    ∧ nextIs (exec (.scopyLd 1 10 2 0 0) s) (s.endScalar 4)
    ∧ nextIs (exec (.scopyLd 0 10 2 0 0) s) ((let t := (s.countedPkg 2).holds []; t.setDieCopies 0 [c]).endScalar 4) := by decide +kernel
/-- A COLL of one rank on four f32 elements. -/
theorem witness_coll : let h : BitVec 2048 := 0x100 ||| (4#2048 <<< 128)
    let s : State := { withSt (fun st => { st with a := [(10, 0x0707), (11, 0x100)] }) with
      ctxs := [(0, { handles := [(7, h)] })], hbm := [(0x100, 5), (0x104, 1)], tlb := [(tlbKey 0 0 0, { ppage := 0, r := true, w := true, x := true, policy := polNC }), (tlbKey 8 0 0, { ppage := 0, r := true, policy := polNC })] }
    (s.isRes s.cur = true ∧ groupOk 10 3 = true ∧ s.handle 0 7 = some h ∧ elemsOf h = 4 ∧ collFmtOk 0 (hFmt h) = true ∧ s.colls.length < 256)
    ∧ okAnd (descBytes 0 0x100 64 0 s) (fun head s1 => fld head 4 2 == 1 && okAnd (descBytes 0 0x100 72 5 s1) fun bs s2 =>
        let d : List W64 := (List.range 9).map fun i => BitVec.ofNat 64 (fld bs (8 * i) 8)
        descOk d && !dRemote d 0 && decide (dGid d = 5) && nextIs (exec (.coll 10 3 0) s) ((((s2.releases 4).countedPkg 3).acceptColl
          { ctx := 0, team := 0, gid := 5, k := 0, rank := 0, p := 1, op := 0, hs := h, hd := h, desc := d, acq := false, rel := false, scope := 0, sid := 0, flag := 3, gd := 0x100 }).endScalar 4)) = true := by decide +kernel
/-- A handler at KS 0x100 and a trap record at P 0, in a page that can be written. -/
def handler (f : Strand → Strand) : State := withSt fun st => f { st with segs := { st.segs with p := { base := 0x1000, len := 4 } }, csr := { st.csr with tvec := 0x100 } }
/-- TRAP enters the handler; without one it is reported; in it it is a double trap. -/
theorem witness_traps : let s := handler id
    let d := handler fun st => { st with csr := { st.csr with ih := true, tcause := 0x20E } }
    (s.isRes s.cur = true ∧ s.me.csr.ih = false ∧ 4 ≤ s.me.csr.tvec.toNat ∧ 256 ≤ s.me.segs.p.len.toNat * 64 ∧ s.me.pendC = [] ∧ s.updates = []
      ∧ (mget? s.tlb (tlbKey 0 0 s.me.trec.toNat)).any (fun e => e.w && !inHostWin (e.ppage * 65536) && s.allowed 0 (e.ppage * 65536 + s.me.trec.toNat % 65536) { w := true }) = true
      ∧ one.me.csr.tvec.toNat < 4 ∧ d.me.csr.ih = true)
    ∧ (match exec (.trap 0x12345) s with
        | .next t => decide (t.me.csr.tcause = 0x123450000000020E ∧ t.me.csr.tepc = 0 ∧ t.me.csr.ih = true ∧ t.me.pc = 0x100 ∧ t.me.savedFlags = s.me.flags)
        | _ => false) = true
    ∧ s.me.trec.toNat % 256 = 0
    ∧ (match s.xlate 0 0 s.me.trec.toNat { w := true } .mem, exec (.trap 0x12345) s with
        | .ok r, .next t => r.s.allowed 0 r.pa { w := true } && (match t.dcLine 0 (r.pa / 128) with
            | some l => decide (l.ctx = 0 ∧ lineByte l.data 0 = 0x0E ∧ lineByte l.data 1 = 0x02 ∧ lineByte l.data 7 = 0x12 ∧ lineByte l.data 16 = 0xFF)
            | none => false)
        | _, _ => false) = true
    ∧ (match exec (.trap 1) one with
        | .next t => decide ((t.team 0).st = .ended 9) && t.reports.any fun r => r.kind == 0x10 && r.v0 == 0x10000000020E
        | _ => false) = true
    ∧ (match exec (.trap 1) d with
        | .next t => t.reports.any fun r => r.kind == 0x11 && r.v0 == 0x20E
        | _ => false) = true := by decide +kernel
/-- ERET of a scalar cause goes on after it, ERET.retry at it; outside a handler it is illegal; with a counted flag it waits. -/
theorem witness_returns :
    let h := handler fun st => { st with csr := { st.csr with ih := true, tcause := 0x20E, tepc := 0x40 }, pc := 0x100, savedFlags := [(1, 2)] }
    let w := handler fun st => { st with csr := { st.csr with ih := true }, flags := [(1, 2)] }
    (h.isRes h.cur = true ∧ h.me.csr.ih = true ∧ h.me.win.busy = false ∧ h.me.win.dq = [] ∧ h.me.flagsClear = true ∧ one.me.csr.ih = false ∧ w.me.flagsClear = false)
    ∧ (match exec .eret h, exec .eretRetry h with
        | .next t, .next u => decide (t.me.pc = 0x44 ∧ u.me.pc = 0x40 ∧ t.me.csr.ih = false ∧ t.me.flags = [(1, 2)] ∧ t.me.savedFlags = [] ∧ t = (h.returnFromTrap 0 false).endScalar 0x44)
        | _, _ => false) = true
    ∧ nextIs (exec .eret one) (one.trapScalar { code := 0x01 }) ∧ nextIs (exec .eret w) (w.waitScalar none) := by decide +kernel
/-- Fetch faults at the limits of KS and KL, and a fetch that succeeds. -/
theorem witness_fetchFaults : let s := withSt fun st => { st with pc := 0xFFE }
    let e := withSt fun st => { st with pc := 0xFFC }
    let l := withSt fun st => { st with lane := { st.lane with a := { st.lane.a with pc := 341, live := true } } }
    let l := { l with ev := { flag := true } }
    (s.isRes s.cur = true ∧ s.ev.flag = false ∧ s.me.segs.ks.len.toNat < s.me.pc.toNat + 4 ∧ (4095 : Nat) < 12 * 341 + 12)
    ∧ nextIs (exec .instructionFetchFault s) (s.takeTrap 0 { code := 0x06, sfault := true, epc := some 0xFFE }) ∧ nextIs (exec .instructionFetchFault e) e
    ∧ nextIs (exec .instructionFetchFault l) (l.takeTrap 0 { code := 0x06, lfault := true, unitNo := some 341 })
    ∧ nextIs (exec .unassignedEncoding s) (s.takeTrap 0 { code := 0x01, sfault := true, epc := some 0xFFE, sword := 0 }) := by decide +kernel
/-- Deferred traps: a parked entry, a condition that is known, the held cause of the lowest CODE, two streams that wait for each other. -/
theorem witness_deferred :
    let a := handler fun st => { st with entry := some { code := 0x0A } }
    let b := handler fun st => { st with pendC := [{ due := 0, trap := { code := 0x10, acm := 1, after := true } }] }
    let c := handler fun st => { st with held := [{ code := 0x0D }, { code := 0x06 }] }
    let d := handler fun st => { st with waitS := true, waitL := true, stallS := some { port := 4 }, stallA := some { port := 0 }, lane := { st.lane with busy := true, a := { st.lane.a with live := true } } }
    (a.me.entry = some { code := 0x0A } ∧ a.me.entryPark = none ∧ b.me.condsKnown 0 = true ∧ b.me.entry = none ∧ b.me.halt = .none ∧ c.me.held[1]? = some { code := 0x06 } ∧ (c.team 0).st = .running
      ∧ d.isRes 0 = true ∧ d.me.deadlocked = true)
    ∧ nextIs (exec .trapEntry a) (a.enterHandler 0 { code := 0x0A }) ∧ nextIs (exec .afterCompletionTrap b) (b.takeTrap 0 { code := 0 })
    ∧ nextIs (exec .heldCauseTrap c) ((c.modStrand 0 fun st => { st with held := [{ code := 0x0D }] }).takeTrap 0 { code := 0x06 }) := by decide +kernel
/-- A fetch whose page has no translation, and one that the access tables deny. -/
theorem witness_fetchStops :
    let s := withSt fun st => { st with segs := { st.segs with ks := { base := 0x10000, len := 0x1000 } } }
    let d : State := { one with acc := [] }
    (s.isRes s.cur = true ∧ s.ev.flag = false ∧ d.isRes d.cur = true)
    ∧ (match s.xlate 0 0 0x10000 { x := true } .mem with | .error x => nextIs (exec .instructionFetchFault s) (s.parkScalar 0 (parkOf 0 0x10000 0 3 x)) | _ => false) = true
    ∧ (match d.xlate 0 0 d.me.segs.ks.base.toNat { x := true } .mem with
       | .ok r => !r.s.allowed 0 r.pa { x := true } && nextIs (exec .instructionFetchFault d) ((d.logDenied 0 [(r.pa, 3)]).takeTrap 0 { code := 0x07, sfault := true, epc := some 0 })
       | _ => false) = true := by decide +kernel
/-- ERET waits for the trap window's block. -/
theorem witness_returnWaits : let h := handler fun st => { st with csr := { st.csr with ih := true }, win := { st.win with busy := true } }
    (h.isRes h.cur = true ∧ h.me.win.noBlock = false) ∧ nextIs (exec .eret h) (h.waitScalar (some { port := 9 })) := by decide +kernel
/-- Sources v1 = lane number (a few lanes), v2; destination v3. -/
def vs : State := lanes3 fun st => { st with v := [(vKey 1 0, 7), (vKey 1 1, 0xFFFFFFFF), (vKey 1 63, 0x80000000), (vKey 2 0, 5), (vKey 2 1, 0xFFFFFFFF)] }
def w3 : LaneW := { noW with vd := 3, va := 1, vb := 2 }
/-- What is read: an ordinary register, a port with an entry and one without, and the three kinds of numbers that may not be named. -/
theorem witness_laneOperands : let s := lanes1 fun st => { st with v := [(vKey 1 3, 9)], q := [(1, [0x1_0000_0005])] }
    let x := s.laneIn noW
    ((1 : BitVec 10).toNat < 960 ∧ s.me.queue 1 = [0x100000005] ∧ s.me.queue 0 = [] ∧ s.me.budget ≤ 16)
    ∧ okAnd (readV x 1 s) (fun f t => f 3 == 9 && f 4 == 0 && decide (t = s)) = true
    ∧ okAnd (readV x 961 s) (fun f t => f 3 == 5 && decide (t.me.queue 1 = [])) = true
    ∧ okAnd (readV x 968 s) (fun f _ => f 63 == 63) = true
    ∧ okAnd (laneRegs x [15, 968] [967, 969] s) (fun _ t => decide (t = s)) = true
    ∧ (match laneRegs x [16] [] s, laneRegs x [964] [] s, laneRegs x [] [963] s, laneRegs x [] [968] s with
        | .error (.trap a []), .error (.trap b []), .error (.trap c []), .error (.trap d []) => decide ((a.code, b.code, c.code, d.code) = (0x03, 0x04, 0x04, 0x05))
        | _, _, _, _ => false) = true
    ∧ x.idle = false ∧ (match laneRegs x [961, 961] [] s, readV x 960 s with
        | .error (.wait p), .error (.wait q) => decide (p = some { port := 1, need := 2 } ∧ q = some { port := 0 })
        | _, _ => false) = true
    ∧ (let i : LaneIn := { x with idle := true }
       okAnd (laneRegs i [961, 961] [967] s) (fun _ t => decide (t = s)) && okAnd (readV i 960 s) (fun f t => f 3 == 0 && decide (t = s))) = true := by decide +kernel
/-- Integer and bitwise results in three lanes. -/
theorem witness_laneIntegers :
    hasOps vs { w3 with ty := 5 } [1, 2] [3] (rdAB { w3 with ty := 5 }) (fun r u => nextIs (exec (.idiv { w3 with ty := 5 }) vs) (vs.laneEach { w3 with ty := 5 } u 7 fun L =>
      if L = 0 then (1, 0) else if L = 1 then (1, 0) else if L = 63 then (0x80000000, cIDZ) else (0x7FFFFFFF, cIDZ))
      && nextIs (exec (.iadds { w3 with ty := 5 }) vs) (vs.laneVals { w3 with ty := 5 } u 2 fun L => if L = 0 then 12 else if L = 1 then -2 else r.1 L)) = true
    ∧ hasOps vs { w3 with ty := 13 } [1, 2] [3] (rdAB { w3 with ty := 13 }) (fun _ u =>
        nextIs (exec (.laneSar { w3 with ty := 13 }) vs) (vs.laneVals { w3 with ty := 13 } u 2 fun L => if L = 1 then 0xFFFFFFFF else if L = 63 then 0x80000000 else 0)
        && nextIs (exec (.sel { w3 with ty := 13, vc := 0 }) vs) (vs.laneVals { w3 with ty := 13 } u 2 fun L => if L = 0 then 7 else if L = 1 then 0xFFFFFFFF else if L = 63 then 0x80000000 else 0)) = true
    ∧ hasOps vs { w3 with ty := 13, vb := 0 } [1] [3] (rdA { w3 with ty := 13, vb := 0 }) (fun _ u =>
        nextIs (exec (.laneClz { w3 with ty := 13, vb := 0 }) vs) (vs.laneVals { w3 with ty := 13, vb := 0 } u 2 fun L => if L = 0 then 29 else if L = 1 then 0 else if L = 63 then 0 else 32)
        && nextIs (exec (.bfe { w3 with ty := 13, vb := 0, low := 0x83F }) vs) (vs.laneVals { w3 with ty := 13, vb := 0, low := 0x83F } u 2 fun L => if L = 1 then -1 else if L = 63 then -1 else 0)) = true
    ∧ hasOps vs { w3 with ty := 5, vc := 2 } [1, 2, 2] [3] (rdABC { w3 with ty := 5, vc := 2 }) (fun _ u =>
        nextIs (exec (.imad { w3 with ty := 5, vc := 2 }) vs) (vs.laneVals { w3 with ty := 5, vc := 2 } u 4 fun L => if L = 0 then 40 else 0)) = true := by decide +kernel
/-- Comparisons and predicate moves. -/
theorem witness_lanePredicates :
    hasOps vs { w3 with vd := 1, ty := 6, md := 2 } [1, 2] [] (rdAB { w3 with vd := 1, ty := 6, md := 2 }) (fun _ u =>
      nextIs (exec (.icmp { w3 with vd := 1, ty := 6, md := 2 }) vs) (vs.lanePreds { w3 with vd := 1, ty := 6, md := 2 } u 2 fun _ => (false, 0))) = true
    ∧ nextIs (exec (.knot { noW with vd := 7, va := 0 }) vs) (vs.lanePreds { noW with vd := 7 } (vs.laneStart noW) 2 fun _ => (false, 0)) = true
    ∧ hasOps vs { noW with vd := 3, md := 2 } [] [3] rdNone (fun _ u => nextIs (exec (.kbal { noW with vd := 3, md := 2 }) vs) (vs.laneVals { noW with vd := 3, md := 2 } u 6 fun _ => 3)) = true
    ∧ hasOps vs { noW with vd := 1, va := 1, md := 1 } [1] [] (rdA { noW with vd := 1, va := 1, md := 1 }) (fun _ u =>
        nextIs (exec (.kmovV { noW with vd := 1, va := 1, md := 1 }) vs) (vs.lanePreds { noW with vd := 1, va := 1, md := 1 } u 2 fun L => (L == 0 || L == 1 || L == 63, 0))) = true := by decide +kernel
/-- 1.5 + 2.5, 1.5 × 2.5, −0 for the maximum of zeros; 0.5 and 1.0 with INX; f16 to f32. -/
theorem witness_laneFloats : let s := lanes3 fun st => { st with v := [(vKey 1 0, 0x3FC00000), (vKey 2 0, 0x40200000)] }
    hasOps s w3 [1, 2] [3] (rdAB w3) (fun _ u => nextIs (exec (.fadd w3) s) (s.laneEach w3 u 4 fun L => if L = 0 then (0x40800000, 0) else (0, 0))
      && nextIs (exec (.fmul w3) s) (s.laneEach w3 u 4 fun L => if L = 0 then (0x40700000, 0) else (0, 0))
      && nextIs (exec (.fmax w3) s) (s.laneEach w3 u 4 fun L => if L = 0 then (0x40200000, 0) else (0, 0))) = true
    ∧ hasOps s { w3 with vb := 0 } [1] [3] (rdA { w3 with vb := 0 }) (fun _ u => nextIs (exec (.frnd { w3 with vb := 0 }) s) (s.laneEach { w3 with vb := 0 } u 4 fun L => if L = 0 then (0x40000000, 0) else (0, 0))
      && nextIs (exec (.fclass { w3 with vb := 0 }) s) (s.laneVals { w3 with vb := 0 } u 4 fun L => if L = 0 then 0x40 else 0x10)) = true
    ∧ hasOps s { w3 with vb := 0, ty := 1 } [1] [3] (rdA { w3 with vb := 0, ty := 1 }) (fun _ u =>
        nextIs (exec (.cvt { w3 with vb := 0, ty := 1, low := 0 }) s) (s.laneEach { w3 with vb := 0, ty := 1 } u 4 fun L => if L = 0 then (0x3E00, 0) else (0, 0))) = true := by decide +kernel
/-- CVTEF with its companion v4, PACKQ4 of a block whose lanes hold 1.0 with base 1.0, and UNPACKQ4 of a malformed block. -/
theorem witness_conversions :
    let s := lanes3 fun st => { st with v := [(vKey 1 0, 0x3FC00001), (vKey 4 0, 0)] }
    let w : LaneW := { noW with ty := 1, vd := 3, va := 1, low := 0x40000 }
    let p := (lanes1 fun st => { st with v := ((List.range 32).map fun L => (vKey 1 L, (0x3F800000 : W32))) ++ [(vKey 2 0, 0x3F800000)] }).modStrand 0
      fun st => { st with lane := { st.lane with a := { st.lane.a with mask := 0xFFFFFFFF } } }
    let q : LaneW := { noW with ty := 11, vd := 3, va := 1, vb := 2, low := 0x40000 }
    let un : LaneW := { noW with ty := 0, vd := 3, va := 1, vb := 2 }
    let n := p.modStrand 0 fun st => { st with v := [(vKey 1 0, 0x3FFFF), (vKey 2 0, 0x3F800000)] }
    (okAnd (veCheck 4 3 (s.laneStart w)) fun _ t => decide (t = s.laneStart w)) = true
    ∧ hasOps s w [1] [3] (fun x => do return (← readV x w.va, ← readV x w.ve)) (fun _ u =>
        let u1 := u.setStrand u.cur (u.me.pend (s.laneIn w) u.curWord u.stepNo 4 (destWrites 3 (s.act w) fun L => if L = 0 then 0x3E00 else 0)
          ((lanesOf (s.act w)).map fun L => { lane := L, bits := if L = 0 then cINX else 0 }))
        nextIs (exec (.cvtef w) s) (s.laneGives w u1 4 (destWrites 4 (s.act w) fun L => if L = 0 then 0x34000000 else 0) [])) = true
    ∧ normal32 0x3F800000 = true
    ∧ hasOps p q [1, 2] [3] (fun x => do return (← readV x 1, ← readV { x with active := 1 } 2, ← readV x 4)) (fun _ u =>
        let enc := q4Encode (List.replicate 32 0x3F800000) 0x3F800000
        let u1 := u.setStrand u.cur (u.me.pend (p.laneIn q) u.curWord u.stepNo 6 (destWrites 3 0x1F fun L => BitVec.ofNat 32 (enc.blk / 2 ^ (32 * L)))
          ((List.range 32).map fun L => { lane := L, bits := 0 }))
        enc.vals.all (fun v => (encodeF f32 0 false false v).1 == 0x3F800000)
        && nextIs (exec (.packq4 q) p) (p.laneGives q u1 6 (destWrites 4 0xFFFFFFFF fun _ => 0) [])) = true
    ∧ hasOps n un [1, 2] [3] (fun x => do return (← readV { x with active := 0x1F } 1, ← readB { x with active := 1 } un)) (fun _ u =>
        let d := q4Decode 0x3FFFF (decodeF f32 0x3F800000)
        nextIs (exec (.unpackq4 un) n) (n.laneEach un u 6 fun L => if d.bad then (0x7FC00000, cQMAL) else fpRes 0 (encodeF f32 0 false false (d.vals.getD L (.nan false))))) = true := by decide +kernel
/-- A special function, a shuffle, a reduction, a scan: counted against f0, landing with their completion. -/
theorem witness_longIssue :
    let s := lanes3 fun st => { st with v := [(vKey 1 0, 5), (vKey 1 1, 6), (vKey 1 63, 7), (vKey 2 0, 63), (vKey 2 1, 64)] }
    let w : LaneW := { noW with ty := 5, vd := 3, va := 1, low := 0x4000000 }
    let sh : LaneW := { noW with vd := 3, va := 1, vb := 2, low := 0x4000000 }
    let fx : LaneW := { noW with vd := 3, va := 1, low := 0x4000000 }
    let t := lanes3 fun st => { st with v := [(vKey 1 0, 0x40800000)] }
    (s.laneFlag w = 0 ∧ (s.laneStart w).me.flag 0 < 65535 ∧ ((s.laneStart w).me.longs.filter fun l => l.kind == .sfu).length < 16)
    ∧ hasOps s sh [1, 2] [3] (fun x => do return (← readV { x with active := 0 } 1, ← readV x 2)) (fun _ u => u.me.vpois.isEmpty &&
        nextIs (exec (.shfl sh) s) (s.laneIssues sh u .shfl .cross 6 { writes := destWrites 3 (s.act sh) fun L => if L = 0 then 7 else if L = 1 then 6 else 5 })) = true
    ∧ hasOps s w [1] [3] (rdA w) (fun _ u => nextIs (exec (.redx w) s) (s.laneIssues w u .redx .cross 12 { writes := destWrites 3 (s.act w) fun _ => 18 })
        && nextIs (exec (.scanx w) s) (s.laneIssues w u .scanx .cross 12 { writes := destWrites 3 (s.act w) fun L => if L = 0 then 5 else if L = 1 then 11 else 18 })
        && nextIs (exec (.segred w) s) (s.laneIssues w u .segred .cross 12 { writes := destWrites 3 (s.act w) fun L => if L = 0 then 5 else if L = 1 then 6 else 7 })) = true
    ∧ hasOps t fx [1] [3] (rdA fx) (fun _ u => nextIs (exec (.sqrt fx) t) (t.laneIssues fx u .sqrt .sfu 20
        { writes := destWrites 3 (t.act fx) fun L => if L = 0 then 0x40000000 else 0 })) = true := by decide +kernel
/-- Kernels of the floating-point instructions: ∞ − ∞, 1 − 1 towards −∞, ties to even and upwards, overflow of f16 in two modes, saturation of e4m3, the largest value of bf16's subnormals under .ftz, zeros and NaN in a maximum. -/
theorem witness_floatKernels :
    addF 0 (.inf true) (.inf false) = (.nan false, cINV) ∧ addF 2 (.fin false 1 0) (.fin true 1 0) = (.fin true 0 0, 0) ∧ mulF (.inf true) (.fin false 0 0) = (.nan false, cINV)
    ∧ encodeF (fmtOf 0) 0 false false (.fin false 0x1000001 0) = (0x4B800000, cINX) ∧ encodeF (fmtOf 0) 3 false false (.fin false 0x1000001 0) = (0x4B800001, cINX)
    ∧ encodeF (fmtOf 1) 0 false false (.fin false 65520 0) = (0x7C00, cOVF ||| cINX) ∧ encodeF (fmtOf 1) 1 false false (.fin true 65520 0) = (0xFBFF, cINX) ∧ encodeF (fmtOf 1) 1 false false (.fin true 65536 0) = (0xFBFF, cOVF ||| cINX)
    ∧ encodeF (fmtOf 3) 0 false false (.fin false 480 0) = ((fmtOf 3).maxBits, cOVF ||| cINX)
    ∧ encodeF (fmtOf 2) 0 false true (.fin true 0x7F (-133)) = (0x8000, cUNF ||| cINX)
    ∧ minMaxF (fmtOf 0) true true 0x80000000 0 = (0, 0) ∧ minMaxF (fmtOf 0) true true 0x7FC00000 0x3F800000 = (0x3F800000, 0) ∧ minMaxF (fmtOf 0) true false 0x7FC00000 0x3F800000 = (0x7FC00000, 0)
    ∧ dotSum 0 [.inf false, .inf true, .nan false] = (.nan false, cINV) := by decide +kernel
/-- LD of 16-bit integers with .acq, ST with .rel, and STO: their checks, and their accesses still to be performed. -/
theorem witness_laneAccesses :
    let s := lm
    let ld : LaneW := { wl 0x0C00 with vd := 3 }
    let st : LaneW := { wl 0x1400 with vb := 2 }
    let lane := fun (L : Nat) => ({ lane := L, place := .mem (0x20 + 4 * L) 3 false, fa := BitVec.ofNat 64 (0x20 + 4 * L) } : LanePlace)
    (s.laneFlag ld = 0 ∧ auxAcq ld = true ∧ auxScope ld = 4 ∧ auxRel st = true ∧ auxScope st = 4)
    ∧ hasOps s ld [1] [3] (fun x => do return (← readV x 1, ← pure fun _ => (0 : W32))) (fun r u =>
        okAnd (lanePlaces (.mem 0) 2 0 { r := true } false (laneOffs (s.laneIn ld) false r.1 r.2 0) u) fun ps u1 => decide (ps = [lane 0, lane 1]) && decide (u1.me.flag 0 < 65535) &&
        nextIs (exec (.laneLd ld) s) (s.laneIssues ld u1 .laneLd .mem (u1.accessTime (.mem 0) ps) { acc := some { kind := .load, n := 2, todo := ps }, acq := some 4 })) = true
    ∧ hasOps s st [1, 2] [] (fun x => do return (← readV x 1, ← readV x 2, ← pure fun _ => (0 : W32))) (fun r u =>
        okAnd (lanePlaces (.mem 0) 2 1 { w := true } true (laneOffs (s.laneIn st) false r.1 r.2.2 0) u) fun ps u1 =>
        nextIs (exec (.laneSt st) s) (s.laneIssues st u1 .laneSt .mem (u1.accessTime (.mem 0) ps)
          { acc := some { kind := .store true, n := 2, todo := ps, data := [(0, 0x1234, 0), (1, 0x5678, 0)], rel := some 4 } })) = true
    ∧ (let sto : LaneW := { wl 0x8000 with vb := 2 }
       hasOps s sto [1, 2] [] (fun x => do return (← readV x 1, ← readV x 2, ← pure fun _ => (0 : W32))) (fun r u =>
        okAnd (lanePlaces .team 2 1 { w := true } true (laneOffs (s.laneIn sto) false r.1 r.2.2 0) u) fun ps u1 => decide (ps.map (·.place) = [.os 0 0x20, .os 0 0x24]) &&
        nextIs (exec (.sto sto) s) (s.laneIssues sto u1 .sto .mem (u1.accessTime .team ps) { acc := some { kind := .store false, n := 2, todo := ps, data := [(0, 0x1234, 0), (1, 0x5678, 0)] } }))) = true := by decide +kernel
/-- ATOM to memory, RED to the own segment, both of add; ATOM to the team at cluster position 1. -/
theorem witness_laneAtomics :
    let s := lm
    let at' : LaneW := { wl 0 with ty := 6, vd := 3, vb := 2 }
    let rd : LaneW := { wl 0x8000 with ty := 6, vb := 2 }
    let two : State := { lm with teams := mput (mmod lm.teams 0 fun t => { t with tpcs := 2 }) 1 { lm.team 0 with id := 1, core := 1, sids := [], tpcs := 2 } }
    let far : LaneW := { wl 0xA040 with ty := 6, vd := 3, vb := 2 }
    let data : NMap (W32 × W32) := [(0, 0x1234, 0), (1, 0x5678, 0)]
    (auxSeg at' = 0 ∧ auxSeg rd = 4 ∧ auxSeg far = 5 ∧ auxN far = 1)
    ∧ hasOps s at' [1, 2] [3] (fun x => do return (← readV x 1, ← readV x 2, ← pure fun _ => (0 : W32))) (fun r u =>
        okAnd (lanePlaces (.mem 0) 4 2 { r := true, w := true } true (laneOffs (s.laneIn at') false r.1 r.2.2 0) u) fun ps u1 =>
        nextIs (exec (.atom at') s) (s.laneIssues at' u1 .atom .mem 1 { acc := some { kind := .atomic (atomCode at'), todo := ps, data := data } })) = true
    ∧ hasOps s rd [1, 2] [] (fun x => do return (← readV x 1, ← readV x 2, ← pure fun _ => (0 : W32))) (fun r u =>
        okAnd (lanePlaces .team 4 2 { w := true } true (laneOffs (s.laneIn rd) false r.1 r.2.2 0) u) fun ps u1 =>
        nextIs (exec (.red rd) s) (s.laneIssues rd u1 .red .mem (12 + bankExtra (u1.osOffs ps)) { acc := some { kind := .atomic (atomCode rd), todo := ps, data := data } })) = true
    ∧ hasOps two far [1, 2] [3] (fun x => do return (← readV x 1, ← readV x 2, ← pure fun _ => (0 : W32))) (fun r u =>
        okAnd (lanePlaces (.partner 1 false) 4 2 { r := true, w := true } true (laneOffs (two.laneIn far) false r.1 r.2.2 0) u) fun ps u1 =>
        (match u1.partner (u1.teamOf 0) 1 with
          | some (k, _) => !ps.isEmpty && nextIs (exec (.atom far) two) (two.laneIssues far u1 .atom .mem 24 { acc := some { kind := .message (atomCode far) k, todo := ps, data := data } })
          | none => false)) = true := by decide +kernel
/-- FLUSH of the two lanes' one line, and WLAPPEND of their items to one list. -/
theorem witness_flushAndAppend :
    let s : State := { lm with tlb := mput lm.tlb (tlbKey 0 0 0) { ppage := 0, r := true, w := true, x := true, policy := polWB } }
    let fl : LaneW := wl 0
    let s' := s.modStrand 0 fun st => { st with v := [(vKey 1 0, 0x40), (vKey 1 1, 0x40), (vKey 2 0, 9), (vKey 2 1, 8)] }
    let ap : LaneW := { wl 0 with ty := 6, md := 2, vb := 2 }
    hasOps s fl [1] [] (fun x => do return (← readV x 1, ← pure fun _ => (0 : W32))) (fun r u =>
        okAnd (lanePlaces (.mem 0) 1 0 { r := true } false (laneOffs (s.laneIn fl) false r.1 r.2 0) u) fun ps u1 =>
        nextIs (exec (.flush fl) s) (s.laneIssues fl u1 .flush .mem 1 { acc := some { kind := .flush, n := 1, todo := ps } })) = true
    ∧ hasOps s' ap [1, 2] [] (fun x => do return (← readV x 1, ← readV x 2, ← pure fun _ => (0 : W32))) (fun r u =>
        okAnd (lanePlaces (.mem 0) 64 1 { w := true } false (laneOffs (s'.laneIn ap) false r.1 r.2.2 0) u) fun ps u1 =>
        nextIs (exec (.wlappend ap) s') (s'.laneIssues ap u1 .wlappend .mem 1 { acc := some { kind := .append, n := 64, todo := ps, data := [(0, 9, 0), (1, 8, 0)] } })) = true := by decide +kernel
/-- The checks of lanes 0 and 2 of a load of 4 bytes from G: both in place, both out of the limit, both denied, two pages that fault; a FREE line of the O segment and a barrier on it; a wait for a place that no check passes is none. -/
theorem witness_laneChecks :
    let s := lm
    let f := lm.modStrand 0 fun st => { st with segs := { st.segs with g := { base := 0x10000, len := 0x20000 } } }
    let o : State := { lm with osLines := [(oslKey 0 0, { free := true }), (oslKey 0 1, { barr := 1 })] }
    let r : Need := { r := true }
    okAnd (memLanes 0 4 0 r [(0, 0), (2, 0xFFC)] s) (fun ps t => decide (ps.map (·.place) = [.mem 0 3 false, .mem 0xFFC 3 false] ∧ t = s)) = true
    ∧ (match memLanes 0 4 0 r [(0, -4), (1, 0), (2, 0x1000)] s, memLanes 2 4 1 r [(1, 0)] s, memLanes 0 4 0 r [(0, 0), (2, 4)] { s with acc := [] }, memLanes 0 4 0 r [(0, 0), (1, 4), (2, 0x10000)] f with
        | .error (.trap a []), .error (.trap b []), .error (.trap c l), .error (.park p) =>
          decide ((a.code, a.tmask, a.faddr) = (0x06, 5, -4) ∧ (b.code, b.tmask) = (0x06, 2) ∧ (c.code, c.tmask, c.faddr) = (0x07, 5, 0) ∧ l = [(0, 0), (4, 0)]
            ∧ p.tmask = 7 ∧ p.page = 1 ∧ p.more.map (·.1) = [2])
        | _, _, _, _ => false) = true
    ∧ (match osWindow .team o with
        | .ok ((at', len), t) => decide (t = o ∧ len = 0x1000 ∧ at' 8 = .os 0 8)
        | _ => false) = true
    ∧ (match osLanes .team 4 false [(0, 0x1000), (1, 2)] o, osLanes .team 4 false [(0, 0x100), (3, 4)] o, osLanes .team 4 true [(0, 0x100)] o with
        | .error (.trap a []), .error (.trap b []), .error (.trap c []) => decide ((a.code, a.tmask, a.faddr) = (0x06, 3, 0x1000) ∧ (b.code, b.tmask, b.faddr) = (0x06, 8, 4) ∧ (c.code, c.tmask, c.faddr) = (0x05, 1, 0x100))
        | _, _, _ => false) = true
    ∧ okAnd (osLanes .team 4 false [(0, 0x100)] o) (fun ps t => decide (ps.map (·.place) = [.os 0 0x100] ∧ t = o)) = true := by decide +kernel
/-- The accesses of memory instructions as they are performed: a load of two lanes, a store, atomics that meet in one line, a message, FLUSH, an append; then what a completed load leaves; a release that is not complete. -/
theorem witness_lanePasses :
    let pl := fun (L pa : Nat) => ({ lane := L, place := .mem pa 3 false, fa := BitVec.ofNat 64 pa } : LanePlace)
    let run := fun (op : LaneOp) (a : LaneAcc) (acq : Option (BitVec 3)) => (lm.modStrand 0 fun st => { st with
      flags := [(0, 1)], longs := [{ kind := .mem, op := op, w := { noW with ty := 6, vd := 3 }, tag := 5, flag := 0, active := 3, due := 0, acc := some a, acq := acq }] })
    let ld : LaneAcc := { kind := .load, n := 2, todo := [pl 0 0x20, pl 1 0x24] }
    let st : LaneAcc := { kind := .store false, n := 4, todo := [pl 0 0x40], data := [(0, 7, 0)] }
    let at' : LaneAcc := { kind := .atomic 0, todo := [pl 0 0x20, pl 1 0x24], data := [(0, 1, 0), (1, 2, 0)] }
    let rel : State := { run .laneSt { st with rel := some 4 } none with updates := [{ line := 0, mask := 1, data := 0, sharers := 3, who := some (lm.strand 0).member }] }
    let one := fun (o : Option State) (f : State → LaneAcc → Bool) => match o with
      | some t => (match (t.strand 0).longs with
        | [l] => (match l.acc with
          | some a => f t a
          | none => false)
        | _ => false)
      | none => false
    (((run .laneLd ld none).strand 0).longs.all fun l => !(run .laneLd ld none).accHeld 0 l) = true
    ∧ one ((run .laneLd ld none).pass 0 0 (3, 8)) (fun _ a => decide (a.todo = [pl 1 0x24] ∧ a.got = [(0, 0x8281, 0, false)])) = true
    ∧ one ((run .laneLd ld (some 4)).pass 0 0 (3, 9)) (fun _ a => decide (a.todo = [pl 0 0x20] ∧ a.got = [(1, 0x00FF, 0, false)])) = true
    ∧ one ((run .laneSt st none).pass 0 0 (3, 16)) (fun t a => decide (a.todo = [] ∧ memNat t.hbm 0x40 4 = 7)) = true
    ∧ one ((run .atom at' none).pass 0 0 (2, 0)) (fun t a => decide (a.todo = [] ∧ a.got.map (·.2.1) = [0x8281, 0xFF] ∧ memNat t.hbm 0x20 4 = 0x8282 ∧ memNat t.hbm 0x24 4 = 0x101)) = true
    ∧ one ((run .atom { at' with kind := .message 0 7 } none).pass 0 0 (0, 0)) (fun t a => decide (a.todo = [] ∧ t.clusterMsgs.map (fun m => (m.team, m.tag, m.ops.map (·.1))) = [(7, 5, [0, 1])])) = true
    ∧ one ((run .flush { ld with kind := .flush } none).pass 0 0 (2, 0)) (fun t a => decide (a.todo = [] ∧ t.dc = lm.dc)) = true
    ∧ one ((run .wlappend { at' with kind := .append } none).pass 0 0 (1, 0x20)) (fun t a => decide (a.todo = [pl 1 0x24] ∧ t.appends.map (fun x => (x.desc, x.items)) = [(0x20, [(0, 1)])])) = true
    ∧ rel.passAll 0 0 = none ∧ nextIs (exec .laneMemoryComplete rel) rel
    ∧ (let d := run .laneLd { ld with todo := [], got := [(0, 0x8281, 0, false), (1, 0xFF, 0, false)] } none
       match exec .laneMemoryComplete d with
        | .next t => decide ((t.strand 0).longs = [] ∧ (t.strand 0).flag 0 = 0 ∧ mget (t.strand 0).v (vKey 3 0) 0 = extTy 6 0x8281 ∧ mget (t.strand 0).v (vKey 3 1) 0 = extTy 6 0xFF)
        | _ => false) = true
    ∧ poisHeld [pl 1 0x24, pl 0 0x20] = [{ code := 0x0D, tmask := 3, faddr := 0x20 }] := by decide +kernel
/-- Completions of each kind: the flag falls, the writes land, lstat takes the conditions. -/
theorem witness_completions :
    let l : LongOp := { kind := .mem, flag := 2, tag := 5, writes := [{ key := vKey 3 0, val := 7 }] }
    let s : State := lanes1 fun st => { st with flags := [(2, 3)], longs := [l, { l with kind := .cross, conds := [{ lane := 0, bits := cINX }] }, { l with kind := .sfu }, { l with kind := .rank }] }
    let at' := fun (i : Nat) => ({ s with ev := { idx := i } } : State)
    (∀ i < 4, (s.strand 0).longs[i]?.isSome = true) ∧ s.clusterMsgs = [] ∧ s.appends = [] ∧ s.rankHeld 0 { l with kind := .rank } = false ∧ l.due ≤ s.cycles 0 ∧ (s.strand 0).pendW = []
    ∧ nextIs (exec .laneMemoryComplete (at' 0)) ((at' 0).finishLong 0 0 l.writes [] [] 0)
    ∧ nextIs (exec .crossLaneComplete (at' 1)) ((at' 1).finishLong 0 1 l.writes [{ lane := 0, bits := cINX }] [] 0)
    ∧ nextIs (exec .sfuComplete (at' 0)) ((at' 0).finishLong 0 2 l.writes [] [] 0) ∧ nextIs (exec .rankOpComplete (at' 3)) ((at' 3).finishLong 0 3 l.writes [] [] 0)
    ∧ (let t := ((at' 0).finishLong 0 0 l.writes [] [] 0).strand 0
       t.flag 2 = 2 ∧ mget t.v (vKey 3 0) 0 = 7 ∧ t.longs.length = 3) := by decide +kernel
/-- RTWCFG of three lengths, and RTWNEXT after it. -/
theorem witness_walker :
    let s := lanes3 fun st => { st with v := [(vKey 1 0, 2), (vKey 1 1, 0), (vKey 1 2, 5)] }
    let w : LaneW := { noW with va := 1, im := 1, low := 3 }
    let z : LaneW := { w with low := 65 }
    let n := lanes3 fun st => { st with walker := { len := [(0, 2), (2, 5)], c := 3 } }
    let x : LaneW := { noW with vd := 3, low := 0x4040001 }
    (s.act w = 0x8000000000000003 ∧ (n.laneStart x).me.flag 0 < 65535 ∧ n.laneFlag x = 0)
    ∧ hasOps s w [1, 0] [] (fun y => do return (← readV { y with active := 0 } 1, ← readB { y with active := 1 } w)) (fun r u => u.me.vpois.isEmpty && r.2 0 == 3 &&
        (match exec (.rtwcfg w) s with
          | .next t => decide (t.me.walker.c = 3 ∧ t.me.walker.seq = 0 ∧ t.me.walker.pos = 0 ∧ mget t.me.walker.len 0 0 = 2 ∧ mget t.me.walker.len 2 0 = 5)
              && decide (t = s.laneNext w (u.setStrand 0 { u.me with walker := t.me.walker }))
          | _ => false)) = true
    ∧ nextIs (exec (.rtwcfg z) s) ((s.modStrand 0 fun st => st.landTo (s.laneIn z).t).takeTrap 0
        { code := 0x05, lfault := true, unitNo := some (s.laneIn z).unitNo, lword := 0, fA := 0, fB := 1 })
    ∧ hasOps n x [] [3] rdNone (fun _ u => okAnd (veCheck 4 3 u) (fun _ t => decide (t = u)) && (let k := u.me.walker.walk true [0, 1, 63]
        k.2.map (fun o => (o.lane, o.sq.toNat, o.pos.toNat)) == [(0, 0, 0), (1, 0, 1), (63, 2, 0)] &&
        nextIs (exec (.rtwnext x) n) (n.laneIssues x (u.setStrand 0 { u.me with walker := k.1 }) .rtwnext .cross 8
          { writes := destWrites 3 (n.act x) (fun L => if L = 63 then 2 else 0) ++ destWrites 4 (n.act x) (fun L => if L = 1 then 1 else 0)
              ++ predWrites 1 (n.act x) fun L => ((k.2.find? fun o => o.lane == L).getD { lane := L, sq := 0, pos := 0, mark := false }).mark }))) = true := by decide +kernel
/-- A message from another team's strand is applied to the visible area; the oldest goes first; one whose team has left has no effect. -/
theorem witness_messages :
    let l : LongOp := { op := .atom, flag := 0, w := { noW with vd := 3 }, active := 1, tag := 9, acc := some { kind := .message 0 1 } }
    let m : ClusterMsg := { sid := 0, tag := 9, team := 1, op := 0, fetch := true, ops := [(0, { off := 0x20, val := 5, cmp := 0 })] }
    let s : State := { lanes1 (fun st => { st with longs := [l] }) with
      teams := [(0, { st := .running, sids := [0] }), (1, { st := .running, core := 1, xbase := 0x1000, blk := { window := 0x200 } })], clusterMsgs := [m], os := [(osKey 1 0x1020, 7)] }
    let gone : State := { s with teams := [(0, { st := .running, sids := [0] })] }
    let q : State := { s with clusterMsgs := [m, m], ev := { idx := 1 } }
    (s.clusterMsgs[s.ev.idx]? = some m ∧ (s.team 1).placed = true ∧ ((one.team 1).placed = false) ∧ (gone.team 1).placed = false ∧ q.clusterMsgs[q.ev.idx]? = some m)
    ∧ (match exec .clusterAtomicMessage s with
        | .next t => t.clusterMsgs.isEmpty && t.osRaw 1 0x1020 == 12 && (t.strand 0).longs.any fun k => k.acc == some { kind := .message 0 1, got := [(0, 7, 0, false)] }
        | _ => false) = true
    ∧ nextIs (exec .clusterAtomicMessage q) q
    ∧ (match exec .clusterAtomicMessage gone with
        | .next t => t.clusterMsgs.isEmpty && decide (t.os = gone.os ∧ t.hbm = gone.hbm)
        | _ => false) = true := by decide +kernel
/-- LBR that all, some and no lanes take; LBRA; JOIN and END alone, first and second; LTRAP. -/
theorem witness_laneControl :
    let s := lanes1 fun st => { st with v := [(kKey 1 0, 1)] }
    let one' : LaneW := { noW with g := 1, low := 40 }
    let no : LaneW := { noW with g := 2, low := 40 }
    let all : LaneW := { noW with low := 40 }
    let both := s.modStrand 0 fun st => { st with lane := { st.lane with a := { st.lane.a with mask := 1 }, b := { pc := 20, mask := 2, live := true } } }
    let parked := fun (k : SideState) (d : Nat) => s.modStrand 0 fun st => { st with lane := { st.lane with depth := d, a := { st.lane.a with mask := 1 }, b := { pc := 0, mask := 2, live := true, st := k } } }
    let becomes := fun (s : State) (w : LaneW) (i : Instr) (f : LaneCtx → LaneCtx) => nextIs (exec i s) (s.laneDone w id ((s.laneStart w).putCtx false (f ((s.laneStart w).me.laneCtx false))))
    let me := fun (c : LaneCtx) => c.a
    ((s.laneIn one').active = 1 ∧ (s.laneIn no).active = 0 ∧ (me ((s.laneStart all).me.laneCtx false)).left = 1 ∧ (both.strand 0).lane.b.live = true)
    ∧ becomes s no (.lbr no) (fun c => { c with a := c.a.goTo 1 }) ∧ becomes s all (.lbr all) (fun c => { c with a := c.a.goTo 40 })
    ∧ becomes s one' (.lbr one') (fun c => { c with a := { c.a.goTo 1 with mask := 0xFFFFFFFFFFFFFFFE }, b := { pc := 40, mask := 1, live := true, hdr := 40 }, lastB := true })
    ∧ becomes s one' (.lbra one') (fun c => { c with a := c.a.goTo 40 }) ∧ becomes s { one' with md := 1 } (.lbra { one' with md := 1 }) (fun c => { c with a := c.a.goTo 1 })
    ∧ becomes s noW (.join noW) (fun c => { c with a := c.a.goTo 1 }) ∧ becomes s noW (.laneEnd noW) LaneCtx.endBlock
    ∧ becomes both noW (.join noW) (fun c => { c with a := { c.a with st := .parkedJoin } }) ∧ becomes both noW (.laneEnd noW) (fun c => { c with a := { c.a with st := .parkedEnd } })
    ∧ becomes (parked .parkedJoin 0) noW (.join noW) (fun c => { c with a := { pc := 1, mask := 3, live := true, hdr := c.a.hdr }, b := {} })
    ∧ becomes (parked .parkedEnd 0) noW (.laneEnd noW) LaneCtx.endBlock
    ∧ becomes (parked .parkedJoin 1) noW (.join noW) (fun c => { c with spill := some (.pop false false 0) })
    ∧ becomes (parked .parkedEnd 1) noW (.laneEnd noW) (fun c => { c with spill := some (.pop false true 0) })
    ∧ becomes s no (.ltrap no) (fun c => { c with a := c.a.advance })
    ∧ nextIs (exec (.ltrap all) s) ((s.modStrand 0 fun st => st.landTo (s.laneIn all).t).takeTrap 0
        { code := 0x0F, info := 40, tmask := 0xFFFFFFFFFFFFFFFF, lfault := true, unitNo := some (s.laneIn all).unitNo, fA := 0, fB := 1 }) := by decide +kernel
/-- LBR with both slots live pushes the other side; a block starts; the push is performed; a pop brings a side back from the stack. -/
theorem witness_stack :
    let p := lanes1 fun st => { st with v := [(kKey 1 0, 1)], segs := { st.segs with p := { base := 0x1000, len := 64 } }, lane := { st.lane with a := { st.lane.a with mask := 3 }, b := { pc := 20, mask := 4, live := true, hdr := 18 } } }
    let w : LaneW := { noW with g := 1, low := 40 }
    let q := lanes1 fun st => { st with lane := { dq := [7, 9] } }
    let r := lanes1 fun st => { st with segs := { st.segs with p := { base := 0x1000, len := 64 } }, lane := { st.lane with depth := 1, spill := some (.pop false false 50), a := { st.lane.a with mask := 1 }, b := { mask := 2, live := true } } }
    (match pushSide (p.laneIn w) ((p.laneStart w).me.laneCtx false).b (p.laneStart w) with
      | .ok ((), v) => decide ((v.me.laneCtx false).depth = 1) && nextIs (exec (.lbr w) p) (p.laneDone w id (v.putCtx false (let c := v.me.laneCtx false
          { c with a := { ((p.laneStart w).me.laneCtx false).a.goTo 1 with mask := 2 }, b := { pc := 40, mask := 1, live := true, hdr := 40 }, lastB := true })))
      | _ => false) = true
    ∧ nextIs (exec .laneBlockStart q) (q.modStrand 0 fun st => { st with lane := { dq := [9], busy := true, started := 1, a := { pc := 7, mask := BitVec.allOnes 64, live := true, hdr := 7 } } })
    ∧ (match popRecord false { r with cur := 0 } with
        | .ok (rec, _) => decide (recordSide rec 3 ≠ none) && (match exec .stackPopDone r with
            | .next t => decide ((t.strand 0).lane.depth = 0 ∧ (t.strand 0).lane.spill = none ∧ (t.strand 0).lane.a.pc = 51 ∧ (t.strand 0).lane.a.mask = 3)
            | _ => false)
        | _ => false) = true := by decide +kernel
/-- JOIN whose sibling is parked at END, END whose sibling is parked at a JOIN, and LBR that finds no room for its record. -/
theorem witness_laneMismatch :
    let s := lanes1 fun st => { st with v := [(kKey 1 0, 1)] }
    let parked := fun (k : SideState) => s.modStrand 0 fun st => { st with lane := { st.lane with a := { st.lane.a with mask := 1 }, b := { pc := 0, mask := 2, live := true, st := k } } }
    let p := lanes1 fun st => { st with v := [(kKey 1 0, 1)], segs := { st.segs with p := { base := 0x1000, len := 0 } }, lane := { st.lane with a := { st.lane.a with mask := 3 }, b := { pc := 20, mask := 4, live := true, hdr := 18 } } }
    let w : LaneW := { noW with g := 1, low := 40 }
    nextIs (exec (.join noW) (parked .parkedEnd)) ((parked .parkedEnd).laneStop noW (.trap { code := 0x05 } []))
    ∧ nextIs (exec (.laneEnd noW) (parked .parkedJoin)) ((parked .parkedJoin).laneStop noW (.trap { code := 0x05 } []))
    ∧ (match pushSide (p.laneIn w) ((p.laneStart w).me.laneCtx false).b (p.laneStart w) with
        | .error e => nextIs (exec (.lbr w) p) (p.laneStop w e)
        | _ => false) = true := by decide +kernel
/-- A block of the trap window starts in the handler; none starts outside it; a push is performed; a popped record that breaks its form traps; at END a popped side that is parked at END ends the block. -/
theorem witness_stackEnds :
    let h : State := { (lanes1 fun st => { st with csr := { st.csr with ih := true }, win := { dq := [7] } }) with ev := { flag := true } }
    let o : State := { (lanes1 fun st => { st with win := { dq := [7] } }) with ev := { flag := true } }
    let r := fun (m : W64) (isEnd : Bool) => lanes1 fun st => { st with segs := { st.segs with p := { base := 0x1000, len := 64 } }, lane := { st.lane with depth := 1, spill := some (.pop false isEnd 50), a := { st.lane.a with mask := 1 }, b := { mask := m, live := true } } }
    let push := (r 2 false).modStrand 0 fun st => { st with lane := { st.lane with spill := some .push } }
    let sd : Side := { pc := 9, hdr := 9, mask := 4, live := true, st := .parkedEnd }
    let e : State := { r 2 true with hbm := memPutAll (r 2 true).hbm ((r 2 true).me.recAddr false 0).toNat ((List.range 20).map fun i => BitVec.ofNat 8 (sd.record / 256 ^ i)) }
    nextIs (exec .laneBlockStart h) (h.modStrand 0 fun st => { st with win := { dq := [], busy := true, started := 1, a := { pc := 7, mask := BitVec.allOnes 64, live := true, hdr := 7, no := h.stepNo } } })
    ∧ nextIs (exec .laneBlockStart o) o
    ∧ nextIs (exec .stackPushDone push) (push.modStrand 0 fun st => { st with lane := { st.lane with spill := none } })
    ∧ (match popRecord false { e with cur := 0 } with
        | .ok (n, _) => decide (recordSide n 3 = some sd) && (match exec .stackPopDone e with
            | .next t => decide ((t.strand 0).lane.busy = false ∧ (t.strand 0).lane.a.live = false)
            | _ => false)
        | _ => false) = true
    ∧ (let bad : State := { r 2 false with hbm := memPutAll (r 2 false).hbm ((r 2 false).me.recAddr false 0).toNat [9, 9, 9, 9, 0, 0, 0, 0, 1] }
       match popRecord false { bad with cur := 0 } with
        | .ok (n, _) => recordSide n 3 == none && (match exec .stackPopDone bad with
            | .next t => t.reports.any fun r => r.kind == 0x10
            | _ => false)
        | _ => false) = true := by decide +kernel
/-- Operands of the leader lane: source O 0x100, destination O 0x400, 16 elements. -/
def rk : State :=
  let s := lm.modStrand 0 fun st => { st with v := [(vKey 1 0, 0x100), (vKey 2 0, 0x400), (vKey 4 0, 16), (vKey 5 0, 0x200)] }
  { s with ctxs := [(0, { handles := [(7, 0x3F8000000000010C)] })] }
def rw' (aux : BitVec 16) : LaneW := { noW with ty := 0, vd := 3, va := 1, vb := 2, vc := 4, low := 0x4000000 ||| aux.setWidth 32 }
/-- RKENC, RKREC, RKMRG, RKTAB with a leader, and RKENC with no active lane. -/
theorem witness_rank :
    let reads := fun (w : LaneW) (x : LaneIn) => (do return (← readV x w.va, ← readV x w.vb, ← readV x w.vc) : M ((Nat → W32) × (Nat → W32) × (Nat → W32)))
    let issues := fun (w : LaneW) (i : Instr) (u : State) (op : LaneOp) (lat : Nat) (l : LongOp) => nextIs (exec i rk) (rk.laneIssues w u op .rank lat l)
    let e := rw' 3
    let c : LaneW := { rw' 7 with ty := 1 }
    let m : LaneW := { rw' 3 with vb := 5, vc := 2 }
    let t : LaneW := { rw' 0 with vd := 0, vb := 0, vc := 0 }
    let off : LaneW := { e with g := 1 }
    ((rk.laneStart e).rankOps 0).length < 4 ∧ leader (rk.act e) = 0 ∧ rk.act off = 0 ∧ rk.handle 0 7 = some 0x3F8000000000010C
    ∧ hasOps rk e [1, 2, 4] [3] (reads e) (fun _ u => okAnd (rkCheck 0 [{ space := rkSrc e, off := 0x100, len := 64, al := 4 }, { space := rkDst e, off := 0x400, len := (rkC e + 1) * rkEntry .rkenc e, al := rkEntry .rkenc e, dst := true }] u) (fun _ t => decide (t = u))
        && issues e (.rkenc e) u .rkenc 16 { writes := destWrites 3 3 fun _ => 0, rank := some { src := 0x100, dst := 0x400, n := 16 } }) = true
    ∧ hasOps rk c [1, 2, 4] [3] (reads c) (fun _ u => okAnd (rkCheck 0 [{ space := rkSrc c, off := 0x100, len := 2, al := 2 }, { space := .o, off := 0x400, len := 32, al := 2, dst := true }] u) (fun _ t => decide (t = u))
        && issues c (.rkrec c) u .rkrec 16 { writes := destWrites 3 3 fun _ => 0, rank := some { src := 0x100, dst := 0x400, n := 16, scale := 0x3F800000, tableOk := false } }) = true
    ∧ hasOps rk m [1, 5, 2] [3] (reads m) (fun _ u => issues m (.rkmrg m) u .rkmrg 16 { writes := destWrites 3 3 fun _ => 0, rank := some { src := 0x100, n := 0x200, dst := 0x400 } }) = true
    ∧ hasOps rk t [1] [] (rdA t) (fun _ u => issues t (.rktab t) u .rktab 8 { rank := some { src := 0x100 } }) = true
    ∧ hasOps rk off [1, 2, 4] [3] (reads off) (fun _ u => issues off (.rkenc off) u .rkenc 16 {}) = true := by decide +kernel
/-- TOPK of two: lists (5 at 1), candidates 9 at 2, NaN at 3, 5 at 0. -/
theorem witness_topk :
    let s := lanes3 fun st => { st with v := [(vKey 3 0, 0x40A00000), (vKey 3 1, 0), (vKey 4 0, 1), (vKey 4 1, 0xFFFFFFFF), (vKey 1 0, 0x41100000), (vKey 2 0, 2), (vKey 1 1, 0x7FC00000), (vKey 2 1, 3), (vKey 1 63, 0x40A00000), (vKey 2 63, 0)] }
    let w : LaneW := { noW with vd := 3, va := 1, vb := 2, low := 0x4040002 }
    let reg : W64 := 3
    hasOps s w [1, 2, 3] [3] (fun x => do return (← readV { x with active := reg } 3, ← readV { x with active := reg } 4, ← readV x 1, ← readV x 2)) (fun _ u =>
      okAnd (roomFor 3 reg u) (fun _ t => decide (t = u)) && (match exec (.topk w) s with
        | .next t => (t.strand 0).longs.any fun l => l.op == .topk
            && l.writes == destWrites 3 reg (fun j => if j = 0 then 0x41100000 else 0x40A00000) ++ destWrites 4 reg (fun j => if j = 0 then 2 else 0)
            && decide (t = s.laneIssues w u .topk .rank 10 { writes := l.writes, rank := l.rank, conds := l.conds })
        | _ => false)) = true := by decide +kernel
/-- WLTAKE of both items into v5, holding the group; WLDONE on 3 and on 0 producers; WLQUIET with and without its pass. -/
theorem witness_worklist : let s := list2 id
    let z : State := { s with hbm := mdel s.hbm 0x80 }
    let q : State := { s with quietMet := [(0, 0x80)] }
    (s.isRes s.cur = true ∧ s.me.laneIdle = true ∧ s.source 1 = some (0x40, s) ∧ s.source 2 = some (0x80, s) ∧ s.takes 3 = true ∧ (0x40 : Nat) % 64 = 0)
    ∧ okAnd (descPlace 0x40 2 s) (fun p s2 => let s3 := s2.toHome 0 p.1 p.2
        let w := s3.wlDesc p.1
        w.ok && w.ring == 0x200 && w.group == 0x80 &&
        okAnd (((List.range 2).mapM fun j => do return (← wlPlace (w.slot j) { r := true } 0).1 : M (List Nat)) s3) fun sl s4 => sl == [0x200, 0x204] &&
        okAnd (wlPlace 0x80 { r := true, w := true } 2 s4) fun g s5 =>
        (match s5.home8 (p.1 + 0x18) p.2 2 with
        | some t => (match (t.toHome 0 g.1 g.2).home8 g.1 g.2 ((t.toHome 0 g.1 g.2).slice8 g.1 + 1) with
          | some s6 => (let u := ((s6.setStrand 0 ((s6.me.putLane (vKey 5 0) 9).putLane (vKey 5 1) 8)).holds []).laneSeen
              s6.slice8 0x80 == 4 && s6.slice8 0x58 == 2 && nextIs (exec (.wltake 3 1 1 5) s) (((u.dest 3 2).quietScan 0).endScalar 4))
          | none => false)
        | none => false)) = true
    ∧ okAnd (descPlace 0x80 2 s) (fun p s2 => let s3 := s2.toHome 0 p.1 p.2
        (s3.home8 p.1 p.2 2).any fun t => nextIs (exec (.wldone 2) s) ((t.quietScan 0).endScalar 4)) = true
    ∧ nextIs (exec (.wldone 2) z) (z.trapScalar { code := 0x05 })
    ∧ nextIs (exec (.wlquiet 2 15) q) ((({ q with quietMet := [] } : State).acquires 4).endScalar 4)
    ∧ okAnd (descPlace 0x80 0 s) (fun _ s2 =>
        nextIs (exec (.wlquiet 2 15) s) ((({ s2 with quiets := [{ sid := 0, flag := 15, ctx := 0, group := 0x80 }] } : State).detectorPass 0 0x80).endScalar 0)
        && (let t := s2.countedPkg 3
            nextIs (exec (.wlquiet 2 3) s) ((({ t with quiets := [{ sid := 0, flag := 3, ctx := 0, group := 0x80 }] } : State).detectorPass 0 0x80).endScalar 4))) = true := by decide +kernel
/-- SET, ADDC, LOOP on its last turn, JMP backwards, END. -/
theorem witness_streamRegisters : let s := prog1 [(2, 1), (3, 5)]
    let w := fun (a b : W64) => ({ w0 := a, w1 := b, w2 := 0, w3 := 0 } : StreamW)
    ((s.prog 0).running = true ∧ (s.prog 0).halted = false ∧ (s.prog 0).park = none ∧ (s.prog 0).cur = none ∧ (s.prog 0).cancel = false)
    ∧ nextIs (exec (.setReg (w 15 77)) s) (s.progAfter 0 .setReg fun p => { p.setReg 15 77 with pc := 0x2010 })
    ∧ nextIs (exec (.addc (w 0x3F00FFFFFFFF 0)) s) (s.progAfter 0 .addc fun p => { p.setReg 3 (p.reg 15 - 1) with pc := 0x2008 })
    ∧ nextIs (exec (.streamLoop (w 0x2000FFFFFFFE 0)) s) (s.progAfter 0 .streamLoop fun p => { p.setReg 2 0 with pc := 0x2008 })
    ∧ nextIs (exec (.streamLoop (w 0x3000FFFFFFFE 0)) s) (s.progAfter 0 .streamLoop fun p => { p.setReg 3 4 with pc := 0x1FF0 })
    ∧ nextIs (exec (.jmp (w 0xFFFFFFFE 0)) s) (s.progAfter 0 .jmp fun p => { p with pc := 0x1FF0 })
    ∧ (match exec (.streamEnd (w 0 0)) s with
        | .next t => decide ((t.prog 0).running = false ∧ (t.prog 0).code = 0 ∧ (t.prog 0).gen = 1)
        | _ => false) = true := by decide +kernel
/-- NOTIFY.store of c0 at c1, on a multiple of 8 and off one; WAITV met and not; NOTIFY.credit to a barrier; FENCE. -/
theorem witness_notify : let s := prog1 [(0, 7), (1, 0x3000), (2, 0x3004)]
    let w := fun (a b : W64) => ({ w0 := a, w1 := b, w2 := 0, w3 := 0 } : StreamW)
    let st := w 0x100000000000 0
    let u := fun (op : StreamOp) (x : StreamW) => s.progHas 0 { op := op, w := x }
    let o : State := { oseg [] with progs := (prog1 [(0, 2)]).progs, launches := [(0, { recBytes := List.replicate 0x9D 0 ++ [0x10, 0, 0] })] }
    let b := (o.osWrite 0 0x20 ([3, 0, 0, 0, 0, 0, 0, 0, 0, 0, 0, 0, 1, 1] ++ leBytes 18 0)).setOsLine 0 0 { barr := 2 }
    nextIs (exec (.notifyStore { st with w0 := 0x200000000000 }) s) ((u .notifyStore { st with w0 := 0x200000000000 }).endProg 0 0x01 0)
    ∧ (match runE (engWrite (s.progEng 0) 0x3000 (leBytes 8 7)) { s := u .notifyStore st } with
        | .ok ((), r) => r.s.hbm == [(0x3000, 7)] && nextIs (exec (.notifyStore st) s) (((r.into 0).cmdRelease st).nextCmd 0 2)
        | _ => false) = true
    ∧ (let x := w 0x100000000000 1
       (match runE (do let x ← engRead (s.progEng 0) 0x3000 8; if !waitTest 0 (BitVec.ofNat 64 x) 1 then waitE : E Unit) { s := u .waitv x } with
        | .error e => nextIs (exec (.waitv x) s) (progStop 0 e)
        | .ok ((), r) => nextIs (exec (.waitv x) s) (((r.into 0).cmdRelease x).nextCmd 0 2)) = true)
    ∧ (let x := w 0 0x20
       b.target 1 = some (b.team 0) ∧ 0x20 + 32 ≤ (b.teamO (b.team 0)).2 ∧ b.hasBarrier 0 ((b.teamO (b.team 0)).1 + 0x20) = true
       ∧ nextIs (exec (.notifyCredit x) b) (((({ s := ((b.progHas 0 { op := .notifyCredit, w := x }).abCredit 0 0x20 2).reimage 0 } : Run).into 0).cmdRelease x).nextCmd 0 2))
    ∧ nextIs (exec (.streamFence (w 0 0)) s) (((({ s := u .streamFence (w 0 0) } : Run).into 0).cmdRelease (w 0 0)).nextCmd 0 1) := by decide +kernel
/-- WLTAKE with a block in progress and with an access under way, off a multiple of 64, and on a descriptor that breaks its layout; WLDONE out of the limit; WLQUIET that waits already. -/
theorem witness_worklistWaits : let s := list2 id
    let b := list2 fun st => { st with lane := { st.lane with busy := true } }
    let l := list2 fun st => { st with longs := [{ kind := .mem, op := .laneLd, w := noW, tag := 0 }] }
    let m : State := { s with hbm := memPutAll s.hbm 0x48 [3] }
    let o := withSt fun st => { st with a := [(1, 0x48), (2, 0x1000)], segs := { st.segs with g := { base := 0, len := 0x1000 } } }
    let q : State := { s with quiets := [{ sid := 0, flag := 15, ctx := 0, group := 0x80 }] }
    (b.me.blocksRun = true ∧ l.me.blocksRun = false ∧ l.me.longs ≠ [] ∧ s.source 1 = some (0x40, s) ∧ o.source 1 = some (0x48, o) ∧ o.source 2 = some (0x1000, o) ∧ q.quietMet.contains (0, 0x80) = false)
    ∧ nextIs (exec (.wltake 3 1 1 5) b) (b.waitScalar (some { port := 9 })) ∧ nextIs (exec (.wltake 3 1 1 5) l) (l.waitScalar none)
    ∧ nextIs (exec (.wltake 3 1 1 5) o) (o.trapScalar { code := 0x05 }) ∧ nextIs (exec (.wltake 3 1 1 5) m) (m.trapScalar { code := 0x05 })
    ∧ (match descPlace 0x1000 2 o with | .error e => nextIs (exec (.wldone 2) o) (o.scalarStop e) | _ => false) = true
    ∧ (match descPlace 0x1000 0 o with | .error e => nextIs (exec (.wlquiet 2 15) o) (o.scalarStop e) | _ => false) = true
    ∧ nextIs (exec (.wlquiet 2 15) q) (q.waitScalar none) := by decide +kernel
/-- The program with handle 7 a vector of 64 f32 at virtual 0, its team with 4 KiB of O, namespace 5 with blocks of 4 KiB, and one command to copy eight elements from coordinate 16. -/
def prog7 : State :=
  let h : BitVec 2048 := 0x100 ||| (64#2048 <<< 128)
  let s := prog1 [(0, 16)]
  { withTeam (s.modStrand 0 fun st => { st with segs := { st.segs with o := { base := 0, len := 0x1000 } } }) (fun t => { t with tseg := 0x1000 }) with
    ctxs := [(0, { handles := [(7, h)] })], launches := [(0, { st := .ready, checked := true, placed := 1, recBytes := List.replicate 0x9D 0 ++ [0x10, 0, 0] })], ns := [(5, { nsid := 9, cap := 1000, depth := 16 })]
    acc := [(accKey 0 0 0, 3), (accKey 2 5 0, 3)] }
def tile8 : StreamW := { w0 := 0x0400070000000100, w1 := 8, w2 := 0, w3 := 0 }
def save8 : StreamW := { w0 := 0x3000070007002800, w1 := 8, w2 := 0, w3 := 0 }
/-- TILE into O, TILE with a rule broken, a closed window, SAVE and FETCH. -/
theorem witness_data :
    let s := prog7
    let bad : StreamW := { tile8 with w1 := 0 }
    let run := fun (op : StreamOp) (w : StreamW) (i : Instr) =>
      (match (s.progTakes 0 op).acceptData 0 op w with
        | .error e => nextIs (exec i s) (((s.progTakes 0 op).denyNs 0 op w e).endProg 0 e 0)
        | .ok c => let s2 := s.progHas 0 c
          (match s2.curCopy 0 c with
            | none => false
            | some cp => s2.copyOpen cp && decide (0 < cp.units) &&
              (let c' := { c with begun := true }
               let s3 := (s2.modCur 0 fun c => { c with begun := true }).modProg 0 fun p => { p with waiting := false }
               match (unitsFrom (unitWork (s.prog 0) (s3.progEng 0) c' cp) cp.units 0).run { s := s3 } with
                | .ok ((), r) =>
                  let m := (r.into 0).modProg 0 fun p => { p with cur := some { c' with pos := cp.units, resid := r.resid, buf := r.buf } }
                  nextIs (exec i s) (if op = .save then (m.submitStep 0 64).modProg 0 fun p => { p with waiting := true } else if op = .fetch then (s3.submitStep 0 64).modProg 0 fun p => { p with waiting := true } else ((m.cmdRelease w).copyBarriers cp).nextCmd 0 op.words)
                | .error _ => false)))
    (match (s.progTakes 0 .tile).acceptData 0 .tile bad with
      | .error _ => true
      | .ok _ => false) = true
    ∧ run .tile tile8 (.tile tile8) = true ∧ run .tile bad (.tile bad) = true
    ∧ run .save save8 (.save save8) = true ∧ run .fetch { save8 with w0 := 0x3400070007002800 } (.fetch { save8 with w0 := 0x3400070007002800 }) = true := by decide +kernel
/-- A program goes on by itself: a command is taken, a chunk moves, a command ends, a cancelled program stops; NVMe completions. -/
theorem witness_programs :
    let s := { prog7 with hbm := memPutAll prog7.hbm 0x2000 (leBytes 8 0x0400070000000100 ++ leBytes 8 8) }
    let k := s.modProg 0 fun p => { p with cancel := true }
    let r : NvmeReq := { prog := 0, gen := 1, n := 0, op := 1, ns := 5, slba := 0, nlb := 0 }
    let v : State := { s with nvme := [r, { r with gen := 2 }] }
    (match s.nextStream 0 with
      | .cmd i t => (match i.streamOp? with
          | some (op, w) => op == .tile && nextIs (exec .streamCommandStart s) (t.acceptCmd 0 op w)
              && (match exec .streamCommandStart s with
                  | .next t => (match (t.prog 0).cur with
                      | some c => (match t.curCopy 0 c with
                          | some cp => nextIs (exec .streamChunk t) (((t.gateStep 0 c cp).moveStep 0 (max 1 (65536 / max 1 cp.ub))).submitStep 0 64)
                              && (match exec .streamChunk t with
                                  | .next d => (match (d.prog 0).cur with
                                      | some c => (match d.curCopy 0 c with
                                          | some cp => d.dataDone 0 c cp && nextIs (exec .streamCommandComplete d) (((d.cmdRelease c.w).copyBarriers cp).nextCmd 0 c.op.words)
                                          | none => false)
                                      | none => false)
                                  | _ => false)
                          | none => false)
                      | none => false)
                  | _ => false)
          | none => false)
      | _ => false) = true
    ∧ nextIs (exec .programStop k) (k.endProg 0 0x08 0) ∧ nextIs (exec .streamCommandStart k) (k.endProg 0 0x08 0)
    ∧ nextIs (exec .nvmeCompletion { v with ev := { idx := 1 } }) { v with ev := { idx := 1 }, nvme := [r] }
    ∧ nextIs (exec .nvmeCompletion { v with ev := { idx := 0, val := 0x81 } }) (({ v with ev := { idx := 0, val := 0x81 }, nvme := [{ r with gen := 2 }] } : State).endProg 0 0x0C 0x81) := by decide +kernel
/-- A read, a masked write and an ADD at a home slice; the same at a poisoned line; lists that fill. -/
theorem witness_homeSlice :
    let s : State := { State.reset with hbm := [(0x80, 5), (0x87, 1)] }
    let ev := fun (k : SliceKind) => ({ s with ev := { req := { pa := 0x80, kind := k } } } : State)
    let p : State := { ev (.atomic 0 8 false [{ off := 0, val := 3, cmp := 0 }]) with poisonLines := [1] }
    (s.inHbm 0x80 = true ∧ s.hbm.wf = true ∧ s.hostMem.wf = true ∧ mwf s.tags = true ∧ s.poisoned 1 = false ∧ p.poisoned 1 = true ∧ opsFit 8 [{ off := 0, val := 3, cmp := 0 }] = true)
    ∧ nextIs (exec .sliceRequest (ev .read)) { ev .read with ack := { tag := 0, data := lineOf s.hbm 1 } }
    ∧ (match exec .sliceRequest (ev (.write 2 0x700)) with
        | .next t => decide (t.hbm = [(0x80, 5), (0x81, 7), (0x87, 1)] ∧ t.tag 1 = 1 ∧ t.ack.tag = 1)
        | _ => false) = true
    ∧ (match exec .sliceRequest (ev (.atomic 0 8 false [{ off := 0, val := 3, cmp := 0 }])) with
        | .next t => decide (t.hbm = [(0x80, 8), (0x87, 1)] ∧ t.ack = { tag := 1, vals := [0x0100000000000005] })
        | _ => false) = true
    ∧ nextIs (exec .sliceRequest p) { p with ack := { tag := 0, vals := [0], poisoned := true } }
    ∧ (let q : State := { s with ev := { addr := 0x80 } }
       nextIs (exec .memoryUncorrectable q) { q with poisonLines := [1] }) := by decide +kernel
/-- Full lists of poisoned lines and pages. -/
theorem witness_poisonFull :
    let a : State := { State.reset with poisonLines := List.replicate 8192 9, ev := { addr := 0x80 } }
    let b : State := { a with poisonPages := List.replicate 512 7 }
    (8192 ≤ a.poisonLines.length ∧ a.poisonPages.length < 512 ∧ 512 ≤ b.poisonPages.length ∧ a.inHbm 0x80 = true) := by decide +kernel
/-- A replicated line: filled by die 1, stored to, committed; and a dirty line given up. -/
theorem witness_replication :
    let pg : TlbEntry := { ppage := 0, r := true, w := true, policy := polREPL }
    let s : State := { State.reset with hbm := [(0x80, 5)], tlb := [(tlbKey 1 3 0, pg)], ev := { core := 1, who := 3, addr := 1 } }
    let st : State := { s with ev := { addr := 0x80, bytes := [7] }, sharers := [(1, 2)], dc := [(dcKey (repDie 1) 1, { ctx := 3, data := 5 })] }
    let u : State := { s with ev := { addr := 1 }, updates := [{ line := 1, mask := 1, data := 7, sharers := 2 }], dc := [(dcKey (repDie 1) 1, { ctx := 3, data := 5 })] }
    let e : State := { s with dc := [(dcKey 1 1, { ctx := 3, data := 9, dirty := 1 })] }
    (s.dieLive 1 = true ∧ s.inHbm 0x80 = true ∧ s.replMapped 1 3 1 = true ∧ s.replBusy 1 1 = false ∧ s.dcLine (repDie 1) 1 = none ∧ st.replAnywhere 1 = true ∧ e.replBusy 1 1 = false)
    ∧ (match exec .replicatedFill s with
        | .next t => decide (t.dcLine (repDie 1) 1 = some { ctx := 3, data := 5 } ∧ t.sharerMask 1 = 2)
        | _ => false) = true
    ∧ nextIs (exec .replicatedStore st) { st.sliceWrite 1 1 7 with updates := [{ line := 1, mask := 1, data := 7, sharers := 2 }] }
    ∧ (match exec .commit u with
        | .next t => decide (t.updates = [] ∧ (t.dcLine (repDie 1) 1).map (·.data) = some 7)
        | _ => false) = true
    ∧ nextIs (exec .dieCacheEviction e) (((e.sliceWrite 1 1 9).dcPut 1 1 { ctx := 3, data := 9 }).dcDrop 1 1) := by decide +kernel
/-- The host's accesses with and without rights; the link; the fatal state. -/
theorem witness_host :
    let s : State := { State.reset with hbm := [(0x80, 5)], ev := { addr := 0x80, size := 4, bytes := [7] } }
    let a : State := { s with acc := [(accKey 0 0 0x400, 3)] }
    let d : State := { a with linkUp := false }
    let v : State := { d with msixPending := [3, 4], msixOpen := [3], hostLines := [(0x10, 1)] }
    (s.linkUp = true ∧ s.inHbm 0x80 = true ∧ s.allowed 0x400 0x80 { r := true } = false ∧ a.allowed 0x400 0x80 { r := true } = true ∧ a.allowed 0x400 0x80 { w := true } = true)
    ∧ nextIs (exec .hostCxlMemRead a) { a with ack := { data := 5 } } ∧ nextIs (exec .hostCxlMemRead s) { s.denyPa 0x400 0x80 0 with ack := { poisoned := true } }
    ∧ nextIs (exec .hostCxlMemWrite a) { a.sliceWrite 1 1 7 with ack := { tag := 1 } } ∧ nextIs (exec .hostCxlMemWrite s) (s.denyPa 0x400 0x80 1)
    ∧ nextIs (exec .hostCxlMemRead d) d ∧ nextIs (exec .hostLinkDown s) { s with linkUp := false } ∧ nextIs (exec .basinLoss s) { s with fatal := true }
    ∧ (match exec .hostLinkUp v with
        | .next t => decide (t.linkUp = true ∧ t.hostLines = [] ∧ t.msixSent = [3] ∧ t.msixPending = [4])
        | _ => false) = true
    ∧ (match step { s with fatal := true } with
        | .fault .packageFatal => true
        | _ => false) = true := by decide +kernel
/-- With 256 updates in flight a replicated store waits; the commit of a line's earliest update; a replicated copy that is given up; a dirty line whose bytes could not be corrected. -/
theorem witness_replicationWaits :
    let u : ReplUpdate := { line := 1, mask := 1, data := 7, sharers := 2 }
    let f : State := { State.reset with updates := List.replicate 256 u, tlb := [(tlbKey 1 3 0, { ppage := 0, r := true, w := true, policy := polREPL })], sharers := [(1, 2)], ev := { addr := 0x80, bytes := [7] } }
    let r : State := { State.reset with sharers := [(1, 3)], dc := [(dcKey 1 1, { ctx := 3, data := 9, dirty := 1, bad := true }), (dcKey (repDie 1) 1, { ctx := 3, data := 5 })], ev := { core := 1, addr := 1, flag := true } }
    let d : State := { r with ev := { core := 1, addr := 1 } }
    (f.inHbm 0x80 = true ∧ f.replAnywhere 1 = true ∧ 256 ≤ f.updates.length ∧ r.replBusy 1 1 = false)
    ∧ nextIs (exec .replicatedStore f) f ∧ f.replStore 1 1 7 none = none
    ∧ (match exec .dieCacheEviction r with
        | .next t => decide (t.dcLine (repDie 1) 1 = none ∧ t.dcLine 1 1 = r.dcLine 1 1 ∧ t.sharerMask 1 = 1)
        | _ => false) = true
    ∧ (match exec .dieCacheEviction d with
        | .next t => decide (t.dcLine 1 1 = none ∧ t.poisoned 1 = true)
        | _ => false) = true := by decide +kernel
/-- The link below full speed and up again; the host's loads and stores of its own memory; a vector masked. -/
theorem witness_hostMemory :
    let s : State := { State.reset with hostLines := [(0x10, 1)], hostOwed := [4], msixPending := [3], msixOpen := [3], ev := { flag := true } }
    (s.cacheUp = true ∧ mwf s.hostLines = true)
    ∧ (match exec .hostLinkUp s, exec .hostLinkUp { s with ev := {} } with
        | .next t, .next u => decide (t.linkUp = true ∧ t.linkSlow = true ∧ t.hostLines = s.hostLines ∧ t.hostOwed = [4] ∧ t.msixSent = [3] ∧ u.linkSlow = false ∧ u.hostLines = [] ∧ u.hostOwed = [])
        | _, _ => false) = true
    ∧ decide ((s.hostPeek 0x10 2).hostGot = [1, 0] ∧ (s.hostPoke 0x11 [7]).hostByte 0x11 = 7 ∧ (s.hostPoke 0x11 [7]).hostByte 0x10 = 1) = true
    ∧ (s.maskVector 3).msixOpen = [] := by decide +kernel
/-- A walk of three levels, Retry and Deliver of a parked scalar access. -/
theorem witness_translation :
    let pk : Park := { ctx := 0, page := 5, va := 0x50000, kind := 0 }
    let w : State := { State.reset with ctxs := [(3, { troot := 0x10000 })], ev := { who := 3, addr := 0x50000, core := 1 } }
    let s : State := { withSt (fun st => { st with parkS := some pk }) with faults := [{ park := pk, unitNo := 0, who := 0, seq := 1, xunit := 0 }] }
    let u : State := { s with faults := [] }
    (s.faults[s.ev.idx]?.isSome = true ∧ s.hostAnswers 0 = false ∧ s.mayIssue 0 = true ∧ (s.strand 0).entryPark = none ∧ (s.strand 0).parkL = none ∧ pk.at 0 0 0 5 = true ∧ s.isRes 0 = true)
    ∧ (match w.walk 3 0x50000 with
        | .ok e => nextIs (exec .translationWalk w) (w.install 1 3 0x50000 e)
        | .error _ => true) = true
    ∧ nextIs (exec .retry s) (u.modStrand 0 fun st => { st with parkS := none })
    ∧ nextIs (exec .deliver s) ((u.deliverStrands 0 0 5).deliverDie 0 0 5) := by decide +kernel
/-- Enabling, disabling, doorbells at the ring's limit and past it, ERR, and a descriptor write. -/
theorem witness_queues :
    let q : Queue := { ringlog := 4, cqlog := 4, ctx := 2, err := true }
    let e : Queue := { q with en := true, head := 3 }
    let s : State := { State.reset with queues := [(5, q), (6, e)], completions := [(5 * 2 ^ 48 + 1, 0), (6 * 2 ^ 48, 0)] }
    let ev := fun (who val size : Nat) => ({ s with ev := { who := who, val := val, size := size, flag := true } } : State)
    let d := (2 ^ 4 * 0 + 0x1000 + 2 ^ 65 + 4 * 2 ^ 112 + 5 * 2 ^ 116 + 7 * 2 ^ 102 + 0x2000 * 2 ^ 128 : Nat)
    (s.queue 5 = q ∧ s.queue 6 = e ∧ ringsOk 4 5 = true ∧ ringsOk 3 5 = false)
    ∧ nextIs (exec .queueDisable (ev 6 0 0)) ((ev 6 0 0).setQueue 6 { e with en := false, drain := (ev 6 0 0).draining 6 })
    ∧ (match exec .queueEnable (ev 5 0 0) with
        | .next t => decide ((t.queue 5) = { q with en := true } ∧ t.completions = [(6 * 2 ^ 48, 0)])
        | _ => false) = true
    ∧ nextIs (exec .errClear (ev 6 0 0)) ((ev 6 0 0).setQueue 6 { e with err := false })
    ∧ nextIs (exec .doorbell (ev 6 19 4)) ((ev 6 19 4).setQueue 6 { e with tail := 19 }) ∧ nextIs (exec .doorbell (ev 6 20 4)) ((ev 6 20 4).setQueue 6 { e with err := true })
    ∧ nextIs (exec .doorbell (ev 5 1 4)) (ev 5 1 4) ∧ nextIs (exec .doorbell (ev 5 1 8)) ((ev 5 1 8).deny 4 0 0x400 1 0x100014)
    ∧ nextIs (exec .queueDescriptorWrite (ev 5 d 32)) ((ev 5 d 32).setQueue 5 { ringlog := 4, cqlog := 5, ctx := 7, lring := 0x1000, cring := 0x2000, err := false })
    ∧ nextIs (exec .queueDescriptorWrite (ev 5 (d + 2 ^ 64) 32)) (((ev 5 (d + 2 ^ 64) 32).setQueue 5 { ringlog := 4, cqlog := 5, ctx := 7, lring := 0x1000, cring := 0x2000, err := false }).enableQueue 5) := by decide +kernel
/-- Host writes with and without W on the management space, at the limits of MODE and PLIM; an answer; a vector unmasked. -/
theorem witness_hostWrites :
    let s := State.reset
    let n : State := { s with acc := [] }
    let ev := fun (t : State) (val : Nat) => ({ t with ev := { val := val } } : State)
    let a : State := { s with svc := [{ seq := 4, ty := 4, arg := 0, posted := true }], ev := { addr := 4, val := 0 } }
    let m : State := { s with msixPending := [7], ev := { idx := 7 } }
    (s.linkUp = true ∧ s.hostMay true = true ∧ n.hostMay true = false)
    ∧ nextIs (exec .modeWrite (ev s 31)) { ev s 31 with mode := 31, cio := some [] } ∧ nextIs (exec .modeWrite (ev s 32)) { ev s 32 with cio := some [] } ∧ nextIs (exec .modeWrite (ev n 1)) { (ev n 1).deny 4 0 0x400 1 modeAt with cio := none }
    ∧ nextIs (exec .plimWrite (ev s 1000)) { ev s 1000 with plim := 1000, cio := some [] } ∧ nextIs (exec .plimWrite (ev s 999)) { ev s 999 with cio := some [] } ∧ nextIs (exec .plimWrite (ev s 3201)) { ev s 3201 with cio := some [] }
    ∧ (match a.answerEntry { seq := 4, ty := 4, arg := 0, posted := true } 0 0 0 [] with
        | some t => nextIs (exec .serviceAnswer a) { (({ t with svc := [] } : State).svcFlush) with cio := some [] }
        | none => nextIs (exec .serviceAnswer a) { a.deny 4 0 0x400 1 answerAt with cio := some [] }) = true
    ∧ nextIs (exec .serviceAnswer (ev s 0)) { (ev s 0).deny 4 0 0x400 1 answerAt with cio := some [] }
    ∧ nextIs (exec .msixUnmask m) { m with msixOpen := [7], msixPending := [], msixSent := [7] }
    ∧ (let w : State := { s with ev := { addr := 0xA0003E, size := 2, val := 0xABCD } }
       (match exec .registerWrite w with
        | .next t => decide (t.mcmd = 0xABCD#512 <<< 496)
        | _ => false) = true)
    ∧ (let w : State := { s with mDone := true, ev := { addr := 0xA00040, size := 4, val := 2, flag := true } }
       nextIs (exec .registerWrite w) { w with mDone := false, cio := some [] })
    ∧ (let w : State := { s with queues := [(5, { ringlog := 4, en := true })], ev := { addr := 0x100014, size := 4, val := 9 } }
       nextIs (exec .registerWrite w) (w.doorbell 5 9))
    ∧ (let w : State := { n with ev := { addr := 0xA00000, size := 8 } }
       nextIs (exec .registerWrite w) { w.deny 4 0 0x400 1 0xA00000 with cio := none }) := by decide +kernel
/-- The host's writes of a descriptor: answered, denied, with the link down; a write that differs only in EN = 0, with ERR; a write of another descriptor while enabled; reads of the management space. -/
theorem witness_hostQueues :
    let e : Queue := { ringlog := 4, cqlog := 4, ctx := 2, en := true, err := true }
    let s := fun (val : Nat) => ({ State.reset with queues := [(6, e)], ev := { who := 6, val := val } } : State)
    let same := 2 ^ 65 + 4 * 2 ^ 112 + 4 * 2 ^ 116 + 2 * 2 ^ 102
    (((s 0).queue 6) = e ∧ (s 0).linkUp = true ∧ (s 0).hostMay true = true)
    ∧ nextIs (exec .errClear (s 0)) { (s 0).setQueue 6 { e with err := false } with cio := some [] }
    ∧ nextIs (exec .queueDisable { s 0 with acc := [] }) { ({ s 0 with acc := [] } : State).deny 4 0 0x400 1 0x2000C0 with cio := none }
    ∧ nextIs (exec .queueDisable { s 0 with linkUp := false }) { s 0 with linkUp := false }
    ∧ nextIs (exec .queueDescriptorWrite (s same)) { ((s same).setQueue 6 { e with err := false }).disableQueue 6 with cio := some [] }
    ∧ nextIs (exec .queueDescriptorWrite (s (same + 2 ^ 116))) { s (same + 2 ^ 116) with cio := some [] } := by decide +kernel
/-- Reads of the status word, of a port's status word, of the denial counter, with the link down, and denied; a doorbell that is written. -/
theorem witness_hostReads :
    let s : State := { State.reset with startFailed := some 2, denialCount := 5, ports := mput State.reset.ports 3 { State.reset.port 3 with repl := 9 } }
    (s.linkUp = true ∧ s.hostMay false = true ∧ (mget? s.ports 3).isSome = true ∧ s.mgmtWord 0 = 0x201 ∧ s.mgmtWord 0x300000 = 0 ∧ s.mgmtWord 0x701000 = 5)
    ∧ (s.hostRead 0 2).cio = some [1, 2] ∧ ((s.hostRead 0x8000C0 4).port 3).repl = 9 ∧ ((s.hostRead 0x8000C4 4).port 3).repl = 0
    ∧ ({ s with linkUp := false } : State).hostRead 0 2 = { s with linkUp := false }
    ∧ (({ s with acc := [] } : State).hostRead 0 2).cio = none ∧ (({ s with acc := [] } : State).hostRead 0x100000 2).cio = some [0, 0] := by decide +kernel
/-- A launch record of one team in class 0, on cores of every die, with IRQ, and its launch at submission number 1 on queue 5. -/
def rec1 : List Byte := [0x10, 4, 0, 0, 0, 0, 0, 0] ++ leBytes 8 0xABCD ++ leBytes 4 1 ++ leBytes 4 1 ++ leBytes 4 1 ++ leBytes 4 0 ++ List.replicate 224 0
/-- Queue 5 of context 0 with one record to read, its rings on page 0, and launch 1 of it. -/
def lq (l : Launch → Launch) : State :=
  let s := list2 id
  { s with queues := [(5, { lring := 0x400, cring := 0x800, ringlog := 4, cqlog := 4, en := true, head := 1, tail := 2, readCount := 1, written := 3 })]
           launches := [(0, s.launch 0), (1, l { queue := 5, recBytes := rec1, checked := true, st := .ready, placed := 0, blk := { roles := [{ entry := 0x10, lane := 2, count := 2 }] } })], submitNext := 2 }
/-- The read of a record, predecessors, the start and the end of a team, and the completion record. -/
theorem witness_launch :
    let s : State := { lq (fun l => { l with st := .ended, status := 10, first := some 3, firstLoss := some 7, exited := 1 }) with ev := { who := 5 } }
    let l : Launch := s.launch 1
    let e : State := { s with ev := { who := 1 } }
    let p : State := { lq (fun l => { l with st := .submitted, preds := [some 3], recBytes := [0x10, 6] ++ rec1.drop 2 }) with ev := { who := 1 } }
    let o : State := { p with launches := mput p.launches 1 { p.launch 1 with preds := [some 0] } }
    let g : State := { s with teams := [(9, { launch := 1, st := .placed, core := 3, sids := [] })], ev := { who := 9 } }
    let r : State := { g with teams := [(9, { launch := 1, st := .running, core := 3, sids := [] })] }
    (match s.ringPlace 0 (0x400 + 256) 0 with
      | .ok u pa => nextIs (exec .launchRecordRead s) ((u.submit 5 (u.anyBytes pa 256)).checkLaunch 2)
      | _ => false) = true
    ∧ (p.launch 1).hostDep = none ∧ recDepfail (p.launch 1).recBytes = true
    ∧ nextIs (exec .launchReady p) (p.endLaunch 1 5) ∧ nextIs (exec .launchReady o) (o.modLaunch 1 fun l => { l with st := .ready })
    ∧ nextIs (exec .gangStart g) ((g.acquireAt 0 0 5).modTeam 9 fun t => { t with st := .running })
    ∧ (match exec .teamRetire r with
        | .next u => decide ((u.team 9).st = .exited ∧ (u.launch 1).exited = 2)
        | _ => false) = true
    ∧ (let u := (e.setQueue 5 { e.queue 5 with written := 4 }).modLaunch 1 fun l => { l with slot := some 3 }
       match u.ringPlace 0 (0x800 + 96) 1 with
        | .ok w pa => nextIs (exec .launchEnd e) (((w.anyPutBytes pa (leBytes 8 (5 * 2 ^ 48) ++ leBytes 8 0xABCD ++ leBytes 2 10 ++ leBytes 2 0 ++ leBytes 4 1 ++ leBytes 4 7 ++ leBytes 4 0)).recordDone 1).signal 6)
        | _ => false) = true
    ∧ l.written = false ∧ recIrq l.recBytes = true := by decide +kernel
/-- A team of two strands placed on core 5. -/
theorem witness_placement :
    let s : State := { lq id with ev := { who := 1, bytes := [5] } }
    let l := s.launch 1
    s.isNext 1 = true ∧ l.batch = 1
    ∧ (match s.placeSets 1 0 0 [5] 0, s.placeTeam 1 0 5 0 0 with
        | some t, some u => nextIs (exec .teamPlace s) t
          && decide (s.hasRoom 5 l.blk 0 = true ∧ s.permitted l.recBytes 0 = true ∧ (u.team (teamKey 1 0)).st = .placed ∧ (u.team (teamKey 1 0)).core = 5 ∧ u.hbm = s.hbm ∧ u.os = s.os
            ∧ (u.team (teamKey 1 0)).sids = [5 * 4096, 5 * 4096 + 1] ∧ (u.strand (5 * 4096 + 1)).pc = 0x10 ∧ (u.strand (5 * 4096 + 1)).a = [] ∧ (u.strand (5 * 4096 + 1)).team = teamKey 1 0)
        | _, _ => false) = true
    ∧ (let n : State := { s with ev := { who := 1, bytes := [64] } }
       nextIs (exec .teamPlace n) n) := by decide +kernel
/-- A parked team past its threshold evicted; a halted team saved for a higher class; its return; a pre-emption. -/
theorem witness_moves :
    let s0 := lq fun l => { l with recBytes := [0x11, 0] ++ rec1.drop 2 }
    let s : State := { s0 with ctxs := [(0, { saveBase := 0x100000, saveLen := 0x100000 })] }
    let sv := s.saveTeam 0 .preempt
    (match sv with
      | none => false
      | some u => decide ((u.team 0).st = .saved false ∧ (u.team 0).core = 64 ∧ (u.team 0).sids = [64 * 4096])
        && (let b : State := { u with hbm := s.hbm, hostMem := s.hostMem, teams := mput u.teams 0 { u.team 0 with st := .saved true, image := none }, ev := { who := 0, bytes := [9] } }
            b.nextBack (b.team 0) && (match b.bringBack ((b.backGroup (b.team 0)).zip [9]) with
              | some w => nextIs (exec .teamReturn b) w && decide ((w.team 0).core = 9)
              | none => false))) = true
    ∧ (let c : Ctx := { saveBase := 0x100000, saveLen := 0x100000, preempted := true }
       let p : State := { s with ctxs := [(0, c)] }
       nextIs (exec .preemptionDone p) (p.preemptNow 0)) := by decide +kernel
/-- A record and a completion record whose places the access tables deny; a ring on a page without a translation; a team that host memory owes an observation; a region's halted team that no launch needs. -/
theorem witness_launchStops :
    let s : State := { lq (fun l => { l with st := .ended, status := 5 }) with acc := [], ev := { who := 5 } }
    let e : State := { s with ev := { who := 1 } }
    let p : State := { lq id with ev := { who := 5 }, queues := [(5, { (lq id).queue 5 with lring := 0x10000 })] }
    let g : State := { lq id with teams := [(9, { launch := 1, st := .running, core := 3, sids := [] })], hostOwed := [9 * 256 + 3], linkUp := false, ev := { who := 9 } }
    (match s.ringPlace 0 (0x400 + 256) 0 with
      | .denied u => nextIs (exec .launchRecordRead s) (u.recordLost 5)
      | _ => false) = true
    ∧ (match p.ringPlace 0 (0x10000 + 256) 0 with
      | .park k => nextIs (exec .launchRecordRead p) ((p.setQueue 5 { p.queue 5 with park := some k }).raiseFault 8 5 0 k)
      | _ => false) = true
    ∧ (match exec .launchEnd e with
      | .next t => decide ((t.queue 5).err = true ∧ (t.queue 5).written = 3 ∧ (t.launch 1).written = true)
      | _ => false) = true
    ∧ g.cacheUp = false ∧ nextIs (exec .teamRetire g) g := by decide +kernel
/-- Two ready launches: the one of class 1 goes before the one of class 0. -/
theorem witness_order :
    let s0 := lq id
    let s : State := { s0 with launches := s0.launches ++ [(2, { s0.launch 1 with recBytes := [0x11, 4] ++ rec1.drop 2 })] }
    recPrio (s.launch 1).recBytes < recPrio (s.launch 2).recBytes ∧ s.isNext 2 = true ∧ s.isNext 1 = false := by decide +kernel
/-- A team parked past its threshold is evicted; at the threshold it is not. -/
theorem witness_eviction :
    let at' := fun (tick : Nat) => ({ withTeam (withSt fun st => { st with parkSince := some (0, 0x20, 0) }) (fun t => { t with evt := 1 }) with
      ctxs := [(0, { saveBase := 0x100000, saveLen := 0x100000 })], tick := [(0, tick)], ev := { who := 0 } } : State)
    ((at' 101).evictable ((at' 101).team 0) = true ∧ (at' 100).evictable ((at' 100).team 0) = false)
    ∧ (match exec .eviction (at' 101) with
        | .next u => decide ((u.team 0).st = .saved false ∧ (u.team 0).core = 64)
        | _ => false) = true
    ∧ nextIs (exec .eviction (at' 100)) (at' 100) := by decide +kernel
/-- A full barrier, a detector's pass, an overrun at 400 ticks, an expired line, an ABWAIT's limit, a claim and a matrix step. -/
theorem witness_waiting :
    let b : State := { one with bars := [(barKey 0 3 0, { arrived := [memberId 0 0] })], ev := { idx := 3 } }
    let n : State := { withSt (fun st => { st with npr := some 0 }) with tick := [(0, 400)] }
    let m : State := { withSt (fun st => { st with npr := some 1 }) with tick := [(0, 400)] }
    let l : State := { one with osLines := [(4, { cls := 1 })], tick := [(0, 6400)], ev := { idx := 4 } }
    let k : State := { one with osLines := [(4, { cls := 1 })], tick := [(0, 6399)], ev := { idx := 4 } }
    let w : State := withSt fun st => { st with waitAt := some { pc := 0, limit := 90, off := 0x20, phase := 5 } }
    let c : State := { withSt (fun st => { st with claim := some 8 }) with claimQ := [(0, [0])] }
    let q : State := { list2 id with quiets := [{ sid := 0, flag := 15, ctx := 0, group := 0x300 }], ev := { addr := 0x300 }, hbm := [(0x308, 0x40), (0x310, 0)] }
    b.barFull 0 3 0 = true ∧ nextIs (exec .barrierPhaseComplete b) (b.barComplete 0 3 0)
    ∧ nextIs (exec .nprOverrun n) (n.setStrand 0 { n.strand 0 with npr := none, held := [{ code := 0x0A }] }) ∧ nextIs (exec .nprOverrun m) m
    ∧ l.osExpired 0 (l.osLine 0 4) = true ∧ nextIs (exec .lineExpiry l) (l.osExpire 0 4) ∧ nextIs (exec .lineExpiry k) k
    ∧ nextIs (exec .abwaitTLimit w) { w with cycle := mput w.cycle 0 90 }
    ∧ c.nextClaim 0 = some 0
    ∧ nextIs (exec .tileClaimGrant c) (((c.dropClaim 0).takeTiles 0 8).modStrand 0 fun st => { st with claim := none, pc := st.pc + 4, lastS := some c.stepNo })
    ∧ (match q.groupPass 0 0x300 with
      | (.busy, u) => nextIs (exec .terminationPass q) u
      | _ => false) = true ∧ n.mayIssue 0 = false ∧ n.isRes 0 = true := by decide +kernel
/-- A quiet group. -/
theorem witness_quiet :
    let q : State := { list2 id with quiets := [{ sid := 0, flag := 2, ctx := 0, group := 0x300 }], ev := { addr := 0x300 }, hbm := [(0x309, 4), (0x310, 1), (0x400, 0x40), (0x401, 4), (0x448, 4)] }
    (match q.groupPass 0 0x300 with
      | (.quiet, u) => nextIs (exec .terminationPass q) (u.reportQuiet 0 0x300)
      | _ => false) = true := by decide +kernel
/-- A command of one pair on tile 0. -/
def cmd1 : MxCmd := { kind := .dense, sid := 0, tile := 0, flag := 3, count := 1, offA := 0, offB := 0x8000, cfg := 0, ha := 0x101, hb := 0x101 }
/-- A tile with a command. -/
def mx1 (c : MxCmd) : State := { oseg [] with tiles := [(0, { owner := some 0, cfg := some 0, ha := 0x101, hb := 0x101 })], mxq := [(0, [c])] }
/-- The store command. -/
def cmdS : MxCmd := { cmd1 with kind := .store, count := 8 }
/-- The command when it is over. -/
def cmdO : MxCmd := { cmd1 with done := 64 }
/-- A dense command at its first step. -/
theorem witness_matrixStep : (mx1 cmd1).mxRunnable 0 0 = true := by decide +kernel
/-- A command that is over. -/
theorem witness_matrixOver : cmdO.isOver = true ∧ nextIs (exec .matrixCommandComplete (mx1 cmdO)) ((mx1 cmdO).mxFinish 0 0 cmdO) = true := by decide +kernel
/-- A store command at its first step. -/
theorem witness_storeStep : (mx1 cmdS).mxRunnable 0 0 = true := by decide +kernel
/-- A slot granted to a waiting SKICK of the engine in its register. -/
theorem witness_slot :
    let k : State := { withSt (fun st => { st with skick := some { eng := 0, e := true, d := 4, g := 10, b := 2, f := 3, t := 0 }, a := [(10, 0x2000)] }) with skickQ := [(0, [0])] }
    k.skickWaiters 0 = [0] ∧ k.freeSlot 0 = some 0 ∧ k.mayIssue 0 = true
    ∧ (match k.fetchScalar 0 with
        | .got w _ =>
          let s' : State := { k with cur := 0, curWord := w.setWidth 96 }
          s'.isRes 0 && decide ((s'.source 2).map (·.1) = some 0) && s'.takes 4 && (s'.releases 4).released 0 4 && k.dieLive 0
          && (let s4 := ({ (s'.releases 4).countedPkg 3 with skickQ := [] } : State).takeSlot 0 0 0x2000 0 0 3 false
              let s5 := s4.setStrand 0 { s4.me with skick := none }
              nextIs (exec .skickSlotGrant k) ((s5.dest 4 (BitVec.ofNat 64 (s5.ticket 0))).endScalar 4))
        | _ => false) = true := by decide +kernel
/-- The choice of the array: of two commands that can step, the one that waits longer; a step that only begins; one that is not chosen. -/
theorem witness_matrixChoice :
    let s : State := { mx1 cmd1 with ev := { flag := true } }
    s.mxChoice 0 false = some 0 ∧ s.mxChoice 0 true = none
    ∧ nextIs (exec .matrixStep s) (s.mxPut 0 0 cmd1 { cmd1.start s with sels := s.mxSels cmd1 } {})
    ∧ (let u : State := { mx1 cmdO with ev := { flag := true } }
       u.mxChoice 0 false ≠ some 0 ∧ nextIs (exec .matrixStep u) (u.mxWaitNote 0 0 cmdO)) := by decide +kernel
/-- Kernels of the matrix engine: the chunk 1·2 + 3·4, one with ∞ − ∞, a zero product that leaves C, elements, and a row of tokens' metadata out of order. -/
theorem witness_matrixKernels :
    let f := fun (n : Nat) => Fv.fin false n 0
    (let r := chunkSum (mkChunk [f 1, f 3]) (mkChunk [f 2, f 4])
     (encodeF f32 0 false false r.1).1 = 0x41600000 ∧ r.2 = 0)
    ∧ chunkSum (mkChunk [.inf false, .inf true]) (mkChunk [f 1, f 1]) = (.nan false, cINV) ∧ chunkSum (mkChunk [.inf true]) (mkChunk [f 1]) = (.inf true, 0)
    ∧ mxAdd 0x80000000 (.fin false 0 0) = (0x80000000, 0) ∧ (mxAdd 0x3F800000 (f 1)).1 = 0x40000000
    ∧ mxVal 9 0xFF = ofInt (-1) ∧ mxVal 10 0xFF = ofInt 255
    ∧ (sparseChunk 1 [0x3C00, 0x4000] [3, 7]).bad = false ∧ (sparseChunk 1 [0x3C00, 0x4000] [7, 3]).bad = true ∧ (sparseChunk 1 [0x3C00, 0x4000] [3, 32]).bad = true
    ∧ (storeRow { cmdS with out := 1 } [0x3F800000, 0xC0000000] [0, 0]).1 = [0x00, 0x3C, 0x00, 0xC0] := by decide +kernel
/-- An append of two items to a list with room for one more, its commit in turn and out of turn, and a SCOPY's copy. -/
theorem witness_appends :
    let a : Append := { ctx := 0, die := 0, sid := 0, tag := 0, desc := 0x40, items := [(0, 5), (1, 6)] }
    let s : State := { list2 id with appends := [a], hbm := [(0x41, 2), (0x48, 4), (0x60, 15), (0x68, 15)] }
    let r : State := { s with appends := [{ a with reserved := true, first := 15, items := [(0, 5)] }] }
    let o : State := { r with appends := [{ a with reserved := true, first := 16, items := [(0, 5)] }] }
    okAnd (match s.xlate 0 0 0x40 { w := true } .mem with
      | .ok x => .ok (x, s)
      | .error _ => .error (.wait none)) (fun x _ =>
        let u := x.s.toHome 0 x.pa x.pol
        (x.s.allowed 0 x.pa { w := true }) && (u.wlDesc x.pa).ok
        && ((u.home8 (x.pa + 0x20) x.pol 16).bind fun u => u.home8 (x.pa + 0x30) x.pol 1).any fun u => nextIs (exec .compactionAppend s) (u.setAppend 0 { a with reserved := true, first := 15, items := [(0, 5)] })) = true
    ∧ (match exec .tailCommit r with
        | .next t => decide (t.slice8 0x68 = 16 ∧ t.slice8 0x60 = 15 ∧ mget t.hbm 0x23C 0 = 5 ∧ t.appends = [])
        | _ => false) = true
    ∧ (match o.xlate 0 0 0x40 { w := true } .mem with
        | .ok x => nextIs (exec .tailCommit o) (x.s.toHome 0 x.pa x.pol)
        | .error _ => false) = true
    ∧ (let d : State := { s with acc := [] }
       match d.xlate 0 0 0x40 { w := true } .mem with
        | .ok x => !x.s.allowed 0 x.pa { w := true } && nextIs (exec .compactionAppend d) (({ x.s.denyPa 0 x.pa 2 with appends := [] } : State).loseItems a [0, 1] 0x40)
        | .error _ => false) = true
    ∧ (let d : State := { r with acc := [] }
       match d.xlate 0 0 0x40 { w := true } .mem, exec .tailCommit d with
        | .ok x, .next t => !x.s.allowed 0 x.pa { w := true } && t.appends.map (·.lost) == [[0]] && nextIs (exec .tailCommit t) t
        | _, _ => false) = true
    ∧ (let m : State := { s with hbm := [(0x41, 2), (0x48, 3)] }
       match exec .compactionAppend m with
        | .next t => decide (t.slice8 0x70 = 2 ∧ t.appends = [])
        | _ => false) = true := by decide +kernel
/-- The copy of a SCOPY. -/
theorem witness_scopyComplete : let h : BitVec 2048 := 0x100 ||| (64#2048 <<< 128)
    let s : State := { oseg [] with ctxs := [(0, { handles := [(7, h)] })], hbm := [(0, 7)], launches := [(0, { recBytes := List.replicate 0x9D 0 ++ [0x10, 0, 0] })] }
    let c : Scopy := { sid := 0, team := 0, flag := 2, lead := 0, store := false, w := scopyWords 0 0 (0x0700000000000100 ||| (5 <<< 46)) 8 0, h := h, coords := [16], ph := 0 }
    let s : State := s.setDieCopies 0 [c]
    let g : Eng := { ctx := 0, die := 0, agent := 3, unitNo := 0, who := 0 }
    (s.checkCopy c.copy).isOk = true ∧ s.copyOpen c.copy = true
    ∧ (match runE (unitsFrom (tileUnit g c.copy) c.copy.units 0) { s := s } with
        | .ok (_, r) => r.sticky &&& stEXPL == 0 && nextIs (exec .scopyComplete s) (((r.s.engRelease (c.w.w0.getLsbD 56) (c.w.w0.extractLsb' 53 3).toNat).copyBarriers c.copy).endScopy 0 0 c none)
          && decide (mget (r.s.os) 0x100 0 = 7)
        | .error _ => false) = true := by decide +kernel
/-- A port that is up, and its package. -/
def pu (f : Port → Port) (ev : EvArg) : State := { one with ports := [(3, f { up := true, width := 8, rxWidth := 8, liveWl := 0xFF, trained := true, lastRx := 1000 })], ev := ev, tick := [(9, 2000)] }
/-- Control flits, a parking, a waking, a loss of the link. -/
theorem witness_fabricPorts :
    let s := pu (fun x => { x with unacked := 2, waking := true }) { who := 3, size := 4, val := 9, bytes := [] }
    let x := s.port 3
    let w := pu (fun x => { x with width := 4, outq := [{ cls := 0, bytes := [1], since := 1949 }] }) { who := 3 }
    let h := fun (x : Port) => { x with lastRx := 2000 }
    let k := pu id { who := 3 }
    let t : State := { pu (fun x => { x with up := false, training := true, trainCount := [(2, 14), (4, 15)], liveWl := 1 }) { who := 3, idx := 2 } with colLive := 15 }
    let t4 : State := { t with ev := { who := 3, idx := 4 } }
    let y := t.port 3
    let o : State := { one with colLive := 15, ev := { who := 3 } }
    nextIs (exec .nak s) ((s.setPort 3 (h (x.naked 9))).flowPort 3) ∧ nextIs (exec .ack s) ((s.setPort 3 (h (x.acked 9))).flowPort 3)
    ∧ nextIs (exec .ackSend s) (s.setPort 3 x.sendAck) ∧ nextIs (exec .stripe s) (s.setPort 3 (h { x with rxNext := some (4, 9) }))
    ∧ nextIs (exec .permit s) ((s.setPort 3 (h (x.gotPermits (permsOf [])))).flowPort 3)
    ∧ nextIs (exec .portLinkDown s) (s.setPort 3 x.down) ∧ nextIs (exec .peerSilenceTimeout s) (s.setPort 3 x.down) ∧ nextIs (exec .peerSilenceTimeout { s with tick := [(9, 1999)] }) { s with tick := [(9, 1999)] }
    ∧ nextIs (exec .wakeRequest w) (w.setPort 3 { w.port 3 with waking := true }) ∧ nextIs (exec .wakeRequest { w with tick := [(9, 1999)] }) { w with tick := [(9, 1999)] }
    ∧ nextIs (exec .parkRequest { k with tick := [(9, 1999)] }) { k with tick := [(9, 1999)] }
    ∧ (match exec .parkRequest k, exec .wakeDone s with
        | .next u, .next v => decide ((u.port 3).nextWidth = some (4, 0) ∧ (u.port 3).parkPend = true ∧ (u.port 3).width = 8 ∧ (v.port 3).nextWidth = some (8, 0) ∧ (v.port 3).waking = false)
        | _, _ => false) = true
    ∧ nextIs (exec .train t) (t.setPort 3 (h { y with trainCount := [(2, 15), (4, 15)] }))
    ∧ nextIs (exec .train t4) (t4.setPort 3 (h { y with trainCount := [(2, 14), (4, 16)], liveWl := 0x11 }))
    ∧ (match exec .portComesUp o with
        | .next u => decide ((u.port 3).training = true ∧ (u.port 3).up = false ∧ (u.port 3).sent.length = 128)
        | _ => false) = true
    ∧ (match exec .colDieLoss { s with colLive := 15, ev := { who := 0 } } with
        | .next u => decide (u.colLive = 14 ∧ u.port 3 = (s.port 3).down)
        | _ => false) = true := by decide +kernel
/-- A READY, the end of a training period, and flits with a good CRC, a bad one, and a SEQ out of order. -/
theorem witness_flits :
    let f := mkFlit 0 3 0 0 [1, 2, 3]
    let ev := fun (g : BitVec 2048) => pu id { who := 3, bytes := leBytes 256 g.toNat }
    let s := ev f
    let n := ev (mkFlit 0 3 0 5 [1])
    let c := ev (controlFlit 1 0 0 7 [])
    let b := ev (f ^^^ 1)
    let t : State := pu (fun x => { x with up := false, training := true, liveWl := 7 }) { who := 3, size := 2, val := 3, bytes := [] }
    (flitCrcOk f = true ∧ flitCrcOk (f ^^^ 1) = false)
    ∧ nextIs (exec .flitReceive s) (s.gotFlit 3 f) ∧ nextIs (exec .flitReceive n) (n.setPort 3 (n.port 3).sendNak) ∧ nextIs (exec .flitReceive b) (b.setPort 3 (b.port 3).sendNak)
    ∧ nextIs (exec .flitReceive c) ((c.setPort 3 { (c.port 3).gotControl 2000 0 (flitData (controlFlit 1 0 0 7 [])) with lastRx := 2000 }).flowPort 3)
    ∧ nextIs (exec .ready t) ((t.setPort 3 { ({ t.port 3 with peerReady := some (2, 3, permsOf []) } : Port).tryUp 2000 with lastRx := 2000 }).flowPort 3)
    ∧ nextIs (exec .trainPeriodEnd t) ((t.setPort 3 (({ (t.port 3).sendOn 0 [controlFlit 4 (roundWidth 3) 7 0 ownReserve] with readySent := true, readyWl := 7 } : Port).tryUp 2000)).flowPort 3)
    ∧ nextIs (exec .trainPeriodEnd { t with tick := [(9, 999)] }) { t with tick := [(9, 999)] } ∧ beatWl 7 0 = some 0 ∧ (beatsOn 5)[3]? = some 2 := by decide +kernel
/-- A command word. -/
def mcmdOf (cmd : Nat) (ctx : Nat) (w1 w2 : Nat) : BitVec 512 := BitVec.ofNat 512 (cmd + ctx * 2 ^ 16 + w1 * 2 ^ 64 + w2 * 2 ^ 128)
/-- Management commands done, failed, denied, discarded while BUSY, queued, of Ultik. -/
theorem witness_mailbox :
    let s : State := { list2 id with mcmd := mcmdOf 0x01 5 0 0 }
    let m := mgmtFields s.mcmd
    let d : State := { list2 id with mcmd := mcmdOf 0x01 1024 0 0 }
    let w : State := { s with acc := [] }
    let b : State := { s with mBusy := true, mCmd := 3 }
    let q : State := { s with uBusy := true, uCmd := mcmdOf 0x03 0 0 0 }
    let u : State := { s with ev := { flag := true, bytes := leBytes 64 (mcmdOf 0x7F 0 0 0).toNat } }
    (m.ctx = 5 ∧ m.cmd = 1 ∧ m.w1 = 0 ∧ s.hostMay true = true ∧ s.linkUp = true ∧ s.runningCmd = none ∧ s.mgmtQ = [] ∧ q.runningCmd = some (true, q.uCmd))
    ∧ (match cmdCtxcreate m { s with mStart := s.stepNo, moving := [] } with
        | .done 0 v0 v1 t => nextIs (exec .ctxcreate s) { t with mBusy := false, mDone := true, mCmd := 1, mResult := 0, mres0 := BitVec.ofNat 64 v0, mres1 := BitVec.ofNat 64 v1, cio := some [] }
            && decide (mget? t.ctxs 5 = some { troot := 0, saveBase := 0, saveLen := 0, touched := 0 })
        | _ => false) = true
    ∧ nextIs (exec .ctxcreate d) { d with mStart := d.stepNo, moving := [], mDone := true, mCmd := 1, mResult := 2, cio := some [] }
    ∧ nextIs (exec .ctxcreate w) { w.deny 4 0 0x400 1 mgoAt with cio := none } ∧ nextIs (exec .ctxcreate { s with linkUp := false }) { s with linkUp := false }
    ∧ nextIs (exec .ctxcreate b) { b.deny 4 0 0x400 1 mgoAt with cio := some [] }
    ∧ nextIs (exec .ctxcreate q) { q with mgmtQ := [none], mBusy := true, cio := some [] }
    ∧ nextIs (exec .unknownCmd u) { u with mStart := u.stepNo, moving := [], uBusy := false, uResult := 1, uRes0 := 0, uRes1 := 0 }
    ∧ (let q : State := { q with ev := { flag := true } }
       nextIs (exec .xinv q) ((match cmdXinv (mgmtFields q.uCmd) q with
        | .done r v0 v1 t => { (if r = 0 then t else q.unmove) with uBusy := false, uResult := BitVec.ofNat 16 r, uRes0 := BitVec.ofNat 64 v0, uRes1 := BitVec.ofNat 64 v1 }
        | .busy t => t).mgmtNext 0)) := by decide +kernel
/-- A command that is done, with its RESULT, values and state. -/
def isDone (o : MgmtOut) (r v0 v1 : Nat) (t : State) : Bool := match o with
  | .done a b c u => decide (a = r ∧ b = v0 ∧ c = v1 ∧ u = t)
  | .busy _ => false
/-- The commands themselves. -/
theorem witness_commands :
    let s := list2 id
    let m := fun (ctx w1 w2 : Nat) => mgmtFields (mcmdOf 0 ctx w1 w2)
    isDone (cmdTouch (m 0 0x81 0) s) 0 0 0 { s with ctxs := mmod s.ctxs 0 fun x => { x with touched := x.touched ||| (0x81 &&& s.live) } }
    ∧ isDone (cmdCtxcreate (m 0 0 0) s) 4 0 0 s ∧ isDone (cmdResume (m 7 0 0) s) 3 0 0 s ∧ isDone (cmdResume (m 0 0 0) s) 0 0 0 ((List.range 32).foldl State.flowPort (s.resumeCtx 0))
    ∧ (match cmdXinv (m 0 0 0) s with
        | .done 0 0 0 t => t.tlb == []
        | _ => false) = true
    ∧ isDone (cmdPortset (m 0 3 2) s) 2 0 0 s ∧ isDone (cmdPortset { m 0 3 2 with w3 := 1000 } s) 0 0 0 (s.setPort 3 { s.port 3 with minwl := 2, idle := 1000 })
    ∧ isDone (cmdTagrd (m 0 0x80 0) s) 0 (s.tag 1).toNat (sliceOf 0x80) s ∧ isDone (cmdTagrd (m 0 0x81 0) s) 2 0 0 s
    ∧ isDone (cmdPoisonclr (m 0 0x10000 0) { s with poisonPages := [1] }) 0 0 0 s ∧ isDone (cmdPoisonclr (m 0 0x10000 0) s) 3 0 0 s
    ∧ isDone (cmdPortfail (m 0 3 0) s) 0 0 0 (s.failPort 3) ∧ isDone (cmdNsdef (m 0 5 0) s) 0 0 0 { s with ns := mdel s.ns 5 }
    ∧ isDone (cmdAtset (m 0 0 3) s) 0 0 0 { s with acc := mset s.acc (accKey 0 0 0) 3 0 }
    ∧ isDone (cmdKill (m 0 5 0) s) 3 0 0 s
    ∧ (match cmdPreempt (m 0 0 0) s with
        | .done 0 0 0 t => t == s.preemptCtx 0
        | .busy t => t == s.preemptCtx 0
        | _ => false) = true := by decide +kernel
/-- A state with an event's operands. -/
def evOf (e : EvArg) : State := { one with ev := e }
/-- The loss of a die, power and temperature, a region's life, errors. -/
theorem witness_loss :
    let d := evOf { who := 1 }
    let p : State := { evOf { val := 4000 } with tick := [(8, 10000)] }
    let q : State := { evOf { val := 3000, flag := true } with clock := [(2, 3)], lowSince := some 100000, tick := [(8, 200000)] }
    let h := evOf { core := 7, idx := 2, val := 90 }
    let r : State := { evOf { core := 0, idx := 1, bytes := [] } with regions := [(1, { action := 4 })] }
    let o : State := { evOf { core := 9, idx := 1, bytes := [] } with regions := [(37, { shutdown := true, action := 4 })] }
    let b : State := { evOf { core := 9, idx := 1, val := 204 } with regions := [(37, { off := true, action := 4 })] }
    let u : State := withTeam (evOf { core := 0, addr := 0x304 }) fun t => { t with obase := 0, tseg := 0x1000 }
    let v := evOf { who := 0, idx := 15, val := 63, flag := true }
    let c := evOf { core := 3, idx := 2, size := 3 }
    let c4 := evOf { core := 3, idx := 2, size := 4, val := 5, flag := true }
    let cx : State := { c4 with spares := [(50, 2)] }
    let t := evOf { core := 3, flag := true }
    (match exec .dieLoss d, exec .powerThrottleStep p, exec .thermalThreshold h, exec .tierShutdown r, exec .beatCrcFail cx with
      | .next a, .next b, .next c, .next e, .next f => decide (a.live = 0xFD ∧ b.clockStep 0 = 1 ∧ b.clockStep 63 = 1 ∧ (c.region 7 2).reading = 90 ∧ (c.region 7 2).action = nextAction 0 90 false 5
          ∧ (e.region 0 1).shutdown = true ∧ (e.strand 0).halt ≠ .none ∧ f.retired.contains 3 = true)
      | _, _, _, _, _ => false) = true
    ∧ nextIs (exec .powerThrottleStep { p with tick := [(8, 9999)] }) { p with tick := [(8, 9999)] }
    ∧ nextIs (exec .powerThrottleStep q) ((List.range 64).foldl (fun s k => if s.hot k = true then s else s.setStep k (s.clockStep k - 1)) { q with powerAt := 200000 })
    ∧ nextIs (exec .powerThrottleStep { q with tick := [(8, 199999)] }) { q with tick := [(8, 199999)] }
    ∧ nextIs (exec .thermalClockStep h) h
    ∧ nextIs (exec .regionPowerOff o) (o.setRegion 9 1 { shutdown := true, action := 4, off := true })
    ∧ nextIs (exec .regionReturnToService b) (b.setRegion 9 1 { reading := 204, action := nextAction 4 204 false 5 })
    ∧ nextIs (exec .operandUncorrectable u) (u.setOsLine 0 3 { u.osLine 0 3 with poison := 2 })
    ∧ nextIs (exec .operandUncorrectable v) (v.setStrand 0 { v.strand 0 with vpois := [vKey 15 63] })
    ∧ nextIs (exec .beatCrcFail c) { c with corrected := [(3, 1)] }
    ∧ nextIs (exec .beatCrcFail c4) { c4 with spares := [(50, 1)], remap := [(3205, 0)] }
    ∧ nextIs (exec .tierTestYield t) { t with testing := [3] } := by decide +kernel
/-- A COLL of two ranks, rank 1 held by the package behind port 4. -/
def coll2 : Coll :=
  { ctx := 0, team := 0, gid := 5, k := 0, rank := 0, p := 2, op := 0, hs := 0x100 ||| (4#2048 <<< 128), hd := 0x100 ||| (4#2048 <<< 128)
    desc := [0x200000005, 0, 0, 0, 0, 0, 0, 0, 0, 0x8400000000000000], acq := false, rel := false, scope := 0, sid := 0, flag := 3 }
/-- Aborts of a group, a partial value and an abort message from a peer. -/
theorem witness_collEvents :
    let s : State := { evOf { who := 0, addr := 5, idx := 0 } with colls := [{ coll2 with lost := true }] }
    let m : State := { s with colls := [coll2, { coll2 with op := 1, rank := 1 }] }
    (s.collGroup 0 5 0 = s.colls ∧ groupMismatch m.colls = true)
    ∧ nextIs (exec .collAbort s) (s.collAbort 0 5 0 .other) ∧ nextIs (exec .collAbort m) (m.collAbort 0 5 0 .mismatch)
    ∧ ((s.collAbort 0 5 0 .other).colls = [] ∧ ((s.collAbort 0 5 0 .other).strand 0).held ≠ []) := by decide +kernel
/-- A message of the collective: kind, operation, elements 0 to 3 of position 1 at level 0. -/
def cmsg (kind op : Nat) : List Byte := leBytes 4 16 ++ leBytes 1 kind ++ leBytes 1 op ++ leBytes 2 0 ++ leBytes 4 5 ++ leBytes 4 0 ++ leBytes 2 1 ++ leBytes 2 2 ++ leBytes 4 0 ++ leBytes 4 4 ++ leBytes 4 0 ++ leBytes 16 0x01
/-- A partial value, a mismatch, an abort message; a denied message, and one of a collective that is over. -/
theorem witness_collMessages :
    let s : State := { one with colls := [coll2], ports := [(4, { up := true })], acc := [(accKey 3 4 0, 3), (accKey 0 0 0, 3)] }
    let ev := fun (m : List Byte) => ({ s with ev := { who := 4, bytes := m } } : State)
    let n : State := { ev (cmsg 0 0) with acc := [] }
    let h : State := { ev (cmsg 0 0) with colls := [] }
    let d : State := { h with collDead := [coll2] }
    (coll2.expects 4 (cmsg 0 0) = true ∧ coll2.agrees (cmsg 0 0) = true ∧ coll2.agrees (cmsg 0 1) = false ∧ s.portMay 4 0 false = true ∧ n.portMay 4 0 false = false)
    ∧ nextIs (exec .collMessage (ev (cmsg 0 0))) { ev (cmsg 0 0) with collParts := [{ ctx := 0, gid := 5, k := 0, level := 0, idx := 1, root := false, first := 0, vals := [1, 0, 0, 0] }] }
    ∧ nextIs (exec .collMessage (ev (cmsg 0 1))) ((ev (cmsg 0 1)).collAbort 0 5 0 .mismatch)
    ∧ nextIs (exec .abortMessage (ev (cmsg 2 0))) ((ev (cmsg 2 0)).collAbort 0 5 0 .other)
    ∧ nextIs (exec .collMessage n) (((n.deny 3 4 0 0 0).sendMsg 4 (denialMsg (cmsg 0 0))).collAbort 0 5 0 .denied)
    ∧ nextIs (exec .collMessage h) (h.holdMsg 4 (cmsg 0 0)) ∧ nextIs (exec .collMessage d) d := by decide +kernel
/-- One rank on this package: its value is the root's, the result is written, and the collective ends; in a pre-empted context nothing happens. -/
theorem witness_collLocal :
    let c : Coll := { coll2 with p := 1, desc := [0x100000005, 0, 0, 0, 0, 0, 0, 0, 0] }
    let s : State := { list2 id with colls := [c], hbm := [(0, 9)], ev := { who := 0, addr := 5, idx := 0 } }
    let h : State := { s with ctxs := mmod s.ctxs 0 fun x => { x with preempted := true } }
    let n := min (chunkElems [c] c) (elemsOf c.hs - c.pos)
    s.collReady [c] 0 = true ∧ s.nextTell [c] c = none ∧ n = 4 ∧ s.collHas c 0 n (rootLevel 1) 0 = true ∧ dRemote c.desc 0 = false ∧ remotePorts c.desc = []
    ∧ h.ctxHalted 0 = true ∧ nextIs (exec .collComplete h) h
    ∧ (match collVal s [c] c 0 n (rootLevel 1) 0 { s := s } with
        | .ok (vs, q) => nextIs (exec .collComplete s) ((q.coll c).collGot [c] c vs)
        | .error _ => false) = true := by decide +kernel
/-- A placed word of each kind is what the next step runs; a named event and named ticks. -/
theorem witness_step :
    let s := State.reset.withFetchWord 32 0x04400040
    let s0 : State := { s with sched := [], stepNo := s.stepNo + 1 }
    let s1 := s0.addCycle 0
    let p := State.reset.withFetchWord 64 0x4000000000000000
    let p0 : State := { p with sched := [], stepNo := p.stepNo + 1 }
    let e : State := { one with sched := [.event .errClear { who := 5 }] }
    let t : State := { one with sched := [.time 2 7] }
    (s.fatal = false ∧ s.sched = [.scalar 0] ∧ s1.mayIssue 0 = true ∧ (s1.strand 0).parkS = none)
    ∧ (match ({ s1 with cur := 0, curB := false, curWin := false, ev := { flag := false } } : State).fetchScalar 0, step s with
        | .got w s2, .next u => nextIs (exec (.addi 4 0 0x40) { s2 with curWord := w.setWidth 96 }) u && decide (w = 0x04400040 ∧ (u.strand 0).reg 4 = 0x40)
        | _, _ => false) = true
    ∧ (match p0.nextStream 0, step p with
        | .cmd i t, .next u => nextIs (exec i { t with curProg := 0 }) u
        | _, _ => false) = true
    ∧ nextIs (step e) { e with sched := [], stepNo := 1, ev := { who := 5 } }
    ∧ nextIs (step t) (({ t with sched := [], stepNo := 1 } : State).addTicks 2 7) := by decide +kernel
/-- A lane unit is what the next step runs. -/
theorem witness_laneStep :
    let s := State.reset.withFetchWord 96 0x06014E050160601A00000000
    let s0 : State := { s with sched := [], stepNo := s.stepNo + 1 }
    let s1 : State := { s0.addCycle 0 with cur := 0, curB := false, curWin := false, ev := { flag := true } }
    s1.mayIssue 0 = true ∧ (s1.strand 0).laneHasWork = true
    ∧ (match s1.prepSide 0 false false with
        | .unit u s2 => (match decodeLane u with
          | .ok i => (match exec i { s2 with curWord := u }, step s with
            | .next t, .next v => decide (v = t)
            | _, _ => false)
          | .error _ => false)
        | _ => false) = true := by decide +kernel
/-- Registers of an instruction that takes two, and its frame's state. -/
theorem witness_frame :
    let s := regs [(4, 7), (5, 9)]
    s.isRes s.cur = true ∧ s.source2 4 5 = some (7, 9, s) ∧ s.takes 6 = true ∧ isPush 6 = false ∧ isPop 4 = false ∧ isPop 5 = false
    ∧ (match exec (.mul 6 4 5) s with
        | .next t => decide (t.me.reg 6 = 63 ∧ t.me.reg 4 = 7 ∧ t.me.reg 0 = 0)
        | _ => false) = true := by decide +kernel
/-- A state in which the memories are canonical, and an instruction that is well-formed and has a word. -/
theorem witness_canonical :
    (list2 id).memOk ∧ (Instr.wf (.addi 4 0 0x40) = true ∧ encode (.addi 4 0 0x40) = some (.scalar 0x04400040)) := by
  unfold State.memOk; decide +kernel
/-- A start with no stage, an extension of MEAS5 and a request of the host. -/
theorem witness_start :
    let s : State := { one with ev := { idx := 5, bytes := [1, 2], who := 0, val := 0xFF } }
    (s.startFailed = none ∧ s.attQ = [] ∧ s.linkUp = true ∧ s.hostMay true = true)
    ∧ (match exec .packageReset s with
        | .next t => decide (t.live = 0xFF ∧ t.strands = [] ∧ t.ctxs = [] ∧ t.hbm = s.hbm)
        | _ => false) = true
    ∧ nextIs (exec .attestationRequest s) { s.attRequest 0 (BitVec.ofNat 256 0x201) 0xFF with cio := some [] }
    ∧ nextIs (exec .attestationRequest { s with linkUp := false }) { s with linkUp := false } := by decide +kernel
/-- The step's other kinds of move: a pass, reads and accesses of the host, a mask, a corrected error, staged data. -/
theorem witness_choices :
    let st := fun (c : Choice) (s : State) => ({ s with sched := [c] } : State)
    let go := fun (c : Choice) (s : State) (t : State → State) =>
      nextIs (step (st c s)) (t { s with sched := [], stepNo := s.stepNo + 1 })
    let m : State := { one with msixOpen := [3, 5] }
    let n : State := { one with nvme := [{ prog := 0, gen := 1, n := 0, op := 2, ns := 0, slba := 0, nlb := 1 }] }
    go (.hostPoke 4 [7]) one (fun s => { s with hostMem := [(4, 7)] }) = true
    ∧ go (.hostPeek 4 1) { one with hostMem := [(4, 7)] } (fun s => { s with hostGot := [7] }) = true
    ∧ go (.hostRead 0x100000 2) one (fun s => { s with cio := some [0, 0] }) = true
    ∧ go (.mask 3) m (fun s => { s with msixOpen := [5] }) = true
    ∧ go (.corrected 9) one (fun s => { s with corrected := [(9, 1)] }) = true
    ∧ go (.staged 0 [1, 2]) n (fun s => { s with nvme := [{ prog := 0, gen := 1, n := 0, op := 2, ns := 0, slba := 0, nlb := 1, buf := [1, 2] }] }) = true
    ∧ go (.pass 0 0 0) one (fun s => s.passLane 0 0 0) = true := by decide +kernel
/-- Two strands of one slot, 0 and 4. -/
def slot2 (f g : Strand → Strand) : State :=
  let s := withTeam one fun t => { t with sids := [0, 4] }
  ({ s with strands := mput s.strands 4 (s.strand 0) } : State).modStrand 0 f |>.modStrand 4 g
/-- A slot's turn: an aged stream, the class, the least recent issue; the turn that a named move does not get. -/
theorem witness_slotTurn :
    let old := slot2 id fun st => { st with ageS := 256 }
    let cls := slot2 id fun st => { st with prio := 2 }
    let rec' := slot2 (fun st => { st with lastS := some 5 }) fun st => { st with lastS := some 4 }
    (old.goesBefore false 4 0 = true ∧ old.goesBefore false 0 4 = false ∧ cls.goesBefore false 4 0 = true ∧ rec'.goesBefore false 4 0 = true
      ∧ (slot2 id id).goesBefore false 0 4 = true)
    ∧ (cls.slotChoice false [0, 4] = some 4 ∧ ((cls.ageStreams false [0, 4] 4).strand 0).ageS = 1 ∧ ((cls.ageStreams false [0, 4] 4).strand 4).ageS = 0)
    ∧ (cls.strands.filter fun p => slotKey p.1 == slotKey 0).length = 2
    ∧ (cls.namedTurn false 0).isNone = true ∧ (cls.namedTurn false 4).isSome = true := by decide +kernel
/-- A context that the lost die touches, one that it does not, a sensor of the Basin die, a cache line that cannot be corrected. -/
theorem witness_lossMore :
    let d : State := { one with ctxs := [(0, { touched := 2 }), (1, { touched := 1 })], ev := { who := 1 }, launches := [(0, { st := .ready, placed := 1 })] }
    let b := evOf { core := 64, idx := 0, val := 90 }
    let c : State := { evOf { core := 2, addr := 0x500, flag := true } with dc := [(dcKey 2 10, { data := 0, dirty := 1 })] }
    let u := c.dcPut 2 10 { data := 0, dirty := 1, poisoned := true, bad := true }
    (match exec .dieLoss d with
      | .next t => decide ((mget? t.ctxs 0).any (·.lossHeld) = true ∧ (mget? t.ctxs 1).any (·.lossHeld) = false
          ∧ ({ code := 0x0C } : Held) ∈ (t.strand 0).held ∧ (t.barAt (barKey 2 0 0)).broken = true)
      | _ => false) = true
    ∧ nextIs (exec .thermalThreshold b) (b.setRegion 64 0 { b.region 64 0 with reading := 90 })
    ∧ (c.inHbm 0x500 = true ∧ nextIs (exec .memoryUncorrectable c) u) := by decide +kernel
/-- A start without stages stops at stage 0. -/
theorem witness_startStops :
    (match exec .packageReset (evOf { val := 0xFF, stages := [] }) with
      | .next t => decide (t.startFailed = some 0 ∧ t.svns = [] ∧ t.measOf 0 = 0)
      | _ => false) = true := by decide +kernel
/-- Management commands: a context with a save area and with one that does not suit; KILL of all; LOSSREL that cancels a launch in part placed and one not placed; TEAMGO; NSDEF with VALID = 1 and of an entry in use; ATSET of a host without W; MIGRATE of a team under MIGR = 1 from Ultik. -/
theorem witness_moreCommands :
    let s := list2 id
    let m := fun (ctx w1 w2 : Nat) => mgmtFields (mcmdOf 0 ctx w1 w2)
    let held : State := { s with ctxs := [(0, { touched := 0, lossHeld := true })], launches := [(0, { st := .ready, placed := 1, recBytes := [] }), (1, { seq := 1, checked := true, st := .submitted })] }
    let go := s.modStrand 0 fun st => { st with halt := .byHalt }
    let hot : State := { s with mode := s.mode ||| 8, ev := { flag := true } }
    isDone (cmdCtxcreate { m 7 0x1000 0x10000 with w3 := 0x20000, w4 := 2 } s) 0 0 0
      (match cmdCtxcreate { m 7 0x1000 0x10000 with w3 := 0x20000, w4 := 2 } s with | .done _ _ _ t => t | .busy t => t)
    ∧ (match cmdCtxcreate { m 7 0x1000 0x10000 with w3 := 0x20000, w4 := 2 } s with
        | .done 0 0 0 t => decide (mget? t.ctxs 7 = some { troot := 0x1000, saveBase := 0x10000, saveLen := 0x20000, touched := 3 } ∧ t.accEntry 0 0 7 = 0)
        | _ => false) = true
    ∧ isDone (cmdCtxcreate { m 7 0x1000 0x18000 with w3 := 0x20000, w4 := 2 } s) 2 0 0 s
    ∧ isDone (cmdCtxcreate { m 7 0x1000 0 with w4 := 2 } { s with startFailed := some 1 }) 4 0 0 { s with startFailed := some 1 }
    ∧ isDone (cmdKill (m 0 0 1) s) 0 0 0 (((s.ctxLaunches 0).foldl (fun s k => s.killLaunch k 8) s).stopProgs 0 0x08)
    ∧ (match cmdLossrel (m 0 1 0) { held with ev := { flag := true } } with
        | .done 0 0 0 t => decide ((mget? t.ctxs 0).any (fun x => !x.lossHeld) = true ∧ (t.launch 1).st = .ended ∧ (t.launch 1).status = 10 ∧ mget? t.completions 1 = some 10)
        | _ => false) = true
    ∧ isDone (cmdLossrel (m 0 1 0) held) 4 0 0 held
    ∧ isDone (cmdTeamgo (m 0 0 0) s) 4 0 0 s ∧ isDone (cmdTeamgo (m 0 9 0) s) 3 0 0 s
    ∧ (match cmdTeamgo (m 0 0 0) go with
        | .done 0 0 0 t => decide (t.strand 0 = s.strand 0)
        | _ => false) = true
    ∧ (match cmdNsdef { m 0 5 0x100000007 with w3 := 0x1000, w4 := 0x000800030002, w5 := 1 } s with
        | .done 0 0 0 t => (mget? t.ns 5).any fun x => decide (x.nsid = 7 ∧ x.big = true ∧ x.cap = 0x1000 ∧ x.sq = 2 ∧ x.cq = 3 ∧ x.depth = 8)
        | _ => false) = true
    ∧ (let b : State := { s with nvme := [{ prog := 0, gen := 0, n := 0, slba := 0, nlb := 0, ns := 5, op := 1 }] }
       b.nsUsed 5 = true → isDone (cmdNsdef { m 0 5 0 with w5 := 1 } b) 4 0 0 b)
    ∧ (let b : State := { s with acc := [] }
       isDone (cmdAtset (m 0 0 3) b) (if b.mStart = b.stepNo then 5 else 0) 0 0 (if b.mStart = b.stepNo then b else { b with acc := mset b.acc (accKey 0 0 0) 3 0 }))
    ∧ isDone (cmdMigrate { m 0 0 0 with w3 := 1 } hot) 4 0 0 hot
    ∧ isDone (cmdMigrate { m 0 0 0 with w3 := 0 } s) 0 0 0 s := by decide +kernel
/-- The Q4X encoding worked out after R33: bytes 0, 2, 4, 5, 16 and 17, the dropped element's INX; a block that is not finite; a malformed block; a decoded outlier; error feedback with its residue; floats to integers that saturate. -/
theorem witness_conversionValues :
    let xs := (List.range 32).map fun i => if i = 0 then 0x42D00000 else if i = 1 then 0x3F000000 else if i = 5 then 0xC0400000 else if i = 9 then 0x40000000 else if i = 10 then 0x3F800000 else 0
    let e := q4Encode xs 0x3F800000
    let one := Fv.fin false 1 0
    let d := q4Decode e.blk one
    e.blk = 0x78 + 0xA0 * 2 ^ 16 + 0x40 * 2 ^ 32 + 0x02 * 2 ^ 40 + 0x7E * 2 ^ 128 + 0x05 * 2 ^ 136
    ∧ e.bad = false ∧ e.conds[0]? = some 0 ∧ e.conds[1]? = some cINX ∧ e.conds[5]? = some 0
    ∧ (d.vals.map fun v => (encodeF f32 0 false false v).1) = xs.set 1 0
    ∧ (q4Encode (xs.set 7 0x7F800000) 0x3F800000).blk = 0xFF * 2 ^ 128
    ∧ (q4Decode 0x88 one).bad = true ∧ (q4Decode 0x80808 one).bad = true ∧ (q4Decode (0xFF * 2 ^ 128 + 0x88) one).bad = false
    ∧ q4Residue 0x3F000000 (.fin false 0 0) = 0x3F000000 ∧ q4Residue 0x7F800000 (.fin false 0 0) = 0
    ∧ errFeedback (fmtOf 3) false 0x44000000 0 = (0x7E, 0x42800000, cOVF ||| cINX) ∧ errFeedback (fmtOf 1) false 0x3F800000 0x3F800000 = (0x4000, 0, 0)
    ∧ floatToInt 0 8 true (.fin false 5 (-1)) = (2, cINX) ∧ floatToInt 3 8 true (.fin false 5 (-1)) = (3, cINX) ∧ floatToInt 2 8 true (.fin true 5 (-1)) = (-3, cINX)
    ∧ floatToInt 0 8 true (.fin false 255 (-1)) = (127, cINV) ∧ floatToInt 1 8 false (.fin true 1 (-1)) = (0, cINX) ∧ floatToInt 0 32 false (.fin true 1 0) = (0, cINV)
    ∧ cvtOne 5 0 0 false false 0xFFFFFFFF = (0xBF800000, 0) ∧ cvtOne 0 9 0 false false 0xC3000000 = (0xFFFFFF80, 0) ∧ cvtOne 5 10 0 false false 0x1FF = (0xFF, 0) := by decide +kernel
/-- Special functions: special inputs and exact cases; TANH far out. -/
theorem witness_specialValues :
    let f := fun (op a : Nat) => sfuF op f32 0 false a
    f 0 0x40400000 = (0x41000000, 0) ∧ f 0 0xBF800000 = (0x3F000000, 0) ∧ f 1 0x41000000 = (0x40400000, 0) ∧ f 1 0 = (0xFF800000, cDZ) ∧ f 1 0xBF800000 = (0x7FC00000, cINV)
    ∧ f 2 0x80000000 = (0xFF800000, cDZ) ∧ f 2 0x40800000 = (0x3E800000, 0) ∧ f 3 0x40800000 = (0x3F000000, 0) ∧ f 4 0x40800000 = (0x40000000, 0) ∧ f 4 0x40000000 = (0x3FB504F3, cINX)
    ∧ f 5 0x7F800000 = (0x7FC00000, cINV) ∧ f 6 0 = (0x3F800000, 0) ∧ f 7 0x41200000 = (0x3F800000, cINX) ∧ f 7 0xFF800000 = (0xBF800000, 0)
    ∧ f 2 0x7F800001 = (0x7FC00000, cINV) := by decide +kernel
/-- Atomic operations of 4 and 8 bytes; two on one line; steps of a reduction and its tree. -/
theorem witness_atomicValues :
    (List.range 10).map (fun op => atomicOp op 4 0xFFFFFFFE 3 5) = [1, 2, 0xFFFFFFFF, 0xFFFFFFFD, 0xFFFFFFFE, 3, 3, 0xFFFFFFFE, 3, 0xFFFFFFFE]
    ∧ atomicOp 9 4 5 3 5 = 3 ∧ atomicOp 0 8 0xFFFFFFFFFFFFFFFE 3 0 = 1 ∧ atomicOp 4 8 0xFFFFFFFE 3 0 = 3 ∧ fadd32 0x3F800000 0x3F800000 = 0x40000000
    ∧ atomicLine fadd32 0 4 5 [{ off := 0, val := 2, cmp := 0 }, { off := 0, val := 3, cmp := 0 }] = (10, [5, 7])
    ∧ redStep 0 0 0x3F800000 0x3F800000 = (0x40000000, 0) ∧ redStep 5 1 0xFFFFFFFF 1 = (0xFFFFFFFF, 0) ∧ redStep 6 1 0xFFFFFFFF 1 = (1, 0) ∧ redStep 13 5 6 3 = (5, 0)
    ∧ treeReduce (redStep 6 0) 2 [1, 2, 3, 4] = (10, 0) ∧ redStep 0 1 0x3F800000 (redId 0 1) = (0x3F800000, 0) := by decide +kernel
/-- 2 bytes of O at an offset. -/
def tokAt (s : State) (off : Nat) : Nat := (s.osRead 0 off 2).1
/-- The example worked out after R329, with .nz and C = 8 and with C = 2; a table; a stream of two tokens put back by it, of which the second breaks the form; two lists merged, and one out of order. -/
theorem witness_rankValues :
    let el := fun (l : List (Nat × Nat)) => (List.range 10).flatMap fun i => leBytes 4 (((l.find? fun p => p.1 == i).map (·.2)).getD 0)
    let s := rk.osWrite 0 0x100 (el [(2, 0x40400000), (5, 0xBF800000), (7, 0x40400000), (9, 0x7FC00000)])
    let enc := fun (aux : BitVec 16) => runRkenc s 0 (rw' aux) { src := 0x100, dst := 0x400, n := 10 }
    let toks := fun (u : State) (n : Nat) => (List.range n).map fun k => tokAt u (0x400 + 2 * k)
    let a := enc 0x107
    let b := enc 1
    let c := enc 7
    toks a.s 4 = [0x0002, 0x2007, 0x1005, 0xFFFF] ∧ a.count = 3 ∧ a.nan = 1
    ∧ toks b.s 3 = [0x0002, 0x2007, 0xFFFF] ∧ b.count = 2
    ∧ toks c.s 9 = [0x0002, 0x2007, 0x1005, 0x0000, 0x2001, 0x2003, 0x2004, 0x2006, 0xFFFF] ∧ c.count = 8
    ∧ (let t := (runRktab (s.osWrite 0 0x800 ((List.range 256).flatMap fun _ => [0, 0x3C])) 0 (rw' 2) { src := 0x800 }).s
       t.rkTable 0 2 0 = some (List.replicate 256 0x3C00) ∧ t.rkTable 0 2 1 = none
       ∧ (let u := t.osWrite 0 0x400 [2, 0, 7, 0x30, 0xFF, 0xFF]
          let r : RankOp := { src := 0x400, dst := 0x600, n := 8, scale := 0x40000000, table := List.replicate 256 0x3C00 }
          let o := runRkrec u 0 (rw' 0) r
          let x := runRkrec (u.osWrite 0 0x402 [7, 0x70]) 0 (rw' 0) r
          (o.s.osRead 0 0x608 4).1 = 0x40000000 ∧ (o.s.osRead 0 0x61C 4).1 = 0xC0000000 ∧ (o.s.osRead 0 0x600 4).1 = 0 ∧ o.count = 2 ∧ o.conds = 0
          ∧ x.count = 1 ∧ x.conds = cRKF ∧ (x.s.osRead 0 0x61C 4).1 = 0))
    ∧ (let pair := fun (p : Nat × Nat) => leBytes 4 p.1 ++ leBytes 4 p.2
       let fin := (0, 0xFFFFFFFF)
       let m := (rk.osWrite 0 0x100 ([(0x40800000, 1), (0x3F800000, 3), fin].flatMap pair)).osWrite 0 0x200 ([(0x40000000, 2), (0x40800000, 5), fin].flatMap pair)
       let o := runRkmrg m 0 (rw' 0x107) { src := 0x100, n := 0x200, dst := 0x400 }
       o.count = 2 ∧ o.conds = cRKF ∧ toks o.s 3 = [0x0001, 0x0002, 0xFFFF]) := by decide +kernel
/-- The package with host memory behind H, and with a replicated page of HBM. -/
def hostPage (s : State) : State :=
  { s.modStrand 0 fun st => { st with segs := { st.segs with h := { base := 0, len := 0x1000 } } } with
    tlb := mput s.tlb (tlbKey 8 0 0) { ppage := 0x40000000, r := true, w := true, policy := polNC }
    acc := mput s.acc (accKey 1 0 0) 3 }
def replPage (s : State) : State := { s with tlb := mput s.tlb (tlbKey 0 0 0) { ppage := 0, r := true, w := true, x := true, policy := polREPL } }
/-- A scalar store of the byte 0x34 and the next one to host memory, and one to a replicated page: what the former leaves in host memory and in HBM, and the update of the latter; with the link down the store is denied before it is translated. -/
theorem witness_storeKinds :
    let b := regs [(2, 0x20), (1, 0xABCD1234)]
    let h := hostPage b
    let d : State := { h with linkUp := false, tlb := [] }
    let r := replPage b
    (h.isRes h.cur = true ∧ h.mayAccess ∧ h.memOk ∧ mwf h.dc = true ∧ h.source2 1 2 = some (0xABCD1234, 0x20, h) ∧ r.source2 1 2 = some (0xABCD1234, 0x20, r))
    ∧ (okAnd (scalarPlace 3 0x22 2 1 h) fun p s2 => decide (p = .mem 0x400000000022 3 true) &&
        (match exec (.st 1 2 3 1 1) h with
        | .next u => decide (u.hostByte 0x22 = 0x34 ∧ u.hostByte 0x23 = 0x12 ∧ u.hostByte 0x24 = s2.hostByte 0x24 ∧ u.hbm = s2.hbm ∧ u.dc = s2.dc ∧ u.hostMem = h.hostMem ∧ u.me.a = h.me.a)
        | _ => false)) = true
    ∧ (okAnd (scalarPlace 0 0x22 2 1 r) fun p s2 => decide (p = .mem 0x22 polREPL false ∧ s2.updates.length < 256) &&
        (match exec (.st 1 2 0 1 1) r with
        | .next u => decide (memByte u.hbm 0x22 = 0x34 ∧ memByte u.hbm 0x23 = 0x12 ∧ memByte u.hbm 0x24 = memByte s2.hbm 0x24 ∧ u.updates.length = 1 ∧ u.os = s2.os)
        | _ => false)) = true
    ∧ nextIs (exec (.st 1 2 3 1 1) d) ((d.logDenied 0 []).trapScalar { code := 0x07, faddr := faddrS h.me.segs.h 3 0x22 }) := by unfold State.mayAccess State.memOk; decide +kernel
/-- Lane stores to HBM, to the operand store, to host memory and to a replicated page: the bytes of the two lanes, the byte beside them, and the other strand. -/
theorem witness_laneStores :
    let run := fun (f : Nat → Place) => (lm.modStrand 0 fun st => { st with
      flags := [(0, 1)], longs := [{ kind := .mem, op := .laneSt, w := { noW with ty := 6, va := 1 }, tag := 5, flag := 0, active := 3, due := 0
                                     acc := some { kind := .store false, n := 4, todo := [0, 1].map fun L => { lane := L, place := f L, fa := 0 }, data := [(0, 7, 0), (1, 9, 0)] } }] })
    let m := run fun L => .mem (0x40 + 4 * L) 3 false
    let o := run fun L => .os 0 (0x40 + 4 * L)
    let h := run fun L => .mem (0x400000000040 + 4 * L) 3 true
    let r := run fun L => .mem (0x40 + 4 * L) polREPL false
    (m.strand m.ev.who).longs[m.ev.idx]?.isSome = true ∧ m.poisonLines = [] ∧ m.poisonPages = [] ∧ m.dc = []
    ∧ m.memOk ∧ o.memOk ∧ o.osExpired 0 (o.osLine 0 0) = false ∧ mwf m.dc = true
    ∧ (match exec .laneMemoryComplete m, exec .laneMemoryComplete o, exec .laneMemoryComplete h, exec .laneMemoryComplete r with
        | .next a, .next b, .next c, .next d => decide (memNat a.hbm 0x40 8 = 0x900000007 ∧ memByte a.hbm 0x48 = memByte m.hbm 0x48 ∧ a.strand 1 = m.strand 1
            ∧ (b.osRead 0 0x40 4).1 = 7 ∧ (b.osRead 0 0x44 4).1 = 9 ∧ (b.osRead 0 0x48 4).1 = 0 ∧ b.hbm = m.hbm
            ∧ c.hostNat 0x40 8 = 0x900000007 ∧ c.hostByte 0x48 = h.hostByte 0x48 ∧ c.hbm = m.hbm ∧ memNat d.hbm 0x40 8 = 0x900000007 ∧ d.os = r.os)
        | _, _, _, _ => false) = true := by unfold State.memOk; decide +kernel
/-- A lane fetch that the tables deny, one whose page has no translation, one that succeeds. -/
theorem witness_laneFetch :
    let l := fun (f : Strand → Strand) => ({ (lanes1 id).modStrand 0 f with ev := { flag := true } } : State)
    let g := l id
    let d : State := { g with acc := [] }
    let p := l fun st => { st with segs := { st.segs with kl := { base := 0x10000, len := 0x1000 } } }
    let word := fun (s : State) (i : Nat) => s.fetchWord 0 0 ((s.me.segs.kl.base.toNat + 4 * i) % 2 ^ 64) 1
    (g.isRes g.cur = true ∧ d.isRes d.cur = true ∧ 12 ≤ g.me.segs.kl.len.toNat)
    ∧ nextIs (exec .instructionFetchFault g) g
    ∧ (match word d 0 with
        | .trap c x => nextIs (exec .instructionFetchFault d) ((d.logDenied 0 x).takeTrap 0 { code := c, lfault := true, unitNo := some 0 }) && c == 0x07
        | _ => false) = true
    ∧ (match word p 0 with
        | .park k => nextIs (exec .instructionFetchFault p) (p.parkLane 0 { k with sideB := p.curB, unitNo := 0 })
        | _ => false) = true := by decide +kernel
/-- A fetch of a line whose copy another context owns: its dirty bytes are written back, and the copy then is the fetching context's. -/
theorem witness_fetchForeign :
    let s : State := { (one : State) with tlb := [(tlbKey 0 0 0, { ppage := 0, r := true, w := true, x := true, policy := polWB })], dc := [(dcKey 0 0, { ctx := 5, data := 0x78563412, dirty := 0xF })] }
    (match s.fetchWord 0 0 0 0 with
      | .got w u => decide (w = 0x78563412 ∧ memNat u.hbm 0 4 = 0x78563412 ∧ (u.dcLine 0 0).any (fun c => c.ctx == 0 && c.dirty == 0) = true)
      | _ => false) = true := by decide +kernel
/-- A lost rank aborts the collective, unless every result is written; an abort message that the port denies enters the log. -/
theorem witness_collLost :
    let s : State := { evOf { who := 0, addr := 5, idx := 0 } with colls := [{ coll2 with lost := true }] }
    let e : State := { s with colls := [{ coll2 with lost := true, pos := elemsOf coll2.hs }] }
    s.collGroup 0 5 0 = s.colls ∧ groupMismatch e.colls = false ∧ remotePorts coll2.desc = [4] ∧ s.portMay 4 0 true = false ∧ s.collDead = []
    ∧ nextIs (exec .collAbort s) (s.collAbort 0 5 0 .other) ∧ nextIs (exec .collAbort e) e ∧ (s.collAbort 0 5 0 .other).denialCount = s.denialCount + 1 := by decide +kernel
/-- The host's fifth request for a report is refused: the mailbox shows BUSY until a request is taken; a peer's is answered. -/
theorem witness_attestationBusy :
    let q := fun (w : Nat) => List.replicate 4 ({ who := w, nonce := 0, tag := 0, snap := [] } : AttReq)
    let h : State := { one with attQ := q 0 }
    let p : State := { one with attQ := q 3, ports := [(2, { up := true })] }
    (h.attQ.filter fun x => x.who == 0).length = 4 ∧ h.attRequest 0 1 7 = { h with attBusy := true } ∧ (h.attRequest 0 1 7).mgmtWord 0xFF8 = 1
    ∧ (({ one with attBusy := true } : State).attRequest 0 1 7).attBusy = false ∧ p.attRequest 3 1 7 = p.sendMsg 2 (tagMsg 4 2 7 []) := by decide +kernel
/-- A region that reaches action 2 while the mode keeps MIGR = 0; the sensors of the other dies, whose tiers do not exist; a stopped core. -/
theorem witness_heat :
    let h := evOf { core := 7, idx := 2, val := 220 }
    let t := evOf { core := 64, idx := 0 }
    let z : State := { evOf { core := 0, idx := 1 } with regions := [(1, { shutdown := true, action := 4 })] }
    (h.region 7 2).action < 2 ∧ 2 ≤ nextAction 0 220 false 5 ∧ h.mode.getLsbD 3 = false
    ∧ (match exec .thermalThreshold h with
        | .next u => decide (u.heat.contains 7 = true ∧ u.svc = h.svc ∧ u.clockStep 7 = if 3 ≤ (u.region 7 2).action then 12 else h.clockStep 7)
        | _ => false) = true
    ∧ nextIs (exec .tierShutdown t) t ∧ nextIs (exec .regionPowerOff t) t ∧ z.mayIssue 0 = false ∧ one.mayIssue 0 = true := by decide +kernel
/-- An error in the line of slot state that holds a scalar register: the half word reads 0 and its strand holds CODE 0x0D. -/
theorem witness_slotError :
    let s : State := { (regs [(5, 0x1234567800000009), (6, 1)]) with ev := { who := 0, idx := 2048 + 5, val := 1, flag := true } }
    s.isRes 0 = true ∧ (s.strand 0).budget ≤ 2053
    ∧ (match exec .operandUncorrectable s with
        | .next t => decide ((t.strand 0).reg 5 = 9 ∧ (t.strand 0).reg 6 = 1 ∧ (t.strand 0).held = [{ code := 0x0D }])
        | _ => false) = true := by decide +kernel
/-- A pop whose access is parked stays as it is; one whose page has no translation parks. -/
theorem witness_popParks :
    let r := lanes1 fun st => { st with segs := { st.segs with p := { base := 0x10000, len := 64 } }, lane := { st.lane with depth := 1, spill := some (.pop false false 50), a := { st.lane.a with mask := 1 }, b := { mask := 2, live := true } } }
    let k := r.modStrand 0 fun st => { st with parkL := some { ctx := 0, page := 1, va := 0x10000 } }
    nextIs (exec .stackPopDone k) k
    ∧ (match popRecord false { r with cur := 0 } with
        | .error (.park p) => nextIs (exec .stackPopDone r) (r.parkLane 0 { p with sideB := false, unitNo := 50, word := joinWord false, fA := r.me.lane.a.flagA, fB := r.me.lane.a.flagB })
        | _ => false) = true := by decide +kernel
/-- NOTIFY.credit to an offset that is no multiple of 32, where no barrier stands: CODE 0x09. -/
theorem witness_creditOffset :
    let o : State := { oseg [] with progs := (prog1 [(0, 2)]).progs, launches := [(0, { recBytes := List.replicate 0x9D 0 ++ [0x10, 0, 0] })] }
    let x : StreamW := { w0 := 0, w1 := 0x24, w2 := 0, w3 := 0 }
    nextIs (exec (.notifyCredit x) o) ((({ s := o.progHas 0 { op := .notifyCredit, w := x } } : Run).into 0).endProg 0 0x09 0) = true := by decide +kernel
/-- A record that names as its predecessor a record of a queue that does not exist, itself, and the record before it. -/
theorem witness_unknownPredecessor :
    let s := lq id
    let bs := fun (q n : Nat) => rec1.take 4 ++ [1] ++ (rec1.drop 5).take 155 ++ leBytes 8 (q * 2 ^ 48 + n) ++ rec1.drop 168
    let bad := fun (q n : Nat) => ((s.submit 5 (bs q n)).launch 2).predBad
    (bs 5 0).length = rec1.length ∧ recPreds (bs 5 1) = [(5, 1)] ∧ bad 6 0 = true ∧ bad 5 1 = true ∧ bad 5 0 = false
    ∧ ((s.submit 5 rec1).launch 2).seq = 1 ∧ ((s.submit 5 rec1).queue 5).readCount = 2 := by decide +kernel
/-- A stage whose barrier word is poisoned is noted once, with its offset. -/
theorem witness_stagePoison :
    let c : MxCmd := { cmd1 with regs := [0, 0, 0, 0, 0x20, 1] }
    let s : State := { mx1 c with osLines := [(0, { barr := 2, poison := 1024 })], ev := { flag := true } }
    c.stage = some (0x20, 0) ∧ s.mxBarPois 0 c = some 0x28 ∧ firstOnTile (s.mxCmds 0) 0 c = true
    ∧ (let s := { s with osLines := [(0, { barr := 2, poison := 1024 })] }
       s.mxWaits 0 c = true ∧ ((s.mxWaitNote 0 0 c).mxCmds 0).map (fun d => (d.raised.getLsbD 11, d.pois)) = [(true, some 0x28)]) := by decide +kernel

end Sys2Proof.Tests
end

section
/-! Fabric ports (R387 to R393): training, parking, link-down, and what a port does with the flits it receives. -/

namespace Sys2Proof.Machine

/-! ### Loops and signals -/

/-- A loop whose every round keeps what g reads keeps it. -/
theorem foldl_keeps {σ α β : Type} (g : σ → β) {f : σ → α → σ} (h : ∀ s a, g (f s a) = g s) (l : List α) (s : σ) :
    g (l.foldl f s) = g s := by
  induction l generalizing s with
  | nil => rfl
  | cons a l ih => exact (ih (f s a)).trans (h s a)

/-- The package apart from what a signal or an entry of the service queue changes (R374, R375). -/
def State.besideService (s : State) : State :=
  { s with hostMem := [], hostLines := [], hostOwed := [], svc := [], svcNext := 0, msixSent := [], msixPending := [] }

theorem signal_besideService (s : State) (v : Nat) : (s.signal v).besideService = s.besideService := by
  unfold State.signal
  split
  · rfl
  · split <;> rfl

@[simp] theorem State.signal_ports (s : State) (v : Nat) : (s.signal v).ports = s.ports :=
  (congrArg State.ports (signal_besideService s v) :)
@[simp] theorem State.signal_colLive (s : State) (v : Nat) : (s.signal v).colLive = s.colLive :=
  (congrArg State.colLive (signal_besideService s v) :)
@[simp] theorem State.signal_strands (s : State) (v : Nat) : (s.signal v).strands = s.strands :=
  (congrArg State.strands (signal_besideService s v) :)

/-! ### Reading and writing ports -/

@[simp] theorem State.port_setPort (s : State) (p q : Nat) (x : Port) : (s.setPort p x).port q = if q = p then x else s.port q :=
  mget_mput s.ports p q x {}

/-- A port goes link-down where it is listed (R393). -/
def State.downPort (s : State) (p : Nat) : State :=
  match mget? s.ports p with
  | some x => s.setPort p x.down
  | none => s

theorem mget?_downPort (s : State) (p q : Nat) :
    mget? (s.downPort p).ports q = if q = p then (mget? s.ports q).map Port.down else mget? s.ports q := by
  unfold State.downPort
  split
  · next x hx =>
    simp only [State.setPort, mget?_mput]
    split
    · next h => rw [h, hx]; rfl
    · rfl
  · next hx =>
    split
    · next h => rw [h, hx]; rfl
    · rfl

/-- After a loop that takes ports of Col die c down, each listed one of them is down and every other as before. -/
theorem mget?_downPorts (c : Nat) (l : List Nat) (s : State) (q : Nat) :
    mget? (l.foldl (fun (s : State) i => s.downPort (8 * c + i)) s).ports q
      = if ∃ i ∈ l, q = 8 * c + i then (mget? s.ports q).map Port.down else mget? s.ports q := by
  induction l generalizing s with
  | nil => simp
  | cons i l ih =>
    rw [List.foldl_cons, ih, mget?_downPort]
    have twice : Port.down ∘ Port.down = Port.down := rfl
    by_cases hq : q = 8 * c + i
    · simp [hq, twice]
    · simp [hq]

/-- The package apart from its ports. -/
def State.besidePorts (s : State) : State := { s with ports := [] }

theorem State.besidePorts_eq {s t : State} (h : t.besidePorts = s.besidePorts) : t.colLive = s.colLive ∧ t.strands = s.strands :=
  ⟨(congrArg State.colLive h :), (congrArg State.strands h :)⟩

theorem downPort_besidePorts (s : State) (p : Nat) : (s.downPort p).besidePorts = s.besidePorts := by
  unfold State.downPort
  split <;> rfl

/-- Col die c is not live any more, and its eight ports are link-down (R18, R393). -/
def State.loseCol (s : State) (c : Nat) : State :=
  (List.range 8).foldl (fun (s : State) i => s.downPort (8 * c + i)) { s with colLive := s.colLive &&& ~~~(1#4 <<< c) }

theorem colDieLoss_run {s : State} (h : s.ev.who < 4) : exec .colDieLoss s = .next ((s.loseCol s.ev.who).signal 0) := by
  change execColDieLoss s = _
  unfold execColDieLoss
  rw [if_neg (by omega)]
  rfl

theorem loseCol_besidePorts (s : State) (c : Nat) :
    (s.loseCol c).besidePorts = ({ s with colLive := s.colLive &&& ~~~(1#4 <<< c) } : State).besidePorts :=
  foldl_keeps State.besidePorts (fun s i => downPort_besidePorts s (8 * c + i)) _ _

theorem mget?_loseCol (s : State) (c q : Nat) :
    mget? (s.loseCol c).ports q = if q / 8 = c then (mget? s.ports q).map Port.down else mget? s.ports q := by
  have mine : (∃ i ∈ List.range 8, q = 8 * c + i) ↔ q / 8 = c := by
    simp only [List.mem_range]
    exact ⟨fun ⟨i, hi, e⟩ => by omega, fun e => ⟨q % 8, by omega, by omega⟩⟩
  rw [State.loseCol, mget?_downPorts]
  simp only [mine]

theorem colDieLoss_effect {s : State} (h : s.ev.who < 4) :
    ∃ t, exec .colDieLoss s = .next t ∧ t.colLive = s.colLive &&& ~~~(1#4 <<< s.ev.who)
      ∧ (∀ q, q / 8 = s.ev.who → mget? s.ports q ≠ none → t.port q = (s.port q).down)
      ∧ (∀ q, q / 8 ≠ s.ev.who → t.port q = s.port q) ∧ t.strands = s.strands := by
  obtain ⟨hc, hs⟩ := State.besidePorts_eq (loseCol_besidePorts s s.ev.who)
  refine ⟨_, colDieLoss_run h, ?_, fun q hq hl => ?_, fun q hq => ?_, ?_⟩
  · rw [State.signal_colLive, hc]
  · obtain ⟨x, hx⟩ := Option.ne_none_iff_exists'.mp hl
    simp [State.port, mget, mget?_loseCol, hq, hx]
  · simp [State.port, mget, mget?_loseCol, hq]
  · rw [State.signal_strands, hs]

/-! ### What sending leaves of a port -/

/-- A port apart from what flits change that it sends: permits, widths, wavelengths, SEQ, the replay buffer, the link. -/
def Port.besideSending (x : Port) : Port :=
  { x with
    parkPend := false, liveWl := 0, width := 0, nextWidth := none, txSeq := 0, replay := [], flits := 0
    reserve := [], shared := 0, ret := [], sent := [] }

theorem takePermit_besideSending (x : Port) (c : Nat) : (x.takePermit c).besideSending = x.besideSending := by
  unfold Port.takePermit
  split <;> rfl

theorem takeRet_besideSending (x : Port) : x.takeRet.2.besideSending = x.besideSending := by
  unfold Port.takeRet
  split <;> rfl

theorem sendFlit_besideSending (x : Port) (c fl : Nat) (d : List Byte) : (x.sendFlit c fl d).besideSending = x.besideSending := by
  refine Eq.trans ?_ ((takeRet_besideSending _).trans (takePermit_besideSending x c))
  unfold Port.sendFlit
  simp only
  split
  · split <;> rfl
  · rfl

/-- A loop that sends n flits in each of its rounds. -/
theorem sendOn_foldl_length (n : Nat) {f : Nat → List (BitVec 2048)} (h : ∀ w, (f w).length = n) (ws : List Nat) (x : Port) :
    (ws.foldl (fun (y : Port) w => y.sendOn w (f w)) x).sent.length = x.sent.length + n * ws.length := by
  induction ws generalizing x with
  | nil => simp
  | cons w ws ih =>
    rw [List.foldl_cons, ih]
    simp only [Port.sendOn, List.length_append, List.length_map, h, List.length_cons, Nat.mul_succ]
    omega

/-- A port that starts training, before its first TRAIN flit. -/
def Port.begun (x : Port) (now : Nat) : Port := { x.down with training := true, trainAt := now, lastRx := now }

/-- TRAIN flits go out, sixteen on every wavelength (R389). -/
def Port.trains (x : Port) : Port :=
  (List.range 8).foldl (fun (y : Port) w => y.sendOn w (List.replicate 16 (controlFlit 3 0 w 0 []))) x

theorem trains_besideSending (x : Port) : x.trains.besideSending = x.besideSending :=
  foldl_keeps Port.besideSending (by intros; rfl) _ _

theorem trains_replay (x : Port) : x.trains.replay = x.replay := foldl_keeps Port.replay (by intros; rfl) _ _

theorem trains_sent (x : Port) : x.trains.sent.length = x.sent.length + 128 :=
  sendOn_foldl_length 16 (fun _ => List.length_replicate) _ _

theorem portComesUp_effect {s : State} {p : Nat} (e : s.ev.who = p) (hp : p < 32) (hu : (s.port p).up = false) (ht : (s.port p).training = false)
    (hc : s.colLive.getLsbD (p / 8) = true) :
    ∃ t, exec .portComesUp s = .next t ∧ (t.port p).training = true ∧ (t.port p).up = false
      ∧ (t.port p).sent.length = (s.port p).sent.length + 128 ∧ (t.port p).trainAt = s.portNow p ∧ (t.port p).outq = (s.port p).outq
      ∧ (t.port p).replay = (s.port p).replay ∧ ∀ q, q ≠ p → t.port q = s.port q := by
  have run : exec .portComesUp s = .next (s.setPort p ((s.port p).begun (s.portNow p)).trains) := by
    subst e
    change execPortComesUp s = _
    unfold execPortComesUp
    rw [if_neg (by simp [hp, hu, ht, hc])]
    rfl
  have frame := trains_besideSending ((s.port p).begun (s.portNow p))
  have sent := trains_sent ((s.port p).begun (s.portNow p))
  have replay := trains_replay ((s.port p).begun (s.portNow p))
  refine ⟨_, run, ?_⟩
  simp only [State.port_setPort, if_true]
  generalize ((s.port p).begun (s.portNow p)).trains = y at *
  exact ⟨(congrArg Port.training frame :), (congrArg Port.up frame :), sent, (congrArg Port.trainAt frame :),
    (congrArg Port.outq frame :), replay, fun q hq => if_neg hq⟩

/-! ### Training ends -/

/-- A port as it comes up (R389), before the flits go out again that were not acknowledged: the width n, the wavelengths live, the permits perms. -/
def Port.risen (x : Port) (now n : Nat) (live : Byte) (perms : List Nat) : Port :=
  { x with
    up := true, trained := true, training := false, liveWl := live, width := n, rxWidth := n
    lastRx := now, idleAt := now, flits := 0
    txSeq := 0, rxSeq := 0, replay := [], nakCount := 0, nakSent := 0, unacked := 0
    reserve := perms, reserveMax := perms, shared := sharedPool, ret := [0, 0, 0, 0, 0]
    trainCount := [], readySent := false, readyWl := 0, peerReady := none }

section
variable {x : Port} {now w : Nat} {wls : Byte} {perms : List Nat} (h : x.peerReady = some (w, wls, perms))
include h

theorem tryUp_waits (hb : x.readySent = false ∨ x.readyWl &&& wls = 0) : x.tryUp now = x := by
  unfold Port.tryUp
  simp only [h]
  rw [if_pos (by simpa using hb)]

theorem tryUp_run (hr : x.readySent = true) (hb : x.readyWl &&& wls ≠ 0) :
    let n := min (min (roundWidth (popCount 8 x.readyWl.toNat)) w) (roundWidth (popCount 8 (x.readyWl &&& wls).toNat))
    x.tryUp now = x.replay.foldl (fun (y : Port) f => y.sendFlit (flitCls f) (flitFl f) (flitData f))
      (x.risen now n (lowestWl (x.readyWl &&& wls) n) perms) := by
  unfold Port.tryUp
  simp only [h]
  rw [if_neg (by simpa [hr] using hb)]
  rfl

theorem tryUp_effect (hr : x.readySent = true) (hb : x.readyWl &&& wls ≠ 0) :
    let n := min (min (roundWidth (popCount 8 x.readyWl.toNat)) w) (roundWidth (popCount 8 (x.readyWl &&& wls).toNat))
    (x.tryUp now).up = true ∧ (x.tryUp now).training = false ∧ (x.tryUp now).rxSeq = 0 ∧ (x.tryUp now).rxWidth = n ∧ (x.tryUp now).lastRx = now
      ∧ (x.replay = [] → x.nextWidth = none → (x.tryUp now).width = n ∧ (x.tryUp now).liveWl = lowestWl (x.readyWl &&& wls) n
        ∧ (x.tryUp now).txSeq = 0 ∧ (x.tryUp now).reserve = perms) := by
  intro n
  have run := tryUp_run (now := now) h hr hb
  have frame : (x.tryUp now).besideSending = (x.risen now n (lowestWl (x.readyWl &&& wls) n) perms).besideSending := by
    rw [run]
    exact foldl_keeps Port.besideSending (fun y f => sendFlit_besideSending y _ _ _) _ _
  refine ⟨(congrArg Port.up frame :), (congrArg Port.training frame :), (congrArg Port.rxSeq frame :), (congrArg Port.rxWidth frame :),
    (congrArg Port.lastRx frame :), fun h0 _ => ?_⟩
  rw [run, h0]
  exact ⟨rfl, rfl, rfl, rfl⟩

end

theorem trainPeriodEnd_early {s : State} (h : s.portNow s.ev.who < (s.port s.ev.who).trainAt + 1000) : exec .trainPeriodEnd s = .next s := by
  change execTrainPeriodEnd s = _
  unfold execTrainPeriodEnd
  rw [if_pos (by simp [h])]

theorem trainPeriodEnd_run {s : State} {p w : Nat} {x : Port} (e : s.ev.who = p) (ex : s.port p = x) (ht : x.training = true) (hl : x.liveWl ≠ 0)
    (hr : x.readySent = false) (hn : x.trainAt + 1000 ≤ s.portNow p) (hw : beatWl x.liveWl 0 = some w) :
    exec .trainPeriodEnd s = .next ((s.setPort p
      (({ x.sendOn w [controlFlit 4 (roundWidth (popCount 8 x.liveWl.toNat)) x.liveWl.toNat 0 ownReserve] with
          readySent := true, readyWl := x.liveWl } : Port).tryUp (s.portNow p))).flowPort p) := by
  subst e ex
  change execTrainPeriodEnd s = _
  unfold execTrainPeriodEnd
  rw [if_neg (by simpa [ht, hr, hn] using hl), hw]
  rfl

/-- The beats of a flit take the live wavelengths in turn (R387). -/
theorem beatsOn_rotates {live : Byte} {ws : List Nat} {i : Nat} (hw : ws = (List.range 8).filter fun w => live.getLsbD w) (h0 : ws ≠ []) (hi : i < 32) :
    (beatsOn live)[i]? = ws[i % ws.length]? := by
  have beat : beatWl live = fun j => some (ws[j % ws.length]'(Nat.mod_lt _ (List.length_pos_iff.mpr h0))) := by
    funext j
    simp only [beatWl, ← hw, if_neg h0]
    exact List.getElem?_eq_getElem _
  rw [beatsOn, beat, List.filterMap_eq_map']
  simp [hi, List.getElem?_eq_getElem (Nat.mod_lt i (List.length_pos_iff.mpr h0))]

/-! ### Link-down, parking and waking -/

theorem portLinkDown_run {s : State} (h : (s.port s.ev.who).up = true) : exec .portLinkDown s = .next (s.setPort s.ev.who (s.port s.ev.who).down) := by
  change execPortLinkDown s = _
  simp [execPortLinkDown, h]

theorem peerSilenceTimeout_run {s : State} (h : (s.port s.ev.who).up = true) :
    exec .peerSilenceTimeout s
      = .next (if (s.port s.ev.who).lastRx + 1000 ≤ s.portNow s.ev.who then s.setPort s.ev.who (s.port s.ev.who).down else s) := by
  change execPeerSilenceTimeout s = _
  simp [execPeerSilenceTimeout, h]

theorem wantsWake_eq_false {x : Port} {now : Nat} : x.wantsWake now = false ↔ ∀ m ∈ x.outq, now ≤ m.since + 50 := by
  simp [Port.wantsWake]

theorem wantsWake_eq_true {x : Port} {now : Nat} : x.wantsWake now = true ↔ ∃ m ∈ x.outq, m.since + 50 < now := by
  simp [Port.wantsWake]

theorem parkRequest_early {s : State} (h : s.portNow s.ev.who < (s.port s.ev.who).idleAt + 100 * (s.port s.ev.who).idle) :
    exec .parkRequest s = .next s := by
  change execParkRequest s = _
  unfold execParkRequest
  rw [if_pos (by simp [h])]

/-- What a port announces that parks (R391): half its width, from its next SEQ on. -/
def Port.parks (x : Port) (now : Nat) : Port :=
  { ({ x with idleAt := now, flits := 0 } : Port).control (controlFlit 0 (x.width / 2) 0 x.txSeq []) with
    parkPend := true, nextWidth := some (x.width / 2, x.txSeq) }

theorem parkRequest_run {s : State} {p : Nat} {x : Port} (e : s.ev.who = p) (ex : s.port p = x) (hu : x.up = true)
    (hi : x.idleAt + 100 * x.idle ≤ s.portNow p) (hw : x.waking = false) (hp : x.parkPend = false) (hn : x.nextWidth = none) (hm : x.minwl < x.width)
    (hf : x.flits * 2048 ≤ x.idle * 200000 * (x.width / 2)) (hq : ∀ m ∈ x.outq, s.portNow p ≤ m.since + 50) :
    exec .parkRequest s = .next (s.setPort p (x.parks (s.portNow p))) := by
  subst e ex
  change execParkRequest s = _
  unfold execParkRequest
  rw [if_neg (by simp [hu, hi])]
  dsimp only
  rw [if_neg (by simp [hw, hp, hn, hm, Port.fitsHalf, hf, wantsWake_eq_false.mpr hq])]
  rfl

theorem wakeRequest_run {s : State} {p : Nat} {x : Port} (e : s.ev.who = p) (ex : s.port p = x) (hu : x.up = true) (hw : x.waking = false)
    (hp : x.parkPend = false) (hn : x.nextWidth = none) (h8 : x.width < 8) (hq : ∃ m ∈ x.outq, m.since + 50 < s.portNow p) :
    exec .wakeRequest s = .next (s.setPort p { x with waking := true }) := by
  subst e ex
  change execWakeRequest s = _
  dsimp only [execWakeRequest]
  rw [if_pos (by simp [hu, hw, hp, hn, h8, wantsWake_eq_true.mpr hq])]

theorem wakeRequest_none {s : State} (hq : ∀ m ∈ (s.port s.ev.who).outq, s.portNow s.ev.who ≤ m.since + 50) : exec .wakeRequest s = .next s := by
  change execWakeRequest s = _
  dsimp only [execWakeRequest]
  rw [if_neg (by simp [wantsWake_eq_false.mpr hq])]

theorem wakeDone_run {s : State} {p : Nat} {x : Port} (e : s.ev.who = p) (ex : s.port p = x) (hu : x.up = true) (hw : x.waking = true) :
    exec .wakeDone s = .next (s.setPort p { x.control (controlFlit 0 8 0 x.txSeq []) with waking := false, nextWidth := some (8, x.txSeq) }) := by
  subst e ex
  change execWakeDone s = _
  dsimp only [execWakeDone]
  rw [if_pos (by simp [hu, hw])]

/-! ### Flits arrive -/

section
variable {s : State} {p : Nat} {x : Port} (e : s.ev.who = p) (ex : s.port p = x) (hu : x.up = true)
include e ex hu

/-- What a port that is up does with the 256 bytes that arrive (R387, R389). -/
theorem flitReceive_run :
    exec .flitReceive s =
      let f := BitVec.ofNat 2048 (leValue s.ev.bytes)
      if flitCrcOk f = false then .next (s.setPort p x.sendNak)
      else if flitCls f = 7 then .next ((s.heard p (x.gotControl (s.portNow p) (flitRet f) (flitData f))).flowPort p)
      else if flitSeq f ≠ x.rxSeq then .next (s.setPort p x.sendNak)
      else .next (s.gotFlit p f) := by
  subst e ex
  change execFlitReceive s = _
  simp [execFlitReceive, hu]

theorem nak_run : exec .nak s = .next ((s.heard p (x.naked (BitVec.ofNat 32 s.ev.val))).flowPort p) := by
  subst e ex
  change execNak s = _
  simp [execNak, hu]

theorem ack_run : exec .ack s = .next ((s.heard p (x.acked (BitVec.ofNat 32 s.ev.val))).flowPort p) := by
  subst e ex
  change execAck s = _
  simp [execAck, hu]

theorem ackSend_run (h : x.unacked ≠ 0) : exec .ackSend s = .next (s.setPort p x.sendAck) := by
  subst e ex
  change execAckSend s = _
  simp [execAckSend, hu, h]

theorem stripe_run (h : s.ev.size = 1 ∨ s.ev.size = 2 ∨ s.ev.size = 4 ∨ s.ev.size = 8) :
    exec .stripe s = .next (s.heard p { x with rxNext := some (s.ev.size, BitVec.ofNat 32 s.ev.val) }) := by
  subst e ex
  change execStripe s = _
  dsimp only [execStripe]
  rw [if_pos hu, Port.gotStripe, if_pos (by simpa [hu, or_assoc] using h)]

theorem permit_run : exec .permit s = .next ((s.heard p (x.gotPermits (permsOf s.ev.bytes))).flowPort p) := by
  subst e ex
  change execPermit s = _
  simp [execPermit, hu]

theorem managementMessage_run : exec .managementMessage s = .next (s.mgmtArrive p s.ev.bytes) := by
  subst e ex
  change execManagementMessage s = _
  simp [execManagementMessage, hu]

theorem denialMessage_run : exec .denialMessage s = .next (s.denialArrive p s.ev.bytes) := by
  subst e ex
  change execDenialMessage s = _
  simp [execDenialMessage, hu]

theorem class0Message_run :
    exec .class0Message s = .next ((s.setPort p (x.owe 0 ((s.ev.bytes.length + 239) / 240))).class0Arrive p s.ev.bytes) := by
  subst e ex
  change execClass0Message s = _
  simp [execClass0Message, hu, flitsOf]

end

section
variable {s : State} {p : Nat} {x : Port} (e : s.ev.who = p) (ex : s.port p = x) (ht : x.training = true)
include e ex ht

/-- A TRAIN flit counts for its wavelength, and the sixteenth in a row makes it live (R389). -/
theorem train_run {n : Nat} (hi : s.ev.idx < 8) (hn : mget x.trainCount s.ev.idx 0 + 1 = n) :
    exec .train s = .next (s.heard p (if 16 ≤ n
      then { x with trainCount := mput x.trainCount s.ev.idx n, liveWl := x.liveWl ||| (1#8 <<< s.ev.idx) }
      else { x with trainCount := mput x.trainCount s.ev.idx n })) := by
  subst e ex hn
  change execTrain s = _
  dsimp only [execTrain]
  rw [if_pos ht, Port.gotTrain, if_pos (by simp [ht, hi])]

theorem ready_run (h : s.ev.size = 1 ∨ s.ev.size = 2 ∨ s.ev.size = 4 ∨ s.ev.size = 8) :
    exec .ready s = .next ((s.heard p (({ x with peerReady := some (s.ev.size, BitVec.ofNat 8 s.ev.val, permsOf s.ev.bytes) } : Port).tryUp
      (s.portNow p))).flowPort p) := by
  subst e ex
  change execReady s = _
  dsimp only [execReady]
  rw [if_pos ht, Port.gotReady, if_pos (by simpa [ht, or_assoc] using h)]

end

/-! ### What control flits do to a port -/

section
variable {x : Port} {now ret : Nat} {d : List Byte}

theorem gotControl_nak (hu : x.up = true) (h : fld d 0 1 = 1) : x.gotControl now ret d = x.naked (BitVec.ofNat 32 (fld d 4 4)) := by
  simp [Port.gotControl, h, hu]

theorem gotControl_ack (hu : x.up = true) (h : fld d 0 1 = 2) : x.gotControl now ret d = x.acked (BitVec.ofNat 32 (fld d 4 4)) := by
  simp [Port.gotControl, h, hu]

theorem gotControl_permit (hu : x.up = true) (h : fld d 0 1 = 5) :
    x.gotControl now ret d = (x.givePermits (ret / 2 ^ 13) (ret % 2 ^ 11)).gotPermits (permsOf (d.drop 8)) := by
  simp [Port.gotControl, h, hu, Port.gotRet]

/-- A control flit of unknown KIND is dropped and counted (R389). -/
theorem gotControl_unknown (h : 5 < fld d 0 1) : x.gotControl now ret d = { x with dropc := min 65535 (x.dropc + 1) } := by
  obtain ⟨n, hn⟩ : ∃ n, fld d 0 1 = n + 6 := ⟨fld d 0 1 - 6, by omega⟩
  unfold Port.gotControl
  rw [hn]
  rfl

theorem unknownSeq_ignored {sq : W32} (h : x.replay.findIdx? (fun f => flitSeq f == sq) = none) : x.naked sq = x ∧ x.acked sq = x := by
  simp [Port.naked, Port.acked, h]

theorem acked_effect {sq : W32} {i : Nat} (h : x.replay.findIdx? (fun f => flitSeq f == sq) = some i) :
    (x.acked sq).replay = x.replay.drop (i + 1) ∧ (x.acked sq).tail = x.tail.drop ((x.replay.take (i + 1)).filter flitLast).length := by
  simp [Port.acked, h]

/-- The first NAK for a SEQ: the flits from it on go out again (R387, R389). -/
theorem naked_first {sq : W32} {i : Nat} (h : x.replay.findIdx? (fun f => flitSeq f == sq) = some i) (h0 : x.nakCount = 0) :
    x.naked sq = ({ x with nakSeq := sq, nakCount := 1, repl := min 255 (x.repl + 1) } : Port).send (x.replay.drop i) := by
  simp [Port.naked, h, h0]

end

/-! ### The statement -/

/-- Settles O51: each clause by the lemma above that says what the event, or the function of the port, does. -/
theorem fabricPorts : Obligations.FabricPorts := by
  unfold Obligations.FabricPorts
  refine ⟨fun s => ?_, fun s => ?_⟩
  · refine ⟨portComesUp_effect rfl, fun ht hl hr => ⟨trainPeriodEnd_early, fun hn w hw => trainPeriodEnd_run rfl rfl ht hl hr hn hw⟩,
      fun w wls perms h => ⟨tryUp_waits h, tryUp_effect h⟩, fun ws i => beatsOn_rotates, fun hu => ?_, colDieLoss_effect⟩
    have silence := peerSilenceTimeout_run hu
    refine ⟨portLinkDown_run hu, fun h => by rw [silence, if_pos h], fun h => by rw [silence, if_neg (Nat.not_le.mpr h)], parkRequest_early,
      fun hi hw hp hn hm hf hq => ⟨_, parkRequest_run rfl rfl hu hi hw hp hn hm hf hq, ?_⟩,
      wakeRequest_run rfl rfl hu, wakeRequest_none, fun hw => ⟨_, wakeDone_run rfl rfl hu hw, ?_⟩, rfl, rfl, rfl, rfl, rfl⟩
    · simp [Port.parks, Port.control, Port.send]
    · simp
  · refine ⟨fun hu => ?_, fun _ ht => ?_, fun ret d hu => ⟨gotControl_nak hu, gotControl_ack hu, gotControl_permit hu, gotControl_unknown⟩,
      fun sq => unknownSeq_ignored, fun sq i h => ⟨(acked_effect h).1, (acked_effect h).2, fun h0 => ?_⟩⟩
    · have flit := flitReceive_run rfl rfl hu
      refine ⟨fun h => ?_, fun h h7 => ?_, fun h h7 hs => ?_, fun h h7 hs => ?_, nak_run rfl rfl hu, ack_run rfl rfl hu, ackSend_run rfl rfl hu,
        stripe_run rfl rfl hu, permit_run rfl rfl hu, managementMessage_run rfl rfl hu, denialMessage_run rfl rfl hu, class0Message_run rfl rfl hu⟩
      · rw [flit, if_pos h]
      · rw [flit, if_neg (by simp [h]), if_pos h7]; rfl
      · rw [flit, if_neg (by simp [h]), if_neg h7, if_pos hs]
      · rw [flit, if_neg (by simp [h]), if_neg h7, if_neg (fun h => h hs)]
    · refine ⟨fun hi hn => ?_, fun hi hn => ?_, ready_run rfl rfl ht⟩
      · rw [train_run rfl rfl ht hi rfl, if_neg (Nat.not_le.mpr hn)]; rfl
      · rw [train_run rfl rfl ht hi rfl, if_pos hn]; rfl
    · rw [naked_first h h0]
      simp [Port.send, Function.comp_def]

end Sys2Proof.Machine
end

section
/-! The loss of a Vale die, power and heat, tier regions, errors and the tier test (R237, R262, R395 to R400). -/

namespace Sys2Proof.Machine

/-! ### Loops that reach a goal -/

/-- A loop over a list that holds a reaches Q, when the round of a reaches it from what every round keeps, and every round keeps Q. -/
theorem foldl_reaches {σ α : Type} {f : σ → α → σ} {P Q : σ → Prop} {a : α} {l : List α} {s : σ} (ha : a ∈ l) (hs : P s)
    (before : ∀ s b, P s → P (f s b)) (reach : ∀ s, P s → Q (f s a)) (after : ∀ s b, Q s → Q (f s b)) : Q (l.foldl f s) := by
  induction l generalizing s with
  | nil => cases ha
  | cons b l ih =>
    rw [List.foldl_cons]
    cases ha with
    | head => exact List.foldlRecOn l f (reach s hs) fun s h b _ => after s b h
    | tail _ hl => exact ih hl (before s b hs)

/-- A loop over a list that holds a reaches Q, when the round of a does and every round keeps Q. -/
theorem foldl_meets {σ α : Type} {f : σ → α → σ} {Q : σ → Prop} {a : α} {l : List α} {s : σ} (ha : a ∈ l) (reach : ∀ s, Q (f s a))
    (after : ∀ s b, Q s → Q (f s b)) : Q (l.foldl f s) :=
  foldl_reaches (P := fun _ => True) ha trivial (fun _ _ _ => trivial) (fun s _ => reach s) after

/-! ### Sparse data -/

theorem mget?_mmod {β : Type} (m : NMap β) (k j : Nat) (f : β → β) :
    mget? (mmod m k f) j = if j = k then (mget? m j).map f else mget? m j := by
  induction m with
  | nil => simp [mmod, mget?]
  | cons p m ih =>
    obtain ⟨i, v⟩ := p
    simp only [mmod] at ih
    by_cases hi : i = k
    · by_cases hj : j = k
      · simp [mmod, mget?, hi, hj]
      · simp [mmod, mget?, hi, hj, ih]
    · by_cases hj : j = i
      · subst hj; simp [mmod, mget?, hi]
      · simp [mmod, mget?, hi, hj, ih]

theorem mget?_map {β γ : Type} (m : NMap β) (g : β → γ) (j : Nat) : mget? (m.map fun p => (p.1, g p.2)) j = (mget? m j).map g := by
  induction m with
  | nil => rfl
  | cons p m ih =>
    simp only [List.map_cons, mget?, ih]
    split <;> rfl

theorem mem_of_mget? {β : Type} {m : NMap β} {j : Nat} {x : β} (h : mget? m j = some x) : (j, x) ∈ m := by
  induction m with
  | nil => cases h
  | cons p m ih =>
    obtain ⟨i, v⟩ := p
    simp only [mget?] at h
    split at h
    · next e => cases h; rw [e]; exact List.mem_cons_self
    · exact List.mem_cons_of_mem _ (ih h)

/-- In canonical form a key is listed once. -/
theorem mget?_of_mem {β : Type} {m : NMap β} {p : Nat × β} (w : mwf m = true) (h : p ∈ m) : mget? m p.1 = some p.2 := by
  unfold mwf at w
  generalize 0 = lo at w
  induction m generalizing lo with
  | nil => cases h
  | cons q m ih =>
    obtain ⟨i, v⟩ := q
    simp only [mwfFrom, Bool.and_eq_true, decide_eq_true_eq] at w
    rcases List.mem_cons.mp h with rfl | h
    · simp [mget?]
    · have later := ih h (i + 1) w.2
      have ne : p.1 ≠ i := fun e => by
        rw [mget?_below m (i + 1) p.1 w.2 (by omega)] at later
        cases later
      simp [mget?, ne, later]

/-! ### Strands are changed -/

theorem mget?_modStrand (s : State) (sid n : Nat) (f : Strand → Strand) :
    mget? (s.modStrand sid f).strands n = if n = sid then (mget? s.strands n).map f else mget? s.strands n := by
  unfold State.modStrand
  split
  · next st h =>
    simp only [State.setStrand_strands, mget?_mput]
    split
    · next e => rw [e, h]; rfl
    · rfl
  · next h =>
    split
    · next e => rw [e, h]; rfl
    · rfl

/-- What a change of a strand keeps of every strand holds of each afterwards, where it did before. -/
theorem strand_modStrand_keeps {P : Strand → Prop} {s : State} {sid n : Nat} {f : Strand → Strand} (hf : ∀ st, P st → P (f st))
    (h : P (s.strand n)) : P ((s.modStrand sid f).strand n) := by
  unfold State.modStrand
  split
  · next st hm =>
    rw [State.strand_setStrand]
    split
    · next e =>
      subst e
      simp only [State.strand, hm, Option.getD_some] at h
      exact hf st h
    · exact h
  · exact h

/-! ### What an abort leaves -/

/-- The package apart from what telling strands and ports of something changes. -/
def State.besideTelling (s : State) : State := { s with strands := [], ports := [], denials := [], denialCount := 0 }

theorem modStrand_besideTelling (s : State) (sid : Nat) (f : Strand → Strand) : (s.modStrand sid f).besideTelling = s.besideTelling := by
  unfold State.modStrand
  split <;> rfl

theorem flowPort_besideTelling (s : State) (p : Nat) : (s.flowPort p).besideTelling = s.besideTelling := by
  unfold State.flowPort
  split <;> rfl

theorem flowPort_strands (s : State) (p : Nat) : (s.flowPort p).strands = s.strands := by
  unfold State.flowPort
  split <;> rfl

theorem sendMsg_besideTelling (s : State) (p : Nat) (m : Msg) : (s.sendMsg p m).besideTelling = s.besideTelling :=
  flowPort_besideTelling _ p

theorem sendMsg_strands (s : State) (p : Nat) (m : Msg) : (s.sendMsg p m).strands = s.strands := flowPort_strands _ p

theorem deny_besideTelling (s : State) (target unitNo master kind addr : Nat) :
    (s.deny target unitNo master kind addr).besideTelling = s.besideTelling := by
  unfold State.deny State.besideTelling
  rfl

theorem deny_strands (s : State) (target unitNo master kind addr : Nat) : (s.deny target unitNo master kind addr).strands = s.strands := by
  unfold State.deny
  rfl

/-- A participant of an aborted collective (R368): its flag falls, and it holds the cause that the abort gives it. -/
def State.dropRank (s : State) (b : AbortBy) (c : Coll) : State :=
  if (mget? s.strands c.sid).isSome && (s.strand c.sid).team == c.team then
    match b.cause c with
    | some h => (s.decFlag c.sid c.flag.toNat c.saved).holdCause c.sid h
    | none => s.decFlag c.sid c.flag.toNat c.saved
  else s

theorem dropRank_besideTelling (s : State) (b : AbortBy) (c : Coll) : (s.dropRank b c).besideTelling = s.besideTelling := by
  unfold State.dropRank State.holdCause State.decFlag
  split
  · split <;> simp only [modStrand_besideTelling]
  · rfl

theorem decFlag_held (st : Strand) (f : Nat) (b : Bool) : (st.decFlag f b).held = st.held := by
  unfold Strand.decFlag
  split
  · rfl
  · split <;> rfl

/-- A held cause stays when another one comes (R135). -/
theorem holdCause_keeps {s : State} {sid n : Nat} {h k : Held} (hh : h ∈ (s.strand n).held) : h ∈ ((s.holdCause sid k).strand n).held :=
  strand_modStrand_keeps (P := fun st => h ∈ st.held) (fun _ hs => List.mem_append_left _ hs) hh

theorem decFlag_keeps {s : State} {sid n f : Nat} {b : Bool} {h : Held} (hh : h ∈ (s.strand n).held) : h ∈ ((s.decFlag sid f b).strand n).held :=
  strand_modStrand_keeps (P := fun st => h ∈ st.held) (fun st hs => by rwa [decFlag_held]) hh

theorem dropRank_keeps {s : State} {b : AbortBy} {c : Coll} {n : Nat} {h : Held} (hh : h ∈ (s.strand n).held) :
    h ∈ ((s.dropRank b c).strand n).held := by
  unfold State.dropRank
  split
  · split
    · exact holdCause_keeps (decFlag_keeps hh)
    · exact decFlag_keeps hh
  · exact hh

/-- The collective is taken out of those that run. -/
def State.takeColl (s : State) (ctx gid k : Nat) (dead : List Coll) : State :=
  { s with
    colls := s.colls.filter fun c => !(c.ctx == ctx && c.gid == gid && c.k == k)
    collParts := s.collParts.filter fun p => !(p.ctx == ctx && p.gid == gid && p.k == k)
    collDead := dead }

/-- The packages that hold ranks of a collective are told of its abort (R368). -/
def State.tellAbort (s : State) (ctx : Nat) (c : Coll) (b : AbortBy) : State :=
  (remotePorts c.desc).foldl (fun (s : State) p =>
    if s.portMay p ctx true then s.sendMsg p (c.abortMsg (b == .mismatch)) else s.deny 3 p ctx 1 0) s

theorem tellAbort_besideTelling (s : State) (ctx : Nat) (c : Coll) (b : AbortBy) : (s.tellAbort ctx c b).besideTelling = s.besideTelling := by
  unfold State.tellAbort
  refine foldl_keeps State.besideTelling (fun s p => ?_) _ _
  split
  · exact sendMsg_besideTelling ..
  · exact deny_besideTelling ..

theorem tellAbort_strands (s : State) (ctx : Nat) (c : Coll) (b : AbortBy) : (s.tellAbort ctx c b).strands = s.strands := by
  unfold State.tellAbort
  refine foldl_keeps State.strands (fun s p => ?_) _ _
  split
  · exact sendMsg_strands ..
  · exact deny_strands ..

/-- An abort takes the collective out, tells the other packages unless it was aborted before, and then each of its ranks (R368). -/
theorem collAbort_run (s : State) (ctx gid k : Nat) (b : AbortBy) :
    (s.collGroup ctx gid k = [] ∧ s.collAbort ctx gid k b = s)
    ∨ ∃ dead u, (u = s.takeColl ctx gid k dead ∨ ∃ c, u = (s.takeColl ctx gid k dead).tellAbort ctx c b)
      ∧ s.collAbort ctx gid k b = (s.collGroup ctx gid k).foldl (fun s c => s.dropRank b c) u := by
  unfold State.collAbort
  cases s.collGroup ctx gid k with
  | nil => exact .inl ⟨rfl, rfl⟩
  | cons c0 cs =>
    right
    cases s.collDead.any fun d => d.ctx == ctx && d.gid == gid && d.k == k with
    | true => exact ⟨s.collDead, _, .inl rfl, rfl⟩
    | false => exact ⟨s.collDead ++ [{ c0 with park := none }], _, .inr ⟨c0, rfl⟩, rfl⟩

/-- The package apart from what aborts change. -/
def State.besideColls (s : State) : State := { s.besideTelling with colls := [], collParts := [], collDead := [] }

/-- What the abort of a collective leaves, and what it takes out. -/
theorem collAbort_effect (s : State) (ctx gid k : Nat) (b : AbortBy) :
    (s.collAbort ctx gid k b).besideColls = s.besideColls
    ∧ (s.collAbort ctx gid k b).colls = s.colls.filter fun c => !(c.ctx == ctx && c.gid == gid && c.k == k) := by
  rcases collAbort_run s ctx gid k b with ⟨hg, run⟩ | ⟨dead, u, hu, run⟩
  · rw [run]
    refine ⟨rfl, (List.filter_eq_self.mpr fun c hc => ?_).symm⟩
    simp only [List.filter_eq_nil_iff.mp hg c hc, Bool.not_false]
  · have told : u.besideTelling = (s.takeColl ctx gid k dead).besideTelling := by
      rcases hu with rfl | ⟨c, rfl⟩
      · rfl
      · exact tellAbort_besideTelling ..
    have all : (s.collAbort ctx gid k b).besideTelling = (s.takeColl ctx gid k dead).besideTelling := by
      rw [run, ← told]
      exact foldl_keeps State.besideTelling (fun s c => dropRank_besideTelling s b c) _ _
    generalize s.collAbort ctx gid k b = t at all
    exact ⟨(congrArg (fun s : State => ({ s with colls := [], collParts := [], collDead := [] } : State)) all :), (congrArg State.colls all :)⟩

theorem collAbort_keeps {s : State} {ctx gid k n : Nat} {b : AbortBy} {h : Held} (hh : h ∈ (s.strand n).held) :
    h ∈ ((s.collAbort ctx gid k b).strand n).held := by
  rcases collAbort_run s ctx gid k b with ⟨-, run⟩ | ⟨dead, u, hu, run⟩
  · rwa [run]
  · have told : u.strands = s.strands := by
      rcases hu with rfl | ⟨c, rfl⟩
      · rfl
      · exact tellAbort_strands ..
    rw [run]
    refine List.foldlRecOn (motive := fun t : State => h ∈ (t.strand n).held) _ _ ?_ fun t ht c _ => dropRank_keeps ht
    rwa [State.strand, told]

theorem abortAll_besideColls (s : State) (ctx : Nat) (b : AbortBy) : (s.abortAll ctx b).besideColls = s.besideColls := by
  refine foldl_keeps State.besideColls (fun s c => ?_) _ _
  split
  · exact (collAbort_effect ..).1
  · rfl

theorem abortAll_keeps {s : State} {ctx n : Nat} {b : AbortBy} {h : Held} (hh : h ∈ (s.strand n).held) :
    h ∈ ((s.abortAll ctx b).strand n).held := by
  refine List.foldlRecOn (motive := fun t : State => h ∈ (t.strand n).held) _ _ hh fun t ht c _ => ?_
  split
  · exact collAbort_keeps ht
  · exact ht

/-- No collective of the context is left (R369). -/
theorem abortAll_colls {s : State} {ctx : Nat} {b : AbortBy} {e : Coll} (he : e ∈ (s.abortAll ctx b).colls) : e.ctx ≠ ctx := by
  intro hc
  have shrinks : ∀ (t : State) (c : Coll), (if c.ctx = ctx then t.collAbort ctx c.gid c.k b else t).colls ⊆ t.colls := fun t c => by
    split
    · rw [(collAbort_effect ..).2]; exact fun _ h => (List.mem_filter.mp h).1
    · exact fun _ h => h
  have mine : e ∈ s.colls := List.foldlRecOn (motive := fun t : State => t.colls ⊆ s.colls) s.colls _ (fun _ h => h)
    (fun t ht c _ _ h => ht (shrinks t c h)) he
  refine foldl_meets (Q := fun t : State => e ∉ t.colls) mine (fun t => ?_) (fun t c ht h => ht (shrinks t c h)) he
  rw [if_pos hc, (collAbort_effect ..).2]
  simp [hc]

/-! ### What a loss does to a context -/

/-- The field barrier with key b is broken (R237). -/
def State.breakBar (s : State) (b : Nat) : State := { s with bars := mput s.bars b { s.barAt b with broken := true } }

/-- The two field barriers of a launch are broken (R237). -/
def State.breakFields (s : State) (k : Nat) : State := (List.range 2).foldl (fun (s : State) n => s.breakBar (barKey 2 n k)) s

/-- The field barriers of launches are broken (R237). -/
def State.breakBars (s : State) (ks : List Nat) : State := ks.foldl State.breakFields s

/-- Every strand of some teams holds the cause of a die loss (R237). -/
def State.holdLoss (s : State) (ts : NMap Team) : State :=
  ts.foldl (fun s p => p.2.sids.foldl (fun s sid => s.holdCause sid { code := 0x0C }) s) s

/-- The launches of a context whose field barriers are bound (R13). -/
def State.boundLaunches (s : State) (c : Nat) : List Nat :=
  (s.launches.filter fun p => p.2.ctx == c && p.2.st != .ended && decide (0 < p.2.placed)).map (·.1)

/-- The launches of a context that are not placed are held (R237). -/
def State.holdLaunches (s : State) (c : Nat) : State :=
  { s with ctxs := mmod s.ctxs c fun x => { x with lossHeld := true, lossHost := s.mode.getLsbD 4 } }

/-- The package apart from strands and barriers. -/
def State.besideBars (s : State) : State := { s.besideTelling with bars := [] }

theorem breakFields_besideBars (s : State) (k : Nat) : (s.breakFields k).besideBars = s.besideBars :=
  foldl_keeps State.besideBars (fun s n => (rfl : (s.breakBar (barKey 2 n k)).besideBars = s.besideBars)) _ s

theorem breakFields_strands (s : State) (k : Nat) : (s.breakFields k).strands = s.strands :=
  foldl_keeps State.strands (fun s n => (rfl : (s.breakBar (barKey 2 n k)).strands = s.strands)) _ s

theorem breakBars_besideBars (s : State) (ks : List Nat) : (s.breakBars ks).besideBars = s.besideBars :=
  foldl_keeps State.besideBars breakFields_besideBars ks s

theorem breakBars_strands (s : State) (ks : List Nat) : (s.breakBars ks).strands = s.strands :=
  foldl_keeps State.strands breakFields_strands ks s

theorem holdCause_besideTelling (s : State) (sid : Nat) (h : Held) : (s.holdCause sid h).besideTelling = s.besideTelling :=
  modStrand_besideTelling ..

theorem holdLoss_besideTelling (s : State) (ts : NMap Team) : (s.holdLoss ts).besideTelling = s.besideTelling :=
  foldl_keeps State.besideTelling (fun (s : State) (p : Nat × Team) =>
    foldl_keeps State.besideTelling (fun s sid => holdCause_besideTelling s sid { code := 0x0C }) p.2.sids s) ts s

theorem barAt_breakBar (s : State) (b k : Nat) : (s.breakBar b).barAt k = if k = b then { s.barAt b with broken := true } else s.barAt k := by
  simp only [State.breakBar, State.barAt, mget?_mput]
  split <;> rfl

theorem breakBar_keeps {s : State} {b k : Nat} (h : (s.barAt k).broken = true) : ((s.breakBar b).barAt k).broken = true := by
  rw [barAt_breakBar]
  split
  · rfl
  · exact h

theorem breakFields_keeps {s : State} {j k : Nat} (h : (s.barAt k).broken = true) : ((s.breakFields j).barAt k).broken = true :=
  List.foldlRecOn (motive := fun t : State => (t.barAt k).broken = true) _ _ h fun _ ht _ _ => breakBar_keeps ht

theorem breakFields_broken (s : State) (k : Nat) {n : Nat} (hn : n < 2) : ((s.breakFields k).barAt (barKey 2 n k)).broken = true := by
  refine foldl_meets (Q := fun t : State => (t.barAt (barKey 2 n k)).broken = true) (List.mem_range.mpr hn) (fun t => ?_) fun t m => breakBar_keeps
  rw [barAt_breakBar, if_pos rfl]

theorem breakFields_other (s : State) {j k n : Nat} (h : k ≠ j) (hn : n < 2) : (s.breakFields j).barAt (barKey 2 n k) = s.barAt (barKey 2 n k) := by
  refine List.foldlRecOn (motive := fun t : State => t.barAt (barKey 2 n k) = s.barAt (barKey 2 n k)) _ _ rfl fun t ht m hm => ?_
  have hm := List.mem_range.mp hm
  rw [barAt_breakBar, if_neg (by unfold barKey; omega), ht]

theorem breakBars_broken {s : State} {ks : List Nat} {k n : Nat} (hk : k ∈ ks) (hn : n < 2) :
    ((s.breakBars ks).barAt (barKey 2 n k)).broken = true :=
  foldl_meets (Q := fun t : State => (t.barAt (barKey 2 n k)).broken = true) hk (fun t => breakFields_broken t k hn) fun _ _ => breakFields_keeps

theorem breakBars_other {s : State} {ks : List Nat} {k n : Nat} (hk : k ∉ ks) (hn : n < 2) :
    (s.breakBars ks).barAt (barKey 2 n k) = s.barAt (barKey 2 n k) :=
  List.foldlRecOn (motive := fun t : State => t.barAt (barKey 2 n k) = s.barAt (barKey 2 n k)) _ _ rfl
    fun t ht j hj => (breakFields_other t (fun e : k = j => hk (e ▸ hj)) hn).trans ht

theorem holdCause_holds {s : State} {sid : Nat} (h : Held) (hs : (mget? s.strands sid).isSome = true) : h ∈ ((s.holdCause sid h).strand sid).held := by
  rw [State.holdCause, State.modStrand_eq _ _ _ hs]
  simp

theorem holdCause_listed {s : State} {sid n : Nat} {h : Held} (hs : (mget? s.strands n).isSome = true) :
    (mget? (s.holdCause sid h).strands n).isSome = true := by
  rw [State.holdCause, mget?_modStrand]
  split
  · simpa using hs
  · exact hs

theorem holdLoss_holds {s : State} {ts : NMap Team} {p : Nat × Team} {sid : Nat} (hp : p ∈ ts) (hi : sid ∈ p.2.sids)
    (hs : (mget? s.strands sid).isSome = true) : ({ code := 0x0C } : Held) ∈ ((s.holdLoss ts).strand sid).held := by
  refine foldl_reaches (P := fun t : State => (mget? t.strands sid).isSome = true) (Q := fun t : State => ({ code := 0x0C } : Held) ∈ (t.strand sid).held)
    hp hs (fun t q ht => ?_) (fun t ht => ?_) (fun t q ht => ?_)
  · exact List.foldlRecOn (motive := fun t : State => (mget? t.strands sid).isSome = true) _ _ ht fun t ht i _ => holdCause_listed ht
  · exact foldl_reaches (P := fun t : State => (mget? t.strands sid).isSome = true) (Q := fun t : State => ({ code := 0x0C } : Held) ∈ (t.strand sid).held)
      hi ht (fun t i => holdCause_listed) (fun t => holdCause_holds _) fun t i => holdCause_keeps
  · exact List.foldlRecOn (motive := fun t : State => ({ code := 0x0C } : Held) ∈ (t.strand sid).held) _ _ ht fun t ht i _ => holdCause_keeps ht

theorem ctxLoss_run (s : State) (c : Nat) :
    s.ctxLoss c =
      let u := s.breakBars (s.boundLaunches c)
      ((u.holdLoss (u.teams.filter fun p => p.2.ctx == c && p.2.alive)).holdLaunches c).abortAll c .dieLoss := rfl

theorem State.besideBars_eq {s t : State} (h : t.besideBars = s.besideBars) : t.mode = s.mode ∧ t.hbm = s.hbm ∧ t.teams = s.teams
    ∧ t.ctxs = s.ctxs ∧ t.live = s.live :=
  ⟨(congrArg State.mode h :), (congrArg State.hbm h :), (congrArg State.teams h :), (congrArg State.ctxs h :), (congrArg State.live h :)⟩

theorem State.besideTelling_eq {s t : State} (h : t.besideTelling = s.besideTelling) : t.mode = s.mode ∧ t.hbm = s.hbm ∧ t.bars = s.bars
    ∧ t.ctxs = s.ctxs ∧ t.live = s.live :=
  ⟨(congrArg State.mode h :), (congrArg State.hbm h :), (congrArg State.bars h :), (congrArg State.ctxs h :), (congrArg State.live h :)⟩

theorem State.besideColls_eq {s t : State} (h : t.besideColls = s.besideColls) : t.mode = s.mode ∧ t.hbm = s.hbm ∧ t.bars = s.bars
    ∧ t.ctxs = s.ctxs ∧ t.live = s.live :=
  ⟨(congrArg State.mode h :), (congrArg State.hbm h :), (congrArg State.bars h :), (congrArg State.ctxs h :), (congrArg State.live h :)⟩

/-- What a loss changes of the package, apart from strands, ports and collectives. -/
theorem ctxLoss_frame (s : State) (c : Nat) :
    (s.ctxLoss c).hbm = s.hbm ∧ (s.ctxLoss c).live = s.live ∧ (s.ctxLoss c).bars = (s.breakBars (s.boundLaunches c)).bars
    ∧ (s.ctxLoss c).ctxs = (s.holdLaunches c).ctxs := by
  rw [ctxLoss_run]
  dsimp only
  obtain ⟨m1, h1, t1, c1, l1⟩ := State.besideBars_eq (breakBars_besideBars s (s.boundLaunches c))
  generalize s.breakBars (s.boundLaunches c) = u at *
  obtain ⟨m2, h2, b2, c2, l2⟩ := State.besideTelling_eq (holdLoss_besideTelling u (u.teams.filter fun p => p.2.ctx == c && p.2.alive))
  generalize u.holdLoss _ = v at *
  obtain ⟨-, h3, b3, c3, l3⟩ := State.besideColls_eq (abortAll_besideColls (v.holdLaunches c) c .dieLoss)
  refine ⟨h3.trans (h2.trans h1), l3.trans (l2.trans l1), b3.trans b2, c3.trans ?_⟩
  simp only [State.holdLaunches, c2, c1, m2, m1]

theorem ctxLoss_marks {s : State} {c : Nat} {y : Ctx} (h : mget? s.ctxs c = some y) :
    ∃ z, mget? (s.ctxLoss c).ctxs c = some z ∧ z.lossHeld = true ∧ z.lossHost = s.mode.getLsbD 4 := by
  obtain ⟨-, -, -, hc⟩ := ctxLoss_frame s c
  refine ⟨{ y with lossHeld := true, lossHost := s.mode.getLsbD 4 }, ?_, rfl, rfl⟩
  rw [hc, State.holdLaunches, mget?_mmod, if_pos rfl, h]
  rfl

theorem ctxLoss_holds {s : State} {c sid : Nat} {p : Nat × Team} (hp : p ∈ s.teams) (hc : p.2.ctx = c) (ha : p.2.alive = true) (hi : sid ∈ p.2.sids)
    (hs : mget? s.strands sid ≠ none) : ({ code := 0x0C } : Held) ∈ ((s.ctxLoss c).strand sid).held := by
  rw [ctxLoss_run]
  refine abortAll_keeps ?_
  obtain ⟨-, -, ht, -⟩ := State.besideBars_eq (breakBars_besideBars s (s.boundLaunches c))
  refine holdLoss_holds (p := p) ?_ hi ?_
  · rw [ht]
    exact List.mem_filter.mpr ⟨hp, by simp [hc, ha]⟩
  · rw [breakBars_strands]
    exact Option.isSome_iff_ne_none.mpr hs

theorem ctxLoss_barAt (s : State) (c k : Nat) : (s.ctxLoss c).barAt k = (s.breakBars (s.boundLaunches c)).barAt k := by
  obtain ⟨-, -, hb, -⟩ := ctxLoss_frame s c
  simp only [State.barAt, hb]

theorem ctxLoss_breaks {s : State} {c n : Nat} {p : Nat × Launch} (hp : p ∈ s.launches) (hc : p.2.ctx = c) (he : p.2.st ≠ .ended)
    (hl : 0 < p.2.placed) (hn : n < 2) : ((s.ctxLoss c).barAt (barKey 2 n p.1)).broken = true := by
  rw [ctxLoss_barAt]
  refine breakBars_broken (List.mem_map.mpr ⟨p, List.mem_filter.mpr ⟨hp, ?_⟩, rfl⟩) hn
  simp [hc, he, hl]

theorem ctxLoss_unplaced {s : State} {c k n : Nat} {l : Launch} (hl : mget? s.launches k = some l) (h0 : l.placed = 0) (w : mwf s.launches = true)
    (hn : n < 2) : (s.ctxLoss c).barAt (barKey 2 n k) = s.barAt (barKey 2 n k) := by
  rw [ctxLoss_barAt]
  refine breakBars_other (fun hk => ?_) hn
  obtain ⟨p, hp, rfl⟩ := List.mem_map.mp hk
  obtain ⟨hp, ht⟩ := List.mem_filter.mp hp
  rw [mget?_of_mem w hp] at hl
  cases hl
  simp [h0] at ht

theorem ctxLoss_colls {s : State} {c : Nat} {e : Coll} (he : e ∈ (s.ctxLoss c).colls) : e.ctx ≠ c := by
  rw [ctxLoss_run] at he
  exact abortAll_colls he

/-! ### The loss of a die -/

/-- What a die loss reads of the contexts (R237): by number, TOUCHED and whether their launches are held. -/
def State.lossMarks (s : State) : NMap (Byte × Bool) := s.ctxs.map fun p => (p.1, p.2.touched, p.2.lossHeld)

theorem mget?_lossMarks (s : State) (x : Nat) : mget? s.lossMarks x = (mget? s.ctxs x).map fun c => (c.touched, c.lossHeld) :=
  mget?_map s.ctxs (fun c => (c.touched, c.lossHeld)) x

/-- A context that is listed once and has not touched the die: no entry of it has, in any package with the same marks. -/
theorem touched_of_lossMarks {s u : State} {x d : Nat} {y : Ctx} (hm : u.lossMarks = s.lossMarks) (hx : mget? s.ctxs x = some y)
    (ht : y.touched.getLsbD d = false) (h1 : (s.ctxs.filter fun p => p.1 == x).length = 1) :
    ∀ p ∈ u.ctxs, p.1 = x → p.2.touched.getLsbD d = false := by
  intro p hp e
  obtain ⟨q, hq⟩ := List.length_eq_one_iff.mp h1
  have only : ∀ r ∈ s.ctxs, r.1 = x → r = q := fun r hr er => List.mem_singleton.mp (hq ▸ List.mem_filter.mpr ⟨hr, by simp [er]⟩)
  have mem : (p.1, p.2.touched, p.2.lossHeld) ∈ s.lossMarks := hm ▸ List.mem_map.mpr ⟨p, hp, rfl⟩
  obtain ⟨r, hr, er⟩ := List.mem_map.mp mem
  simp only [Prod.mk.injEq] at er
  obtain ⟨e1, e2, -⟩ := er
  rw [← e2, only r hr (e1.trans e), ← only (x, y) (mem_of_mget? hx) rfl]
  exact ht

/-- The live dies, and what a die loss reads of the contexts. -/
def State.lossView (s : State) : Byte × NMap (Byte × Bool) := (s.live, s.lossMarks)

theorem removeStrand_lossView (s : State) (sid : Nat) : (s.removeStrand sid).lossView = s.lossView := rfl

theorem freeGranules_lossView (s : State) (ctx key : Nat) : (s.freeGranules ctx key).lossView = s.lossView := by
  simp only [State.lossView, State.lossMarks, State.freeGranules, mmod, List.map_map]
  congr 2
  funext p
  simp only [Function.comp_apply]
  split <;> rfl

theorem barCheck_lossView (s : State) (lvl n group : Nat) : (s.barCheck lvl n group).lossView = s.lossView := by
  unfold State.barCheck State.barComplete
  split
  · dsimp only
    split <;> rfl
  · rfl

theorem barLeave_lossView (s : State) (key : Nat) (t : Team) : (s.barLeave key t).lossView = s.lossView :=
  (foldl_keeps State.lossView (fun s n => barCheck_lossView s 2 n _) _ _).trans
    ((foldl_keeps State.lossView (fun s n => barCheck_lossView s 1 n _) _ _).trans
      (foldl_keeps State.lossView (fun s n => barCheck_lossView s 0 n _) _ _))

theorem modLaunch_lossView (s : State) (k : Nat) (f : Launch → Launch) : (s.modLaunch k f).lossView = s.lossView := rfl
theorem modTeam_lossView (s : State) (k : Nat) (f : Team → Team) : (s.modTeam k f).lossView = s.lossView := rfl
theorem dropBars_lossView (s : State) (k : Nat) : (s.dropBars k).lossView = s.lossView := rfl
theorem freeSpace_lossView (s : State) (t : Team) : (s.freeSpace t).lossView = s.lossView := rfl
theorem dropDie_lossView (s : State) (d : Nat) : (s.dropDie d).lossView = s.lossView := rfl

theorem killTeam_lossView (s : State) (key status : Nat) : (s.killTeam key status).lossView = s.lossView := by
  unfold State.killTeam
  split
  · rfl
  · next t _ =>
    split
    · rfl
    · dsimp only
      rw [barLeave_lossView, modLaunch_lossView, modTeam_lossView, dropBars_lossView, freeGranules_lossView]
      have strands := foldl_keeps State.lossView removeStrand_lossView t.sids s
      split
      · exact (freeSpace_lossView _ t).trans strands
      · exact strands

theorem modStrand_lossView (s : State) (sid : Nat) (f : Strand → Strand) : (s.modStrand sid f).lossView = s.lossView := by
  unfold State.modStrand
  split <;> rfl

theorem endProg_lossView (s : State) (n : Nat) (code detail : Byte) : (s.endProg n code detail).lossView = s.lossView := by
  unfold State.endProg State.holdCause State.decFlag
  dsimp only
  split
  · rfl
  · split <;> simp only [modStrand_lossView] <;> rfl

/-- Vale die d is not live any more, the teams and programs on it have ended, and what stood on it is gone (R237, R321). -/
def State.loseDie (s : State) (d : Nat) : State :=
  let s1 : State := { s with live := s.live &&& ~~~(1#8 <<< d) }
  let s2 := (s1.teams.filter fun p => p.2.core < 64 && dieOf p.2.core == d && p.2.resident).foldl (fun s p => s.killTeam p.1 10) s1
  ((s2.progs.filter fun p => p.1 / 128 == d && p.2.running).foldl (fun s p => s.endProg p.1 0x10 0) s2).dropDie d

/-- Every context whose TOUCHED names the die is affected (R237). -/
def State.loseCtxs (s : State) (d : Nat) : State := (s.ctxs.filter fun p => p.2.touched.getLsbD d).foldl (fun s p => s.ctxLoss p.1) s

/-- Ultik or the host hears of the loss (R237). -/
def State.reportLoss (s : State) (d : Nat) : State :=
  if s.mode.getLsbD 4 = true then s.postService { ty := 6, body := [BitVec.ofNat 64 d], seq := 0 } else s.signal 0

theorem dieLoss_run {s : State} (h : s.dieLive s.ev.who = true) :
    exec .dieLoss s = .next (((s.loseDie s.ev.who).loseCtxs s.ev.who).reportLoss s.ev.who) := by
  change execDieLoss s = _
  unfold execDieLoss
  rw [if_neg (by simp [h])]
  rfl

theorem dieLoss_notLive {s : State} (h : s.dieLive s.ev.who = false) : exec .dieLoss s = .next s := by
  change execDieLoss s = _
  unfold execDieLoss
  rw [if_pos (by simp [h])]

theorem loseDie_lossView (s : State) (d : Nat) : (s.loseDie d).lossView = (s.live &&& ~~~(1#8 <<< d), s.lossMarks) :=
  (dropDie_lossView _ d).trans ((foldl_keeps State.lossView (fun s (p : Nat × Prog) => endProg_lossView s p.1 0x10 0) _ _).trans
    (foldl_keeps State.lossView (fun s (p : Nat × Team) => killTeam_lossView s p.1 10) _ _))

/-- A context that a die loss does not affect stays as it is. -/
theorem loseCtxs_spares {s : State} {d x : Nat} (h : ∀ p ∈ s.ctxs, p.1 = x → p.2.touched.getLsbD d = false) :
    mget? (s.loseCtxs d).ctxs x = mget? s.ctxs x := by
  refine List.foldlRecOn (motive := fun t : State => mget? t.ctxs x = mget? s.ctxs x) _ _ rfl fun t ht p hp => ?_
  obtain ⟨hm, hd⟩ := List.mem_filter.mp hp
  have ne : x ≠ p.1 := fun e => by simp [h p hm e.symm] at hd
  obtain ⟨-, -, -, hc⟩ := ctxLoss_frame t p.1
  rw [hc, State.holdLaunches, mget?_mmod, if_neg ne, ht]

theorem loseCtxs_live (s : State) (d : Nat) : (s.loseCtxs d).live = s.live :=
  foldl_keeps State.live (fun s (p : Nat × Ctx) => (ctxLoss_frame s p.1).2.1) _ _

theorem svcFlush_besideService (s : State) : s.svcFlush.besideService = s.besideService := by
  unfold State.svcFlush
  dsimp only
  split
  · rfl
  · exact signal_besideService ..

theorem hostFlush_besideService (s : State) : s.hostFlush.besideService = s.besideService := by
  unfold State.hostFlush
  split <;> rfl

theorem postService_besideService (s : State) (e : SvcEntry) : (s.postService e).besideService = s.besideService :=
  (svcFlush_besideService _).trans (hostFlush_besideService s)

theorem reportLoss_besideService (s : State) (d : Nat) : (s.reportLoss d).besideService = s.besideService := by
  unfold State.reportLoss
  split
  · exact postService_besideService ..
  · exact signal_besideService ..

theorem State.besideService_eq {s t : State} (h : t.besideService = s.besideService) :
    t.live = s.live ∧ t.ctxs = s.ctxs ∧ t.regions = s.regions ∧ t.strands = s.strands ∧ t.clock = s.clock ∧ t.retired = s.retired :=
  ⟨(congrArg State.live h :), (congrArg State.ctxs h :), (congrArg State.regions h :), (congrArg State.strands h :), (congrArg State.clock h :),
    (congrArg State.retired h :)⟩

/-- A die loss spares every context that has not touched the die (R237). -/
theorem dieLoss_spares {s : State} (h : s.dieLive s.ev.who = true) :
    ∃ t, exec .dieLoss s = .next t ∧ t.live = s.live &&& ~~~(1#8 <<< s.ev.who)
      ∧ ∀ x y, mget? s.ctxs x = some y → y.touched.getLsbD s.ev.who = false → y.lossHeld = false → (s.ctxs.filter fun p => p.1 == x).length = 1 →
          ∃ z, mget? t.ctxs x = some z ∧ z.lossHeld = false := by
  refine ⟨_, dieLoss_run h, ?_⟩
  generalize s.ev.who = d
  obtain ⟨hl, hm⟩ := Prod.mk.inj (loseDie_lossView s d)
  generalize s.loseDie d = u at *
  obtain ⟨tl, tc, -⟩ := State.besideService_eq (reportLoss_besideService (u.loseCtxs d) d)
  rw [tl, tc]
  refine ⟨(loseCtxs_live u d).trans hl, fun x y hx ht hh h1 => ?_⟩
  have mark : (mget? u.ctxs x).map (fun c => (c.touched, c.lossHeld)) = some (y.touched, y.lossHeld) := by
    rw [← mget?_lossMarks, hm, mget?_lossMarks, hx]
    rfl
  obtain ⟨z, hz, ez⟩ := Option.map_eq_some_iff.mp mark
  exact ⟨z, (loseCtxs_spares (touched_of_lossMarks hm hx ht h1)).trans hz, (Prod.mk.inj ez).2.trans hh⟩

/-! ### Power (R395) -/

@[simp] theorem State.clockStep_setStep (s : State) (c k n : Nat) :
    (s.setStep c n).clockStep k = if k = c then min 12 n else s.clockStep k :=
  mget_mset s.clock c k (min 12 n) 0

theorem clockStep_lowered {l : List Nat} (hl : l.Nodup) (s : State) (k : Nat) :
    (l.foldl (fun (s : State) c => s.setStep c (s.clockStep c + 1)) s).clockStep k
      = if k ∈ l then min 12 (s.clockStep k + 1) else s.clockStep k := by
  induction l generalizing s with
  | nil => rfl
  | cons c l ih =>
    obtain ⟨hc, hl⟩ := List.nodup_cons.mp hl
    rw [List.foldl_cons, ih hl, State.clockStep_setStep]
    by_cases hk : k = c
    · subst hk; simp [hc]
    · simp [hk]

/-- Every core's clock goes down one step (R395). -/
def State.slowed (s : State) : State := (List.range 64).foldl (fun (s : State) c => s.setStep c (s.clockStep c + 1)) s

theorem slowed_clockStep (s : State) {k : Nat} (hk : k < 64) : s.slowed.clockStep k = min 12 (s.clockStep k + 1) := by
  rw [State.slowed, clockStep_lowered List.nodup_range, if_pos (List.mem_range.mpr hk)]

theorem slowed_powerAt (s : State) : s.slowed.powerAt = s.powerAt :=
  foldl_keeps State.powerAt (fun s c => (rfl : (s.setStep c (s.clockStep c + 1)).powerAt = s.powerAt)) _ _

theorem slowed_strands (s : State) : s.slowed.strands = s.strands :=
  foldl_keeps State.strands (fun s c => (rfl : (s.setStep c (s.clockStep c + 1)).strands = s.strands)) _ _

/-- Since when the measured power v has been below 95 % of PLIM (R395). -/
def State.lowFrom (s : State) (v : Nat) : Option Nat := if v * 100 < s.plim * 95 then some (s.lowSince.getD (s.ticks 8)) else none

section
variable {s : State} {v : Nat} (e : s.ev.val = v)
include e

theorem powerThrottleStep_run :
    exec .powerThrottleStep s =
      let u : State := { s with lowSince := s.lowFrom v }
      if s.ticks 8 < s.powerAt + 10000 then .next u
      else if s.plim < v then .next ({ u with powerAt := s.ticks 8 } : State).slowed
      else if lasted (s.lowFrom v) 100000 (s.ticks 8) = true then
        .next ((List.range 64).foldl (fun (s : State) c => if s.hot c = true then s else s.setStep c (s.clockStep c - 1)) { u with powerAt := s.ticks 8 })
      else .next u := by
  subst e
  rfl

theorem powerThrottleStep_over (hn : s.powerAt + 10000 ≤ s.ticks 8) (hv : s.plim < v) :
    ∃ t, exec .powerThrottleStep s = .next t ∧ (∀ k < 64, t.clockStep k = min 12 (s.clockStep k + 1)) ∧ t.powerAt = s.ticks 8 ∧ t.strands = s.strands := by
  have run := powerThrottleStep_run e
  dsimp only at run
  rw [if_neg (Nat.not_lt.mpr hn), if_pos hv] at run
  exact ⟨_, run, fun k hk => slowed_clockStep _ hk, slowed_powerAt _, slowed_strands _⟩

end

/-! ### Temperature (R396) -/

theorem thermalClockStep_run (s : State) :
    exec .thermalClockStep s = .next (if s.hot s.ev.core && (mget? s.stepAt s.ev.core).all fun t => decide (t + 1000 ≤ s.ticks 8) then
      { s.setStep s.ev.core (s.clockStep s.ev.core + 1) with stepAt := mput s.stepAt s.ev.core (s.ticks 8) } else s) := rfl

theorem region_setRegion (s : State) (c i d k : Nat) (r : Region) :
    (s.setRegion c i r).region d k = if d * 4 + k = c * 4 + i then r else s.region d k := by
  simp only [State.region, State.setRegion, mget?_mput]
  split <;> rfl

theorem region_setRegion_same (s : State) (c i : Nat) (r : Region) : (s.setRegion c i r).region c i = r := by
  rw [region_setRegion, if_pos rfl]

theorem region_setRegion_ne {s : State} {c i d k : Nat} {r : Region} (hi : i < 4) (hk : k < 4) (h : d ≠ c ∨ k ≠ i) :
    (s.setRegion c i r).region d k = s.region d k := by
  rw [region_setRegion, if_neg (by omega)]

theorem hot_eq_false {s : State} {c : Nat} : s.hot c = false ↔ ∀ k < 4, (s.region c k).action < 2 := by
  simp [State.hot]

/-- A region has a new reading, of which its action follows, and the core's clock is forced down from action 3 on (R396). -/
def State.heated (s : State) (c i : Nat) (r : Region) : State :=
  let u := (s.setRegion c i r).cooled c
  if 3 ≤ r.action then u.setStep c lowestStep else u

/-- A migration event for core c, whose hottest sensor reads v (R376, R377): the host's, or Ultik's while the mode keeps MIGR = 0. -/
def State.heatEvent (s : State) (c v : Nat) : State :=
  if s.mode.getLsbD 3 then s.postService { ty := 5, body := [BitVec.ofNat 64 c, BitVec.ofNat 64 v], seq := 0 } else { s with heat := s.heat ++ [c] }

theorem heatEvent_view (s : State) (c v : Nat) : (s.heatEvent c v).regions = s.regions ∧ (s.heatEvent c v).clock = s.clock := by
  unfold State.heatEvent
  split
  · obtain ⟨-, -, regions, -, clock, -⟩ := State.besideService_eq
      (postService_besideService s { ty := 5, body := [BitVec.ofNat 64 c, BitVec.ofNat 64 v], seq := 0 })
    exact ⟨regions, clock⟩
  · exact ⟨rfl, rfl⟩

theorem heatEvent_ultik {s : State} (c v : Nat) (h : s.mode.getLsbD 3 = false) : s.heatEvent c v = { s with heat := s.heat ++ [c] } := by
  rw [State.heatEvent, h]
  rfl

theorem thermalThreshold_run {s : State} {c i v : Nat} (ec : s.ev.core = c) (ei : s.ev.idx = i) (ev : s.ev.val = v) (hc : c < 64) (hi : i < 4) :
    exec .thermalThreshold s =
      let r := (s.region c i).read v (s.ticks 8)
      if (s.region c i).action < 2 && 2 ≤ r.action then .next ((s.heated c i r).heatEvent c v) else .next (s.heated c i r) := by
  subst ec ei ev
  change execThermalThreshold s = _
  unfold execThermalThreshold
  dsimp only
  rw [if_neg (by simp; omega), if_neg (by omega)]
  rfl

theorem thermalThreshold_other {s : State} (h : 64 ≤ s.ev.core) (h' : s.ev.core < 69) (hi : s.ev.idx = 0) :
    exec .thermalThreshold s = .next (s.setRegion s.ev.core 0 { s.region s.ev.core s.ev.idx with reading := s.ev.val }) := by
  change execThermalThreshold s = _
  unfold execThermalThreshold
  dsimp only
  rw [if_neg (by simp; omega), if_pos h, hi]

/-! What a new reading leaves and changes. -/

/-- The package apart from clocks and the list of hot cores. -/
def State.besideHeat (s : State) : State := { s with heat := [], clock := [] }

theorem cooled_view (s : State) (c : Nat) :
    (s.cooled c).regions = s.regions ∧ (s.cooled c).strands = s.strands ∧ (s.cooled c).hbm = s.hbm ∧ (s.cooled c).os = s.os := by
  unfold State.cooled
  split <;> exact ⟨rfl, rfl, rfl, rfl⟩

theorem heated_besideHeat (s : State) (c i : Nat) (r : Region) : (s.heated c i r).besideHeat = (s.setRegion c i r).besideHeat := by
  unfold State.heated State.cooled
  dsimp only
  split <;> split <;> rfl

theorem heated_heat (s : State) (c i : Nat) (r : Region) : (s.heated c i r).heat = ((s.setRegion c i r).cooled c).heat := by
  unfold State.heated
  dsimp only
  split <;> rfl

theorem heated_clockStep {s : State} {c i : Nat} {r : Region} (h : 3 ≤ r.action) : (s.heated c i r).clockStep c = 12 := by
  unfold State.heated
  dsimp only
  rw [if_pos h, State.clockStep_setStep, if_pos rfl]
  rfl

theorem heated_view (s : State) (c i : Nat) (r : Region) :
    (s.heated c i r).regions = (s.setRegion c i r).regions ∧ (s.heated c i r).svc = s.svc ∧ (s.heated c i r).mode = s.mode := by
  have h := heated_besideHeat s c i r
  generalize s.heated c i r = u at h
  exact ⟨(congrArg State.regions h :), (congrArg State.svc h :), (congrArg State.mode h :)⟩

/-- A core that was not hot is not so after a reading that asks for no migration; one without a hot region is not hot any more. -/
theorem heated_cold {s : State} {c i : Nat} {r : Region} (h : s.heat.contains c = false ∨ (s.setRegion c i r).hot c = false) :
    (s.heated c i r).heat.contains c = false := by
  rw [heated_heat]
  rcases h with h | h
  · simp only [State.cooled]
    split
    · exact h
    · simp
  · simp [State.cooled, h]

section
variable {s : State} {c i v : Nat} {r : Region} (ec : s.ev.core = c) (ei : s.ev.idx = i) (ev : s.ev.val = v) (hc : c < 64) (hi : i < 4)
  (er : (s.region c i).read v (s.ticks 8) = r)
include ec ei ev hc hi er

theorem thermalThreshold_effect :
    ∃ t, exec .thermalThreshold s = .next t ∧ t.region c i = r ∧ (3 ≤ r.action → t.clockStep c = 12)
      ∧ ((s.region c i).action < 2 → 2 ≤ r.action → s.mode.getLsbD 3 = false → t.heat.contains c = true ∧ t.svc = s.svc)
      ∧ (2 ≤ (s.region c i).action ∨ r.action < 2 → t.svc = s.svc ∧ (s.heat.contains c = false → t.heat.contains c = false))
      ∧ ((∀ k < 4, k ≠ i → (s.region c k).action < 2) → r.action < 2 → t.heat.contains c = false) := by
  have run := thermalThreshold_run ec ei ev hc hi
  obtain ⟨regions, svc, mode⟩ := heated_view s c i r
  obtain ⟨eventRegions, eventClock⟩ := heatEvent_view (s.heated c i r) c v
  have region : (s.heated c i r).region c i = r := by
    rw [State.region, regions]
    exact region_setRegion_same s c i r
  dsimp only at run
  rw [er] at run
  by_cases up : (s.region c i).action < 2 ∧ 2 ≤ r.action
  · rw [if_pos (by simpa using up)] at run
    have no : ¬(2 ≤ (s.region c i).action ∨ r.action < 2) := by omega
    refine ⟨_, run, ?_, fun h => ?_, fun _ _ hm => ?_, fun h => absurd h no, fun _ h => absurd (.inr h) no⟩
    · rwa [State.region, eventRegions]
    · rw [State.clockStep, eventClock]
      exact heated_clockStep h
    · rw [heatEvent_ultik c v (mode ▸ hm)]
      exact ⟨by simp, svc⟩
  · rw [if_neg (by simpa using up)] at run
    refine ⟨_, run, region, heated_clockStep, fun h h' => absurd ⟨h, h'⟩ up, fun _ => ⟨svc, fun h => heated_cold (.inl h)⟩, fun ho hr => ?_⟩
    refine heated_cold (.inr (hot_eq_false.mpr fun k hk => ?_))
    by_cases e : k = i
    · rw [e, region_setRegion_same]; exact hr
    · rw [region_setRegion_ne hi hk (.inr e)]; exact ho k hk e

end

/-! ### Tier regions (R262, R396, R397) -/

theorem mayIssue_coreStopped {s : State} {c i sid : Nat} (hi : i < 4) (h : (s.region c i).shutdown = true) (hs : coreOf sid = c) :
    s.mayIssue sid = false := by
  have stopped : s.coreStopped (coreOf sid) = true := by
    refine List.any_eq_true.mpr ⟨i, List.mem_range.mpr hi, ?_⟩
    rw [hs]
    unfold State.region at h
    cases hm : mget? s.regions (c * 4 + i) with
    | none => rw [hm] at h; cases h
    | some r => rw [hm] at h; exact h
  unfold State.mayIssue State.mayTrap
  split
  · rfl
  · simp [stopped]

theorem stopStrand_halts {s : State} {sid : Nat} {h : Halt} (hs : (mget? s.strands sid).isSome = true) : ((s.stopStrand sid h).strand sid).halt = h := by
  change (((s.dropStall sid).modStrand sid _).strand sid).halt = h
  rw [State.modStrand_eq (s.dropStall sid) sid _ hs]
  simp

/-- A strand that does not issue stays so when another one stops. -/
theorem stopStrand_keeps {s : State} {sid n : Nat} {h : Halt} (hh : h ≠ .none) (hs : (s.strand n).halt ≠ .none) :
    ((s.stopStrand sid h).strand n).halt ≠ .none :=
  strand_modStrand_keeps (s := s.dropStall sid) (P := fun st => st.halt ≠ .none) (fun _ _ => hh) hs

/-- What the halt of one strand leaves: teams, regions, which strands are listed. -/
theorem stopStrand_view (s : State) (sid n : Nat) (h : Halt) :
    (s.stopStrand sid h).teams = s.teams ∧ (s.stopStrand sid h).regions = s.regions
    ∧ (mget? (s.stopStrand sid h).strands n).isSome = (mget? s.strands n).isSome := by
  refine ⟨State.modStrand_teams .., State.modStrand_regions .., ?_⟩
  change (mget? ((s.dropStall sid).modStrand sid _).strands n).isSome = _
  rw [mget?_modStrand]
  split
  · exact Option.isSome_map
  · rfl

/-- A strand halts where it runs (R137). -/
def State.haltStrand (s : State) (h : Halt) (sid : Nat) : State := if (s.strand sid).halt = .none then s.stopStrand sid h else s

theorem haltTeam_run (s : State) (key : Nat) (h : Halt) : s.haltTeam key h = (s.team key).sids.foldl (fun s sid => s.haltStrand h sid) s := rfl

theorem haltStrand_view (s : State) (h : Halt) (sid n : Nat) :
    (s.haltStrand h sid).teams = s.teams ∧ (s.haltStrand h sid).regions = s.regions
    ∧ (mget? (s.haltStrand h sid).strands n).isSome = (mget? s.strands n).isSome := by
  unfold State.haltStrand
  split
  · exact stopStrand_view s sid n h
  · exact ⟨rfl, rfl, rfl⟩

theorem haltStrand_keeps {s : State} {sid n : Nat} {h : Halt} (hh : h ≠ .none) (hs : (s.strand n).halt ≠ .none) :
    ((s.haltStrand h sid).strand n).halt ≠ .none := by
  unfold State.haltStrand
  split
  · exact stopStrand_keeps hh hs
  · exact hs

theorem haltStrand_halts {s : State} {sid : Nat} {h : Halt} (hh : h ≠ .none) (hs : (mget? s.strands sid).isSome = true) :
    ((s.haltStrand h sid).strand sid).halt ≠ .none := by
  unfold State.haltStrand
  split
  · rwa [stopStrand_halts hs]
  · assumption

theorem haltTeam_view (s : State) (key n : Nat) (h : Halt) :
    (s.haltTeam key h).teams = s.teams ∧ (s.haltTeam key h).regions = s.regions
    ∧ (mget? (s.haltTeam key h).strands n).isSome = (mget? s.strands n).isSome := by
  rw [haltTeam_run]
  exact ⟨foldl_keeps State.teams (fun s sid => (haltStrand_view s h sid n).1) _ _, foldl_keeps State.regions (fun s sid => (haltStrand_view s h sid n).2.1) _ _,
    foldl_keeps (fun s : State => (mget? s.strands n).isSome) (fun s sid => (haltStrand_view s h sid n).2.2) _ _⟩

theorem haltTeam_keeps {s : State} {key n : Nat} {h : Halt} (hh : h ≠ .none) (hs : (s.strand n).halt ≠ .none) :
    ((s.haltTeam key h).strand n).halt ≠ .none :=
  List.foldlRecOn (motive := fun t : State => (t.strand n).halt ≠ .none) _ _ hs fun _ ht _ _ => haltStrand_keeps hh ht

theorem haltTeam_halts {s : State} {key sid : Nat} {h : Halt} (hh : h ≠ .none) (hi : sid ∈ (s.team key).sids) (hs : (mget? s.strands sid).isSome = true) :
    ((s.haltTeam key h).strand sid).halt ≠ .none := by
  rw [haltTeam_run]
  exact foldl_reaches (P := fun t : State => (mget? t.strands sid).isSome = true) (Q := fun t : State => (t.strand sid).halt ≠ .none) hi hs
    (fun t n ht => (haltStrand_view t h n sid).2.2.trans ht) (fun t => haltStrand_halts hh) fun t n => haltStrand_keeps hh

/-- The teams of a list halt. -/
def State.haltTeams (s : State) (ts : NMap Team) : State := ts.foldl (fun s p => s.haltTeam p.1 .moving) s

theorem haltTeams_regions (s : State) (ts : NMap Team) : (s.haltTeams ts).regions = s.regions :=
  foldl_keeps State.regions (fun s (p : Nat × Team) => (haltTeam_view s p.1 0 .moving).2.1) _ _

theorem haltTeams_halts {s : State} {ts : NMap Team} {p : Nat × Team} {sid : Nat} (hp : p ∈ ts) (hi : sid ∈ (s.team p.1).sids)
    (hs : (mget? s.strands sid).isSome = true) : ((s.haltTeams ts).strand sid).halt ≠ .none := by
  have moving : Halt.moving ≠ .none := by decide
  refine foldl_reaches (P := fun t : State => t.teams = s.teams ∧ (mget? t.strands sid).isSome = true) (Q := fun t : State => (t.strand sid).halt ≠ .none)
    hp ⟨rfl, hs⟩ (fun t q ht => ?_) (fun t ht => ?_) fun t q => haltTeam_keeps moving
  · obtain ⟨teams, -, listed⟩ := haltTeam_view t q.1 sid .moving
    exact ⟨teams.trans ht.1, listed.trans ht.2⟩
  · refine haltTeam_halts moving ?_ ht.2
    rwa [State.team, ht.1]

theorem MemStep.regions {s t : State} (h : MemStep s t) : t.regions = s.regions := by rw [h.1]; rfl

/-- The state of a region whose shutdown begins, with the teams of its core halted (R397). -/
def State.shutDown (s : State) (c i : Nat) : State :=
  (s.setRegion c i { s.region c i with shutdown := true, shutAt := s.ticks 8 }).haltTeams (s.teamsOn c)

section
variable {s : State} {c i : Nat} (ec : s.ev.core = c) (ei : s.ev.idx = i)
include ec ei

theorem tierEvents_outside (h : 64 ≤ c ∨ 4 ≤ i) : exec .tierShutdown s = .next s ∧ exec .regionPowerOff s = .next s := by
  subst ec ei
  constructor
  · change execTierShutdown s = _
    unfold execTierShutdown
    dsimp only
    rw [if_pos (by simp; omega)]
  · change execRegionPowerOff s = _
    unfold execRegionPowerOff
    dsimp only
    rw [if_pos (by simp; omega)]

theorem tierShutdown_run (hc : c < 64) (hi : i < 4) (ha : 4 ≤ (s.region c i).action) (h : (s.region c i).shutdown = false) :
    exec .tierShutdown s
      = .next (((linesOf (s.shutDown c i).ev.bytes).foldl (fun s ln => s.dcFlush (dieOf c) ln) (s.shutDown c i)).signal 0) := by
  subst ec ei
  change execTierShutdown s = _
  unfold execTierShutdown
  dsimp only
  rw [if_neg (by simp [h]; omega)]
  rfl

theorem tierShutdown_effect (hc : c < 64) (hi : i < 4) (ha : 4 ≤ (s.region c i).action) (h : (s.region c i).shutdown = false) :
    ∃ t, exec .tierShutdown s = .next t ∧ (t.region c i).shutdown = true ∧ (t.region c i).shutAt = s.ticks 8
      ∧ ∀ p ∈ s.teamsOn c, ∀ sid ∈ (s.team p.1).sids, s.isRes sid = true → (t.strand sid).halt ≠ .none := by
  refine ⟨_, tierShutdown_run ec ei hc hi ha h, ?_⟩
  have flush := MemStep.foldl (fun s ln => s.dcFlush (dieOf c) ln) (fun s ln => dcFlush_step s (dieOf c) ln) (linesOf (s.shutDown c i).ev.bytes) (s.shutDown c i)
  generalize (linesOf (s.shutDown c i).ev.bytes).foldl _ (s.shutDown c i) = u at flush ⊢
  obtain ⟨-, -, regions, strands, -⟩ := State.besideService_eq (signal_besideService u 0)
  have region : (u.signal 0).region c i = { s.region c i with shutdown := true, shutAt := s.ticks 8 } := by
    rw [State.region, regions, flush.regions, State.shutDown, haltTeams_regions]
    exact region_setRegion_same ..
  refine ⟨by rw [region], by rw [region], fun p hp sid hs hr => ?_⟩
  rw [State.strand, strands]
  change (u.strand sid).halt ≠ .none
  rw [flush.strand]
  exact haltTeams_halts hp hs (State.isRes_listed hr)

theorem regionPowerOff_empty (hc : c < 64) (hi : i < 4) (h : (s.region c i).shutdown = true) (ho : (s.region c i).off = false) (hb : s.ev.bytes = [])
    (ht : s.teamsOn c = []) : exec .regionPowerOff s = .next (s.setRegion c i { s.region c i with off := true }) := by
  subst ec ei
  have lines : ∀ r, linesOf (s.setRegion s.ev.core s.ev.idx r).ev.bytes = [] := fun _ => congrArg linesOf hb
  have teams : ∀ r, (s.setRegion s.ev.core s.ev.idx r).teamsOn s.ev.core = [] := fun _ => ht
  change execRegionPowerOff s = _
  unfold execRegionPowerOff
  dsimp only
  rw [if_neg (by simp [h, ho, hb, linesOf]; omega)]
  simp only [lines, List.foldl_nil, teams]

theorem regionReturnToService_effect (hc : c < 64) (hi : i < 4) (h : (s.region c i).off = true) (hv : s.ev.val ≤ 204) :
    ∃ t, exec .regionReturnToService s = .next t ∧ t.strands = s.strands ∧ t.hbm = s.hbm ∧ t.os = s.os
      ∧ t.region c i = { reading := s.ev.val, action := nextAction (s.region c i).action s.ev.val false 5 }
      ∧ ∀ d k, (d ≠ c ∨ k ≠ i) → k < 4 → t.region d k = s.region d k := by
  subst ec ei
  have run : exec .regionReturnToService s = .next ((s.setRegion s.ev.core s.ev.idx
      { reading := s.ev.val, action := nextAction (s.region s.ev.core s.ev.idx).action s.ev.val false 5 }).cooled s.ev.core) := by
    change execRegionReturnToService s = _
    dsimp only [execRegionReturnToService]
    rw [if_pos (by simp [hc, hi, h, threshold]; omega)]
  obtain ⟨regions, strands, hbm, os⟩ := cooled_view (s.setRegion s.ev.core s.ev.idx
    { reading := s.ev.val, action := nextAction (s.region s.ev.core s.ev.idx).action s.ev.val false 5 }) s.ev.core
  refine ⟨_, run, strands, hbm, os, ?_, fun d k hd hk => ?_⟩
  · rw [State.region, regions]
    exact region_setRegion_same ..
  · rw [State.region, regions]
    exact region_setRegion_ne hi hk hd

end

/-! ### Errors (R261, R352, R398, R399) and the tier test (R400) -/

theorem poisonWord_run {s : State} {c a : Nat} (hf : (s.osLine c (a / 256)).free = false) (ho : (s.ownerOf c a).isSome = true) :
    s.poisonWord c a = s.setOsLine c (a / 256) { s.osLine c (a / 256) with poison := (s.osLine c (a / 256)).poison ||| (1#64 <<< colOf a) } := by
  unfold State.poisonWord
  dsimp only
  rw [if_neg (by simpa [hf] using Option.isSome_iff_ne_none.mp ho)]

theorem operandUncorrectable_store {s : State} (h : s.ev.flag = false) (hc : s.ev.core < 64) :
    exec .operandUncorrectable s = .next (s.poisonWord s.ev.core s.ev.addr) := by
  change execOperandUncorrectable s = _
  simp [execOperandUncorrectable, h, hc]

theorem operandUncorrectable_strand {s : State} (h : s.ev.flag = true) (hr : s.isRes s.ev.who = true) :
    exec .operandUncorrectable s = .next (s.setStrand s.ev.who ((s.strand s.ev.who).poison s.ev.idx s.ev.val)) := by
  change execOperandUncorrectable s = _
  rw [execOperandUncorrectable, if_pos h, State.modStrand_of_isRes _ hr]

theorem poison_laneRegister {st : Strand} {i v : Nat} (hi : i < st.budget) (hv : v < 64) : st.poison i v = { st with vpois := st.vpois ++ [vKey i v] } := by
  rw [Strand.poison, if_pos hi, if_pos hv]

/-- The slot state of scalar register i − 2048 loses one of its two words, which the strand holds as CODE 0x0D (R242, R261). -/
theorem poison_scalarRegister {st : Strand} {i v : Nat} (hb : st.budget ≤ i) (hi : 2048 < i) (hi' : i < 2096) (hv : v < 2) :
    st.poison i v = { st with
      a := mset st.a (i - 2048) (zeroHalf v (st.reg (i - 2048))) 0
      held := st.held ++ [{ code := 0x0D, tmask := 0 }] } := by
  have slot : st.slotPoisoned i v = some ({ st with a := mset st.a (i - 2048) (zeroHalf v (st.reg (i - 2048))) 0 }, 0) := by
    unfold Strand.slotPoisoned
    iterate 6 rw [if_neg (by omega)]
    rw [if_neg (by omega), if_neg (by simp; omega), if_neg (by simp; omega), if_pos (by simp; omega)]
  rw [Strand.poison, if_neg (Nat.not_lt.mpr hb), slot]

theorem and_highHalf (x : W64) : x &&& 0xFFFFFFFF00000000 = x / 2 ^ 32 * 2 ^ 32 := by
  have two : (2 ^ 32 : W64) = BitVec.twoPow 64 32 := by decide
  have bits : ∀ i : Fin 64, (0xFFFFFFFF00000000 : W64).getLsbD i = decide (32 ≤ i.val) := by decide
  rw [two, BitVec.mul_twoPow_eq_shiftLeft, BitVec.udiv_twoPow_eq_of_lt (by decide)]
  apply BitVec.eq_of_getLsbD_eq
  intro i hi
  rw [BitVec.getLsbD_and, bits ⟨i, hi⟩, BitVec.getLsbD_shiftLeft, BitVec.getLsbD_ushiftRight]
  by_cases h : 32 ≤ i
  · simp [h, hi, Nat.not_lt.mpr h, Nat.add_sub_of_le h]
  · simp [h, hi, Nat.lt_of_not_le h]

theorem and_lowHalf (x : W64) : x &&& 0xFFFFFFFF = x % 2 ^ 32 := by
  apply BitVec.eq_of_toNat_eq
  rw [BitVec.toNat_and, BitVec.toNat_umod]
  exact Nat.and_two_pow_sub_one_eq_mod x.toNat 32

/-- The half that is kept of a value, as a quotient and as a remainder. -/
theorem zeroHalf_eq (h : Nat) (x : W64) : zeroHalf h x = if h = 0 then x / 2 ^ 32 * 2 ^ 32 else x % 2 ^ 32 := by
  rw [zeroHalf, and_highHalf, and_lowHalf]

theorem reg_mset (st : Strand) (r k : Nat) (x : W64) (l : List Held) (hr : r ≠ 0) :
    ({ st with a := mset st.a r x 0, held := l } : Strand).reg k = if k = r then x else st.reg k := by
  unfold Strand.reg
  rw [mget_mset]
  by_cases h0 : k = 0
  · simp [h0, Ne.symm hr]
  · simp [h0]

theorem memoryUncorrectable_copy {s : State} {l : DcLine} (h : s.ev.flag = true) (hc : s.ev.core < 8) (hm : s.inHbm s.ev.addr = true)
    (hl : s.dcLine s.ev.core (s.ev.addr / 128) = some l) :
    exec .memoryUncorrectable s = .next
      (if l.dirty = 0 then (s.dcPut s.ev.core (s.ev.addr / 128) { l with poisoned := true, bad := true }).poisonLine (s.ev.addr / 128)
        else s.dcPut s.ev.core (s.ev.addr / 128) { l with poisoned := true, bad := true }) := by
  change execMemoryUncorrectable s = _
  simp [execMemoryUncorrectable, h, hc, hm, State.markBad, hl]

theorem beatCrcFail_corrected {s : State} (hc : s.ev.core < 64) (hi : s.ev.idx < 16) (h : s.ev.size < 4) :
    exec .beatCrcFail s = .next { s with corrected := mput s.corrected s.ev.core (mget s.corrected s.ev.core 0 + 1) } := by
  change execBeatCrcFail s = _
  unfold execBeatCrcFail
  dsimp only
  rw [if_neg (by simp; omega), if_pos h, State.correctedError, if_pos hc]

/-- A spare column takes the place of a column of a bank (R399). -/
def State.useSpare (s : State) (b col : Nat) : State :=
  { s with spares := mput s.spares b (mget s.spares b 0 + 1), remap := mput s.remap (b * 64 + col) (mget s.spares b 0) }

theorem beatCrcFail_failed {s : State} {c i : Nat} (ec : s.ev.core = c) (ei : s.ev.idx = i) (hc : c < 64) (hi : i < 16) (h : 4 ≤ s.ev.size) :
    exec .beatCrcFail s =
      let b := c * 16 + i
      if 2 ≤ mget s.spares b 0 then .next ((s.poisonWord c s.ev.addr).retireCore c)
      else
        let u := s.useSpare b s.ev.val
        let w := if s.ev.flag = true then u else u.poisonWord c s.ev.addr
        .next (if mget s.spares b 0 = 1 then w.retireCore c else w) := by
  subst ec ei
  change execBeatCrcFail s = _
  unfold execBeatCrcFail
  dsimp only
  rw [if_neg (by simp; omega), if_neg (by omega)]
  rfl

theorem poisonWord_retired (s : State) (c a : Nat) : (s.poisonWord c a).retired = s.retired := by
  unfold State.poisonWord
  dsimp only
  split <;> rfl

theorem retireCore_retired (s : State) (c : Nat) :
    (s.retireCore c).retired.contains c = true ∧ ∀ d, s.retired.contains d = true → (s.retireCore c).retired.contains d = true := by
  unfold State.retireCore
  split
  · next h => exact ⟨h, fun _ hd => hd⟩
  · obtain ⟨-, -, -, -, -, retired⟩ := State.besideService_eq
      (signal_besideService (({ s with retired := s.retired ++ [c] } : State).report 0x18F (BitVec.ofNat 64 c) 0 0) 0)
    rw [retired]
    exact ⟨by simp, fun d hd => by simp_all⟩

/-! ### The statement, part by part -/

theorem powerThrottleStep_clauses {s : State} {v : Nat} (e : s.ev.val = v) :
    (s.ticks 8 < s.powerAt + 10000 → exec .powerThrottleStep s = .next { s with lowSince := s.lowFrom v })
    ∧ (s.powerAt + 10000 ≤ s.ticks 8 →
      (v ≤ s.plim → v * 100 < s.plim * 95 → s.lowSince.getD (s.ticks 8) + 100000 ≤ s.ticks 8 →
        exec .powerThrottleStep s = .next ((List.range 64).foldl (fun s k => if s.hot k = true then s else s.setStep k (s.clockStep k - 1))
          { s with lowSince := s.lowFrom v, powerAt := s.ticks 8 }))
      ∧ (v ≤ s.plim → (s.plim * 95 ≤ v * 100 ∨ s.ticks 8 < s.lowSince.getD (s.ticks 8) + 100000) →
        exec .powerThrottleStep s = .next { s with lowSince := s.lowFrom v })) := by
  have run := powerThrottleStep_run e
  dsimp only at run
  refine ⟨fun h => by rw [run, if_pos h], fun hn => ?_⟩
  rw [if_neg (Nat.not_lt.mpr hn)] at run
  refine ⟨fun hv hl ht => ?_, fun hv h => ?_⟩
  · rw [run, if_neg (Nat.not_lt.mpr hv), if_pos (by simp [State.lowFrom, hl, lasted, ht])]
  · rw [run, if_neg (Nat.not_lt.mpr hv), if_neg]
    by_cases hl : v * 100 < s.plim * 95
    · simp only [State.lowFrom, if_pos hl, lasted, decide_eq_true_eq]; omega
    · simp [State.lowFrom, hl, lasted]

theorem thermalClockStep_clauses (s : State) :
    (s.hot s.ev.core = true → (mget? s.stepAt s.ev.core = none ∨ ∃ t, mget? s.stepAt s.ev.core = some t ∧ t + 1000 ≤ s.ticks 8) →
      ∃ t, exec .thermalClockStep s = .next t ∧ t.clockStep s.ev.core = min 12 (s.clockStep s.ev.core + 1)
        ∧ mget? t.stepAt s.ev.core = some (s.ticks 8) ∧ t.strands = s.strands)
    ∧ (s.hot s.ev.core = false ∨ (∃ t, mget? s.stepAt s.ev.core = some t ∧ s.ticks 8 < t + 1000) → exec .thermalClockStep s = .next s) := by
  have run := thermalClockStep_run s
  refine ⟨fun hot due => ?_, fun h => ?_⟩
  · have may : (mget? s.stepAt s.ev.core).all (fun t => decide (t + 1000 ≤ s.ticks 8)) = true := by
      rcases due with h | ⟨t, h, ht⟩
      · rw [h]; rfl
      · rw [h]; exact decide_eq_true ht
    rw [if_pos (by rw [hot, may]; rfl)] at run
    refine ⟨_, run, ?_, mget?_mput_same .., rfl⟩
    change (s.setStep s.ev.core _).clockStep s.ev.core = _
    rw [State.clockStep_setStep, if_pos rfl]
  · rw [run, if_neg]
    rcases h with h | ⟨t, h, ht⟩
    · simp [h]
    · simp [h, ht]

theorem operandUncorrectable_clauses {s : State} (h : s.ev.flag = true) (hr : s.isRes s.ev.who = true) {st : Strand} (es : s.strand s.ev.who = st) :
    (s.ev.idx < st.budget → s.ev.val < 64 →
      exec .operandUncorrectable s = .next (s.setStrand s.ev.who { st with vpois := st.vpois ++ [vKey s.ev.idx s.ev.val] }))
    ∧ (st.budget ≤ s.ev.idx → 2048 < s.ev.idx → s.ev.idx < 2096 → s.ev.val < 2 → ∃ t, exec .operandUncorrectable s = .next (s.setStrand s.ev.who t)
      ∧ t.reg (s.ev.idx - 2048) = (if s.ev.val = 0 then st.reg (s.ev.idx - 2048) / 2 ^ 32 * 2 ^ 32 else st.reg (s.ev.idx - 2048) % 2 ^ 32)
      ∧ t.held = st.held ++ [{ code := 0x0D, tmask := 0 }] ∧ (∀ r, r ≠ s.ev.idx - 2048 → t.reg r = st.reg r) ∧ t.v = st.v ∧ t.q = st.q) := by
  have run := operandUncorrectable_strand h hr
  rw [es] at run
  refine ⟨fun hi hv => by rw [run, poison_laneRegister hi hv], fun hb hi hi' hv => ⟨_, run, ?_⟩⟩
  rw [poison_scalarRegister hb hi hi' hv]
  refine ⟨?_, rfl, fun r hr => ?_, rfl, rfl⟩
  · rw [reg_mset _ _ _ _ _ (by omega), if_pos rfl, zeroHalf_eq]
  · rw [reg_mset _ _ _ _ _ (by omega), if_neg hr]

theorem beatCrcFail_clauses {s : State} {c i used : Nat} (ec : s.ev.core = c) (ei : s.ev.idx = i) (hc : c < 64) (hi : i < 16) (h : 4 ≤ s.ev.size)
    (eu : mget s.spares (c * 16 + i) 0 = used) :
    (used = 0 → s.ev.flag = true → exec .beatCrcFail s = .next (s.useSpare (c * 16 + i) s.ev.val))
    ∧ (used = 0 → s.ev.flag = false → exec .beatCrcFail s = .next ((s.useSpare (c * 16 + i) s.ev.val).poisonWord c s.ev.addr))
    ∧ (1 ≤ used → ∃ t, exec .beatCrcFail s = .next t ∧ t.retired.contains c = true ∧ ∀ d, s.retired.contains d = true → t.retired.contains d = true) := by
  have run := beatCrcFail_failed ec ei hc hi h
  dsimp only at run
  rw [eu] at run
  have retires : ∀ t : State, t.retired = s.retired → (t.retireCore c).retired.contains c = true
      ∧ ∀ d, s.retired.contains d = true → (t.retireCore c).retired.contains d = true := fun t ht => ht ▸ retireCore_retired t c
  refine ⟨fun h0 hf => ?_, fun h0 hf => ?_, fun h1 => ?_⟩
  · rw [run, if_neg (by omega), if_neg (by omega), if_pos hf]
  · rw [run, if_neg (by omega), if_neg (by omega), if_neg (by simp [hf])]
  · by_cases h2 : 2 ≤ used
    · rw [if_pos h2] at run
      exact ⟨_, run, retires _ (poisonWord_retired ..)⟩
    · rw [if_neg h2, if_pos (by omega)] at run
      refine ⟨_, run, retires _ ?_⟩
      split
      · rfl
      · exact poisonWord_retired ..

theorem tierTestYield_offered {s : State} (h : s.ev.flag = true) (hc : s.ev.core < 64) (ht : s.testing.contains s.ev.core = false)
    (hr : s.teamsOn s.ev.core = []) (hm : s.mxCmds s.ev.core = []) :
    exec .tierTestYield s = .next { s with testing := s.testing ++ [s.ev.core] } := by
  change execTierTestYield s = _
  unfold execTierTestYield
  dsimp only
  rw [if_pos h, hr, hm, if_pos (by simpa [hc] using ht)]

theorem tierTestYield_yields {s : State} (h : s.ev.flag = false) : exec .tierTestYield s = .next { s with testing := s.testing.filter (· != s.ev.core) } := by
  change execTierTestYield s = _
  unfold execTierTestYield
  dsimp only
  rw [if_neg (by simp [h])]

/-- Settles O52: die loss, power, temperature, tier regions, errors and the tier test, each by the lemmas above on its events. -/
theorem lossHeatAndErrors : Obligations.LossHeatAndErrors := by
  unfold Obligations.LossHeatAndErrors
  intro s c i v now
  refine ⟨⟨fun h => dieLoss_run h, dieLoss_spares⟩, dieLoss_notLive, fun x => ?_, ?_, (thermalClockStep_clauses s).1, (thermalClockStep_clauses s).2,
    ?_, ?_, fun h hc hf ho => ?_, fun h hr => operandUncorrectable_clauses h hr rfl, fun l h hc hm hl => memoryUncorrectable_copy h hc hm hl, fun k => rfl,
    beatCrcFail_corrected, fun hc hi h => beatCrcFail_clauses rfl rfl hc hi h rfl, tierTestYield_offered, tierTestYield_yields⟩
  · refine ⟨fun y => ctxLoss_marks, fun p hp hc ha sid hi => ctxLoss_holds hp hc ha hi, fun p hp hc he hl n => ctxLoss_breaks hp hc he hl,
      fun k l hl h0 w n => ctxLoss_unplaced hl h0 w, fun e => ctxLoss_colls, (ctxLoss_frame s x).1⟩
  · obtain ⟨early, late⟩ := powerThrottleStep_clauses (s := s) rfl
    exact ⟨early, fun hn => ⟨powerThrottleStep_over rfl hn, late hn⟩⟩
  · exact ⟨fun hc hi => thermalThreshold_effect rfl rfl rfl hc hi rfl, thermalThreshold_other⟩
  · refine ⟨tierEvents_outside rfl rfl, tierShutdown_effect rfl rfl, regionPowerOff_empty rfl rfl,
      fun _ hi h _ sid hs => mayIssue_coreStopped hi h hs, regionReturnToService_effect rfl rfl⟩
  · rw [operandUncorrectable_store h hc, poisonWord_run hf ho]

end Sys2Proof.Machine
end
